-- ==== Sys2Proof/Word.lean ====
section
/-! DEFINITION. The word types of the KY-4 and their plainest arithmetic (spec/00_scope.md R2, R3, R9). -/

namespace Sys2Proof

/-- A 64-bit scalar: s-registers, e-registers, CSRs, addresses while they are computed (R98, R107). -/
abbrev Word := BitVec 64

/-- One byte of memory (R4). -/
abbrev Byte := BitVec 8

/-- One tile row, 1 KiB (R98); element i of size n bytes stands at byte i·n (R113). -/
abbrev Row := BitVec 8192

/-- One vector mask, 1,024 bits (R390). -/
abbrev VMask := BitVec 1024

/-- The bits `[lo + n - 1 : lo]` of a number (R3). -/
def bits (w lo n : Nat) : Nat := w / 2 ^ lo % 2 ^ n

/-- A field of n bits read as two's complement (R97). -/
def signed (n v : Nat) : Int := if v % 2 ^ n < 2 ^ (n - 1) then (v % 2 ^ n : Nat) else (v % 2 ^ n : Nat) - 2 ^ n

end Sys2Proof
end

