-- ==== Sys2Proof/Syntax.lean ====
section
/-! DEFINITION. The instruction set Vilton, version 1, and the steps of the other units, as one inductive:
one constructor for each row of spec/opcode_table.json. Register numbers and codes are the spec's (00 R7, 04 R98 to R106). -/

namespace Sys2Proof

/-- The five engines of a stream (R7, Table 4.4). -/
inductive Engine | s | v | m | c | f
  deriving DecidableEq, Repr, Inhabited

/-- Visibility scopes (R6, Table 0.3). -/
inductive Scope | core | grp | die | dev | sys
  deriving DecidableEq, Repr

/-- Access sizes of S loads and stores and of VGATH/VSCAT: 1, 2, 4 or 8 bytes. -/
inductive MemSize | b | h | w | d
  deriving DecidableEq, Repr

/-- Condition codes (R99, Table 4.7); the last two read as LTN, LEN for CMP and UNORD, ORD for VCMP. -/
inductive Cond | eq | ne | lt | le | gt | ge | ltn | len
  deriving DecidableEq, Repr

/-- How CMP writes its predicate: set, AND into it, OR into it (R320). -/
inductive CmpMode | set | and | or
  deriving DecidableEq, Repr

/-- Type codes (R100, Table 4.8). -/
inductive Ty | f32 | bf16 | f16 | i32 | i16 | i8 | n8 | z8 | z4 | rns
  deriving DecidableEq, Repr

/-- Rounding codes (R100, R131). -/
inductive Rnd | rne | rz | rdn | rup | rna
  deriving DecidableEq, Repr

/-- AMO operations (Table 4.14, R299). -/
inductive AmoOp | add | and | or | xor | min | max | minn | maxn | swap
  deriving DecidableEq, Repr

/-- The order field of AMO and ACAS (Table 4.14). -/
inductive Order | rlx | acq | rel | ar
  deriving DecidableEq, Repr

/-- FENCE kinds (R196). -/
inductive FenceKind | acq | rel | full
  deriving DecidableEq, Repr

/-- VRED operations (R411). -/
inductive RedOp | add | max | min | and | or | xor
  deriving DecidableEq, Repr

/-- Scanned-region update operations (R169, Table 7.2). -/
inductive ScanOp | set | addF32 | addBf16 | addF16 | addI32 | maxF32 | minF32
  deriving DecidableEq, Repr

abbrev SReg := Fin 32
abbrev PReg := Fin 4
abbrev VReg := Fin 32
abbrev MReg := Fin 4
abbrev EReg := Fin 8
abbrev Ring := Fin 16

/-- Every row of spec/opcode_table.json. First the instructions a lane can hold, in the table's order, then the
steps of the other units; a step's operands say which unit takes it and what reaches the machine from outside
(the spec gives those rows no operands: design choice, assumption 4). -/
inductive Instr where
  -- common instructions (Table 4.9)
  | nop (e : Engine)
  | loop (e : Engine) (lvl : Fin 4) (cnt : Fin 32) (body : Fin 1024) (stages : Fin 9) (rot tok : Bool)
  | rep (e : Engine) (n : Fin 64) (dA dB dC : BitVec 3)
  | notify (e : Engine) (tag : BitVec 17)
  | qpush (e : Engine) (a : SReg)
  | epop (e : Engine) (d : EReg)
  -- S instructions (Table 4.10)
  | toks (e : Engine) (v : Bool)
  | csrr (d : SReg) (c : BitVec 12)
  | csrw (a : SReg) (c : BitVec 12)
  | winWrite (v : Word)
  | wdogWrite (v : Word)
  | add (d a b : SReg)
  | sub (d a b : SReg)
  | mul (d a b : SReg)
  | mulh (d a b : SReg)
  | mulhn (d a b : SReg)
  | div (d a b : SReg)
  | divn (d a b : SReg)
  | rem (d a b : SReg)
  | remn (d a b : SReg)
  | and (d a b : SReg)
  | or (d a b : SReg)
  | xor (d a b : SReg)
  | shl (d a b : SReg)
  | shr (d a b : SReg)
  | sra (d a b : SReg)
  | min (d a b : SReg)
  | minn (d a b : SReg)
  | max (d a b : SReg)
  | maxn (d a b : SReg)
  | cmp (p : PReg) (c : Cond) (a b : SReg) (v : CmpMode)
  | sel (d a b : SReg) (p : PReg)
  | clz (d a : SReg)
  | ctz (d a : SReg)
  | popc (d a : SReg)
  | addi (d a : SReg) (i : BitVec 7)
  | andi (d a : SReg) (i : BitVec 7)
  | ori (d a : SReg) (i : BitVec 7)
  | xori (d a : SReg) (i : BitVec 7)
  | shli (d a : SReg) (n : Fin 64)
  | shri (d a : SReg) (n : Fin 64)
  | srai (d a : SReg) (n : Fin 64)
  | cmpi (p : PReg) (c : Cond) (a : SReg) (i : BitVec 7)
  | limm (d : SReg) (imm : BitVec 32)
  | lup (d : SReg) (imm : BitVec 32)
  | ext (d a : SReg) (pos len : Fin 64)
  | extS (d a : SReg) (pos len : Fin 64)
  | ins (d a : SReg) (pos len : Fin 64)
  | plog (d a b : PReg) (t : BitVec 4)
  | ld (d b : SReg) (s : MemSize) (o : BitVec 5)
  | st (a b : SReg) (s : MemSize) (o : BitVec 5)
  | spld (d : SReg) (n : Fin 1024)
  | spst (a : SReg) (n : Fin 1024)
  | mark
  | ldacq (d b : SReg) (s : MemSize) (sc : Scope) (off : BitVec 20)
  | strel (a b : SReg) (s : MemSize) (sc : Scope) (off : BitVec 20)
  | fence (sc : Scope) (k : FenceKind) (mask : BitVec 5)
  | tlook (d a : SReg)
  | tset (d a b : SReg)
  | tinv (a : SReg)
  | br (p : PReg) (sense : Bool) (o : BitVec 14)
  | jmp (o : BitVec 17)
  | call (o : BitVec 17)
  | ret
  | yield
  | wfill (r : Ring) (a : SReg)
  | wfree (r : Ring) (a : SReg)
  | wevt (d : SReg) (mask : BitVec 8)
  | waitge (a b : SReg) (sc : Scope) (off : BitVec 20)
  | rinit (r : Ring) (a b : SReg)
  | rclaim (d : SReg) (r : Ring) (a : SReg)
  | rcommit (r : Ring) (a : SReg)
  | rfree (r : Ring) (a : SReg)
  | amo (d b c : SReg) (op : AmoOp) (ord : Order) (sc : Scope) (dbl : Bool) (off : BitVec 20)
  | acas (d b exp new : SReg) (ord : Order) (sc : Scope) (dbl : Bool) (off : BitVec 20)
  | bar (b c : SReg)
  | sev (a : SReg) (user : BitVec 3) (ev : Bool)
  | gflip (b : SReg) (owner : Bool) (off : BitVec 20)
  | rnext (d a : SReg)
  | launch (d a : SReg)
  | ovl (a : SReg) (mask : BitVec 5)
  | fmtq (a : SReg)
  | trap (a b : SReg)
  | eret
  | tlbi (a b : SReg)
  | halt
  | agrant (a b : SReg)
  | arevoke (a : SReg)
  | aerase (a : SReg)
  | aattest (a b : SReg)
  | astat (d a : SReg)
  | smig (a b : SReg)
  -- V instructions (Table 4.12)
  | vadd (d a b : VReg) (m : MReg)
  | vsub (d a b : VReg) (m : MReg)
  | vmul (d a b : VReg) (m : MReg)
  | vfma (d a b : VReg) (m : MReg)
  | vmin (d a b : VReg) (m : MReg)
  | vmax (d a b : VReg) (m : MReg)
  | vand (d a b : VReg) (m : MReg)
  | vor (d a b : VReg) (m : MReg)
  | vxor (d a b : VReg) (m : MReg)
  | vshl (d a b : VReg) (m : MReg)
  | vshr (d a b : VReg) (m : MReg)
  | vshrl (d a b : VReg) (m : MReg)
  | vcmp (md : MReg) (c : Cond) (a b : VReg) (m : MReg)
  | vsel (d a b : VReg) (m : MReg)
  | vcvt (d a : VReg) (es : EReg) (tfrom tto : Ty) (rnd : Rnd) (sat scl : Bool)
  | vred (d a : VReg) (op : RedOp)
  | vperm (d a b : VReg)
  | vbcast (d : VReg) (a : EReg)
  | vext (d : EReg) (a : VReg) (l : EReg)
  | vins (d : VReg) (a l : EReg)
  | vld (d : VReg) (b : EReg) (o : BitVec 5) (m : MReg)
  | vst (a : VReg) (b : EReg) (o : BitVec 5) (m : MReg)
  | vgath (d vi : VReg) (b : EReg) (m : MReg) (s : MemSize)
  | vscat (a vi : VReg) (b : EReg) (m : MReg) (s : MemSize)
  | vpush (k : Fin 4) (a : VReg) (m : MReg)
  | vpop (d : VReg) (k : Fin 4) (md : MReg)
  | vclose (k : Fin 4)
  | vrnd (d : VReg) (seed idx : EReg)
  | vdrop (d a : VReg) (seed idx ts : EReg) (md : MReg)
  | vtype (t : Ty)
  | vqpop (d : VReg) (st : EReg)
  -- M instructions (Table 4.13)
  | mcfg (lvl : Fin 7) (fld : Fin 6) (a : EReg)
  | mgo
  | mpass (act arr : EReg) (row : VReg) (acc t : Bool)
  | mlds (a : EReg) (t : Bool)
  | mswap
  | mclr (row : VReg) (n : Fin 32)
  | mconv (row : VReg) (n : Fin 32) (s : EReg) (f32 : Bool)
  | awrite (src an cnt : EReg) (first : Fin 256)
  -- C instructions (Table 4.13)
  | ccopy (a : EReg)
  | cgath (a : EReg)
  | cscanr (a len d lapr : EReg) (lap vq : Bool)
  | cscanu (a src len lapr : EReg) (lap : Bool) (op : ScanOp)
  | clap (d r : EReg) (close : Bool)
  | cbank (src dst rows : EReg)
  | ccopyf (a flag val : EReg) (sc : Scope) (add : Bool)
  -- F instructions (Table 4.13); the type is f32, bf16 or f16
  | fexp2 (d a : VReg) (t : Ty)
  | flog2 (d a : VReg) (t : Ty)
  | frcp (d a : VReg) (t : Ty)
  | frsq (d a : VReg) (t : Ty)
  | ftanh (d a : VReg) (t : Ty)
  | fsigm (d a : VReg) (t : Ty)
  | ferf (d a : VReg) (t : Ty)
  -- steps of a stream's own units (chapter 03); sid names the stream
  | fetchLine (sid : Nat)
  | tokenWaitResume (sid : Nat) (e : Engine)
  | tokenPushResume (sid : Nat) (e : Engine)
  | scalarFifoResume (sid : Nat) (e : Engine)
  | formatQueueResume (sid : Nat)
  | slipWindowResume (sid : Nat) (e : Engine)
  | streamPark (sid : Nat)
  | waitWake (sid : Nat)
  | streamSwitch (core : Nat)
  | switchQuantumExpiry (core : Nat)
  | fExposure (sid : Nat)
  | operandWindowRetire (core : Nat)
  | completionCombine (sid : Nat)
  | recordCompletionEvent (die wid : Nat)
  | walkerTakeRecord (die wid : Nat)
  | iterationPlace (die : Nat)
  | stall (sid : Nat)
  | faultRecordAppend (wid : Nat)
  -- service cores, contexts, partitions, migration (chapter 09); sid names the firmware stream that commands
  | handlerEntry (sid : Nat)
  | migrationMove (sid : Nat)
  | ctxSave (sid : Nat)
  | ctxRestore (sid : Nat)
  | ctxCommandDone (sid : Nat)
  | pswapSave (sid : Nat)
  | pswapRestore (sid : Nat)
  | pswapDone (sid : Nat)
  | pgateGate (sid : Nat)
  | pgateUngate (sid : Nat)
  | pgateDone (sid : Nat)
  -- firmware services (R394): the block of world wid at DVA blk, asked for by stream sid
  | map (sid blk : Nat)
  | unmap (sid blk : Nat)
  | scanRegionRelease (region : Nat)
  | scanmake (sid blk : Nat)
  | gatebindBind (sid blk : Nat)
  | gatebindUnbind (sid blk : Nat)
  | leaseRequest (sid blk : Nat)
  | leaseWake (sid blk : Nat)
  | leaseReserve (sid blk : Nat)
  | leaseEop (sid blk : Nat)
  | unlease (sid blk : Nat)
  | leaseFinalStatus (grant : Bool) (weight : Nat)
  | evidenceWorldReport (sid blk : Nat)
  | evidenceCollectRecord (sid blk : Nat)
  | resumeRetry (sid blk : Nat)
  | resumeAbandon (sid blk : Nat)
  -- bays, nests, commands and slices
  | arrayPass (bay : Nat)
  | mgoPass (sid : Nat)
  | awriteRowStep (bay : Nat) (ok : Bool)
  | eraseStep (bay : Nat) (ok : Bool)
  | metadataCheckpoint
  | copyStep (sid idx : Nat)
  | scanAdmission (sid : Nat)
  | lapBell (region : Nat)
  | closeMarkerArrive (region slice port : Nat)
  | sliceZeroRow (region slice : Nat)
  | sliceRowServe (region slice : Nat)
  | slicePassEnd (region slice : Nat)
  | scanReplyDeliver (sid : Nat)
  | gateFlipCommit (sid : Nat)
  | notificationAppend (wid : Nat)
  | errorLogAppend (wid : Nat)
  -- host link, intake, links (chapter 12)
  | doorbell (vf : Nat) (v : Word)
  | vfResume (vf : Nat) (v : Word)
  | vfEvidence (vf : Nat) (v : Word)
  | vfRegisterWrite (vf off : Nat) (v : Word)
  | intakePacket (port : Nat) (payload : List Byte)
  | tsudalPacket (link wid slot : Nat) (ok : Bool)
  | dieLinkFrame (link : Nat) (ok : Bool)
  | linkKeyInstall (link : Nat)
  | linkKeySwitch (link : Nat) (endB : Bool)
  | linkKeyRetire (link : Nat) (endB : Bool)
  | functionLevelReset (vf : Nat)
  | worldTeardown (wid : Nat)
  | getVersion (vf : Nat)
  | getCapabilities (vf : Nat)
  | negotiateAlgorithms (vf : Nat)
  | getDigests (vf : Nat)
  | getCertificate (vf : Nat)
  | challenge (vf : Nat)
  | getMeasurements (vf : Nat)
  | keyExchange (vf : Nat) (ok : Bool)
  | finish (vf : Nat) (ok : Bool)
  | endSession (vf : Nat)
  | lockInterface (vf : Nat)
  | startInterface (vf : Nat)
  | ideKmKeyRefresh (vf : Nat)
  | enrolment (addr : BitVec 128) (port vlim vwin : Nat)
  | enrolmentWithdraw
  | alarmRepeat
  -- start, power and temperature (chapter 01)
  | bootStageA (version : Nat) (ok : Bool)
  | rollbackIncrement (cut : Bool)
  | bootStageB
  | dieJoin (die : Nat) (ok : Bool)
  | powerLoss
  | governorTick (die cls limit : Nat)
  | fastLimit (die : Nat) (above : Bool)
  | thermalThrottle (die temp : Nat)
  | throttleRelease (die temp : Nat)
  | thermalTrip (die temp : Nat)
  | hostRestart
  | worldMake (wid vf : Nat)
  | hostWrite (wid dva : Nat) (data : List Byte)
  | tdiError (vf : Nat)
  | unsupportedRequest (vf : Nat)
  deriving DecidableEq, Repr

/-- A lane that issues: its token and gate fields (R95, R96) around its instruction. -/
structure Lane where
  tw : Option Engine
  ts : Option Engine
  g : Fin 8
  instr : Instr
  deriving DecidableEq, Repr

end Sys2Proof
end

