-- ==== Sys2Proof/WellFormed.lean ====
section
/-! DEFINITION. Which instructions the encoding can hold (04 R96 to R106 and the reference entries), and which
operands a step of another unit may name. Cases that depend on the state (R67, R71, R96's gates) are checked at issue. -/

namespace Sys2Proof

/-- Element width in bytes as VCVT counts it (R402: rns counts 4); z8 and z4 never reach it. -/
def Ty.bytes : Ty → Nat
  | .f32 | .i32 | .rns => 4
  | .bf16 | .f16 | .i16 => 2
  | .i8 | .n8 | .z8 | .z4 => 1

/-- The six types VTY may hold (R128, Table 5.6). -/
def Ty.vector : Ty → Bool
  | .f32 | .bf16 | .f16 | .i32 | .i16 | .i8 => true
  | .n8 | .z8 | .z4 | .rns => false

/-- The three types of the F engine (R332). -/
def Ty.special : Ty → Bool
  | .f32 | .bf16 | .f16 => true
  | .i32 | .i16 | .i8 | .n8 | .z8 | .z4 | .rns => false

/-- A type VCVT accepts on both sides (R132). -/
def Ty.cvt : Ty → Bool
  | .z8 | .z4 | .rns => false
  | .f32 | .bf16 | .f16 | .i32 | .i16 | .i8 | .n8 => true

/-- The pairs of types VCVT accepts, with or without a scale (R132). -/
def cvtLegal (tfrom tto : Ty) (scl : Bool) : Bool :=
  (tfrom.cvt && tto.cvt) ||
  (tfrom == .rns && (tto == .i32 || tto == .f32) && !scl) ||
  (tfrom == .i32 && tto == .rns && !scl)

/-- How many registers the side of type `a` takes when the other side has type `b` (R402). -/
def cvtRegs (a b : Ty) : Nat := if b.bytes < a.bytes then a.bytes / b.bytes else 1

/-- The engine that issues an instruction; none for a step of another unit (R40, Tables 4.9 to 4.13). -/
def Instr.engine : Instr → Option Engine
  | .nop e => some e
  | .loop e _ _ _ _ _ _ => some e
  | .rep e _ _ _ _ => some e
  | .notify e _ => some e
  | .qpush _ _ => some .s
  | .epop e _ => some e
  | .toks _ _ => some .s
  | .csrr _ _ => some .s
  | .csrw _ _ => some .s
  | .winWrite _ => none
  | .wdogWrite _ => none
  | .add _ _ _ => some .s
  | .sub _ _ _ => some .s
  | .mul _ _ _ => some .s
  | .mulh _ _ _ => some .s
  | .mulhn _ _ _ => some .s
  | .div _ _ _ => some .s
  | .divn _ _ _ => some .s
  | .rem _ _ _ => some .s
  | .remn _ _ _ => some .s
  | .and _ _ _ => some .s
  | .or _ _ _ => some .s
  | .xor _ _ _ => some .s
  | .shl _ _ _ => some .s
  | .shr _ _ _ => some .s
  | .sra _ _ _ => some .s
  | .min _ _ _ => some .s
  | .minn _ _ _ => some .s
  | .max _ _ _ => some .s
  | .maxn _ _ _ => some .s
  | .cmp _ _ _ _ _ => some .s
  | .sel _ _ _ _ => some .s
  | .clz _ _ => some .s
  | .ctz _ _ => some .s
  | .popc _ _ => some .s
  | .addi _ _ _ => some .s
  | .andi _ _ _ => some .s
  | .ori _ _ _ => some .s
  | .xori _ _ _ => some .s
  | .shli _ _ _ => some .s
  | .shri _ _ _ => some .s
  | .srai _ _ _ => some .s
  | .cmpi _ _ _ _ => some .s
  | .limm _ _ => some .s
  | .lup _ _ => some .s
  | .ext _ _ _ _ => some .s
  | .extS _ _ _ _ => some .s
  | .ins _ _ _ _ => some .s
  | .plog _ _ _ _ => some .s
  | .ld _ _ _ _ => some .s
  | .st _ _ _ _ => some .s
  | .spld _ _ => some .s
  | .spst _ _ => some .s
  | .mark => some .s
  | .ldacq _ _ _ _ _ => some .s
  | .strel _ _ _ _ _ => some .s
  | .fence _ _ _ => some .s
  | .tlook _ _ => some .s
  | .tset _ _ _ => some .s
  | .tinv _ => some .s
  | .br _ _ _ => some .s
  | .jmp _ => some .s
  | .call _ => some .s
  | .ret => some .s
  | .yield => some .s
  | .wfill _ _ => some .s
  | .wfree _ _ => some .s
  | .wevt _ _ => some .s
  | .waitge _ _ _ _ => some .s
  | .rinit _ _ _ => some .s
  | .rclaim _ _ _ => some .s
  | .rcommit _ _ => some .s
  | .rfree _ _ => some .s
  | .amo _ _ _ _ _ _ _ _ => some .s
  | .acas _ _ _ _ _ _ _ _ => some .s
  | .bar _ _ => some .s
  | .sev _ _ _ => some .s
  | .gflip _ _ _ => some .s
  | .rnext _ _ => some .s
  | .launch _ _ => some .s
  | .ovl _ _ => some .s
  | .fmtq _ => some .s
  | .trap _ _ => some .s
  | .eret => some .s
  | .tlbi _ _ => some .s
  | .halt => some .s
  | .agrant _ _ => some .s
  | .arevoke _ => some .s
  | .aerase _ => some .s
  | .aattest _ _ => some .s
  | .astat _ _ => some .s
  | .smig _ _ => some .s
  | .vadd _ _ _ _ => some .v
  | .vsub _ _ _ _ => some .v
  | .vmul _ _ _ _ => some .v
  | .vfma _ _ _ _ => some .v
  | .vmin _ _ _ _ => some .v
  | .vmax _ _ _ _ => some .v
  | .vand _ _ _ _ => some .v
  | .vor _ _ _ _ => some .v
  | .vxor _ _ _ _ => some .v
  | .vshl _ _ _ _ => some .v
  | .vshr _ _ _ _ => some .v
  | .vshrl _ _ _ _ => some .v
  | .vcmp _ _ _ _ _ => some .v
  | .vsel _ _ _ _ => some .v
  | .vcvt _ _ _ _ _ _ _ _ => some .v
  | .vred _ _ _ => some .v
  | .vperm _ _ _ => some .v
  | .vbcast _ _ => some .v
  | .vext _ _ _ => some .v
  | .vins _ _ _ => some .v
  | .vld _ _ _ _ => some .v
  | .vst _ _ _ _ => some .v
  | .vgath _ _ _ _ _ => some .v
  | .vscat _ _ _ _ _ => some .v
  | .vpush _ _ _ => some .v
  | .vpop _ _ _ => some .v
  | .vclose _ => some .v
  | .vrnd _ _ _ => some .v
  | .vdrop _ _ _ _ _ _ => some .v
  | .vtype _ => some .v
  | .vqpop _ _ => some .v
  | .mcfg _ _ _ => some .m
  | .mgo => some .m
  | .mpass _ _ _ _ _ => some .m
  | .mlds _ _ => some .m
  | .mswap => some .m
  | .mclr _ _ => some .m
  | .mconv _ _ _ _ => some .m
  | .awrite _ _ _ _ => some .m
  | .ccopy _ => some .c
  | .cgath _ => some .c
  | .cscanr _ _ _ _ _ _ => some .c
  | .cscanu _ _ _ _ _ _ => some .c
  | .clap _ _ _ => some .c
  | .cbank _ _ _ => some .c
  | .ccopyf _ _ _ _ _ => some .c
  | .fexp2 _ _ _ => some .f
  | .flog2 _ _ _ => some .f
  | .frcp _ _ _ => some .f
  | .frsq _ _ _ => some .f
  | .ftanh _ _ _ => some .f
  | .fsigm _ _ _ => some .f
  | .ferf _ _ _ => some .f
  | .fetchLine _ => none
  | .tokenWaitResume _ _ => none
  | .tokenPushResume _ _ => none
  | .scalarFifoResume _ _ => none
  | .formatQueueResume _ => none
  | .slipWindowResume _ _ => none
  | .streamPark _ => none
  | .waitWake _ => none
  | .streamSwitch _ => none
  | .switchQuantumExpiry _ => none
  | .fExposure _ => none
  | .operandWindowRetire _ => none
  | .completionCombine _ => none
  | .recordCompletionEvent _ _ => none
  | .walkerTakeRecord _ _ => none
  | .iterationPlace _ => none
  | .stall _ => none
  | .faultRecordAppend _ => none
  | .handlerEntry _ => none
  | .migrationMove _ => none
  | .ctxSave _ => none
  | .ctxRestore _ => none
  | .ctxCommandDone _ => none
  | .pswapSave _ => none
  | .pswapRestore _ => none
  | .pswapDone _ => none
  | .pgateGate _ => none
  | .pgateUngate _ => none
  | .pgateDone _ => none
  | .map _ _ => none
  | .unmap _ _ => none
  | .scanRegionRelease _ => none
  | .scanmake _ _ => none
  | .gatebindBind _ _ => none
  | .gatebindUnbind _ _ => none
  | .leaseRequest _ _ => none
  | .leaseWake _ _ => none
  | .leaseReserve _ _ => none
  | .leaseEop _ _ => none
  | .unlease _ _ => none
  | .leaseFinalStatus _ _ => none
  | .evidenceWorldReport _ _ => none
  | .evidenceCollectRecord _ _ => none
  | .resumeRetry _ _ => none
  | .resumeAbandon _ _ => none
  | .arrayPass _ => none
  | .mgoPass _ => none
  | .awriteRowStep _ _ => none
  | .eraseStep _ _ => none
  | .metadataCheckpoint => none
  | .copyStep _ _ => none
  | .scanAdmission _ => none
  | .lapBell _ => none
  | .closeMarkerArrive _ _ _ => none
  | .sliceZeroRow _ _ => none
  | .sliceRowServe _ _ => none
  | .slicePassEnd _ _ => none
  | .scanReplyDeliver _ => none
  | .gateFlipCommit _ => none
  | .notificationAppend _ => none
  | .errorLogAppend _ => none
  | .doorbell _ _ => none
  | .vfResume _ _ => none
  | .vfEvidence _ _ => none
  | .vfRegisterWrite _ _ _ => none
  | .intakePacket _ _ => none
  | .tsudalPacket _ _ _ _ => none
  | .dieLinkFrame _ _ => none
  | .linkKeyInstall _ => none
  | .linkKeySwitch _ _ => none
  | .linkKeyRetire _ _ => none
  | .functionLevelReset _ => none
  | .worldTeardown _ => none
  | .getVersion _ => none
  | .getCapabilities _ => none
  | .negotiateAlgorithms _ => none
  | .getDigests _ => none
  | .getCertificate _ => none
  | .challenge _ => none
  | .getMeasurements _ => none
  | .keyExchange _ _ => none
  | .finish _ _ => none
  | .endSession _ => none
  | .lockInterface _ => none
  | .startInterface _ => none
  | .ideKmKeyRefresh _ => none
  | .enrolment _ _ _ _ => none
  | .enrolmentWithdraw => none
  | .alarmRepeat => none
  | .bootStageA _ _ => none
  | .rollbackIncrement _ => none
  | .bootStageB => none
  | .dieJoin _ _ => none
  | .powerLoss => none
  | .governorTick _ _ _ => none
  | .fastLimit _ _ => none
  | .thermalThrottle _ _ => none
  | .throttleRelease _ _ => none
  | .thermalTrip _ _ => none
  | .hostRestart => none
  | .worldMake _ _ => none
  | .hostWrite _ _ _ => none
  | .tdiError _ => none
  | .unsupportedRequest _ => none

/-- Every operand lies in its range and every combination is one the spec admits. -/
def Instr.wf : Instr → Bool
  | .nop _ => true
  | .loop e _ cnt _ _ rot tok => (e == .s || cnt.val < 8) && (!rot || e == .v) && (!tok || e != .s)
  | .rep _ _ _ _ _ => true
  | .notify _ _ => true
  | .qpush e _ => e != .s
  | .epop e _ => e != .s
  | .toks e _ => e != .s
  | .csrr _ _ => true
  | .csrw _ _ => true
  | .winWrite _ => true
  | .wdogWrite _ => true
  | .add _ _ _ => true
  | .sub _ _ _ => true
  | .mul _ _ _ => true
  | .mulh _ _ _ => true
  | .mulhn _ _ _ => true
  | .div _ _ _ => true
  | .divn _ _ _ => true
  | .rem _ _ _ => true
  | .remn _ _ _ => true
  | .and _ _ _ => true
  | .or _ _ _ => true
  | .xor _ _ _ => true
  | .shl _ _ _ => true
  | .shr _ _ _ => true
  | .sra _ _ _ => true
  | .min _ _ _ => true
  | .minn _ _ _ => true
  | .max _ _ _ => true
  | .maxn _ _ _ => true
  | .cmp _ _ _ _ _ => true
  | .sel _ _ _ _ => true
  | .clz _ _ => true
  | .ctz _ _ => true
  | .popc _ _ => true
  | .addi _ _ _ => true
  | .andi _ _ _ => true
  | .ori _ _ _ => true
  | .xori _ _ _ => true
  | .shli _ _ _ => true
  | .shri _ _ _ => true
  | .srai _ _ _ => true
  | .cmpi _ _ _ _ => true
  | .limm _ _ => true
  | .lup _ _ => true
  | .ext _ _ pos len => decide (pos.val + len.val + 1 ≤ 64)
  | .extS _ _ pos len => decide (pos.val + len.val + 1 ≤ 64)
  | .ins _ _ pos len => decide (pos.val + len.val + 1 ≤ 64)
  | .plog _ _ _ _ => true
  | .ld _ _ _ _ => true
  | .st _ _ _ _ => true
  | .spld _ _ => true
  | .spst _ _ => true
  | .mark => true
  | .ldacq _ _ _ _ _ => true
  | .strel _ _ _ _ _ => true
  | .fence _ _ mask => mask != 0
  | .tlook _ _ => true
  | .tset _ _ _ => true
  | .tinv _ => true
  | .br _ _ _ => true
  | .jmp _ => true
  | .call _ => true
  | .ret => true
  | .yield => true
  | .wfill _ _ => true
  | .wfree _ _ => true
  | .wevt _ mask => mask != 0
  | .waitge _ _ _ _ => true
  | .rinit _ _ _ => true
  | .rclaim _ _ _ => true
  | .rcommit _ _ => true
  | .rfree _ _ => true
  | .amo _ _ _ _ _ _ _ _ => true
  | .acas _ _ _ _ _ _ _ _ => true
  | .bar _ _ => true
  | .sev _ _ _ => true
  | .gflip _ _ _ => true
  | .rnext d _ => d != 0 && d != 31
  | .launch _ _ => true
  | .ovl _ mask => decide (16 ≤ mask.toNat)
  | .fmtq _ => true
  | .trap _ _ => true
  | .eret => true
  | .tlbi _ _ => true
  | .halt => true
  | .agrant _ _ => true
  | .arevoke _ => true
  | .aerase _ => true
  | .aattest _ _ => true
  | .astat _ _ => true
  | .smig _ _ => true
  | .vadd _ _ _ _ => true
  | .vsub _ _ _ _ => true
  | .vmul _ _ _ _ => true
  | .vfma _ _ _ _ => true
  | .vmin _ _ _ _ => true
  | .vmax _ _ _ _ => true
  | .vand _ _ _ _ => true
  | .vor _ _ _ _ => true
  | .vxor _ _ _ _ => true
  | .vshl _ _ _ _ => true
  | .vshr _ _ _ _ => true
  | .vshrl _ _ _ _ => true
  | .vcmp _ _ _ _ _ => true
  | .vsel _ _ _ _ => true
  | .vcvt d a es tfrom tto _ _ scl => cvtLegal tfrom tto scl && (scl || es == 0) && a.val + cvtRegs tfrom tto ≤ 32 && d.val + cvtRegs tto tfrom ≤ 32
  | .vred _ _ _ => true
  | .vperm _ _ _ => true
  | .vbcast _ _ => true
  | .vext _ _ _ => true
  | .vins _ _ _ => true
  | .vld _ _ _ _ => true
  | .vst _ _ _ _ => true
  | .vgath _ _ _ _ _ => true
  | .vscat _ _ _ _ _ => true
  | .vpush _ _ _ => true
  | .vpop _ _ _ => true
  | .vclose _ => true
  | .vrnd _ _ _ => true
  | .vdrop _ _ _ _ _ _ => true
  | .vtype t => t.vector
  | .vqpop _ _ => true
  | .mcfg lvl fld _ => !(lvl == 6 && (fld == 0 || fld == 5))
  | .mgo => true
  | .mpass _ _ _ _ _ => true
  | .mlds _ _ => true
  | .mswap => true
  | .mclr row n => decide (row.val + n.val + 1 ≤ 32)
  | .mconv row n _ _ => decide (row.val + n.val + 1 ≤ 32)
  | .awrite _ _ _ _ => true
  | .ccopy _ => true
  | .cgath _ => true
  | .cscanr _ _ d lapr lap vq => (!vq || d == 0) && (lap || lapr == 0)
  | .cscanu _ _ _ lapr lap _ => lap || lapr == 0
  | .clap _ _ _ => true
  | .cbank _ _ _ => true
  | .ccopyf _ _ _ _ _ => true
  | .fexp2 _ _ t => t.special
  | .flog2 _ _ t => t.special
  | .frcp _ _ t => t.special
  | .frsq _ _ t => t.special
  | .ftanh _ _ t => t.special
  | .fsigm _ _ t => t.special
  | .ferf _ _ t => t.special
  | .fetchLine sid => decide (sid < 520)
  | .tokenWaitResume sid _ => decide (sid < 520)
  | .tokenPushResume sid _ => decide (sid < 520)
  | .scalarFifoResume sid _ => decide (sid < 520)
  | .formatQueueResume sid => decide (sid < 520)
  | .slipWindowResume sid _ => decide (sid < 520)
  | .streamPark sid => decide (sid < 520)
  | .waitWake sid => decide (sid < 520)
  | .streamSwitch core => decide (core < 260)
  | .switchQuantumExpiry core => decide (core < 260)
  | .fExposure sid => decide (sid < 520)
  | .operandWindowRetire core => decide (core < 260)
  | .completionCombine sid => decide (sid < 520)
  | .recordCompletionEvent die wid => decide (die < 4) && decide (wid < 4095)
  | .walkerTakeRecord die wid => decide (die < 4) && decide (wid < 4095)
  | .iterationPlace die => decide (die < 4)
  | .stall sid => decide (sid < 520)
  | .faultRecordAppend wid => decide (wid < 4095)
  | .handlerEntry sid => decide (sid < 520)
  | .migrationMove sid => decide (sid < 520)
  | .ctxSave sid => decide (sid < 520)
  | .ctxRestore sid => decide (sid < 520)
  | .ctxCommandDone sid => decide (sid < 520)
  | .pswapSave sid => decide (sid < 520)
  | .pswapRestore sid => decide (sid < 520)
  | .pswapDone sid => decide (sid < 520)
  | .pgateGate sid => decide (sid < 520)
  | .pgateUngate sid => decide (sid < 520)
  | .pgateDone sid => decide (sid < 520)
  | .map sid _ => decide (sid < 520)
  | .unmap sid _ => decide (sid < 520)
  | .scanRegionRelease region => decide (region < 16)
  | .scanmake sid _ => decide (sid < 520)
  | .gatebindBind sid _ => decide (sid < 520)
  | .gatebindUnbind sid _ => decide (sid < 520)
  | .leaseRequest sid _ => decide (sid < 520)
  | .leaseWake sid _ => decide (sid < 520)
  | .leaseReserve sid _ => decide (sid < 520)
  | .leaseEop sid _ => decide (sid < 520)
  | .unlease sid _ => decide (sid < 520)
  | .leaseFinalStatus _ _ => true
  | .evidenceWorldReport sid _ => decide (sid < 520)
  | .evidenceCollectRecord sid _ => decide (sid < 520)
  | .resumeRetry sid _ => decide (sid < 520)
  | .resumeAbandon sid _ => decide (sid < 520)
  | .arrayPass bay => decide (bay < 4096)
  | .mgoPass sid => decide (sid < 520)
  | .awriteRowStep bay _ => decide (bay < 4096)
  | .eraseStep bay _ => decide (bay < 4096)
  | .metadataCheckpoint => true
  | .copyStep sid _ => decide (sid < 520)
  | .scanAdmission sid => decide (sid < 520)
  | .lapBell region => decide (region < 16)
  | .closeMarkerArrive region slice port => decide (region < 16) && decide (slice < 512) && decide (port < 513)
  | .sliceZeroRow region slice => decide (region < 16) && decide (slice < 512)
  | .sliceRowServe region slice => decide (region < 16) && decide (slice < 512)
  | .slicePassEnd region slice => decide (region < 16) && decide (slice < 512)
  | .scanReplyDeliver sid => decide (sid < 520)
  | .gateFlipCommit sid => decide (sid < 520)
  | .notificationAppend wid => decide (wid < 4095)
  | .errorLogAppend wid => decide (wid < 4095)
  | .doorbell vf _ => decide (vf < 256)
  | .vfResume vf _ => decide (vf < 256)
  | .vfEvidence vf _ => decide (vf < 256)
  | .vfRegisterWrite vf _ _ => decide (vf < 256)
  | .intakePacket _ _ => true
  | .tsudalPacket link wid _ _ => decide (link < 4) && decide (wid < 4095)
  | .dieLinkFrame link _ => decide (4 ≤ link) && decide (link < 8)
  | .linkKeyInstall link => decide (link < 8)
  | .linkKeySwitch link _ => decide (link < 8)
  | .linkKeyRetire link _ => decide (link < 8)
  | .functionLevelReset vf => decide (vf < 256)
  | .worldTeardown wid => decide (wid < 4095)
  | .getVersion vf => decide (vf < 256)
  | .getCapabilities vf => decide (vf < 256)
  | .negotiateAlgorithms vf => decide (vf < 256)
  | .getDigests vf => decide (vf < 256)
  | .getCertificate vf => decide (vf < 256)
  | .challenge vf => decide (vf < 256)
  | .getMeasurements vf => decide (vf < 256)
  | .keyExchange vf _ => decide (vf < 256)
  | .finish vf _ => decide (vf < 256)
  | .endSession vf => decide (vf < 256)
  | .lockInterface vf => decide (vf < 256)
  | .startInterface vf => decide (vf < 256)
  | .ideKmKeyRefresh vf => decide (vf < 256)
  | .enrolment _ port vlim vwin => decide (0 < port) && decide (port < 65536) && decide (vlim < 65536) && decide (0 < vwin) && decide (vwin ≤ 86400)
  | .enrolmentWithdraw => true
  | .alarmRepeat => true
  | .bootStageA _ _ => true
  | .rollbackIncrement _ => true
  | .bootStageB => true
  | .dieJoin die _ => decide (die < 4)
  | .powerLoss => true
  | .governorTick die cls limit => decide (die < 4) && decide (cls < 4) && decide (limit ≤ 16)
  | .fastLimit die _ => decide (die < 4)
  | .thermalThrottle die _ => decide (die < 4)
  | .throttleRelease die _ => decide (die < 4)
  | .thermalTrip die _ => decide (die < 4)
  | .hostRestart => true
  | .worldMake wid vf => decide (wid < 4095) && decide (vf < 256)
  | .hostWrite wid _ _ => decide (wid < 4095)
  | .tdiError vf => decide (vf < 256)
  | .unsupportedRequest vf => decide (vf < 256)

/-- A lane's token fields name no engine of their own lane, and its instruction is well formed (R96). -/
def Lane.wf (l : Lane) : Bool :=
  l.instr.wf && l.instr.engine.isSome && (l.tw.isNone || l.tw != l.instr.engine) && (l.ts.isNone || l.ts != l.instr.engine)

end Sys2Proof
end

