-- ==== Sys2Proof/Decode.lean ====
section
/-! DEFINITION. Lines, lanes and the opcode map (spec/04_instruction_words.md): a total decoder that refuses by name, and the
encoder beside it, written from the same tables. A lane word is a natural number below 2^32; fields are quotients and remainders. -/

namespace Sys2Proof

/-- Why a lane is ILLOP (R110), or why its words are no lane at all. -/
inductive DecodeError
  | unassigned      -- the opcode, sub or FUNC is not listed for the engine
  | zeroField       -- a field named zero is not zero
  | reservedCode    -- a code field holds a reserved value
  | engineField     -- an e-register field has bits [4:3] set
  | badOperands     -- a combination its table calls ILLOP
  | tokenField      -- TW or TS holds 6, 7 or the lane's own engine (R96)
  | xLane           -- the X lane is missing, or stands beside an instruction of one word
  deriving DecidableEq, Repr

/-- Why a line takes ILLINE (R108). -/
inductive LineError
  | headerZero | reservedNibble | emptyNonzero | strayX | missingX | blockEnd | length
  deriving DecidableEq, Repr

/-- A whole line of program text, lane i in bits [32i+31:32i] (R4, R92). -/
abbrev Line := BitVec 256

/-! ### Codes -/

/-- Engine codes (Table 4.4). -/
def engineOf : Nat → Option Engine
  | 1 => some .s | 2 => some .v | 3 => some .m | 4 => some .c | 5 => some .f | _ => none

def Engine.code : Engine → Nat
  | .s => 1 | .v => 2 | .m => 3 | .c => 4 | .f => 5

def scopeOf : Nat → Option Scope
  | 0 => some .core | 1 => some .grp | 2 => some .die | 3 => some .dev | 4 => some .sys | _ => none

def Scope.code : Scope → Nat
  | .core => 0 | .grp => 1 | .die => 2 | .dev => 3 | .sys => 4

def sizeOfCode : Nat → MemSize
  | 0 => .b | 1 => .h | 2 => .w | _ => .d

def MemSize.code : MemSize → Nat
  | .b => 0 | .h => 1 | .w => 2 | .d => 3

def condOf : Nat → Cond
  | 0 => .eq | 1 => .ne | 2 => .lt | 3 => .le | 4 => .gt | 5 => .ge | 6 => .ltn | _ => .len

def Cond.code : Cond → Nat
  | .eq => 0 | .ne => 1 | .lt => 2 | .le => 3 | .gt => 4 | .ge => 5 | .ltn => 6 | .len => 7

def cmpModeOf : Nat → Option CmpMode
  | 0 => some .set | 1 => some .and | 2 => some .or | _ => none

def CmpMode.code : CmpMode → Nat
  | .set => 0 | .and => 1 | .or => 2

def tyOf : Nat → Option Ty
  | 0 => some .f32 | 1 => some .bf16 | 2 => some .f16 | 3 => some .i32 | 4 => some .i16 | 5 => some .i8
  | 6 => some .n8 | 7 => some .z8 | 8 => some .z4 | 9 => some .rns | _ => none

def Ty.code : Ty → Nat
  | .f32 => 0 | .bf16 => 1 | .f16 => 2 | .i32 => 3 | .i16 => 4 | .i8 => 5 | .n8 => 6 | .z8 => 7 | .z4 => 8 | .rns => 9

def rndOf : Nat → Option Rnd
  | 0 => some .rne | 1 => some .rz | 2 => some .rdn | 3 => some .rup | 4 => some .rna | _ => none

def Rnd.code : Rnd → Nat
  | .rne => 0 | .rz => 1 | .rdn => 2 | .rup => 3 | .rna => 4

def amoOf : Nat → Option AmoOp
  | 0 => some .add | 1 => some .and | 2 => some .or | 3 => some .xor | 4 => some .min | 5 => some .max
  | 6 => some .minn | 7 => some .maxn | 8 => some .swap | _ => none

def AmoOp.code : AmoOp → Nat
  | .add => 0 | .and => 1 | .or => 2 | .xor => 3 | .min => 4 | .max => 5 | .minn => 6 | .maxn => 7 | .swap => 8

def orderOf : Nat → Order
  | 0 => .rlx | 1 => .acq | 2 => .rel | _ => .ar

def Order.code : Order → Nat
  | .rlx => 0 | .acq => 1 | .rel => 2 | .ar => 3

def fenceOf : Nat → Option FenceKind
  | 0 => some .acq | 1 => some .rel | 2 => some .full | _ => none

def FenceKind.code : FenceKind → Nat
  | .acq => 0 | .rel => 1 | .full => 2

def redOf : Nat → Option RedOp
  | 0 => some .add | 1 => some .max | 2 => some .min | 3 => some .and | 4 => some .or | 5 => some .xor | _ => none

def RedOp.code : RedOp → Nat
  | .add => 0 | .max => 1 | .min => 2 | .and => 3 | .or => 4 | .xor => 5

def scanOf : Nat → Option ScanOp
  | 0 => some .set | 1 => some .addF32 | 2 => some .addBf16 | 3 => some .addF16 | 4 => some .addI32
  | 5 => some .maxF32 | 6 => some .minF32 | _ => none

def ScanOp.code : ScanOp → Nat
  | .set => 0 | .addF32 => 1 | .addBf16 => 2 | .addF16 => 3 | .addI32 => 4 | .maxF32 => 5 | .minF32 => 6

/-! ### Fields of a lane word -/

/-- The opcode, bits [31:26] (Table 4.3). -/
def opOf (w : Nat) : Nat := bits w 26 6

/-- Field A of a body (Table 4.5). -/
def fA (w : Nat) : Fin 32 := Fin.ofNat 32 (bits w 12 5)
def fB (w : Nat) : Fin 32 := Fin.ofNat 32 (bits w 7 5)
def fC (w : Nat) : Fin 32 := Fin.ofNat 32 (bits w 2 5)
/-- The e-registers the fields A, B, C name when their upper two bits are zero (R98). -/
def eA (w : Nat) : Fin 8 := Fin.ofNat 8 (bits w 12 3)
def eB (w : Nat) : Fin 8 := Fin.ofNat 8 (bits w 7 3)
def eC (w : Nat) : Fin 8 := Fin.ofNat 8 (bits w 2 3)
def f2 (w lo : Nat) : Fin 4 := Fin.ofNat 4 (bits w lo 2)

/-- A decoded value, or the first of the given conditions that fails, by name. -/
def ensure {α : Type} (c : Bool) (e : DecodeError) (k : Except DecodeError α) : Except DecodeError α :=
  if c then k else .error e

/-- The bits `[lo + n - 1 : lo]` are zero. -/
def zeroAt (w lo n : Nat) : Bool := bits w lo n == 0

/-- A body all of whose other bits must be zero. -/
def zeros (c : Bool) (i : Instr) : Except DecodeError Instr := ensure c .zeroField (.ok i)

/-- The form FR with sub zero (Table 4.5, rows "as ADD" of Table 4.10). -/
def frz (w : Nat) (i : Fin 32 → Fin 32 → Fin 32 → Instr) : Except DecodeError Instr :=
  zeros (zeroAt w 0 2) (i (fA w) (fB w) (fC w))

/-- The form FR whose sub field selects one of two variants (rows "as MULH"). -/
def frv (w : Nat) (i j : Fin 32 → Fin 32 → Fin 32 → Instr) : Except DecodeError Instr :=
  match bits w 0 2 with
  | 0 => .ok (i (fA w) (fB w) (fC w))
  | 1 => .ok (j (fA w) (fB w) (fC w))
  | _ => .error .unassigned

/-- The form FI7 (Table 4.5). -/
def fi7 (w : Nat) (i : Fin 32 → Fin 32 → BitVec 7 → Instr) : Except DecodeError Instr :=
  .ok (i (fA w) (fB w) (BitVec.ofNat 7 (bits w 0 7)))

/-- A V instruction with three rows and a mask (Table 4.12). -/
def vvvm (w : Nat) (i : Fin 32 → Fin 32 → Fin 32 → Fin 4 → Instr) : Except DecodeError Instr :=
  .ok (i (fA w) (fB w) (fC w) (f2 w 0))

/-! ### The common opcodes (Table 4.9) -/

def decodeNop (e : Engine) (w : Nat) : Except DecodeError Instr := zeros (zeroAt w 0 17) (.nop e)

def decodeLoop (e : Engine) (w x : Nat) : Except DecodeError Instr :=
  ensure (zeroAt x 0 26) .zeroField <|
  ensure (bits x 28 4 ≤ 8) .reservedCode <|
  ensure (e == .s || zeroAt w 13 2) .engineField <|
  .ok (.loop e (f2 w 15) (Fin.ofNat 32 (bits w 10 5)) (Fin.ofNat 1024 (bits w 0 10)) (Fin.ofNat 9 (bits x 28 4))
    (bits x 27 1 == 1) (bits x 26 1 == 1))

def decodeRep (e : Engine) (w : Nat) : Except DecodeError Instr :=
  zeros (zeroAt w 0 2) (.rep e (Fin.ofNat 64 (bits w 11 6)) (BitVec.ofNat 3 (bits w 8 3)) (BitVec.ofNat 3 (bits w 5 3))
    (BitVec.ofNat 3 (bits w 2 3)))

def decodeNotify (e : Engine) (w : Nat) : Except DecodeError Instr := .ok (.notify e (BitVec.ofNat 17 (bits w 0 17)))

def decodeEpop (e : Engine) (w : Nat) : Except DecodeError Instr :=
  ensure (zeroAt w 15 2) .engineField <| zeros (zeroAt w 0 12) (.epop e (eA w))

/-! ### S (Tables 4.10 and 4.11) -/

/-- SYS functions (R103, Table 4.11). -/
def decodeSys (w : Nat) : Except DecodeError Instr :=
  match bits w 0 7 with
  | 0x01 => .ok (.trap (fA w) (fB w))
  | 0x02 => zeros (zeroAt w 7 10) .eret
  | 0x03 => .ok (.tlbi (fA w) (fB w))
  | 0x04 => zeros (zeroAt w 7 10) .halt
  | 0x05 => .ok (.agrant (fA w) (fB w))
  | 0x06 => zeros (zeroAt w 7 5) (.arevoke (fA w))
  | 0x07 => zeros (zeroAt w 7 5) (.aerase (fA w))
  | 0x08 => .ok (.aattest (fA w) (fB w))
  | 0x09 => .ok (.astat (fA w) (fB w))
  | 0x0A => .ok (.smig (fA w) (fB w))
  | _ => .error .unassigned

def decodeAmo (w x : Nat) : Except DecodeError Instr :=
  ensure (zeroAt w 0 2 && zeroAt x 20 2) .zeroField <|
  match amoOf (bits x 28 4), scopeOf (bits x 23 3) with
  | some op, some sc =>
    .ok (.amo (fA w) (fB w) (fC w) op (orderOf (bits x 26 2)) sc (bits x 22 1 == 1) (BitVec.ofNat 20 (bits x 0 20)))
  | _, _ => .error .reservedCode

def decodeAcas (w x : Nat) : Except DecodeError Instr :=
  ensure (zeroAt w 0 2 && zeroAt x 20 1) .zeroField <|
  match scopeOf (bits x 22 3) with
  | some sc =>
    .ok (.acas (fA w) (fB w) (fC w) (Fin.ofNat 32 (bits x 27 5)) (orderOf (bits x 25 2)) sc (bits x 21 1 == 1)
      (BitVec.ofNat 20 (bits x 0 20)))
  | none => .error .reservedCode

/-- LDACQ and STREL: size [6:5], scope [4:2], [1:0] zero, and the 20-bit offset (R340, R387). -/
def decodeScoped (w x : Nat) (i : Fin 32 → Fin 32 → MemSize → Scope → BitVec 20 → Instr) : Except DecodeError Instr :=
  ensure (zeroAt w 0 2 && zeroAt x 20 12) .zeroField <|
  match scopeOf (bits w 2 3) with
  | some sc => .ok (i (fA w) (fB w) (sizeOfCode (bits w 5 2)) sc (BitVec.ofNat 20 (bits x 0 20)))
  | none => .error .reservedCode

/-- EXT, EXT.S and INS: pos [11:6] and len − 1 [5:0] in the X lane. -/
def decodeField (w x : Nat) (i : Fin 32 → Fin 32 → Fin 64 → Fin 64 → Instr) : Except DecodeError Instr :=
  ensure (zeroAt w 2 5 && zeroAt x 12 20) .zeroField <|
  .ok (i (fA w) (fB w) (Fin.ofNat 64 (bits x 6 6)) (Fin.ofNat 64 (bits x 0 6)))

/-- The S opcodes (R101, R102); x is the X lane's word, 0 for an instruction of one word. -/
def decodeS (w x : Nat) : Except DecodeError Instr :=
  match opOf w with
  | 0x00 => decodeNop .s w
  | 0x01 => decodeLoop .s w x
  | 0x02 => decodeRep .s w
  | 0x03 => decodeNotify .s w
  | 0x04 =>
    ensure (zeroAt w 12 2 && zeroAt w 0 7) .zeroField <|
    match engineOf (bits w 14 3) with
    | some e => .ok (.qpush e (fB w))
    | none => .error .reservedCode
  | 0x05 =>
    ensure (zeroAt w 0 13) .zeroField <|
    match engineOf (bits w 14 3) with
    | some e => .ok (.toks e (bits w 13 1 == 1))
    | none => .error .reservedCode
  | 0x06 => .ok (.csrr (fA w) (BitVec.ofNat 12 (bits w 0 12)))
  | 0x07 => .ok (.csrw (fA w) (BitVec.ofNat 12 (bits w 0 12)))
  | 0x08 => frz w .add
  | 0x09 => frz w .sub
  | 0x0A => frz w .mul
  | 0x0B => frv w .mulh .mulhn
  | 0x0C => frv w .div .divn
  | 0x0D => frv w .rem .remn
  | 0x0E => frz w .and
  | 0x0F => frz w .or
  | 0x10 => frz w .xor
  | 0x11 => frz w .shl
  | 0x12 => frv w .shr .sra
  | 0x13 => frv w .min .minn
  | 0x14 => frv w .max .maxn
  | 0x15 =>
    match cmpModeOf (bits w 0 2) with
    | some v => .ok (.cmp (f2 w 15) (condOf (bits w 12 3)) (fB w) (fC w) v)
    | none => .error .unassigned
  | 0x16 => .ok (.sel (fA w) (fB w) (fC w) (f2 w 0))
  | 0x17 =>
    ensure (zeroAt w 2 5) .zeroField <|
    match bits w 0 2 with
    | 0 => .ok (.clz (fA w) (fB w))
    | 1 => .ok (.ctz (fA w) (fB w))
    | 2 => .ok (.popc (fA w) (fB w))
    | _ => .error .unassigned
  | 0x18 => fi7 w .addi
  | 0x19 => fi7 w .andi
  | 0x1A => fi7 w .ori
  | 0x1B => fi7 w .xori
  | 0x1C => zeros (zeroAt w 6 1) (.shli (fA w) (fB w) (Fin.ofNat 64 (bits w 0 6)))
  | 0x1D =>
    if bits w 6 1 = 0 then .ok (.shri (fA w) (fB w) (Fin.ofNat 64 (bits w 0 6)))
    else .ok (.srai (fA w) (fB w) (Fin.ofNat 64 (bits w 0 6)))
  | 0x1E => .ok (.cmpi (f2 w 15) (condOf (bits w 12 3)) (fB w) (BitVec.ofNat 7 (bits w 0 7)))
  | 0x1F => zeros (zeroAt w 0 12) (.limm (fA w) (BitVec.ofNat 32 x))
  | 0x20 => zeros (zeroAt w 0 12) (.lup (fA w) (BitVec.ofNat 32 x))
  | 0x21 =>
    match bits w 0 2 with
    | 0 => decodeField w x .ext
    | 1 => decodeField w x .extS
    | _ => .error .unassigned
  | 0x22 => ensure (zeroAt w 0 2) .zeroField (decodeField w x .ins)
  | 0x23 => zeros (zeroAt w 4 7) (.plog (f2 w 15) (f2 w 13) (f2 w 11) (BitVec.ofNat 4 (bits w 0 4)))
  | 0x24 => .ok (.ld (fA w) (fB w) (sizeOfCode (bits w 5 2)) (BitVec.ofNat 5 (bits w 0 5)))
  | 0x25 => .ok (.st (fA w) (fB w) (sizeOfCode (bits w 5 2)) (BitVec.ofNat 5 (bits w 0 5)))
  | 0x26 => ensure (bits w 0 12 < 1024) .reservedCode (.ok (.spld (fA w) (Fin.ofNat 1024 (bits w 0 12))))
  | 0x27 => ensure (bits w 0 12 < 1024) .reservedCode (.ok (.spst (fA w) (Fin.ofNat 1024 (bits w 0 12))))
  | 0x28 => zeros (zeroAt w 0 17) .mark
  | 0x29 => decodeScoped w x .ldacq
  | 0x2A => decodeScoped w x .strel
  | 0x2B =>
    ensure (zeroAt w 0 7) .zeroField <|
    match scopeOf (bits w 14 3), fenceOf (bits w 12 2) with
    | some sc, some k => .ok (.fence sc k (BitVec.ofNat 5 (bits w 7 5)))
    | _, _ => .error .reservedCode
  | 0x2C =>
    match bits w 0 2 with
    | 0 => zeros (zeroAt w 2 5) (.tlook (fA w) (fB w))
    | 1 => .ok (.tset (fA w) (fB w) (fC w))
    | 2 => zeros (zeroAt w 12 5 && zeroAt w 2 5) (.tinv (fB w))
    | _ => .error .unassigned
  | 0x2D => .ok (.br (f2 w 15) (bits w 14 1 == 1) (BitVec.ofNat 14 (bits w 0 14)))
  | 0x2E => .ok (.jmp (BitVec.ofNat 17 (bits w 0 17)))
  | 0x2F => .ok (.call (BitVec.ofNat 17 (bits w 0 17)))
  | 0x30 => zeros (zeroAt w 0 17) .ret
  | 0x31 => zeros (zeroAt w 0 17) .yield
  | 0x32 =>
    ensure (zeroAt w 12 1 && zeroAt w 2 5) .zeroField <|
    match bits w 0 2 with
    | 0 => .ok (.wfill (Fin.ofNat 16 (bits w 13 4)) (fB w))
    | 1 => .ok (.wfree (Fin.ofNat 16 (bits w 13 4)) (fB w))
    | _ => .error .unassigned
  | 0x33 => zeros (zeroAt w 8 4) (.wevt (fA w) (BitVec.ofNat 8 (bits w 0 8)))
  | 0x34 =>
    ensure (zeroAt w 5 2 && zeroAt w 0 2 && zeroAt x 20 12) .zeroField <|
    match scopeOf (bits w 2 3) with
    | some sc => .ok (.waitge (fA w) (fB w) sc (BitVec.ofNat 20 (bits x 0 20)))
    | none => .error .reservedCode
  | 0x35 =>
    ensure (zeroAt w 12 1) .zeroField <|
    match bits w 0 2 with
    | 0 => .ok (.rinit (Fin.ofNat 16 (bits w 13 4)) (fB w) (fC w))
    | 1 => .ok (.rclaim (fC w) (Fin.ofNat 16 (bits w 13 4)) (fB w))
    | 2 => zeros (zeroAt w 2 5) (.rcommit (Fin.ofNat 16 (bits w 13 4)) (fB w))
    | _ => zeros (zeroAt w 2 5) (.rfree (Fin.ofNat 16 (bits w 13 4)) (fB w))
  | 0x36 => decodeAmo w x
  | 0x37 => decodeAcas w x
  | 0x38 => zeros (zeroAt w 12 5 && zeroAt w 0 2) (.bar (fB w) (fC w))
  | 0x39 => zeros (zeroAt w 8 4 && zeroAt w 1 4) (.sev (fA w) (BitVec.ofNat 3 (bits w 5 3)) (bits w 0 1 == 1))
  | 0x3A => zeros (zeroAt w 12 5 && zeroAt w 0 6 && zeroAt x 20 12)
      (.gflip (fB w) (bits w 6 1 == 1) (BitVec.ofNat 20 (bits x 0 20)))
  | 0x3B => zeros (zeroAt w 0 7) (.rnext (fA w) (fB w))
  | 0x3C => zeros (zeroAt w 0 7) (.launch (fA w) (fB w))
  | 0x3D => zeros (zeroAt w 12 5 && zeroAt w 0 2) (.ovl (fB w) (BitVec.ofNat 5 (bits w 2 5)))
  | 0x3E => zeros (zeroAt w 12 5 && zeroAt w 0 7) (.fmtq (fB w))
  | _ => decodeSys w

/-! ### V (Table 4.12) -/

def decodeVcvt (w x : Nat) : Except DecodeError Instr :=
  ensure (zeroAt w 0 2 && zeroAt x 0 19) .zeroField <|
  ensure (zeroAt w 5 2) .engineField <|
  match tyOf (bits x 28 4), tyOf (bits x 24 4), rndOf (bits x 21 3) with
  | some tfrom, some tto, some rnd =>
    .ok (.vcvt (fA w) (fB w) (eC w) tfrom tto rnd (bits x 20 1 == 1) (bits x 19 1 == 1))
  | _, _, _ => .error .reservedCode

def decodeV (w x : Nat) : Except DecodeError Instr :=
  match opOf w with
  | 0x00 => decodeNop .v w
  | 0x01 => decodeLoop .v w x
  | 0x02 => decodeRep .v w
  | 0x03 => decodeNotify .v w
  | 0x04 => decodeEpop .v w
  | 0x08 => vvvm w .vadd
  | 0x09 => vvvm w .vsub
  | 0x0A => vvvm w .vmul
  | 0x0B => vvvm w .vfma
  | 0x0C => vvvm w .vmin
  | 0x0D => vvvm w .vmax
  | 0x0E => vvvm w .vand
  | 0x0F => vvvm w .vor
  | 0x10 => vvvm w .vxor
  | 0x11 => vvvm w .vshl
  | 0x12 => vvvm w .vshr
  | 0x13 => vvvm w .vshrl
  | 0x14 => zeros (zeroAt w 12 3 && zeroAt x 3 29) (.vcmp (f2 w 15) (condOf (bits x 0 3)) (fB w) (fC w) (f2 w 0))
  | 0x15 => vvvm w .vsel
  | 0x16 => decodeVcvt w x
  | 0x17 =>
    ensure (zeroAt w 0 7 && zeroAt x 3 29) .zeroField <|
    match redOf (bits x 0 3) with
    | some op => .ok (.vred (fA w) (fB w) op)
    | none => .error .reservedCode
  | 0x18 => frz w .vperm
  | 0x19 => ensure (zeroAt w 10 2) .engineField (zeros (zeroAt w 0 7) (.vbcast (fA w) (eB w)))
  | 0x1A => ensure (zeroAt w 15 2 && zeroAt w 5 2) .engineField (zeros (zeroAt w 0 2) (.vext (eA w) (fB w) (eC w)))
  | 0x1B => ensure (zeroAt w 10 2 && zeroAt w 5 2) .engineField (zeros (zeroAt w 0 2) (.vins (fA w) (eB w) (eC w)))
  | 0x1C => ensure (zeroAt w 10 2) .engineField (.ok (.vld (fA w) (eB w) (BitVec.ofNat 5 (bits w 2 5)) (f2 w 0)))
  | 0x1D => ensure (zeroAt w 10 2) .engineField (.ok (.vst (fA w) (eB w) (BitVec.ofNat 5 (bits w 2 5)) (f2 w 0)))
  | 0x1E => ensure (zeroAt w 5 2) .engineField
      (zeros (zeroAt x 2 30) (.vgath (fA w) (fB w) (eC w) (f2 w 0) (sizeOfCode (bits x 0 2))))
  | 0x1F => ensure (zeroAt w 5 2) .engineField
      (zeros (zeroAt x 2 30) (.vscat (fA w) (fB w) (eC w) (f2 w 0) (sizeOfCode (bits x 0 2))))
  | 0x20 => zeros (zeroAt w 12 3 && zeroAt w 2 5) (.vpush (f2 w 15) (fB w) (f2 w 0))
  | 0x21 => zeros (zeroAt w 7 3 && zeroAt w 0 5) (.vpop (fA w) (f2 w 10) (f2 w 5))
  | 0x22 => zeros (zeroAt w 0 15) (.vclose (f2 w 15))
  | 0x23 => ensure (zeroAt w 10 2 && zeroAt w 5 2) .engineField
      (zeros (zeroAt w 0 2 && zeroAt x 0 32) (.vrnd (fA w) (eB w) (eC w)))
  | 0x24 => ensure (zeroAt w 5 2) .engineField
      (zeros (zeroAt w 0 2 && zeroAt x 8 24)
        (.vdrop (fA w) (fB w) (eC w) (Fin.ofNat 8 (bits x 0 3)) (Fin.ofNat 8 (bits x 3 3)) (f2 x 6)))
  | 0x25 =>
    ensure (zeroAt w 3 14) .zeroField <|
    match tyOf (bits w 0 3) with
    | some t => .ok (.vtype t)
    | none => .error .reservedCode
  | 0x26 => ensure (zeroAt w 10 2) .engineField (zeros (zeroAt w 0 7) (.vqpop (fA w) (eB w)))
  | _ => .error .unassigned

/-! ### M, C and F (Table 4.13) -/

def decodeM (w x : Nat) : Except DecodeError Instr :=
  match opOf w with
  | 0x00 => decodeNop .m w
  | 0x01 => decodeLoop .m w x
  | 0x02 => decodeRep .m w
  | 0x03 => decodeNotify .m w
  | 0x04 => decodeEpop .m w
  | 0x08 =>
    ensure (zeroAt w 5 6 && zeroAt w 0 2) .zeroField <|
    ensure (bits w 14 3 < 7 && bits w 11 3 < 6) .badOperands <|
    .ok (.mcfg (Fin.ofNat 7 (bits w 14 3)) (Fin.ofNat 6 (bits w 11 3)) (eC w))
  | 0x09 => zeros (zeroAt w 0 17) .mgo
  | 0x0A => ensure (zeroAt w 15 2 && zeroAt w 10 2) .engineField
      (zeros (zeroAt w 0 7 && zeroAt x 7 25)
        (.mpass (eA w) (eB w) (Fin.ofNat 32 (bits x 0 5)) (bits x 5 1 == 1) (bits x 6 1 == 1)))
  | 0x0B => ensure (zeroAt w 15 2) .engineField (zeros (zeroAt w 0 11) (.mlds (eA w) (bits w 11 1 == 1)))
  | 0x0C => zeros (zeroAt w 0 17) .mswap
  | 0x0D => zeros (zeroAt w 0 7) (.mclr (fA w) (fB w))
  | 0x0E => zeros (zeroAt w 5 2 && zeroAt w 0 1) (.mconv (fA w) (fB w) (eC w) (bits w 1 1 == 1))
  | 0x0F => ensure (zeroAt w 15 2 && zeroAt w 10 2 && zeroAt w 5 2) .engineField
      (zeros (zeroAt w 0 2 && zeroAt x 8 24) (.awrite (eA w) (eB w) (eC w) (Fin.ofNat 256 (bits x 0 8))))
  | _ => .error .unassigned

def decodeC (w x : Nat) : Except DecodeError Instr :=
  match opOf w with
  | 0x00 => decodeNop .c w
  | 0x01 => decodeLoop .c w x
  | 0x02 => decodeRep .c w
  | 0x03 => decodeNotify .c w
  | 0x04 => decodeEpop .c w
  | 0x08 => ensure (zeroAt w 15 2) .engineField (zeros (zeroAt w 0 12) (.ccopy (eA w)))
  | 0x09 => ensure (zeroAt w 15 2) .engineField (zeros (zeroAt w 0 12) (.cgath (eA w)))
  | 0x0A => ensure (zeroAt w 15 2 && zeroAt w 10 2 && zeroAt w 5 2) .engineField
      (zeros (zeroAt w 0 2 && zeroAt x 5 27)
        (.cscanr (eA w) (eB w) (eC w) (Fin.ofNat 8 (bits x 2 3)) (bits x 1 1 == 1) (bits x 0 1 == 1)))
  | 0x0B =>
    ensure (zeroAt w 15 2 && zeroAt w 10 2 && zeroAt w 5 2) .engineField <|
    ensure (zeroAt w 0 2 && zeroAt x 7 25) .zeroField <|
    match scanOf (bits x 0 3) with
    | some op => .ok (.cscanu (eA w) (eB w) (eC w) (Fin.ofNat 8 (bits x 4 3)) (bits x 3 1 == 1) op)
    | none => .error .reservedCode
  | 0x0C => ensure (zeroAt w 15 2 && zeroAt w 10 2) .engineField
      (zeros (zeroAt w 1 6) (.clap (eA w) (eB w) (bits w 0 1 == 1)))
  | 0x0D => ensure (zeroAt w 15 2 && zeroAt w 10 2 && zeroAt w 5 2) .engineField
      (zeros (zeroAt w 0 2 && zeroAt x 0 32) (.cbank (eA w) (eB w) (eC w)))
  | 0x0E =>
    ensure (zeroAt w 15 2 && zeroAt w 10 2 && zeroAt w 5 2) .engineField <|
    ensure (zeroAt w 0 2 && zeroAt x 4 28) .zeroField <|
    match scopeOf (bits x 1 3) with
    | some sc => .ok (.ccopyf (eA w) (eB w) (eC w) sc (bits x 0 1 == 1))
    | none => .error .reservedCode
  | _ => .error .unassigned

/-- A special function: C zero, the sub field its type (R332). -/
def decodeFn (w : Nat) (i : Fin 32 → Fin 32 → Ty → Instr) : Except DecodeError Instr :=
  ensure (zeroAt w 2 5) .zeroField <|
  match bits w 0 2 with
  | 0 => .ok (i (fA w) (fB w) .f32)
  | 1 => .ok (i (fA w) (fB w) .bf16)
  | 2 => .ok (i (fA w) (fB w) .f16)
  | _ => .error .unassigned

def decodeF (w x : Nat) : Except DecodeError Instr :=
  match opOf w with
  | 0x00 => decodeNop .f w
  | 0x01 => decodeLoop .f w x
  | 0x02 => decodeRep .f w
  | 0x03 => decodeNotify .f w
  | 0x04 => decodeEpop .f w
  | 0x08 => decodeFn w .fexp2
  | 0x09 => decodeFn w .flog2
  | 0x0A => decodeFn w .frcp
  | 0x0B => decodeFn w .frsq
  | 0x0C => decodeFn w .ftanh
  | 0x0D => decodeFn w .fsigm
  | 0x0E => decodeFn w .ferf
  | _ => .error .unassigned

/-! ### Lanes -/

/-- The opcodes that Tables 4.9 to 4.13 mark (64) for an engine. -/
def wide64 (e : Engine) (op : Nat) : Bool :=
  match e with
  | .s => [0x01, 0x1F, 0x20, 0x21, 0x22, 0x29, 0x2A, 0x34, 0x36, 0x37, 0x3A].contains op
  | .v => [0x01, 0x14, 0x16, 0x17, 0x1E, 0x1F, 0x23, 0x24].contains op
  | .m => [0x01, 0x0A, 0x0F].contains op
  | .c => [0x01, 0x0A, 0x0B, 0x0D, 0x0E].contains op
  | .f => op == 0x01

/-- The body and X lane of an engine's lane, each field as its table lays it out. -/
def decodeBody (e : Engine) (w x : Nat) : Except DecodeError Instr :=
  match e with
  | .s => decodeS w x
  | .v => decodeV w x
  | .m => decodeM w x
  | .c => decodeC w x
  | .f => decodeF w x

/-- A token field (R95, R96): none, or an engine other than the lane's own. -/
def tokenField (e : Engine) (k : Nat) : Except DecodeError (Option Engine) :=
  if k = 0 then .ok none
  else match engineOf k with
    | some t => if t = e then .error .tokenField else .ok (some t)
    | none => .error .tokenField

/-- One lane of an engine with the X lane above it, if any (R94 to R106, R110). Total: every pair of words is an
instruction or is refused by name. -/
def decodeLane (e : Engine) (w : Nat) (x : Option Nat) : Except DecodeError Lane :=
  if wide64 e (opOf w) != x.isSome then .error .xLane
  else match decodeBody e w (x.getD 0) with
    | .error r => .error r
    | .ok i =>
      if i.wf then
        match tokenField e (bits w 23 3), tokenField e (bits w 20 3) with
        | .ok tw, .ok ts => .ok { tw := tw, ts := ts, g := Fin.ofNat 8 (bits w 17 3), instr := i }
        | _, _ => .error .tokenField
      else .error .badOperands

/-! ### Lines -/

/-- Lane i of a line as a number (R4). -/
def Line.word (l : Line) (i : Nat) : Nat := bits l.toNat (32 * i) 32

/-- The nibble of lane i, 1 to 7 (Table 4.1). -/
def Line.nibble (l : Line) (i : Nat) : Nat := bits (Line.word l 0) (4 * (i - 1)) 4

/-- The BE bit (Table 4.1). -/
def Line.be (l : Line) : Bool := bits (Line.word l 0) 28 1 == 1

/-- The lane at i belongs to engine e. -/
def Line.owns (l : Line) (e : Engine) (i : Nat) : Bool := Line.nibble l i == e.code

/-- The X lane above lane i, when there is one. -/
def Line.xOf (l : Line) (i : Nat) : Option Nat :=
  if i < 7 ∧ Line.nibble l (i + 1) = 6 then some (Line.word l (i + 1)) else none

/-- An S word whose opcode, variant and FUNC name a block-ending instruction (R59). -/
def blockEnding (w : Nat) : Bool :=
  match opOf w with
  | 0x2D | 0x2E | 0x2F | 0x30 | 0x31 | 0x33 | 0x34 | 0x38 | 0x3D => true
  | 0x32 => bits w 0 2 < 2
  | 0x3F => bits w 0 7 == 0x02
  | _ => false

/-- Lane i holds S's last lane of the line. -/
def Line.lastS (l : Line) (i : Nat) : Bool := (List.range 8).all fun j => !(decide (i < j) && Line.owns l .s j)

/-- The first reason lane i makes its line malformed (R93, R94, R108). -/
def Line.laneError (l : Line) (i : Nat) : Option LineError :=
  let n := Line.nibble l i
  if 7 ≤ n then some .reservedNibble
  else if n = 0 then (if Line.word l i = 0 then none else some .emptyNonzero)
  else if n = 6 then
    (if i = 1 then some .strayX
     else match engineOf (Line.nibble l (i - 1)) with
       | some e => if wide64 e (opOf (Line.word l (i - 1))) then none else some .strayX
       | none => some .strayX)
  else match engineOf n with
    | some e =>
      if wide64 e (opOf (Line.word l i)) && (Line.xOf l i).isNone then some .missingX
      else if e == .s && blockEnding (Line.word l i) && !(Line.be l && Line.lastS l i) then some .blockEnd
      else none
    | none => some .reservedNibble

/-- Why a line takes ILLINE, if it does (R92, R108). -/
def Line.error (l : Line) : Option LineError :=
  if bits (Line.word l 0) 29 3 ≠ 0 then some .headerZero
  else [1, 2, 3, 4, 5, 6, 7].findSome? (Line.laneError l)

/-- The first lane of engine e at or above lane k, or 8 when the line holds none. -/
def Line.next (l : Line) (e : Engine) (k : Nat) : Nat :=
  ((List.range 8).find? fun j => decide (1 ≤ j) && decide (k ≤ j) && Line.owns l e j).getD 8

/-- The little-endian number of a list of bytes (R4). -/
def leNat : List Byte → Nat
  | [] => 0
  | b :: bs => b.toNat + 256 * leNat bs

/-- The line that 32 bytes of text hold, lowest address first; refused by name where they hold none. -/
def decodeLine (bs : List Byte) : Except LineError Line :=
  if bs.length ≠ 32 then .error .length
  else
    let l := BitVec.ofNat 256 (leNat bs)
    match Line.error l with
    | some r => .error r
    | none => .ok l

/-! ### The encoder -/

/-- A value at bit n of a word. -/
def sh (v n : Nat) : Nat := v * 2 ^ n

/-- A body in the form FR (Table 4.5). -/
def bFR (op : Nat) (a b c : Fin 32) (sub : Nat) : Nat := sh op 26 + sh a.val 12 + sh b.val 7 + sh c.val 2 + sub

/-- A body in the form FI7. -/
def bFI7 (op : Nat) (a b : Fin 32) (i : Nat) : Nat := sh op 26 + sh a.val 12 + sh b.val 7 + i

/-- A body of e-registers A, B, C with sub zero. -/
def bE (op : Nat) (a b c : Fin 8) : Nat := sh op 26 + sh a.val 12 + sh b.val 7 + sh c.val 2

/-- The SYS body (R103). -/
def bSys (a b : Nat) (f : Nat) : Nat := sh 0x3F 26 + sh a 12 + sh b 7 + f

/-- A ring instruction's body (Table 15.2). -/
def bRing (op r b c sub : Nat) : Nat := sh op 26 + sh r 13 + sh b 7 + sh c 2 + sub

def Ty.fnCode : Ty → Nat
  | .bf16 => 1
  | .f16 => 2
  | .f32 | .i32 | .i16 | .i8 | .n8 | .z8 | .z4 | .rns => 0

/-- The base word (with TW, TS and G zero) and the X lane of a well-formed instruction; none for a step of another
unit, which no word encodes. -/
def encode : Instr → Option (Nat × Option Nat)
  | .nop _ => some (0, none)
  | .loop _ lvl cnt body stages rot tok =>
    some (sh 0x01 26 + sh lvl.val 15 + sh cnt.val 10 + body.val,
      some (sh stages.val 28 + sh rot.toNat 27 + sh tok.toNat 26))
  | .rep _ n dA dB dC => some (sh 0x02 26 + sh n.val 11 + sh dA.toNat 8 + sh dB.toNat 5 + sh dC.toNat 2, none)
  | .notify _ tag => some (sh 0x03 26 + tag.toNat, none)
  | .qpush e a => some (sh 0x04 26 + sh e.code 14 + sh a.val 7, none)
  | .epop _ d => some (sh 0x04 26 + sh d.val 12, none)
  | .toks e v => some (sh 0x05 26 + sh e.code 14 + sh v.toNat 13, none)
  | .csrr d c => some (sh 0x06 26 + sh d.val 12 + c.toNat, none)
  | .csrw a c => some (sh 0x07 26 + sh a.val 12 + c.toNat, none)
  | .winWrite _ => none
  | .wdogWrite _ => none
  | .add d a b => some (bFR 0x08 d a b 0, none)
  | .sub d a b => some (bFR 0x09 d a b 0, none)
  | .mul d a b => some (bFR 0x0A d a b 0, none)
  | .mulh d a b => some (bFR 0x0B d a b 0, none)
  | .mulhn d a b => some (bFR 0x0B d a b 1, none)
  | .div d a b => some (bFR 0x0C d a b 0, none)
  | .divn d a b => some (bFR 0x0C d a b 1, none)
  | .rem d a b => some (bFR 0x0D d a b 0, none)
  | .remn d a b => some (bFR 0x0D d a b 1, none)
  | .and d a b => some (bFR 0x0E d a b 0, none)
  | .or d a b => some (bFR 0x0F d a b 0, none)
  | .xor d a b => some (bFR 0x10 d a b 0, none)
  | .shl d a b => some (bFR 0x11 d a b 0, none)
  | .shr d a b => some (bFR 0x12 d a b 0, none)
  | .sra d a b => some (bFR 0x12 d a b 1, none)
  | .min d a b => some (bFR 0x13 d a b 0, none)
  | .minn d a b => some (bFR 0x13 d a b 1, none)
  | .max d a b => some (bFR 0x14 d a b 0, none)
  | .maxn d a b => some (bFR 0x14 d a b 1, none)
  | .cmp p c a b v =>
    some (sh 0x15 26 + sh p.val 15 + sh c.code 12 + sh a.val 7 + sh b.val 2 + v.code, none)
  | .sel d a b p => some (bFR 0x16 d a b p.val, none)
  | .clz d a => some (bFR 0x17 d a 0 0, none)
  | .ctz d a => some (bFR 0x17 d a 0 1, none)
  | .popc d a => some (bFR 0x17 d a 0 2, none)
  | .addi d a i => some (bFI7 0x18 d a i.toNat, none)
  | .andi d a i => some (bFI7 0x19 d a i.toNat, none)
  | .ori d a i => some (bFI7 0x1A d a i.toNat, none)
  | .xori d a i => some (bFI7 0x1B d a i.toNat, none)
  | .shli d a n => some (bFI7 0x1C d a n.val, none)
  | .shri d a n => some (bFI7 0x1D d a n.val, none)
  | .srai d a n => some (bFI7 0x1D d a (2 ^ 6 + n.val), none)
  | .cmpi p c a i => some (sh 0x1E 26 + sh p.val 15 + sh c.code 12 + sh a.val 7 + i.toNat, none)
  | .limm d imm => some (sh 0x1F 26 + sh d.val 12, some imm.toNat)
  | .lup d imm => some (sh 0x20 26 + sh d.val 12, some imm.toNat)
  | .ext d a pos len => some (bFR 0x21 d a 0 0, some (sh pos.val 6 + len.val))
  | .extS d a pos len => some (bFR 0x21 d a 0 1, some (sh pos.val 6 + len.val))
  | .ins d a pos len => some (bFR 0x22 d a 0 0, some (sh pos.val 6 + len.val))
  | .plog d a b t => some (sh 0x23 26 + sh d.val 15 + sh a.val 13 + sh b.val 11 + t.toNat, none)
  | .ld d b s o => some (bFI7 0x24 d b (sh s.code 5 + o.toNat), none)
  | .st a b s o => some (bFI7 0x25 a b (sh s.code 5 + o.toNat), none)
  | .spld d n => some (sh 0x26 26 + sh d.val 12 + n.val, none)
  | .spst a n => some (sh 0x27 26 + sh a.val 12 + n.val, none)
  | .mark => some (sh 0x28 26, none)
  | .ldacq d b s sc off => some (bFI7 0x29 d b (sh s.code 5 + sh sc.code 2), some off.toNat)
  | .strel a b s sc off => some (bFI7 0x2A a b (sh s.code 5 + sh sc.code 2), some off.toNat)
  | .fence sc k mask => some (sh 0x2B 26 + sh sc.code 14 + sh k.code 12 + sh mask.toNat 7, none)
  | .tlook d a => some (bFR 0x2C d a 0 0, none)
  | .tset d a b => some (bFR 0x2C d a b 1, none)
  | .tinv a => some (bFR 0x2C 0 a 0 2, none)
  | .br p sense o => some (sh 0x2D 26 + sh p.val 15 + sh sense.toNat 14 + o.toNat, none)
  | .jmp o => some (sh 0x2E 26 + o.toNat, none)
  | .call o => some (sh 0x2F 26 + o.toNat, none)
  | .ret => some (sh 0x30 26, none)
  | .yield => some (sh 0x31 26, none)
  | .wfill r a => some (bRing 0x32 r.val a.val 0 0, none)
  | .wfree r a => some (bRing 0x32 r.val a.val 0 1, none)
  | .wevt d mask => some (sh 0x33 26 + sh d.val 12 + mask.toNat, none)
  | .waitge a b sc off => some (bFI7 0x34 a b (sh sc.code 2), some off.toNat)
  | .rinit r a b => some (bRing 0x35 r.val a.val b.val 0, none)
  | .rclaim d r a => some (bRing 0x35 r.val a.val d.val 1, none)
  | .rcommit r a => some (bRing 0x35 r.val a.val 0 2, none)
  | .rfree r a => some (bRing 0x35 r.val a.val 0 3, none)
  | .amo d b c op ord sc dbl off =>
    some (bFR 0x36 d b c 0,
      some (sh op.code 28 + sh ord.code 26 + sh sc.code 23 + sh dbl.toNat 22 + off.toNat))
  | .acas d b exp new ord sc dbl off =>
    some (bFR 0x37 d b exp 0,
      some (sh new.val 27 + sh ord.code 25 + sh sc.code 22 + sh dbl.toNat 21 + off.toNat))
  | .bar b c => some (bFR 0x38 0 b c 0, none)
  | .sev a user ev => some (sh 0x39 26 + sh a.val 12 + sh user.toNat 5 + ev.toNat, none)
  | .gflip b owner off => some (sh 0x3A 26 + sh b.val 7 + sh owner.toNat 6, some off.toNat)
  | .rnext d a => some (bFR 0x3B d a 0 0, none)
  | .launch d a => some (bFR 0x3C d a 0 0, none)
  | .ovl a mask => some (sh 0x3D 26 + sh a.val 7 + sh mask.toNat 2, none)
  | .fmtq a => some (sh 0x3E 26 + sh a.val 7, none)
  | .trap a b => some (bSys a.val b.val 0x01, none)
  | .eret => some (bSys 0 0 0x02, none)
  | .tlbi a b => some (bSys a.val b.val 0x03, none)
  | .halt => some (bSys 0 0 0x04, none)
  | .agrant a b => some (bSys a.val b.val 0x05, none)
  | .arevoke a => some (bSys a.val 0 0x06, none)
  | .aerase a => some (bSys a.val 0 0x07, none)
  | .aattest a b => some (bSys a.val b.val 0x08, none)
  | .astat d a => some (bSys d.val a.val 0x09, none)
  | .smig a b => some (bSys a.val b.val 0x0A, none)
  | .vadd d a b m => some (bFR 0x08 d a b m.val, none)
  | .vsub d a b m => some (bFR 0x09 d a b m.val, none)
  | .vmul d a b m => some (bFR 0x0A d a b m.val, none)
  | .vfma d a b m => some (bFR 0x0B d a b m.val, none)
  | .vmin d a b m => some (bFR 0x0C d a b m.val, none)
  | .vmax d a b m => some (bFR 0x0D d a b m.val, none)
  | .vand d a b m => some (bFR 0x0E d a b m.val, none)
  | .vor d a b m => some (bFR 0x0F d a b m.val, none)
  | .vxor d a b m => some (bFR 0x10 d a b m.val, none)
  | .vshl d a b m => some (bFR 0x11 d a b m.val, none)
  | .vshr d a b m => some (bFR 0x12 d a b m.val, none)
  | .vshrl d a b m => some (bFR 0x13 d a b m.val, none)
  | .vcmp md c a b m =>
    some (sh 0x14 26 + sh md.val 15 + sh a.val 7 + sh b.val 2 + m.val, some c.code)
  | .vsel d a b m => some (bFR 0x15 d a b m.val, none)
  | .vcvt d a es tfrom tto rnd sat scl =>
    some (sh 0x16 26 + sh d.val 12 + sh a.val 7 + sh es.val 2,
      some (sh tfrom.code 28 + sh tto.code 24 + sh rnd.code 21 + sh sat.toNat 20 + sh scl.toNat 19))
  | .vred d a op => some (bFR 0x17 d a 0 0, some op.code)
  | .vperm d a b => some (bFR 0x18 d a b 0, none)
  | .vbcast d a => some (sh 0x19 26 + sh d.val 12 + sh a.val 7, none)
  | .vext d a l => some (sh 0x1A 26 + sh d.val 12 + sh a.val 7 + sh l.val 2, none)
  | .vins d a l => some (sh 0x1B 26 + sh d.val 12 + sh a.val 7 + sh l.val 2, none)
  | .vld d b o m => some (sh 0x1C 26 + sh d.val 12 + sh b.val 7 + sh o.toNat 2 + m.val, none)
  | .vst a b o m => some (sh 0x1D 26 + sh a.val 12 + sh b.val 7 + sh o.toNat 2 + m.val, none)
  | .vgath d vi b m s =>
    some (sh 0x1E 26 + sh d.val 12 + sh vi.val 7 + sh b.val 2 + m.val, some s.code)
  | .vscat a vi b m s =>
    some (sh 0x1F 26 + sh a.val 12 + sh vi.val 7 + sh b.val 2 + m.val, some s.code)
  | .vpush k a m => some (sh 0x20 26 + sh k.val 15 + sh a.val 7 + m.val, none)
  | .vpop d k md => some (sh 0x21 26 + sh d.val 12 + sh k.val 10 + sh md.val 5, none)
  | .vclose k => some (sh 0x22 26 + sh k.val 15, none)
  | .vrnd d seed idx => some (sh 0x23 26 + sh d.val 12 + sh seed.val 7 + sh idx.val 2, some 0)
  | .vdrop d a seed idx ts md =>
    some (sh 0x24 26 + sh d.val 12 + sh a.val 7 + sh seed.val 2,
      some (sh md.val 6 + sh ts.val 3 + idx.val))
  | .vtype t => some (sh 0x25 26 + t.code, none)
  | .vqpop d st => some (sh 0x26 26 + sh d.val 12 + sh st.val 7, none)
  | .mcfg lvl fld a => some (sh 0x08 26 + sh lvl.val 14 + sh fld.val 11 + sh a.val 2, none)
  | .mgo => some (sh 0x09 26, none)
  | .mpass act arr row acc t =>
    some (bE 0x0A act arr 0, some (sh t.toNat 6 + sh acc.toNat 5 + row.val))
  | .mlds a t => some (sh 0x0B 26 + sh a.val 12 + sh t.toNat 11, none)
  | .mswap => some (sh 0x0C 26, none)
  | .mclr row n => some (sh 0x0D 26 + sh row.val 12 + sh n.val 7, none)
  | .mconv row n s f32 =>
    some (sh 0x0E 26 + sh row.val 12 + sh n.val 7 + sh s.val 2 + f32.toNat * 2, none)
  | .awrite src an cnt first => some (bE 0x0F src an cnt, some first.val)
  | .ccopy a => some (bE 0x08 a 0 0, none)
  | .cgath a => some (bE 0x09 a 0 0, none)
  | .cscanr a len d lapr lap vq => some (bE 0x0A a len d, some (sh lapr.val 2 + lap.toNat * 2 + vq.toNat))
  | .cscanu a src len lapr lap op => some (bE 0x0B a src len, some (sh lapr.val 4 + sh lap.toNat 3 + op.code))
  | .clap d r close => some (bE 0x0C d r 0 + close.toNat, none)
  | .cbank src dst rows => some (bE 0x0D src dst rows, some 0)
  | .ccopyf a flag val sc add => some (bE 0x0E a flag val, some (sc.code * 2 + add.toNat))
  | .fexp2 d a t => some (bFR 0x08 d a 0 t.fnCode, none)
  | .flog2 d a t => some (bFR 0x09 d a 0 t.fnCode, none)
  | .frcp d a t => some (bFR 0x0A d a 0 t.fnCode, none)
  | .frsq d a t => some (bFR 0x0B d a 0 t.fnCode, none)
  | .ftanh d a t => some (bFR 0x0C d a 0 t.fnCode, none)
  | .fsigm d a t => some (bFR 0x0D d a 0 t.fnCode, none)
  | .ferf d a t => some (bFR 0x0E d a 0 t.fnCode, none)
  | .fetchLine _ => none
  | .tokenWaitResume _ _ => none
  | .tokenPushResume _ _ => none
  | .scalarFifoResume _ _ => none
  | .formatQueueResume _ => none
  | .slipWindowResume _ _ => none
  | .streamPark _ => none
  | .waitWake _ => none
  | .streamSwitch _ => none
  | .switchQuantumExpiry _ => none
  | .fExposure _ => none
  | .operandWindowRetire _ => none
  | .completionCombine _ => none
  | .recordCompletionEvent _ _ => none
  | .walkerTakeRecord _ _ => none
  | .iterationPlace _ => none
  | .stall _ => none
  | .faultRecordAppend _ => none
  | .handlerEntry _ => none
  | .migrationMove _ => none
  | .ctxSave _ => none
  | .ctxRestore _ => none
  | .ctxCommandDone _ => none
  | .pswapSave _ => none
  | .pswapRestore _ => none
  | .pswapDone _ => none
  | .pgateGate _ => none
  | .pgateUngate _ => none
  | .pgateDone _ => none
  | .map _ _ => none
  | .unmap _ _ => none
  | .scanRegionRelease _ => none
  | .scanmake _ _ => none
  | .gatebindBind _ _ => none
  | .gatebindUnbind _ _ => none
  | .leaseRequest _ _ => none
  | .leaseWake _ _ => none
  | .leaseReserve _ _ => none
  | .leaseEop _ _ => none
  | .unlease _ _ => none
  | .leaseFinalStatus _ _ => none
  | .evidenceWorldReport _ _ => none
  | .evidenceCollectRecord _ _ => none
  | .resumeRetry _ _ => none
  | .resumeAbandon _ _ => none
  | .arrayPass _ => none
  | .mgoPass _ => none
  | .awriteRowStep _ _ => none
  | .eraseStep _ _ => none
  | .metadataCheckpoint => none
  | .copyStep _ _ => none
  | .scanAdmission _ => none
  | .lapBell _ => none
  | .closeMarkerArrive _ _ _ => none
  | .sliceZeroRow _ _ => none
  | .sliceRowServe _ _ => none
  | .slicePassEnd _ _ => none
  | .scanReplyDeliver _ => none
  | .gateFlipCommit _ => none
  | .notificationAppend _ => none
  | .errorLogAppend _ => none
  | .doorbell _ _ => none
  | .vfResume _ _ => none
  | .vfEvidence _ _ => none
  | .vfRegisterWrite _ _ _ => none
  | .intakePacket _ _ => none
  | .tsudalPacket _ _ _ _ => none
  | .dieLinkFrame _ _ => none
  | .linkKeyInstall _ => none
  | .linkKeySwitch _ _ => none
  | .linkKeyRetire _ _ => none
  | .functionLevelReset _ => none
  | .worldTeardown _ => none
  | .getVersion _ => none
  | .getCapabilities _ => none
  | .negotiateAlgorithms _ => none
  | .getDigests _ => none
  | .getCertificate _ => none
  | .challenge _ => none
  | .getMeasurements _ => none
  | .keyExchange _ _ => none
  | .finish _ _ => none
  | .endSession _ => none
  | .lockInterface _ => none
  | .startInterface _ => none
  | .ideKmKeyRefresh _ => none
  | .enrolment _ _ _ _ => none
  | .enrolmentWithdraw => none
  | .alarmRepeat => none
  | .bootStageA _ _ => none
  | .rollbackIncrement _ => none
  | .bootStageB => none
  | .dieJoin _ _ => none
  | .powerLoss => none
  | .governorTick _ _ _ => none
  | .fastLimit _ _ => none
  | .thermalThrottle _ _ => none
  | .throttleRelease _ _ => none
  | .thermalTrip _ _ => none
  | .hostRestart => none
  | .worldMake _ _ => none
  | .hostWrite _ _ _ => none
  | .tdiError _ => none
  | .unsupportedRequest _ => none

def tokenCode : Option Engine → Nat
  | none => 0
  | some e => e.code

/-- A lane's words: its instruction's with TW, TS and G in place (Table 4.3). -/
def encodeLane (l : Lane) : Option (Nat × Option Nat) :=
  match encode l.instr with
  | some (w, x) => some (w + tokenCode l.tw * 2 ^ 23 + tokenCode l.ts * 2 ^ 20 + l.g.val * 2 ^ 17, x)
  | none => none

/-! ### One word of the opcode table -/

/-- A line that holds one instruction of engine e: the word in lane 1, the rest of its bits as an X lane where its
opcode takes one, BE set where the instruction ends a block (R92, R94, R108). -/
def lineOfWord (e : Engine) (w x : Nat) : Line :=
  let wide := wide64 e (opOf w)
  let hdr := (if e == .s && blockEnding w then 2 ^ 28 else 0) + (if wide then 6 * 2 ^ 4 else 0) + e.code
  BitVec.ofNat 256 (hdr + w % 2 ^ 32 * 2 ^ 32 + (if wide then x % 2 ^ 32 * 2 ^ 64 else 0))

/-- The engines in the order of their codes. -/
def engines : List Engine := [.s, .v, .m, .c, .f]

/-- A row's word does not say its engine (the header nibble of its line does): the first engine, in the order of the
codes, whose decoder accepts the word (design choice, assumption 5). -/
def wordEngine (w x : Nat) : Engine :=
  ((engines.find? fun e =>
    match decodeLane e (w % 2 ^ 32) (if wide64 e (opOf w) then some (x % 2 ^ 32) else none) with
    | .ok _ => true
    | .error _ => false)).getD .s

/-- The instruction the decoder reads from bits numbered as the opcode table numbers them: the first word in bits
[31:0], an X lane in [63:32], bits from nbits up zero. The word is laid out as a line and read back from it. -/
def decodeTableWord (nbits w : Nat) : Option Instr :=
  let v := w % 2 ^ nbits
  let lo := v % 2 ^ 32
  let hi := v / 2 ^ 32 % 2 ^ 32
  let e := wordEngine lo hi
  let l := lineOfWord e lo hi
  match Line.error l with
  | some _ => none
  | none =>
    match decodeLane e (Line.word l 1) (Line.xOf l 1) with
    | .ok lane => some lane.instr
    | .error _ => none

end Sys2Proof
end

