-- ==== Sys2Proof/Config.lean ====
section
/-! DEFINITION. What the spec fixes for the part as numbers, and the free values: constants without a body that stand for
everything the spec leaves open (notes/assumptions/6.md). Each is applied to the step number `tick`, so that every
step takes fresh values. -/

namespace Sys2Proof

/-- What moves in one step. The spec fixes no order between the units of the part (R10, R87); each interleaving is some
sequence of turns. -/
inductive Turn
  | lane (sid : Nat) (e : Engine)            -- engine e of stream sid takes its next issue slot
  | event (i : Instr)                        -- a step of another unit, or something from outside
  | move (k : Nat)                           -- the k-th pending S store moves one point of visibility outward (R17, R147)
  | upset (granule : Nat) (lasting : Bool)   -- a 64-byte granule of device memory becomes uncorrectable (R155)
  | spUpset (sid core granule : Nat) (lasting : Bool)   -- a stream's read of a scratchpad granule is uncorrectable, and retried (R30, R155)
  | early (sid base : Nat) (off : Int) (n : Nat)   -- S performs a later load ahead of its turn (R147, R188)
  | corrected                                 -- a soft error is corrected in place (R30)
  | spillUpset (sid k : Nat) (lasting : Bool)            -- a spill word of S is uncorrectable when read (R30)
  | tileUpset (sid row : Nat) (lasting : Bool)           -- a tile row is
  | planeUpset (sid : Nat) (shadow : Bool) (row : Nat) (lasting : Bool)   -- a row of a matrix plane is, for the stream that reads it
  | ringUpset (sid ring : Nat) (lasting : Bool)          -- a ring's counts are
  | tagUpset (sid slot : Nat) (lasting : Bool)           -- an entry of the tag table is
  | rowUpset (sid k : Nat) (lasting : Bool)              -- the k-th row of the C→V FIFO is
  | scalarUpset (sid : Nat) (e : Engine) (k : Nat) (lasting : Bool)       -- the k-th entry of a scalar FIFO is
  | formatUpset (sid k : Nat) (lasting : Bool)           -- the k-th word of the format queue is
  | nestUpset (sid : Nat) (shadow : Bool) (k : Nat) (lasting : Bool)      -- a word of a nest table is
  | fetchUpset (sid dva : Nat) (lasting : Bool)          -- a line of the fetch buffer is
  | tlbUpset (sid k : Nat) (lasting : Bool)              -- an entry of a TLB that a stream's access looks up is
  | syncUpset (k : Nat) (lasting : Bool)                 -- the k-th word that the sync engines hold is
  | sense (die temp : Nat)                               -- a die's hottest sensor reads from 100 °C to below 105 °C (R23)
  | shadowUpset (place : Nat) (lasting : Bool)           -- the image at a place in shadow storage is uncorrectable when read (R30)
  | swapUpset (slot k granule : Nat) (lasting : Bool)    -- a scratchpad granule of the k-th image of a shadow slot is
  | metaUpset (copy : Nat)                               -- a signed copy no longer verifies: 0 and 1 of leases, 2 and 3 of enrolment (R26, R291)
  | logUpset (wid : Nat)                                 -- a measurement log is found broken (R290)
  | alarm (detail : Nat)                                 -- an environmental alarm other than the trip, and what it names (R290; assumption 132)
  | syncOut (die : Nat)                       -- a die's sync engine writes its oldest word back to memory (R20)
  | flow (k : Nat) (valid : Bool) (port id prio wid template : Nat)   -- firmware writes a flow table entry (R284)
  | bindPeer (p : Nat) (dest : Option (Nat × Nat))         -- firmware binds a peer number to a device and a port (R286)
  | sendPacket (link wid : Nat) (toPeer : Bool)          -- a packet leaves one end of a link (R286)
  | peerPacket (link wid : Nat) (ok : Bool)              -- the peer receives the oldest packet of a channel (R286)
  | ideFail (vf : Nat)                        -- an IDE integrity failure on a VF's stream (R291)
  | spdmFail (vf : Nat)                       -- an SPDM request fails verification (R291)
  | collect (seq : Nat)                       -- firmware collects an erasure record through the physical function (R282, R283)
  | logicFault (sid : Nat) (e : Engine) (unit : Nat)   -- a lasting fault of logic at engine e (R30)
  | host (sid : Nat)                         -- a host command for a firmware stream (R225)
  deriving DecidableEq, Repr, Inhabited

/-- Which unit moves when `State.sched` names none: a free value, any turn at all. -/
opaque Config.turn : Nat → Turn

/-- Nanoseconds and core cycles that pass in a step: free values (R10, R107). -/
opaque Config.elapsed : Nat → Nat
opaque Config.cycles : Nat → Nat

/-- Nanoseconds of the relaxation after an erase step: a free value (R249). -/
opaque Config.relaxation : Nat → Nat

/-- What CYCLE of a core reads at power-good: a free value (R107). -/
opaque Config.cycleBase : Nat → Nat

/-- The core temperature TEMP reads, in 1/8 °C, by step and core: a free value (R107). -/
opaque Config.temp : Nat → Nat → BitVec 64

/-- The general free value: step number, then an index within the step. -/
opaque Config.free : Nat → Nat → Nat

/-- Which translations the L1 TLBs and group TLBs hold after a step, among the ones that are valid: a free value
(R153 fixes no replacement policy). The index of a TLB, then the DVA of an entry and its WID. -/
opaque Config.tlbHolds : Nat → Nat → Nat → Nat → Bool

/-- The RSA-3072 signature of the security core's device key over a message (R256, R283, R290): a free value. -/
opaque Config.sign : List (BitVec 8) → List (BitVec 8)

/-- Does a presented lease token verify for an array set, and what token is issued (R254, R257): implementation's. -/
opaque Config.token : Nat → Nat → Nat

/-- SHA-256 of the running firmware image (R283). -/
opaque Config.fwDigest : List (BitVec 8)

/-- The certificate chain of the device identity (R25, R279): a free value. -/
opaque Config.certChain : List (BitVec 8)

/-- The memory slice of a device-physical granule (R20): fixed by the part. -/
opaque Config.sliceOf : Nat → Nat

/-- The device serial number (R256). -/
opaque Config.serial : BitVec 64

/-- Base points of the special functions where interval evaluation does not decide the rounding: a free value. -/
opaque Config.special : Nat → Nat → Nat

/-- What a peer device or a torn-down world's memory yields (R20, R286): free values. -/
opaque Config.peerByte : Nat → Nat → BitVec 8
opaque Config.noiseByte : Nat → Nat → BitVec 8

/-- The firmware's placement of a device-physical granule: its stack, fixed from stage B (R149). -/
opaque Config.stackOf : Nat → Nat

/-! Numbers of the part (Table 1.1). -/

def Config.spBytes : Nat := 1048576
def Config.halfBytes : Nat := 524288
def Config.dramBytes : Nat := 384 * 1073741824
def Config.fetchLines : Nat := 64
def Config.tokenDepth : Nat := 16
def Config.scalarDepth : Nat := 32
def Config.formatDepth : Nat := 16
def Config.liveWindows : Nat := 8
def Config.commands : Nat := 16

end Sys2Proof
end

