-- ==== Sys2Proof/Machine/Tab.lean ====
section
/-! DEFINITION. Sparse tables: lists of key and value pairs with a default for the keys not listed, and memory, whose
list is kept in one canonical form. -/

namespace Sys2Proof

/-- A table from numbers to values. -/
abbrev Tab (α : Type) := List (Nat × α)

/-- The entry of key k, or d where none is listed. -/
def Tab.get {α : Type} (d : α) : Tab α → Nat → α
  | [], _ => d
  | (a, x) :: t, k => if a = k then x else Tab.get d t k

/-- The entry of key k, if one is listed. -/
def Tab.find {α : Type} : Tab α → Nat → Option α
  | [], _ => none
  | (a, x) :: t, k => if a = k then some x else Tab.find t k

/-- The table without key k. -/
def Tab.erase {α : Type} (t : Tab α) (k : Nat) : Tab α := t.filter fun p => p.1 != k

/-- The table with key k in its place by ascending key. -/
def Tab.insert {α : Type} : Tab α → Nat → α → Tab α
  | [], k, x => [(k, x)]
  | (a, y) :: t, k, x => if a < k then (a, y) :: Tab.insert t k x else (k, x) :: (a, y) :: t

/-- The table with the entry of key k replaced. -/
def Tab.set {α : Type} (t : Tab α) (k : Nat) (x : α) : Tab α := Tab.insert (Tab.erase t k) k x

/-- As `set`, but an entry equal to the default is not listed: the canonical form. -/
def Tab.put {α : Type} [DecidableEq α] (d : α) (t : Tab α) (k : Nat) (x : α) : Tab α :=
  if x = d then Tab.erase t k else Tab.set t k x

/-- Keys strictly rising. -/
def Tab.rising {α : Type} : Tab α → Bool
  | [] => true
  | [_] => true
  | (a, _) :: (b, y) :: t => decide (a < b) && Tab.rising ((b, y) :: t)

/-- Byte memory: what an unlisted address reads as is 0 (notes/assumptions/2.md). -/
abbrev Memory := List (Nat × BitVec 8)

/-- What an unlisted address reads as. -/
def Memory.unlisted : Byte := 0

/-- The canonical form: addresses strictly rising, no entry equal to what an unlisted address reads as. -/
def Memory.wf (m : Memory) : Bool := Tab.rising m && m.all fun p => p.2 != Memory.unlisted

def Memory.read (m : Memory) (a : Nat) : Byte := Tab.get Memory.unlisted m a

def Memory.write (m : Memory) (a : Nat) (b : Byte) : Memory := Tab.put Memory.unlisted m a b

/-- n bytes from address a up (R4). -/
def Memory.readList (m : Memory) (a : Nat) : Nat → List Byte
  | 0 => []
  | n + 1 => Memory.read m a :: Memory.readList m (a + 1) n

/-- A list of bytes from address a up. -/
def Memory.writeList (m : Memory) (a : Nat) : List Byte → Memory
  | [] => m
  | b :: bs => Memory.writeList (Memory.write m a b) (a + 1) bs

/-- The memory with the bytes [a, a + n) back at what unlisted addresses read as. -/
def Memory.clear (m : Memory) (a n : Nat) : Memory := m.filter fun p => !(decide (a ≤ p.1) && decide (p.1 < a + n))

/-- The bytes [a, a + n) alone, moved to start at b. -/
def Memory.slice (m : Memory) (a n b : Nat) : Memory :=
  (m.filter fun p => decide (a ≤ p.1) && decide (p.1 < a + n)).map fun p => (p.1 - a + b, p.2)

/-- n bytes from a replaced by a slice that starts at 0. -/
def Memory.paste (m : Memory) (a n : Nat) (x : Memory) : Memory :=
  (m.filter fun p => decide (p.1 < a)) ++ (Memory.slice x 0 n a) ++ m.filter fun p => decide (a + n ≤ p.1)

/-- Little-endian bytes of a number, n of them (R4). -/
def leBytes : Nat → Nat → List Byte
  | 0, _ => []
  | n + 1, v => BitVec.ofNat 8 v :: leBytes n (v / 256)

end Sys2Proof
end

