-- ==== Sys2Proof/Machine/State.lean ====
section
/-! DEFINITION. The state of the package as plain data: everything the spec gives the machine (INVENTORY.md lists it with
the rules that name it), and its value after reset. Fields marked M are the model's own. -/

namespace Sys2Proof.Machine

open Sys2Proof

/-! ### Engines of a stream -/

/-- One active hardware loop (R66 to R69). -/
structure LoopFrame where
  lvl : Nat
  first : Nat            -- DVA of the first body line
  last : Nat             -- DVA of the last body line
  stages : Nat
  rot : Bool
  tok : Bool             -- T
  count : Nat            -- c
  i : Nat                -- the current iteration
  iters : Nat            -- `last + 1` of R68
  opn : Bool             -- `open` of R68
  ts : Option Engine     -- pushed once when the loop ends
  out : Nat              -- M: the line after which text goes on when it ends: `last`, or that of a body its line left out before (assumption 151)
  deriving DecidableEq, Repr

/-- A repeat prefix in force on the engine's next lane (R70). -/
structure RepState where
  n : Nat
  j : Nat                -- repetitions done
  dA : Int
  dB : Int
  dC : Int
  off : Bool := false    -- its G gate, evaluated once, keeps it from acting
  deriving DecidableEq, Repr

/-- What an engine is held at (M; reported by R88, R213). -/
inductive Hold
  | none
  | token (e : Engine)   -- a pop from an empty token FIFO
  | push (e : Engine)    -- a push to a full one
  | scalar               -- EPOP of an empty, QPUSH to a full scalar FIFO
  | format               -- FMTQ with the format queue full
  | slip                 -- the slip window
  | command              -- a command that cannot issue yet
  | order                -- MARK, FENCE or another duty not yet done
  | wait                 -- a wait whose condition does not hold
  deriving DecidableEq, Repr

/-- One engine of a stream (R55, R57, R58, R66, R70). -/
structure EngState where
  line : Nat := 0                 -- the line part of its PC
  lane : Nat := 0                 -- 0: the visit has not begun; 1 to 7: the next lane; 8: past the line
  blk : Nat := 0                  -- number of the block it is in
  visit : Nat := 0                -- line visits in this block
  atEnd : Bool := false           -- it has finished its block
  ended : Bool := false           -- it has retired the end tag (R77)
  loops : List LoopFrame := []    -- innermost first
  loopTop : Bool := false         -- it stands at the top of an iteration of the innermost loop
  skip : Option Nat := none       -- the last line of a body that it leaves out after this line: that of a LOOP of count 0 or gated off (R66, R343)
  g : BitVec 8 := 0               -- stage predicates
  rep : Option RepState := none
  twDone : Bool := false          -- the lane's TW token has been popped (R70)
  twVal : Bool := true            -- its value, put back by a fault (R211)
  push : List Engine := []        -- TS pushes waiting for room, oldest first (R63)
  first : Nat := 0                -- the first lane its next visit issues (R329)
  hold : Hold := .none
  deriving DecidableEq, Repr

/-- A stream's wait that did not hold when it issued (R72): its lane and its instruction. -/
structure Wait where
  line : Nat
  lane : Nat
  instr : Instr
  ts : Option Engine
  base : Nat
  x : Nat
  arrived : Option (BitVec 64) := none    -- BAR: the episode word after its arrival (R212)
  deriving DecidableEq, Repr

/-- The fields of a fault record (Table 9.1). -/
structure FaultRec where
  code : Nat
  addr : BitVec 64
  detail : BitVec 64
  eng : Engine
  lane : Nat
  line : Nat
  retry : Bool
  prog : Bool
  wid : Nat
  sid : Nat
  iter : Nat
  ctxn : Nat
  time : Nat
  lcid : Nat
  seq : Option Nat := none       -- the tail it was appended at; none while it waits (R216, R221)
  deriving DecidableEq, Repr

/-- Where a stream stands (R72, R82, R213, R226). -/
inductive Run | free | running | parked | suspended | stopped
  deriving DecidableEq, Repr

/-- A result of F still within its exposure (R75): its number, and the F slots left. -/
structure FResult where
  row : Nat
  idx : Nat
  left : Nat
  deriving DecidableEq, Repr

/-- What an engine has acquired of the row writes of F, V and M, as counts of them (M, for R75 and R76). -/
structure Know where
  f : Nat := 0
  v : Nat := 0
  m : Nat := 0
  deriving DecidableEq, Repr

/-- A write of a row by F, V or M that some reader may not have acquired yet (R75, R76, M): whose and which one, bytes of an element,
the row before it and after it, the bits it wrote, and the row it would have made of its own. -/
structure RowWrite where
  eng : Engine
  idx : Nat
  bytes : Nat
  old : Row
  val : Row
  bits : Row
  own : Row
  deriving DecidableEq, Repr

/-- One row of the C→V FIFO with its status word (R172). Rows still owed to it are counted from the commands that owe them. -/
structure VqRow where
  data : Row
  status : BitVec 64
  deriving DecidableEq, Repr

/-- A conditional stream of V (R399). -/
structure CondStream where
  head : Nat := 0
  ready : Nat := 0
  counts : List Nat := []
  partialCount : Nat := 0
  width : Nat := 0
  deriving DecidableEq, Repr

/-- A copy or gather descriptor as read at issue (R311, R316). -/
structure CopyDesc where
  src : Nat
  dst : Nat
  esize : Nat
  dims : List (Nat × Int × Int)      -- extent, source stride, destination stride, innermost first
  toVq : Bool := false
  index : Option (Nat × Nat) := none -- gather: DVA of the index list and bytes of a row
  deriving DecidableEq, Repr

/-- The commands of C, M and S that run in steps or retire later (R189, R212). -/
inductive CmdKind
  | copy (d : CopyDesc) (flag : Option (Nat × Word × Scope × Bool))   -- CCOPY, CGATH, CBANK, CCOPYF (flag DVA, value, scope, ADD)
  | scanRead (region addr len stamp : Nat) (vq : Bool) (dst : Nat)
  | scanUpdate (region addr stamp : Nat) (op : ScanOp) (data : List Byte)
  | pass (act an row : Nat) (acc t : Bool) (fmt : Word)
  | nest (fmt : Word)
  | awrite (src an first nd : Nat) (side : BitVec 8)
  | flip (gate : Nat) (owner : Bool)
  | lane                              -- a lane whose effect is complete, retiring in order (R188)
  | fence (sc : Scope) (k : FenceKind) (mask : BitVec 5) (blk visit : Nat)   -- a FENCE that does not hold S (R331)
  | note (tag : Nat)                  -- as `lane`, with its notification
  | loopEnd                           -- the TS of a loop, behind the lanes of its engine before it (R342)
  | revoke (first count wid : Nat)    -- an AREVOKE waiting for the old lessee's operations (R251)
  | stat (ids : List Nat) (d : SReg) (an item wid : Nat)   -- an ASTAT waiting for the AWRITEs its bay had accepted (R255)
  deriving DecidableEq, Repr

/-- What a read finds with a value that a release wrote (M): the releasing core, the release's scope, and the pending stores of
its cumulative set (R192, R193). -/
structure RelMark where
  core : Nat
  scope : Scope
  ids : List Nat
  deriving DecidableEq, Repr

/-- A load performed before the loads and atomics ahead of it in S's order (R188, R147): its base register, its address and size,
and what it found. -/
structure Early where
  base : Nat
  dva : Nat
  n : Nat
  bytes : List Byte
  marks : List RelMark
  ids : List Nat
  deriving DecidableEq, Repr

/-- A command in flight, with its progress (R212). -/
structure Cmd where
  id : Nat
  eng : Engine
  kind : CmdKind
  pos : Nat := 0                 -- steps done
  ts : Option Engine
  line : Nat
  lane : Nat
  base : Nat
  x : Nat
  blk : Nat := 0                 -- where its lane stands in the text: block and line visit (R88, R214)
  visit : Nat := 0
  win : Option Nat := none       -- its operand window
  admitted : Bool := false       -- a scanned request in its slice, or an AWRITE accepted by its bay
  done : Bool := false           -- complete, retiring in its engine's order
  atLane : Bool := false         -- M: its engine still stands at the lane that issued it
  tw : Option (Engine × Bool) := none   -- the token its lane popped, and its value (R211)
  faulted : Bool := false        -- kept by a fault until a RETRY (R213)
  watermark : Nat := 0           -- M: S stores up to this id are released to it (R190)
  seen : List Nat := []          -- M: pending stores in its cumulative set
  reply : Option (Row × BitVec 64) := none   -- a scanned reply not yet delivered
  deriving DecidableEq, Repr

/-- A level of the nest table (R347). -/
abbrev Nest := Tab Word

/-- One entry of a scalar FIFO: its value and the S stores that precede its QPUSH (R65, R190; the mark is M). -/
structure Scalar where
  val : Word
  mark : Nat
  deriving DecidableEq, Repr

/-- The launch identity of a stream (Table 9.6). -/
structure Identity where
  wid : Nat := 0
  launch : Nat := 0              -- M: which taken record
  iter : Nat := 0
  ctxn : Nat := 0
  die : Nat := 0                 -- the die on which the iteration started
  deriving DecidableEq, Repr

/-- A stream: its own state (R55) and its context (Table 9.6). -/
structure Stream where
  run : Run := .free
  wide : Bool := false
  reserved : Bool := false           -- a migration target (R236)
  fwd : Option Nat := none           -- a forwarded slot: the iteration its accesses follow, by WID and CTXN (R238)
  ident : Identity := {}
  -- S
  s : Tab Word := []                 -- s1 to s31; 0 where not listed
  p : Tab Bool := []                 -- p1 to p3
  spill : Tab Word := []
  evt : BitVec 8 := 0
  lcid : Nat := 0
  win : Nat := 16                    -- WIN as stored
  winNow : Nat := 16                 -- the slip window in force (R91)
  stbase : Word := 0
  stlim : Word := 0
  wdog : Word := 0
  progAt : Nat := 0                  -- device time of the last progress (R88)
  fcode : Word := 0
  faddr : Word := 0
  fline : Word := 0
  feng : Word := 0
  tags : Tab Nat := []               -- tag table: valid entries only
  -- rows and masks
  v : Tab Row := []
  ovf : Tab Bool := []               -- per-row overflow flags (R122)
  m : Tab VMask := []
  vty : Ty := .f32
  rot : Nat := 0
  cond : Tab CondStream := []
  -- engine scalars, by engine code
  e : Tab (Tab Word) := []
  -- FIFOs
  tokens : Tab (List Bool) := []     -- key: 8·from + to, by engine code; oldest first
  scalars : Tab (List Scalar) := []  -- by engine code
  fmtq : List Word := []
  vq : List VqRow := []
  -- engines, by engine code
  eng : Tab EngState := []
  blocks : Tab Nat := []             -- start lines of the blocks S has decided
  fetch : Tab Nat := []              -- fetch buffer: lines by DVA
  wait : Option Wait := none
  fault : Option FaultRec := none
  faultEng : Option Engine := none
  -- matrix nest
  nestActive : Nest := []
  nestShadow : Nest := []
  -- work in flight
  cmds : List Cmd := []              -- oldest first
  awrites : List Cmd := []           -- accepted AWRITEs with rows still to program (R230, R252)
  trap : Option Bool := none         -- a TRAP firmware has taken: false under way, true carried out (R395)
  fres : List FResult := []
  made : Know := {}                  -- M: row writes of F, V and M so far
  fKnow : Tab Know := []             -- M: by engine code, the row writes acquired through tokens
  fTok : Tab (List Know) := []       -- M: the senders' knowledge beside each token
  fRace : Tab (List RowWrite) := []  -- M: by row, its writes that some engine may not have acquired, in their order (R76)
  -- scanned regions (R162, R173)
  ports : Tab Nat := []              -- region to admission port id
  subs : List Nat := []              -- regions whose served laps set EVT bit 3
  -- migration (R235, R236)
  migrate : Option Nat := none       -- target SID of the pending request
  yielding : Bool := false           -- a YIELD has retired, and what follows is not decided yet (R421)
  -- privileged CSRs of the stream (R224)
  ctxsid : Word := 0
  ctxaddr : Word := 0
  ctxcmd : Word := 0
  ctxNext : Word × Word := (0, 0)    -- the CTXSID and CTXADDR the running command uses (R228)
  ctxDue : Bool := false             -- M: a context command accepted and not yet carried out
  pswap : Word := 0
  pswapDue : Bool := false
  pgate : Word := 0
  pgateDue : Bool := false
  migst : Word := 0
  range0 : Tab Nat := []             -- M: range units whose last RNEXT returned count 0, by unit (R85)
  -- ordering (M)
  seen : List Nat := []              -- pending stores this stream's reads have observed (R192)
  acqs : List (Nat × RelMark) := []  -- by engine code, releases whose values plain reads have met, for a FENCE (R196)
  early : List Early := []           -- loads performed ahead of their turn (R188)
  marks : Tab Nat := []              -- by engine code: S stores released by the last popped QPUSH value (R190)
  lap : Tab Nat := []                -- last lap CLAP returned, by region
  deriving DecidableEq, Repr

/-- The value a stream has after reset and before its first iteration. -/
def Stream.reset : Stream := {}

/-! ### Cores and bays -/

/-- One ring (R143, R144). -/
structure Ring where
  offset : Nat := 0
  z : Nat := 0
  n : Nat := 0
  claim : BitVec 32 := 0
  commit : BitVec 32 := 0
  free : BitVec 32 := 0
  overrun : Bool := false
  deriving DecidableEq, Repr

/-- A live operand window over scratchpad bytes [lo, hi] of its core (R145). -/
structure Window where
  id : Nat
  sid : Nat
  eng : Engine
  lo : Nat
  hi : Nat
  deriving DecidableEq, Repr

/-- A request to a firmware stream (R225). -/
inductive Request
  | trap (sid : Nat)
  | host
  | tick
  deriving DecidableEq, Repr

/-- One core (R55, R56, R74, R140, R143, R145); on the hub, a service core (R224, R225). -/
structure Core where
  sp : Memory := []                  -- scratchpad
  spBad : Tab Bool := []             -- poisoned scratchpad granules
  rings : Tab Ring := []
  windows : List Window := []
  planeA : Memory := []              -- active matrix plane: byte b of row j at 256·j + b (R352)
  planeS : Memory := []              -- shadow plane
  lastWid : Tab Nat := []            -- by engine code: the world it last issued for, plus 1 (R56)
  issuing : Nat := 0                 -- which stream issues
  gained : Nat := 0                  -- the clock when it gained the core (R74)
  switch : Bool := false             -- a switch is due at the next block end (R74)
  keys : List Nat := []              -- worlds in the crypto unit's slots (R154)
  gated : Bool := false              -- R234
  -- service cores
  tvec : Word := 0
  epc : Word := 0
  ecause : Word := 0
  escr : Word := 0
  eie : Bool := false
  requests : List Request := []      -- pending, oldest first
  halted : Bool := false             -- HALT (R335)
  deriving DecidableEq, Repr

def Core.reset : Core := {}

/-- Lease states (Table 10.2). -/
inductive LeaseState | free | leased | evicting | erased | retired
  deriving DecidableEq, Repr

/-- An array's lease and account (R243, R246, R249, R256). -/
structure Lease where
  st : LeaseState := .free
  wid : Nat := 4095                  -- lessee, or previous lessee
  dormant : Bool := false
  eop : Bool := false
  weight : Nat := 0
  token : Nat := 0                   -- the 16-byte lease token
  party : Nat := 0                   -- charged for the erase
  vfail : Bool := false
  byEop : Bool := false              -- the erase was started by EOP
  restarted : Bool := false          -- the erase was restarted after a power loss
  errows : Nat := 0                  -- rows checked by the current or last erase
  pulses : Nat := 0                  -- erase steps of the current row
  rowFail : Bool := false            -- a row of this erase failed
  erStart : Nat := 0
  erEnd : Nat := 0
  erChg : Nat := 0                   -- programs charged for this erase
  revocation : Nat := 0              -- M: which revocation queued the erase (R251)
  chgAtRevoke : Nat := 0
  life : Nat := 0
  count : Tab Nat := []
  maxrow : Nat := 0
  chg : Nat := 0
  rsv : Nat := 0
  unverified : List Nat := []        -- rows recorded as unverified (R24)
  deriving DecidableEq, Repr

def Lease.reset : Lease := {}

/-- An operation a bay has accepted (R240, R242): a pass or an AWRITE of a stream's command. -/
structure BayOp where
  wid : Nat
  sid : Nat
  cmd : Nat
  an : Nat
  awrite : Bool
  pass : Nat := 0                    -- which pass of a nest (R351)
  again : Bool := false              -- it has faulted there: a RETRY checks it anew (R222)
  deriving DecidableEq, Repr

/-- A bay: its queues and its arbiter (R242, R252). -/
structure Bay where
  ops : List BayOp := []             -- accepted operations in order
  maint : Nat := 1                   -- maintenance weight
  weights : Tab Nat := []            -- by WID
  visit : Option Nat := none         -- the requester the round stands at: 0 maintenance, else WID; none before a round
  used : Nat := 0                    -- operations it has received in this visit
  relax : Nat := 0                   -- the device time when the relaxation after its last erase step ends (R249)
  left : List (Nat × Cmd × Memory) := []  -- accepted AWRITEs whose iterations have ended: the SID, and the source its window keeps (R77, R252)
  deriving DecidableEq, Repr

def Bay.reset : Bay := {}

/-! ### Memory traffic -/

/-- Where a write goes. -/
inductive Loc
  | dram (dpa : Nat)
  | sp (core off : Nat)
  | commit (core ring : Nat)
  | peer (p off : Nat)
  deriving DecidableEq, Repr

/-- An S store on its way outward (R17, R147). -/
structure Store where
  id : Nat
  sid : Nat
  core : Nat
  loc : Loc
  data : List Byte
  rel : Option Scope := none         -- a release, and its scope
  need : List Nat := []              -- M: pending stores of its cumulative set (R192)
  late : Bool := false               -- it stands behind a held write: its gate is checked when it leaves (R268)
  refused : Bool := false            -- that check has refused it: its lane issues again on a RETRY (R211, R222)
  tw : Option (Engine × Bool) := none   -- the token its lane popped, and its value (R211)
  ts : Option Engine := none         -- pushed when the store retires
  wid : Nat := 0
  dva : Nat := 0
  line : Nat := 0                    -- the lane that issued it, and where that stands in the text (R88)
  lane : Nat := 0
  blk : Nat := 0
  visit : Nat := 0
  deriving DecidableEq, Repr

/-- One mapping of a page table (R150, R151). -/
structure Page where
  wid : Nat
  dva : Nat
  dpa : Nat
  size : Nat                         -- SIZE code, 0 to 3
  cls : Nat                          -- 0 normal, 1 scanned, 2 gated
  zfill : Bool
  x : Bool
  w : Bool
  r : Bool
  deriving DecidableEq, Repr

/-- A bound gate (R264, R269). -/
structure Gate where
  wid : Nat
  dva : Nat
  dpa : Nat
  base : Nat
  npg : Nat
  set0 : BitVec 4
  set1 : BitVec 4
  owner : Bool
  flipping : Bool := false
  deriving DecidableEq, Repr

/-- A request queued at a slice (R168, R177). -/
structure ScanReq where
  port : Nat
  seq : Nat
  stamp : Nat
  row : Nat                          -- global row
  off : Nat
  len : Nat
  update : Option (ScanOp × List Byte)
  sid : Nat                          -- M: the stream and command of a read
  cmd : Nat
  wid : Nat
  deriving DecidableEq, Repr

/-- A slice of a region (Table 7.5). -/
inductive SliceState | zero (row : Nat) | wait (lap : Nat) | pass (lap row : Nat)
  deriving DecidableEq, Repr

structure Slice where
  st : SliceState := .wait 0
  queue : List ScanReq := []
  markers : List (Nat × Nat) := []   -- port, lap
  deriving DecidableEq, Repr

/-- A scanned region (R159 to R167). -/
structure Region where
  wid : Nat
  base : Nat
  log2s : Nat
  nrow : Nat
  stepped : Bool
  zfill : Bool
  bell : Nat
  parts : List Nat                   -- participating ports, stepped mode
  slots : List Nat := []             -- M: the memory slices that hold its banks (R159)
  opn : Tab Nat := []                -- open lap of each port
  bells : Nat := 0                   -- timed: rings so far
  lastBell : Nat := 0
  seqs : Tab Nat := []               -- sequence counter of each port
  slices : Tab Slice := []
  pend : List (Nat × Nat × Nat) := []  -- close markers on their way: slice, port, lap
  served : Nat := 0                  -- laps served
  releasing : Bool := false          -- R161
  waiter : Option Nat := none        -- stream whose TRAP waits for the release, or for the region to be made
  undo : Option (Tab Nat × Nat) := none  -- M: `opn` and `bells` before a release closed the laps, while it can be taken back (R211)
  deriving DecidableEq, Repr

/-! ### Launches, worlds, links -/

/-- A record the walker has taken (Table 2.5, R80, R81). -/
structure Launch where
  id : Nat
  wid : Nat
  dva : Nat
  entry : Nat := 0                   -- M: which entry of the launch queue it is, from 0 on
  text : Nat
  prio : Nat
  wide : Bool
  clusters : BitVec 2
  levels : List (Nat × Nat × Nat)    -- extent, kind, order position
  args : Word
  doneWord : Nat
  event : Nat                        -- the completion event word
  range : Nat                        -- the range word
  mask : Option (List Byte)          -- placement mask; none: every core
  dies : List Nat                    -- the D dies of R81
  total : Nat
  next : Tab Nat := []               -- per die: the first linear number not yet handed out
  done : Nat := 0
  rangeDies : List Nat := []         -- dies whose range unit this record has loaded
  deriving DecidableEq, Repr

/-- A range unit (R85, R86). -/
structure RangeUnit where
  wid : Nat := 0
  launch : Nat := 0
  total : Nat := 0
  p : Nat := 0
  min : Nat := 0
  next : Nat := 0
  deriving DecidableEq, Repr

/-- What firmware and the hub keep of a world beside its world table entry (R20, R216, R246, R278, R283). -/
structure World where
  key : Bool := false                -- a key slot holds the world's key
  notes : List (List Byte) := []     -- notifications waiting
  errs : List (List Byte) := []      -- error-log entries waiting
  faults : List FaultRec := []       -- fault records waiting, oldest first (R216)
  taken : List Nat := []             -- launches whose records still stand in the launch queue, oldest first (R84)
  log : List (List Byte) := []       -- measurement log (R283)
  logAtSave : Nat := 0
  savetime : Nat := 0
  wtot : Nat := 0                    -- R246
  ctxNext : Nat := 0
  deriving DecidableEq, Repr

def World.reset : World := {}

/-- TDISP states (R279). -/
inductive Tdi | unlocked | locked | run | error
  deriving DecidableEq, Repr

/-- SPDM connection of a function (R279). -/
inductive Spdm | none | version | caps | algs | exchange | session
  deriving DecidableEq, Repr

structure Vf where
  tdi : Tdi := .unlocked
  spdm : Spdm := .none
  ide : Nat := 0                     -- number of the IDE key in use
  dbstat : Nat := 0
  reply : List Byte := []            -- last response sent to the host
  deriving DecidableEq, Repr

def Vf.reset : Vf := {}

/-- A flow table entry (Table 12.6). -/
structure Flow where
  valid : Bool := false
  port : Nat := 0
  flow : Nat := 0
  prio : Nat := 0
  wid : Nat := 0
  template : Nat := 0
  hits : Nat := 0
  drops : Nat := 0
  deriving DecidableEq, Repr

/-- A packet on its way over a Tsudal link, kept in its sender's replay buffer (R286, R288). -/
structure Packet where
  wid : Nat                          -- its virtual channel (R287)
  slot : Nat                         -- the key slot it names
  toPeer : Bool                      -- from this device to the peer
  fails : Nat := 0                   -- times it has failed authentication
  deriving DecidableEq, Repr

/-- A link: Tsudal ports 0 to 3, die links 4 to 7 and hub links 8 to 11 by number (R16, R286, R288; assumption 87). A channel's
credits in use are its packets in flight. -/
structure Link where
  down : Bool := false
  fails : Nat := 0                   -- authentication failures of the current frame of a die or hub link (R16)
  flight : List Packet := []         -- packets on their way, oldest first; each channel keeps its order
  slotA : Nat := 0                   -- key slot each end sends in
  slotB : Nat := 0
  validA : List Nat := [0]           -- key slots each end accepts
  validB : List Nat := [0]
  keys : Tab Nat := [(0, 0)]         -- number of the key in each slot
  nextKey : Nat := 1
  flush : List Nat := []             -- worlds being reset (R289)
  deriving DecidableEq, Repr

def Link.reset : Link := {}

/-- An erasure record kept by firmware (R256, R283). -/
structure Record where
  seq : Nat
  prev : Nat
  party : Nat
  bytes : List Byte
  deriving DecidableEq, Repr

/-- A saved stream (R226, R227). -/
structure Image where
  stream : Stream
  core : Nat                         -- M: the core it last ran on
  idx : Nat                          -- stream index
  sp : Memory
  spBad : Tab Bool
  rings : Tab Ring
  windows : List Window
  queue : List Store                 -- writes its windows hold, and S stores that could not leave the store queue, oldest first
  torn : Bool := false               -- something has been written over it (R227)
  deriving DecidableEq, Repr

/-- A shadow slot filled by PSWAP (R232, R233). -/
structure SwapSlot where
  group : Nat
  images : List (Nat × Nat × Image)  -- core index, stream index
  fwds : List (Nat × Nat × Nat)
  deriving DecidableEq, Repr

/-- One of two signed copies of a record in the hub's non-volatile metadata (R26, R291). -/
structure MetaCopy where
  seq : Nat := 0
  good : Bool := true                -- its signature verifies
  deriving DecidableEq, Repr

/-- The security core (R290, R291). -/
structure Security where
  lockdown : Nat := 0                -- cause, 0 none
  detail : Nat := 0                  -- die, unit or WID, by cause
  port1 : Bool := false              -- it has taken Ethernet port 1
  alarmed : Bool := false            -- the alarm record of this lockdown is issued
  alarm : List Byte := []            -- the last alarm record
  sent : Nat := 0                    -- datagrams sent
  enrolled : Option (BitVec 128 × Nat × Nat × Nat) := none
  copyA : MetaCopy := {}             -- the two copies of the enrolment record
  copyB : MetaCopy := {}
  violations : List Nat := []        -- times of access violations
  deriving DecidableEq, Repr

/-- Power and start (R21 to R29). -/
structure Boot where
  stage : Nat := 0                   -- 0 powered, 1 stage A done, 2 stage B done
  safe : Bool := false               -- stays in the safe function (R26)
  joined : List Nat := []
  failed : List Nat := []
  version : Nat := 0                 -- security version of the running image
  fuses : List (Bool × Bool) := []   -- blown value and commit fuses, by pair
  incDone : Bool := false            -- the increment after stage A has been made (R29)
  tripped : Bool := false
  copyA : MetaCopy := {}             -- the two copies of the lease table and the accounts (R26)
  copyB : MetaCopy := {}
  metaSeq : Nat := 0                 -- sequence number of the copy stage B has used
  deriving DecidableEq, Repr

structure Power where
  limits : Tab Nat := []             -- issue-rate limits in 1/16, by 8·die + class
  limited : List Nat := []           -- dies the fast limiter holds
  throttled : List Nat := []
  sensor : Tab Nat := []             -- hottest sensor of each die, 1/8 °C
  deriving DecidableEq, Repr

/-- A TRAP that firmware has taken and not finished (R395). -/
structure TrapReq where
  sid : Nat
  wid : Nat
  svc : Nat
  blk : Nat
  deriving DecidableEq, Repr

/-- A LEASE or UNLEASE request firmware has accepted (R257). -/
structure LeaseReq where
  wid : Nat
  blk : Nat
  op : Nat                           -- 0 REQUEST, 1 WAKE, 2 RESERVE, 3 EOP, 4 UNLEASE
  range : Nat
  value : Nat
  token : Nat
  revoked : Bool := false            -- UNLEASE: its AREVOKE is committed, and waits for the accepted passes (R251)
  deriving DecidableEq, Repr

/-! ### The lane being issued -/

/-- The lane an engine issues (M): whose it is, where it stands, its words and its TS. -/
structure Cur where
  sid : Nat := 0
  eng : Engine := .s
  line : Nat := 0
  lane : Nat := 0
  base : Nat := 0
  x : Nat := 0
  ts : Option Engine := none
  deriving DecidableEq, Repr

/-- How the lane ended (M). -/
inductive LaneEnd
  | retired     -- its effect is complete: TS is pushed, the engine goes on
  | held        -- it has not issued; it is tried again
  | deferred    -- issued; it retires, and pushes TS, later
  | faulted     -- it raised a fault
  | moved       -- as `retired`, but the meaning has set the engine's position
  deriving DecidableEq, Repr

/-! ### The package -/

structure State where
  -- the model's own
  tick : Nat
  sched : List Turn
  cur : Cur
  out : LaneEnd
  nextId : Nat
  -- cores
  streams : Tab Stream               -- by SID
  cores : Tab Core                   -- by PCID; service cores 256 to 259
  -- arrays
  rows : Memory                      -- array contents: byte b of row r of array an at (an·264 + r)·256 + b
  leases : Tab Lease                 -- by AN
  bays : Tab Bay                     -- by 16·PCID + bay
  revocations : Nat
  recseq : Nat
  records : List Record
  journal : Nat                      -- charges since the signed copies were written (R247)
  -- device memory
  mem : Memory                       -- M: as plaintext, like the writes on their way (R19, R20; assumption 153)
  memBad : Tab Bool                  -- poisoned granules
  memErr : Tab Nat                   -- granules whose next read is uncorrectable: 1 transient, 2 lasting
  stale : List (Nat × Nat)           -- device memory ranges torn-down worlds left: start, length (R155)
  fresh : Tab Bool                   -- granules of such ranges written whole since
  queue : List Store                 -- S stores in store queues, oldest first
  atCore : List Store
  atGrp : List Store
  atDie : List Store
  rels : Tab (List RelMark)          -- M: by byte, the releases its value comes from (R193)
  pages : List Page
  alloc : List (Nat × Nat × Nat)     -- device-physical ranges allocated to worlds: WID, start, length
  tlb : List (Nat × Nat × Nat)       -- TLB (core, or 260 + group), WID, DVA of a cached mapping
  -- regions and gates
  regions : Tab Region
  gates : List Gate
  -- launches
  launches : List Launch
  rotate : Tab Nat                   -- walker pointers by 8·die + priority
  ranges : Tab RangeUnit             -- by 64·die + unit
  -- worlds and hub
  worlds : Tab World
  wtbase : Word
  migbase : Word
  images : Tab Image                 -- by place: device-physical address, or 2^40 + die·2^28 + shadow offset
  spent : Tab Image                  -- images that a RESTORE has installed and that still stand in their places (R227)
  shadow : Tab SwapSlot              -- by 8·die + slot
  vfs : Tab Vf
  flows : Tab Flow
  flowMiss : Nat
  links : Tab Link
  peers : Tab (Nat × Nat)            -- peer number to remote device and port
  syncKeys : Tab (List Nat)          -- worlds in the key slots of each die's sync engine (R20)
  syncWords : List (Nat × Nat)       -- words the sync engines' SRAM holds: WID, device-physical address / 8
  sliceKeys : Tab (List Nat)         -- worlds in the key slots of each slice crypto lane
  sec : Security
  boot : Boot
  power : Power
  corrected : List Nat               -- the log of soft errors corrected in place: their times, as many as there were (R30)
  clock : Nat                        -- core clock cycles since power-good (R74, R107)
  now : Nat                          -- device monotonic time, ns
  traps : List TrapReq               -- in the order they reached firmware
  services : List LeaseReq           -- accepted and not yet carried out
  deriving DecidableEq, Repr

/-- Reasons a step can stop. No instruction of the spec is without an effect, and faults of streams are next states
(R213, R225), so this model raises none of these. -/
inductive Fault
  /-- Raised by nobody; safe. -/
  | none
  deriving DecidableEq, Repr

/-- Reasons a meaning is refused. -/
inductive Refusal
  /-- An arm of `exec` that has no meaning yet; safe. -/
  | notModelled (mnemonic : String)
  deriving DecidableEq, Repr

abbrev Result := Host.Outcome State Fault Refusal

/-- The package right after power-good: no die joined, no world but firmware's, memory and registers at the values
notes/assumptions/1.md and 2.md name where the spec gives none. -/
def State.reset : State where
  tick := 0
  sched := []
  cur := {}
  out := .retired
  nextId := 1
  streams := []
  cores := []
  rows := []
  leases := []
  bays := []
  revocations := 0
  recseq := 0
  records := []
  journal := 0
  mem := []
  memBad := []
  memErr := []
  stale := []
  fresh := []
  queue := []
  atCore := []
  atGrp := []
  atDie := []
  rels := []
  pages := []
  alloc := []
  tlb := []
  regions := []
  gates := []
  launches := []
  rotate := []
  ranges := []
  worlds := []
  wtbase := 0
  migbase := 0
  images := []
  spent := []
  shadow := []
  vfs := []
  flows := []
  flowMiss := 0
  links := []
  peers := []
  syncKeys := []
  syncWords := []
  sliceKeys := []
  sec := {}
  boot := {}
  power := {}
  corrected := []
  clock := 0
  now := 0
  traps := []
  services := []

end Sys2Proof.Machine
end

