-- ==== Sys2Proof/Machine/Ops.lean ====
section
/-! DEFINITION. Named operations over streams, registers, FIFOs, and the taking of a fault (09 R211 to R219, R225) with
the return from a handler beside it. -/

namespace Sys2Proof.Machine

open Sys2Proof

/-! ### Streams and cores -/

def State.stream (s : State) (sid : Nat) : Stream := Tab.get Stream.reset s.streams sid
def State.setStream (s : State) (sid : Nat) (st : Stream) : State := { s with streams := Tab.set s.streams sid st }
def State.core (s : State) (c : Nat) : Core := Tab.get Core.reset s.cores c
def State.setCore (s : State) (c : Nat) (k : Core) : State := { s with cores := Tab.set s.cores c k }
def State.lease (s : State) (an : Nat) : Lease := Tab.get Lease.reset s.leases an
def State.setLease (s : State) (an : Nat) (l : Lease) : State := { s with leases := Tab.set s.leases an l }
def State.bay (s : State) (b : Nat) : Bay := Tab.get Bay.reset s.bays b
def State.setBay (s : State) (b : Nat) (x : Bay) : State := { s with bays := Tab.set s.bays b x }
def State.world (s : State) (w : Nat) : World := Tab.get World.reset s.worlds w
def State.setWorld (s : State) (w : Nat) (x : World) : State := { s with worlds := Tab.set s.worlds w x }
def State.vf (s : State) (n : Nat) : Vf := Tab.get Vf.reset s.vfs n
def State.setVf (s : State) (n : Nat) (x : Vf) : State := { s with vfs := Tab.set s.vfs n x }
def State.link (s : State) (n : Nat) : Link := Tab.get Link.reset s.links n
def State.setLink (s : State) (n : Nat) (x : Link) : State := { s with links := Tab.set s.links n x }

/-- The stream whose lane issues. -/
def State.me (s : State) : Stream := s.stream s.cur.sid
def State.setMe (s : State) (st : Stream) : State := s.setStream s.cur.sid st

/-- PCID, group and die of a stream (R14); the service cores follow the compute cores (notes/assumptions/3.md). -/
def coreOf (sid : Nat) : Nat := sid / 2
def groupOf (core : Nat) : Nat := core / 16
def dieOf (core : Nat) : Nat := core / 64
def isService (sid : Nat) : Bool := decide (512 ≤ sid)

/-- The world of a stream; firmware's is world 0 (Table 1.1). -/
def State.widOf (s : State) (sid : Nat) : Nat := if isService sid then 0 else (s.stream sid).ident.wid

/-- Firmware: service-core streams and streams of world 0 (R107, R224). -/
def State.firmware (s : State) (sid : Nat) : Bool := isService sid || s.widOf sid == 0

def State.finish (s : State) (o : LaneEnd) : State := { s with out := o }
def State.held (s : State) : State := s.finish .held
def State.deferred (s : State) : State := s.finish .deferred

/-- The k-th free value of this step. -/
def State.free (s : State) (k : Nat) : Nat := Config.free s.tick k

/-! ### Registers (R98) -/

/-- The address a sum names, without a modulus (R9). A negative sum names no address, as one from 2⁶⁴ on does; a fault shows the low 64 bits of
it (assumption 119). -/
def addrOf (x : Int) : Nat := if x < 0 then (x % 2 ^ 64).toNat + 2 ^ 64 else x.toNat

/-- The address a register and a signed byte offset name. -/
def addrAdd (a : Word) (off : Int) : Nat := addrOf ((a.toNat : Int) + off)

/-- S[r]; s0 reads 0. -/
def State.getS (s : State) (r : SReg) : Word := if r = 0 then 0 else Tab.get 0 s.me.s r.val

/-- Writes S[r]; a write to s0 is discarded. A load performed ahead with the register as its base is let go: its address may come
from a value not yet read then (R188). -/
def State.setS (s : State) (r : SReg) (v : Word) : State :=
  if r = 0 then s else s.setMe { s.me with s := Tab.set s.me.s r.val v, early := s.me.early.filter fun x => x.base != r.val }

/-- P[r]; p0 reads 1. -/
def State.getP (s : State) (r : PReg) : Bool := r == 0 || Tab.get false s.me.p r.val

def State.setP (s : State) (r : PReg) (v : Bool) : State :=
  if r = 0 then s else s.setMe { s.me with p := Tab.set s.me.p r.val v }

/-- E[x][r] of engine x. -/
def State.getE (s : State) (x : Engine) (r : EReg) : Word := Tab.get 0 (Tab.get [] s.me.e x.code) r.val

def State.setE (s : State) (x : Engine) (r : EReg) (v : Word) : State :=
  s.setMe { s.me with e := Tab.set s.me.e x.code (Tab.set (Tab.get [] s.me.e x.code) r.val v) }

def Stream.row (st : Stream) (n : Nat) : Row := Tab.get 0 st.v n
def Stream.setRow (st : Stream) (n : Nat) (x : Row) : Stream := { st with v := Tab.set st.v n x }
def Stream.overflowed (st : Stream) (n : Nat) : Bool := Tab.get false st.ovf n
def Stream.setOver (st : Stream) (n : Nat) (b : Bool) : Stream := { st with ovf := Tab.set st.ovf n b }

/-- M[r]; m0 is all lanes (R390). -/
def State.getM (s : State) (r : MReg) : VMask := if r = 0 then BitVec.allOnes 1024 else Tab.get 0 s.me.m r.val

def State.setM (s : State) (r : MReg) (x : VMask) : State :=
  if r = 0 then s else s.setMe { s.me with m := Tab.set s.me.m r.val x }

/-- The state of one engine of a stream. -/
def Stream.eng' (st : Stream) (e : Engine) : EngState := Tab.get {} st.eng e.code
def Stream.setEng (st : Stream) (e : Engine) (x : EngState) : Stream := { st with eng := Tab.set st.eng e.code x }
def State.myEng (s : State) : EngState := s.me.eng' s.cur.eng
def State.setMyEng (s : State) (x : EngState) : State := s.setMe (s.me.setEng s.cur.eng x)

/-! ### Tokens (R62, R63) -/

def tokenKey (src dst : Engine) : Nat := 8 * src.code + dst.code

def Stream.fifo (st : Stream) (src dst : Engine) : List Bool := Tab.get [] st.tokens (tokenKey src dst)

def Know.max (a b : Know) : Know := { f := Nat.max a.f b.f, v := Nat.max a.v b.v, m := Nat.max a.m b.m }

/-- What an engine knows of the row writes of F, V and M: its own, and the ones acquired. It goes with its tokens (M, for R76). -/
def Stream.knows (st : Stream) (e : Engine) : Know :=
  let k := Tab.get {} st.fKnow e.code
  match e with
  | .f => { k with f := st.made.f }
  | .v => { k with v := st.made.v }
  | .m => { k with m := st.made.m }
  | _ => k

def Know.of (k : Know) : Engine → Nat
  | .f => k.f
  | .v => k.v
  | .m => k.m
  | _ => 0

/-- The count with one more write of an engine. -/
def Know.count (k : Know) : Engine → Know
  | .f => { k with f := k.f + 1 }
  | .v => { k with v := k.v + 1 }
  | .m => { k with m := k.m + 1 }
  | _ => k

/-- Pushes a token, if there is room for it. -/
def Stream.push (st : Stream) (src dst : Engine) (v : Bool) : Option Stream :=
  if (st.fifo src dst).length < Config.tokenDepth then
    some { st with tokens := Tab.set st.tokens (tokenKey src dst) (st.fifo src dst ++ [v]),
                   fTok := Tab.set st.fTok (tokenKey src dst) (Tab.get [] st.fTok (tokenKey src dst) ++ [st.knows src]) }
  else none

/-- Takes the oldest token from src to dst. What S performs after its pop is performed anew (R64). -/
def Stream.pop (st : Stream) (src dst : Engine) : Option (Bool × Stream) :=
  match st.fifo src dst with
  | [] => none
  | v :: r =>
    let know := (Tab.get [] st.fTok (tokenKey src dst)).head?.getD {}
    some (v, { st with tokens := Tab.set st.tokens (tokenKey src dst) r,
                       fTok := Tab.set st.fTok (tokenKey src dst) (Tab.get [] st.fTok (tokenKey src dst)).tail,
                       fKnow := Tab.set st.fKnow dst.code ((st.knows dst).max know)
                       early := if dst == .s then [] else st.early })

/-- A pushed token, or the engine held at a full FIFO (R63). A token for another FIFO does not wait behind it (R189). -/
def Stream.pushOrWait (st : Stream) (e : Engine) (ts : Option Engine) : Stream :=
  match ts with
  | none => st
  | some d =>
    let q := (st.eng' e).push
    match (if q.contains d then none else st.push e d true) with
    | some st => st
    | none => st.setEng e { st.eng' e with push := q ++ [d], hold := .push ((q ++ [d]).headD d) }

/-- What an engine has waiting to be pushed is pushed as far as there is room, and the engine is held by what is left (R63). -/
def Stream.pushWaiting (st : Stream) (e : Engine) : Stream :=
  (st.eng' e).push.foldl (fun (st : Stream) d => st.pushOrWait e (some d)) (st.setEng e { st.eng' e with push := [], hold := .none })

/-- Puts a popped token back at the head of its FIFO (R211). -/
def Stream.unpop (st : Stream) (src dst : Engine) (v : Bool) : Stream :=
  { st with tokens := Tab.set st.tokens (tokenKey src dst) (v :: st.fifo src dst),
            fTok := Tab.set st.fTok (tokenKey src dst) (st.knows dst :: Tab.get [] st.fTok (tokenKey src dst)) }

/-- Marks progress for the stall watchdog (R88). -/
def State.progress (s : State) (sid : Nat) : State := s.setStream sid { s.stream sid with progAt := s.now }

/-! ### Lockdown (R290) -/

/-- The security core enters lockdown, parks every stream at its next block end and takes port 1; the first cause stands. -/
def State.lockdown (s : State) (cause : Nat) (detail : Nat := 0) : State :=
  if s.sec.lockdown = 0 then { s with sec := { s.sec with lockdown := cause, detail := detail, port1 := true } } else s

/-! ### Taking a fault -/

/-- What a faulting access or instruction says of itself (Table 9.2). -/
structure FaultInfo where
  code : Nat
  addr : Word := 0
  detail : Word := 0
  deriving DecidableEq, Repr

/-- The codes RESUME accepts RETRY for (Table 9.2). -/
def retryable (code : Nat) : Bool := [0x04, 0x05, 0x0A, 0x0B, 0x0D, 0x0F, 0x11].contains code

/-- Every engine of a firmware stream goes to a line, at the start of a new block (R225; assumption 7), where the window WIN names
applies (R91). A BAR that waits is left with its arrival made (assumption 112); a lane that has issued and is not complete goes on beside its
engine. -/
def Stream.jumpAll (st : Stream) (line : Nat) : Stream :=
  let n := (st.eng' .s).blk + 1
  let go (e : Engine) (st : Stream) : Stream :=
    st.setEng e
      { st.eng' e with
        line := line, lane := 0, blk := n, visit := 0, atEnd := false, loops := [], loopTop := false, skip := none, rep := none
        twDone := false, first := 0, hold := .none }
  { go .s (go .v (go .m (go .c (go .f st)))) with
    blocks := [(n, line)], wait := none, winNow := st.win, cmds := st.cmds.map fun c => { c with atLane := false } }

/-- A service core enters its handler (R225): EPC, ECAUSE, EIE := 0, and on at TVEC. With EIE 0 it is a double fault: the core
stops, its registers as they were, and the security core enters lockdown. -/
def State.enterHandler (s : State) (sid : Nat) (line lane cause : Nat) : State :=
  let c := s.core (coreOf sid)
  if c.eie then
    (s.setCore (coreOf sid) { c with epc := BitVec.ofNat 64 (line / 32 * 32 + lane % 8), ecause := BitVec.ofNat 64 cause, eie := false }).setStream sid
      { (s.stream sid).jumpAll (c.tvec.toNat / 32 * 32) with run := .running }
  else (s.setStream sid { s.stream sid with run := .stopped }).lockdown 5 (coreOf sid)

/-- S decides the successor of its block and stands at its start (R60), where it leaves out the lanes below `first` (R329); the window
WIN names applies from here (R91). -/
def Stream.branchTo (st : Stream) (line : Nat) (first : Nat := 0) : Stream :=
  let ss := st.eng' .s
  let oldest := engines.foldl (fun n e => let es := st.eng' e; if es.ended then n else Nat.min n es.blk) ss.blk
  { st.setEng .s { ss with line := line, lane := 0, blk := ss.blk + 1, visit := 0, atEnd := false, loops := [], loopTop := false,
                           skip := none, rep := none, twDone := false, first := first, hold := .none } with
    blocks := Tab.set (st.blocks.filter fun p => decide (oldest ≤ p.1)) (ss.blk + 1) line, winNow := st.win }

/-- Return from the handler (R225, R329): the block goes on at EPC's line, S there from EPC's lane on (a lane of 0 is taken as 1), and EIE
is set. The other engines finish the block first. -/
def State.leaveHandler (s : State) (sid : Nat) : State :=
  let c := s.core (coreOf sid)
  (s.setCore (coreOf sid) { c with eie := true }).setStream sid
    ((s.stream sid).branchTo (bits c.epc.toNat 5 43 * 32) (Nat.max 1 (bits c.epc.toNat 0 3)))

/-- The record of a fault of a stream (Table 9.1). -/
def State.faultRec (s : State) (sid : Nat) (e : Engine) (line lane : Nat) (prog : Bool) (f : FaultInfo) : FaultRec :=
  { code := f.code, addr := f.addr, detail := f.detail, eng := e, lane := lane, line := line, retry := retryable f.code,
    prog := prog, wid := s.widOf sid, sid := sid, iter := (s.stream sid).ident.iter, ctxn := (s.stream sid).ident.ctxn,
    time := s.now, lcid := (s.stream sid).lcid }

/-- A stream takes a fault at a lane (R211, R213): it is suspended, FCODE, FADDR, FLINE and FENG take the record's values
(R217), and the record waits for the world's fault queue. A stream that is already suspended keeps its one fault (R214). On
a service core the handler is entered instead (R225). -/
def State.raise (s : State) (sid : Nat) (e : Engine) (line lane : Nat) (prog : Bool) (f : FaultInfo) : State :=
  if isService sid then s.enterHandler sid line lane f.code
  else if (s.stream sid).run = Run.suspended then s
  else
    let r := s.faultRec sid e line lane prog f
    let st := s.stream sid
    let s := s.setStream sid
      { st with
        run := .suspended, fault := some r, faultEng := some e, fcode := BitVec.ofNat 64 f.code
        faddr := f.addr, fline := BitVec.ofNat 64 line, feng := BitVec.ofNat 64 (e.code + 8 * lane) }
    let w := s.world r.wid
    s.setWorld r.wid { w with faults := w.faults ++ [r] }

/-- The token that the lane being issued has popped, and its value. -/
def State.popped (s : State) : Option (Engine × Bool) :=
  if s.myEng.twDone then (engineOf (bits s.cur.base 23 3)).map fun e => (e, s.myEng.twVal) else none

/-- A token that a lane of an engine has popped is at the head of its FIFO again (R211). -/
def Stream.giveBack (st : Stream) (e : Engine) (tw : Option (Engine × Bool)) : Stream :=
  match tw with
  | some (x, v) => st.unpop x e v
  | none => st

/-- A lane that issues again pops its token again (R222). -/
def Stream.popAgain (st : Stream) (e : Engine) (tw : Option (Engine × Bool)) : Option Stream :=
  match tw with
  | some (x, _) => (st.pop x e).map (·.2)
  | none => some st

/-- The TW token the lane popped goes back to the head of its FIFO (R211). -/
def State.returnToken (s : State) : State :=
  let es := s.myEng
  match es.twDone, engineOf (bits s.cur.base 23 3) with
  | true, some x => s.setMe ((s.me.unpop x s.cur.eng es.twVal).setEng s.cur.eng { es with twDone := false })
  | _, _ => s

/-- The instructions that run in steps and carry progress (R212). -/
def Instr.hasProgress : Instr → Bool
  | .ccopy _ => true
  | .cgath _ => true
  | .cbank _ _ _ => true
  | .ccopyf _ _ _ _ _ => true
  | .cscanu _ _ _ _ _ _ => true
  | .mgo => true
  | .awrite _ _ _ _ => true
  | .bar _ _ => true
  | _ => false

/-- PROG of a record at a lane with these words (R212). -/
def progressAt (e : Engine) (base x : Nat) : Bool :=
  match decodeLane e base (if wide64 e (opOf base) then some x else none) with
  | .ok ln => Instr.hasProgress ln.instr
  | .error _ => false

/-- The lane raises a fault (R211): it has no effect, its token goes back, and the stream stops. -/
def State.fault (s : State) (f : FaultInfo) : State :=
  (s.returnToken.raise s.cur.sid s.cur.eng s.cur.line s.cur.lane (progressAt s.cur.eng s.cur.base s.cur.x) f).finish .faulted

/-- ILLOP: DETAIL holds the lane's words (Table 9.2). -/
def State.illop (s : State) : State := s.fault { code := 0x02, detail := BitVec.ofNat 64 (s.cur.base + s.cur.x * 2 ^ 32) }

/-- PRIV: DETAIL holds the base lane (Table 9.2). -/
def State.priv (s : State) : State := s.fault { code := 0x03, detail := BitVec.ofNat 64 s.cur.base }

/-- A privileged operation: outside firmware it takes PRIV (R103, R107). -/
def State.privileged (s : State) (k : State → Result) : Result := if s.firmware s.cur.sid then k s else .next s.priv

/-! ### World queues: entries wait in the hub (R216, R278) -/

/-- An 8-byte word as bytes, and numbers read back (R4). -/
def word8 (v : Nat) : List Byte := leBytes 8 v

end Sys2Proof.Machine
end

