-- ==== Sys2Proof/Machine/Operands.lean ====
section
/-! DEFINITION. The operand forms: which fields of a body name registers (for REP's steps, 03 R70, R71), immediates, and
condition codes (04 R97 to R99). -/

namespace Sys2Proof.Machine

open Sys2Proof

/-- What a register field of the body holds: nothing REP may step, a register of five bits, or an e-register. -/
inductive FieldUse | no | reg | ereg
  deriving DecidableEq, Repr

/-- The uses of the fields A [16:12], B [11:7] and C [6:2] of an instruction's body (Tables 4.9 to 4.13). The row of MCLR and MCONV
is a number, no register field: those of M name e-registers (R105). -/
def fieldUses : Instr → FieldUse × FieldUse × FieldUse
  | .add .. | .sub .. | .mul .. | .mulh .. | .mulhn .. | .div .. | .divn .. | .rem .. | .remn .. | .and .. | .or .. | .xor ..
  | .shl .. | .shr .. | .sra .. | .min .. | .minn .. | .max .. | .maxn .. | .sel .. | .tset .. | .amo .. | .acas .. => (.reg, .reg, .reg)
  | .cmp .. | .rinit .. | .rclaim .. | .bar .. => (.no, .reg, .reg)
  | .clz .. | .ctz .. | .popc .. | .addi .. | .andi .. | .ori .. | .xori .. | .shli .. | .shri .. | .srai .. | .ext .. | .extS .. | .ins ..
  | .ld .. | .st .. | .ldacq .. | .strel .. | .tlook .. | .rnext .. | .launch .. | .trap .. | .tlbi .. | .agrant .. | .aattest .. | .astat ..
  | .smig .. => (.reg, .reg, .no)
  | .wfill .. | .wfree .. | .cmpi .. | .tinv .. | .rcommit .. | .rfree .. | .qpush .. | .gflip .. | .fmtq .. | .vpush .. => (.no, .reg, .no)
  | .csrr .. | .csrw .. | .limm .. | .lup .. | .spld .. | .spst .. | .sev .. | .arevoke .. | .aerase .. | .vpop .. => (.reg, .no, .no)
  | .vadd .. | .vsub .. | .vmul .. | .vfma .. | .vmin .. | .vmax .. | .vand .. | .vor .. | .vxor .. | .vshl .. | .vshr .. | .vshrl .. | .vsel ..
  | .vperm .. => (.reg, .reg, .reg)
  | .vcmp .. => (.no, .reg, .reg)
  | .vcvt _ _ _ _ _ _ _ scl => (.reg, .reg, if scl then .ereg else .no)
  | .vred .. => (.reg, .reg, .no)
  | .vbcast .. | .vld .. | .vst .. | .vqpop .. => (.reg, .ereg, .no)
  | .vext .. => (.ereg, .reg, .ereg)
  | .vins .. | .vrnd .. => (.reg, .ereg, .ereg)
  | .vgath .. | .vscat .. | .vdrop .. => (.reg, .reg, .ereg)
  | .mcfg .. => (.no, .no, .ereg)
  | .mpass .. | .clap .. => (.ereg, .ereg, .no)
  | .mlds .. | .ccopy .. | .cgath .. | .epop .. => (.ereg, .no, .no)
  | .mconv .. => (.no, .no, .ereg)
  | .awrite .. | .cscanu .. | .cbank .. | .ccopyf .. => (.ereg, .ereg, .ereg)
  | .cscanr _ _ _ _ _ vq => (.ereg, .ereg, if vq then .no else .ereg)
  | .fexp2 .. | .flog2 .. | .frcp .. | .frsq .. | .ftanh .. | .fsigm .. | .ferf .. => (.reg, .reg, .no)
  | _ => (.no, .no, .no)

/-- The word with the field at bit lo stepped: modulo 32, or modulo 8 for an e-register (R70). -/
def stepField (u : FieldUse) (lo : Nat) (by' : Int) (w : Nat) : Nat :=
  match u with
  | .no => w
  | .reg =>
    let f := bits w lo 5
    w - f * 2 ^ lo + ((f + by') % 32).toNat * 2 ^ lo
  | .ereg =>
    let f := bits w lo 3
    w - f * 2 ^ lo + ((f + by') % 8).toNat * 2 ^ lo

/-- The uses of the fields of a word, well formed or not, by the format its opcode and its low bits give it (R71): its own, else that of
the word with its other fields zero, or with S for the engine that TOKS and QPUSH name. Of the X lane the bit that tells whether C is a register stays:
SCL of VCVT, and where a CSCANR delivers. A SYS function that Table 4.11 does not list has the format of SYS: C is a part of FUNC. None where no
instruction has them. -/
def formatUses (e : Engine) (w x : Nat) : Option (FieldUse × FieldUse × FieldUse) :=
  let op := opOf w * 2 ^ 26
  let sel := if e == .v then bits x 19 1 * 2 ^ 19 else bits x 0 1
  if e == .s && opOf w == 0x3F then (match decodeBody e (op + bits w 0 7) 0 with | .ok i => some (fieldUses i) | .error _ => some (.reg, .reg, .no)) else
  [w, op + bits w 0 17, op + bits w 0 7, op + bits w 0 2, op, op + 2 ^ 14].findSome? fun v => [x, sel, 0].findSome? fun y => match decodeBody e v y with
    | .ok i => some (fieldUses i)
    | .error _ => none

/-- Repetition j of a base lane under REP (R70). -/
def stepWord (u : FieldUse × FieldUse × FieldUse) (r : RepState) (w : Nat) : Nat :=
  stepField u.1 12 (r.j * r.dA) (stepField u.2.1 7 (r.j * r.dB) (stepField u.2.2 2 (r.j * r.dC) w))

/-- REP gives a nonzero step for a field the target does not use as a register (R71). -/
def badStep (u : FieldUse × FieldUse × FieldUse) (dA dB dC : Int) : Bool :=
  (u.1 == .no && dA != 0) || (u.2.1 == .no && dB != 0) || (u.2.2 == .no && dC != 0)

/-- The instructions REP may not repeat and blocks end with (R59, R71). -/
def endsBlock : Instr → Bool
  | .br .. | .jmp .. | .call .. | .ret | .eret | .yield | .ovl .. | .wfill .. | .wfree .. | .wevt .. | .waitge .. | .bar .. => true
  | _ => false

def repTarget : Instr → Bool
  | .loop .. | .rep .. => false
  | i => !endsBlock i

/-- A signed immediate as a 64-bit word. -/
def sx {n : Nat} (i : BitVec n) : Word := i.signExtend 64

/-- Condition codes on 64-bit integers (Table 4.7): the signed order, and for the codes named N the unsigned one. -/
def holds (c : Cond) (a b : Word) : Bool :=
  match c with
  | .eq => a == b
  | .ne => a != b
  | .lt => a.slt b
  | .le => a.sle b
  | .gt => b.slt a
  | .ge => b.sle a
  | .ltn => a.ult b
  | .len => a.ule b

/-- Bytes of an S access. -/
def sizeBytes : MemSize → Nat
  | .b => 1 | .h => 2 | .w => 4 | .d => 8

end Sys2Proof.Machine
end

