-- ==== Sys2Proof/Machine/Flags.lean ====
section
/-! DEFINITION. Predicates, masks and the other one-bit results: CMP's modes, PLOG's tables, the event latch, and the
per-row overflow flags (05 R122; 13 R320; 15 R366, R376). S sets no other flag (R293). -/

namespace Sys2Proof.Machine

open Sys2Proof

/-- How a comparison enters its predicate (R320). -/
def cmpInto (v : CmpMode) (old r : Bool) : Bool :=
  match v with
  | .set => r
  | .and => old && r
  | .or => old || r

/-- PLOG: bit 2·P[a] + P[b] of the table (R366). -/
def plogBit (t : BitVec 4) (a b : Bool) : Bool := t.getLsbD (2 * a.toNat + b.toNat)

/-- SEV's mask of EVT bits: user bits 7 to 5 and bit 0 (R376). -/
def sevMask (user : BitVec 3) (ev : Bool) : BitVec 8 := BitVec.ofNat 8 (32 * user.toNat + ev.toNat)

/-- Sets EVT bits of a stream (R73). -/
def Stream.latch (st : Stream) (bits : BitVec 8) : Stream := { st with evt := st.evt ||| bits }

/-- A tile row's overflow flag is sticky: it is set, never cleared, by an accumulation that wraps (R122). -/
def Stream.stickOver (st : Stream) (row : Nat) (wrapped : Bool) : Stream :=
  if wrapped then st.setOver row true else st

end Sys2Proof.Machine
end

