-- ==== Sys2Proof/Machine/Float.lean ====
section
/-! DEFINITION. Numbers (05 R113 to R115, R119, R120, R129 to R134): exact values, rounding, conversions, residues, reduction
trees and KYMIX. Elements are bit patterns held as numbers. -/

namespace Sys2Proof.Machine

open Sys2Proof

/-! ### Types and rows (R113, R128) -/

def tyBits : Ty → Nat
  | .f32 => 32 | .bf16 => 16 | .f16 => 16 | .i32 => 32 | .i16 => 16 | .i8 => 8 | .n8 => 8 | .z8 => 8 | .z4 => 4 | .rns => 32

def tyBytes (t : Ty) : Nat := tyBits t / 8

def isFloat : Ty → Bool
  | .f32 => true | .bf16 => true | .f16 => true | _ => false

/-- lanes() of a type (Table 5.6). -/
def lanesOf (t : Ty) : Nat := 1024 / tyBytes t

/-- n elements of w bits from a number, lowest first. -/
def elems (w : Nat) : Nat → Nat → List Nat
  | 0, _ => []
  | n + 1, x => x % 2 ^ w :: elems w n (x / 2 ^ w)

/-- The number whose elements of w bits these are. -/
def packElems (w : Nat) : List Nat → Nat
  | [] => 0
  | e :: es => e % 2 ^ w + 2 ^ w * packElems w es

/-- The elements of a row at a width in bytes. -/
def rowElems (bytes : Nat) (r : Row) : List Nat := elems (8 * bytes) (1024 / bytes) r.toNat

def rowOf (bytes : Nat) (l : List Nat) : Row := BitVec.ofNat 8192 (packElems (8 * bytes) l)

def rowBytes (r : Row) : List Byte := (elems 8 1024 r.toNat).map fun n => BitVec.ofNat 8 n

/-- A row of bytes, lowest first, padded with zeros. -/
def bytesRow (bs : List Byte) : Row := BitVec.ofNat 8192 (packElems 8 (bs.map (·.toNat)))

/-! ### Exact values -/

/-- A floating-point operand or an exact result: (−1)^neg · mant · 2^exp. -/
inductive FVal
  | nan
  | inf (neg : Bool)
  | fin (neg : Bool) (mant : Nat) (exp : Int)
  deriving DecidableEq, Repr

def FVal.zero : FVal := .fin false 0 0

/-- Exponent bits, fraction bits and bias (Table 5.1). -/
def expBits : Ty → Nat
  | .f16 => 5 | _ => 8
def fracBits : Ty → Nat
  | .f32 => 23 | .bf16 => 7 | .f16 => 10 | _ => 23
def bias (t : Ty) : Nat := 2 ^ (expBits t - 1) - 1

/-- The canonical NaN of a type (R114). -/
def cnan (t : Ty) : Nat := (2 ^ expBits t - 1) * 2 ^ fracBits t + 2 ^ (fracBits t - 1)
def infBits (t : Ty) (neg : Bool) : Nat := neg.toNat * 2 ^ (expBits t + fracBits t) + (2 ^ expBits t - 1) * 2 ^ fracBits t
def largest (t : Ty) (neg : Bool) : Nat := infBits t neg - 1

/-- The value of a pattern of a float type. -/
def decodeFloat (t : Ty) (b : Nat) : FVal :=
  let fb := fracBits t
  let neg := b / 2 ^ (expBits t + fb) % 2 == 1
  let e := b / 2 ^ fb % 2 ^ expBits t
  let f := b % 2 ^ fb
  if e = 2 ^ expBits t - 1 then (if f = 0 then .inf neg else .nan)
  else if e = 0 then .fin neg f (1 - (bias t : Int) - fb)
  else .fin neg (f + 2 ^ fb) ((e : Int) - bias t - fb)

/-- The value of an integer pattern. -/
def intOf (t : Ty) (b : Nat) : Int := if t = .n8 then (b % 256 : Nat) else signed (tyBits t) b

def ofInt (x : Int) : FVal := .fin (decide (x < 0)) x.natAbs 0

/-- The value of an element of a type other than rns. -/
def valueOf (t : Ty) (b : Nat) : FVal := if isFloat t then decodeFloat t b else ofInt (intOf t b)

/-! ### Rounding (R131) -/

/-- m / 2^k rounded to an integer magnitude. -/
def roundShift (mode : Rnd) (neg : Bool) (m k : Nat) : Nat :=
  let q := m / 2 ^ k
  let r := m % 2 ^ k
  if r = 0 then q else
  match mode with
  | .rz => q
  | .rdn => if neg then q + 1 else q
  | .rup => if neg then q else q + 1
  | .rna => if 2 ^ k ≤ 2 * r then q + 1 else q
  | .rne => if 2 ^ k < 2 * r ∨ (2 * r = 2 ^ k ∧ q % 2 = 1) then q + 1 else q

/-- m · 2^e at unit 2^u. -/
def roundUnit (mode : Rnd) (neg : Bool) (m : Nat) (e u : Int) : Nat :=
  if u ≤ e then m * 2 ^ (e - u).toNat else roundShift mode neg m (u - e).toNat

/-- A rounded value beyond the largest finite (Table 5.7). -/
def overflowed (t : Ty) (mode : Rnd) (neg sat : Bool) : Nat :=
  if sat then largest t neg else
  match mode with
  | .rz => largest t neg
  | .rdn => if neg then infBits t true else largest t false
  | .rup => if neg then largest t true else infBits t false
  | _ => infBits t neg

/-- An exact value rounded to a float type (R114, R131). -/
def encodeFloat (t : Ty) (mode : Rnd) (sat : Bool) : FVal → Nat
  | .nan => cnan t
  | .inf neg => infBits t neg
  | .fin neg m e =>
    let fb := fracBits t
    let sign := neg.toNat * 2 ^ (expBits t + fb)
    if m = 0 then sign else
    let ex := max ((Nat.log2 m : Int) + e) (1 - (bias t : Int))
    let q := roundUnit mode neg m e (ex - fb)
    let code := (ex + bias t - 1).toNat * 2 ^ fb + q
    if (2 ^ expBits t - 1) * 2 ^ fb ≤ code then overflowed t mode neg sat else sign + code

/-- The least and the greatest value of an integer type. -/
def intMin (t : Ty) : Int := if t = .n8 then 0 else -(2 ^ (tyBits t - 1))
def intMax (t : Ty) : Int := if t = .n8 then 255 else 2 ^ (tyBits t - 1) - 1

def toPattern (t : Ty) (x : Int) : Nat := (x % 2 ^ tyBits t).toNat

/-- An exact value converted to an integer type (Table 5.7). -/
def encodeInt (t : Ty) (mode : Rnd) (sat : Bool) : FVal → Nat
  | .nan => 0
  | .inf neg => if sat then toPattern t (if neg then intMin t else intMax t) else 0
  | .fin neg m e =>
    let q : Int := roundUnit mode neg m e 0
    let x := if neg then -q else q
    toPattern t (if sat then max (intMin t) (min (intMax t) x) else x)

def encodeAs (t : Ty) (mode : Rnd) (sat : Bool) (v : FVal) : Nat :=
  if isFloat t then encodeFloat t mode sat v else encodeInt t mode sat v

/-! ### Arithmetic on exact values (R114, R123, R129) -/

def FVal.neg : FVal → FVal
  | .nan => .nan
  | .inf n => .inf (!n)
  | .fin n m e => .fin (!n) m e

/-- The signed mantissa at an exponent not above the value's. -/
def sAt (n : Bool) (m : Nat) (e u : Int) : Int := (if n then -1 else 1) * (m * 2 ^ (e - u).toNat : Nat)

def FVal.add : FVal → FVal → FVal
  | .nan, _ => .nan
  | _, .nan => .nan
  | .inf a, .inf b => if a = b then .inf a else .nan
  | .inf a, .fin _ _ _ => .inf a
  | .fin _ _ _, .inf b => .inf b
  | .fin na ma ea, .fin nb mb eb =>
    let u := min ea eb
    let x := sAt na ma ea u + sAt nb mb eb u
    if x = 0 then .fin (na && nb) 0 u else .fin (decide (x < 0)) x.natAbs u

def FVal.mul : FVal → FVal → FVal
  | .nan, _ => .nan
  | _, .nan => .nan
  | .inf a, .inf b => .inf (xor a b)
  | .inf a, .fin b m _ => if m = 0 then .nan else .inf (xor a b)
  | .fin a m _, .inf b => if m = 0 then .nan else .inf (xor a b)
  | .fin a m e, .fin b n f => .fin (xor a b) (m * n) (e + f)

/-- −1, 0 or 1 as the first value is below, equal to or above the second; −0 equals +0. Neither is NaN. -/
def FVal.order : FVal → FVal → Int
  | .inf a, .inf b => (if a then -1 else 1) - (if b then -1 else 1)
  | .inf a, _ => if a then -1 else 1
  | _, .inf b => if b then 1 else -1
  | .fin na ma ea, .fin nb mb eb =>
    let u := min ea eb
    (sAt na ma ea u - sAt nb mb eb u).sign
  | _, _ => 0

def FVal.isNeg : FVal → Bool
  | .nan => false | .inf n => n | .fin n _ _ => n
def FVal.isNan : FVal → Bool
  | .nan => true | _ => false

/-- VADD, VSUB, VMUL and VFMA at a type (R129). -/
def addAt (t : Ty) (a b : Nat) : Nat :=
  if isFloat t then encodeFloat t .rne false ((decodeFloat t a).add (decodeFloat t b)) else (a + b) % 2 ^ tyBits t
def subAt (t : Ty) (a b : Nat) : Nat :=
  if isFloat t then encodeFloat t .rne false ((decodeFloat t a).add (decodeFloat t b).neg) else toPattern t (intOf t a - intOf t b)
def mulAt (t : Ty) (a b : Nat) : Nat :=
  if isFloat t then encodeFloat t .rne false ((decodeFloat t a).mul (decodeFloat t b)) else (a * b) % 2 ^ tyBits t
def fmaAt (t : Ty) (a b c : Nat) : Nat :=
  if isFloat t then encodeFloat t .rne false (((decodeFloat t a).mul (decodeFloat t b)).add (decodeFloat t c)) else (a * b + c) % 2 ^ tyBits t

/-- VMIN and VMAX (R129): NaN when either is NaN, −0 below +0. -/
def minAt (t : Ty) (a b : Nat) : Nat :=
  if isFloat t then
    let x := decodeFloat t a
    let y := decodeFloat t b
    if x.isNan || y.isNan then cnan t
    else if x.order y = 0 then (if x.isNeg then a else b)
    else if x.order y < 0 then a else b
  else if intOf t a < intOf t b then a else b
def maxAt (t : Ty) (a b : Nat) : Nat :=
  if isFloat t then
    let x := decodeFloat t a
    let y := decodeFloat t b
    if x.isNan || y.isNan then cnan t
    else if x.order y = 0 then (if x.isNeg then b else a)
    else if x.order y < 0 then b else a
  else if intOf t a < intOf t b then b else a

/-- A condition code between elements (Table 4.7): the last two are UNORD and ORD. -/
def condAt (t : Ty) (c : Cond) (a b : Nat) : Bool :=
  let x := valueOf t a
  let y := valueOf t b
  let un := x.isNan || y.isNan
  match c with
  | .ltn => un
  | .len => !un
  | .ne => un || x.order y != 0
  | .eq => !un && x.order y == 0
  | .lt => !un && decide (x.order y < 0)
  | .le => !un && decide (x.order y ≤ 0)
  | .gt => !un && decide (0 < x.order y)
  | .ge => !un && decide (0 ≤ x.order y)

/-! ### Residues (R115, R119, R120) -/

/-- The three residues of an rns word, read by R115. -/
def rnsParts (w : Nat) : Nat × Nat × Nat := (w % 256 % 255, w / 256 % 256, w / 65536 % 512 % 257)

def rnsWord (p : Nat × Nat × Nat) : Nat := p.1 + p.2.1 * 256 + p.2.2 * 65536

/-- The residues of an integer, as a canonical word. -/
def rnsOf (x : Int) : Nat := rnsWord ((x % 255).toNat, (x % 256).toNat, (x % 257).toNat)

/-- R120. -/
def crt (p : Nat × Nat × Nat) : Int :=
  let x := (p.1 * 128 % 255 * 65792 + p.2.1 * 255 % 256 * 65535 + p.2.2 * 129 % 257 * 65280) % 16776960
  if 8388479 < x then (x : Int) - 16776960 else x

/-- Channel by channel addition (Table 5.3). -/
def rnsAdd (a b : Nat) : Nat :=
  let p := rnsParts a
  let q := rnsParts b
  rnsWord ((p.1 + q.1) % 255, (p.2.1 + q.2.1) % 256, (p.2.2 + q.2.2) % 257)

/-! ### Conversions (R132, Table 5.7) -/

/-- One element of VCVT; `scale` is the f32 of SCL. The scaled product follows the sign rule of multiplication, so an integer 0 times a
negative scale is −0 (assumption 66). -/
def convertAt (src dst : Ty) (mode : Rnd) (sat : Bool) (scale : Option Nat) (b : Nat) : Nat :=
  if src = .rns then encodeAs dst mode sat (ofInt (crt (rnsParts b)))
  else if dst = .rns then
    let x := intOf src b
    rnsOf (if sat then max (-8388480) (min 8388479 x) else x)
  else
    let v := valueOf src b
    encodeAs dst mode sat (match scale with | some k => v.mul (decodeFloat .f32 k) | none => v)

/-! ### Trees (R123, R130) -/

/-- One level of a balanced tree: neighbours are combined. -/
def treeLevel (f : Nat → Nat → Nat) : List Nat → List Nat
  | a :: b :: t => f a b :: treeLevel f t
  | l => l

/-- The balanced tree in order, n levels. -/
def tree (f : Nat → Nat → Nat) : Nat → List Nat → List Nat
  | 0, l => l
  | n + 1, l => tree f n (treeLevel f l)

def treeTop (f : Nat → Nat → Nat) (n : Nat) (l : List Nat) : Nat := (tree f n l).headD 0

/-- The exact sums of R123's first level, then f32 nodes: the leaves are exact products. -/
def planeLevel : List FVal → List Nat
  | a :: b :: t => encodeFloat .f32 .rne false (a.add b) :: planeLevel t
  | _ => []

/-- R123: 128 leaves. -/
def planeSum (leaves : List FVal) : Nat :=
  treeTop (addAt .f32) 6 (planeLevel (leaves.take 128 ++ List.replicate (128 - leaves.length) .zero))

/-! ### Operands of V that some types or rows do not have (R402, R411) -/

def bitwiseRed : RedOp → Bool
  | .and => true | .or => true | .xor => true | _ => false

/-- Elements a VCVT converts. -/
def cvtCount (f t : Ty) : Nat := 1024 / Nat.min (tyBytes f) (tyBytes t)

/-! ### KYMIX (R134) -/

def rotl32 (x : BitVec 32) (n : Nat) : BitVec 32 := x.rotateLeft n

def kymixRounds : Nat → Nat → BitVec 32 × BitVec 32 → BitVec 32 × BitVec 32
  | 0, _, p => p
  | n + 1, k, (a, b) =>
    let a := a + rotl32 b 5 + BitVec.ofNat 32 (k * 0x7F4A7C15)
    let b := rotl32 (b ^^^ (a * 0x2545F491)) 11
    kymixRounds n (k + 1) (a, b)

/-- The KYMIX value of an index under a seed. -/
def kymix (seed index : Word) : BitVec 32 :=
  let p := kymixRounds 6 1 (index.truncate 32 ^^^ seed.truncate 32, (index >>> 32).truncate 32 ^^^ (seed >>> 32).truncate 32)
  p.1 ^^^ p.2

end Sys2Proof.Machine
end

