-- ==== Sys2Proof/Machine/Mem.lean ====
section
/-! DEFINITION. Translation and the checks of an access (06 R136, R141, R152), the points a store passes on its way outward
(01 R17, 06 R147, 08 R192, R193), and reads and writes of bytes with poison (06 R155, R156). -/

namespace Sys2Proof.Machine

open Sys2Proof

/-! ### Pages -/

/-- Bytes of a page by its SIZE code (Table 6.9). -/
def pageBytes : Nat → Nat
  | 0 => 4096 | 1 => 65536 | 2 => 2097152 | _ => 1073741824

def Page.covers (p : Page) (wid dva : Nat) : Bool :=
  p.wid == wid && decide (p.dva ≤ dva) && decide (dva < p.dva + pageBytes p.size)

/-- The mapping of a DVA of a world (R150). -/
def State.page (s : State) (wid dva : Nat) : Option Page := s.pages.find? fun p => p.covers wid dva

def Page.dpaOf (p : Page) (dva : Nat) : Nat := p.dpa + (dva - p.dva)

/-- The device-physical address of a mapped DVA. -/
def State.dpa (s : State) (wid dva : Nat) : Option Nat := (s.page wid dva).map fun p => p.dpaOf dva

/-- The streams that hold an iteration, saved ones included, with their worlds (R90). -/
def State.allStreams (s : State) : List Stream :=
  ((s.streams.filter fun p => !isService p.1).map fun p => p.2) ++ s.images.map (fun p => p.2.stream) ++
    (s.shadow.map fun p => p.2.images.map fun i => i.2.2.stream).flatten

/-- The lines a stream runs text at: its engines' PCs and its fetch buffer (R90). -/
def Stream.textLines (st : Stream) : List Nat :=
  if st.run = Run.free then [] else engines.map (fun e => (st.eng' e).line) ++ st.fetch.map fun p => p.1

/-- Some stream runs text from the page that holds a device-physical address (R90). -/
def State.runsText (s : State) (dpa : Nat) : Bool :=
  s.allStreams.any fun st => st.textLines.any fun l =>
    match s.page st.ident.wid l with
    | some p => decide (p.dpa ≤ dpa) && decide (dpa < p.dpa + pageBytes p.size)
    | none => false

/-! ### Gates (11 R266, R267) -/

def Gate.covers (g : Gate) (wid dva : Nat) : Bool :=
  g.wid == wid && decide (g.base ≤ dva) && decide (dva < g.base + g.npg * 65536)

def State.gateOver (s : State) (wid dva : Nat) : Option Gate := s.gates.find? fun g => g.covers wid dva

/-- The bound gate of a world whose word stands at a DVA; another DVA of the same place is none of it (assumption 139). -/
def State.gateAt (s : State) (wid dva : Nat) : Option Gate := s.gates.find? fun g => g.wid == wid && g.dva == dva

/-- The bound gate whose word holds one of n bytes at a device-physical address. -/
def State.gateWord (s : State) (dpa : Nat) (n : Nat := 1) : Option Gate := s.gates.find? fun g => decide (g.dpa < dpa + n) && decide (dpa < g.dpa + 8)

/-- The owner set that holds a die's streams may write. -/
def Gate.permits (g : Gate) (die : Nat) : Bool := if g.owner then g.set1.getLsbD die else g.set0.getLsbD die

/-- The gate whose range holds the first or the last byte of a write and whose owner set leaves a die out (R267). -/
def State.gateStops (s : State) (wid die first last : Nat) : Option Gate :=
  [first, last].findSome? fun x => (s.gateOver wid x).filter fun g => !(g.permits die)

/-! ### The checks of an access -/

inductive Kind | read | write | fetch | atomic
  deriving DecidableEq, Repr

def Kind.code : Kind → Nat
  | .read => 0 | .write => 1 | .fetch => 2 | .atomic => 3

/-- The size field of a DETAIL: log₂ of the bytes, at most 7 (assumption 13). -/
def log2 (n : Nat) : Nat := Nat.min 7 (Nat.log2 n)

/-- DETAIL of XLATE, ALIGN and POISON (Table 9.2). -/
def accessDetail (k : Kind) (size : Nat) : Word := BitVec.ofNat 64 (k.code + 4 * log2 size)

def xlate (dva : Nat) (k : Kind) (size : Nat) : FaultInfo := { code := 0x04, addr := BitVec.ofNat 64 dva, detail := accessDetail k size }
def align (dva : Nat) (k : Kind) (size : Nat) : FaultInfo := { code := 0x06, addr := BitVec.ofNat 64 dva, detail := accessDetail k size }
def perm (dva : Nat) (k : Kind) (size : Nat) (r w x : Bool) : FaultInfo :=
  { code := 0x05, addr := BitVec.ofNat 64 dva, detail := accessDetail k size ||| BitVec.ofNat 64 (32 * r.toNat + 64 * w.toNat + 128 * x.toNat) }
def poisonAt (addr : Nat) (k : Kind) (size : Nat) : FaultInfo :=
  { code := 0x0B, addr := BitVec.ofNat 64 (addr / 64 * 64), detail := accessDetail k size }
def gateFault (dva gate : Nat) : FaultInfo := { code := 0x0D, addr := BitVec.ofNat 64 dva, detail := BitVec.ofNat 64 gate }
def classFault (dva region : Nat) : FaultInfo := { code := 0x0E, addr := BitVec.ofNat 64 dva, detail := BitVec.ofNat 64 region }

def Region.bytes (r : Region) : Nat := 2 ^ r.log2s * r.nrow * 1024

/-- The number of the region of a world that holds a DVA, its last page included (R160). -/
def State.regionAt (s : State) (wid dva : Nat) : Option Nat :=
  (s.regions.find? fun p => p.2.wid == wid && decide (p.2.base ≤ dva) && decide (dva < p.2.base + (p.2.bytes + 65535) / 65536 * 65536)).map (·.1)

/-- The compute die whose controllers reach a memory stack (Table 1.1). -/
def stackDie : Nat → Nat
  | 0 => 0 | 1 => 1 | 2 => 2 | 3 => 2 | 4 => 2 | _ => 3

def State.joined (s : State) (die : Nat) : Bool := s.boot.joined.contains die

/-- The die of a device-physical address's home (R15, R149). -/
def homeDie (dpa : Nat) : Nat := stackDie (Config.stackOf (dpa / 64))

/-- The stack of a device-physical address can be reached: the die it is attached to has joined (R15, R27). Slices of scanned
regions are chosen among those. -/
def State.reachable (s : State) (dpa : Nat) : Bool := [0, 1, 2, 3].all s.joined || decide (Config.dramBytes ≤ dpa) || s.joined (homeDie dpa)

/-- R152: the page checks of an access to device memory by a stream on a core, in their order. `flip` lets a write reach a
bound gate word (R266); `scan` is an access by CSCANR or CSCANU; the address is a multiple of `al`. The gate word is tested after
R152's own steps (R299, R385). A write that is to be held is judged by its owner set when it leaves the hold, `held` (R268). An access of two
pages names the first one's attributes (assumption 134). -/
def State.pageCheck (s : State) (wid sid dva size : Nat) (k : Kind) (scan flip : Bool := false) (al : Nat := size) (held : Bool := false) : Except FaultInfo (Nat × Page) :=
  let last := dva + size - 1
  match s.page wid dva, s.page wid last with
  | some p, some q =>
    let a := p.dpaOf dva
    let reads := k == .read || k == .atomic
    let writes := k == .write || k == .atomic
    let any (f : Page → Bool) : Bool := f p || f q
    if !(s.reachable a && s.reachable (q.dpaOf last)) then .error (xlate dva k size)
    else if !scan && any (fun g => g.cls == 1) then .error (classFault dva ((s.regionAt wid (if p.cls = 1 then dva else last)).getD 15))
    else if scan && any (fun g => g.cls != 1) then .error (classFault dva 15)
    else if (reads && any fun g => !g.r) || (writes && any fun g => !g.w) || (k == .fetch && any fun g => !g.x) || (writes && (s.runsText a || s.runsText (q.dpaOf last))) then
      .error (perm dva k size p.r p.w p.x)
    else
      match (if writes && !held && any (fun g => g.cls == 2) && !(isService sid || wid == 0) then s.gateStops wid (dieOf (coreOf sid)) dva last else none) with
      | some g => .error (gateFault dva g.dva)
      | none =>
        if dva % al ≠ 0 then .error (align dva k size)
        else
          match (if writes && !flip then s.gateWord a size else none) with
          | some g => .error (gateFault g.dva g.dva)
          | none => .ok (a, p)
  | _, _ => .error (xlate dva k size)

/-- Scratchpad bytes of a stream: its half, or all of it in wide mode (R140). -/
def Stream.spSize (st : Stream) : Nat := if st.wide then Config.spBytes else Config.halfBytes
/-- Where a stream's scratchpad window starts in its core's scratchpad. -/
def spBase (st : Stream) (sid : Nat) : Nat := if st.wide then 0 else sid % 2 * Config.halfBytes

def spDva : Nat := 0xFF0000000000

/-- What a data address names. -/
inductive Target
  | dram (dpa : Nat) (page : Page)
  | sp (core off : Nat)
  | ring (core ring word sub : Nat)
  | peer (p off : Nat)
  deriving DecidableEq, Repr

/-- An iteration by its world and context number (R218). -/
def Identity.key (i : Identity) : Nat := i.wid * 65536 + i.ctxn

/-- The slot an access to a core window's stream half follows to (R141, R238). -/
def State.follow (s : State) (sid : Nat) : Nat :=
  match (s.stream sid).fwd with
  | none => sid
  | some k => ((s.streams.find? fun p => p.2.run != Run.free && p.2.ident.key == k).map (·.1)).getD sid

/-- A core-window access (R141, R144): the half or the ring must belong to a stream of the accessing world. A write of a size
or position that R144 does not allow takes ALIGN, also at a read-only ring word: R385 says so of ST, and the model takes it for the other
writes (assumption 110). A PERM there names no attributes (assumption 134). -/
def State.windowTarget (s : State) (wid dva size : Nat) (k : Kind) : Except FaultInfo Target :=
  let c := (dva - 0xFF8000000000) / 0x200000
  let off := (dva - 0xFF8000000000) % 0x200000
  let owner (idx : Nat) : Nat := if (s.stream (2 * c)).wide then s.follow (2 * c) else s.follow (2 * c + idx)
  let ok (o : Nat) : Bool := (s.stream o).run != Run.free && s.widOf o == wid
  if off < 0x100000 then
    let o := owner (off / Config.halfBytes)
    if !ok o then .error (perm dva k size false false false)
    else if dva % size ≠ 0 then .error (align dva k size)
    else .ok (.sp (coreOf o) off)
  else if off < 0x100200 then
    let r := (off - 0x100000) / 32
    let o := owner (r / 8)
    let word := (off - 0x100000) % 32 / 8
    let writes := k == .write || k == .atomic
    if !ok o then .error (perm dva k size false false false)
    else if !(size == 4 || size == 8) || dva % size ≠ 0 || (writes && off % 8 ≠ 0) then .error (align dva k size)
    else if writes && word != 2 then .error (perm dva k size false false false)
    else .ok (.ring (coreOf o) r word (off % 8))
  else .error (xlate dva k size)

/-- A peer access cannot go out at a port: its link is down (R286), or the security core has taken port 1 (R290; assumption 88). -/
def State.portClosed (s : State) (port : Nat) : Bool := (s.link port).down || (port == 1 && s.sec.port1)

/-- What an S or C data access reaches, or the fault it takes (R136, R141, R152); `held` as in `pageCheck`. -/
def State.target (s : State) (sid dva size : Nat) (k : Kind) (held : Bool := false) : Except FaultInfo Target :=
  let wid := s.widOf sid
  if dva < 0x800000000000 then (s.pageCheck wid sid dva size k false false size held).map fun p => .dram p.1 p.2
  else if 0xC00000000000 ≤ dva ∧ dva < 0xD00000000000 then
    let p := (dva - 0xC00000000000) / 0x4000000000
    match Tab.find s.peers p with
    | none => .error (xlate dva k size)
    | some (_, port) =>
      if s.portClosed port then .error { code := 0x1F, detail := BitVec.ofNat 64 port }
      else if dva % size ≠ 0 then .error (align dva k size)
      else .ok (.peer p ((dva - 0xC00000000000) % 0x4000000000))
  else if spDva ≤ dva ∧ dva < spDva + 0x100000 then
    let st := s.stream sid
    if dva - spDva + size ≤ st.spSize then
      (if dva % size = 0 then .ok (.sp (coreOf sid) (spBase st sid + (dva - spDva))) else .error (align dva k size))
    else .error (xlate dva k size)
  else if 0xFF8000000000 ≤ dva ∧ dva < 0xFF8020000000 then s.windowTarget wid dva size k
  else .error (xlate dva k size)

/-- An address outside device memory that Table 6.1 gives and that exists for a stream: its scratchpad window, a core window's
halves and ring words, a bound peer's window (R136). -/
def State.named (s : State) (sid dva : Nat) : Bool :=
  (decide (spDva ≤ dva) && decide (dva < spDva + (s.stream sid).spSize)) ||
    (decide (0xFF8000000000 ≤ dva) && decide (dva < 0xFF8020000000) && decide ((dva - 0xFF8000000000) % 0x200000 < 0x100200)) ||
    (decide (0xC00000000000 ≤ dva) && decide (dva < 0xD00000000000) && (Tab.find s.peers ((dva - 0xC00000000000) / 0x4000000000)).isSome)

/-- An address is that of a ring's COMMIT word in a core window (Table 6.5). -/
def isCommit (dva : Nat) : Bool :=
  let off := (dva - 0xFF8000000000) % 0x200000
  decide (0xFF8000000000 ≤ dva) && decide (dva < 0xFF8020000000) && decide (0x100000 ≤ off) && decide (off < 0x100200) && (off - 0x100000) % 32 / 8 == 2

/-- The checks of an atomic on device memory: R152 as a read and write; elsewhere CLASS (R295, R299, R300, R306); `held` as in `pageCheck`. -/
def State.atomicTarget (s : State) (sid dva n : Nat) (k : Kind := .atomic) (held : Bool := false) : Except FaultInfo (Nat × Page) :=
  if dva < 0x800000000000 then s.pageCheck (s.widOf sid) sid dva n k false false n held
  else if !(s.named sid dva) then .error (xlate dva k n)
  else if dva % n ≠ 0 then .error (align dva k n)
  else .error (classFault dva 15)

/-! ### Die links (R16) -/

/-- The die link two dies share: 0–1, 2–3, 0–2 and 1–3 are links 4 to 7. -/
def sharedLink (a b : Nat) : Option Nat :=
  match Nat.min a b, Nat.max a b with
  | 0, 1 => some 4 | 2, 3 => some 5 | 0, 2 => some 6 | 1, 3 => some 7 | _, _ => none

/-- The links a transfer between two dies crosses: the shared one, else 0 and 3 by way of 2, and 1 and 2 by way of 3. -/
def dieRoute (a b : Nat) : List Nat :=
  if a = b then [] else
  match sharedLink a b with
  | some l => [l]
  | none => if Nat.min a b = 0 then [6, 5] else [7, 5]

/-- The hub link of a compute die. -/
def hubLink (die : Nat) : Nat := 8 + die

/-- No frame of a link waits to be retransmitted. -/
def State.linkClear (s : State) (l : Nat) : Bool := (s.link l).fails == 0

/-- The links between two cores' dies; the service cores stand on the hub. -/
def coreRoute (a b : Nat) : List Nat :=
  if 256 ≤ a then (if 256 ≤ b then [] else [hubLink (dieOf b)])
  else if 256 ≤ b then [hubLink (dieOf a)] else dieRoute (dieOf a) (dieOf b)

/-- The links a transfer of a core crosses to a place: fixed by its source and its destination (R16). A peer's port stands on the
hub. -/
def State.route (s : State) (core : Nat) (l : Loc) : List Nat :=
  match l with
  | .dram a => if 256 ≤ core then [hubLink (homeDie a)] else dieRoute (dieOf core) (homeDie a)
  | .sp c _ => coreRoute core c
  | .commit c _ => coreRoute core c
  | .peer p _ => (if 256 ≤ core then [] else [hubLink (dieOf core)]) ++ ((Tab.find s.peers p).map fun q => q.2).toList

/-- Every link between a core and a place is clear: a transfer crosses them. -/
def State.clearTo (s : State) (core : Nat) (l : Loc) : Bool := s.links.isEmpty || (s.route core l).all s.linkClear

/-- A link between a core and a place has passed the reset marker of a world: the world's transfers are discarded there (R289). -/
def State.cutOff (s : State) (wid core : Nat) (l : Loc) : Bool := !s.links.isEmpty && (s.route core l).any fun k => (s.link k).flush.contains wid

/-- A read by a core, or what an atomic answers it, crosses the links to a place: each is clear, and none has passed the reset marker of the
reader's world, which keeps what follows it from the reader (R16, R289). -/
def State.readClear (s : State) (wid core : Nat) (l : Loc) : Bool := s.clearTo core l && !(s.cutOff wid core l)

/-- The hub as the source of a transfer: it stands on no die. -/
def noCore : Nat := 1023

/-- The hub link of the die of an entry's party is clear: an entry waits where it arose until it can cross to the hub (R16). Parties from 512
on stand on the hub. -/
def State.entryClear (s : State) (party : Nat) : Bool := decide (512 ≤ party) || s.linkClear (hubLink (dieOf (coreOf party)))

/-! ### The error log (12 R278, R422) -/

/-- Bytes of an image: 640 KiB, or 1,152 KiB for a wide stream (R227). -/
def imageBytes (wide : Bool) : Nat := if wide then 1179648 else 655360

/-- Some of n bytes from a place lie in the image at another (R227). -/
def imageMeets (p : Nat × Image) (a n : Nat) : Bool := decide (p.1 < a + n) && decide (a < p.1 + imageBytes p.2.stream.wide)

/-- Something is written over n bytes of device memory: an image there is not as its save wrote it any more (R227). -/
def State.tear (s : State) (a n : Nat) : State :=
  if s.images.isEmpty && s.spent.isEmpty then s
  else
    let f (t : Tab Image) : Tab Image := t.map fun p => if imageMeets p a n then (p.1, { p.2 with torn := true }) else p
    { s with images := f s.images, spent := f s.spent }

/-! ### Poison (06 R155) -/

/-- The granule fails its tag (R155): it was left by a torn-down world, or is sealed in an image (R227), and has not been written whole
since. -/
def State.staleGranule (s : State) (g : Nat) : Bool :=
  (s.stale.any (fun r => decide (r.1 ≤ g * 64) && decide (g * 64 < r.1 + r.2)) || (s.images ++ s.spent).any fun p => imageMeets p (g * 64) 64) &&
    !Tab.get false s.fresh g

/-- A read of a granule of device memory, without its log entry: retried once, and a lasting error poisons it. Answers whether the
consumer meets a poisoned granule, and the kind of the error found now, 1 transient or 2 lasting, else 0. -/
def State.tryGranule (s : State) (dpa : Nat) : State × Bool × Nat :=
  let g := dpa / 64
  if Tab.get false s.memBad g then (s, true, 0)
  else if Tab.get 0 s.memErr g = 2 ∨ s.staleGranule g then ({ s with memBad := Tab.put false s.memBad g true, memErr := Tab.put 0 s.memErr g 0 }, true, 2)
  else if Tab.get 0 s.memErr g = 1 then ({ s with memErr := Tab.put 0 s.memErr g 0 }, false, 1)
  else (s, false, 0)

/-! ### World queues -/

/-- The device-physical address of a word of a world's entry in the world table (R277). -/
def State.wtAddr (s : State) (wid off : Nat) : Nat := s.wtbase.toNat + 128 * wid + off

/-- The world table entry's 8-byte word at an offset (R277); an entry on a stack that cannot be reached names no world (R27). -/
def State.wtWord (s : State) (wid off : Nat) : Nat := if s.reachable (s.wtAddr wid off) then leNat (Memory.readList s.mem (s.wtAddr wid off) 8) else 0

/-- Firmware writes a word of an entry, if its stack can be reached (R27, R277). -/
def State.setWtWord (s : State) (wid off v : Nat) : State :=
  if s.reachable (s.wtAddr wid off) then { s with mem := Memory.writeList s.mem (s.wtAddr wid off) (word8 v) } else s

/-- The pieces of a span that lie each in one granule: address and length. -/
def granulesOf (dva n : Nat) : List (Nat × Nat) :=
  (List.range ((dva + n + 63) / 64 - dva / 64)).map fun i =>
    let a := Nat.max dva ((dva / 64 + i) * 64)
    (a, Nat.min (dva + n) ((dva / 64 + i + 1) * 64) - a)

/-- Bytes at a DVA of a world, read and written by the KY-4 itself: the header of a world queue as its bytes stand, poisoned or not (assumption 117). -/
def State.peek (s : State) (wid dva n : Nat) : List Byte :=
  (List.range n).map fun i => match s.dpa wid (dva + i) with | some a => Memory.read s.mem a | none => 0

def State.poke (s : State) (wid dva : Nat) : List Byte → State
  | [] => s
  | b :: bs => State.poke (match s.dpa wid dva with | some a => State.tear { s with mem := Memory.write s.mem a b } a 1 | none => s) wid (dva + 1) bs

/-- A world queue: its base and log₂ of its size, by the offset of its base word in the world table (Table 12.1). -/
def State.queueBase (s : State) (wid off : Nat) : Nat := s.wtWord wid off
def State.queueSize (s : State) (wid off : Nat) : Nat := 2 ^ (s.wtWord wid (off + 8) % 32)
def State.queueTail (s : State) (wid off : Nat) : Nat := leNat (s.peek wid (s.queueBase wid off) 8)
def State.queueHead (s : State) (wid off : Nat) : Nat := leNat (s.peek wid (s.queueBase wid off + 8) 8)
/-- Entries a world queue has room for. -/
def State.queueRoom (s : State) (wid off : Nat) : Nat := s.queueSize wid off - (s.queueTail wid off + 2 ^ 64 - s.queueHead wid off) % 2 ^ 64
def State.queueFull (s : State) (wid off : Nat) : Bool := s.queueRoom wid off == 0

/-- Where the entry of n bytes at a queue's tail stands. -/
def State.queueSlot (s : State) (wid off n : Nat) : Nat := s.queueBase wid off + 64 + n * (s.queueTail wid off % s.queueSize wid off)

/-- Entries of a world in the hub's buffer: the ones whose queue has no room left behind the entries before them (R278). -/
def State.buffered (s : State) (wid : Nat) : Nat :=
  ((s.world wid).notes.length - s.queueRoom wid 0x20) + ((s.world wid).errs.length - s.queueRoom wid 0x30)

/-- An entry finds its queue full behind the n entries before it, and the hub's buffer of 64 full too. -/
def State.bufferFull (s : State) (wid off n : Nat) : Bool := decide (s.queueRoom wid off ≤ n) && decide (64 ≤ s.buffered wid)

/-- A notification or error-log entry found its queue and the buffer full: it is dropped and the overflow count rises (R278). -/
def State.queueOverflow (s : State) (wid off : Nat) : State :=
  let b := s.queueBase wid off
  s.poke wid (b + 16) (word8 (leNat (s.peek wid (b + 16) 8) + 1))

/-- The KY-4 reads the header of a world queue, without the log entry: the kind of the error found now, else 0 (R155). The words are used as
their bytes stand (assumption 117). -/
def State.tryHeader (s : State) (wid off : Nat) : State × Nat :=
  match s.dpa wid (s.queueBase wid off) with
  | none => (s, 0)
  | some a => let r := s.tryGranule a; (r.1, r.2.2)

/-- The party of a stream's access in the error log: its SID; firmware, on a service core, is 1023 (R422). -/
def partyOf (sid : Nat) : Nat := if isService sid then 1023 else sid

/-- An error-log entry (Table 12.2). -/
def errEntry (kind sid lap dva now extra : Nat) : List Byte := leBytes 2 kind ++ leBytes 2 sid ++ leBytes 4 lap ++ word8 dva ++ word8 now ++ word8 extra

/-- The hub can count a drop of an entry in a queue's header: the links on the entry's way there are clear (R16). -/
def State.dropClear (s : State) (wid off party : Nat) : Bool :=
  s.entryClear party && (match s.dpa wid (s.queueBase wid off) with | some a => s.clearTo noCore (.dram a) | none => true)

/-- A link on the way of an entry, or of the count of its drop, has passed the world's reset marker: nothing of it comes to the header any more
(R289). -/
def State.dropCut (s : State) (wid off party : Nat) : Bool :=
  (decide (party < 512) && (s.link (hubLink (dieOf (coreOf party)))).flush.contains wid) ||
    (match s.dpa wid (s.queueBase wid off) with | some a => s.cutOff wid noCore (.dram a) | none => false)

/-- A drop that the hub counts in a queue's header. -/
def State.countDrop (s : State) (wid off party : Nat) : State := if s.dropCut wid off party then s else s.queueOverflow wid off

/-- An entry for the error log joins the ones that wait, or is dropped (R278). -/
def State.addErr (s : State) (wid party : Nat) (entry : List Byte) : State :=
  let w := s.world wid
  if s.bufferFull wid 0x30 w.errs.length && s.dropClear wid 0x30 party then s.countDrop wid 0x30 party
  else s.setWorld wid { w with errs := w.errs ++ [entry] }

/-- An error-log entry for a world (Table 12.2). Where it is dropped, the header whose count rises is read, and an error there has an entry of
its own (R155). -/
def State.logError (s : State) (wid kind sid lap dva extra : Nat) : State :=
  let h := if s.bufferFull wid 0x30 (s.world wid).errs.length && !(s.dropCut wid 0x30 sid) then s.tryHeader wid 0x30 else (s, 0)
  let t := if h.2 = 0 then h.1 else h.1.addErr wid noCore (errEntry h.2 1023 0 (s.queueBase wid 0x30) s.now 0)
  t.addErr wid sid (errEntry kind sid lap dva s.now extra)

/-- The KY-4 reads the header of a world queue: an error it meets is retried, and logged for its party (R155, R422). -/
def State.readHeader (s : State) (wid off : Nat) (party : Nat := 1023) : State :=
  let h := s.tryHeader wid off
  if h.2 = 0 then h.1 else h.1.logError wid h.2 party 0 (s.queueBase wid off) 0

/-- A notification for a world (R78): SID, engine code, tag, iteration number. -/
def State.notifyWorld (s : State) (wid sid eng tag iter : Nat) : State :=
  let entry := leBytes 2 sid ++ leBytes 1 eng ++ leBytes 1 0 ++ leBytes 4 tag ++ word8 iter
  if s.bufferFull wid 0x20 (s.world wid).notes.length && s.dropClear wid 0x20 sid then
    if s.dropCut wid 0x20 sid then s else (s.readHeader wid 0x20).queueOverflow wid 0x20
  else s.setWorld wid { s.world wid with notes := (s.world wid).notes ++ [entry] }

/-! ### Reads of granules and their log entries (06 R155) -/

/-- A read of a granule of device memory: retried once; a lasting error poisons it and is logged. Answers whether the
consumer meets a poisoned granule. A granule poisoned before is logged again only where a page with ZFILL gives zeros for it, whose
entry records the zero-fill (Table 6.10; assumption 63). -/
def State.readGranule (s : State) (wid sid dva dpa : Nat) (zfill : Bool) (lap : Nat := 0) : State × Bool :=
  let r := s.tryGranule dpa
  let kind := if r.2.1 && zfill then 3 else r.2.2
  (if kind = 0 then r.1 else r.1.logError wid kind sid lap dva 0, r.2.1)

/-- A granule of device memory takes whole new contents: its poison and its errors are gone (R156). -/
def State.cleanGranule (s : State) (g : Nat) : State :=
  { s with memBad := Tab.put false s.memBad g false, memErr := Tab.put 0 s.memErr g 0, fresh := if s.stale.isEmpty && s.images.isEmpty && s.spent.isEmpty then s.fresh else Tab.put false s.fresh g true }

/-! ### Keys of the sync engines and the slices (01 R20) -/

/-- A table of key slots takes a world's key: a full one gives up a slot whose world may go, the oldest first. -/
def takeKey (keys : List Nat) (slots wid : Nat) (idle : Nat → Bool) : List Nat :=
  if keys.contains wid then keys
  else if keys.length < slots then keys ++ [wid]
  else (match keys.find? idle with | some w => keys.erase w | none => keys.tail) ++ [wid]

/-- Words an engine's SRAM holds (Table 1.1). -/
def syncDepth : Nat := 1048576

/-- The words that the sync engine of a die holds in its own SRAM, oldest first (R14, R20). -/
def State.syncOf (s : State) (die : Nat) : List (Nat × Nat) := s.syncWords.filter fun w => homeDie (8 * w.2) == die

/-- The oldest word of a die's sync engine leaves its SRAM for memory (R20). -/
def State.syncEvict (s : State) (die : Nat) : State := { s with syncWords := s.syncWords.eraseP fun w => homeDie (8 * w.2) == die }

/-- The sync engine of a word's home operates on it: its die's engine holds the world's key, and its SRAM the word. The oldest word of that
engine leaves a full SRAM for memory. -/
def State.atSync (s : State) (wid dpa : Nat) : State :=
  let die := homeDie dpa
  let s := { s with
    syncKeys := Tab.set s.syncKeys die (takeKey (Tab.get [] s.syncKeys die) 256 wid fun w => !((s.syncOf die).any fun x => x.1 == w))
    syncWords := s.syncWords.filter fun w => w != (wid, dpa / 8) }
  let s := if (s.syncOf die).length < syncDepth then s else s.syncEvict die
  { s with syncWords := s.syncWords ++ [(wid, dpa / 8)] }

/-- The crypto lane of a slice holds a world's key. -/
def State.sliceKey (s : State) (wid slice : Nat) : State :=
  { s with sliceKeys := Tab.set s.sliceKeys slice (let ks := Tab.get [] s.sliceKeys slice; if ks.contains wid then ks else ks ++ [wid]) }

/-! ### Stores on their way outward -/

def Loc.plus : Loc → Nat → Loc
  | .dram a, i => .dram (a + i)
  | .sp c o, i => .sp c (o + i)
  | .commit c r, _ => .commit c r
  | .peer p o, i => .peer p (o + i)

/-- The byte a store writes at a place. -/
def Store.byteAt (st : Store) (l : Loc) : Option Byte :=
  match st.loc, l with
  | .dram b, .dram a => if b ≤ a then st.data[a - b]? else none
  | .sp c b, .sp d a => if c = d ∧ b ≤ a then st.data[a - b]? else none
  | _, _ => none

/-- m bytes at a place and n at another have some byte in common, or are the same ring word. -/
def Loc.meets (a : Loc) (m : Nat) (b : Loc) (n : Nat) : Bool :=
  match a, b with
  | .dram x, .dram y => decide (x < y + n) && decide (y < x + m)
  | .sp c x, .sp d y => c == d && decide (x < y + n) && decide (y < x + m)
  | .commit c r, .commit d q => c == d && r == q
  | .peer p x, .peer q y => p == q && decide (x < y + n) && decide (y < x + m)
  | _, _ => false

/-- Two stores write some byte in common, or the same ring word. -/
def Store.overlaps (a b : Store) : Bool := a.loc.meets a.data.length b.loc b.data.length

/-- The level of a scope's point of visibility: 1 CORE, 2 GRP, 3 DIE, 4 the home (Table 1.2). -/
def scopeLevel : Scope → Nat
  | .core => 1 | .grp => 2 | .die => 3 | .dev => 4 | .sys => 4

/-- The level at which a store is where its bytes live. -/
def Store.homeLevel (st : Store) : Nat :=
  match st.loc with
  | .sp c _ => if c = st.core then 1 else 4
  | .commit c _ => if c = st.core then 1 else 4
  | .dram _ => 4
  | .peer _ _ => 4

/-- The level at which a store retires: CORE, or the scope of a release (Table 8.2). -/
def Store.retireLevel (st : Store) : Nat := match st.rel with | some x => scopeLevel x | none => 1

/-- The stores that stand at a level. -/
def State.at (s : State) : Nat → List Store
  | 0 => s.queue | 1 => s.atCore | 2 => s.atGrp | _ => s.atDie

def State.setAt (s : State) (lvl : Nat) (l : List Store) : State :=
  match lvl with
  | 0 => { s with queue := l }
  | 1 => { s with atCore := l }
  | 2 => { s with atGrp := l }
  | _ => { s with atDie := l }

def State.allStores (s : State) : List Store := s.queue ++ s.atCore ++ s.atGrp ++ s.atDie

/-- Two cores share the point of a level. -/
def samePoint : Nat → Nat → Nat → Bool
  | 1, a, b => a == b
  | 2, a, b => groupOf a == groupOf b
  | 3, a, b => dieOf a == dieOf b
  | _, _, _ => true

/-- The newest pending store to a byte that a core meets on the path outward, nearest point first (R199). -/
def State.pendingAt (s : State) (core : Nat) (l : Loc) : Option (Byte × Store) :=
  let find (lvl : Nat) (ss : List Store) : Option (Byte × Store) :=
    ss.reverse.findSome? fun st => if samePoint lvl core st.core then (st.byteAt l).map fun b => (b, st) else none
  match find 1 s.atCore with
  | some r => some r
  | none => match find 2 s.atGrp with
    | some r => some r
    | none => find 3 s.atDie

/-- The byte at a place's home. -/
def State.homeByte (s : State) : Loc → Byte
  | .dram a => Memory.read s.mem a
  | .sp c o => Memory.read (s.core c).sp o
  | .commit _ _ => 0
  | .peer p o => Config.peerByte s.tick (p * 2 ^ 38 + o)

/-- Writes bytes at a place's home. -/
def State.setHome (s : State) (l : Loc) (data : List Byte) : State :=
  match l with
  | .dram a => State.tear { s with mem := Memory.writeList s.mem a data } a data.length
  | .sp c o => let k := s.core c; s.setCore c { k with sp := Memory.writeList k.sp o data }
  | .commit _ _ => s
  | .peer _ _ => s

/-- A write to a ring's COMMIT word adds (R144); an add beyond the room sets overrun. -/
def Ring.add (r : Ring) (v : Nat) : Ring :=
  if r.n - (r.commit - r.free).toNat < v then { r with commit := r.free + BitVec.ofNat 32 r.n, overrun := true }
  else { r with commit := r.commit + BitVec.ofNat 32 v }

def State.ring (s : State) (c r : Nat) : Ring := Tab.get {} (s.core c).rings r
def State.setRing (s : State) (c r : Nat) (x : Ring) : State := let k := s.core c; s.setCore c { k with rings := Tab.set k.rings r x }

/-- Poison after a write of bytes: a granule covered whole is clean again, one covered in part keeps its poison (R156). -/
def State.writtenPoison (s : State) (l : Loc) (n : Nat) : State :=
  match l with
  | .dram a => (List.range ((a % 64 + n) / 64)).foldl (fun s i => if a ≤ (a / 64 + i) * 64 then s.cleanGranule (a / 64 + i) else s) s
  | .sp c o =>
    let k := s.core c
    s.setCore c { k with spBad := (List.range ((o % 64 + n) / 64)).foldl (fun t i => if o ≤ (o / 64 + i) * 64 then Tab.put false t (o / 64 + i) false else t) k.spBad }
  | .commit _ _ => s
  | .peer _ _ => s

/-- The key under which a ring's release adds leave their marks. -/
def ringKey (c r : Nat) : Nat := 2 ^ 60 + 16 * c + r

/-- The key of a place's first byte among the marks of releases. -/
def Loc.key : Loc → Option Nat
  | .dram a => some a
  | .sp c o => some (2 ^ 58 + c * 2 ^ 20 + o)
  | _ => none

/-- The releases that the values of n bytes come from. -/
def State.setMarks (s : State) (l : Loc) (n : Nat) (ms : List RelMark) : State :=
  if s.rels.isEmpty && ms.isEmpty then s else
  match l.key with
  | none => s
  | some k => { s with rels := (List.range n).foldl (fun t i => Tab.put [] t (k + i) ms) s.rels }

/-- The mark of a release that has reached a value. -/
def Store.mark (st : Store) : List RelMark := match st.rel with | some x => [{ core := st.core, scope := x, ids := st.need }] | none => []

/-- SID of a saved stream: the slot it last ran in. -/
def Image.sid (i : Image) : Nat := 2 * i.core + i.idx

/-- The images that stand for a stream. -/
def State.saved (s : State) : List Image := s.images.map (·.2) ++ s.shadow.flatMap fun p => p.2.images.map fun q => q.2.2

/-- Stores that saved streams' images keep (R202, Table 9.6). -/
def State.imageStores (s : State) : List Store := s.saved.flatMap (·.queue)

/-- Stores of a stream that the images of others keep, behind the windows saved with them (Table 9.6). -/
def State.guests (s : State) (sid : Nat) : List Store :=
  s.saved.flatMap fun i => if i.sid = sid then [] else i.queue.filter fun x => x.sid == sid

/-- Every store on its way, or in an image but the saved stream's own, changed alike. -/
def State.mapStores (s : State) (f : Store → Store) : State :=
  let g (i : Image) : Image := { i with queue := i.queue.map fun x => if x.sid = i.sid then x else f x }
  { s with
    queue := s.queue.map f, atCore := s.atCore.map f, atGrp := s.atGrp.map f, atDie := s.atDie.map f
    images := s.images.map fun p => (p.1, g p.2)
    shadow := s.shadow.map fun p => (p.1, { p.2 with images := p.2.images.map fun q => (q.1, q.2.1, g q.2.2) }) }

/-- The stores of one party become another's. -/
def State.renameStores (s : State) (a b : Nat) : State :=
  if s.allStores.isEmpty && s.imageStores.isEmpty then s else s.mapStores fun x => if x.sid = a then { x with sid := b } else x

/-- Whose the stores of a saved stream are that its image does not hold (assumption 104). -/
def Identity.away (i : Identity) : Nat := 4096 + i.wid * 65536 + i.ctxn

/-- The stores that have not reached their home. -/
def State.pendingIds (s : State) : List Nat := s.allStores.map (·.id) ++ s.imageStores.map (·.id)

/-- A release adds its mark to a ring's COMMIT (R143, R144). -/
def State.ringMark (s : State) (c r : Nat) (ms : List RelMark) : State :=
  if ms.isEmpty then s else { s with rels := Tab.put [] s.rels (ringKey c r) (Tab.get [] s.rels (ringKey c r) ++ ms) }

/-- A store reaches its home. A release leaves its mark with the bytes, and adds it to a ring's (R193, R144). -/
def State.commit (s : State) (st : Store) : State :=
  match st.loc with
  | .commit c r =>
    (s.setRing c r ((s.ring c r).add (leNat (st.data.take 4)))).ringMark c r st.mark
  | l => ((s.setHome l st.data).writtenPoison l st.data.length).setMarks l st.data.length st.mark

/-- The stream whose stores bear a number, one on a core or a saved one (assumption 104), is changed. -/
def State.mapOwner (s : State) (sid : Nat) (f : Stream → Stream) : State :=
  if sid < 4096 then s.setStream sid (f (s.stream sid)) else
  let g (i : Image) : Image := if i.stream.ident.away == sid then { i with stream := f i.stream } else i
  { s with images := s.images.map (fun p => (p.1, g p.2))
           shadow := s.shadow.map fun p => (p.1, { p.2 with images := p.2.images.map fun q => (q.1, q.2.1, g q.2.2) }) }

/-- S's token for a store that retires: it is pushed, or S issues nothing until it is (R63). -/
def State.storeToken (s : State) (st : Store) : State :=
  match st.ts with
  | some _ => s.mapOwner st.sid fun x => x.pushOrWait .s st.ts
  | none => s

/-- A store arrives at a level; its retirement is progress of its stream (R88). -/
def State.arrive (s : State) (st : Store) (lvl : Nat) : State :=
  let at' (l : Nat) : Bool := decide (st.retireLevel ≤ l) || decide (st.homeLevel ≤ l)
  let s := if at' lvl then s.storeToken st else s
  let s := if at' lvl && !(at' (lvl - 1)) && decide (st.sid < 4096) then s.progress st.sid else s
  let st := if at' lvl then { st with ts := none } else st
  if st.homeLevel ≤ lvl then s.commit st else s.setAt lvl (s.at lvl ++ [st])

/-- The live operand windows of a core that a write would touch (R146). -/
def State.inWindow (s : State) (c o n : Nat) : Bool := (s.core c).windows.any fun w => decide (w.lo < o + n) && decide (o ≤ w.hi)

def Store.windowHeld (s : State) (st : Store) : Bool :=
  match st.loc with
  | .sp c o => s.inWindow c o st.data.length
  | _ => false

/-- A store writes the scratchpad half or the rings of a stream. -/
def Store.into (x : Store) (t : Nat) (wide : Bool) : Bool :=
  match x.loc with
  | .sp c o => c == coreOf t && (wide || o / Config.halfBytes == t % 2)
  | .commit c r => c == coreOf t && (wide || r / 8 == t % 2)
  | _ => false

/-- None of the stores named stands below a level. -/
def State.reached (s : State) (ids : List Nat) (lvl : Nat) : Bool :=
  ((List.range lvl).all fun l => (s.at l).all fun st => !ids.contains st.id) && s.imageStores.all fun x => lvl == 0 || !ids.contains x.id

/-- A store can reach its home. -/
def State.routeClear (s : State) (st : Store) : Bool := s.clearTo st.core st.loc

/-- A store is discarded on its way (R289). -/
def State.flushed (s : State) (st : Store) : Bool := s.cutOff st.wid st.core st.loc

/-- A live window holds a store that S issued before this one (R146). -/
def State.heldBefore (s : State) (st : Store) : Bool :=
  (s.allStores.any fun x => x.sid == st.sid && decide (x.id < st.id) && x.windowHeld s) || (s.guests st.sid).any fun x => decide (x.id < st.id)

/-- Where a store goes from the store queue: to CORE, and a release to its scope's point at once, where it retires (R189), so that no value is
seen of a lane that may still fault (R211; assumption 133). -/
def Store.firstLevel (st : Store) : Nat := Nat.min st.retireLevel st.homeLevel

/-- The point a store at a level goes to next. -/
def Store.nextLevel (st : Store) (lvl : Nat) : Nat := if lvl = 0 then st.firstLevel else lvl + 1

/-- The stores to its bytes at the points that a store passes on its way out of the store queue. -/
def State.inWay (s : State) (st : Store) : List Nat :=
  (List.range (st.firstLevel - 1)).flatMap fun i => ((s.at (i + 1)).filter fun x => samePoint (i + 1) x.core st.core && x.overlaps st).map (·.id)

/-- A store at a level may move on: the store queue is FIFO (R147), a release waits for its cumulative set (R192), a live
window holds a write and S's later ones (R146), a store never passes an older one to the same bytes (R186), the links on its way home are
clear (R16), and a refused one waits for a RETRY (R213). -/
def State.mayMove (s : State) (lvl : Nat) (st : Store) : Bool :=
  let before := (s.at lvl).takeWhile fun x => x.id != st.id
  let free := !(st.windowHeld s) && !(s.heldBefore st) && !st.refused && (decide (st.nextLevel lvl ≠ 4) || s.routeClear st)
  if lvl = 0 then
    before.all (fun x => x.sid != st.sid) && (match st.rel with | some x => s.reached st.need (scopeLevel x) | none => true) && (s.inWay st).isEmpty && free
  else before.all (fun x => !(samePoint lvl x.core st.core && x.overlaps st)) && free

def State.dropStore (s : State) (lvl id : Nat) : State := s.setAt lvl ((s.at lvl).filter fun x => x.id != id)

/-- A write that stood behind a held one is checked against its gate when it leaves (R268). -/
def State.lateCheck (s : State) (st : Store) : Option FaultInfo :=
  match (if st.late && !(isService st.sid || st.wid == 0) then s.gateStops st.wid (dieOf st.core) st.dva (st.dva + st.data.length - 1) else none), st.loc with
  | some g, .dram _ => some (gateFault st.dva g.dva)
  | _, _ => none

/-- A pending store is changed where it stands. -/
def State.editStore (s : State) (id : Nat) (f : Store → Store) : State :=
  (List.range 4).foldl (fun (s : State) l => s.setAt l ((s.at l).map fun x => if x.id = id then f x else x)) s

/-- A store whose lane faults has not issued then, by its late check (R268) or by STALL (R88): it is not made, and the token that the lane
popped is at the head of its FIFO again (R211, R214). -/
def State.refuse (s : State) (st : Store) : State :=
  let s := s.editStore st.id fun x => { x with refused := true }
  s.setStream st.sid ((s.stream st.sid).giveBack .s st.tw)

/-- One store moves to its next level, if it may. One that its late check refuses is the faulting lane's (R211, R268; assumption 102). -/
def State.moveStore (s : State) (lvl : Nat) (st : Store) : State :=
  if s.mayMove lvl st then
    if st.nextLevel lvl = 4 ∧ s.flushed st = true then s.dropStore lvl st.id else
    match s.lateCheck st with
    | some f => (s.refuse st).raise st.sid .s st.line st.lane false f
    | none => (s.dropStore lvl st.id).arrive { st with late := false } (st.nextLevel lvl)
  else s

/-- The k-th pending store moves outward (`Turn.move`). -/
def State.moveNth (s : State) (k : Nat) : State :=
  match (List.range 4).findSome? fun lvl => ((s.at lvl)[k - ((List.range lvl).map fun l => (s.at l).length).sum]?).map fun st => (lvl, st) with
  | some (lvl, st) => s.moveStore lvl st
  | none => s

/-- The stores named move outward until they stand at a level, older ones to the same bytes and older ones of their queue
before them, and the cumulative sets of releases among these first. What an operand window holds stays. -/
def State.flush (ids : List Nat) (lvl : Nat) : Nat → State → State
  | 0, s => s
  | fuel + 1, s =>
    let q := s.queue
    let wants (st : Store) : Bool := (q.dropWhile fun x => x.id != st.id).any fun x => x.sid == st.sid && ids.contains x.id
    let s := if lvl = 0 then s else q.foldl (fun s st =>
      if wants st then
        let s := match st.rel with | some x => let t := s.flush st.need (scopeLevel x) fuel; t.flush (t.inWay st) st.firstLevel fuel | none => s
        s.moveStore 0 st
      else s) s
    (List.range (lvl - 1)).foldl (fun s i =>
      let l := s.at (i + 1)
      l.foldl (fun s st =>
        if ids.contains st.id || (l.dropWhile fun x => x.id != st.id).any (fun x => ids.contains x.id && samePoint (i + 1) x.core st.core && x.overlaps st)
        then s.moveStore (i + 1) st else s) s) s

def flushFuel : Nat := 8

/-- The pending stores of a stream, and the ones its reads have observed: its cumulative set (R192). -/
def State.cumulative (s : State) (sid : Nat) : List Nat :=
  ((s.allStores.filter fun st => st.sid == sid).map (·.id)) ++ (s.guests sid).map (·.id) ++ (s.stream sid).seen.filter fun i => s.pendingIds.contains i

/-- The cumulative set of a release by an engine other than S: the retired stores of the stream and those it has observed (R175,
R192). -/
def State.retiredSet (s : State) (sid : Nat) : List Nat :=
  (((s.atCore ++ s.atGrp ++ s.atDie).filter fun st => st.sid == sid).map (·.id)) ++ (s.stream sid).seen.filter fun i => s.pendingIds.contains i

/-- S holds no token back: it may issue, and retire a lane (R63). -/
def State.pushClear (s : State) (sid : Nat) : Bool := ((s.stream sid).eng' .s).push.isEmpty

/-- In what S has done to its stores no token has come to be held back: one that has holds S at its lane (R63). -/
def State.noneBack (s t : State) (sid : Nat) : Bool := t.pushClear sid || !(s.pushClear sid)

/-- A release at a scope by a stream, and whether it is complete (R192). A store that retires and finds no room for its token holds S at
the lane (R63). -/
def State.release (s : State) (sid : Nat) (x : Scope) : State × Bool :=
  let ids := s.cumulative sid
  if ids.isEmpty then (s, true) else
  let t := s.flush ids (scopeLevel x) flushFuel
  (t, t.reached ids (scopeLevel x) && s.noneBack t sid)

/-- A stream's own store queue drains to CORE, and whether it is empty then (R195) and S holds no token back (R63). -/
def State.drain (s : State) (sid : Nat) : State × Bool :=
  let ids := (s.queue.filter fun st => st.sid == sid).map (·.id) ++ (s.guests sid).map (·.id)
  if ids.isEmpty then (s, true) else
  let t := s.flush ids 1 flushFuel
  (t, t.reached ids 1 && s.noneBack t sid)

/-- The stores to n bytes at a place that a core's path to its home has taken in, nearest point first. -/
def State.onPath (s : State) (core : Nat) (l : Loc) (n : Nat) : List Store :=
  (s.atCore.filter fun x => samePoint 1 x.core core && x.loc.meets x.data.length l n) ++
    (s.atGrp.filter fun x => samePoint 2 x.core core && x.loc.meets x.data.length l n) ++ s.atDie.filter fun x => samePoint 3 x.core core && x.loc.meets x.data.length l n

/-- A write made at the home by another path than the store queue: the stores a core's path still holds to its bytes go
before it, so that the byte's order stays the program's (R186, R197). -/
def State.settle (s : State) (sid : Nat) (l : Loc) (n : Nat) : State :=
  if s.queue.isEmpty && s.atCore.isEmpty && s.atGrp.isEmpty && s.atDie.isEmpty then s else
  let ids := (s.queue.filter fun x => x.sid == sid && x.loc.meets x.data.length l n) ++ s.onPath (coreOf sid) l n
  s.flush (ids.map (·.id)) 4 flushFuel

/-- As `settle`, and whether the write can be made now: the links to its home are clear, and no store to those bytes is left on the
path before it (R16, R186). What stands in the store queue still is not before a write of V, M or C. -/
def State.settledHome (s : State) (sid : Nat) (l : Loc) (n : Nat) : State × Bool :=
  let t := s.settle sid l n
  (t, t.clearTo (coreOf sid) l && (t.onPath (coreOf sid) l n).isEmpty)

/-- As `settledHome`, for a write of S, which its store queue's writes to those bytes go before too, and every write that a window
holds (R146). -/
def State.settled (s : State) (sid : Nat) (l : Loc) (n : Nat) : State × Bool :=
  let t := s.settledHome sid l n
  (t.1, t.2 && s.noneBack t.1 sid && !(t.1.queue.any fun x => x.sid == sid && x.loc.meets x.data.length l n) &&
    !(t.1.allStores.any fun x => x.sid == sid && x.windowHeld t.1) && (t.1.guests sid).isEmpty)

/-- What was performed ahead of its turn is let go: the stream's later loads are performed anew. -/
def State.dropEarly (s : State) (sid : Nat) : State :=
  if (s.stream sid).early.isEmpty then s else s.setStream sid { s.stream sid with early := [] }

/-- Of what the streams of some worlds have performed ahead nothing is kept. -/
def State.dropAhead (s : State) (world : Nat → Bool) : State :=
  { s with streams := s.streams.map fun p => (p.1, if world (s.widOf p.1) && !p.2.early.isEmpty then { p.2 with early := [] } else p.2) }

/-- S's queues realigned, as by MARK (R195): the store queue drains, and later loads are performed after this. -/
def State.realign (s : State) (sid : Nat) : State × Bool :=
  let r := s.drain sid
  if r.2 then (r.1.dropEarly sid, true) else r

/-- Pending stores become part of what a stream has observed. -/
def State.observe (s : State) (sid : Nat) (ids : List Nat) : State :=
  if ids.isEmpty then s else
  let st := s.stream sid
  s.setStream sid { st with seen := ((st.seen ++ ids).filter fun i => s.pendingIds.contains i).eraseDups }

/-- A release and an acquire reach each other's cores (R191, R193). -/
def RelMark.reaches (m : RelMark) (sc : Scope) (core : Nat) : Bool := samePoint (scopeLevel m.scope) m.core core && samePoint (scopeLevel sc) m.core core

/-- An acquire at a scope of a value that releases have left marks with: it synchronises with the ones in reach, takes over their
cumulative sets, and no later load keeps what was performed before it (R193). -/
def State.acquire (s : State) (sid : Nat) (sc : Scope) (marks : List RelMark) : State :=
  let hit := marks.filter fun m => m.reaches sc (coreOf sid)
  if hit.isEmpty then s else (s.observe sid (hit.flatMap (·.ids))).dropEarly sid

/-! ### Reads -/

/-- The bytes a core reads at a place, and the pending stores that gave them. -/
def State.readBytes (s : State) (core : Nat) (l : Loc) : Nat → List (Byte × Option Store)
  | 0 => []
  | n + 1 => (match s.pendingAt core l with | some (b, st) => (b, some st) | none => (s.homeByte l, none)) :: s.readBytes core (l.plus 1) n

/-- The releases that n bytes read come from: of stores on their way, else of the bytes at home. -/
def State.marksOf (s : State) (l : Loc) (bs : List (Byte × Option Store)) : List RelMark :=
  ((bs.zipIdx).flatMap fun p => match p.1.2, l.key with
    | some st, _ => st.mark
    | none, some k => Tab.get [] s.rels (k + p.2)
    | none, none => []).eraseDups

/-- The adds to a ring's COMMIT that are on their way from cores whose point a core shares, outermost first (R147). -/
def State.ringAdds (s : State) (core c r : Nat) : List Store :=
  (s.atDie.filter (fun st => samePoint 3 core st.core) ++ s.atGrp.filter (fun st => samePoint 2 core st.core) ++ s.atCore.filter fun st => samePoint 1 core st.core).filter
    fun st => st.loc == .commit c r

/-- The COMMIT word of a ring as a core sees it: with the adds on their way. -/
def State.ringSeen (s : State) (core c r : Nat) : Ring := (s.ringAdds core c r).foldl (fun x st => x.add (leNat (st.data.take 4))) (s.ring c r)

/-- The value of a ring word at the core window (Table 6.5). -/
def Ring.word (r : Ring) : Nat → Nat
  | 0 => r.overrun.toNat * 2 ^ 63 + r.offset % 2 ^ 20 * 2 ^ 32 + r.n % 2 ^ 16 * 2 ^ 16 + r.z % 2 ^ 16
  | 1 => r.claim.toNat
  | 2 => r.commit.toNat
  | _ => r.free.toNat

/-- What a load finds: the state after it (errors logged, stores observed), its bytes, and whether they are poisoned. -/
structure Loaded where
  state : State
  bytes : List Byte
  poison : Bool

/-- What a read by an engine makes of the values it met: the stores become observed, and the releases that its own scope reaches are
acquired; the others are kept for a FENCE of a wider one (R192, R193, R196). -/
def State.meet (s : State) (sid : Nat) (e : Engine) (ids : List Nat) (marks : List RelMark) (acq : Option Scope) : State :=
  let s := s.observe sid ids
  let rest := match acq with | some sc => marks.filter fun (m : RelMark) => !(m.reaches sc (coreOf sid)) | none => marks
  let s := match acq with | some sc => s.acquire sid sc marks | none => s
  if rest.isEmpty then s else s.setStream sid { s.stream sid with acqs := ((s.stream sid).acqs ++ rest.map fun m => (e.code, m)).eraseDups }

/-- The value of a read that is not poisoned, met by an engine. A read at any scope finds the newest write on the path to the home:
what is visible at a wider scope is visible at every narrower one (R17, R199). -/
def State.readMet (s : State) (sid : Nat) (e : Engine) (l : Loc) (n : Nat) (acq : Option Scope) : State × List Byte :=
  let bs := s.readBytes (coreOf sid) l n
  (s.meet sid e ((bs.filterMap (·.2)).map (·.id)) (s.marksOf l bs) acq, bs.map (·.1))

/-- V or M reads bytes of its scratchpad: what was on its way, or released, is met (R192). -/
def State.spMeet (s : State) (sid : Nat) (e : Engine) (off n : Nat) : State :=
  if s.atCore.isEmpty && s.atGrp.isEmpty && s.atDie.isEmpty && s.rels.isEmpty then s else (s.readMet sid e (.sp (coreOf sid) off) n none).1

/-- A load of n bytes at a target by an engine (R147, R155, R186): a poisoned granule yields zeros in a page with ZFILL. An
acquiring load names its scope. -/
def State.load (s : State) (sid : Nat) (e : Engine) (dva : Nat) (t : Target) (n : Nat) (acq : Option Scope) : Loaded :=
  match t with
  | .dram a p =>
    let (s, bad) := s.readGranule (s.widOf sid) (partyOf sid) dva a p.zfill
    if bad then ⟨s, List.replicate n 0, !p.zfill⟩ else
    let r := s.readMet sid e (.dram a) n acq
    ⟨r.1, r.2, false⟩
  | .sp c o =>
    let r := s.readMet sid e (.sp c o) n acq
    ⟨r.1, r.2, Tab.get false (s.core c).spBad (o / 64)⟩
  | .ring c r w sub =>
    let adds := if w = 2 then s.ringAdds (coreOf sid) c r else []
    let marks := if w = 2 then Tab.get [] s.rels (ringKey c r) ++ adds.flatMap Store.mark else []
    ⟨s.meet sid e (adds.map (·.id)) marks acq, (leBytes 8 ((s.ringSeen (coreOf sid) c r).word w)).drop sub |>.take n, false⟩
  | .peer p o => ⟨s, (s.readBytes (coreOf sid) (.peer p o) n).map (·.1), false⟩

/-! ### Loads ahead of their turn (R147, R188) -/

def Target.loc : Target → Loc
  | .dram a _ => .dram a
  | .sp c o => .sp c o
  | .ring c r _ _ => .commit c r
  | .peer p o => .peer p o

/-- A later load of S with its base register and offset is performed now: its value is kept for it. Only a sound granule is read
ahead, and only the scratchpad or device memory, over links that are clear (R16). -/
def State.loadEarly (s : State) (sid base : Nat) (off : Int) (n : Nat) : State :=
  let st := s.stream sid
  let a := addrAdd (if base = 0 then 0 else Tab.get 0 st.s base) (off * n)
  let keep (l : Loc) : State :=
    if !(s.readClear (s.widOf sid) (coreOf sid) l) then s else
    let bs := s.readBytes (coreOf sid) l n
    s.setStream sid { st with early := st.early ++ [{ base := base, dva := a, n := n, bytes := bs.map (·.1), marks := s.marksOf l bs, ids := (bs.filterMap (·.2)).map (·.id) }] }
  if st.run != Run.running || base == 31 || !([1, 2, 4, 8].contains n) then s else
  match s.target sid a n .read with
  | .ok (.dram d _) => if Tab.get false s.memBad (d / 64) || Tab.get 0 s.memErr (d / 64) != 0 || s.staleGranule (d / 64) then s else keep (.dram d)
  | .ok (.sp c o) => if Tab.get false (s.core c).spBad (o / 64) then s else keep (.sp c o)
  | _ => s

/-- What a load performed ahead has read of n bytes at a place. -/
def State.earlyAt (s : State) (sid : Nat) (x : Early) (l : Loc) (n : Nat) : Bool :=
  match s.target sid x.dva x.n .read with
  | .ok t => t.loc.meets x.n l n
  | .error _ => true

/-- S reads n bytes at a place: what was performed ahead of that read there is let go, since no later read returns an older write
(R186). -/
def State.passEarly (s : State) (sid : Nat) (l : Loc) (n : Nat) : State :=
  let st := s.stream sid
  if st.early.isEmpty then s else s.setStream sid { st with early := st.early.filter fun y => !(s.earlyAt sid y l n) }

/-- A plain load takes what was performed ahead for it, if it is still good. -/
def State.takeEarly (s : State) (sid base dva : Nat) (l : Loc) (n : Nat) : State × Option Early :=
  (s.passEarly sid l n, (s.stream sid).early.find? fun x => x.base == base && x.dva == dva && x.n == n)

/-- A store that S issues now stands behind one that a window holds (R146, R268). -/
def State.standsBehind (s : State) (sid : Nat) : Bool := (s.allStores.any fun x => x.sid == sid && (x.late || x.windowHeld s)) || !(s.guests sid).isEmpty

/-- An S store enters the store queue (R147). -/
def State.enqueue (s : State) (dva : Nat) (t : Target) (data : List Byte) (rel : Option Scope) (need : List Nat) : State :=
  { s with queue := s.queue ++ [{ id := s.nextId, sid := s.cur.sid, core := coreOf s.cur.sid, loc := t.loc, data := data, rel := rel,
                                  need := need, late := s.standsBehind s.cur.sid
                                  tw := s.popped
                                  ts := s.cur.ts, wid := s.widOf s.cur.sid, dva := dva,
                                  line := s.cur.line, lane := s.cur.lane, blk := s.myEng.blk, visit := s.myEng.visit }],
           nextId := s.nextId + 1 }

/-- The lane of a refused store issues again on a RETRY (R222): it pops its token, and is checked anew (R152). The store queue is FIFO, so a stream
has one such store, the oldest it has there. -/
def State.reissueStore (s : State) (sid : Nat) : State :=
  match s.allStores.find? fun x => x.sid == sid && x.refused with
  | none => s
  | some x =>
    match (s.stream sid).popAgain .s x.tw, s.target sid x.dva x.data.length .write (s.heldBefore x) with
    | some st, .ok t => (s.setStream sid st).editStore x.id fun y => { y with loc := t.loc, refused := false, late := s.heldBefore x }
    | _, .error f => s.raise sid .s x.line x.lane false f
    | none, .ok _ => s

/-- A write to the home by an engine or unit other than S's store queue: the path's older stores first, then the bytes, with the
marks of a release. After its world's reset marker it is discarded on the link (R289). -/
def State.writeHome (s : State) (sid : Nat) (l : Loc) (data : List Byte) (marks : List RelMark := []) : State :=
  let s := s.settle sid l data.length
  if s.cutOff (s.widOf sid) (coreOf sid) l then s else
  match l with
  | .commit c r =>
    (s.setRing c r ((s.ring c r).add (leNat (data.take 4)))).ringMark c r marks
  | _ => ((s.setHome l data).writtenPoison l data.length).setMarks l data.length marks

/-- The stacks that hold a span of a world's device memory can be reached (R15, R27). -/
def State.spanReachable (s : State) (wid dva n : Nat) : Bool :=
  [0, 1, 2, 3].all s.joined || (granulesOf dva n).all fun q => match s.dpa wid q.1 with | some a => s.reachable a | none => true

/-- Text runs from no page of a span of a world's device memory (R90). -/
def State.textFree (s : State) (wid dva n : Nat) : Bool :=
  (granulesOf dva n).all fun q => match s.dpa wid q.1 with | some a => !(s.runsText a) | none => true

/-- Every link between a core and the homes of a span of a world's device memory is clear, and none has passed the world's reset marker
(R16, R289). -/
def State.spanClear (s : State) (core wid dva n : Nat) : Bool :=
  s.links.isEmpty || (granulesOf dva n).all fun q => match s.dpa wid q.1 with
    | some a => s.readClear wid core (.dram a)
    | none => true

/-- As `settledHome`, for the granules of a span. -/
def State.spanSettled (s : State) (sid wid dva n : Nat) : State × Bool :=
  (granulesOf dva n).foldl (fun (acc : State × Bool) q => match acc.1.dpa wid q.1 with
    | some a => let t := acc.1.settledHome sid (.dram (a / 64 * 64)) 64; (t.1, acc.2 && t.2)
    | none => acc) (s, true)

/-- Bytes written on a stream's behalf to a span of a world's device memory, at their homes, with the marks of a release. No page that text
runs from takes a write (R90). -/
def State.writeSpan (s : State) (sid wid dva : Nat) (data : List Byte) (marks : List RelMark := []) : State :=
  (granulesOf dva data.length).foldl (fun (s : State) q => match s.dpa wid q.1 with
    | some a => if s.cutOff wid (coreOf sid) (.dram a) || s.runsText a then s else s.writeHome sid (.dram a) ((data.drop (q.1 - dva)).take q.2) marks
    | none => s) s

/-- The mark of a DEV-scope release by the hub or by firmware: the writes it stands for are at their homes (R278, R394). -/
def hubRelease : RelMark := { core := 1023, scope := .dev, ids := [] }

/-! ### Appends to world queues (R278) -/

/-- The KY-4 has written a span: granules covered whole are clean (R156), and no release's mark is left there. -/
def State.written (s : State) (wid dva n : Nat) : State :=
  (granulesOf dva n).foldl (fun (s : State) q => match s.dpa wid q.1 with
    | some a => (if q.2 = 64 then s.cleanGranule (a / 64) else s).setMarks (.dram a) q.2 []
    | none => s) s

/-- Appends an entry and adds 1 to the tail with a DEV-scope release (R278), in a page that text runs from too (assumption 109),
and in a gated one (assumption 140). -/
def State.queueAppend (s : State) (wid off : Nat) (entry : List Byte) (party : Nat := 1023) : State :=
  let s := s.readHeader wid off party
  let b := s.queueBase wid off
  let t := s.queueTail wid off
  let slot := s.queueSlot wid off entry.length
  let s := ((s.poke wid slot entry).written wid slot entry.length).poke wid b (word8 (t + 1))
  match s.dpa wid b with
  | some a => s.setMarks (.dram a) 8 [hubRelease]
  | none => s

/-- The header and the next slot of a world queue can be reached, and the links between a core and them are clear. -/
def State.queueClear (s : State) (core wid off n : Nat) : Bool :=
  s.spanReachable wid (s.queueBase wid off) 64 && s.spanReachable wid (s.queueSlot wid off n) n &&
    (s.links.isEmpty || (s.spanClear core wid (s.queueBase wid off) 64 && s.spanClear core wid (s.queueSlot wid off n) n))

/-- The bytes of a core's own scratchpad as its engines read them: with the writes that are on their way and visible to it
(R17, R186). -/
def State.spBytes (s : State) (core off n : Nat) : List Byte :=
  if s.atCore.isEmpty && s.atGrp.isEmpty && s.atDie.isEmpty then Memory.readList (s.core core).sp off n
  else (s.readBytes core (.sp core off) n).map (·.1)

end Sys2Proof.Machine
end

