-- ==== Sys2Proof/Machine/Sha.lean ====
section
/-! DEFINITION. SHA-256, which the spec names and does not define (10 R256, 12 R283): as FIPS 180-4 gives it
(PRESUMED, notes/assumptions/10.md). -/

namespace Sys2Proof.Machine

open Sys2Proof

/-- The greatest x below 2ⁿ added to a start whose k-th power does not exceed v, bit by bit. -/
def rootFrom (k v : Nat) : Nat → Nat → Nat
  | 0, x => x
  | n + 1, x => rootFrom k v n (if (x + 2 ^ n) ^ k ≤ v then x + 2 ^ n else x)

/-- The first 32 bits of the fractional part of the k-th root of p. -/
def rootFraction (k p : Nat) : Nat := rootFrom k (p * 2 ^ (32 * k)) 37 0 % 2 ^ 32

/-- The primes below 312: the first 64. -/
def shaPrimes : List Nat := (List.range 312).filter fun n => decide (1 < n) && (List.range 18).all fun d => decide (d < 2) || decide (n ≤ d) || n % d != 0

/-- The 64 round constants: of the cube roots of the first 64 primes. -/
def shaK : List Nat := shaPrimes.map (rootFraction 3)

/-- The eight chaining words. -/
structure ShaState where
  a : BitVec 32
  b : BitVec 32
  c : BitVec 32
  d : BitVec 32
  e : BitVec 32
  f : BitVec 32
  g : BitVec 32
  h : BitVec 32
  deriving DecidableEq, Repr

/-- The chaining words before the first block: of the square roots of the first 8 primes. -/
def shaInit : ShaState :=
  let h (i : Nat) : BitVec 32 := BitVec.ofNat 32 (rootFraction 2 (shaPrimes.getD i 2))
  { a := h 0, b := h 1, c := h 2, d := h 3, e := h 4, f := h 5, g := h 6, h := h 7 }

/-- A big-endian number of bytes. -/
def beNat (bs : List Byte) : Nat := bs.foldl (fun n b => n * 256 + b.toNat) 0

/-- n bytes of a number, big-endian. -/
def beBytes (n v : Nat) : List Byte := (List.range n).map fun i => BitVec.ofNat 8 (v / 256 ^ (n - 1 - i))

/-- The 64 message words of a block: each new word from the 2nd, 7th, 15th and 16th before it. The list is newest first. -/
def shaExtend : Nat → List (BitVec 32) → List (BitVec 32)
  | 0, w => w
  | n + 1, w =>
    let w2 := w.getD 1 0
    let w7 := w.getD 6 0
    let w15 := w.getD 14 0
    let w16 := w.getD 15 0
    let s0 := w15.rotateRight 7 ^^^ w15.rotateRight 18 ^^^ (w15 >>> 3)
    let s1 := w2.rotateRight 17 ^^^ w2.rotateRight 19 ^^^ (w2 >>> 10)
    shaExtend n ((w16 + s0 + w7 + s1) :: w)

/-- One round with its message word and constant. -/
def shaRound (x : ShaState) (kw : BitVec 32 × Nat) : ShaState :=
  let s1 := x.e.rotateRight 6 ^^^ x.e.rotateRight 11 ^^^ x.e.rotateRight 25
  let ch := (x.e &&& x.f) ^^^ (~~~x.e &&& x.g)
  let t1 := x.h + s1 + ch + BitVec.ofNat 32 kw.2 + kw.1
  let s0 := x.a.rotateRight 2 ^^^ x.a.rotateRight 13 ^^^ x.a.rotateRight 22
  let maj := (x.a &&& x.b) ^^^ (x.a &&& x.c) ^^^ (x.b &&& x.c)
  ⟨t1 + (s0 + maj), x.a, x.b, x.c, x.d + t1, x.e, x.f, x.g⟩

def shaBlock (x : ShaState) (block : List Byte) : ShaState :=
  let w := (List.range 16).map fun i => BitVec.ofNat 32 (beNat ((block.drop (4 * i)).take 4))
  let ws := (shaExtend 48 w.reverse).reverse
  let y := (ws.zip shaK).foldl shaRound x
  ⟨x.a + y.a, x.b + y.b, x.c + y.c, x.d + y.d, x.e + y.e, x.f + y.f, x.g + y.g, x.h + y.h⟩

def shaBlocks : Nat → ShaState → List Byte → ShaState
  | 0, x, _ => x
  | n + 1, x, bs => shaBlocks n (shaBlock x (bs.take 64)) (bs.drop 64)

/-- The SHA-256 digest of a message, 32 bytes. -/
def sha256 (m : List Byte) : List Byte :=
  let zeros := (119 - m.length % 64) % 64
  let padded := m ++ [0x80] ++ List.replicate zeros 0 ++ beBytes 8 (8 * m.length)
  let x := shaBlocks (padded.length / 64) shaInit padded
  [x.a, x.b, x.c, x.d, x.e, x.f, x.g, x.h].flatMap fun w => beBytes 4 w.toNat

end Sys2Proof.Machine
end

