-- ==== Sys2Proof/Machine/Leases.lean ====
section
/-! DEFINITION. The lease table, the accounts and the bays' queues (10 R240 to R257), as S, M, the services and the start
use them. -/

namespace Sys2Proof.Machine

open Sys2Proof

/-! ### Arrays and ranges -/

/-- Key of an array's bay: 16·PCID + bay (R14). -/
def bayOf (an : Nat) : Nat := an / 64
/-- PCID and die of an array (R14). -/
def arrayCore (an : Nat) : Nat := bits an 10 8
def arrayDie (an : Nat) : Nat := bits an 16 2

/-- A range word (Table 10.5). -/
structure RangeWord where
  first : Nat
  count : Nat
  mw : Nat
  party : Nat
  deriving DecidableEq, Repr

def rangeWord (w : Nat) : RangeWord := { first := bits w 0 18, count := bits w 18 6 + 1, mw := bits w 24 4, party := bits w 28 12 }

/-- R250: the range words a function refuses; `charges` for AREVOKE and AERASE. -/
def rangeBad (w : Nat) (charges : Bool) : Bool :=
  let r := rangeWord w
  w / 2 ^ 40 != 0 || decide (64 < r.first % 64 + r.count) || r.party == 4095 ||
    (if charges then r.mw == 0 else r.mw != 0 || r.party != 0)

def RangeWord.arrays (r : RangeWord) : List Nat := (List.range r.count).map fun i => r.first + i

/-- The first array of a range whose lease fails a test or whose die has not joined (R251). -/
def State.firstBad (s : State) (r : RangeWord) (ok : Lease → Bool) : Option Nat :=
  r.arrays.find? fun an => !(s.joined (arrayDie an)) || !(ok (s.lease an))

def noLease (an : Nat) : FaultInfo := { code := 0x0A, detail := BitVec.ofNat 64 (an % 2 ^ 18) }

/-- LEASED(w) and active (R245). -/
def Lease.active (l : Lease) (wid : Nat) : Bool := l.st == .leased && l.wid == wid && !l.dormant

/-- The signed copies are rewritten, one after the other (R26, R247). -/
def State.committed (s : State) : State :=
  let n := Nat.max s.boot.copyA.seq s.boot.copyB.seq
  { s with journal := 0, boot := { s.boot with copyA := { seq := n + 1 }, copyB := { seq := n + 2 } } }

/-! ### Accounts (R246, R247) -/

def sat (n v : Nat) : Nat := Nat.min v (2 ^ n - 1)

/-- One row program: LIFE, COUNT and MAXROW, the world's WTOT, and CHG for an AWRITE. -/
def State.charge (s : State) (an row wid : Nat) (chg : Bool) : State :=
  let l := s.lease an
  let c := sat 32 (Tab.get 0 l.count row + 1)
  let s := s.setLease an
    { l with
      life := sat 40 (l.life + 1), count := Tab.set l.count row c, maxrow := Nat.max l.maxrow c
      chg := if chg then sat 40 (l.chg + 1) else l.chg }
  let w := s.world wid
  { s.setWorld wid { w with wtot := sat 48 (w.wtot + 1) } with journal := s.journal + 1 }

/-! ### Bays -/

/-- The accepted AWRITEs of a bay that still have rows to program. -/
def Bay.writing (b : Bay) : List Nat := (b.ops.filter fun o => o.awrite).map fun o => o.cmd

/-- The rows an AWRITE programs, data rows first (R252). -/
def awriteRows (first nd : Nat) (side : BitVec 8) : List Nat :=
  ((List.range nd).map fun j => first + j) ++ ((List.range 8).filter fun b => side.getLsbD b).map fun b => 256 + b

/-- An AWRITE of a stream has ended. -/
def Stream.lessAwrite (st : Stream) (id : Nat) : Stream :=
  if st.awrites.any (fun c => c.id == id) then { st with awrites := st.awrites.filter fun x => x.id != id } else st

/-- Ends the AWRITE with a command id wherever it is: with its stream on a core, saved, or with its bay. -/
def State.endAwrite (s : State) (id : Nat) : State :=
  let g (st : Stream) : Stream := st.lessAwrite id
  { s with
    streams := s.streams.map fun p => (p.1, g p.2)
    bays := s.bays.map fun p => (p.1, { p.2 with left := p.2.left.filter fun x => x.2.1.id != id })
    images := s.images.map fun p => (p.1, { p.2 with stream := g p.2.stream })
    shadow := s.shadow.map fun p => (p.1, { p.2 with images := p.2.images.map fun q => (q.1, q.2.1, { q.2.2 with stream := g q.2.2.stream }) }) }

/-- A revocation reaches the bay (R253): the rows an AWRITE has left on the array are dropped and logged. -/
def State.dropAwrites (s : State) (an : Nat) : State :=
  let b := s.bay (bayOf an)
  let drops := b.ops.filter fun o => o.awrite && o.an == an
  let s := s.setBay (bayOf an) { b with ops := b.ops.filter fun o => !(o.awrite && o.an == an) }
  drops.foldl (fun (s : State) o =>
    (s.logError o.wid 5 (((s.streams.find? fun p => p.2.awrites.any fun c => c.id == o.cmd).map (·.1)).getD o.sid) 0 an 0).endAwrite o.cmd) s

/-- An operation that has faulted stands as not issued, and so does a pass that would fault while its stream is stopped (R214): nobody waits
for it, and it is checked anew before it runs. -/
def State.standsBack (s : State) (o : BayOp) : Bool :=
  o.again || (!o.awrite && (s.stream o.sid).run == Run.suspended && !(s.lease o.an).unverified.isEmpty)

/-- The old lessee's accepted operations on an array are complete (R244). -/
def State.arrayIdle (s : State) (an : Nat) : Bool := !((s.bay (bayOf an)).ops.any fun o => o.an == an && !(s.standsBack o))

/-- The lease under which an operation was accepted still stands, or is being revoked with its erase not begun (R244). -/
def State.leaseStands (s : State) (o : BayOp) : Bool :=
  let l := s.lease o.an
  l.wid == o.wid && (l.st == .leased || (l.st == .evicting && l.errows == 0 && l.pulses == 0))

/-! ### Transitions (Table 10.3) -/

/-- AREVOKE of one array, or the revocation a power-up, UNLEASE or a teardown makes. The EOP flag and RSV stay as the lessee had them
(assumption 138). -/
def State.revoke (s : State) (an party batch : Nat) (byEop : Bool) : State :=
  let l := s.lease an
  (s.setLease an
    { l with
      st := .evicting, dormant := false, party := party, vfail := false, byEop := byEop, restarted := false
      errows := 0, pulses := 0, rowFail := false, erStart := 0, erEnd := 0, erChg := 0, revocation := batch
      chgAtRevoke := l.chg }).dropAwrites an

/-- AERASE of one array: the previous WID is 4095. -/
def State.eraseFree (s : State) (an party batch : Nat) : State :=
  let l := s.lease an
  s.setLease an
    { l with
      st := .evicting, wid := 4095, dormant := false, party := party, vfail := false, byEop := false, restarted := false
      errows := 0, pulses := 0, rowFail := false, erStart := 0, erEnd := 0, erChg := 0, revocation := batch
      chgAtRevoke := l.chg }

def State.revokeAll (s : State) (ans : List Nat) (party : Nat) (byEop : Bool) : State :=
  ({ ans.foldl (fun (t : State) an => t.revoke an party s.revocations byEop) s with revocations := s.revocations + 1 }).committed

def State.setMaint (s : State) (an mw : Nat) : State := let b := s.bay (bayOf an); s.setBay (bayOf an) { b with maint := mw }
def State.setWeight (s : State) (an wid w : Nat) : State :=
  let b := s.bay (bayOf an)
  s.setBay (bayOf an) { b with weights := Tab.set b.weights wid w }

/-- AGRANT of a range (Table 10.3): one lease token for it. -/
def State.grantAll (s : State) (r : RangeWord) (wid weight rsv : Nat) (eop : Bool) : State × Nat :=
  let token := Config.token s.tick r.first % 2 ^ 128
  let s := r.arrays.foldl (fun s an =>
    let l := s.lease an
    s.setLease an { l with st := .leased, wid := wid, dormant := false, eop := eop, weight := weight, token := token, chg := 0, rsv := rsv }) s
  ((s.setWeight r.first wid weight).committed, token)

/-! ### Erasure records (R256) -/

def listSum (l : List Nat) : Nat := l.foldl (· + ·) 0
def listMax (l : List Nat) : Nat := l.foldl Nat.max 0
def listMin (l : List Nat) : Nat := l.tail.foldl Nat.min (l.headD 0)

/-- n bytes of a list, filled with zeros. -/
def fitBytes (n : Nat) (bs : List Byte) : List Byte := (bs ++ List.replicate n 0).take n

/-- The account list (Table 10.11). -/
def State.accountList (s : State) (r : RangeWord) : List Byte :=
  r.arrays.flatMap fun an =>
    let l := s.lease an
    leBytes 4 an ++ leBytes 4 l.maxrow ++ leBytes 8 l.life ++ leBytes 8 l.chgAtRevoke

/-- The record of an erased range (Table 10.10). -/
def State.erasureRecord (s : State) (r : RangeWord) (seq : Nat) (nonce : List Byte) : List Byte :=
  let ls := r.arrays.map fun an => s.lease an
  let l0 := s.lease r.first
  let flags := (ls.any fun l => l.vfail).toNat + 2 * (ls.any fun l => l.byEop).toNat + 4 * (ls.any fun l => l.restarted).toNat
  let head := leBytes 4 1 ++ leBytes 4 flags ++ leBytes 8 Config.serial.toNat ++ leBytes 8 seq ++ leBytes 4 (r.first + (r.count - 1) * 2 ^ 18) ++
    leBytes 2 l0.wid ++ leBytes 2 l0.party ++ leBytes 8 (listMin (ls.map fun l => l.erStart)) ++ leBytes 8 (listMax (ls.map fun l => l.erEnd)) ++
    leBytes 8 (listSum (ls.map fun l => l.life)) ++ leBytes 4 (listMax (ls.map fun l => l.maxrow)) ++ leBytes 4 (listSum (ls.map fun l => l.erChg)) ++
    sha256 (s.accountList r) ++ fitBytes 32 nonce
  head ++ fitBytes 384 (Config.sign head)

/-- AATTEST's state changes: the record is issued, a verified array is free, the others are retired. -/
def State.attestAll (s : State) (r : RangeWord) : State :=
  (r.arrays.foldl (fun s an =>
    let l := s.lease an
    s.setLease an (if l.vfail then { l with st := .retired, wid := 4095 } else { l with st := .free, wid := 4095, chg := 0 })) s).committed

/-! ### ASTAT (R255) -/

def LeaseState.code : LeaseState → Nat
  | .free => 0 | .leased => 1 | .evicting => 2 | .erased => 3 | .retired => 4

/-- The state word (Table 10.9), with the world's weight in the bay. -/
def Lease.stateWord (l : Lease) (weight : Nat) : Nat :=
  l.errows * 2 ^ 24 + (if l.st = .leased then weight * 2 ^ 20 else 0) + l.wid * 2 ^ 8 + l.vfail.toNat * 64 + (!l.unverified.isEmpty).toNat * 32 +
    l.eop.toNat * 16 + l.dormant.toNat * 8 + l.st.code

/-- The word of an item (Table 10.9). -/
def State.statWord (s : State) (an item wid : Nat) : Nat :=
  let l := s.lease an
  match item with
  | 0 => l.stateWord (Tab.get 1 (s.bay (bayOf an)).weights l.wid)
  | 1 => l.life
  | 2 => l.maxrow
  | 3 => l.chg
  | 4 => (s.world wid).wtot
  | _ => l.rsv

end Sys2Proof.Machine
end

