-- ==== Sys2Proof/Machine/Engine.lean ====
section
/-! DEFINITION. How an engine moves through text (03 R57 to R71): fetch, line visits, the slip window, blocks, tokens,
hardware loops, the repeat prefix, and what happens around the meaning of a lane. -/

namespace Sys2Proof.Machine

open Sys2Proof

/-! ### Text -/

/-- The line at a DVA as its home memory holds it (R79), if it is mapped. -/
def State.textAt (s : State) (wid dva : Nat) : Option Line :=
  (s.dpa wid dva).map fun a => BitVec.ofNat 256 (leNat (Memory.readList s.mem a 32))

/-- The line a stream reads at a DVA: from its fetch buffer, or from memory. -/
def State.lineAt (s : State) (sid dva : Nat) : Option Line :=
  match Tab.find (s.stream sid).fetch dva with
  | some l => some (BitVec.ofNat 256 l)
  | none => s.textAt (s.widOf sid) dva

/-- The fetch unit reads a line (R57, R152): from the buffer, else from memory, into the buffer. A line that engines have passed stays in
the buffer until it is full; then the lowest DVA makes room (assumption 91). -/
def State.fetch (s : State) (sid dva : Nat) : State × Except FaultInfo Line :=
  match Tab.find (s.stream sid).fetch dva with
  | some l => (s, .ok (BitVec.ofNat 256 l))
  | none =>
    let wid := s.widOf sid
    if 0x800000000000 ≤ dva then (s, .error (xlate dva .fetch 32)) else
    match s.pageCheck wid sid dva 32 .fetch with
    | .error f => (s, .error f)
    | .ok (a, _) =>
      let (s, bad) := s.readGranule wid (partyOf sid) dva a false
      if bad then (s, .error (poisonAt dva .fetch 32)) else
      let n := leNat (Memory.readList s.mem a 32)
      let st := s.stream sid
      let room := if st.fetch.length < Config.fetchLines then st.fetch else st.fetch.tail
      (s.setStream sid { st with fetch := Tab.set room dva n }, .ok (BitVec.ofNat 256 n))

/-- A fetch from memory crosses the links to the line's home, and one of them waits to retransmit (R15, R16). -/
def State.fetchWaits (s : State) (sid dva : Nat) : Bool :=
  (Tab.find (s.stream sid).fetch dva).isNone && (match s.dpa (s.widOf sid) dva with | some a => !(s.readClear (s.widOf sid) (coreOf sid) (.dram a)) | none => false)

/-- The lane after lane k of a line that belongs to an engine, 8 if there is none. -/
def nextLane (l : Line) (e : Engine) (k : Nat) : Nat := Line.next l e (k + 1)

def State.isBe (s : State) (sid dva : Nat) : Bool := ((s.lineAt sid dva).map Line.be).getD false

/-- No text has more lines than device memory holds (Table 6.1). -/
def textFuel : Nat := 2 ^ 42

/-- Some line from a DVA to the end of its block holds a lane of the engine. -/
def State.lanesAhead (s : State) (sid : Nat) (e : Engine) : Nat → Nat → Bool
  | 0, _ => false
  | fuel + 1, dva =>
    match s.lineAt sid dva with
    | none => false
    | some l => decide (nextLane l e 0 < 8) || (!Line.be l && s.lanesAhead sid e fuel (dva + 32))

/-- The command whose lane the engine still stands at. -/
def Stream.standing (st : Stream) (e : Engine) : Option Cmd := st.cmds.find? fun c => c.eng == e && c.atLane

/-- Instructions of S that issue and then hold it: a realignment, a fence, or the swap of OVL (R79, R195, R196). -/
def holdsS : Instr → Bool
  | .mark => true
  | .fence _ _ _ => true
  | .ovl _ _ => true
  | _ => false

/-- An engine has issued the lane it stands at: a command that keeps it there (R177, R351), a wait (R72), or an instruction of S that is
not complete (R79, R195, R251, R255, R271, R394). A repeat prefix still has its repetitions to issue. -/
def State.stands (s : State) (sid : Nat) (e : Engine) : Bool :=
  let st := s.stream sid
  let es := st.eng' e
  (match es.rep with | some r => decide (r.n ≤ r.j + 1) | none => true) &&
  ((st.standing e).isSome ||
    (e == .s && (st.wait.isSome || st.trap == some false ||
      (st.cmds.any fun c => c.eng == .s && c.atLane && (match c.kind with | .flip _ _ => true | .revoke _ _ _ => true | .stat _ _ _ _ _ => true | _ => false)) ||
      (es.hold == .order && (match s.lineAt sid es.line with
       | none => false
       | some l => match decodeLane .s (Line.word l es.lane) (Line.xOf l es.lane) with
         | .ok ln => holdsS ln.instr
         | .error _ => false)))))

/-- The first lane index of its line that an engine has not issued yet; 8 where it has passed the line. -/
def State.unissued (s : State) (sid : Nat) (e : Engine) : Nat :=
  let es := (s.stream sid).eng' e
  if es.lane = 0 then 1 else if 8 ≤ es.lane then 8 else if s.stands sid e then es.lane + 1 else es.lane

/-- An engine stands at the top of an iteration of its innermost loop that begins at the body's first line. -/
def EngState.atTop (es : EngState) : Bool := es.loopTop && es.skip.isNone

/-- The open loops of an engine, innermost first, with the iterations each has left after the current one (R66). -/
def EngState.openLoops (es : EngState) : List (LoopFrame × Nat) :=
  es.loops.zipIdx.map fun p => (p.1, p.1.iters - (if es.atTop && p.2 == 0 then p.1.i else p.1.i + 1))

/-- A body ending at a line is left out after the line an engine stands at (R66, R343). Where the line has another such body, text goes on after the
longer one (assumption 151). -/
def EngState.leaveOut (es : EngState) (last : Nat) : EngState := { es with skip := some (Nat.max (es.skip.getD 0) last) }

/-- Where an engine's text goes on after the line it stands at: in the body of the outermost loop that has iterations left, else after
the line, or after the body of a loop of count 0 (R66, R68). -/
def EngState.onward (es : EngState) : Nat :=
  match (es.openLoops.filter fun p => decide (0 < p.2)).getLast? with
  | some p => p.1.first
  | none => es.skip.getD es.line + 32

/-- An engine lags when it still has lanes to issue in its block (R58). -/
def State.lags (s : State) (sid : Nat) (e : Engine) : Bool :=
  let es := (s.stream sid).eng' e
  if es.atEnd || es.ended then false
  else
    match s.lineAt sid es.line with
    | none => decide (es.lane < 8)
    | some l =>
      decide (Line.next l e (s.unissued sid e) < 8) ||
        (!(Line.be l && decide (es.onward = es.line + 32)) && s.lanesAhead sid e textFuel es.onward)

/-- Engine x does not keep engine e from a line visit by the slip window (R58): that visit puts e's count at most WIN above its, or it does not lag
in e's block. -/
def State.slipPast (s : State) (sid : Nat) (e x : Engine) : Bool :=
  let st := s.stream sid
  let es := st.eng' e
  let xs := st.eng' x
  x == e || xs.blk != es.blk || decide (es.visit + 1 ≤ st.winNow + xs.visit) || !(s.lags sid x)

/-- R58: an engine may begin a line visit when that puts its count at most WIN above the lowest of the lagging engines in
its block. -/
def State.slipOk (s : State) (sid : Nat) (e : Engine) : Bool := engines.all (s.slipPast sid e)

/-- Entries of a lane queue (R57). -/
def laneQueue : Nat := 32

/-- Lanes of an engine from a lane of a line of its text on, up to a line of a block, as far as S has decided the text; counted up to more
than a lane queue holds. -/
def State.lanesTo (s : State) (sid : Nat) (x : Engine) (blk line : Nat) : Nat → Nat → Nat → Nat → Nat → Nat
  | 0, _, _, _, n => n
  | fuel + 1, b, dva, k, n =>
    if laneQueue < n || blk < b || (b == blk && decide (line ≤ dva)) then n else
    match s.lineAt sid dva with
    | none => n
    | some l =>
      let n := n + ((List.range 8).filter fun j => decide (k ≤ j) && Line.owns l x j).length
      if Line.be l then (match Tab.find (s.stream sid).blocks (b + 1) with | some d => s.lanesTo sid x blk line fuel (b + 1) d 1 n | none => n)
      else s.lanesTo sid x blk line fuel b (dva + 32) 1 n

/-- Where the lanes that take room in an engine's queue begin: at the lane it is to issue, or, while it is in loops, after the outermost of
them, whose lanes it reads again (assumption 77). -/
def State.queuedFrom (s : State) (sid : Nat) (x : Engine) : Nat × Nat :=
  let xs := (s.stream sid).eng' x
  match xs.loops.getLast? with
  | some f => (f.last, 8)
  | none => (xs.line, s.unissued sid x)

/-- The fetch unit can hand out the lanes of the line that engine e is to visit as far as engine x goes: if it is behind, its queue, to which the lines
before this one have gone, has room for the ones it has not issued (R57, R58). -/
def State.queuePast (s : State) (sid : Nat) (e x : Engine) : Bool :=
  let st := s.stream sid
  let es := st.eng' e
  let xs := st.eng' x
  let p := s.queuedFrom sid x
  x == e || xs.ended || decide (es.blk < xs.blk) || (xs.blk == es.blk && decide (es.line ≤ Nat.max xs.line p.1)) ||
    decide (s.lanesTo sid x es.blk es.line textFuel xs.blk p.1 p.2 0 ≤ laneQueue)

/-- The fetch unit can hand out the lanes of the line an engine is to visit. -/
def State.queuesOpen (s : State) (sid : Nat) (e : Engine) : Bool := engines.all (s.queuePast sid e)

/-- A FENCE of S names an engine. -/
def fenceNames (w : Nat) (e : Engine) : Bool := opOf w == 0x2B && bits w 7 5 / 2 ^ (5 - e.code) % 2 == 1

/-- A FENCE's mask names an engine: S, V, M, C and F from bit 4 down (Table 4.10). -/
def inMask (mask : BitVec 5) (e : Engine) : Bool := mask.getLsbD (5 - e.code)

/-- The innermost loop that brings an engine to a line again. -/
def EngState.back (es : EngState) (line : Nat) : Option LoopFrame :=
  (es.openLoops.find? fun p => decide (p.1.first ≤ line) && decide (line ≤ p.1.last) && decide (0 < p.2)).map (·.1)

/-- An engine is in a loop around a line. -/
def EngState.around (es : EngState) (line : Nat) : Bool := es.loops.any fun f => decide (f.first ≤ line) && decide (line ≤ f.last)

/-- Every named engine has issued its lanes before the FENCE, and its commands have completed (R196): by line visits, or, where its loops are
not S's, by the place of the FENCE's line in the text (assumption 105). -/
def Stream.fenceReached (st : Stream) (mask : BitVec 5) (blk visit line : Nat) : Bool :=
  [Engine.v, .m, .c, .f].all fun e =>
    let es := st.eng' e
    !inMask mask e || ((es.ended || decide (blk < es.blk) || (es.blk == blk && (es.atEnd || decide (visit ≤ es.visit) || (es.visit + 1 == visit && (es.lane == 0 || decide (8 ≤ es.lane))) ||
      (decide (line < es.line) && (es.back line).isNone) || (es.line == line && es.lane == 0 && !((st.eng' .s).around line))))) &&
      !(st.cmds.any fun c => c.eng == e && !c.done))

/-- The duty of a FENCE (R196), and whether it is complete. A release is that of the engines named: S's stores, and the writes on
their way that any of them has met, S's retired stores among these, which a token may have shown them (R192); what the others write is
at its home when their commands complete. An acquire is of the releases whose values the named engines have read, as
far as the scope reaches them. -/
def State.fenceDuty (s : State) (sid : Nat) (sc : Scope) (k : FenceKind) (mask : BitVec 5) (blk visit line : Nat) : State × Bool :=
  if !((s.stream sid).fenceReached mask blk visit line) then (s, false) else
  let own := if inMask mask .s then s.cumulative sid else s.retiredSet sid
  let (s, ok) := if k == .acq || own.isEmpty then (s, true) else let t := s.flush own (scopeLevel sc) flushFuel; (t, t.reached own (scopeLevel sc))
  if !ok then (s, false) else
  let s := if inMask mask .s then s.dropEarly sid else s
  if k == .rel then (s, true) else
  let mine (m : Nat × RelMark) : Bool := [Engine.s, .v, .m, .c, .f].any fun e => e.code == m.1 && inMask mask e
  let st := s.stream sid
  if st.acqs.isEmpty then (s, true) else
  let hit (m : Nat × RelMark) : Bool := mine m && m.2.reaches sc (coreOf sid)
  ((s.setStream sid { st with acqs := st.acqs.filter fun m => !hit m }).acquire sid sc ((st.acqs.filter hit).map (·.2)), true)

/-- An S store has not retired yet. -/
def State.unretired (s : State) (sid : Nat) : List Store :=
  (List.range 4).flatMap fun l => (s.at l).filter fun x => x.sid == sid && decide (l < x.retireLevel) && decide (l < x.homeLevel)

/-- S has nothing left to retire before a command of its own: no store, and no other command before it in the list. -/
def State.retiredTo (s : State) (sid : Nat) (c : Cmd) : Bool :=
  !((s.unretired sid).any fun x => decide (x.id < c.id)) && !(((s.stream sid).cmds.takeWhile fun d => d.id != c.id).any fun d => d.eng == .s)

/-- A command of S that stands beside it retires, pushing its token. -/
def State.retireBeside (s : State) (sid : Nat) (c : Cmd) : State :=
  let st := s.stream sid
  (s.setStream sid ({ st with cmds := st.cmds.filter fun d => d.id != c.id }.pushOrWait .s c.ts)).progress sid

/-- A command that S has left at its lane retires beside it. -/
def State.leaveBeside (s : State) (sid : Nat) (c : Cmd) : State := if c.atLane then s else s.retireBeside sid c

/-- What stands beside S and is complete retires: the FENCEs that do not hold S and whose duty is done (R331), the ends of its loops whose lanes
have retired (R342), and what S has left at its lane. An AREVOKE is complete when the old lessee's operations are (R251). -/
def State.tryFences (s : State) (sid : Nat) : State :=
  (s.stream sid).cmds.foldl (fun s c =>
    match c.kind with
    | .fence sc k mask blk visit =>
      if c.faulted then s else
      let (s, ok) := s.fenceDuty sid sc k mask blk visit c.line
      if ok then s.retireBeside sid c else s
    | .loopEnd => if c.eng == .s && s.retiredTo sid c then s.retireBeside sid c else s
    | .revoke first count _ =>
      if (List.range count).all fun i => s.arrayIdle (first + i) then
        (s.setStream sid { s.stream sid with cmds := (s.stream sid).cmds.map fun x => if x.id = c.id then { x with done := true } else x }).leaveBeside sid c
      else s
    | .stat ids d an item wid =>
      if c.atLane || (s.bay (bayOf an)).writing.any ids.contains then s
      else
        let st := s.stream sid
        (s.setStream sid { st with s := if d = 0 then st.s else Tab.set st.s d.val (BitVec.ofNat 64 (s.statWord an item wid)) }).leaveBeside sid c
    | .flip _ _ => if c.done then s.leaveBeside sid c else s
    | _ => s) s

/-- The line an engine visits next after it has passed the one it stands at, loops aside: the line it is to begin, or the next one, after the
body of a loop of count 0 or the last line of its innermost loop. -/
def EngState.upNext (es : EngState) : Nat :=
  if es.lane = 0 then es.line
  else match (if es.atTop then es.loops.head? else none) with
    | some f => f.last + 32
    | none => es.skip.getD es.line + 32

/-- The farthest line up to a bound that S may visit next after a line: the next one, or the one after the body of a LOOP at a lane from k on, which it
leaves out where the count is 0 (R66). -/
def State.hop (s : State) (sid k dva bound : Nat) : Nat :=
  match s.lineAt sid dva with
  | none => dva + 32
  | some l => (List.range 8).foldl (fun n i =>
      match (if k ≤ i && Line.owns l .s i && opOf (Line.word l i) == 0x01 then decodeLane .s (Line.word l i) (Line.xOf l i) else .error .unassigned) with
      | .ok ln => (match ln.instr with | .loop _ _ _ body _ _ _ => if dva + 32 * (body.val + 2) ≤ bound then Nat.max n (dva + 32 * (body.val + 2)) else n | _ => n)
      | .error _ => n) (dva + 32)

/-- The fewest line visits by which S comes from a line, that one included, to another one: it may leave out the bodies of the loops that it has not
opened yet. -/
def State.visitsTo (s : State) (sid bound : Nat) : Nat → Nat → Nat → Nat
  | 0, _, _ => 0
  | fuel + 1, k, dva => if bound ≤ dva then 0 else s.visitsTo sid bound fuel 1 (s.hop sid k dva bound) + 1

/-- As `visitsTo`, with the fuel that is always enough. -/
def State.fewest (s : State) (sid k dva bound : Nat) : Nat := s.visitsTo sid bound ((bound - dva) / 32 + 1) k dva

/-- The lowest number of the line visit at which S may come next to lane i of a line of its block, by its open loops (R58): `v` is the number of its
visit to line p, whose lanes it is to issue from k on. Where it has no LOOP to open on the way, that is the number. -/
def State.nextVisit (s : State) (sid line i : Nat) : List (LoopFrame × Nat) → Nat → Nat → Nat → Option Nat
  | [], v, p, k => if p < line || (p == line && decide (k ≤ i)) then some (v + s.fewest sid k p line) else none
  | (f, left) :: fs, v, p, k =>
    let last := v + s.fewest sid k p (f.last + 32)
    if (p < line || (p == line && decide (k ≤ i))) && decide (line ≤ f.last) then some (v + s.fewest sid k p line)
    else if f.first ≤ line && line ≤ f.last && decide (0 < left) then some (last + s.fewest sid 1 f.first line)
    else s.nextVisit sid line i fs (last + left * s.fewest sid 1 f.first (f.last + 32)) (f.out + 32) 1

/-- The lowest number of S's next visit to lane i of a line of its block; none where it has passed it. -/
def State.nextAt (s : State) (sid line i : Nat) : Option Nat :=
  let ss := (s.stream sid).eng' .s
  if ss.skip.isNone && decide (0 < ss.lane) && decide (ss.lane < 8) then s.nextVisit sid line i ss.openLoops ss.visit ss.line ss.lane
  else s.nextVisit sid line i ss.openLoops (ss.visit + 1) ss.upNext 1

/-- The first line that S will pass again or is at. -/
def EngState.firstLine (ss : EngState) : Nat := ((ss.openLoops.filter fun p => decide (0 < p.2)).map (·.1.first)).foldl Nat.min ss.line

/-- The farthest line that S may come to by n line visits from a line on. -/
def State.reach (s : State) (sid : Nat) : Nat → Nat → Nat → Nat
  | 0, _, dva => dva
  | n + 1, k, dva => s.reach sid n 1 (s.hop sid k dva (dva + 2 ^ 17))

/-! ### What an engine waits for -/

/-- A complete command of an engine waits for room in its token FIFO: the engine issues nothing further (R63). -/
def stuck (e : Engine) : List Cmd → Bool
  | [] => false
  | c :: cs => if c.eng != e then stuck e cs else if c.done && !c.atLane then true else if e == .c then false else stuck e cs

/-- The instruction of the lane an engine stands at. -/
def State.laneOf (s : State) (sid : Nat) (e : Engine) : Option Instr :=
  let es := (s.stream sid).eng' e
  match s.lineAt sid es.line with
  | none => none
  | some l => match decodeLane e (Line.word l es.lane) (Line.xOf l es.lane) with
    | .ok ln => some ln.instr
    | .error _ => none

/-- Rows in the C→V FIFO and rows still owed to it (R172). -/
def Stream.owed (st : Stream) : Nat :=
  st.vq.length + (st.cmds.filter fun c => !c.done && (match c.kind with | .scanRead _ _ _ _ vq _ => vq | .copy d _ => d.toVq | _ => false)).length

/-- A command that delivers into the C→V FIFO or the scratchpad in C issue order (R172). -/
def Cmd.delivers (c : Cmd) : Bool :=
  !c.done && (match c.kind with | .scanRead .. => true | .copy d _ => d.toVq | _ => false)

/-- The engines of its stream that an engine waits for as it stands: for a token or room for one, a scalar or a row or room for it, the slip window or a
lane queue, a FENCE, a block that S has to decide, or what S itself is ordered behind. -/
def State.waitsOn (s : State) (sid : Nat) (e : Engine) : List Engine :=
  let st := s.stream sid
  let es := st.eng' e
  let held := match es.hold with
    | .token x => if (st.fifo x e).isEmpty then [x] else []
    | .push x => if (st.fifo e x).length < Config.tokenDepth then [] else [x]
    | .scalar => (match s.laneOf sid e with
      | some (.qpush x _) => if (Tab.get [] st.scalars x.code).length < Config.scalarDepth then [] else [x]
      | _ => if (Tab.get [] st.scalars e.code).isEmpty then [Engine.s] else [])
    | .format => if st.fmtq.length < Config.formatDepth then [] else [Engine.m]
    | .slip => engines.filter fun x => !(s.slipPast sid e x && s.queuePast sid e x)
    | .command => if e == .v && st.vq.isEmpty && !(st.cmds.any Cmd.delivers) then [Engine.c] else []
    | .order => if e != .s then [Engine.s] else (match s.laneOf sid e with
      | some (.fence _ _ mask) => [Engine.v, .m, .c, .f].filter (inMask mask)
      | some (.ovl _ mask) => [Engine.v, .m, .c, .f].filter (inMask mask)
      | _ => [Engine.c])
    | .wait => []
    | .none => []
  held ++ es.push ++ (if stuck e st.cmds then (st.cmds.filterMap fun c => if c.eng == e && c.done && !c.atLane then c.ts else none).take 1 else []) ++
    (if e == .c && decide (16 ≤ st.owed) then [Engine.v] else []) ++
    (if e != .s && es.atEnd && !es.ended && (Tab.find st.blocks (es.blk + 1)).isNone then [Engine.s] else [])

/-- The engines that some engines wait for, by way of the ones these wait for too. -/
def State.waitClosure (s : State) (sid : Nat) : Nat → List Engine → List Engine
  | 0, l => l
  | n + 1, l => s.waitClosure sid n ((l ++ l.flatMap (s.waitsOn sid)).eraseDups)

/-- An engine does not go on before another one does. -/
def State.waitsFor (s : State) (sid : Nat) (a b : Engine) : Bool := (s.waitClosure sid 5 (s.waitsOn sid a)).contains b

/-! ### Places in the text -/

/-- A place in the text: block, line visit, lane; then its line. -/
structure Place where
  blk : Nat
  visit : Nat
  lane : Nat
  line : Nat
  deriving DecidableEq, Repr

def Place.before (a b : Place) : Bool :=
  decide (a.blk < b.blk) || (a.blk == b.blk && (decide (a.visit < b.visit) || (a.visit == b.visit && decide (a.lane < b.lane))))

def Cmd.place (c : Cmd) : Place := { blk := c.blk, visit := c.visit, lane := c.lane, line := c.line }
def Store.place (x : Store) : Place := { blk := x.blk, visit := x.visit, lane := x.lane, line := x.line }

/-- The line after a line of an engine's text, and its open loops there with the iterations each has left; none where the block ends. The loops it has
still to open it goes through once. -/
def State.lineAfter (s : State) (sid : Nat) : List (LoopFrame × Nat) → Nat → Option (List (LoopFrame × Nat) × Nat)
  | [], dva => if s.isBe sid dva then none else some ([], dva + 32)
  | (f, left) :: fs, dva =>
    if dva = f.last then (if 0 < left then some ((f, left - 1) :: fs, f.first) else s.lineAfter sid fs f.out) else some ((f, left) :: fs, dva + 32)

/-- An engine comes to a lane with an opcode before a place in the text, from lane k of a line on that it visits as number `visit` of a block. -/
def State.comesTo (s : State) (sid : Nat) (e : Engine) (op : Nat) (p : Place) : Nat → Nat → Nat → Nat → List (LoopFrame × Nat) → Nat → Bool
  | 0, _, _, _, _, _ => false
  | fuel + 1, blk, visit, k, loops, dva =>
    if p.blk < blk ∨ (p.blk = blk ∧ p.visit < visit) then false else
    match s.lineAt sid dva with
    | none => false
    | some l =>
      ((List.range 8).any fun j => decide (k ≤ j) && Line.owns l e j && opOf (Line.word l j) == op &&
          Place.before { blk := blk, visit := visit, lane := j, line := dva } p) ||
        (match s.lineAfter sid loops dva with
        | some (ls, d) => s.comesTo sid e op p fuel blk (visit + 1) 1 ls d
        | none => match Tab.find (s.stream sid).blocks (blk + 1) with
          | some d => s.comesTo sid e op p fuel (blk + 1) 1 1 [] d
          | none => false)

/-- An engine has still to issue a lane with an opcode that stands before a place in the text. -/
def State.opAhead (s : State) (sid : Nat) (e : Engine) (op : Nat) (p : Place) : Bool :=
  let st := s.stream sid
  let es := st.eng' e
  if es.ended then false
  else if es.atEnd then (match Tab.find st.blocks (es.blk + 1) with | some d => s.comesTo sid e op p textFuel (es.blk + 1) 1 1 [] d | none => false)
  else if es.lane = 0 then s.comesTo sid e op p textFuel es.blk (es.visit + 1) 1 es.openLoops es.line
  else if es.lane < 8 then s.comesTo sid e op p textFuel es.blk es.visit (s.unissued sid e) es.openLoops es.line
  else match s.lineAfter sid es.openLoops (es.upNext - 32) with
    | some (ls, d) => s.comesTo sid e op p textFuel es.blk (es.visit + 1) 1 ls d
    | none => match Tab.find st.blocks (es.blk + 1) with
      | some d => s.comesTo sid e op p textFuel (es.blk + 1) 1 1 [] d
      | none => false

/-- A flip of a gate over an address by a command of C, by its flag, or of S (R268). -/
def State.willFlip (s : State) (sid : Nat) (c : Cmd) (a : Nat) : Bool :=
  let covers (g : Option Gate) : Bool := match g with | some g => g.covers (s.widOf sid) a | none => false
  match c.kind with
  | .copy _ (some (f, _, _, _)) => covers (s.gateAt (s.widOf sid) f)
  | .flip dpa _ => covers (s.gates.find? fun g => g.dpa == dpa)
  | _ => false

/-- The opcode of the lanes by which an engine flips gates: GFLIP of S, CCOPYF of C. -/
def flipOp (e : Engine) : Nat := if e == .s then 0x3A else 0x0E

/-- A write of n bytes of a gated range at a place of the text waits for a flip by the stream's other flipping engine, x, that stands before it in the
text: one under way, or one of a lane that x has still to issue, since it is judged after that flip (R268, Table 11.5). Where x waits for the writing
engine `me`, the flip cannot come first (assumption 150). -/
def State.flipBefore (s : State) (sid : Nat) (me x : Engine) (p : Place) (dva n : Nat) : Bool :=
  let gated (a : Nat) : Bool := match s.page (s.widOf sid) a with | some q => q.cls == 2 | none => false
  (gated dva || gated (dva + n - 1)) && !(s.firmware sid) &&
    (((s.stream sid).cmds.any fun c => c.eng == x && !c.done && c.place.before p && (s.willFlip sid c dva || s.willFlip sid c (dva + n - 1))) || s.opAhead sid x (flipOp x) p) &&
    !(s.waitsFor sid x me)

/-- A write of S at its lane waits so. -/
def State.flipFirst (s : State) (dva n : Nat) : Bool :=
  s.flipBefore s.cur.sid .s .c { blk := s.myEng.blk, visit := s.myEng.visit, lane := s.cur.lane, line := s.cur.line } dva n

/-- S holds at its lane for what it is ordered behind. -/
def State.holdOrder (s : State) : Result := .next ((s.setMyEng { s.myEng with hold := .order }).held)

/-! ### Engines behind a FENCE -/

/-- An engine that is to visit a line comes to the accesses after a FENCE: by the number of the visit, or past its line in the text, where
neither S nor the engine comes there again (R196; assumption 105). -/
def behindFence (ss es : EngState) (line visit : Nat) : Bool :=
  decide (visit ≤ es.visit + 1) || (!(ss.around line) && (line == es.line || (decide (line < es.line) && (es.back line).isNone)))

/-- S has no LOOP to open before it comes to a line: the number of its visit there is certain. -/
def State.certain (s : State) (sid line : Nat) : Bool :=
  let ss := (s.stream sid).eng' .s
  let last := ((ss.openLoops.filter fun p => decide (0 < p.2)).map (·.1.last + 32)).foldl Nat.max line
  !((List.range ((last - ss.firstLine) / 32)).any fun n =>
    let dva := ss.firstLine + 32 * n
    match s.lineAt sid dva with
    | some l => (List.range 8).any fun i => decide ((if dva = ss.line && ss.firstLine == ss.line then Nat.max 1 ss.lane else 1) ≤ i) && Line.owns l .s i && opOf (Line.word l i) == 0x01
    | none => false)

/-- A FENCE that S has still to come to in the block holds an engine that it names, by the lowest number that S's visit there may have: an engine
issues no access that may turn out to be after the FENCE, but for one where S, which has still to open a LOOP on its way there, waits for the engine
(R196; assumption 105). -/
def State.fenceAhead (s : State) (sid : Nat) (e : Engine) : Bool :=
  let st := s.stream sid
  let es := st.eng' e
  let ss := st.eng' .s
  let v := if ss.lane = 0 then ss.visit + 1 else ss.visit
  let top := Nat.max es.line (s.reach sid (es.visit + 1 - v) (Nat.max 1 ss.lane) ss.line)
  let lines := (List.range ((top - ss.firstLine) / 32 + 1)).map fun n => ss.firstLine + 32 * n
  let ends := lines.find? fun dva => decide (ss.line ≤ dva) && s.isBe sid dva
  e != .s && ss.blk == es.blk && !ss.ended && !ss.atEnd && lines.any fun dva =>
    (match ends with | some b => decide (dva ≤ b) | none => true) && (match s.lineAt sid dva with
      | none => false
      | some l => (List.range 8).any fun i => decide (1 ≤ i) && Line.owns l .s i && fenceNames (Line.word l i) e && (match s.nextAt sid dva i with
        | none => false
        | some n => behindFence ss es dva n && (s.certain sid dva || !(s.waitsFor sid .s e))))

/-- A FENCE that names the engine holds it (R196, R331): one that S has issued, in the list or at S's lane, at the accesses after it; one that S
has still to come to (assumption 105). -/
def State.fenced (s : State) (sid : Nat) (e : Engine) : Bool :=
  let st := s.stream sid
  let es := st.eng' e
  let ss := st.eng' .s
  (st.cmds.any fun c => match c.kind with
    | .fence _ _ mask blk visit => inMask mask e && (decide (blk < es.blk) || (es.blk == blk && behindFence ss es c.line visit))
    | _ => false) ||
  (e != .s && ss.blk == es.blk && !ss.ended && ss.hold == .order && behindFence ss es ss.line ss.visit && (match s.lineAt sid ss.line with
      | some k => decide (1 ≤ ss.lane) && Line.owns k .s ss.lane && fenceNames (Line.word k ss.lane) e
      | none => false)) || s.fenceAhead sid e

/-! ### Blocks (R59, R60) -/

/-- S stands at the start of a block, before its first visit. -/
def Stream.sAtStart (st : Stream) : Bool := let ss := st.eng' .s; ss.visit == 0 && ss.lane == 0 && !ss.ended

/-- The other engines of a stream have finished the blocks before the one S is about to begin, or the one its wait ends, or
its last (R72, R74). -/
def Stream.drained (st : Stream) : Bool :=
  let ss := st.eng' .s
  (st.sAtStart || st.wait.isSome || ss.ended) &&
  [Engine.v, .m, .c, .f].all fun e =>
    let es := st.eng' e
    es.ended ||
    (if st.wait.isSome || ss.ended then es.blk == ss.blk && es.atEnd
     else (es.blk + 1 == ss.blk && es.atEnd) || (es.blk == ss.blk && es.visit == 0 && es.lane == 0))

/-- The stream must not begin another block: a switch to a stream that can take over is due (R74), what follows its YIELD is to be decided
(R421), or lockdown parks it (R290). -/
def State.stopAtBoundary (s : State) (sid : Nat) : Bool :=
  ((s.core (coreOf sid)).switch && (s.stream (sid ^^^ 1)).run == Run.running) || (s.stream sid).yielding || (s.sec.lockdown != 0 && !(isService sid))

/-- An engine may begin a block: every engine stops where S stands at a boundary the stream must not cross. A block that another engine has
begun is gone through by all (R60). -/
def State.mayBegin (s : State) (sid : Nat) (b : Nat) : Bool :=
  let st := s.stream sid
  let begun := [Engine.v, .m, .c, .f].any fun e => let es := st.eng' e; es.blk == b && (es.visit != 0 || es.lane != 0 || es.atEnd)
  !(s.stopAtBoundary sid && st.sAtStart && (st.eng' .s).blk == b && !begun)

/-- An engine that has finished its block starts on the successor, once S has decided it. -/
def State.enterBlock (s : State) (sid : Nat) (e : Engine) : State :=
  let st := s.stream sid
  let es := st.eng' e
  match Tab.find st.blocks (es.blk + 1) with
  | some line =>
    if s.mayBegin sid (es.blk + 1) then
      s.setStream sid (st.setEng e { es with line := line, lane := 0, blk := es.blk + 1, visit := 0, atEnd := false, hold := .none })
    else s
  | none => s

/-! ### Loops (R66 to R69) -/

/-- An engine goes past a line that no loop of its ends at: to the end of the block, or the next line. Where S comes past a line with BE whose
block-ending instruction its gate has kept from acting, the successor is the next line, as of a line without one: R59 names none (assumption 145). -/
def State.pastLine (s : State) (sid : Nat) (e : Engine) (line : Nat) : State :=
  let st := s.stream sid
  let es := st.eng' e
  if s.isBe sid line then
    if e = .s then s.setStream sid (st.branchTo (line + 32))
    else s.setStream sid (st.setEng e { es with line := line, lane := 8, atEnd := true, skip := none })
  else s.setStream sid (st.setEng e { es with line := line + 32, lane := 0, skip := none })

/-- What follows the line an engine has passed: the iteration of a loop that ends there, the end of the block, or the
next line. -/
def State.afterLine (s : State) (sid : Nat) (e : Engine) (line : Nat) : State :=
  let st := s.stream sid
  let es := st.eng' e
  match es.loops with
  | f :: fs =>
    if f.last = line then
      let es := { es with loops := { f with i := f.i + 1 } :: fs, loopTop := true, lane := 8, skip := none,
                          g := if f.stages = 0 then es.g else es.g <<< 1 }
      s.setStream sid { st.setEng e es with rot := if f.rot then (st.rot + 1) % 16 else st.rot }
    else s.pastLine sid e line
  | [] => s.pastLine sid e line

/-- Complete commands of an engine leave the list, pushing their tokens: those of C in program order, those of M each at its own
completion (Table 8.1, Table 8.2). One that finds its FIFO full stays, and holds its engine (R63). -/
def retireList (e : Engine) : List Cmd → Stream → List Cmd × Stream
  | [], st => ([], st)
  | c :: cs, st =>
    if c.eng != e then let r := retireList e cs st; (c :: r.1, r.2)
    else if c.done && !c.atLane then
      match c.ts with
      | none => retireList e cs st
      | some d =>
        match st.push e d true with
        | some st => retireList e cs st
        | none => (c :: cs, st)
    else if e == .c then (c :: cs, st)
    else let r := retireList e cs st; (c :: r.1, r.2)

/-- The end of a loop of M is complete once no command of M is left before it (R342). -/
def endLoops (e : Engine) : Bool → List Cmd → List Cmd
  | _, [] => []
  | before, c :: cs =>
    let c := if c.eng == e && e != .s && c.kind == .loopEnd && !before then { c with done := true } else c
    c :: endLoops e (before || (c.eng == e && !c.done)) cs

def State.retireCmds (s : State) (sid : Nat) (e : Engine) : State :=
  let st := s.stream sid
  let (cs, st') := retireList e (endLoops e false st.cmds) st
  let gone := st.cmds.filter fun c => !(cs.any fun d => d.id == c.id)
  let s := s.setStream sid { st' with cmds := cs }
  let s := if gone.isEmpty then s else s.progress sid
  gone.foldl (fun s c => match c.kind with
    | .note t => s.notifyWorld (s.widOf sid) sid e.code t (s.stream sid).ident.iter
    | _ => s) s

/-- Some command of the engine has not retired. -/
def Stream.busy (st : Stream) (e : Engine) : Bool := st.cmds.any fun c => c.eng == e

/-- A lane's TS at its retirement. C retires in program order: a lane that has had its effect queues behind the commands before it
(R188). -/
def State.retireToken (s : State) (sid : Nat) (e : Engine) (line lane : Nat) (ts : Option Engine) : State :=
  let st := s.stream sid
  if e == .c && st.busy e && ts.isSome then
    { s.setStream sid { st with cmds := st.cmds ++ [{ id := s.nextId, eng := e, kind := .lane, ts := ts, line := line, lane := lane,
                                                      base := 0, x := 0, done := true,
                                                      blk := (st.eng' e).blk, visit := (st.eng' e).visit }] } with nextId := s.nextId + 1 }
  else s.setStream sid (st.pushOrWait e ts)

/-- The LOOP of a loop that has ended retires, which is progress (R88), and pushes its TS once every lane of its last iteration has retired
(R342): at once, or behind the stores and commands of its engine. -/
def State.loopToken (s : State) (sid : Nat) (e : Engine) (line : Nat) (ts : Option Engine) : State :=
  let st := s.stream sid
  if st.busy e || (e == .s && !(s.unretired sid).isEmpty) then
    { s.setStream sid { st with cmds := st.cmds ++ [{ id := s.nextId, eng := e, kind := .loopEnd, ts := ts, line := line, lane := 0, base := 0, x := 0
                                                      done := e == .c, blk := (st.eng' e).blk, visit := (st.eng' e).visit }] } with nextId := s.nextId + 1 }
  else (s.setStream sid (st.pushOrWait e ts)).progress sid

/-- The innermost loop has run its iterations: its LOOP retires, rot returns to 0, its TS token is due, and text goes on after it. -/
def State.closeLoop (s : State) (sid : Nat) (e : Engine) (f : LoopFrame) (fs : List LoopFrame) : State :=
  let st := s.stream sid
  let st := st.setEng e { st.eng' e with loops := fs, loopTop := false, hold := .none }
  let st := { st with rot := if f.rot then 0 else st.rot }
  ((s.setStream sid st).loopToken sid e (f.first - 32) f.ts).afterLine sid e f.out

/-- The top of an iteration (R68): the iteration token of a loop with T, whose pop is progress (R88), the stage predicate, and the first body line; or
what follows the body that a LOOP of count 0 or gated off on the same line leaves out of iteration 0 (R66, R343; assumption 151). -/
def State.loopStep (s : State) (sid : Nat) (e : Engine) : State :=
  let st := s.stream sid
  let es := st.eng' e
  match es.loops with
  | [] => s.setStream sid (st.setEng e { es with loopTop := false })
  | f :: fs =>
    if f.iters ≤ f.i then s.closeLoop sid e f fs else
    let begin' (s : State) (f : LoopFrame) : State :=
      let st := s.stream sid
      let es := st.eng' e
      let g := if f.stages = 0 then es.g else (es.g &&& 0xFE) ||| (if f.opn && decide (f.i < f.count) then 1 else 0)
      let es := { es with loops := f :: fs, loopTop := false, g := g, hold := .none }
      match es.skip with
      | none => (s.setStream sid (st.setEng e { es with line := f.first, lane := 0 })).progress sid
      | some k => ((s.setStream sid (st.setEng e { es with skip := none })).progress sid).afterLine sid e k
    if f.opn && decide (f.i < f.count) && f.tok then
      match st.pop .s e with
      | none => s.setStream sid (st.setEng e { es with hold := .token .s })
      | some (true, st) => begin' (s.setStream sid st) f
      | some (false, st) =>
        let n := Nat.max f.stages 1
        let f := { f with opn := false, iters := f.i + n - 1 }
        let s := (s.setStream sid st).progress sid
        if f.iters ≤ f.i then s.closeLoop sid e f fs else begin' s f
    else begin' s f

/-! ### A lane's issue -/

/-- What is left of an engine's turn before the meaning of a lane: nothing more to do, or an instruction to run. -/
inductive Prep
  | done (s : State)
  | run (i : Instr) (s : State)

/-- Some engine has still to go through its lanes before the bad line that an engine has come to, and does not wait for one that stands there (R109). -/
def State.stragglers (s : State) (sid : Nat) (e : Engine) : Bool :=
  let st := s.stream sid
  let es := st.eng' e
  let behind (x : Engine) : Bool := let xs := st.eng' x; !xs.ended && (decide (xs.blk < es.blk) || (xs.blk == es.blk && decide (xs.line < es.line)))
  engines.any fun x => behind x && !(engines.any fun y => !(behind y) && s.waitsFor sid x y)

/-- The engine begins a line visit (R58): the slip window, the fetch, and the line's own faults (R108, R109). A fault of the text
itself, with any code, is at lane 0 (assumption 64). On a service core, whose handler takes all engines away, an ILLINE is raised when
the others have come to the line (R109; assumption 7). -/
def State.beginVisit (s : State) (sid : Nat) (e : Engine) : State :=
  let st := s.stream sid
  let es := st.eng' e
  if es.visit = 0 ∧ ¬ s.mayBegin sid es.blk then s
  else if !(s.slipOk sid e && s.queuesOpen sid e) then s.setStream sid (st.setEng e { es with hold := .slip })
  else if s.fetchWaits sid es.line then s.setStream sid (st.setEng e { es with hold := .order })
  else
    match s.fetch sid es.line with
    | (s, .error f) => s.raise sid e es.line 0 false f
    | (s, .ok l) =>
      match Line.error l with
      | some _ =>
        if isService sid && s.stragglers sid e then s.setStream sid ((s.stream sid).setEng e { (s.stream sid).eng' e with hold := .order })
        else s.raise sid e es.line 0 false { code := 0x01 }
      | none =>
        let s := s.tryFences sid
        let st := s.stream sid
        let es := st.eng' e
        if s.fenced sid e then s.setStream sid (st.setEng e { es with hold := .order })
        else s.setStream sid (st.setEng e { es with visit := es.visit + 1, lane := nextLane l e (es.first - 1), first := 0, hold := .none })

/-- The staged loop of an engine (R67 admits one). -/
def EngState.staged (es : EngState) : Option LoopFrame := es.loops.find? fun f => f.stages != 0

/-- A lane's gate field names no predicate of an active staged loop (R96). -/
def EngState.badGate (es : EngState) (g : Nat) : Bool :=
  g != 0 && (match es.staged with | none => true | some f => decide (f.stages < g))

/-- A LOOP its engine may not open (R67, Table 3.1, R110): its level is active, it stages in a staged loop, it rotates in a rotating
one, or its body leaves its block or the loop around it. -/
def State.badLoop (s : State) (sid : Nat) (e : Engine) (lvl body stages : Nat) (rot : Bool) : Bool :=
  let es := (s.stream sid).eng' e
  let last := es.line + 32 * (body + 1)
  es.loops.any (fun f => f.lvl == lvl) || (stages != 0 && es.staged.isSome) || (rot && es.loops.any fun f => f.rot) ||
    ((List.range (body + 1)).any fun i => s.isBe sid (es.line + 32 * i)) || es.loops.any fun f => decide (f.last < last)

/-- A REP with a token or gate field of its own (R71). -/
def badRep (i : Instr) (w : Nat) : Bool :=
  match i with
  | .rep _ _ _ _ _ => bits w 17 9 != 0
  | _ => false

/-- The next lane of an engine in the text after a lane, up to the end of its block and of the loop body `own` it is in. A lane up to
`inside` stands in the body of a loop that opens on this line, where a REP may have no target (R71, R371). A line that is not mapped
holds none (assumption 123). -/
def State.laneAfter (s : State) (sid : Nat) (e : Engine) (own : Option Nat) (here inside : Nat) : Nat → Nat → Nat → Option (Nat × Option Nat)
  | 0, _, _ => none
  | fuel + 1, dva, k =>
    match s.lineAt sid dva with
    | none => none
    | some l =>
      let j := nextLane l e k
      if j < 8 then (if dva ≠ here ∧ dva ≤ inside then none else some (Line.word l j, Line.xOf l j))
      else if Line.be l || own == some dva then none else s.laneAfter sid e own here inside fuel (dva + 32) 0

/-- A word that names an instruction REP may not repeat, whatever its other fields hold (R71). -/
def noTarget (e : Engine) (w : Nat) : Bool := opOf w == 0x01 || opOf w == 0x02 || (e == .s && blockEnding w)

/-- A REP at the lane an engine stands at has no target it may repeat with these steps (R71, R371). -/
def State.badTarget (s : State) (sid : Nat) (e : Engine) (dA dB dC : Int) : Bool :=
  let es := (s.stream sid).eng' e
  let own := (es.loops.find? fun f => f.first != es.line + 32).map (·.last)
  let inside := ((es.loops.filter fun f => f.first == es.line + 32).map (·.out) ++ es.skip.toList).foldl Nat.max 0
  match s.laneAfter sid e own es.line inside textFuel es.line es.lane with
  | none => true
  | some (w, x) =>
    noTarget e w || (match formatUses e w (x.getD 0) with | some u => badStep u dA dB dC | none => false)

/-- A CSR number that a stream's CSRR, or CSRW, may not name (R107). Outside firmware a privileged one takes PRIV. -/
def State.badCsr (s : State) (sid n : Nat) (write : Bool) : Bool :=
  if n < 0x100 then (if write then !([5, 6, 7, 0xB].contains n || (n == 1 && s.firmware sid)) else !(decide (n ≤ 0xB) || (decide (0x10 ≤ n) && decide (n ≤ 0x13))))
  else
    (write && (n == 0x102 || n == 0x130)) ||
      (s.firmware sid && !([0x110, 0x120, 0x121, 0x122, 0x128, 0x129, 0x130, 0x131].contains n || (isService sid && decide (n ≤ 0x104))))

/-- The encodings that are ILLOP where they stand, beyond what decoding refuses: they fault at each issue slot, gated or not, before a
token is taken (R110, R111). -/
def State.illegal (s : State) (sid : Nat) (e : Engine) (i : Instr) : Bool :=
  match i with
  | .loop _ lvl _ body st rot tok => (rot && e != .v) || (tok && e == .s) || s.badLoop sid e lvl.val body.val st.val rot
  | .rep _ _ dA dB dC => s.badTarget sid e dA.toInt dB.toInt dC.toInt
  | .csrr _ c => s.badCsr sid c.toNat false
  | .csrw _ c => s.badCsr sid c.toNat true
  | .sev _ user ev => sevMask user ev == 0
  | .eret => !isService sid
  | .halt => !isService sid
  | .vgath _ _ _ _ sz => sz == .d
  | .vscat _ _ _ _ sz => sz == .d
  | .vtype t => decide (6 ≤ t.code)
  | .vcvt d a _ f t _ _ _ => decide (32 < a.val + cvtCount f t * tyBytes f / 1024) || decide (32 < d.val + cvtCount f t * tyBytes t / 1024)
  | .rnext d _ => d == 0 || d == 31
  | .ovl _ mask => !inMask mask .s
  | .wevt _ mask => mask == 0
  | _ => false

/-- The uses that are ILLOP by a register or by VTY (R73, R86, R110, R306, R391, R394): a lane that acts takes no token then either. -/
def State.misused (s : State) (i : Instr) : Bool :=
  match i with
  | .sev a _ _ => decide (1024 ≤ (s.getS a).toNat)
  | .rnext _ a => decide (64 ≤ (s.getS a).toNat)
  | .vshl .. => isFloat s.me.vty
  | .vshr .. => isFloat s.me.vty
  | .vshrl .. => isFloat s.me.vty
  | .vgath _ _ _ _ sz => decide (sizeBytes sz ≠ tyBytes s.me.vty)
  | .vscat _ _ _ _ sz => decide (sizeBytes sz ≠ tyBytes s.me.vty)
  | .vdrop .. => !isFloat s.me.vty
  | .vred _ _ op => bitwiseRed op && isFloat s.me.vty
  | .bar _ c => s.getS c == 0 || decide (2 ^ 32 ≤ (s.getS c).toNat)
  | .tset _ _ b => decide ((if s.me.wide then 256 else 128) ≤ (s.getS b).toNat)
  | .trap a _ => s.me.trap.isNone && ((s.getS a).toNat == 0 || decide (8 < (s.getS a).toNat))
  | _ => false

/-- One issue slot of F passes: exposures run down (R75). -/
def Stream.fSlot (st : Stream) : Stream := { st with fres := st.fres.map fun r => { r with left := r.left - 1 } }

/-- R56: V, M, C or F is about to issue for a world other than its last: it first completes what it has in flight, and M clears
both planes. None while an operation of the core's other stream is still in flight there. -/
def State.enterWorld (s : State) (sid : Nat) (e : Engine) : Option State :=
  if e == .s then some s else
  let k := s.core (coreOf sid)
  let w := s.widOf sid + 1
  if Tab.get 0 k.lastWid e.code = w then some s
  else
    let o := s.stream (sid ^^^ 1)
    if o.run != Run.suspended && o.cmds.any fun c => c.eng == e && !c.done then none
    else some (s.setCore (coreOf sid)
      { k with lastWid := Tab.set k.lastWid e.code w, planeA := if e == .m then [] else k.planeA, planeS := if e == .m then [] else k.planeS })

/-- The engine goes to its next lane of the line, a repeat prefix first (R70). -/
def State.advance (s : State) (sid : Nat) (e : Engine) : State :=
  let st := s.stream sid
  let es := st.eng' e
  let l := (s.lineAt sid es.line).getD 0
  s.setStream sid (st.setEng e { es with lane := nextLane l e es.lane, rep := none, twDone := false, hold := .none })

/-- One repetition, or the whole of a lane, that its gate keeps from acting: an issue slot and nothing else (R68, R70). Each
repetition is decoded in its own slot (R111). A block-ending instruction so skipped selects no successor (assumption 145). -/
def State.skipGated (s : State) (sid : Nat) (e : Engine) : State :=
  let s := if e == .f then s.setStream sid (s.stream sid).fSlot else s
  let es := (s.stream sid).eng' e
  match es.rep with
  | some r =>
    if r.j + 1 < r.n then (s.setStream sid ((s.stream sid).setEng e { es with rep := some { r with j := r.j + 1, off := true }, hold := .none })).progress sid
    else (s.advance sid e).progress sid
  | none => (s.advance sid e).progress sid

/-- After the meaning of a lane: retirement, which is progress (R88) unless it waits behind commands of C (R188), and its token, the next repetition or the next lane (R63, R70, R189). -/
def State.settleLane (s : State) : State :=
  let sid := s.cur.sid
  let e := s.cur.eng
  let s := if e == .f && (s.out != .held && s.out != .faulted) then s.setStream sid (s.stream sid).fSlot else s
  match s.out with
  | .held => s
  | .faulted => s
  | .moved => (s.setStream sid ((s.stream sid).pushOrWait e s.cur.ts)).progress sid
  | o =>
    let s := if o == .deferred || (e == .c && (s.stream sid).busy e) then s else s.progress sid
    let st := s.stream sid
    let es := st.eng' e
    match es.rep with
    | some r =>
      if r.j + 1 < r.n then s.setStream sid (st.setEng e { es with rep := some { r with j := r.j + 1 }, twDone := true, hold := .none })
      else
        let s := s.advance sid e
        if o == .deferred then s else s.retireToken sid e s.cur.line s.cur.lane s.cur.ts
    | none =>
      let s := s.advance sid e
      if o == .deferred then s else s.retireToken sid e s.cur.line s.cur.lane s.cur.ts

/-- The issue of the engine's next lane up to its meaning: decoding at this slot (R111), the gate, and the TW pop. `cur` holds the word as
a repeat prefix has stepped it, and so does the DETAIL of a fault at this slot (assumption 73). -/
def State.beginIssue (s : State) (sid : Nat) (e : Engine) : Prep :=
  let st := s.stream sid
  let es := st.eng' e
  let l := (s.lineAt sid es.line).getD 0
  let w0 := Line.word l es.lane
  let x := Line.xOf l es.lane
  let w := match es.rep, decodeLane e w0 x with
    | some r, .ok ln => stepWord (fieldUses ln.instr) r w0
    | _, _ => w0
  let s := { s with cur := { sid := sid, eng := e, line := es.line, lane := es.lane, base := w, x := x.getD 0, ts := none }, out := .retired }
  match decodeLane e w x with
  | .error _ => .done s.illop
  | .ok ln =>
    if es.badGate ln.g.val || badRep ln.instr w || s.illegal sid e ln.instr then .done s.illop
    else if ln.g.val != 0 && (match es.rep with | some r => if r.j = 0 then !es.g.getLsbD (ln.g.val - 1) else r.off | none => !es.g.getLsbD (ln.g.val - 1)) then
      match ln.instr with
      | .loop _ _ _ body _ _ _ =>
        .done ((s.setStream sid ((s.stream sid).setEng e (((s.stream sid).eng' e).leaveOut (es.line + 32 * (body.val + 1))))).skipGated sid e)
      | _ => .done (s.skipGated sid e)
    else if s.misused ln.instr then .done s.illop
    else
      let last := match es.rep with | some r => decide (r.n ≤ r.j + 1) | none => true
      let s := { s with cur := { s.cur with ts := if last then ln.ts else none } }
      match s.enterWorld sid e with
      | none => .done (s.setStream sid (st.setEng e { es with hold := .order }))
      | some s =>
      match (if es.twDone then none else ln.tw) with
      | none => .run ln.instr s
      | some src =>
        match st.pop src e with
        | none => .done (s.setStream sid (st.setEng e { es with hold := .token src }))
        | some (v, st) => .run ln.instr (s.setStream sid (st.setEng e { es with twDone := true, twVal := v, hold := .none }))

/-- The core gives a stream the engines, and nothing has stopped the core (R55, R234). -/
def State.onCore (s : State) (sid : Nat) : Bool :=
  let c := s.core (coreOf sid)
  (isService sid || c.issuing == sid % 2) && !c.gated && !c.halted

/-- The stream may issue: it runs, its core gives it the engines, and nothing has stopped the core (R55, R74, R234, R290). -/
def State.mayIssue (s : State) (sid : Nat) : Bool := (s.stream sid).run == Run.running && s.onCore sid

/-- A line of the stream has taken ILLINE, and the engine has not come to it: it goes on through its lanes before that line (R109). -/
def Stream.behindBadLine (st : Stream) (e : Engine) : Bool :=
  match st.fault, st.faultEng with
  | some r, some x =>
    let es := st.eng' e
    let xs := st.eng' x
    st.run == Run.suspended && r.code == 1 && x != e && !es.ended && (decide (es.blk < xs.blk) || (es.blk == xs.blk && decide (es.line < r.line)))
  | _, _ => false

/-- Some engine of a stream still goes on through its lanes before a bad line: none of what holds an engine has stopped it (R109, R213). -/
def Stream.finishing (st : Stream) : Bool := engines.any fun e => st.behindBadLine e && (st.eng' e).hold == .none

/-- An engine before a bad line that a turn finds no way on for is held from then on (R213). -/
def State.settleBehind (s t : State) (sid : Nat) (e : Engine) : State :=
  if (s.stream sid).behindBadLine e && ((s.stream sid).eng' e).hold == .none && (s.stream sid).eng' e == (t.stream sid).eng' e then
    t.setStream sid ((t.stream sid).setEng e { (t.stream sid).eng' e with hold := .order })
  else t

/-- One turn of an engine up to the meaning of a lane. A line visit that finds a lane of the engine issues it in the
same turn. -/
def State.prepare (s : State) (sid : Nat) (e : Engine) : Prep :=
  let st := s.stream sid
  let es := st.eng' e
  if !(s.mayIssue sid || (st.behindBadLine e && s.onCore sid)) || es.ended then .done (s.tryFences sid)
  else if !es.push.isEmpty then .done (s.setStream sid (st.pushWaiting e))
  else if stuck e st.cmds then .done (s.retireCmds sid e)
  else if es.atEnd then .done ((s.tryFences sid).enterBlock sid e)
  else if e == .s && st.wait.isSome then .done (s.tryFences sid)
  else if es.lane = 0 then
    let s := s.beginVisit sid e
    let es := (s.stream sid).eng' e
    if ((s.stream sid).run == Run.running || st.behindBadLine e) && es.push.isEmpty && decide (0 < es.lane) && decide (es.lane < 8) then s.beginIssue sid e else .done s
  else if es.lane < 8 then s.beginIssue sid e
  else if es.loopTop then .done (s.loopStep sid e)
  else .done (s.afterLine sid e (es.skip.getD es.line))

/-- An engine's turn, given the meaning of instructions. -/
def State.engineTurn (run : Instr → State → Result) (s : State) (sid : Nat) (e : Engine) : Result :=
  match s.prepare sid e with
  | .done t => .next (s.settleBehind t sid e)
  | .run i u =>
    match run i u with
    | .next t => .next (s.settleBehind t.settleLane sid e)
    | .fault r => .fault r
    | .refused r => .refused r

/-- A command of the lane being issued. -/
def State.newCmd (s : State) (kind : CmdKind) : Cmd :=
  { id := s.nextId, eng := s.cur.eng, kind := kind, ts := s.cur.ts, line := s.cur.line, lane := s.cur.lane, base := s.cur.base, x := s.cur.x
    blk := s.myEng.blk, visit := s.myEng.visit, tw := s.popped }

def State.addCmd (s : State) (c : Cmd) : State := { s.setMe { s.me with cmds := s.me.cmds ++ [c] } with nextId := s.nextId + 1 }

/-! ### What lanes do to their engine's position -/

/-- The block-ending instruction retires: S selects the successor (R59, R60). -/
def State.branch (s : State) (line : Nat) : State := (s.setMe (s.me.branchTo line)).finish .moved

/-- The line after the one being issued. -/
def State.nextLine (s : State) : Nat := s.cur.line + 32

/-- A line DVA plus a signed count of lines, modulo 2⁶⁴. -/
def lineAdd (line : Nat) (n : Int) : Nat := (((line : Int) + 32 * n) % 2 ^ 64).toNat

/-- LOOP (R66 to R68), once its checks have passed: the level, the stages and T. With a count of 0 it retires and pushes its token as it
issues (R342). -/
def State.openLoop (s : State) (lvl cnt body stages : Nat) (rot tok : Bool) : State :=
  let e := s.cur.eng
  let es := s.myEng
  let last := s.cur.line + 32 * (body + 1)
  if s.badLoop s.cur.sid e lvl body stages rot then s.illop
  else
    let c := cnt % 2 ^ 32
    if c = 0 then ((s.setMyEng (es.leaveOut last)).advance s.cur.sid e).finish .moved
    else
      let f : LoopFrame := { lvl := lvl, first := s.cur.line + 32, last := last, stages := stages, rot := rot, tok := tok, count := c, i := 0,
                             iters := c + Nat.max stages 1 - 1, opn := true, ts := s.cur.ts
                             out := Nat.max (es.skip.getD 0) last }
      let st := s.me.setEng e { es with loops := f :: es.loops, loopTop := true, skip := none, g := if stages = 0 then es.g else 1 }
      (s.setMe { st with rot := if rot then 0 else st.rot }).deferred

/-- A fault at a lane an engine stands at, found by no meaning of its own: the lane's token goes back (R211). -/
def State.faultAt (s : State) (sid : Nat) (e : Engine) (line lane : Nat) (f : FaultInfo) : State :=
  if (s.stream sid).run = Run.suspended then s else
  let l := (s.lineAt sid line).getD 0
  let base := if 1 ≤ lane then Line.word l lane else 0
  let x := if 1 ≤ lane then (Line.xOf l lane).getD 0 else 0
  let s := { s with cur := { sid := sid, eng := e, line := line, lane := lane, base := base, x := x, ts := none } }
  s.returnToken.raise sid e line lane (decide (1 ≤ lane) && progressAt e base x) f

/-- REP (R70, R71). -/
def State.openRep (s : State) (n : Nat) (dA dB dC : Int) : State :=
  let e := s.cur.eng
  if s.badTarget s.cur.sid e dA dB dC then s.illop
  else
    let es := s.myEng
    let l := (s.lineAt s.cur.sid s.cur.line).getD 0
    (s.setMyEng { es with lane := nextLane l e s.cur.lane, rep := some { n := n, j := 0, dA := dA, dB := dB, dC := dC }, twDone := false, hold := .none }).finish .moved

end Sys2Proof.Machine
end

