-- ==== Sys2Proof/Machine/LoadStore.lean ====
section
/-! DEFINITION. S's loads and stores, MARK, and the tag table (06 R139 to R142, R147; 08 R195; 14 R339, R340, R345; 15 R385 to
R387; 16 R391). -/

namespace Sys2Proof.Machine

open Sys2Proof

/-- The value of n bytes, sign-extended to 64 bits (R339). -/
def loadValue (bs : List Byte) : Word := BitVec.ofInt 64 (signed (8 * bs.length) (leNat bs))

/-- STACK (R139): DETAIL holds S[31]. -/
def State.stackFault (s : State) : FaultInfo := { code := 0x07, detail := s.getS 31 }

/-- An s31-based access outside [STLIM, STBASE) takes STACK (R139). -/
def State.stackBad (s : State) (a : Nat) : Bool := decide (a < s.me.stlim.toNat) || decide (s.me.stbase.toNat ≤ a)

/-- What goes before a write of the stack that S makes at once: its store queue, and every store to its bytes; and whether that is done, and no
operand window holds the write (R139, R146, R188). -/
def State.stackTurn (s : State) (l : Loc) (n : Nat) : State × Bool :=
  let r := s.drain s.cur.sid
  if !r.2 then r else r.1.settled s.cur.sid l n

/-- A write of the stack, and whether it is made: in the order of S's stores, and before S's later accesses of the stack (R139, R146, R188). -/
def State.directWrite (s : State) (l : Loc) (data : List Byte) : State × Bool :=
  let t := s.stackTurn l data.length
  if t.2 then (t.1.writeHome s.cur.sid l data, true) else t

/-- A load of a register: the checks, the value through the load queue, poison, and the register (R339). A plain one may have been
performed ahead (R147); an acquire names its scope. It waits for the links on its way (R16). -/
def State.loadReg (s : State) (d b : SReg) (a : Nat) (n : Nat) (acq : Option Scope) : State :=
  let sid := s.cur.sid
  match s.target sid a n .read with
  | .error f => s.fault f
  | .ok t =>
    let r := s.takeEarly sid b.val a t.loc n
    match (if acq.isSome then none else r.2) with
    | some x => (r.1.meet sid .s x.ids x.marks none).setS d (loadValue x.bytes)
    | none =>
      if !(s.readClear (s.widOf sid) (coreOf sid) t.loc) then s.held else
      let r := r.1.load sid .s a t n acq
      if r.poison then r.state.fault (poisonAt a .read n) else r.state.setS d (loadValue r.bytes)

/-- LD (R339). An s31-based load takes effect here, after the stack accesses before it (R139). -/
def execLd (d b : SReg) (sz : MemSize) (o : BitVec 5) (s : State) : Result :=
  let n := sizeBytes sz
  let a := addrAdd (s.getS b) (o.toInt * n)
  if b = 31 ∧ s.stackBad a then .next (s.fault s.stackFault) else .next (s.loadReg d b a n none)

/-- A store enters the store queue: what ST and STREL do after their checks (R385, R387). It retires there, not at its issue (R189). -/
def State.storeReg (s : State) (v : Word) (a n : Nat) (t : Target) (rel : Option Scope) : State :=
  let need := if rel.isSome then s.cumulative s.cur.sid else []
  (s.enqueue a t (leBytes n v.toNat) rel need).deferred

/-- ST (R385): visible at CORE when it retires. One that is to be held is judged by its gate's owner set later (R268). An s31-based store
is performed at once, behind S's earlier stores (R139), and is checked again when its turn has come, held no longer (R267, R268). One into a
gated range waits for the flips before it in the text (R268). -/
def execSt (a b : SReg) (sz : MemSize) (o : BitVec 5) (s : State) : Result :=
  let n := sizeBytes sz
  let dva := addrAdd (s.getS b) (o.toInt * n)
  if b = 31 ∧ s.stackBad dva then .next (s.fault s.stackFault)
  else
    match s.target s.cur.sid dva n .write (s.standsBehind s.cur.sid) with
    | .error f => .next (s.fault f)
    | .ok t =>
      if s.flipFirst dva n then s.holdOrder else
      if b = 31 then
        let r := s.stackTurn t.loc n
        if !r.2 then .next r.1.held else
        match r.1.target s.cur.sid dva n .write with
        | .error f => .next (r.1.fault f)
        | .ok t => .next (r.1.writeHome s.cur.sid t.loc (leBytes n (s.getS a).toNat))
      else .next (s.storeReg (s.getS a) dva n t none)

/-- LDACQ (R340): the queues realigned as by MARK, then an acquiring load. -/
def execLdacq (d b : SReg) (sz : MemSize) (sc : Scope) (off : BitVec 20) (s : State) : Result :=
  let n := sizeBytes sz
  let a := addrAdd (s.getS b) off.toInt
  if b = 31 ∧ s.stackBad a then .next (s.fault s.stackFault)
  else
    match s.target s.cur.sid a n .read with
    | .error f => .next (s.fault f)
    | .ok _ =>
      let r := s.realign s.cur.sid
      if r.2 then .next (r.1.loadReg d b a n (some sc)) else .next r.1.held

/-- STREL (R387): the queues realigned, then a store that is a release at its scope, and is checked as it enters the queue. -/
def execStrel (a b : SReg) (sz : MemSize) (sc : Scope) (off : BitVec 20) (s : State) : Result :=
  let n := sizeBytes sz
  let dva := addrAdd (s.getS b) off.toInt
  if b = 31 ∧ s.stackBad dva then .next (s.fault s.stackFault)
  else
    match s.target s.cur.sid dva n .write (s.standsBehind s.cur.sid) with
    | .error f => .next (s.fault f)
    | .ok _ =>
      if s.flipFirst dva n then s.holdOrder else
      let r := s.realign s.cur.sid
      if !r.2 then .next r.1.held else
      match r.1.target s.cur.sid dva n .write (r.1.standsBehind s.cur.sid) with
      | .error f => .next (r.1.fault f)
      | .ok t => .next (r.1.storeReg (s.getS a) dva n t (some sc))

/-- MARK (R195, R345): every earlier S access is performed. -/
def execMark (s : State) : Result :=
  let r := s.realign s.cur.sid
  if r.2 then .next r.1 else .next ((r.1.setMyEng { r.1.myEng with hold := .order }).held)

/-! ### The tag table (R142, R391) -/

/-- S[a][47:12]. -/
def tagOf (a : Word) : Nat := bits a.toNat 12 36

/-- The slot whose valid entry holds a tag. -/
def Stream.slotOf (st : Stream) (tag : Nat) : Option Nat := (st.tags.find? fun p => p.2 == tag).map (·.1)

def execTlook (d a : SReg) (s : State) : Result :=
  .next (s.setS d (match s.me.slotOf (tagOf (s.getS a)) with
    | some k => BitVec.ofNat 64 k
    | none => BitVec.allOnes 64))

/-- TSET: a slot that does not exist is ILLOP. -/
def execTset (d a b : SReg) (s : State) : Result :=
  let k := (s.getS b).toNat
  if (if s.me.wide then 256 else 128) ≤ k then .next s.illop
  else
    let old := match Tab.find s.me.tags k with
      | some t => BitVec.ofNat 64 (t * 4096)
      | none => BitVec.allOnes 64
    let tag := tagOf (s.getS a)
    let rest := s.me.tags.filter fun p => p.2 != tag
    .next ((s.setMe { s.me with tags := Tab.set rest k tag }).setS d old)

def execTinv (a : SReg) (s : State) : Result :=
  .next (s.setMe { s.me with tags := s.me.tags.filter fun p => p.2 != tagOf (s.getS a) })

end Sys2Proof.Machine
end

