-- ==== Sys2Proof/Machine/Rings.lean ====
section
/-! DEFINITION. The ring instructions (06 R143, R144; 15 R368, R369). -/

namespace Sys2Proof.Machine

open Sys2Proof

/-- RING (Table 9.2): the ring in [3:0], the sub in [5:4]. -/
def ringFault (r sub : Nat) : FaultInfo := { code := 0x0C, detail := BitVec.ofNat 64 (r + 16 * sub) }

/-- The ring belongs to the issuing stream: rings 0 to 7 to stream 0, 8 to 15 to stream 1, all to a wide stream (R143). -/
def State.ownsRing (s : State) (r : Nat) : Bool := s.me.wide || r / 8 == s.cur.sid % 2

def State.myRing (s : State) (r : Nat) : Ring := s.ring (coreOf s.cur.sid) r
def State.setMyRing (s : State) (r : Nat) (x : Ring) : State := s.setRing (coreOf s.cur.sid) r x

/-- The conditions every ring instruction but RINIT meets first (R143, R368). -/
def State.ringReady (s : State) (r : Nat) : Bool := s.ownsRing r && (s.myRing r).n != 0 && !(s.myRing r).overrun

/-- Filled slots: COMMIT − FREE (R143). -/
def Ring.filled (x : Ring) : Nat := (x.commit - x.free).toNat
/-- The slots claimed after a claim of k more: the difference CLAIM + k − FREE, modulo 2³² (R143). -/
def Ring.claimedWith (x : Ring) (k : Nat) : Nat := (x.claim + BitVec.ofNat 32 k - x.free).toNat
/-- The slots filled after k more: the difference COMMIT + k − FREE, modulo 2³² (R143). -/
def Ring.filledWith (x : Ring) (k : Nat) : Nat := (x.commit + BitVec.ofNat 32 k - x.free).toNat

/-- RINIT (Table 6.4). -/
def execRinit (r : Sys2Proof.Ring) (a b : SReg) (s : State) : Result :=
  let off := (s.getS a).toNat
  let z := bits (s.getS b).toNat 0 16
  let n := bits (s.getS b).toNat 16 16
  let ok := s.ownsRing r.val && decide (off % 32 = 0) && decide (z % 32 = 0) && decide (32 ≤ z) && decide (z ≤ 32768) && decide (1 ≤ n) &&
    decide (n ≤ 4096) && decide ((s.getS b).toNat < 2 ^ 32) && decide (off + n * z ≤ s.me.spSize)
  if ok then .next (State.setMyRing { s with rels := Tab.put [] s.rels (ringKey (coreOf s.cur.sid) r.val) [] } r.val { offset := off, z := z, n := n }) else .next (s.fault (ringFault r.val 0))

/-- RCLAIM (Table 6.4). -/
def execRclaim (d : SReg) (r : Sys2Proof.Ring) (a : SReg) (s : State) : Result :=
  let x := s.myRing r.val
  let k := (s.getS a).toNat
  if s.ringReady r.val && decide (k ≠ 0) && decide (k ≤ x.n) && decide (x.claimedWith k ≤ x.n) then
    .next ((s.setMyRing r.val { x with claim := x.claim + BitVec.ofNat 32 k }).setS d (BitVec.ofNat 64 (x.claim.toNat % x.n)))
  else .next (s.fault (ringFault r.val 1))

/-- RCOMMIT (Table 6.4, R369): a CORE-scope release of S's earlier stores and what S has seen, then the commit, judged on the ring as
it stands behind them. -/
def execRcommit (r : Sys2Proof.Ring) (a : SReg) (s : State) : Result :=
  let k := (s.getS a).toNat
  let c := coreOf s.cur.sid
  let ids := s.cumulative s.cur.sid
  let t := s.release s.cur.sid .core
  if !t.2 then .next t.1.held else
  let s := t.1
  let x := s.myRing r.val
  if s.ringReady r.val && decide (k ≠ 0) && decide (k ≤ x.n) && decide (x.filledWith k ≤ x.n) then
    .next ((s.setMyRing r.val { x with commit := x.commit + BitVec.ofNat 32 k }).ringMark c r.val [{ core := c, scope := .core, ids := ids.filter fun i => s.pendingIds.contains i }])
  else .next (s.fault (ringFault r.val 2))

/-- RFREE (Table 6.4, R369): after every earlier S access, as by MARK; no release. -/
def execRfree (r : Sys2Proof.Ring) (a : SReg) (s : State) : Result :=
  let k := (s.getS a).toNat
  let t := s.realign s.cur.sid
  if !t.2 then .next t.1.held else
  let s := t.1
  let x := s.myRing r.val
  if s.ringReady r.val && decide (k ≠ 0) && decide (k ≤ x.n) && decide (k ≤ x.filled) then
    .next (s.setMyRing r.val { x with free := x.free + BitVec.ofNat 32 k })
  else .next (s.fault (ringFault r.val 3))

end Sys2Proof.Machine
end

