-- ==== Sys2Proof/Machine/Control.lean ====
section
/-! DEFINITION. The block-ending instructions and the waits (03 R59, R60, R72, R73, R79; 08 R199; 13 R306, R308, R309; 14 R337;
15 R364, R372; 16 R415 to R421). -/

namespace Sys2Proof.Machine

open Sys2Proof

/-! ### Branches -/

/-- BR (R308). -/
def execBr (p : PReg) (sense : Bool) (o : BitVec 14) (s : State) : Result :=
  if xor (s.getP p) sense then .next (s.branch (lineAdd s.cur.line o.toInt)) else .next (s.branch s.nextLine)

/-- JMP (R337). -/
def execJmp (o : BitVec 17) (s : State) : Result := .next (s.branch (lineAdd s.cur.line o.toInt))

/-- The end of the issuing stream's scratchpad window (R139). -/
def State.spEnd (s : State) : Nat := spDva + s.me.spSize

/-- Where a stack address stands in the core's scratchpad. -/
def State.stackOff (s : State) (dva : Nat) : Nat := spBase s.me s.cur.sid + (dva - spDva)

/-- CALL (R139, R309): the stack checks, the push, in the order of S's stack accesses, and the branch. -/
def execCall (o : BitVec 17) (s : State) : Result :=
  let sp := (s.getS 31).toNat
  if decide (s.me.stlim.toNat < spDva) || decide (s.spEnd < s.me.stbase.toNat) || decide (sp < s.me.stlim.toNat + 8) || decide (s.me.stbase.toNat < sp) then
    .next (s.fault s.stackFault)
  else
    let r := s.directWrite (.sp (coreOf s.cur.sid) (s.stackOff (sp - 8))) (leBytes 8 s.nextLine)
    if r.2 then .next ((r.1.setS 31 (BitVec.ofNat 64 (sp - 8))).branch (lineAdd s.cur.line o.toInt)) else .next r.1.held

/-- RET (R139, R372). A stack pointer outside the scratchpad window takes STACK too (assumption 8). The ALIGN of a target is
reported as a read of 8 bytes (assumption 118). -/
def execRet (s : State) : Result :=
  let sp := (s.getS 31).toNat
  if decide (sp < s.me.stlim.toNat) || decide (s.me.stbase.toNat < sp + 8) || decide (sp < spDva) || decide (s.spEnd < sp + 8) then
    .next (s.fault s.stackFault)
  else
    let c := coreOf s.cur.sid
    let off := s.stackOff sp
    let target := leNat (s.spBytes c off 8)
    let bad (o : Nat) : Bool := Tab.get false (s.core c).spBad (o / 64)
    if bad off || bad (off + 7) then .next (s.fault (poisonAt (if bad off then sp else sp + 7) .read 8))
    else if target % 32 ≠ 0 then .next (s.fault (align target .read 8))
    else .next ((((s.spMeet s.cur.sid .s off 8).passEarly s.cur.sid (.sp c off) 8).setS 31 (BitVec.ofNat 64 (sp + 8))).branch target)

/-- The other stream of the core is runnable (R74). -/
def State.otherRuns (s : State) (sid : Nat) : Bool := !isService sid && (s.stream (sid ^^^ 1)).run == Run.running

/-- YIELD (R421) retires at once; what follows is decided once the engines have drained the block: a pending move (R237), a switch
(R74), or neither. -/
def execYield (s : State) : Result := .next ((s.setMe { s.me with yielding := true }).branch s.nextLine)

/-- OVL (R79, R364, R365): S waits for the engines named and for what it has itself not retired, FENCEs beside it among that. Its loops
are carried over. -/
def execOvl (a : SReg) (mask : BitVec 5) (s : State) : Result :=
  let t := (s.getS a).toNat
  if !inMask mask .s then .next s.illop
  else if t % 32 ≠ 0 then .next (s.fault (align t .fetch 32))
  else
    match (if 0x800000000000 ≤ t then .error (xlate t .fetch 32) else s.pageCheck (s.widOf s.cur.sid) s.cur.sid t 32 .fetch) with
    | .error f => .next (s.fault f)
    | .ok _ =>
      let b := s.myEng.blk
      let ready := [Engine.v, .m, .c, .f].all fun e =>
        let es := s.me.eng' e
        !inMask mask e || ((es.ended || decide (b < es.blk) || (es.blk == b && es.atEnd)) && !(s.me.busy e))
      if !ready then .next ((s.setMyEng { s.myEng with hold := .order }).held)
      else
        let r := (s.tryFences s.cur.sid).release s.cur.sid .dev
        if r.2 && !(r.1.me.busy .s) && r.1.pushClear s.cur.sid then
          let u := (r.1.setMe { r.1.me with fetch := [] }).branch t
          .next (u.setMyEng { u.myEng with loops := s.myEng.loops })
        else .next ((r.1.setMyEng { r.1.myEng with hold := if r.1.pushClear s.cur.sid then .order else r.1.myEng.hold }).held)

/-- ERET (R225, R329). -/
def execEret (s : State) : Result :=
  if !isService s.cur.sid then .next s.illop
  else .next ((s.leaveHandler s.cur.sid).finish .moved)

/-- The next S lane after HALT: the same line and lane + 1, or the next line and lane 1 (R335). -/
def State.afterHalt (s : State) : Nat × Nat := if s.cur.lane + 1 < 8 then (s.cur.line, s.cur.lane + 1) else (s.nextLine, 1)

/-- HALT (R335): waits for a pending request, and enters the handler with ECAUSE 0 when EIE is 1; it has retired then too, with its token
(assumption 144). -/
def execHalt (s : State) : Result :=
  if !isService s.cur.sid then .next s.illop
  else
    let c := s.core (coreOf s.cur.sid)
    match c.requests with
    | [] => .next ((s.setMyEng { s.myEng with hold := .wait }).held)
    | _ :: q =>
      if c.eie then
        .next (((s.setCore (coreOf s.cur.sid) { c with requests := q }).enterHandler s.cur.sid s.afterHalt.1 s.afterHalt.2 0).finish .moved)
      else .next s

/-! ### Waits (R72) -/

/-- One evaluation of a wait's condition: it holds, with its effects; it does not; it cannot be made yet, since what it is ordered behind
is not done; or the evaluation faults (R220). -/
inductive Tried
  | holds (s : State)
  | waits (s : State)
  | later (s : State)
  | faults (s : State) (f : FaultInfo)

/-- RING conditions of WFILL and WFREE, at issue and at every re-evaluation; the condition is looked at behind S's earlier accesses. A
WFILL that retires is an acquire of the commits it counts, each at the scope of its own release (R143, R418). -/
def State.tryRing (s : State) (r k sub : Nat) (cond : Ring → Bool) : Tried :=
  let sid := s.cur.sid
  let good (s : State) : Bool := s.ringReady r && decide (k ≠ 0) && decide (k ≤ (s.myRing r).n)
  if !(good s) then .faults s (ringFault r sub) else
  let t := s.drain sid
  if !t.2 then .later t.1
  else if !(good t.1) then .faults t.1 (ringFault r sub)
  else if cond (t.1.myRing r) then
    .holds (if sub = 0 then (Tab.get [] t.1.rels (ringKey (coreOf sid) r)).foldl (fun (s : State) m => s.acquire sid m.scope [m]) t.1 else t.1)
  else .waits t.1

/-- WEVT: EVT and mask, taken and cleared as one step (R73, R417). -/
def State.tryEvt (s : State) (d : SReg) (mask : BitVec 8) : Tried :=
  let x := s.me.evt &&& mask
  if x = 0 then .waits s
  else .holds ((s.setMe { s.me with evt := s.me.evt &&& ~~~x }).setS d (x.zeroExtend 64))

/-- WAITGE: the word at its scope's point, compared unsigned by the sync engine; the read that satisfies it is an acquire at that scope
(R20, R199, R415). A peer's window is outside device memory whatever its link. -/
def State.tryGe (s : State) (v : Word) (sc : Scope) (a : Nat) : Tried :=
  let sid := s.cur.sid
  match s.target sid a 8 .read with
  | .error f => .faults s (if f.code = 0x1F then (if a % 8 ≠ 0 then align a .read 8 else classFault a 15) else f)
  | .ok (.dram d p) =>
    let t := s.drain sid
    if !t.2 || !(t.1.readClear (s.widOf sid) (coreOf sid) (.dram d)) then .later t.1 else
    let u := (t.1.passEarly sid (.dram d) 8).atSync (s.widOf sid) d
    let r := u.load sid .s a (.dram d p) 8 (some sc)
    if r.poison then .faults r.state (poisonAt a .read 8)
    else if v.toNat ≤ leNat r.bytes then .holds r.state else .waits (u.load sid .s a (.dram d p) 8 none).state
  | .ok _ => .faults s (classFault a 15)

/-- The value of a word as its sync engine has it after the core's own older stores to it, or a poisoned granule (R20, R155, R197). -/
def State.atHome (s : State) (sid a d n : Nat) : State × Nat × Bool :=
  let s := (s.settle sid (.dram d) n).atSync (s.widOf sid) d
  let r := s.readGranule (s.widOf sid) (partyOf sid) a d false
  (r.1, leNat (Memory.readList r.1.mem d n), r.2)

/-- BAR's arrival and wait (R200, R306), over links that no reset marker of its world has passed (R16, R289): `arrived` holds e once the
arrival has been made, and a wake only reads. The arrival that completes the episode is acquired too, and one into a gated range waits for the
flips before it in the text (R268). -/
def State.tryBar (s : State) (a : Nat) (n : Word) (arrived : Option Word) : Tried × Option Word :=
  let sid := s.cur.sid
  match s.atomicTarget sid a 8 (if arrived.isSome then .read else .atomic) with
  | .error f => (.faults s f, arrived)
  | .ok (d, _) =>
    match arrived with
    | none =>
      if s.flipFirst a 8 then (.later (s.setMyEng { s.myEng with hold := .order }), none) else
      let ids := s.cumulative sid
      let t := s.release sid .dev
      let u := if t.2 then (t.1.passEarly sid (.dram d) 8).settled sid (.dram d) 8 else t
      if !(u.2 && u.1.readClear (s.widOf sid) (coreOf sid) (.dram d)) then (.later u.1, none) else
      let (s, w, bad) := u.1.atHome sid a d 8
      if bad then (.faults s (poisonAt a .atomic 8), none) else
      let e := w / 2 ^ 32
      let full := decide (n.toNat ≤ w % 2 ^ 32 + 1)
      let w' := if full then (e + 1) % 2 ^ 32 * 2 ^ 32 else w + 1
      let chain := s.marksOf (.dram d) (s.readBytes (coreOf sid) (.dram d) 8)
      let mine : RelMark := { core := coreOf sid, scope := .dev, ids := ids.filter fun i => s.pendingIds.contains i }
      let s := s.writeHome sid (.dram d) (word8 w') (chain ++ [mine])
      if full then (.holds (s.acquire sid .dev (chain ++ [mine])), some (BitVec.ofNat 64 e)) else (.waits s, some (BitVec.ofNat 64 e))
    | some e =>
      let u := (s.passEarly sid (.dram d) 8).settledHome sid (.dram d) 8
      if !(u.2 && u.1.readClear (s.widOf sid) (coreOf sid) (.dram d)) then (.later u.1, some e) else
      let (s, w, bad) := u.1.atHome sid a d 8
      if bad then (.faults s (poisonAt a .read 8), some e)
      else if w / 2 ^ 32 ≠ e.toNat then (.holds (s.acquire sid .dev (s.marksOf (.dram d) (s.readBytes (coreOf sid) (.dram d) 8))), some e) else (.waits s, some e)

/-- One evaluation of the wait an instruction names. -/
def State.tryWait (s : State) (i : Instr) (arrived : Option Word) : Tried × Option Word :=
  match i with
  | .wfill r a => (s.tryRing r.val (s.getS a).toNat 0 fun x => decide ((s.getS a).toNat ≤ x.filled), none)
  | .wfree r a => (s.tryRing r.val (s.getS a).toNat 1 fun x => decide ((s.getS a).toNat ≤ (x.free + BitVec.ofNat 32 x.n - x.claim).toNat), none)
  | .wevt d mask => (s.tryEvt d mask, none)
  | .waitge a b sc off => (s.tryGe (s.getS a) sc (addrAdd (s.getS b) off.toInt), none)
  | .bar b c => s.tryBar (s.getS b).toNat (s.getS c) arrived
  | _ => (.holds s, none)

/-- A wait issues: it retires at once, or is kept until the stream parks and its condition holds (R72). A BAR's arrival is a step (R88). -/
def State.issueWait (s : State) (i : Instr) : Result :=
  match s.tryWait i none with
  | (.holds t, _) => .next (t.branch s.nextLine)
  | (.faults t f, _) => .next (t.fault f)
  | (.later t, _) => .next t.held
  | (.waits t, e) =>
    let w : Wait := { line := s.cur.line, lane := s.cur.lane, instr := i, ts := s.cur.ts, base := s.cur.base, x := s.cur.x, arrived := e }
    let t := if e.isSome then t.progress s.cur.sid else t
    .next ((t.setMe { t.me.setEng .s { t.myEng with hold := .wait } with wait := some w }).held)

def execWfill (r : Sys2Proof.Ring) (a : SReg) (s : State) : Result := s.issueWait (.wfill r a)
def execWfree (r : Sys2Proof.Ring) (a : SReg) (s : State) : Result := s.issueWait (.wfree r a)
def execWevt (d : SReg) (mask : BitVec 8) (s : State) : Result := if mask = 0 then .next s.illop else s.issueWait (.wevt d mask)
def execWaitge (a b : SReg) (sc : Scope) (off : BitVec 20) (s : State) : Result := s.issueWait (.waitge a b sc off)

/-- BAR (R306): a count of 0 or above 2³² − 1 is ILLOP. -/
def execBar (b c : SReg) (s : State) : Result :=
  if s.getS c = 0 ∨ 2 ^ 32 ≤ (s.getS c).toNat then .next s.illop else s.issueWait (.bar b c)

end Sys2Proof.Machine
end

