-- ==== Sys2Proof/Machine/Sync.lean ====
section
/-! DEFINITION. Fences, atomics, events, gate flips, range units and the format queue as S uses them (03 R73, R85, R86; 05 R127;
08 R196 to R198; 11 R266 to R271; 13 R295 to R300; 14 R331, R333, R334; 15 R373, R376). -/

namespace Sys2Proof.Machine

open Sys2Proof

/-! ### FENCE -/

/-- FENCE (R196, R331): S is held only when the mask names it; else the fence stands beside S until its duty is done. A store that retires
in it and finds no room for its token holds S (R63). -/
def execFence (sc : Scope) (k : FenceKind) (mask : BitVec 5) (s : State) : Result :=
  let es := s.myEng
  let r := s.fenceDuty s.cur.sid sc k mask es.blk es.visit s.cur.line
  if r.2 && s.noneBack r.1 s.cur.sid then .next r.1
  else if inMask mask .s then .next ((r.1.setMyEng { r.1.myEng with hold := .order }).held)
  else
    .next (r.1.addCmd (r.1.newCmd (.fence sc k mask es.blk es.visit))).deferred

/-! ### Atomics -/

def acquires : Order → Bool
  | .acq => true | .ar => true | _ => false
def releases : Order → Bool
  | .rel => true | .ar => true | _ => false

/-- The new value of an AMO on n bytes (R299). -/
def amoValue (op : AmoOp) (n old v : Nat) : Nat :=
  let m := 2 ^ (8 * n)
  let so := signed (8 * n) old
  let sv := signed (8 * n) v
  match op with
  | .add => (old + v) % m
  | .and => old &&& v
  | .or => old ||| v
  | .xor => old ^^^ v
  | .min => if sv < so then v else old
  | .max => if so < sv then v else old
  | .minn => Nat.min old v
  | .maxn => Nat.max old v
  | .swap => v

/-- An atomic at the sync engine of its word's home (R192, R193, R197): the release first, then the read and the write in
one step. `new` gives the word to write, if any. A release leaves its mark with the word, and an atomic keeps the marks it finds; an
acquire is of the marks its scope reaches. One that a window has held is checked when it leaves the hold (R268). -/
def State.atomic (s : State) (a d n : Nat) (ord : Order) (sc : Scope) (dst : SReg) (new : Nat → Option Nat) : State :=
  let sid := s.cur.sid
  let q := if ord = .rlx then (s, true) else s.realign sid
  if !q.2 then q.1.held else
  let ids := if releases ord then q.1.cumulative sid else []
  let r := if releases ord then q.1.release sid sc else q
  if !r.2 then r.1.held else
  let t := (r.1.passEarly sid (.dram d) n).settled sid (.dram d) n
  if !(t.2 && t.1.readClear (s.widOf sid) (coreOf sid) (.dram d)) then t.1.held else
  match t.1.atomicTarget sid a n with
  | .error f => t.1.fault f
  | .ok _ =>
  let (s, old, bad) := t.1.atHome sid a d n
  if bad then s.fault (poisonAt a .atomic n) else
  let bs := s.readBytes (coreOf sid) (.dram d) n
  let chain := s.marksOf (.dram d) bs
  let s := s.meet sid .s ((bs.filterMap (·.2)).map (·.id)) chain (if acquires ord then some sc else none)
  match new old with
  | none => s.setS dst (BitVec.ofNat 64 old)
  | some v =>
    let mine : List RelMark := if releases ord then [{ core := coreOf sid, scope := sc, ids := ids.filter fun i => s.pendingIds.contains i }] else []
    (s.writeHome sid (.dram d) (leBytes n v) (chain ++ mine).eraseDups).setS dst (BitVec.ofNat 64 old)

/-- AMO (R299, R300). An add to a ring's COMMIT orders nothing, but no write of S passes one that a window holds (R146). -/
def execAmo (dst b c : SReg) (op : AmoOp) (ord : Order) (sc : Scope) (dbl : Bool) (off : BitVec 20) (s : State) : Result :=
  let n := if dbl then 8 else 4
  let a := addrAdd (s.getS b) off.toInt
  let v := (s.getS c).toNat % 2 ^ (8 * n)
  if op = .add ∧ isCommit a = true then
    match s.target s.cur.sid a n .atomic with
    | .ok (.ring k r _ _) =>
      let t := s.settled s.cur.sid (.commit k r) n
      if !(t.2 && t.1.readClear (s.widOf s.cur.sid) (coreOf s.cur.sid) (.commit k r)) then .next t.1.held else
      let s := t.1
      .next ((s.setRing k r ((s.ring k r).add (bits (s.getS c).toNat 0 32))).setS dst ((s.ring k r).commit.zeroExtend 64))
    | .ok _ => .next (s.fault (classFault a 15))
    | .error f => .next (s.fault f)
  else
    match s.atomicTarget s.cur.sid a n .atomic (s.standsBehind s.cur.sid) with
    | .error f => .next (s.fault f)
    | .ok (d, _) => if s.flipFirst a n then s.holdOrder else .next (s.atomic a d n ord sc dst fun old => some (amoValue op n old v))

/-- ACAS (R295, R296). -/
def execAcas (dst b exp new : SReg) (ord : Order) (sc : Scope) (dbl : Bool) (off : BitVec 20) (s : State) : Result :=
  let n := if dbl then 8 else 4
  let a := addrAdd (s.getS b) off.toInt
  match s.atomicTarget s.cur.sid a n .atomic (s.standsBehind s.cur.sid) with
  | .error f => .next (s.fault f)
  | .ok (d, _) =>
    if s.flipFirst a n then s.holdOrder else
    .next (s.atomic a d n ord sc dst fun old =>
      if old = (s.getS exp).toNat % 2 ^ (8 * n) then some ((s.getS new).toNat % 2 ^ (8 * n)) else none)

/-! ### Events -/

def Image.latch (i : Image) (b : BitVec 8) : Image := { i with stream := i.stream.latch b }

/-- Sets EVT bits of the stream with a SID if it holds an iteration of a world, in its saved context if it is saved (R376). A service
core's stream holds none. -/
def State.latchSid (s : State) (wid t : Nat) (b : BitVec 8) : State :=
  if isService t then s
  else if (s.stream t).run != Run.free && s.widOf t == wid then s.setStream t ((s.stream t).latch b)
  else
    let hit (i : Image) : Bool := i.sid == t && i.stream.ident.wid == wid
    { s with images := s.images.map (fun p => if hit p.2 then (p.1, p.2.latch b) else p),
             shadow := s.shadow.map fun p => (p.1, { p.2 with images := p.2.images.map fun q => if hit q.2.2 then (q.1, q.2.1, q.2.2.latch b) else q }) }

/-- SEV (R376). It crosses the links to the stream's core (R16), and is discarded there behind its world's reset marker (R289). -/
def execSev (a : SReg) (user : BitVec 3) (ev : Bool) (s : State) : Result :=
  let t := s.getS a
  let l : Loc := .sp (coreOf t.toNat) 0
  if sevMask user ev = 0 ∨ 1024 ≤ t.toNat then .next s.illop
  else if !(s.clearTo (coreOf s.cur.sid) l) then .next s.held
  else if s.cutOff (s.widOf s.cur.sid) (coreOf s.cur.sid) l then .next s
  else .next (s.latchSid (s.widOf s.cur.sid) t.toNat (sevMask user ev))

/-! ### Gate flips (R268 to R271, R334) -/

def State.setGate (s : State) (g : Gate) : State :=
  { s with gates := s.gates.map fun h => if h.dpa = g.dpa then g else h }

/-- The pending stores into a gate's range that were checked before the flip: they are visible at DEV before it. One that stands behind
a held write is checked when it leaves (R268). -/
def State.intoRange (s : State) (g : Gate) : List Nat :=
  (((s.allStores ++ s.imageStores).filter fun st => g.covers st.wid st.dva && !st.late)).map (·.id)

/-- The flip itself (R268, R271): one event in the order of the gate word at its home, and a DEV release of the flipper's effects. After its world's reset marker the link discards it (R289). -/
def State.flipGate (s : State) (core : Nat) (g : Gate) (owner : Bool) : State :=
  if s.cutOff g.wid core (.dram g.dpa) then s.setGate { g with flipping := false } else
  let w := leNat (Memory.readList s.mem g.dpa 8)
  let s := (s.setHome (.dram g.dpa) (word8 ((2 * (w / 2 + 1) + owner.toNat) % 2 ^ 64))).writtenPoison (.dram g.dpa) 8
  (s.setMarks (.dram g.dpa) 8 [{ core := core, scope := .dev, ids := [] }]).setGate { g with owner := owner, flipping := false }

/-- The last checks of a flip by a stream, in the gate word's order: a second flip waits for the first (`none`), then poison,
then the owner set (R269, R271), which a service core's stream passes for any world (assumption 98). Behind the world's reset marker no answer comes
back, and the flip is discarded (R289). -/
def State.flipCheck (s : State) (sid : Nat) (g : Gate) : State × Option (Except FaultInfo Unit) :=
  if g.flipping then (s, none) else
  if s.cutOff g.wid (coreOf sid) (.dram g.dpa) then (s, some (.ok ())) else
  let r := (s.atSync g.wid g.dpa).readGranule g.wid (partyOf sid) g.dva g.dpa false
  if r.2 then (r.1, some (.error { poisonAt g.dva .write 8 with addr := BitVec.ofNat 64 g.dva }))
  else if !(isService sid) && !(g.permits (dieOf (coreOf sid))) then (r.1, some (.error (gateFault g.dva g.dva)))
  else (r.1, some (.ok ()))

/-- The flip of S that is under way; `here` for that of the lane S stands at. -/
def Stream.flipping (st : Stream) (here : Bool := false) : Option Cmd := st.cmds.find? fun c => c.eng == .s && (c.atLane || !here) && (match c.kind with | .flip _ _ => true | _ => false)

/-- GFLIP (R271, R334): once it has passed its checks it has issued, and S holds at it until the new word is visible at DEV: the release,
the last checks and the flip follow, whatever stops the stream meanwhile (R213). -/
def execGflip (b : SReg) (owner : Bool) (off : BitVec 20) (s : State) : Result :=
  let sid := s.cur.sid
  let wid := s.widOf sid
  match s.me.flipping true with
  | some c =>
    if c.done then .next (s.setMe { s.me with cmds := s.me.cmds.filter fun x => x.id != c.id })
    else .next s.held
  | none =>
    let a := addrAdd (s.getS b) off.toInt
    match (if a < 0x800000000000 then (s.pageCheck wid sid a 8 .write false true).map (fun _ => ()) else (s.target sid a 8 .write).map fun _ => ()) with
    | .error f => .next (s.fault f)
    | .ok _ =>
      match s.gateAt wid a with
      | none => .next (s.fault (gateFault a 0))
      | some g => .next (s.addCmd { s.newCmd (.flip g.dpa owner) with atLane := true }).held

/-- The release of a GFLIP that has issued, and its last checks: the gate is then in flip (R269, R271). A fault is its lane's. -/
def State.beginFlip (s : State) (sid : Nat) (c : Cmd) (g : Gate) : State :=
  let r := s.release sid .dev
  if !r.2 then r.1 else
  match r.1.flipCheck sid g with
  | (t, none) => t
  | (t, some (.error f)) =>
    ({ t.setStream sid { t.stream sid with cmds := (t.stream sid).cmds.filter fun x => x.id != c.id } with
       cur := { sid := sid, eng := .s, line := c.line, lane := c.lane, base := c.base, x := c.x, ts := none } }).fault f
  | (t, some (.ok _)) =>
    (t.setGate { g with flipping := true }).setStream sid
      { t.stream sid with cmds := (t.stream sid).cmds.map fun x => if x.id = c.id then { x with pos := 1 } else x }

/-! ### Range units and the format queue -/

/-- RNEXT's chunk (R86). -/
def RangeUnit.chunk (u : RangeUnit) : Nat :=
  let rem := u.total - u.next
  Nat.min rem (Nat.max u.min ((rem + 2 * u.p - 1) / (2 * u.p)))

/-- Number of a range unit of a die. -/
def unitKey (die u : Nat) : Nat := 64 * die + u

/-- RNEXT (R86, R373): the units of the die on which the iteration started; a service core's stream, which runs none, asks those of die 0
(assumption 131). A count of 0 is noted for R85. -/
def execRnext (d a : SReg) (s : State) : Result :=
  let n := (s.getS a).toNat
  if 64 ≤ n ∨ d = 0 ∨ d = 31 then .next s.illop
  else
    let key := unitKey s.me.ident.die n
    let u := Tab.get {} s.ranges key
    let hit := u.wid == s.widOf s.cur.sid && decide (u.next < u.total)
    let start := if hit then u.next else 0
    let count := if hit then u.chunk else 0
    let s := if hit then { s with ranges := Tab.set s.ranges key { u with next := u.next + count } } else s
    let s := s.setMe { s.me with range0 := if count = 0 then Tab.set s.me.range0 n 1 else Tab.erase s.me.range0 n }
    .next ((s.setS d (BitVec.ofNat 64 start)).setS (d + 1) (BitVec.ofNat 64 count))

/-- FMTQ (R127, R333). -/
def execFmtq (a : SReg) (s : State) : Result :=
  if s.me.fmtq.length < Config.formatDepth then .next (s.setMe { s.me with fmtq := s.me.fmtq ++ [s.getS a] })
  else .next ((s.setMyEng { s.myEng with hold := .format }).held)

end Sys2Proof.Machine
end

