-- ==== Sys2Proof/Machine/Commands.lean ====
section
/-! DEFINITION. What the commands of M and C share (06 R145, R146; 08 R188 to R190; 09 R212): operand windows, the S stores a
command must see, sources in the scratchpad, and the list of commands in flight. -/

namespace Sys2Proof.Machine

open Sys2Proof

/-! ### Ordering (R190) -/

/-- The S stores that precede the last QPUSH whose value an engine has popped reach CORE; and whether they all have. -/
def State.catchUp (s : State) (sid : Nat) (e : Engine) : State × Bool :=
  let mark := Tab.get 0 (s.stream sid).marks e.code
  let ids := (s.queue.filter fun st => st.sid == sid && decide (st.id < mark)).map (·.id)
  if ids.isEmpty then (s, true) else
  let s := s.flush ids 1 flushFuel
  (s, s.reached ids 1)

/-- Such a release at a scope, and whether it is complete. -/
def State.releaseRetired (s : State) (sid : Nat) (sc : Scope := .dev) : State × Bool :=
  let ids := s.retiredSet sid
  if ids.isEmpty then (s, true) else
  let s := s.flush ids (scopeLevel sc) flushFuel
  (s, s.reached ids (scopeLevel sc))

/-! ### The stream's own scratchpad -/

/-- Offset in the core's scratchpad of n bytes at an offset of the stream's window, if they lie in it (R140). -/
def State.spRange (s : State) (sid off n : Nat) : Option Nat :=
  if off + n ≤ (s.stream sid).spSize then some (spBase (s.stream sid) sid + off) else none

/-- As `spRange`, by DVA. -/
def State.spDvaRange (s : State) (sid dva n : Nat) : Option Nat := if spDva ≤ dva then s.spRange sid (dva - spDva) n else none

/-- The first poisoned granule among n bytes of a core's scratchpad, by offset. -/
def State.spBadAt (s : State) (core off n : Nat) : Option Nat :=
  ((List.range ((off % 64 + n + 63) / 64)).find? fun i => Tab.get false (s.core core).spBad (off / 64 + i)).map fun i => (off / 64 + i) * 64

/-! ### Operand windows (R145, R146) -/

/-- What stands behind a held store is checked against its gate when it leaves (R268). -/
def State.markLate (s : State) : State :=
  if s.queue.isEmpty then s else { s with queue := s.queue.map fun st => if s.heldBefore st then { st with late := true } else st }

/-- Stores that have left their store queue for bytes [lo, hi] of a core's scratchpad, and are not home. -/
def State.flyingTo (s : State) (core lo hi : Nat) : List Store :=
  (s.atCore ++ s.atGrp ++ s.atDie).filter fun x => x.loc.meets x.data.length (.sp core lo) (hi + 1 - lo)

/-- A window over bytes [lo, hi] of the core's scratchpad; none where 8 are live. What has left its store queue for those bytes, and may have been
seen, is home before it, so that a window holds only writes that nobody has seen; where it cannot go home yet there is none (R145, R146, R202;
assumption 104). -/
def State.openWindow (s : State) (sid : Nat) (e : Engine) (lo hi : Nat) : Option (State × Nat) :=
  let c := coreOf sid
  let ids := (s.flyingTo c lo hi).map (·.id)
  let s := if ids.isEmpty then s else s.flush ids 4 flushFuel
  let k := s.core c
  if k.windows.length < Config.liveWindows ∧ (s.flyingTo c lo hi).isEmpty = true then
    some ({ (s.setCore c { k with windows := k.windows ++ [{ id := s.nextId, sid := sid, eng := e, lo := lo, hi := hi }] }).markLate with nextId := s.nextId + 1 }, s.nextId)
  else none

/-- An operand window is free at a stream's core, for a command that reads its source as it issues (R145). -/
def State.windowFree (s : State) (sid : Nat) : Bool := decide ((s.core (coreOf sid)).windows.length < Config.liveWindows)

/-- A window whose command has read its last byte (R145). -/
def State.windowDone (s : State) (w : Window) : Bool :=
  let st := s.stream w.sid
  !((st.cmds.any fun c => c.win == some w.id && !c.done) || st.awrites.any fun c => c.win == some w.id)

/-! ### Commands in flight -/

def Stream.setCmd (st : Stream) (c : Cmd) : Stream := { st with cmds := st.cmds.map fun x => if x.id = c.id then c else x }

def Stream.cmd (st : Stream) (id : Nat) : Option Cmd := st.cmds.find? fun c => c.id == id

/-- A command is complete: it has read its window's last byte, and it retires in its engine's order (R188, R189). -/
def State.finishCmd (s : State) (sid : Nat) (c : Cmd) : State :=
  ((s.setStream sid ((s.stream sid).setCmd { c with done := true, win := none })).retireCmds sid c.eng).progress sid

/-- The room of the 16 commands of C (Table 9.6). -/
def State.roomC (s : State) : Bool := decide ((s.me.cmds.filter fun c => c.eng == .c).length < Config.commands)

def State.holdCmd (s : State) : Result := .next ((s.setMyEng { s.myEng with hold := .command }).held)

/-- Changes a command wherever its stream is: on a core, or saved (R176). -/
def State.mapCmd (s : State) (id : Nat) (f : Cmd → Cmd) : State :=
  let g (st : Stream) : Stream := if st.cmds.any (fun c => c.id == id) then { st with cmds := st.cmds.map fun c => if c.id = id then f c else c } else st
  { s with
    streams := s.streams.map fun p => (p.1, g p.2)
    images := s.images.map fun p => (p.1, { p.2 with stream := g p.2.stream })
    shadow := s.shadow.map fun p => (p.1, { p.2 with images := p.2.images.map fun q => (q.1, q.2.1, { q.2.2 with stream := g q.2.2.stream }) }) }

/-- A command faults and is kept with its progress (R212, R213); on a service core it stays faulted when the handler has returned (assumption
112). Its lane's token, and the format word of an MPASS, are at the heads of their FIFOs again (R211). What faults while the stream stops is
not done (R214). -/
def State.faultCmd (s : State) (sid : Nat) (c : Cmd) (f : FaultInfo) : State :=
  if (s.stream sid).run = Run.suspended then s else
  let st := ((s.stream sid).setCmd { c with faulted := true }).giveBack c.eng c.tw
  let st := match c.kind with | .pass _ _ _ _ _ w => { st with fmtq := w :: st.fmtq } | _ => st
  (s.setStream sid st).raise sid c.eng c.line c.lane (progressAt c.eng c.base c.x) f

/-- The faulting lane of a command issues again (R222): it pops its token, and an MPASS its format word. -/
def Stream.reissueCmds (st : Stream) : Stream :=
  (st.cmds.filter (·.faulted)).foldl (fun (st : Stream) c =>
    let st := (st.popAgain c.eng c.tw).getD st
    let st := match c.kind with | .pass _ _ _ _ _ _ => { st with fmtq := st.fmtq.tail } | _ => st
    st.setCmd { c with faulted := false }) st

/-! ### Copies (R312, R313, R317) -/

/-- The tuple of an element number, innermost first. -/
def tupleOf : List Nat → Nat → List Nat
  | [], _ => []
  | e :: es, n => n % e :: tupleOf es (n / e)

def CopyDesc.total (d : CopyDesc) : Nat := (d.dims.map (·.1)).foldl (· * ·) 1

/-- An address of a linear form (R9, R312). -/
def formAt (base : Nat) (ix : List Nat) (strides : List Int) : Nat :=
  addrOf (((ix.zip strides).map fun (p : Nat × Int) => (p.1 : Int) * p.2).foldl (· + ·) (base : Int))

/-- Where element n is written. -/
def CopyDesc.dstAt (d : CopyDesc) (n : Nat) : Nat := formAt d.dst (tupleOf (d.dims.map (·.1)) n) (d.dims.map fun x => x.2.2)

/-- The index of gathered row j. -/
def State.gatherIndex (s : State) (sid idx j : Nat) : Int :=
  match s.spDvaRange sid (idx + 4 * j) 4 with
  | some off => signed 32 (leNat (s.spBytes (coreOf sid) off 4))
  | none => 0

/-- Where element n is read: a gather takes its row from the index list (R317). -/
def State.srcAt (s : State) (sid : Nat) (d : CopyDesc) (n : Nat) : Nat :=
  match d.index with
  | none => formAt d.src (tupleOf (d.dims.map (·.1)) n) (d.dims.map fun x => x.2.1)
  | some (idx, rowb) =>
    let c := rowb / d.esize
    addrOf ((d.src : Int) + s.gatherIndex sid idx (n / c) * rowb + n % c * d.esize)

/-- The C→V row of element n, and its place in it (R313). -/
def CopyDesc.rowAt (d : CopyDesc) (n : Nat) : Nat × Nat :=
  match d.index with
  | none => (n * d.esize / 1024, n * d.esize % 1024)
  | some (_, rowb) => (n / (rowb / d.esize), n % (rowb / d.esize) * d.esize)

/-- What tells steps apart: the destination granule, or the row of the FIFO (R212). -/
def CopyDesc.stepKey (d : CopyDesc) (n : Nat) : Nat := if d.toVq then (d.rowAt n).1 else d.dstAt n / 64

/-- Elements of the step that begins at an element. -/
def CopyDesc.stepLen (d : CopyDesc) (key : Nat) : Nat → Nat → Nat
  | 0, _ => 0
  | fuel + 1, n => if d.stepKey n = key then d.stepLen key fuel (n + 1) + 1 else 0

/-- A write of a core's scratchpad by a command is held by windows other than its own (R146, R312). -/
def State.windowHolds (s : State) (win : Option Nat) (c o n : Nat) : Bool :=
  (s.core c).windows.any fun w => some w.id != win && decide (w.lo < o + n) && decide (o ≤ w.hi)

/-- The next write of a C command is held by a live window. -/
def State.cmdHeld (s : State) (sid : Nat) (c : Cmd) : Bool :=
  let at' (dva n : Nat) : Bool := match s.target sid dva n .write with
    | .ok (.sp k o) => s.windowHolds c.win k o n
    | _ => false
  match c.kind with
  | .copy d f =>
    if c.pos < d.total then
      !d.toVq && (List.range (d.stepLen (d.stepKey c.pos) (d.total - c.pos) c.pos)).any fun i => at' (d.dstAt (c.pos + i)) d.esize
    else match f with | some (a, _, _, _) => at' a 8 | none => false
  | .scanRead _ _ n _ vq dst =>
    c.reply.isSome && !vq && (match s.spDvaRange sid dst (n + 8) with | some o => s.inWindow (coreOf sid) o (n + 8) | none => false)
  | _ => false

/-- The place a data address of a stream names. -/
def State.placeOf (s : State) (sid dva : Nat) : Option Loc :=
  if dva < 0x800000000000 then (s.dpa (s.widOf sid) dva).map Loc.dram
  else
    match s.target sid dva 1 .read, s.target sid dva 8 .write with
    | .ok t, _ => some t.loc
    | _, .ok t => some t.loc
    | _, _ => none

/-- The reads of a step can cross the links to their places (R16). -/
def State.readsClear (s : State) (sid z : Nat) (dvas : List Nat) : Bool :=
  s.links.isEmpty || dvas.all fun a => match s.target sid a z .read with | .ok t => s.readClear (s.widOf sid) (coreOf sid) t.loc | .error _ => true

/-- A C command still has to write some of n bytes at a place (R188). -/
def State.willWrite (s : State) (sid : Nat) (c : Cmd) (l : Loc) (n : Nat) : Bool :=
  let at' (dva k : Nat) : Bool := match s.placeOf sid dva with | some x => x.meets k l n | none => false
  match c.kind with
  | .copy d f =>
    (!d.toVq && (List.range (d.total - c.pos)).any fun i => at' (d.dstAt (c.pos + i)) d.esize) || (match f with | some (a, _, _, _) => at' a 8 | none => false)
  | .scanRead _ _ k _ vq dst => !vq && at' dst (k + 8)
  | _ => false

/-- A copy of C still has to read some of n bytes at a place: a later write of its own engine does not go before that (R186). -/
def State.willRead (s : State) (sid : Nat) (c : Cmd) (l : Loc) (n : Nat) : Bool :=
  match c.kind with
  | .copy d _ => (List.range (d.total - c.pos)).any fun i => match s.placeOf sid (s.srcAt sid d (c.pos + i)) with | some x => x.meets d.esize l n | none => false
  | _ => false

/-- A copy of C still has to read some of n bytes at a place, by an address outside its own scratchpad window, where its operand window keeps the
bytes as they are (R145, R146). -/
def State.willReadOutside (s : State) (sid : Nat) (c : Cmd) (l : Loc) (n : Nat) : Bool :=
  match c.kind with
  | .copy d _ => (List.range (d.total - c.pos)).any fun i =>
    let a := s.srcAt sid d (c.pos + i)
    !(decide (spDva ≤ a) && decide (a < spDva + Config.spBytes)) && (match s.placeOf sid a with | some x => x.meets d.esize l n | none => false)
  | _ => false

/-- Nothing earlier of C stands in the way of a write of n bytes at an address: no held write, no overlapping one, no
read of its bytes, and no flip of the gate over it, after which the write is checked (R146, R186, R188, R268). -/
def State.mayWriteC (s : State) (sid : Nat) (c : Cmd) (a n : Nat) : Bool :=
  ((s.stream sid).cmds.takeWhile fun x => x.id != c.id).all fun x => x.eng != .c || x.done ||
    !(s.cmdHeld sid x || s.willFlip sid x a || (match s.placeOf sid a with | some l => s.willWrite sid x l n || s.willRead sid x l n | none => false))

/-- No earlier copy of C has yet to read some of n bytes at an address: a later read of the same engine returns no older write (R186). -/
def State.mayReadC (s : State) (sid : Nat) (c : Cmd) (a n : Nat) : Bool :=
  ((s.stream sid).cmds.takeWhile fun x => x.id != c.id).all fun x => x.eng != .c || x.done ||
    !(match s.placeOf sid a with | some l => s.willReadOutside sid x l n | none => false)

/-- C reads n bytes at an address as it issues, and no earlier copy of it has yet to read some of them (R186). -/
def State.mayReadNow (s : State) (sid a n : Nat) : Bool := (granulesOf a n).all fun q => s.mayReadC sid (s.newCmd .lane) q.1 q.2

/-- The earlier copies of C whose writes a release by C covers are complete, and no earlier write of C is held (R146, R175, R192). -/
def State.copiesDone (s : State) (sid : Nat) (c : Cmd) : Bool :=
  ((s.stream sid).cmds.takeWhile fun x => x.id != c.id).all fun x => x.eng != .c || x.done || (match x.kind with | .copy d _ => d.toVq | _ => !(s.cmdHeld sid x))

/-- A stream's commands make steps: it is not stopped by a fault (R213), its core has power, and it holds an iteration. -/
def State.cmdsRun (s : State) (sid : Nat) : Bool :=
  let st := s.stream sid
  (st.run == Run.running || st.run == Run.parked) && !(s.core (coreOf sid)).gated

end Sys2Proof.Machine
end

