-- ==== Sys2Proof/Machine/Rows.lean ====
section
/-! DEFINITION. Tile rows as V, M and F read and write them (03 R75, R76; 05 R122; 16 R389). V and M may meet a write of another
engine that they have not acquired through a token: each element is then the old or the new value, which of the two is free. -/

namespace Sys2Proof.Machine

open Sys2Proof

/-- Element by element one of two rows, by free choices of this step. -/
def State.mixRow (s : State) (salt bytes : Nat) (a b : Row) : Row :=
  rowOf bytes ((((rowElems bytes a).zip (rowElems bytes b)).zipIdx).map fun p => if s.free (salt * 1024 + p.2) % 2 = 0 then p.1.1 else p.1.2)

/-- A row with the bits of a write laid over it. -/
def RowWrite.over (w : RowWrite) (a : Row) : Row := (w.val &&& w.bits) ||| (a &&& ~~~w.bits)

/-- The same of the writer's own values, where what it raced with is not visible yet. -/
def RowWrite.alone (w : RowWrite) (a : Row) : Row := (w.own &&& w.bits) ||| (a &&& ~~~w.bits)

/-- The writes of a row by other engines that an engine has not acquired. -/
def Stream.unknown (st : Stream) (e : Engine) (row : Nat) : List RowWrite :=
  (Tab.get [] st.fRace row).filter fun w => w.eng != e && decide ((st.knows e).of w.eng < w.idx)

/-- The choices of one use of an unacquired write. -/
def RowWrite.salt (w : RowWrite) (row use : Nat) : Nat := row + 32 * (w.eng.code + 8 * (use + 4 * w.idx))

/-- A new row where another engine's write is ordered neither before nor after it: each element that both write is one of the two. -/
def State.race (s : State) (row use bytes : Nat) (old new : Row) (ws : List RowWrite) : Row :=
  ws.foldl (fun a w => (s.mixRow (w.salt row use) (Nat.min bytes w.bytes) a old &&& w.bits) ||| (a &&& ~~~w.bits)) new

/-- A row as V or M reads it in elements of some bytes: the row's writes in their order, each element that it reads of one it has not
acquired written or not (R76, R389). -/
def State.readRow (s : State) (sid : Nat) (e : Engine) (row bytes : Nat) : Row :=
  let st := s.stream sid
  if (st.unknown e row).isEmpty then st.row row
  else
    match Tab.get [] st.fRace row with
    | [] => st.row row
    | w :: ws =>
      (w :: ws).foldl (fun a x =>
        if x.eng != e && decide ((st.knows e).of x.eng < x.idx) then s.mixRow (x.salt row 0) bytes a (x.over a) else x.over a) w.old

/-- A write that every other engine knows, an F result's exposure elapsed, is told apart by nobody. -/
def Stream.settled (st : Stream) (w : RowWrite) : Bool :=
  ([Engine.v, .m, .f].all fun e => e == w.eng || decide (w.idx ≤ (st.knows e).of w.eng)) &&
    !(w.eng == .f && st.fres.any fun x => x.idx == w.idx && decide (0 < x.left))

/-- A write of a row takes its place after the row's others: what the row holds then, and the writer's own values. -/
def Stream.putRow (st : Stream) (e : Engine) (row bytes : Nat) (x written own : Row) : Stream :=
  let made := st.made.count e
  { st.setRow row x with
    made := made
    fRace := Tab.set st.fRace row (((Tab.get [] st.fRace row).dropWhile st.settled) ++
      [{ eng := e, idx := made.of e, bytes := bytes, old := st.row row, val := x, bits := written, own := own }]) }

/-- V or M writes a row in elements of some bytes, or the bits of one that it names: over what it has acquired its write stands; else
each element is one of the two (R76, R389). What it does not write stays. -/
def State.writeRow (s : State) (sid : Nat) (e : Engine) (row bytes : Nat) (x : Row) (written : Row := BitVec.allOnes 8192) : State :=
  let st := s.stream sid
  let x := (x &&& written) ||| (st.row row &&& ~~~written)
  s.setStream sid (st.putRow e row bytes (s.race row 1 bytes (st.row row) x (st.unknown e row)) written x)

/-- F sees a write of a row: its own results once their exposure has elapsed, those of V and M once it has acquired them (R75). -/
def Stream.fSees (st : Stream) (w : RowWrite) : Bool :=
  if w.eng == .f then !(st.fres.any fun x => x.idx == w.idx && decide (0 < x.left)) else decide (w.idx ≤ (st.knows .f).of w.eng)

/-- F reads a row: the row's writes in their order, as far as it sees them. A write of V or M that stands over a result it does not see
yet gives its own values alone (R75). -/
def Stream.fRead (st : Stream) (row : Nat) : Row :=
  match Tab.get [] st.fRace row with
  | [] => st.row row
  | r :: rs =>
    ((r :: rs).foldl (fun (a : Row × Bool) w =>
      if st.fSees w then (if a.2 && w.eng != .f then w.alone a.1 else w.over a.1, a.2) else (a.1, a.2 || w.eng == .f)) (r.old, false)).1

/-- F writes its result in the order of the row's writes, over a write of V or M that it has acquired; else each element is one of the
two (R76). This issue slot is the first of its exposure. -/
def State.fWrite (s : State) (sid row bytes : Nat) (x : Row) : State :=
  let st := s.stream sid
  let st := st.putRow .f row bytes (s.race row 2 bytes (st.row row) x (st.unknown .f row)) (BitVec.allOnes 8192) x
  s.setStream sid { st with fres := st.fres ++ [{ row := row, idx := st.made.f, left := 6 }] }

end Sys2Proof.Machine
end

