-- ==== Sys2Proof/Machine/Bays.lean ====
section
/-! DEFINITION. The M engine, the bays and their arbiter (05 R116 to R127; 10 R240 to R253; 13 R304, R305; 14 R347 to R355). -/

namespace Sys2Proof.Machine

open Sys2Proof

/-! ### Format words (R125, R126, Tables 5.4, 5.5, 14.8) -/

structure Fmt where
  at' : Nat
  wt : Nat
  ot : Nat
  acc : Bool
  tr : Bool
  src : Bool
  scl : Bool
  klen : Nat
  scloff : Nat
  deriving DecidableEq, Repr

def fmtOf (w : Word) : Fmt :=
  let x := w.toNat
  { at' := bits x 0 4, wt := bits x 4 4, ot := bits x 8 4, acc := bits x 12 1 == 1, tr := bits x 13 1 == 1, src := bits x 14 1 == 1
    scl := bits x 15 1 == 1, klen := bits x 16 9 + 1, scloff := bits x 32 16 }

/-- Table 5.5; type codes as in Table 4.8. -/
def Fmt.legal (f : Fmt) : Bool :=
  if !f.src then
    f.at' == 5 && (f.wt == 7 || f.wt == 8) && decide (f.klen ≤ 256) && (f.ot == 0 || ((f.ot == 3 || f.ot == 9) && !f.scl))
  else
    decide (f.klen ≤ 128) &&
      (((f.at' == 1 || f.at' == 2) && f.wt == f.at' && f.ot == 0) || (f.at' == 5 && f.wt == 5 && (f.ot == 0 || (f.ot == 3 && !f.scl))))

def Fmt.z4 (f : Fmt) : Bool := f.wt == 8

/-- Outputs of a pass, tile rows it writes, activation bytes (Table 14.8). -/
def Fmt.nout (f : Fmt) (tr : Bool) : Nat := if f.src then 128 else if f.z4 && !tr then 512 else 256
def Fmt.nrow (f : Fmt) (tr : Bool) : Nat := if f.nout tr = 512 then 2 else 1
def Fmt.nb (f : Fmt) (tr : Bool) : Nat :=
  if f.src then (if f.at' = 5 then f.klen else 2 * f.klen) else if f.z4 && tr then 2 * f.klen else f.klen

/-- The word breaks R125 or R126; `size` is the scratchpad for MPASS, and none for MGO. -/
def fmtBad (w : Word) (tr : Bool) (size : Option Nat) : Bool :=
  let f := fmtOf w
  bits w.toNat 48 16 != 0 || bits w.toNat 25 7 != 0 || !f.legal || (!f.scl && f.scloff != 0) ||
    (match size with | some n => f.scl && decide (n < f.scloff * 32 + 4 * f.nout tr) | none => false)

/-! ### Array contents (R116 to R118) -/

def arrayAddr (an row : Nat) : Nat := (an * 264 + row) * 256

/-- The 256 bytes of a row of an array. -/
def State.arrayRow (s : State) (an row : Nat) : List Byte := Memory.readList (Memory.slice s.rows (arrayAddr an row) 256 0) 0 256

/-- The codes of a row of an array: bytes, or nibbles, the low one first. -/
def State.codes (s : State) (an row : Nat) (z4 : Bool) : List Int :=
  let b := (s.arrayRow an row).map fun (x : Byte) => x.toNat
  if z4 then b.flatMap fun (x : Nat) => [((x % 16 : Nat) : Int), ((x / 16 : Nat) : Int)] else b.map fun (x : Nat) => (x : Int)

/-- d(k, n) for every n: row k of codes less the zero points of its group of 32 rows. -/
def State.diffs (s : State) (an : Nat) (z4 : Bool) (k : Nat) : List Int :=
  List.zipWith (fun (x z : Int) => x - z) (s.codes an k z4) (s.codes an (256 + k / 32) z4)

/-- The exact sums of an array pass; their residues are the channel sums (R118, R119). -/
def State.arraySums (s : State) (an : Nat) (f : Fmt) (tr : Bool) (act : List Byte) : List Int :=
  let a := act.map fun b => b.toInt
  if tr then (List.range 256).map fun k => (List.zipWith (fun (x d : Int) => x * d) a (s.diffs an f.z4 k)).foldl (· + ·) 0
  else a.zipIdx.foldl (fun (acc : List Int) (p : Int × Nat) => List.zipWith (fun (y d : Int) => y + p.1 * d) acc (s.diffs an f.z4 p.2))
    (List.replicate (f.nout false) 0)

/-! ### The plane (R123, R124, R352) -/

/-- Element n of plane row j at an element size in bytes. -/
def planeElem (plane : Memory) (size j n : Nat) : Nat := leNat (Memory.readList plane (256 * j + size * n) size)

def State.planeSums (s : State) (core : Nat) (f : Fmt) (tr : Bool) (act : List Byte) : List FVal :=
  let p := (s.core core).planeA
  let w (size j n : Nat) : Nat := if tr then planeElem p size n j else planeElem p size j n
  if f.at' = 5 then
    (List.range 128).map fun n => ofInt ((act.zipIdx.map fun q => q.1.toInt * signed 8 (w 1 q.2 n)).foldl (· + ·) 0)
  else
    let t : Ty := if f.at' = 1 then .bf16 else .f16
    let a := elems 16 f.klen (leNat act)
    (List.range 128).map fun n => decodeFloat .f32 (planeSum (a.zipIdx.map fun q => (decodeFloat t q.1).mul (decodeFloat t (w 2 q.2 n))))

/-! ### Accumulation (R121, R122, Table 5.3) -/

/-- One output into one element: its new value, and whether an i32 sum wrapped. A sum of 0 times a negative scale is −0 (assumption 66). -/
def accumulate (f : Fmt) (acc : Bool) (scale : Option Nat) (t : Nat) (x : FVal) (xi : Int) : Nat × Bool :=
  if f.ot = 3 then
    let v := if acc then signed 32 t + xi else xi
    (toPattern .i32 v, acc && (decide (v < -(2 ^ 31)) || decide (2 ^ 31 ≤ v)))
  else if f.ot = 9 then (if acc then rnsAdd t (rnsOf xi) else rnsOf xi, false)
  else
    let y := encodeFloat .f32 .rne false (match scale with | some k => x.mul (decodeFloat .f32 k) | none => x)
    (if acc then addAt .f32 t y else y, false)

/-- The outputs of a pass go into its tile rows; the overflow flags follow (R122). -/
def State.accumulateRows (s : State) (sid row : Nat) (f : Fmt) (acc : Bool) (scales : List Nat) (outs : List (FVal × Int)) : State :=
  (List.range ((outs.length + 255) / 256)).foldl (fun (s : State) r =>
    let part := (outs.drop (256 * r)).take 256
    let old := rowElems 4 (s.readRow sid .m (row + r) 4)
    let new := part.zipIdx.map fun p => accumulate f acc (if f.scl then some (scales.getD (256 * r + p.2) 0) else none) (old.getD p.2 0) p.1.1 p.1.2
    let s := s.writeRow sid .m (row + r) 4 (rowOf 4 (new.map (·.1))) (rowOf 4 (List.replicate part.length (2 ^ 32 - 1)))
    let st := s.stream sid
    let wrapped := new.any (·.2)
    s.setStream sid (st.setOver (row + r) (if acc then st.overflowed (row + r) || wrapped else false))) s

/-- One pass: its operands, its sums and its writes (R353). -/
def State.runPass (s : State) (sid : Nat) (w : Word) (tr acc : Bool) (act an row sc : Nat) : State :=
  let f := fmtOf w
  let c := coreOf sid
  let base := spBase (s.stream sid) sid
  let s := s.spMeet sid .m (base + act) (f.nb tr)
  let s := if f.scl then s.spMeet sid .m (base + 32 * sc) (4 * f.nout tr) else s
  let a := s.spBytes c (base + act) (f.nb tr)
  let scales := if f.scl then elems 32 (f.nout tr) (leNat (s.spBytes c (base + 32 * sc) (4 * f.nout tr))) else []
  let outs := if f.src then (s.planeSums c f tr a).map fun x => (x, match x with | .fin n m _ => (if n then -(m : Int) else m) | _ => 0)
    else (s.arraySums an f tr a).map fun x => (ofInt x, x)
  s.accumulateRows sid row f acc scales outs

/-! ### What holds or faults a pass -/

def nestFault (level field : Nat) : FaultInfo := { code := 0x10, detail := BitVec.ofNat 64 (level + 8 * field) }

/-- ALIGN, XLATE and POISON of an M operand name a scratchpad offset (Table 9.2). -/
def State.spPoison (s : State) (sid off n : Nat) : Option FaultInfo :=
  match s.spRange sid off n with
  | none => none
  | some o => (s.spBadAt (coreOf sid) o n).map fun g => poisonAt (g - spBase (s.stream sid) sid) .read n

/-- Some M command in flight still has to write one of the rows [row, row + n). -/
def Stream.tileBusy (st : Stream) (row n : Nat) (before : Option Nat) : Bool :=
  let l : List Cmd := match before with | some id => st.cmds.takeWhile (fun c => c.id != id) | none => st.cmds
  l.any fun c =>
    c.eng == .m && !c.done && (match c.kind with
      | .pass _ _ r _ t w => let k := (fmtOf w).nrow ((fmtOf w).tr || t); decide (r < row + n) && decide (row < r + k)
      | .nest _ => true
      | _ => false)

/-- An accepted AWRITE still has rows to program on an array, and its stream is saved: passes hold at issue (R230). -/
def State.savedWrite (s : State) (an : Nat) : Bool :=
  let g (st : Stream) : Bool := st.awrites.any fun c => match c.kind with | .awrite _ a _ _ _ => a == an | _ => false
  s.images.any (fun p => g p.2.stream) || s.shadow.any fun p => p.2.images.any fun q => g q.2.2.stream

/-- An array a pass or an AWRITE of a stream may use (R245, R354). -/
def State.mayUse (s : State) (sid an : Nat) : Bool := decide (an < 2 ^ 18) && arrayCore an == coreOf sid && (s.lease an).active (s.widOf sid)

/-- A pass of a stream waits for the bay of an array in its core's reach before its lease is judged, at acceptance: the bay holds 8 of the stream's
passes (R353, R354), or saved programming of the array (R230). -/
def State.bayHolds (s : State) (sid an : Nat) : Bool :=
  decide (an < 2 ^ 18) && arrayCore an == coreOf sid &&
    (decide (8 ≤ ((s.bay (bayOf an)).ops.filter fun o => o.sid == sid && !o.awrite).length) || s.savedWrite an)

/-- MACHINE for unverified rows (Table 9.2). -/
def unverifiedFault (an : Nat) : FaultInfo := { code := 0x1F, detail := BitVec.ofNat 64 an }

/-- The lowest and the highest source byte of a pass, in the core's scratchpad. -/
def spanOf (base act nb sc ns : Nat) (scl : Bool) : Nat × Nat :=
  if scl then (base + Nat.min act (32 * sc), base + Nat.max (act + nb) (32 * sc + ns) - 1) else (base + act, base + act + nb - 1)

/-! ### The nest (R350) -/

def nestGet (n : Nest) (level field : Nat) : Word := Tab.get 0 n (8 * level + field)

def nestExt (n : Nest) (k : Nat) : Nat := Nat.max 1 (nestGet n k 0).toNat

/-- A linear form at a tuple, level 0 first. Its base, of level 6, is read signed, as the strides are (assumption 152). -/
def nestAt (n : Nest) (field : Nat) (ix : List Nat) : Int :=
  (ix.zipIdx.map fun p => (p.1 : Int) * (nestGet n p.2 field).toInt).foldl (· + ·) (nestGet n 6 field).toInt

/-- The tuple of a pass number, level 0 fastest. -/
def nestIndex : List Nat → Nat → List Nat
  | [], _ => []
  | e :: es, p => p % e :: nestIndex es (p / e)

def nestExts (n : Nest) : List Nat := (List.range 6).map (nestExt n)
def nestTotal (n : Nest) : Nat := (nestExts n).foldl (· * ·) 1

/-- Some level has ZACC and every such level is at index 0 (R350). -/
def nestFresh (n : Nest) (ix : List Nat) : Bool :=
  let z := ix.zipIdx.filter fun p => (nestGet n p.2 5) == 1
  !z.isEmpty && z.all fun p => p.1 == 0

/-- A pass of a nest: its activation, array, tile row, scale vector, and whether it accumulates (R350). -/
structure NestPass where
  act : Nat
  an : Nat
  row : Nat
  sc : Nat
  acc : Bool

def Stream.nestPass (st : Stream) (f : Fmt) (pos : Nat) : NestPass :=
  let n := st.nestActive
  let ix := nestIndex (nestExts n) pos
  { act := (nestAt n 1 ix).toNat, an := (nestAt n 2 ix).toNat, row := (nestAt n 3 ix).toNat, sc := (nestAt n 4 ix + f.scloff).toNat
    acc := f.acc && !(nestFresh n ix) }

/-! ### The arbiter (R242) -/

/-- An AWRITE that a bay is at work on: its SID, its command, and its source where its iteration has ended (R77). -/
structure Programming where
  sid : Nat
  cmd : Cmd
  src : Option Memory
  deriving DecidableEq, Repr

/-- The AWRITE of an operation, if its stream is on a core and not stopped (R213), or its iteration has ended. -/
def State.writeOf (s : State) (o : BayOp) : Option Programming :=
  match (s.bay (bayOf o.an)).left.find? fun x => x.2.1.id == o.cmd with
  | some x => some ⟨x.1, x.2.1, some x.2.2⟩
  | none =>
    match s.streams.find? fun p => p.2.awrites.any fun c => c.id == o.cmd with
    | none => none
    | some p => if s.cmdsRun p.1 then (p.2.awrites.find? fun c => c.id == o.cmd).map fun c => ⟨p.1, c, none⟩ else none

/-- The command of an accepted pass in its stream's context. One that has faulted, or that would fault while its stream is
stopped, stands back (R211, R214). -/
def State.passIn (s : State) (st : Stream) (o : BayOp) : Option Cmd :=
  match st.cmd o.cmd with
  | none => none
  | some c => if c.faulted || (st.run == Run.suspended && !(s.lease o.an).unverified.isEmpty) then none else some c

/-- The command of an accepted pass, where its stream is on a core. -/
def State.passOf (s : State) (o : BayOp) : Option Cmd := s.passIn (s.stream o.sid) o

/-- The passes of a nest that the bays still hold. -/
def State.nestOps (s : State) (id : Nat) : List BayOp := s.bays.flatMap fun p => p.2.ops.filter fun o => o.cmd == id

/-- A pass may run: behind earlier programming of its array (R189) and behind earlier writes of its tile rows (R188, R351). -/
def State.passReady (s : State) (b : Bay) (o : BayOp) : Bool :=
  !((b.ops.takeWhile fun x => !(x.cmd == o.cmd && x.pass == o.pass)).any fun x => x.awrite && x.an == o.an) &&
    (match s.passOf o with
     | none => false
     | some c =>
       match c.kind with
       | .pass _ _ row _ t w => !((s.stream o.sid).tileBusy row ((fmtOf w).nrow ((fmtOf w).tr || t)) (some o.cmd))
       | .nest w =>
         let f := fmtOf w
         let n := f.nrow f.tr
         let row (k : Nat) : Nat := ((s.stream o.sid).nestPass f k).row
         !((s.stream o.sid).tileBusy (row o.pass) n (some o.cmd)) &&
           !((s.nestOps o.cmd).any fun x => decide (x.pass < o.pass) && decide (row x.pass < row o.pass + n) && decide (row o.pass < row x.pass + n))
       | _ => false)

/-- An accepted pass whose stream is saved, and that has not faulted: it keeps its place, and holds its world's later operations (R242;
assumption 54). -/
def State.savedPass (s : State) (o : BayOp) : Bool := s.saved.any fun i => (s.passIn i.stream o).isSome

/-- A world's next operation in a bay, if it can run: the oldest it has there that is not stopped. The AWRITE of a suspended or saved stream holds
back no other operation (assumption 125). -/
def State.headOp (s : State) (b : Bay) (wid : Nat) : Option BayOp :=
  match b.ops.find? fun o => o.wid == wid && (if o.awrite then (s.writeOf o).isSome else (s.passOf o).isSome || s.savedPass o) with
  | none => none
  | some o => if o.awrite || s.passReady b o then some o else none

/-- The array of a bay whose erase goes on or begins: one at a time, in ascending AN (R249). -/
def State.eraseTarget (s : State) (bay : Nat) : Option Nat :=
  let ev := (List.range 64).filter fun i => (s.lease (64 * bay + i)).st == .evicting
  let cur := ev.find? fun i => let l := s.lease (64 * bay + i); l.errows != 0 || l.pulses != 0
  match cur.or ev.head? with
  | none => none
  | some i => if s.joined (arrayDie (64 * bay + i)) && s.arrayIdle (64 * bay + i) then some (64 * bay + i) else none

/-- A requester has work: 0 is maintenance, else a WID. In the relaxation after an erase step maintenance has none (R249). -/
def State.hasWork (s : State) (bay r : Nat) : Bool := if r = 0 then decide ((s.bay bay).relax ≤ s.now) && (s.eraseTarget bay).isSome else (s.headOp (s.bay bay) r).isSome

def Bay.weight (b : Bay) (r : Nat) : Nat := Nat.max 1 (if r = 0 then b.maint else Tab.get 1 b.weights r)

/-- Numbers in ascending order. -/
def insertNat (x : Nat) : List Nat → List Nat
  | [] => [x]
  | y :: t => if x ≤ y then x :: y :: t else y :: insertNat x t
def sortNat : List Nat → List Nat
  | [] => []
  | x :: t => insertNat x (sortNat t)

/-- The requesters of a bay, maintenance first, then the worlds in ascending WID. -/
def Bay.requesters (b : Bay) : List Nat := sortNat (0 :: (b.ops.map (·.wid)).eraseDups)

/-- The requester the periphery serves next, and whether it is still its turn. -/
def State.arbiter (s : State) (bay : Nat) : Option (Nat × Bool) :=
  let b := s.bay bay
  match b.visit with
  | some v =>
    if s.hasWork bay v && decide (b.used < b.weight v) then some (v, true)
    else ((b.requesters.filter (fun r => decide (v < r)) ++ b.requesters.filter fun r => decide (r ≤ v)).find? (s.hasWork bay)).map fun r => (r, false)
  | none => (b.requesters.find? (s.hasWork bay)).map fun r => (r, false)

/-- The arbiter's note that it has served a requester. -/
def State.served (s : State) (bay : Nat) (r : Nat × Bool) : State :=
  let b := s.bay bay
  s.setBay bay { b with visit := some r.1, used := if r.2 then b.used + 1 else 1 }

/-- A requester that has nothing left loses the rest of its share, and a round in which none has work ends (R242). -/
def State.endShare (s : State) (bay : Nat) : State :=
  let b := s.bay bay
  match b.visit with
  | none => s
  | some v =>
    if s.hasWork bay v then s
    else if b.requesters.any (s.hasWork bay) then s.setBay bay { b with used := b.weight v }
    else s.setBay bay { b with visit := none, used := 0 }

/-- A bay accepts an operation. -/
def State.acceptOp (s : State) (o : BayOp) : State :=
  let s := s.endShare (bayOf o.an)
  let b := s.bay (bayOf o.an)
  s.setBay (bayOf o.an) { b with ops := b.ops ++ [o] }

/-- The world's operation a bay is to run. -/
def State.turnOf (s : State) (bay : Nat) : Option (BayOp × (Nat × Bool)) :=
  match s.arbiter bay with
  | none => none
  | some r => if r.1 = 0 then none else (s.headOp (s.bay bay) r.1).map fun o => (o, r)

/-- An operation leaves its bay. -/
def State.dropOp (s : State) (bay : Nat) (o : BayOp) : State :=
  let b := s.bay bay
  s.setBay bay { b with ops := b.ops.filter fun x => !(x.cmd == o.cmd && x.pass == o.pass) }

/-- An operation has faulted at its bay (R222). -/
def State.againOp (s : State) (bay : Nat) (o : BayOp) : State :=
  let b := s.bay bay
  s.setBay bay { b with ops := b.ops.map fun x => if x.cmd == o.cmd && x.pass == o.pass then { x with again := true } else x }

/-! ### MPASS (R353, R354) -/

def State.acceptPass (s : State) (w : Word) (act an row : Nat) (acc t : Bool) (rest : List Word) (win : State × Nat) : State :=
  let c : Cmd := { win.1.newCmd (.pass act an row acc t w) with win := some win.2 }
  let u := (win.1.addCmd c).acceptOp { wid := s.widOf s.cur.sid, sid := s.cur.sid, cmd := c.id, an := an, awrite := false }
  (u.setMe { u.me with fmtq := rest }).deferred

/-- MPASS. -/
def execMpass (act arr : EReg) (row : VReg) (acc t : Bool) (s : State) : Result :=
  let sid := s.cur.sid
  match s.me.fmtq with
  | [] => .next (s.fault { code := 0x08 })
  | w :: rest =>
    let f := fmtOf w
    let tr := f.tr || t
    let size := s.me.spSize
    if fmtBad w tr (some size) then .next ((s.setMe { s.me with fmtq := rest }).fault { code := 0x09, detail := w })
    else if 32 < row.val + f.nrow tr then .next (s.fault (nestFault 6 3))
    else
      let a := (s.getE .m act).toNat
      let nb := f.nb tr
      if a % 32 ≠ 0 then .next (s.fault (align a .read nb))
      else if size < a + nb then .next (s.fault (xlate a .read nb))
      else
        let r := s.catchUp sid .m
        if !r.2 then r.1.holdCmd else
        let s := r.1
        match (s.spPoison sid a nb).or (if f.scl then s.spPoison sid (32 * f.scloff) (4 * f.nout tr) else none) with
        | some x => .next (s.fault x)
        | none =>
          if f.src then
            if s.me.tileBusy row.val (f.nrow tr) none || !(s.windowFree sid) then s.holdCmd
            else .next ((s.setMe { s.me with fmtq := rest }).runPass sid w tr (f.acc || acc) a 0 row.val f.scloff)
          else
            let an := (s.getE .m arr).toNat
            if s.bayHolds sid an then s.holdCmd
            else if !(s.mayUse sid an) then .next (s.fault (noLease an))
            else
              let sp := spanOf (spBase s.me sid) a nb f.scloff (4 * f.nout tr) f.scl
              match s.openWindow sid .m sp.1 sp.2 with
              | none => s.holdCmd
              | some win => .next (s.acceptPass w a an row.val acc t rest win)

/-! ### MCFG and MGO (R347, R350, R351) -/

/-- MCFG. -/
def execMcfg (lvl : Fin 7) (fld : Fin 6) (a : EReg) (s : State) : Result :=
  .next (s.setMe { s.me with nestShadow := Tab.set s.me.nestShadow (8 * lvl.val + fld.val) (s.getE .m a) })

/-- The least and the greatest value of a linear form over the nest. -/
def nestSpan (n : Nest) (field : Nat) : Int × Int :=
  (List.range 6).foldl (fun p k =>
    let d := ((nestExt n k : Int) - 1) * (nestGet n k field).toInt
    (p.1 + min 0 d, p.2 + max 0 d)) ((nestGet n 6 field).toInt, (nestGet n 6 field).toInt)

/-- R350: the check of the nest, by field first and then by computed value. Where several are out of range, DETAIL names the field of the lowest level,
EXT before ZACC, else the first of act, an, rw and sc that is out of range in any pass (assumption 149). -/
def nestBad (n : Nest) (f : Fmt) (size : Nat) : Option FaultInfo :=
  match (List.range 6).findSome? fun k =>
      if 65536 < (nestGet n k 0).toNat then some (nestFault k 0) else if 1 < (nestGet n k 5).toNat then some (nestFault k 5) else none with
  | some x => some x
  | none =>
    let a := nestSpan n 1
    let w := nestSpan n 2
    let r := nestSpan n 3
    let c := nestSpan n 4
    if a.1 < 0 ∨ (size : Int) < a.2 + f.nb f.tr then some (nestFault 6 1)
    else if w.1 < 0 ∨ 2 ^ 18 ≤ w.2 then some (nestFault 6 2)
    else if r.1 < 0 ∨ 32 < r.2 + f.nrow f.tr then some (nestFault 6 3)
    else if f.scl ∧ (c.1 + f.scloff < 0 ∨ (size : Int) < (c.2 + f.scloff) * 32 + 4 * f.nout f.tr) then some (nestFault 6 4)
    else none

/-- The lowest and the highest source byte of a nest. -/
def nestWindow (n : Nest) (f : Fmt) (base : Nat) : Nat × Nat :=
  let a := nestSpan n 1
  let c := nestSpan n 4
  let lo := if f.scl then min a.1 ((c.1 + f.scloff) * 32) else a.1
  let hi := if f.scl then max (a.2 + f.nb f.tr) ((c.2 + f.scloff) * 32 + 4 * f.nout f.tr) else a.2 + f.nb f.tr
  (base + lo.toNat, base + hi.toNat - 1)

/-- MGO: M stands at it until its last pass is done (R351). -/
def execMgo (s : State) : Result :=
  let sid := s.cur.sid
  match s.me.standing .m with
  | some c => if c.done then .next (((s.setMe (s.me.setCmd { c with atLane := false })).retireCmds sid .m).deferred) else .next s.held
  | none =>
    match s.me.fmtq with
    | [] => .next (s.fault { code := 0x08 })
    | w :: rest =>
      let f := fmtOf w
      if fmtBad w f.tr none then .next ((s.setMe { s.me with fmtq := rest }).fault { code := 0x09, detail := w })
      else
        let n := s.me.nestShadow
        match nestBad n f s.me.spSize with
        | some x => .next (s.fault x)
        | none =>
          let r := s.catchUp sid .m
          if !r.2 then r.1.holdCmd else
          let sp := nestWindow n f (spBase r.1.me sid)
          match r.1.openWindow sid .m sp.1 sp.2 with
          | none => r.1.holdCmd
          | some win =>
            let u := win.1.setMe { win.1.me with nestActive := n, fmtq := rest }
            .next ((u.addCmd { u.newCmd (.nest w) with win := some win.2, atLane := true }).held)

/-- The nest M stands at. -/
def Stream.nestCmd (st : Stream) : Option Cmd := st.cmds.find? fun c => c.eng == .m && !c.done && (match c.kind with | .nest _ => true | _ => false)

/-- A pass of a nest is made, when the nest has come to a position. It is complete after its last pass (R351). -/
def State.runNest (s : State) (sid : Nat) (c : Cmd) (w : Word) (pass pos : Nat) : State :=
  let f := fmtOf w
  let p := (s.stream sid).nestPass f pass
  let last := decide (nestTotal (s.stream sid).nestActive ≤ pos) && (s.nestOps c.id).isEmpty
  let s := s.runPass sid w f.tr p.acc p.act p.an p.row p.sc
  (s.setStream sid ((s.stream sid).setCmd { c with pos := pos, done := last, win := if last then none else c.win })).progress sid

/-- A running nest comes to its next pass (R350, R351): M issues it for its world (R56), checked as MPASS is. A plane pass is made; an array
pass goes to its bay, which takes it in its turn (R242). What faults waits for the passes before it, which stand. -/
def execMgoPass (sid : Nat) (s : State) : Result :=
  match (s.stream sid).nestCmd with
  | none => .next s
  | some c =>
    match (if c.faulted || !(s.mayIssue sid) || decide (nestTotal (s.stream sid).nestActive ≤ c.pos) then CmdKind.lane else c.kind) with
    | .nest w =>
      match s.enterWorld sid .m with
      | none => .next s
      | some s =>
        let f := fmtOf w
        let p := (s.stream sid).nestPass f c.pos
        let stop : Option FaultInfo :=
          if p.act % 32 ≠ 0 then some (align p.act .read (f.nb f.tr))
          else
            match (s.spPoison sid p.act (f.nb f.tr)).or (if f.scl then s.spPoison sid (32 * p.sc) (4 * f.nout f.tr) else none) with
            | some x => some x
            | none => if !f.src && !(s.bayHolds sid p.an) && !(s.mayUse sid p.an) then some (noLease p.an) else none
        match stop with
        | some x => if (s.nestOps c.id).isEmpty then .next (s.faultCmd sid c x) else .next s
        | none =>
          if f.src then
            if (s.stream sid).tileBusy p.row (f.nrow f.tr) (some c.id) then .next s else .next (s.runNest sid c w c.pos (c.pos + 1))
          else if s.bayHolds sid p.an then .next s
          else
            .next ((s.acceptOp { wid := s.widOf sid, sid := sid, cmd := c.id, an := p.an, awrite := false, pass := c.pos }).setStream sid
              ((s.stream sid).setCmd { c with pos := c.pos + 1 }))
    | _ => .next s

/-! ### The other M instructions (R348, R349, R352, R355) -/

/-- MLDS: the shadow plane. -/
def execMlds (a : EReg) (t : Bool) (s : State) : Result :=
  let sid := s.cur.sid
  let off := (s.getE .m a).toNat
  if off % 256 ≠ 0 then .next (s.fault (align off .read 32768))
  else if s.me.spSize < off + 32768 then .next (s.fault (xlate off .read 32768))
  else
    let r := s.catchUp sid .m
    if !r.2 then r.1.holdCmd else
    let s := r.1
    match s.spPoison sid off 32768 with
    | some x => .next (s.fault x)
    | none =>
      if !(s.windowFree sid) then s.holdCmd else
      let c := coreOf sid
      let src := Memory.writeList [] 0 (s.spBytes c (spBase s.me sid + off) 32768)
      let s := s.spMeet sid .m (spBase s.me sid + off) 32768
      let plane := if t then src.foldr (fun p (m : Memory) => Memory.write m (256 * (p.1 % 256 / 2) + 2 * (p.1 / 256) + p.1 % 2) p.2) [] else src
      .next (s.setCore c { s.core c with planeS := plane })

/-- MSWAP: every earlier MLDS and plane pass is complete in this model once it has issued. -/
def execMswap (s : State) : Result :=
  let c := coreOf s.cur.sid
  .next (s.setCore c { s.core c with planeA := (s.core c).planeS, planeS := (s.core c).planeA })

/-- MCLR of rows row to row + n (n − 1 as encoded). -/
def execMclr (row : VReg) (n : Fin 32) (s : State) : Result :=
  let sid := s.cur.sid
  if s.me.tileBusy row.val (n.val + 1) none then s.holdCmd
  else
    .next ((List.range (n.val + 1)).foldl (fun (s : State) i =>
      let s := s.writeRow sid .m (row.val + i) 4 0
      s.setStream sid ((s.stream sid).setOver (row.val + i) false)) s)

/-- One element of MCONV (Table 14.6). A 0 times a negative scale is −0 (assumption 66). -/
def convertTile (f32 : Bool) (e : Word) (sat : Bool) (x : Nat) : Nat :=
  let scale := decodeFloat .f32 (bits e.toNat 0 32)
  if !f32 then toPattern .i32 (crt (rnsParts x))
  else if !e.getLsbD 32 then encodeFloat .f32 .rne false ((ofInt (crt (rnsParts x))).mul scale)
  else if sat then cnan .f32
  else encodeFloat .f32 .rne false ((ofInt (signed 32 x)).mul scale)

/-- MCONV. -/
def execMconv (row : VReg) (n : Fin 32) (es : EReg) (f32 : Bool) (s : State) : Result :=
  let sid := s.cur.sid
  let e := s.getE .m es
  if s.me.tileBusy row.val (n.val + 1) none then s.holdCmd
  else
    .next ((List.range (n.val + 1)).foldl (fun (s : State) i =>
      let sat := (s.stream sid).overflowed (row.val + i)
      let s := s.writeRow sid .m (row.val + i) 4 (rowOf 4 ((rowElems 4 (s.readRow sid .m (row.val + i) 4)).map (convertTile f32 e sat)))
      s.setStream sid ((s.stream sid).setOver (row.val + i) false)) s)

/-! ### AWRITE (R252, R304) -/

/-- AWRITEs that a bay holds, but those of saved streams: its queue has 4 entries. -/
def State.writesIn (s : State) (b : Bay) : Nat := (b.ops.filter fun o => o.awrite && ((b.left.any fun x => x.2.1.id == o.cmd) || s.streams.any fun p => p.2.awrites.any fun c => c.id == o.cmd)).length

/-- AWRITE. -/
def execAwrite (src an cnt : EReg) (first : Fin 256) (s : State) : Result :=
  let sid := s.cur.sid
  let a := (s.getE .m an).toNat
  let w := (s.getE .m cnt).toNat
  let o := (s.getE .m src).toNat
  let nd := bits w 0 9
  let side := BitVec.ofNat 8 (bits w 9 8)
  let rows := awriteRows first.val nd side
  let n := rows.length
  if 2 ^ 18 ≤ a ∨ 2 ^ 17 ≤ w ∨ 256 < nd ∨ 256 < first.val + nd then .next s.illop
  else if o % 1024 ≠ 0 then .next (s.fault (align o .read (1024 * n)))
  else if s.me.spSize < o + 1024 * n then .next (s.fault (xlate o .read (1024 * n)))
  else
    let r := s.catchUp sid .m
    if !r.2 then r.1.holdCmd else
    let s := r.1
    match s.spPoison sid o (1024 * n) with
    | some x => .next (s.fault x)
    | none =>
      let l := s.lease a
      if !(s.mayUse sid a) then .next (s.fault (noLease a))
      else if l.rsv ≠ 0 ∧ l.rsv < l.chg + n then .next (s.fault { code := 0x0F, detail := BitVec.ofNat 64 (a + rows.headD first.val % 256 * 2 ^ 18) })
      else if n = 0 then .next s
      else if 4 ≤ s.writesIn (s.bay (bayOf a)) then s.holdCmd
      else
        let base := spBase s.me sid + o
        match s.openWindow sid .m base (base + 1024 * (n - 1) + 255) with
        | none => s.holdCmd
        | some win =>
          let u := win.1
          let c : Cmd := { u.newCmd (.awrite o a first.val nd side) with win := some win.2, admitted := true, ts := none }
          let u := u.acceptOp { wid := u.widOf sid, sid := sid, cmd := c.id, an := a, awrite := true }
          .next { u.setMe { u.me with awrites := u.me.awrites ++ [c] } with nextId := u.nextId + 1 }

/-! ### Steps of the bays -/

/-- What an accepted pass takes at its bay: NOLEASE where it may not use the array any more, MACHINE where rows of it are unverified
(R24, R222, R244). -/
def State.passFault (s : State) (o : BayOp) : Option FaultInfo :=
  if !(if o.again then s.mayUse o.sid o.an else s.leaseStands o) then some (noLease o.an)
  else if !(s.lease o.an).unverified.isEmpty then some (unverifiedFault o.an) else none

/-- The bay runs a pass (R240). One that faults stays with its command. -/
def execArrayPass (bay : Nat) (s : State) : Result :=
  match s.turnOf bay with
  | none => .next s
  | some (o, r) =>
    match (if o.awrite then none else s.passOf o) with
    | none => .next s
    | some c =>
      let s := s.served bay r
      match s.passFault o with
      | some x => .next (((s.againOp bay o).faultCmd o.sid c x).endShare bay)
      | none =>
        match c.kind with
        | .pass act an row acc t w =>
          let f := fmtOf w
          .next ((((s.dropOp bay o).runPass o.sid w (f.tr || t) (f.acc || acc) act an row f.scloff).finishCmd o.sid c).endShare bay)
        | .nest w => .next (((s.dropOp bay o).runNest o.sid c w o.pass c.pos).endShare bay)
        | _ => .next s

/-- The row of 256 bytes that an AWRITE programs next, and the state that has met what wrote it (R192). -/
def State.awriteData (s : State) (p : Programming) (off : Nat) : State × List Byte :=
  match p.src with
  | some m => (s, Memory.readList m (1024 * p.cmd.pos) 256)
  | none => (s.spMeet p.sid .m off 256, s.spBytes (coreOf p.sid) off 256)

/-- The progress of an AWRITE is noted, with its stream or with its bay. -/
def State.setAwrite (s : State) (bay : Nat) (p : Programming) (c : Cmd) : State :=
  match p.src with
  | some _ => let b := s.bay bay; s.setBay bay { b with left := b.left.map fun x => if x.2.1.id = c.id then (x.1, c, x.2.2) else x }
  | none =>
    let st := s.stream p.sid
    (s.setStream p.sid { st with awrites := st.awrites.map fun x => if x.id = c.id then c else x }).progress p.sid

/-- The bay programs and verifies one row of an AWRITE (R247, R252), once the links to the scratchpad it comes from are clear (R16); `ok` is what
the verification finds. A row's record as unverified ends with its own verified step (assumption 135). -/
def execAwriteRowStep (bay : Nat) (ok : Bool) (s : State) : Result :=
  match s.turnOf bay with
  | none => .next s
  | some (o, r) =>
    match (if o.awrite then s.writeOf o else none) with
    | none => .next s
    | some p =>
      match p.cmd.kind with
      | .awrite src an first nd side =>
        let rows := awriteRows first nd side
        let row := rows.getD p.cmd.pos 0
        if p.src.isNone && !(s.readClear o.wid (arrayCore an) (.sp (coreOf p.sid) 0)) then .next s else
        let d := s.awriteData p (spBase (s.stream p.sid) p.sid + src + 1024 * p.cmd.pos)
        let s := (d.1.served bay r).charge an row o.wid true
        let s := { s with rows := Memory.paste s.rows (arrayAddr an row) 256 (Memory.writeList [] 0 d.2) }
        let l := s.lease an
        let s := s.setLease an { l with unverified := if ok then l.unverified.filter fun x => x != row else (l.unverified ++ [row]).eraseDups }
        let c := { p.cmd with pos := p.cmd.pos + 1 }
        let s := s.setAwrite bay p c
        .next ((if rows.length ≤ c.pos then (s.endAwrite c.id).dropOp bay o else s).endShare bay)
      | _ => .next s

/-- A row of an erase is done or given up; after the last one the array is ERASED (R244, R249). -/
def State.eraseRowDone (s : State) (an : Nat) (good : Bool) : State :=
  let l := s.lease an
  let row := l.errows
  let s := if good then { s with rows := Memory.clear s.rows (arrayAddr an row) 256 } else s
  let l := { l with errows := row + 1, pulses := 0, rowFail := l.rowFail || !good, unverified := if good then l.unverified.filter fun x => x != row else l.unverified }
  if row + 1 < 264 then s.setLease an l
  else (s.setLease an { l with st := .erased, vfail := l.rowFail, erEnd := s.now }).committed

/-- The relaxation of a bay begins; how long it lasts is free (R249; assumption 106). -/
def State.relaxed (s : State) (bay : Nat) : State := let b := s.bay bay; s.setBay bay { b with relax := s.now + Config.relaxation s.tick }

/-- One pulse and check of an erase (R249), and its relaxation; `ok` is what the check finds, and counts from the second step of a row on. The first step of an
erase that begins again after a loss of power is its START, while ERCHG goes on counting (assumption 97). -/
def execEraseStep (bay : Nat) (ok : Bool) (s : State) : Result :=
  match s.arbiter bay with
  | some (0, again) =>
    match s.eraseTarget bay with
    | none => .next s
    | some an =>
      let s := (s.served bay (0, again)).relaxed bay
      let l := s.lease an
      let s := if l.pulses = 0 then s.charge an l.errows l.party false else s
      let l := s.lease an
      let first := l.errows == 0 && l.pulses == 0
      let l := { l with erStart := if first then s.now else l.erStart, erChg := if l.pulses = 0 then l.erChg + 1 else l.erChg, pulses := l.pulses + 1 }
      let s := s.setLease an l
      if l.pulses < 2 then .next (s.endShare bay)
      else if ok then .next ((s.eraseRowDone an true).endShare bay)
      else if 6 ≤ l.pulses then .next ((s.eraseRowDone an false).endShare bay)
      else .next (s.endShare bay)
  | _ => .next s

/-- The signed copies of the lease table and accounts are written again (R247). -/
def execMetadataCheckpoint (s : State) : Result := if s.boot.stage = 2 then .next s.committed else .next s

end Sys2Proof.Machine
end

