-- ==== Sys2Proof/Machine/System.lean ====
section
/-! DEFINITION. LAUNCH and the launch queues, TLBI, SMIG and the array functions of S (09 R235, R236; 10 R250 to R256; 12 R277,
R278, R281; 13 R294, R303; 14 R338; 15 R382; 16 R392). -/

namespace Sys2Proof.Machine

open Sys2Proof

/-! ### Worlds and launch queues -/

/-- STATE of a world: 0 free, 1 live, 2 tearing down (Table 12.1). -/
def State.worldState (s : State) (wid : Nat) : Nat := s.wtWord wid 0x40 % 4
/-- The VF of a world (Table 12.1). -/
def State.worldVf (s : State) (wid : Nat) : Nat := bits (s.wtWord wid 0x40) 2 8
def State.live (s : State) (wid : Nat) : Bool := s.worldState wid == 1

/-- A record is appended to a world's launch queue (R281); answers whether it was. -/
def State.appendRecord (s : State) (wid : Nat) (record : List Byte) (party : Nat := 1023) : State × Bool :=
  if !(s.live wid) then (s, false)
  else if s.queueFull wid 0x10 then (s.readHeader wid 0x10 party, false)
  else (s.queueAppend wid 0x10 record party, true)

/-- A fault of a piece of an access of a whole size (Table 9.2): the kind and the size are the access's. -/
def FaultInfo.ofSpan (f : FaultInfo) (k : Kind) (size : Nat) : FaultInfo :=
  if f.code = 0x0D ∨ f.code = 0x0E then f else { f with detail := accessDetail k size ||| (f.detail &&& 0xE0) }

/-- Checks a span of device memory by R152, granule by granule. -/
def State.spanCheck (s : State) (sid dva n : Nat) (k : Kind) (size : Nat := 64) : Option FaultInfo :=
  (granulesOf dva n).findSome? fun p =>
    if 0x800000000000 ≤ p.1 then some (xlate p.1 k size) else
    match s.pageCheck (s.widOf sid) sid p.1 p.2 k false false 1 with
    | .error f => some (f.ofSpan k size)
    | .ok _ => none

/-- A span of device memory as the issuing engine reads it, and the first poisoned granule (R155, R192); `fills` lets a page with ZFILL give
zeros for one. -/
def State.readSpan (s : State) (sid dva n : Nat) (fills : Bool := true) : State × List Byte × Option Nat :=
  (granulesOf dva n).foldl (fun (acc : State × List Byte × Option Nat) q =>
    let zeros := List.replicate q.2 (0 : Byte)
    match acc.1.page (s.widOf sid) q.1 with
    | none => (acc.1, acc.2.1 ++ zeros, acc.2.2)
    | some p =>
      let r := acc.1.readGranule (s.widOf sid) (partyOf sid) (q.1 / 64 * 64) (p.dpaOf q.1) (fills && p.zfill)
      if r.2 then (r.1, acc.2.1 ++ zeros, if acc.2.2.isNone && !(fills && p.zfill) then some (q.1 / 64 * 64) else acc.2.2)
      else
        let t := r.1.readMet sid s.cur.eng (.dram (p.dpaOf q.1)) q.2 none
        (t.1, acc.2.1 ++ t.2, acc.2.2)) (s, [], none)

/-- LAUNCH (R338): its record is read in S's order of reads (R186); a poisoned record takes POISON, whatever ZFILL says. It waits for the
links on its way to the record and to the queue (R16). -/
def execLaunch (d a : SReg) (s : State) : Result :=
  let r := (s.getS a).toNat
  let sid := s.cur.sid
  if r % 128 ≠ 0 then .next (s.fault (align r .read 128))
  else
    match (if 0x800000000000 ≤ r then .error (xlate r .read 128) else s.pageCheck (s.widOf sid) sid r 128 .read) with
    | .error f => .next (s.fault f)
    | .ok _ =>
      let rel := s.release sid .dev
      if !(rel.2 && rel.1.spanClear (coreOf sid) (s.widOf sid) r 128 && (!(rel.1.live (s.widOf sid)) || rel.1.queueClear (coreOf sid) (s.widOf sid) 0x10 128)) then .next rel.1.held else
      match ((granulesOf r 128).foldl (fun (t : State) q => match t.dpa (t.widOf sid) q.1 with
          | some d => t.passEarly sid (.dram d) q.2
          | none => t) rel.1).readSpan sid r 128 false with
      | (s, _, some g) => .next (s.fault (poisonAt g .read 128))
      | (s, bytes, none) =>
        let q := s.appendRecord (s.widOf sid) bytes (partyOf sid)
        .next (q.1.setS d (if q.2 then 0 else 1))

/-! ### TLBI -/

/-- The TLBs lose the entries of some worlds that cover a DVA, or all of them. -/
def State.invalidate (s : State) (world : Nat → Bool) (dva : Option Nat) : State :=
  { s with tlb := s.tlb.filter fun t =>
      !(world t.2.1 && (match dva with
        | none => true
        | some b => match s.pages.find? fun p => p.wid == t.2.1 && p.dva == t.2.2 with
          | some p => p.covers t.2.1 b
          | none => true)) }

/-- The stores of worlds on their way that an entry over a DVA has translated, or any entry. -/
def State.translated (s : State) (world : Nat → Bool) (dva : Option Nat) : List Nat :=
  ((s.allStores ++ s.imageStores).filter fun x => (match x.loc with | .dram _ => true | _ => false) && world x.wid && (match dva with
    | none => true
    | some b => match s.page x.wid x.dva with
      | some p => p.covers x.wid b
      | none => true)).map (·.id)

/-- TLBI (R392): what the entries have translated is performed before it retires; of the loads that any stream of the worlds has performed
ahead none is kept. -/
def execTlbi (a b : SReg) (s : State) : Result :=
  let w := (s.getS a).toNat
  let v := (s.getS b).toNat
  let every := decide (v = 2 ^ 64 - 1)
  if 2 ^ 13 ≤ w ∨ (!every ∧ 2 ^ 48 ≤ v) ∨ (w / 4096 = 0 ∧ w % 4096 = 4095) then .next s.illop
  else
    s.privileged fun s =>
      let r := s.realign s.cur.sid
      if !r.2 then .next r.1.held
      else
        let world (x : Nat) : Bool := w / 4096 == 1 || x == w % 4096
        let dva := if every then none else some v
        let u := (r.1.dropAhead world).invalidate world dva
        let ids := u.translated world dva
        if ids.isEmpty then .next u
        else
          let t := u.flush ids 4 flushFuel
          if t.reached ids 4 && u.noneBack t s.cur.sid then .next t else .next t.held

/-! ### SMIG (R235, R236, R382) -/

/-- A stream slot the walker may give an iteration to, a migration may name, or a RESTORE may fill (R82, R234, R236, R238). -/
def State.freeSlot (s : State) (sid : Nat) : Bool :=
  let st := s.stream sid
  st.run == Run.free && !st.reserved && st.fwd.isNone && !(s.stream (sid ^^^ 1)).wide && !(s.core (coreOf sid)).gated

def clusterOf (die : Nat) : Nat := die / 2

/-- The slots a move of a stream to a core takes: one, or both for a wide stream. -/
def State.moveSlots (s : State) (t pcid : Nat) : List Nat := if (s.stream t).wide then [2 * pcid, 2 * pcid + 1] else [2 * pcid + t % 2]

def State.setReserved (s : State) (sids : List Nat) (b : Bool) : State :=
  sids.foldl (fun s i => s.setStream i { s.stream i with reserved := b }) s

/-- The reservation of a stream's pending request is released (R236). -/
def State.unreserve (s : State) (t : Nat) : State :=
  match (s.stream t).migrate with
  | none => s
  | some g => (s.setReserved (s.moveSlots t (coreOf g)) false).setStream t { (s.setReserved (s.moveSlots t (coreOf g)) false).stream t with migrate := none }

/-- Every granule of a device-physical range can be reached (R15, R27). -/
def State.reachableAll (s : State) (a n : Nat) : Bool :=
  [0, 1, 2, 3].all s.joined || (List.range ((n + 63) / 64)).all fun i => s.reachable (a + 64 * i)

/-- Where the slot of a stream in the migration area stands (R237). -/
def State.migSlot (s : State) (t : Nat) : Nat := s.migbase.toNat + t * imageBytes true

/-- The target core of a request is eligible (MIGST 2); its slot of the migration area can be reached (R27). -/
def State.eligible (s : State) (t pcid : Nat) : Bool :=
  s.reachableAll (s.migSlot ((s.moveSlots t pcid).headD 0)) (imageBytes true) && clusterOf (dieOf pcid) == clusterOf (dieOf (coreOf t)) && s.joined (dieOf pcid) && pcid != coreOf t && (s.moveSlots t pcid).all s.freeSlot

/-- SMIG (R235, R236, R382). A move has begun once the stream's YIELD has retired with the request pending: neither a cancel nor a further
request then changes it (assumption 11). -/
def execSmig (a b : SReg) (s : State) : Result :=
  s.privileged fun s =>
    let v := (s.getS a).toNat
    let w := (s.getS b).toNat
    let t := v % 1024
    let st := s.stream t
    let status (s : State) (n : Nat) : Result := .next (s.setMe { s.me with migst := BitVec.ofNat 64 n })
    if 1024 ≤ v ∨ 512 ≤ t ∨ st.run = Run.free ∨ st.ident.wid = 0 then status s 1
    else if w = 2 ^ 64 - 1 then
      if st.migrate.isNone || st.yielding then status s 3 else status (s.unreserve t) 0
    else if 256 ≤ w then status s 4
    else if s.migbase = 0 then status s 5
    else if st.migrate.isSome && st.yielding then status s 3
    else
      if !(s.eligible t w) then status s 2
      else
        let u := s.unreserve t
        let u := u.setReserved (u.moveSlots t w) true
        let ut := u.stream t
        status (u.setStream t { ut with migrate := some (2 * w + t % 2), evt := ut.evt ||| 4 }) 0

/-! ### The array functions (R250 to R256, R294, R303) -/

/-- What the four privileged functions share: the ILLOP checks, PRIV, MARK's order, and the block's checks. The block's accesses wait for the
writes and the links on their way (R16, R186). -/
def State.arrayFunction (s : State) (rw : Nat) (charges : Bool) (block : Option (Nat × Nat × Nat × Nat × Nat)) (k : State → Result) : Result :=
  if rangeBad rw charges then .next s.illop
  else
    s.privileged fun s =>
      let sid := s.cur.sid
      match block with
      | none =>
        let r := s.realign sid
        if r.2 then k r.1 else .next r.1.held
      | some (blk, rd, rn, wr, wn) =>
        if blk % 64 ≠ 0 then .next (s.fault (align blk .write 64))
        else
          match s.spanCheck sid rd rn .read with
          | some f => .next (s.fault f)
          | none =>
            match s.spanCheck sid wr wn .write with
            | some f => .next (s.fault f)
            | none =>
              let r := s.realign sid
              if !r.2 then .next r.1.held
              else
                let t := r.1.spanSettled sid (r.1.widOf sid) wr wn
                if t.2 && t.1.spanClear (coreOf sid) (t.1.widOf sid) rd rn then k t.1 else .next t.1.held

/-- The status AGRANT writes, the first that applies of 2, 4, 3 and 1 (R254). -/
def State.grantStatus (s : State) (r : RangeWord) (w0 w1 tail : Nat) : Nat :=
  let wid := w0 % 4096
  if 2 ^ 17 ≤ w0 ∨ bits w0 12 4 = 0 ∨ 2 ^ 40 ≤ w1 ∨ tail ≠ 0 then 2
  else if wid = 0 ∨ wid = 4095 ∨ !(s.live wid) then 4
  else if r.arrays.any fun an => !(s.joined (arrayDie an)) then 3
  else if r.arrays.any fun an => (s.lease an).st != .free then 1
  else 0

/-- AGRANT (R254, R294). -/
def execAgrant (a b : SReg) (s : State) : Result :=
  let rw := (s.getS a).toNat
  let blk := (s.getS b).toNat
  s.arrayFunction rw false (some (blk, blk, 64, blk + 16, 8)) fun s =>
    let sid := s.cur.sid
    let wid := s.widOf sid
    match s.readSpan sid blk 64 with
    | (s, _, some g) => .next (s.fault (poisonAt g .read 64))
    | (s, bs, none) =>
      let r := rangeWord rw
      let w0 := leNat (bs.take 8)
      let w1 := leNat ((bs.drop 8).take 8)
      let n := s.grantStatus r w0 w1 (leNat (bs.drop 40))
      if n = 0 then
        let g := s.grantAll r (w0 % 4096) (bits w0 12 4) (w1 % 2 ^ 40) (decide (bits w0 16 1 = 1))
        .next (g.1.writeSpan sid wid (blk + 16) (word8 0 ++ leBytes 16 g.2))
      else .next (s.writeSpan sid wid (blk + 16) (word8 n))

/-- The AREVOKE at S's lane that waits for the old lessee's operations (R251). -/
def Stream.revoking (st : Stream) : Option (Cmd × Nat × Nat) :=
  st.cmds.findSome? fun c => match c.kind with | .revoke first count _ => if c.atLane then some (c, first, count) else none | _ => none

/-- AREVOKE (R251, R253, R294): commits at once, and retires when the old lessee's operations on the range are complete. -/
def execArevoke (a : SReg) (s : State) : Result :=
  match s.me.revoking with
  | some (c, first, count) =>
    if c.done || (List.range count).all fun i => s.arrayIdle (first + i) then .next (s.setMe { s.me with cmds := s.me.cmds.filter fun x => x.id != c.id })
    else .next s.held
  | none =>
    let rw := (s.getS a).toNat
    let r := rangeWord rw
    s.arrayFunction rw true none fun s =>
      let wid := (s.lease r.first).wid
      match s.firstBad r fun l => l.st == .leased && l.wid == wid with
      | some an => .next (s.fault (noLease an))
      | none =>
        let s := (s.revokeAll r.arrays r.party false).setMaint r.first r.mw
        if r.arrays.all s.arrayIdle then .next s
        else
          .next (s.addCmd { s.newCmd (.revoke r.first r.count wid) with atLane := true }).held

/-- AERASE (R251, R294). -/
def execAerase (a : SReg) (s : State) : Result :=
  let rw := (s.getS a).toNat
  let r := rangeWord rw
  s.arrayFunction rw true none fun s =>
    match s.firstBad r fun l => l.st == .free with
    | some an => .next (s.fault (noLease an))
    | none =>
      let t := r.arrays.foldl (fun (t : State) an => t.eraseFree an r.party s.revocations) s
      .next ((({ t with revocations := t.revocations + 1 }).committed).setMaint r.first r.mw)

/-- AATTEST (R256, R294). -/
def execAattest (a b : SReg) (s : State) : Result :=
  let rw := (s.getS a).toNat
  let r := rangeWord rw
  let blk := (s.getS b).toNat
  s.arrayFunction rw false (some (blk, blk + 0x60, 32, blk, 0x200 + 24 * r.count)) fun s =>
    let sid := s.cur.sid
    let l0 := s.lease r.first
    match s.firstBad r fun l => l.st == .erased && l.wid == l0.wid && l.revocation == l0.revocation with
    | some an => .next (s.fault (noLease an))
    | none =>
      match s.readSpan sid (blk + 0x60) 32 with
      | (s, _, some g) => .next (s.fault (poisonAt g .read 32))
      | (s, nonce, none) =>
        let seq := s.recseq + 1
        let bytes := s.erasureRecord r seq nonce ++ s.accountList r
        let rec' : Record := { seq := seq, prev := l0.wid, party := l0.party, bytes := bytes }
        let s := { s with recseq := seq, records := s.records ++ [rec'] }
        .next ((s.attestAll r).writeSpan sid (s.widOf sid) blk bytes)

/-- The ASTAT at S's lane that waits for AWRITEs. -/
def Stream.asking (st : Stream) : Option (Cmd × List Nat) :=
  st.cmds.findSome? fun c => match c.kind with | .stat ids _ _ _ _ => if c.atLane then some (c, ids) else none | _ => none

/-- ASTAT (R255, R303): behind the AWRITEs the bay had accepted when it issued. Item 4, which names no array, waits for none (assumption 126). -/
def execAstat (d a : SReg) (s : State) : Result :=
  let w := (s.getS a).toNat
  let an := bits w 0 18
  let item := bits w 18 3
  let wid := bits w 21 12
  let sid := s.cur.sid
  let fw := s.firmware sid
  let who := if fw then wid else s.widOf sid
  let answer (s : State) : Result := .next (s.setS d (BitVec.ofNat 64 (s.statWord an item who)))
  match s.me.asking with
  | some (c, ids) =>
    if (s.bay (bayOf an)).writing.any ids.contains then .next s.held
    else answer (s.setMe { s.me with cmds := s.me.cmds.filter fun x => x.id != c.id })
  | none =>
    if 2 ^ 33 ≤ w ∨ 5 < item ∨ (if item = 4 then an ≠ 0 ∨ (!fw ∧ wid ≠ 0) else wid ≠ 0) then .next s.illop
    else if item ≠ 4 ∧ (if fw then !(s.joined (arrayDie an)) else !((s.lease an).active (s.widOf sid) && arrayCore an == coreOf sid)) then .next (s.fault (noLease an))
    else
      let r := s.realign sid
      if !r.2 then .next r.1.held
      else
        let s := r.1
        let ids := (s.bay (bayOf an)).writing
        if item = 4 ∨ ids.isEmpty = true then answer s
        else .next (s.addCmd { s.newCmd (.stat ids d an item who) with atLane := true }).held

end Sys2Proof.Machine
end

