-- ==== Sys2Proof/Machine/Scan.lean ====
section
/-! DEFINITION. Scanned regions (07 R159 to R181; 13 R318, R322, R323): the instructions CSCANR, CSCANU and CLAP of C, and the
steps of slices, bells and replies. Lap and sequence numbers are held without wrapping; what programs see of them is taken
modulo 2³² (R163). -/

namespace Sys2Proof.Machine

open Sys2Proof

/-! ### Regions -/

def State.region (s : State) (r : Nat) : Option Region := Tab.find s.regions r
def State.setRegion (s : State) (r : Nat) (x : Region) : State := { s with regions := Tab.set s.regions r x }

/-- Where the model keeps the rows of a region: firmware's choice, which no program sees (R160; assumption 14). -/
def regionDpa (r : Nat) : Nat := 2 ^ 50 + r * 2 ^ 36

def rowAddr (r g : Nat) : Nat := regionDpa r + 1024 * g

def Region.count (x : Region) : Nat := 2 ^ x.log2s

def Region.slice (x : Region) (i : Nat) : Slice := Tab.get {} x.slices i
def Region.setSlice (x : Region) (i : Nat) (y : Slice) : Region := { x with slices := Tab.set x.slices i y }

/-- Stacks a PLACE code admits, and the slices of joined dies in them (Table 1.1, Table 7.1). -/
def placeStacks : Nat → List Nat
  | 0 => [0, 1, 2, 3, 4, 5, 6, 7]
  | 1 => [0, 1]
  | _ => [2, 3, 4, 5, 6, 7]

/-- Memory slices with a bank free: at most 4 regions in each (R159). -/
def State.freeSlices (s : State) (place : Nat) : List Nat :=
  ((placeStacks place).filter fun k => s.joined (stackDie k)).flatMap fun k =>
    ((List.range 64).map fun i => 64 * k + i).filter fun sl => decide ((s.regions.filter fun p => p.2.slots.contains sl).length < 4)

/-- The 64 KiB pages of a region (R160). -/
def Region.pages (x : Region) (r : Nat) : List Page :=
  (List.range ((x.bytes + 65535) / 65536)).map fun i =>
    { wid := x.wid, dva := x.base + 65536 * i, dpa := regionDpa r + 65536 * i, size := 1, cls := 1, zfill := x.zfill, x := false, w := true, r := true }

/-- The open lap of a port: the bell's rings in timed mode, its own in stepped mode (R163). -/
def Region.openLap (x : Region) (port : Nat) : Nat := if x.stepped then Tab.get 0 x.opn port else x.bells

/-- The lap a slice waits for or serves. -/
def SliceState.lap : SliceState → Nat
  | .zero _ => 0 | .wait l => l | .pass l _ => l

def Slice.lap (y : Slice) : Nat := y.st.lap

/-- The slice holds every marker it needs for a lap (R165, R166): from each participant in stepped mode; in timed mode, the
lap has been closed by the bell and none of its markers is still on the way. -/
def Region.markersIn (x : Region) (i lap : Nat) : Bool :=
  if x.stepped then x.parts.all fun p => (x.slice i).markers.contains (p, lap)
  else decide (lap < x.bells) && !(x.pend.any fun m => m.1 == i && m.2.2 == lap)

def Slice.hasWork (y : Slice) (lap : Nat) : Bool := y.queue.any fun q => q.stamp == lap

/-- A waiting slice starts the pass whose markers are in, and ends at once each one without work (Table 7.5). -/
def Region.startPasses (x : Region) (i : Nat) : Nat → Region
  | 0 => x
  | fuel + 1 =>
    let y := x.slice i
    match y.st with
    | .wait l =>
      if x.markersIn i l then
        if y.hasWork l then x.setSlice i { y with st := .pass l 0 }
        else (x.setSlice i { y with st := .wait (l + 1), markers := y.markers.filter fun m => decide (l < m.2) }).startPasses i fuel
      else x
    | _ => x

/-- A slice takes all the laps whose markers are in. -/
def Region.goOn (x : Region) (i : Nat) : Region := x.startPasses i ((x.slice i).markers.length + 1)

/-- The laps every slice has served (R167). -/
def Region.servedNow (x : Region) : Nat :=
  (List.range x.count).tail.foldl (fun n i => Nat.min n (x.slice i).lap) (x.slice 0).lap

/-- A stream has asked for the served laps of a region of its world (R173). -/
def Stream.subscribed (st : Stream) (r wid : Nat) : Bool := st.subs.contains r && st.ident.wid == wid

/-- The region after a slice has moved on: newly served laps set EVT bit 3 of the subscribed streams (R167), but for the ones that the world's reset
marker cuts off, `cut` by SID (R289). -/
def State.putRegion (s : State) (r : Nat) (x : Region) (cut : Nat → Bool := fun _ => false) : State :=
  let n := x.servedNow
  if x.served < n then
    let s := s.setRegion r { x with served := n }
    let f (st : Stream) : Stream := if st.subscribed r x.wid then st.latch 8 else st
    { s with
      streams := s.streams.map fun p => if cut p.1 then p else (p.1, f p.2)
      images := s.images.map fun p => (p.1, { p.2 with stream := f p.2.stream })
      shadow := s.shadow.map fun p => (p.1, { p.2 with images := p.2.images.map fun q => (q.1, q.2.1, { q.2.2 with stream := f q.2.2.stream }) }) }
  else s.setRegion r x

/-- A port closes its open lap: a marker to every slice (R165). -/
def Region.sendMarkers (x : Region) (port lap : Nat) : Region :=
  { x with pend := x.pend ++ (List.range x.count).map fun i => (i, port, lap) }

/-- The ports of a timed region: the hub's, and those streams of the world hold (R166), but for service cores' (assumption 137). -/
def State.timedPorts (s : State) (r : Nat) : List Nat := (512 :: s.allStreams.filterMap fun st => Tab.find st.ports r).eraseDups

/-- Every port closes its laps from its open one up to a lap: what a release does for the open laps and for the laps that queued requests are
stamped with (R161, R165; assumption 95). -/
def State.closeThrough (s : State) (r : Nat) (x : Region) (lap : Nat) : Region :=
  let laps (opn : Nat) : List Nat := (List.range (lap + 1 - opn)).map fun i => opn + i
  if x.stepped then
    let y := x.parts.foldl (fun (y : Region) p => (laps (x.openLap p)).foldl (fun (y : Region) l => y.sendMarkers p l) y) x
    { y with opn := x.parts.map fun p => (p, Nat.max (x.openLap p) (lap + 1)) }
  else
    let y := (laps x.bells).foldl (fun (y : Region) l => (s.timedPorts r).foldl (fun (y : Region) p => y.sendMarkers p l) y) x
    { y with bells := Nat.max x.bells (lap + 1) }

/-- The highest lap a release closes: the highest open one, and the highest that a request is stamped with (R161). -/
def State.lastLap (s : State) (r : Nat) (x : Region) : Nat :=
  let opn := if x.stepped then x.parts.map x.openLap else [x.bells]
  let queued := (List.range x.count).flatMap fun i => (x.slice i).queue.map (·.stamp)
  let waiting := s.allStreams.flatMap fun st => st.cmds.filterMap fun c => if c.done || c.admitted then none else match c.kind with
    | .scanRead q _ _ stamp _ _ => if q = r then some stamp else none
    | .scanUpdate q _ stamp _ _ => if q = r then some stamp else none
    | _ => none
  (opn ++ queued ++ waiting).foldl Nat.max 0

/-! ### Ports and stamps (R162, R164) -/

/-- The port a stream uses, or none where another stream holds its id, one that is only saved too (R162; assumption 68). A service core's stream
has its SID as any other, 512 included (assumption 137). -/
def State.portOf (s : State) (sid r : Nat) : Option Nat :=
  match Tab.find (s.stream sid).ports r with
  | some p => some p
  | none =>
    if (s.allStreams.any fun st => Tab.find st.ports r == some sid) then none else some sid

def State.takePort (s : State) (sid r p : Nat) : State :=
  let st := s.stream sid
  s.setStream sid { st with ports := Tab.set st.ports r p }

/-- A stamp against a port's open lap: the lap it names, if it is neither closed nor more than 15 ahead. -/
def stampLap (opn : Nat) (stamp : Option Nat) : Option Nat :=
  match stamp with
  | none => some opn
  | some v =>
    let d := signed 32 (v + (2 ^ 32 - opn % 2 ^ 32))
    if d < 0 ∨ 15 < d then none else some (opn + d.toNat)

def lapLate (dva : Nat) (stamp opn : Nat) : FaultInfo :=
  { code := 0x12, addr := BitVec.ofNat 64 dva, detail := BitVec.ofNat 64 (stamp % 2 ^ 32 + opn % 2 ^ 32 * 2 ^ 32) }

/-- Every byte from one address to another is mapped in a world. -/
def State.spanMapped (s : State) (wid last : Nat) : Nat → Nat → Bool
  | 0, _ => false
  | fuel + 1, a =>
    match s.page wid a with
    | none => false
    | some p => decide (last < p.dva + pageBytes p.size) || s.spanMapped wid last fuel (p.dva + pageBytes p.size)

/-- A range reaches bytes of a region's last page that hold no row (R160). -/
def State.inTail (s : State) (wid a last : Nat) : Bool :=
  s.regions.any fun p => p.2.wid == wid && p.2.bytes % 65536 != 0 && decide (p.2.base + p.2.bytes ≤ last) && decide (a < p.2.base + (p.2.bytes + 65535) / 65536 * 65536)

/-- Some page of a range is not of class scanned. -/
def State.unscanned (s : State) (wid a last : Nat) : Bool :=
  s.pages.any fun p => p.wid == wid && decide (p.dva ≤ last) && decide (a < p.dva + pageBytes p.size) && p.cls != 1

/-- The checks of R170 in their order: R152 over the range, ALIGN, the port. Answers the region, its number and the port. A region takes
requests from the moment firmware has mapped it, and until its release has removed the mapping (assumptions 94 and 95). -/
def State.scanCheck (s : State) (sid a len : Nat) (k : Kind) : Except FaultInfo (Nat × Region × Nat) :=
  let wid := s.widOf sid
  let last := a + Nat.max len 1 - 1
  if 0x800000000000 ≤ a then .error (if s.named sid a && s.named sid last then classFault a 15 else xlate a k len) else
  if !(s.spanMapped wid last (s.pages.length + 1) a) || s.inTail wid a last then .error (xlate a k len)
  else if s.unscanned wid a last then .error (classFault a 15) else
  match s.pageCheck wid sid a (Nat.max len 1) k true false 1 with
  | .error f => .error (f.ofSpan k len)
  | .ok _ =>
    match (s.regionAt wid a).bind fun r => (s.region r).map fun x => (r, x) with
    | none => .error (classFault a 15)
    | some (r, x) =>
      if a % 64 ≠ 0 ∨ len % 64 ≠ 0 ∨ len = 0 ∨ 1024 < a % 1024 + len then .error (align a k len)
      else
        match s.portOf sid r with
        | none => .error (classFault a r)
        | some p => if x.stepped && !(x.parts.contains p) then .error (classFault a r) else .ok (r, x, p)

/-! ### Admission (R177) -/

/-- Row, slice and offset of a DVA of a region. -/
def Region.place (x : Region) (a : Nat) : Nat × Nat × Nat :=
  let g := (a - x.base) / 1024
  (g, g % x.count, (a - x.base) % 1024)

/-- The slice's queue for a port has room: 64 entries (R177). -/
def Region.roomFor (x : Region) (i port : Nat) : Bool := decide (((x.slice i).queue.filter fun q => q.port == port).length < 64)

/-- A request enters its slice's queue with the port's next sequence number, in C issue order (R164, R177). While its region is being released
its lap is closed with it (R161). -/
def State.enqueueScan (s : State) (r : Nat) (x : Region) (port stamp a len sid cmd : Nat) (update : Option (ScanOp × List Byte)) : State :=
  let (g, i, off) := x.place a
  let seq := Tab.get 0 x.seqs port
  let q : ScanReq := { port := port, seq := seq, stamp := stamp, row := g, off := off, len := len, update := update, sid := sid, cmd := cmd, wid := x.wid }
  let y := x.slice i
  let x := { x.setSlice i { y with queue := y.queue ++ [q] } with seqs := Tab.set x.seqs port (seq + 1) }
  let x := if x.releasing then s.closeThrough r x stamp else x
  s.setRegion r (x.goOn i)

/-- The links between a core and a slice of a region (R15, R16). -/
def Region.sliceRoute (x : Region) (core i : Nat) : List Nat :=
  let die := stackDie (x.slots.getD i 0 / 64)
  if 256 ≤ core then [hubLink die] else dieRoute (dieOf core) die

def State.sliceClear (s : State) (core : Nat) (x : Region) (i : Nat) : Bool := (x.sliceRoute core i).all s.linkClear

/-- A link on the way to a slice has passed the reset marker of the region's world: the request is discarded there (R289). -/
def State.sliceCut (s : State) (core : Nat) (x : Region) (i : Nat) : Bool := (x.sliceRoute core i).any fun k => (s.link k).flush.contains x.wid

/-- A slice moves on: where a lap is served by that, the links from the slice to the subscribed streams are clear first (R16, R167). -/
def State.moveSlice (s : State) (r i : Nat) (x : Region) : Result :=
  if decide (x.served < x.servedNow) && !(s.links.isEmpty || s.streams.all fun p => !(p.2.subscribed r x.wid) || s.sliceClear (coreOf p.1) x i) then .next s
  else .next (s.putRegion r x fun sid => s.sliceCut (coreOf sid) x i)

/-- A scanned request of a stream that waits at C's lane, if its slice has room and, where it delivers there, the FIFO a row; a CSCANU's admission is a DEV release (R175). -/
def State.tryAdmit (s : State) (sid : Nat) (c : Cmd) : State × Bool :=
  let go (s : State) (r a len stamp : Nat) (update : Option (ScanOp × List Byte)) : State × Bool :=
    match s.region r, s.portOf sid r with
    | some x, some p =>
      if s.sliceCut (coreOf sid) x (x.place a).2.1 then (s, true) else
      if x.roomFor (x.place a).2.1 p && s.sliceClear (coreOf sid) x (x.place a).2.1 then ((s.enqueueScan r x p stamp a len sid c.id update).progress sid, true) else (s, false)
    | _, _ => (s, false)
  match c.kind with
  | .scanRead r a len stamp vq _ => if vq && decide (16 < (s.stream sid).owed) then (s, false) else go s r a len stamp none
  | .scanUpdate r a stamp op data =>
    let rel := if s.copiesDone sid c then s.releaseRetired sid else (s, false)
    if rel.2 then go rel.1 r a data.length stamp (some (op, data)) else (rel.1, false)
  | _ => (s, false)

/-- What C does at a lane whose scanned request it has made: it holds there until the slice admits it (R177). -/
def State.afterAdmission (s : State) (c : Cmd) : State :=
  match c.kind with
  | .scanUpdate .. =>
    s.setMe { s.me with cmds := s.me.cmds.filter fun x => x.id != c.id }
  | _ => ((s.setMe (s.me.setCmd { c with atLane := false })).retireCmds s.cur.sid .c).deferred

/-- A new scanned request of C: admitted at once if its slice has room, else C holds at it. -/
def State.issueScan (s : State) (c : Cmd) : State :=
  let s := s.addCmd c
  let r := s.tryAdmit s.cur.sid c
  if r.2 then
    let c := { c with admitted := true }
    (r.1.setMe (r.1.me.setCmd c)).afterAdmission c
  else ((r.1.setMyEng { r.1.myEng with hold := .command })).held

/-! ### The instructions of C -/

def State.scanStamp (s : State) (lapr : EReg) (lap : Bool) : Option Nat := if lap then some ((s.getE .c lapr).toNat % 2 ^ 32) else none

/-- CSCANR (R170, R172, R322). It takes its stamp, and then holds for a row of the FIFO and for its slice; one that finds C's 16 commands in
flight has not begun (assumption 69). -/
def execCscanr (a len d lapr : EReg) (lap vq : Bool) (s : State) : Result :=
  let sid := s.cur.sid
  match s.me.standing .c with
  | some c => if c.admitted then .next (s.afterAdmission c) else .next s.held
  | none =>
    let dva := (s.getE .c a).toNat
    let n := (s.getE .c len).toNat
    let dst := (s.getE .c d).toNat
    match s.scanCheck sid dva n .read with
    | .error f => .next (s.fault f)
    | .ok (r, x, port) =>
      match stampLap (x.openLap port) (s.scanStamp lapr lap) with
      | none => .next (s.fault (lapLate dva ((s.getE .c lapr).toNat) (x.openLap port)))
      | some stamp =>
        if !vq ∧ dst % 64 ≠ 0 then .next (s.fault (align dst .write (n + 8)))
        else if !vq ∧ (s.spDvaRange sid dst (n + 8)).isNone then .next (s.fault (xlate dst .write (n + 8)))
        else if !s.roomC then s.holdCmd
        else .next ((s.takePort sid r port).issueScan { s.newCmd (.scanRead r dva n stamp vq dst) with atLane := true })

/-- CSCANU's source (R171): bytes, whether it opens a window, or the fault it takes. A gated page is read as normal device memory
(assumption 72). -/
def State.scanSource (s : State) (sid src n : Nat) : State × Except FaultInfo (List Byte × Option (Nat × Nat)) :=
  if src < 0x800000000000 then
    match s.pageCheck (s.widOf sid) sid src n .read false false 64 with
    | .error f => (s, .error f)
    | .ok _ =>
      match s.readSpan sid src n with
      | (s, _, some g) => (s, .error (poisonAt g .read n))
      | (s, bs, none) => (s, .ok (bs, none))
  else
    match s.spDvaRange sid src n with
    | some off =>
      if src % 64 ≠ 0 then (s, .error (align src .read n)) else
      match s.spBadAt (coreOf sid) off n with
      | some g => (s, .error (poisonAt (src + (g - off)) .read n))
      | none => (s.spMeet sid .c off n, .ok (s.spBytes (coreOf sid) off n, some (off, off + n - 1)))
    | none =>
      if s.named sid src && !(decide (spDva ≤ src) && decide (src < spDva + 0x100000)) then (s, .error (classFault src 15)) else (s, .error (xlate src .read n))

/-- CSCANU (R170, R171, R323): a scratchpad source takes a free operand window, which closes at once since it is read at issue
(R145), and it waits behind C's earlier copies that have yet to read bytes of it (R186). One that holds, or faults at its stamp, has not read its
source. -/
def execCscanu (a src len lapr : EReg) (lap : Bool) (op : ScanOp) (s : State) : Result :=
  let sid := s.cur.sid
  match s.me.standing .c with
  | some c => if c.admitted then .next (s.afterAdmission c) else .next s.held
  | none =>
    let dva := (s.getE .c a).toNat
    let n := (s.getE .c len).toNat
    match s.scanCheck sid dva n .write with
    | .error f => .next (s.fault f)
    | .ok (r, x, port) =>
      let t := s.catchUp sid .c
      let u := t.1
      let src := (s.getE .c src).toNat
      if !t.2 || (decide (src < 0x800000000000) && !(u.readsClear sid 1 [src])) then u.holdCmd else
      match u.scanSource sid src n with
      | (v, .error f) => .next (v.fault f)
      | (v, .ok (data, span)) =>
        match stampLap (x.openLap port) (s.scanStamp lapr lap) with
        | none => .next (u.fault (lapLate dva ((s.getE .c lapr).toNat) (x.openLap port)))
        | some stamp =>
          if !u.roomC || (span.isSome && !(u.windowFree sid)) || !(u.mayReadNow sid src n) then u.holdCmd
          else .next ((v.takePort sid r port).issueScan { v.newCmd (.scanUpdate r dva stamp op data) with atLane := true })

/-- CLAP (R173, R318). The spec does not say that it waits for pass 0 (assumption 94). -/
def execClap (d r : EReg) (close : Bool) (s : State) : Result :=
  let sid := s.cur.sid
  let v := (s.getE .c r).toNat
  match (if v < 16 then s.region v else none) with
  | none => .next (s.fault (classFault 0 (v % 16)))
  | some x =>
    match (if x.wid = s.widOf sid then s.portOf sid v else none) with
    | none => .next (s.fault (classFault 0 v))
    | some p =>
      if (x.stepped && !(x.parts.contains p)) || (close && !x.stepped) then .next (s.fault (classFault 0 v))
      else
        let l := x.openLap p
        if close ∧ x.served + 16 ≤ l then s.holdCmd
        else
          let s := s.takePort sid v p
          let s := s.setMe { s.me with subs := if s.me.subs.contains v then s.me.subs else s.me.subs ++ [v] }
          let s := s.setE .c d (BitVec.ofNat 64 (l % 2 ^ 32))
          if close then .next (s.setRegion v ({ x with opn := Tab.set x.opn p (l + 1), undo := none }.sendMarkers p l)) else .next s

/-! ### Steps of the slices -/

/-- A slice writes one row to zero (Table 7.5); after the last one lap 0 is open, and its pass begins once its markers are in. -/
def execSliceZeroRow (region slice : Nat) (s : State) : Result :=
  match s.region region with
  | none => .next s
  | some x =>
    let y := x.slice slice
    match (if slice < x.count then y.st else .wait 0) with
    | .zero row =>
      let a := rowAddr region (row * x.count + slice)
      let s := { s with mem := Memory.clear s.mem a 1024 }
      let s := (List.range 16).foldl (fun (s : State) i => s.cleanGranule (a / 64 + i)) s
      if row + 1 < x.nrow then .next (s.setRegion region (x.setSlice slice { y with st := .zero (row + 1) }))
      else s.moveSlice region slice ((x.setSlice slice { y with st := .wait 0 }).goOn slice)
    | _ => .next s

/-- No request of a port stamped at or below a lap still waits at its stream's C for a slice (R165, R166; assumption 70). -/
def State.noneWaiting (s : State) (r port lap : Nat) : Bool :=
  !(s.allStreams.any fun st => (Tab.find st.ports r == some port) && st.cmds.any fun c => !c.admitted && !c.done &&
    (match c.kind with
     | .scanRead q _ _ stamp _ _ => q == r && decide (stamp ≤ lap)
     | .scanUpdate q _ stamp _ _ => q == r && decide (stamp ≤ lap)
     | _ => false))

/-- The core a region's port sends from: that of the stream that holds it, else the one it is numbered by (R162). -/
def State.portCore (s : State) (r port : Nat) : Nat :=
  ((s.streams.find? fun p => !(isService p.1) && Tab.find p.2.ports r == some port).map fun p => coreOf p.1).getD (coreOf port)

/-- A close marker reaches a slice (R165): the oldest of its port on the way to that slice, over links that are clear (R16). Behind the world's
reset marker it is discarded (R289). -/
def execCloseMarkerArrive (region slice port : Nat) (s : State) : Result :=
  match s.region region with
  | none => .next s
  | some x =>
    match x.pend.find? fun m => m.1 == slice && m.2.1 == port with
    | none => .next s
    | some m =>
      if s.noneWaiting region port m.2.2 && s.sliceClear (s.portCore region port) x slice then
        let y := x.slice slice
        if s.sliceCut (s.portCore region port) x slice then .next (s.setRegion region { x with pend := x.pend.erase m }) else
        let x := { x.setSlice slice { y with markers := y.markers ++ [(port, m.2.2)] } with pend := x.pend.erase m }
        s.moveSlice region slice (x.goOn slice)
      else .next s

/-- Every slice has written its rows to zero. -/
def Region.made (x : Region) : Bool := (List.range x.count).all fun i => match (x.slice i).st with | .zero _ => false | _ => true

/-- The lap bell (R166): every port closes its open lap. It rings once SCANMAKE has written its status (R159), and is delayed while the oldest unserved lap is 16 behind. -/
def execLapBell (region : Nat) (s : State) : Result :=
  match s.region region with
  | none => .next s
  | some x =>
    if x.stepped || x.releasing || !x.made || x.waiter.isSome || decide (s.now < x.lastBell + x.bell) || decide (x.served + 16 ≤ x.bells) then .next s
    else
      let l := x.bells
      let y := { x with bells := l + 1, lastBell := x.lastBell + x.bell }
      .next (s.setRegion region ((s.timedPorts region).foldl (fun y p => y.sendMarkers p l) y))

/-! ### Serving a row (R168, R169, R179, R180) -/

/-- Insertion by a key. -/
def insertBy {α : Type} (le : α → α → Bool) (x : α) : List α → List α
  | [] => [x]
  | y :: t => if le x y then x :: y :: t else y :: insertBy le x t

def sortBy {α : Type} (le : α → α → Bool) : List α → List α
  | [] => []
  | x :: t => insertBy le x (sortBy le t)

/-- The bytes of an update (Table 7.2). -/
def updateBytes (op : ScanOp) (old new : List Byte) : List Byte :=
  let apply (w : Nat) (f : Nat → Nat → Nat) : List Byte :=
    leBytes old.length (packElems (8 * w) (((elems (8 * w) (old.length / w) (leNat old)).zip (elems (8 * w) (old.length / w) (leNat new))).map fun p => f p.1 p.2))
  match op with
  | .set => new
  | .addF32 => apply 4 (addAt .f32)
  | .addBf16 => apply 2 (addAt .bf16)
  | .addF16 => apply 2 (addAt .f16)
  | .addI32 => apply 4 (addAt .i32)
  | .maxF32 => apply 4 (maxAt .f32)
  | .minF32 => apply 4 (minAt .f32)

/-- The granules of a row range are read (R155, R179); answers which hold a lasting error. The lasting errors of one request are one
entry of the log (Table 7.12), of a zero-fill where its reply holds zeros for them. -/
def State.scanRead (s : State) (x : Region) (a n port lap dva : Nat) (zeros : Bool) : State × List Bool :=
  let r := (List.range (n / 64)).foldl (fun (acc : State × List (Bool × Nat)) i =>
    let q := acc.1.tryGranule (a + 64 * i)
    (if q.2.2 = 1 then q.1.logError x.wid 1 port (lap % 2 ^ 32) (dva + 64 * i) 0 else q.1, acc.2 ++ [q.2])) (s, [])
  let bad := r.2.map (·.1)
  match r.2.zipIdx.find? fun p => p.1.2 == 2 || (p.1.1 && zeros) with
  | some p => (r.1.logError x.wid (if zeros then 3 else 2) port (lap % 2 ^ 32) (dva + 64 * p.2) 0, bad)
  | none => (r.1, bad)

/-- One update of a row: dropped whole where it touches a poisoned granule, unless it is a SET (R180). The log entry is the count of
the drop (assumption 71). -/
def State.applyUpdate (s : State) (r : Nat) (x : Region) (q : ScanReq) (op : ScanOp) (data : List Byte) : State :=
  let a := rowAddr r q.row + q.off
  let dva := x.base + 1024 * q.row + q.off
  if op = .set then (s.setHome (.dram a) data).writtenPoison (.dram a) data.length
  else
    let (s, bad) := s.scanRead x a q.len q.port q.stamp dva false
    if bad.contains true then s.logError x.wid 4 q.port (q.stamp % 2 ^ 32) dva (q.seq % 2 ^ 32 + q.port * 2 ^ 32)
    else s.setHome (.dram a) (updateBytes op (Memory.readList s.mem a q.len) data)

/-- One read of a row: its reply waits in the command that asked (R168, R172, R176). -/
def State.serveRead (s : State) (r : Nat) (x : Region) (q : ScanReq) : State :=
  let a := rowAddr r q.row + q.off
  let (s, bad) := s.scanRead x a q.len q.port q.stamp (x.base + 1024 * q.row + q.off) x.zfill
  let bytes := (Memory.readList s.mem a q.len).zipIdx.map fun p => if bad.getD (p.2 / 64) false then (0 : Byte) else p.1
  let any := bad.contains true
  let status := q.stamp % 2 ^ 32 + any.toNat * 2 ^ 32 + (any && x.zfill).toNat * 2 ^ 33
  s.mapCmd q.cmd fun c => { c with reply := some (bytesRow bytes, BitVec.ofNat 64 status), pos := leNat (bad.map fun b => if b then (1 : Byte) else 0) }

/-- The cursor reaches the next row with work: its updates by port and sequence number, then its reads (R168). -/
def execSliceRowServe (region slice : Nat) (s : State) : Result :=
  match s.region region with
  | none => .next s
  | some x =>
    let y := x.slice slice
    match y.st with
    | .pass lap row =>
      let work := y.queue.filter fun q => q.stamp == lap && decide (row ≤ q.row / x.count)
      match (sortBy (fun a b => decide (a.row ≤ b.row)) work).head? with
      | none => .next s
      | some f =>
        let here := work.filter fun q => q.row == f.row
        let ups := sortBy (fun a b => decide (a.port < b.port) || (a.port == b.port && decide (a.seq ≤ b.seq))) (here.filter fun q => q.update.isSome)
        let s := ups.foldl (fun (s : State) q => match q.update with | some (op, data) => s.applyUpdate region x q op data | none => s) s
        let s := (here.filter fun q => q.update.isNone).foldl (fun (s : State) q => s.serveRead region x q) s
        let y := { y with st := .pass lap (f.row / x.count + 1), queue := y.queue.filter fun q => !(q.stamp == lap && q.row == f.row) }
        .next (s.setRegion region (x.setSlice slice y))
    | _ => .next s

/-- The cursor passes the last row (Table 7.5). -/
def execSlicePassEnd (region slice : Nat) (s : State) : Result :=
  match s.region region with
  | none => .next s
  | some x =>
    let y := x.slice slice
    match y.st with
    | .pass lap row =>
      if y.queue.any fun q => q.stamp == lap && decide (row ≤ q.row / x.count) then .next s
      else
        let x := x.setSlice slice { y with st := .wait (lap + 1), markers := y.markers.filter fun m => decide (lap < m.2) }
        s.moveSlice region slice (x.goOn slice)
    | _ => .next s

/-! ### Admission and replies of a stream -/

/-- The oldest scanned request of C that waits for its slice. -/
def Stream.unadmitted (st : Stream) : Option Cmd :=
  st.cmds.find? fun c => !c.done && !c.admitted && (match c.kind with | .scanRead .. => true | .scanUpdate .. => true | _ => false)

/-- A request that waits for its slice is admitted once there is room (R177). -/
def execScanAdmission (sid : Nat) (s : State) : Result :=
  match (s.stream sid).unadmitted with
  | none => .next s
  | some c =>
    if !(s.cmdsRun sid) then .next s
    else
      let r := s.tryAdmit sid c
      if !r.2 then .next r.1
      else
        match c.atLane, c.kind with
        | false, .scanUpdate .. => .next (r.1.finishCmd sid c)
        | _, _ => .next (r.1.setStream sid ((r.1.stream sid).setCmd { c with admitted := true }))

/-- A reply can cross the links from its slice to a stream's core: they are clear, and none has passed the world's reset marker (R16, R289). -/
def State.replyClear (s : State) (sid r a : Nat) : Bool :=
  match s.region r with | some x => s.sliceClear (coreOf sid) x (x.place a).2.1 && !(s.sliceCut (coreOf sid) x (x.place a).2.1) | none => true

/-- The oldest reply a stream is owed is delivered (R172, R175): to the FIFO, or to the scratchpad, where a live operand window
may hold it (R146). -/
def execScanReplyDeliver (sid : Nat) (s : State) : Result :=
  let st := s.stream sid
  match st.cmds.find? fun c => c.delivers with
  | none => .next s
  | some c =>
    match c.kind, c.reply with
    | .scanRead r a n _ vq dst, some (row, status) =>
      if st.run = Run.free || !(s.replyClear sid r a) then .next s
      else if vq then .next ((s.setStream sid { st with vq := st.vq ++ [{ data := row, status := status }] }).finishCmd sid c)
      else
        match s.spDvaRange sid dst (n + 8) with
        | none => .next s
        | some off =>
          let k := coreOf sid
          let u := s.settledHome sid (.sp k off) (n + 8)
          if s.inWindow k off (n + 8) || !(s.mayWriteC sid c dst (n + 8)) then .next s
          else if !u.2 then .next u.1
          else
            let s := u.1
            let bytes := (rowBytes row).take n ++ word8 status.toNat
            let s := s.writeHome sid (.sp k off) bytes
            let bad := status.getLsbD 32 && !status.getLsbD 33
            let marks := leBytes (n / 64) c.pos
            let s := if bad then
                s.setCore k { s.core k with spBad := (List.range (n / 64)).foldl (fun t i => if marks.getD i 0 != 0 then Tab.put false t (off / 64 + i) true else t) (s.core k).spBad }
              else s
            .next (s.finishCmd sid c)
    | _, _ => .next s

end Sys2Proof.Machine
end

