-- ==== Sys2Proof/Machine/Copy.lean ====
section
/-! DEFINITION. The copies of C and gate flips as events (06 R158; 09 R212; 11 R268, R271 to R273; 13 R310 to R317). -/

namespace Sys2Proof.Machine

open Sys2Proof

/-! ### Descriptors (R311, R316) -/

/-- C reads a descriptor of n bytes in the stream's scratchpad whole at issue, and meets what wrote it (R192). -/
def State.readDescriptor (s : State) (sid dva n : Nat) : State × Except FaultInfo (List Byte) :=
  if dva % 32 ≠ 0 then (s, .error (align dva .read n))
  else
    match s.spDvaRange sid dva n with
    | none => (s, .error (xlate dva .read n))
    | some off =>
      match s.spBadAt (coreOf sid) off n with
      | some g => (s, .error (poisonAt (dva + g - off) .read n))
      | none => (s.spMeet sid .c off n, .ok (s.spBytes (coreOf sid) off n))

def descWord (bs : List Byte) (off n : Nat) : Nat := leNat ((bs.drop off).take n)

/-- What a copy instruction finds at issue. -/
inductive Plan
  | illop
  | fault (f : FaultInfo)
  | copy (d : CopyDesc)

/-- The copy descriptor (Table 13.4) and the checks of R312. Counts of dimensions that the table does not give are ILLOP (assumption 103). -/
def copyPlan (dva : Nat) (bs : List Byte) : Plan :=
  let w := descWord bs 16 8
  let z := 2 ^ bits w 4 4
  let n := bits w 0 4 + 1
  let fifo := bits w 8 1 == 1
  let src := descWord bs 0 8
  let dst := descWord bs 8 8
  let dims := (List.range n).map fun d =>
    (descWord bs (32 + 20 * d) 4, signed 64 (descWord bs (36 + 20 * d) 8), signed 64 (descWord bs (44 + 20 * d) 8))
  if 2 ^ 9 ≤ w ∨ descWord bs 24 8 ≠ 0 ∨ 6 < bits w 4 4 ∨ 8 < n ∨ (fifo ∧ dst ≠ 0) then .illop
  else if src % z ≠ 0 then .fault (align src .read z)
  else if !fifo ∧ dst % z ≠ 0 then .fault (align dst .write z)
  else if dims.any fun x => x.2.1 % (z : Int) != 0 || x.2.2 % (z : Int) != 0 then .fault (align dva .read z)
  else .copy { src := src, dst := dst, esize := z, dims := dims, toVq := fifo }

/-- The gather descriptor (Table 13.6) and the checks of R317. -/
def State.gatherPlan (s : State) (sid : Nat) (bs : List Byte) : Plan :=
  let base := descWord bs 0 8
  let dst := descWord bs 8 8
  let idx := descWord bs 16 8
  let count := descWord bs 24 4
  let rowb := descWord bs 28 4
  let w := descWord bs 32 8
  let fifo := bits w 0 1 == 1
  if 2 ≤ w ∨ descWord bs 40 24 ≠ 0 ∨ rowb % 32 ≠ 0 ∨ rowb < 32 ∨ (if fifo then 1024 else 65536) < rowb ∨ (fifo ∧ dst ≠ 0) then .illop
  else if base % 32 ≠ 0 then .fault (align base .read rowb)
  else if !fifo ∧ dst % 32 ≠ 0 then .fault (align dst .write rowb)
  else if idx % 4 ≠ 0 then .fault (align idx .read 4)
  else if count ≠ 0 ∧ (s.spDvaRange sid idx (4 * count)).isNone then .fault (xlate idx .read 4)
  else .copy { src := base, dst := dst, esize := 32, dims := [(rowb / 32, 32, 32), (count, rowb, rowb)], toVq := fifo, index := some (idx, rowb) }

/-- The lowest and the highest address a linear form takes. -/
def formSpan (base : Nat) (dims : List (Nat × Int)) : Int × Int :=
  dims.foldl (fun p x => let d := ((x.1 : Int) - 1) * x.2; (p.1 + min 0 d, p.2 + max 0 d)) ((base : Int), (base : Int))

/-- The source bytes of a copy in the stream's own scratchpad window, from the lowest to the highest (R145). -/
def State.copySpan (s : State) (sid : Nat) (d : CopyDesc) : Option (Nat × Nat) :=
  let spans : List (Int × Int) := match d.index with
    | none => let p := formSpan d.src (d.dims.map fun x => (x.1, x.2.1)); [(p.1, p.2 + d.esize - 1)]
    | some (idx, rowb) =>
      let count := (d.dims.getD 1 (0, 0, 0)).1
      let ks := (List.range count).map fun j => (d.src : Int) + s.gatherIndex sid idx j * rowb
      ((idx : Int), (idx : Int) + 4 * count - 1) :: ks.map fun k => (k, k + rowb - 1)
  let lo : Int := spDva
  let hi : Int := spDva + (s.stream sid).spSize - 1
  let own := (spans.filter fun p => decide (p.1 ≤ hi) && decide (lo ≤ p.2)).map fun p => (max p.1 lo, min p.2 hi)
  match own with
  | [] => none
  | p :: ps =>
    let q := ps.foldl (fun a b => (min a.1 b.1, max a.2 b.2)) p
    let b := spBase (s.stream sid) sid
    some (b + (q.1 - lo).toNat, b + (q.2 - lo).toNat)

/-- A copy issues: it takes one of C's 16 commands, a row of the FIFO if it delivers there, and its operand window. -/
def State.issueCopy (s : State) (d : CopyDesc) (flag : Option (Nat × Word × Scope × Bool)) : Result :=
  let sid := s.cur.sid
  if d.total = 0 ∧ flag.isNone then .next s
  else if !s.roomC ∨ (d.toVq ∧ 16 ≤ s.me.owed) then s.holdCmd
  else
    match (if d.total = 0 then none else s.copySpan sid d) with
    | none => .next ((s.addCmd (s.newCmd (.copy d flag))).deferred)
    | some sp =>
      match s.openWindow sid .c sp.1 sp.2 with
      | none => s.holdCmd
      | some win => .next ((win.1.addCmd { win.1.newCmd (.copy d flag) with win := some win.2 }).deferred)

/-- CCOPY (R312). Its descriptor is read behind C's earlier reads of those bytes (R186). -/
def execCcopy (a : EReg) (s : State) : Result :=
  let r := s.catchUp s.cur.sid .c
  if !r.2 then r.1.holdCmd else
  let s := r.1
  let dva := (s.getE .c a).toNat
  if !(s.mayReadNow s.cur.sid dva 192) then s.holdCmd else
  match s.readDescriptor s.cur.sid dva 192 with
  | (s, .error f) => .next (s.fault f)
  | (s, .ok bs) =>
    match copyPlan dva bs with
    | .illop => .next s.illop
    | .fault f => .next (s.fault f)
    | .copy d => s.issueCopy d none

/-- CGATH (R317). -/
def execCgath (a : EReg) (s : State) : Result :=
  let r := s.catchUp s.cur.sid .c
  if !r.2 then r.1.holdCmd else
  let s := r.1
  let dva := (s.getE .c a).toNat
  if !(s.mayReadNow s.cur.sid dva 64) then s.holdCmd else
  match s.readDescriptor s.cur.sid dva 64 with
  | (s, .error f) => .next (s.fault f)
  | (s, .ok bs) =>
    match s.gatherPlan s.cur.sid bs with
    | .illop => .next s.illop
    | .fault f => .next (s.fault f)
    | .copy d => s.issueCopy d none

/-- The slices of rows hold the world's key (R20). -/
def State.bankKeys (s : State) (wid : Nat) (rows : List Nat) : State :=
  rows.foldl (fun (s : State) a => match s.dpa wid a with | some d => s.sliceKey wid (Config.sliceOf (d / 64)) | none => s) s

/-- CBANK (R158, R310): row by row, as a copy of the same bytes. -/
def execCbank (src dst rows : EReg) (s : State) : Result :=
  let r := s.catchUp s.cur.sid .c
  if !r.2 then r.1.holdCmd else
  let s := r.1
  let a := (s.getE .c src).toNat
  let b := (s.getE .c dst).toNat
  let n := (s.getE .c rows).toNat
  if a % 1024 ≠ 0 then .next (s.fault (align a .read 1024))
  else if b % 1024 ≠ 0 then .next (s.fault (align b .write 1024))
  else (s.bankKeys (s.widOf s.cur.sid) ((List.range n).flatMap fun i => [a + 1024 * i, b + 1024 * i])).issueCopy { src := a, dst := b, esize := 64, dims := [(16 * n, 64, 64)] } none

/-- CCOPYF's checks of its flag at issue (R272, R315, Table 11.4). -/
def State.flagCheck (s : State) (sid f : Nat) (v : Word) (sc : Scope) (add : Bool) : Option FaultInfo :=
  let wid := s.widOf sid
  if f < 0x800000000000 then
    match s.pageCheck wid sid f 8 .write false true with
    | .error x => some x
    | .ok _ =>
      match s.gateAt wid f with
      | some g => if add || sc != .dev || decide (1 < v.toNat) then some (gateFault g.dva g.dva) else none
      | none => none
  else
    match s.target sid f 8 .write with
    | .error x => some x
    | .ok (.ring _ _ _ _) => if add then none else some (classFault f 15)
    | .ok _ => if add then some (classFault f 15) else none

/-- CCOPYF (R272, R315). -/
def execCcopyf (a flag val : EReg) (sc : Scope) (add : Bool) (s : State) : Result :=
  let sid := s.cur.sid
  let r := s.catchUp sid .c
  if !r.2 then r.1.holdCmd else
  let s := r.1
  let dva := (s.getE .c a).toNat
  let f := (s.getE .c flag).toNat
  let v := s.getE .c val
  if !(s.mayReadNow sid dva 192) then s.holdCmd else
  match s.readDescriptor sid dva 192 with
  | (s, .error x) => .next (s.fault x)
  | (s, .ok bs) =>
    match copyPlan dva bs with
    | .illop => .next s.illop
    | .fault x => .next (s.fault x)
    | .copy d =>
      match s.flagCheck sid f v sc add with
      | some x => .next (s.fault x)
      | none => s.issueCopy d (some (f, v, sc, add))

/-! ### Steps (R212, R312 to R314) -/

/-- A fault at a step into a gated range names the granule (Table 11.4). -/
def stepFault (f : FaultInfo) (dva : Nat) : FaultInfo :=
  if f.code = 0x0D ∧ f.addr ≠ f.detail then { f with addr := BitVec.ofNat 64 (dva / 64 * 64) } else f

/-- The first fault among the elements of a step: each is checked as a read and as a write. -/
def State.stepCheck (s : State) (sid z : Nat) (vq : Bool) (es : List (Nat × Nat)) : Option FaultInfo :=
  es.findSome? fun e =>
    match s.target sid e.1 z .read with
    | .error f => some f
    | .ok _ =>
      if vq then none else
      match s.target sid e.2 z .write with
      | .error f => some (stepFault f e.2)
      | .ok _ => none

/-- One element's bytes, whether its granule is poisoned, and whether it was read as zeros (Table 6.10). CBANK reads as a copy: from a
page with ZFILL a poisoned granule gives clean zeros (assumption 67). -/
def State.copyRead (s : State) (sid dva z : Nat) : State × List Byte × Bool × Bool :=
  match s.target sid dva z .read with
  | .error _ => (s, [], false, false)
  | .ok t =>
    let r := s.load sid .c dva t z none
    let zf := match t with | .dram a p => p.zfill && Tab.get false r.state.memBad (a / 64) | _ => false
    (r.state, r.bytes, r.poison, zf)

/-- A destination granule is written poisoned, or clean where the step wrote all of it; behind its world's reset marker the write is discarded
(R289). -/
def State.markGranule (s : State) (sid : Nat) (es : List (Nat × Nat)) (z : Nat) (bad : Bool) : State :=
  match es with
  | [] => s
  | e :: _ =>
    let whole := decide (((es.map (·.2)).eraseDups.length) * z = 64)
    match (s.target sid e.2 z .write).toOption.filter fun t => !(s.cutOff (s.widOf sid) (coreOf sid) t.loc) with
    | some (.dram a _) =>
      let s := if whole then s.cleanGranule (a / 64) else s
      if bad then { s with memBad := Tab.put false s.memBad (a / 64) true } else s
    | some (.sp c o) =>
      let k := s.core c
      let t := if whole then Tab.put false k.spBad (o / 64) false else k.spBad
      s.setCore c { k with spBad := if bad then Tab.put false t (o / 64) true else t }
    | _ => s

/-- The index of a gather's step is read from the scratchpad: C meets what wrote it (R192, R317). -/
def State.meetIndex (s : State) (sid : Nat) (d : CopyDesc) (pos n : Nat) : State :=
  match d.index with
  | none => s
  | some (idx, rowb) =>
    let c := rowb / d.esize
    (List.range ((pos + n - 1) / c + 1 - pos / c)).foldl (fun (s : State) j => match s.spDvaRange sid (idx + 4 * (pos / c + j)) 4 with
      | some off => s.spMeet sid .c off 4
      | none => s) s

/-- The writes of a step can be made: the older stores to their bytes are home, and the links clear (R16, R186). -/
def State.writesSettled (s : State) (sid z : Nat) (dvas : List Nat) : State × Bool :=
  dvas.foldl (fun (acc : State × Bool) a => match acc.1.target sid a z .write with
    | .ok t => let r := acc.1.settledHome sid t.loc z; (r.1, acc.2 && r.2)
    | .error _ => acc) (s, true)

/-- The elements of a step, each read immediately before it is written (R312). -/
def State.copyElems (s : State) (sid z : Nat) (es : List (Nat × Nat)) : State × Bool :=
  es.foldl (fun (acc : State × Bool) e =>
    let r := acc.1.copyRead sid e.1 z
    match r.1.target sid e.2 z .write with
    | .ok t => (r.1.writeHome sid t.loc r.2.1, acc.2 || r.2.2.1)
    | .error _ => acc) (s, false)

/-- The elements of a FIFO row, with its flags (R313). -/
def State.copyRow (s : State) (sid z : Nat) (es : List (Nat × Nat)) : State × List Byte × Bool × Bool :=
  es.foldl (fun (acc : State × List Byte × Bool × Bool) e =>
    let r := acc.1.copyRead sid e.1 z
    (r.1, acc.2.1 ++ r.2.1, acc.2.2.1 || r.2.2.1 || r.2.2.2, acc.2.2.2 || r.2.2.2)) (s, [], false, false)

/-- The flag of a CCOPYF, after its last step and after C's earlier commands (R272, R315). The write of a flag that is no gate word is checked here
again (assumption 147). Behind its world's reset marker it is discarded, and no answer comes back (R289). -/
def State.flagStep (s : State) (sid : Nat) (c : Cmd) (f : Nat) (v : Word) (sc : Scope) (add : Bool) : State :=
  let wid := s.widOf sid
  match s.flagCheck sid f v sc add with
  | some x => s.faultCmd sid c x
  | none =>
    let ids := s.retiredSet sid
    let r := s.releaseRetired sid sc
    if !r.2 then r.1 else
    let s := r.1
    let mine : RelMark := { core := coreOf sid, scope := sc, ids := ids.filter fun i => s.pendingIds.contains i }
    match s.gateAt wid f with
    | some g =>
      match s.flipCheck sid g with
      | (s, none) => s
      | (s, some (.error x)) => s.faultCmd sid c x
      | (s, some (.ok _)) => (s.setGate { g with flipping := true }).setStream sid ((s.stream sid).setCmd { c with admitted := true })
    | none =>
      match s.target sid f 8 .write with
      | .error x => s.faultCmd sid c x
      | .ok t =>
        let u := s.settledHome sid t.loc 8
        if !u.2 then u.1 else
        let s := u.1
        if s.cutOff wid (coreOf sid) t.loc then s.finishCmd sid c else
        match t with
        | .dram d _ =>
          let r := s.readGranule wid (partyOf sid) f d false
          if r.2 then r.1.faultCmd sid c (poisonAt f .write 8)
          else
            let s := if add then r.1.atSync wid d else r.1
            let chain := if add then s.marksOf (.dram d) (s.readBytes (coreOf sid) (.dram d) 8) else []
            (s.writeHome sid (.dram d) (word8 (if add then leNat (Memory.readList s.mem d 8) + v.toNat else v.toNat)) (chain ++ [mine])).finishCmd sid c
        | .sp k o =>
          if Tab.get false (s.core k).spBad (o / 64) then s.faultCmd sid c (poisonAt f .write 8)
          else if s.windowHolds none k o 8 then s
          else (s.writeHome sid (.sp k o) (word8 v.toNat) [mine]).finishCmd sid c
        | t => (s.writeHome sid t.loc (word8 v.toNat) [mine]).finishCmd sid c

/-- The commands of C still at work, oldest first. -/
def Stream.working (st : Stream) : List Cmd := st.cmds.filter fun c => c.eng == .c && !c.done

/-- After a step: the progress, and the end of a command without a flag. -/
def State.afterStep (s : State) (sid : Nat) (c : Cmd) (n : Nat) (d : CopyDesc) (flag : Bool) : State :=
  let c := { c with pos := c.pos + n, win := if d.total ≤ c.pos + n then none else c.win }
  if d.total ≤ c.pos ∧ !flag then s.finishCmd sid c else (s.setStream sid ((s.stream sid).setCmd c)).progress sid

/-- One step of a copy: one destination granule, one row of the FIFO, or the flag (R212). It is checked when it runs, behind C's earlier writes
to its bytes and earlier flips, by C or S, of the gate over them (R268), and behind C's earlier reads of the bytes it reads (R186). -/
def execCopyStep (sid idx : Nat) (s : State) : Result :=
  let st := s.stream sid
  match st.working[idx]? with
  | none => .next s
  | some c =>
    match (if c.faulted || c.admitted || !(s.cmdsRun sid) then none else match c.kind with | .copy d f => some (d, f) | _ => none) with
    | none => .next s
    | some (d, flag) =>
      if d.total ≤ c.pos then
        match flag with
        | some (f, v, sc, add) => if (st.working.head?.map (·.id)) = some c.id then .next (s.flagStep sid c f v sc add) else .next s
        | none => .next (s.finishCmd sid c)
      else
        let n := d.stepLen (d.stepKey c.pos) (d.total - c.pos) c.pos
        let es := (List.range n).map fun i => (s.srcAt sid d (c.pos + i), d.dstAt (c.pos + i))
        if !d.toVq && (s.cmdHeld sid c || es.any fun e => !(s.mayWriteC sid c e.2 d.esize)) then .next s else
        if (es.any fun e => !(s.mayReadC sid c e.1 d.esize)) || (!d.toVq && es.any fun e => s.flipBefore sid .c .s c.place e.2 d.esize) then .next s else
        match s.stepCheck sid d.esize d.toVq es with
        | some f => .next (s.faultCmd sid c f)
        | none =>
          if !(s.readsClear sid d.esize (es.map (·.1))) then .next s
          else if d.toVq then
            if 16 < st.owed ∨ (st.cmds.find? fun x => x.delivers).map (·.id) ≠ some c.id then .next s
            else
              let r := (s.meetIndex sid d c.pos n).copyRow sid d.esize es
              let q : VqRow := { data := bytesRow r.2.1, status := BitVec.ofNat 64 (r.2.2.1.toNat * 2 ^ 32 + r.2.2.2.toNat * 2 ^ 33) }
              let t := r.1
              .next ((t.setStream sid { t.stream sid with vq := (t.stream sid).vq ++ [q] }).afterStep sid c n d flag.isSome)
          else
            let u := s.writesSettled sid d.esize (es.map (·.2))
            if !u.2 then .next u.1 else
            let r := (u.1.meetIndex sid d c.pos n).copyElems sid d.esize es
            .next ((r.1.markGranule sid es d.esize r.2).afterStep sid c n d flag.isSome)

/-! ### Gate flips (R268) -/

/-- F itself: what was checked before it goes home first, then the word and the permission change. -/
def State.makeFlip (s : State) (sid : Nat) (g : Gate) (owner : Bool) (k : State → State) : State :=
  let ids := s.intoRange g
  let t := if ids.isEmpty then s else s.flush ids 4 flushFuel
  if (ids.isEmpty || t.reached ids 4) && t.clearTo (coreOf sid) (.dram g.dpa) then k (t.flipGate (coreOf sid) g owner) else t

/-- What is left of the flips of a stream: of C's CCOPYF, then of S's GFLIP. One whose gate is gone meanwhile,
since an UNBIND waits for a gate in flip alone, is tried again at its lane (assumption 142). -/
def execGateFlipCommit (sid : Nat) (s : State) : Result :=
  let t := match (s.stream sid).working.find? fun c => c.admitted && (match c.kind with | .copy _ (some _) => true | _ => false) with
    | none => s
    | some c =>
      match c.kind with
      | .copy _ (some (f, v, _, _)) =>
        match s.gateAt (s.widOf sid) f with
        | some g => s.makeFlip sid g (v.getLsbD 0) fun t => t.finishCmd sid c
        | none => s
      | _ => s
  match (t.stream sid).flipping with
  | none => .next t
  | some c =>
    match (if c.done then CmdKind.lane else c.kind) with
    | .flip dpa owner =>
      match t.gates.find? fun g => g.dpa == dpa with
      | some g =>
        if c.pos = 0 then .next (t.beginFlip sid c g)
        else .next (t.makeFlip sid g owner fun u => u.setStream sid ((u.stream sid).setCmd { c with done := true }))
      | none => .next (t.setStream sid { t.stream sid with cmds := (t.stream sid).cmds.filter fun x => x.id != c.id })
    | _ => .next t

end Sys2Proof.Machine
end

