-- ==== Sys2Proof/Machine/Csr.lean ====
section
/-! DEFINITION. The control and status registers (03 R91; 04 R107; 09 R217, R224, R228, R232, R234; 13 R324, R325). -/

namespace Sys2Proof.Machine

open Sys2Proof

/-- TEMP of a core: no hotter than its die's hottest sensor, where one has been read (R23, R107). -/
def State.tempOf (s : State) (core : Nat) : Word :=
  match Tab.find s.power.sensor (dieOf core) with
  | some t => BitVec.ofNat 64 (Nat.min (Config.temp s.tick core).toNat t)
  | none => Config.temp s.tick core

/-- An unprivileged CSR's value; none where Table 4.15 lists no such number. -/
def State.csrUser (s : State) (sid n : Nat) : Option Word :=
  let st := s.stream sid
  let c := coreOf sid
  match n with
  | 0x000 => some (BitVec.ofNat 64 (s.clock + Config.cycleBase c))
  | 0x001 => some (BitVec.ofNat 64 st.lcid)
  | 0x002 => some (BitVec.ofNat 64 c)
  | 0x003 => some (BitVec.ofNat 64 sid)
  | 0x004 => some (BitVec.ofNat 64 (s.widOf sid))
  | 0x005 => some (BitVec.ofNat 64 st.win)
  | 0x006 => some st.stbase
  | 0x007 => some st.stlim
  | 0x008 => some (st.evt.zeroExtend 64)
  | 0x009 => some (s.tempOf c)
  | 0x00A => some (BitVec.ofNat 64 st.fmtq.length)
  | 0x00B => some st.wdog
  | 0x010 => some st.fcode
  | 0x011 => some st.faddr
  | 0x012 => some st.fline
  | 0x013 => some st.feng
  | _ => none

/-- A privileged CSR's value (Table 9.5): OP of CTXCMD reads 0, and 0x100 to 0x104 exist on service cores only. -/
def State.csrPriv (s : State) (sid n : Nat) : Option Word :=
  let st := s.stream sid
  let c := s.core (coreOf sid)
  match n with
  | 0x100 => if isService sid then some c.tvec else none
  | 0x101 => if isService sid then some c.epc else none
  | 0x102 => if isService sid then some c.ecause else none
  | 0x103 => if isService sid then some c.escr else none
  | 0x104 => if isService sid then some (BitVec.ofNat 64 c.eie.toNat) else none
  | 0x110 => some s.wtbase
  | 0x120 => some st.ctxsid
  | 0x121 => some st.ctxaddr
  | 0x122 => some (st.ctxcmd &&& ~~~3)
  | 0x128 => some st.pswap
  | 0x129 => some st.pgate
  | 0x130 => some st.migst
  | 0x131 => some s.migbase
  | _ => none

/-- CSRR (R107, R324). -/
def execCsrr (d : SReg) (c : BitVec 12) (s : State) : Result :=
  let n := c.toNat
  if n < 0x100 then
    match s.csrUser s.cur.sid n with
    | some v => .next (s.setS d v)
    | none => .next s.illop
  else
    s.privileged fun s =>
      match s.csrPriv s.cur.sid n with
      | some v => .next (s.setS d v)
      | none => .next s.illop

/-- A write of WIN (R91): clamped at once; the window in force changes at the next block. -/
def execWinWrite (v : Word) (s : State) : Result :=
  .next (s.setMe { s.me with win := Nat.max 1 (Nat.min 64 v.toNat) })

/-- A write of WDOG restarts the count (R88). -/
def execWdogWrite (v : Word) (s : State) : Result := .next (s.setMe { s.me with wdog := v, progAt := s.now })

/-- The BUSY bit of CTXCMD, PSWAP and PGATE. -/
def busyBit : Word := 0x8000000000000000

def isBusy (w : Word) : Bool := w.getLsbD 63

/-- A command word with the read-only BUSY and STATUS fields set. -/
def withStatus (w : Word) (busy : Bool) (status : Nat) : Word :=
  (w &&& 0x0FFFFFFFFFFFFFFF) ||| BitVec.ofNat 64 (busy.toNat * 2 ^ 63 + status * 2 ^ 60)

/-- A write of CTXCMD (R228): holds while BUSY; OP 0 or 3 or a nonzero zero field gives STATUS 4. The RO fields are not
written. -/
def State.writeCtxcmd (s : State) (v : Word) : State :=
  let st := s.me
  if isBusy st.ctxcmd then (s.setMyEng { s.myEng with hold := .command }).held
  else
    let op := bits v.toNat 0 2
    if op = 0 ∨ op = 3 ∨ bits v.toNat 2 58 ≠ 0 then s.setMe { st with ctxcmd := withStatus 0 false 4 }
    else s.setMe { st with ctxcmd := withStatus (BitVec.ofNat 64 op) true 0, ctxDue := true, ctxNext := (st.ctxsid, st.ctxaddr) }

/-- The zero fields of PSWAP and PGATE (Table 9.8, R234). -/
def pswapZero (v : Nat) : Bool := bits v 15 45 == 0 && bits v 10 2 == 0 && bits v 6 2 == 0 && bits v 2 2 == 0
def pgateZero (v : Nat) : Bool := bits v 9 51 == 0 && bits v 6 2 == 0 && bits v 2 2 == 0

def State.writePswap (s : State) (v : Word) : State :=
  let st := s.me
  if isBusy st.pswap then (s.setMyEng { s.myEng with hold := .command }).held
  else
    let op := bits v.toNat 8 2
    if op = 0 ∨ op = 3 ∨ !pswapZero v.toNat then s.setMe { st with pswap := withStatus (v &&& 0x7333) false 4 }
    else s.setMe { st with pswap := withStatus v true 0, pswapDue := true }

def State.writePgate (s : State) (v : Word) : State :=
  let st := s.me
  if isBusy st.pgate then (s.setMyEng { s.myEng with hold := .command }).held
  else if !pgateZero v.toNat then s.setMe { st with pgate := withStatus (v &&& 0x133) false 4 }
  else s.setMe { st with pgate := withStatus v true 0, pgateDue := true }

/-- The bits that the layout of a privileged CSR leaves no meaning (Table 9.5), which R5 admits no silence about: firmware's write of one
is ILLOP (assumption 9). -/
def csrNoBits : Nat → Word
  | 0x100 => 31
  | 0x101 => 0xFFFF000000000018
  | 0x104 => ~~~1
  | 0x110 => 4095
  | 0x120 => ~~~1023
  | 0x131 => 65535
  | _ => 0

/-- The privileged CSRs marked RO: a CSRW of one is ILLOP, before PRIV (R107, R112). -/
def csrReadOnly (n : Nat) : Bool := n == 0x102 || n == 0x130

/-- CSRW (R107, R325). -/
def execCsrw (a : SReg) (c : BitVec 12) (s : State) : Result :=
  let v := s.getS a
  let n := c.toNat
  let k := coreOf s.cur.sid
  if n < 0x100 then
    match n with
    | 0x001 => if s.firmware s.cur.sid then .next (s.setMe { s.me with lcid := v.toNat }) else .next s.illop
    | 0x005 => execWinWrite v s
    | 0x006 => .next (s.setMe { s.me with stbase := v })
    | 0x007 => .next (s.setMe { s.me with stlim := v })
    | 0x00B => execWdogWrite v s
    | _ => .next s.illop
  else if csrReadOnly n then .next s.illop
  else
    s.privileged fun s =>
      if (s.csrPriv s.cur.sid n).isNone || v &&& csrNoBits n != 0 then .next s.illop else
      match n with
      | 0x100 => .next (s.setCore k { s.core k with tvec := v })
      | 0x101 => .next (s.setCore k { s.core k with epc := v })
      | 0x103 => .next (s.setCore k { s.core k with escr := v })
      | 0x104 => .next (s.setCore k { s.core k with eie := v.getLsbD 0 })
      | 0x110 => .next { s with wtbase := v }
      | 0x120 => .next (s.setMe { s.me with ctxsid := v })
      | 0x121 => .next (s.setMe { s.me with ctxaddr := v })
      | 0x122 => .next (s.writeCtxcmd v)
      | 0x128 => .next (s.writePswap v)
      | 0x129 => .next (s.writePgate v)
      | 0x131 => .next { s with migbase := v }
      | _ => .next s.illop

end Sys2Proof.Machine
end

