-- ==== Sys2Proof/Machine/Launch.lean ====
section
/-! DEFINITION. Launch iterations from their record to their end (02 Table 2.5; 03 R77, R80 to R85; 09 R218, R223). -/

namespace Sys2Proof.Machine

open Sys2Proof

/-! ### Records (Table 2.5, R80, R81) -/

/-- The 8-byte word of a record at an offset. -/
def recWord (bs : List Byte) (off : Nat) : Nat := leNat ((bs.drop off).take 8)

/-- The declared levels of a record: extent, kind, order position. The position is the whole field, which sorts by its value beyond 7 too
(assumption 122). -/
def recLevels (bs : List Byte) : List (Nat × Nat × Nat) :=
  (List.range (bits (recWord bs 8) 8 4 + 1)).map fun k =>
    let w := recWord bs (0x10 + 8 * k)
    (bits w 0 32, bits w 32 2, bits w 34 6)

/-- The spatial levels, the lowest order position first: extent, kind, level. -/
def spatial (levels : List (Nat × Nat × Nat)) : List (Nat × Nat × Nat) :=
  (sortBy (fun a b => decide (a.2.2 ≤ b.2.2)) ((levels.zipIdx.filter fun p => p.1.2.1 != 0).map fun p => (p.1.1, p.2 * 4 + p.1.2.1, p.1.2.2))).map
    fun p => (p.1, p.2.1 % 4, p.2.1 / 4)

def product (l : List Nat) : Nat := l.foldl (· * ·) 1

/-- Indices of a linear number, in the order of the spatial levels: the last varies fastest (R81). -/
def indicesOf : List Nat → Nat → List Nat
  | [], _ => []
  | _ :: es, n => n / product es :: indicesOf es (n % product es)

/-- The number q that selects the die (R81). -/
def dieIndex (levels : List (Nat × Nat × Nat)) (n : Nat) : Nat :=
  let sp := spatial levels
  let idx := indicesOf (sp.map (·.1)) n
  let sd := (sp.zip idx).filter fun p => p.1.2.1 == 2
  if sd.isEmpty then n else sd.foldl (fun q p => q * p.1.1 + p.2) 0

def Launch.dieOfIter (l : Launch) (n : Nat) : Nat := l.dies.getD (dieIndex l.levels n % l.dies.length) 0

/-- The first iteration from n on that runs on a die. -/
def Launch.from (l : Launch) (die : Nat) : Nat → Nat → Option Nat
  | 0, _ => none
  | fuel + 1, n => if l.dieOfIter n = die then some n else Launch.from l die fuel (n + 1)

/-- The next iteration to hand out on a die (R82). -/
def Launch.nextOn (l : Launch) (die : Nat) : Option Nat :=
  if l.dies.contains die then
    let n := Tab.get 0 l.next die
    Launch.from l die (l.total - n) n
  else none

/-- The mask names a core (R82). -/
def maskNames (mask : Option (List Byte)) (pcid : Nat) : Bool :=
  match mask with
  | none => true
  | some m => (m.getD (pcid / 8) 0).getLsbD (pcid % 8)

/-- A zero field of a record is nonzero (Table 2.5). -/
def recZeros (bs : List Byte) : Bool :=
  let w := recWord bs 8
  bits w 3 5 != 0 || bits w 15 49 != 0 || recWord bs 0x78 != 0 || bits (recWord bs 0x60) 10 53 != 0 ||
    (List.range 8).any fun k => bits (recWord bs (0x10 + 8 * k)) 40 24 != 0

/-- The joined dies of the clusters a record names, ascending. -/
def State.recDies (s : State) (clusters : Nat) : List Nat := [0, 1, 2, 3].filter fun d => s.joined d && decide (clusters / 2 ^ clusterOf d % 2 = 1)

/-- No stream: the hub's and firmware's own accesses. -/
def noSid : Nat := 2 * noCore

/-- Bytes of a world's memory as seen from a core. -/
def State.peekAt (s : State) (core wid dva n : Nat) : List Byte :=
  (List.range n).map fun i =>
    match s.dpa wid (dva + i) with
    | none => (0 : Byte)
    | some a => ((s.readBytes core (.dram a) 1).map (·.1)).headD 0

/-- Bytes that a unit of the package reads for a party (R155, R422): of a poisoned granule zeros in a page with ZFILL, else a free
value (assumption 56). -/
def State.unitRead (s : State) (party wid dva n : Nat) : State × List Byte :=
  (granulesOf dva n).foldl (fun (acc : State × List Byte) q =>
    match acc.1.page wid q.1 with
    | none => (acc.1, acc.2 ++ List.replicate q.2 0)
    | some p =>
      let r := acc.1.readGranule wid party (q.1 / 64 * 64) (p.dpaOf q.1) p.zfill
      (r.1, acc.2 ++ (if !r.2 then r.1.peekAt noCore wid q.1 q.2
        else if p.zfill then List.replicate q.2 0
        else (List.range q.2).map fun i => Config.noiseByte s.tick (q.1 - dva + i)))) (s, [])

/-- A record as the walker reads it, the `entry`-th of its queue. Its completion word is that of this reading (assumption 65). -/
def State.parseRecord (s : State) (wid dva entry : Nat) (bs : List Byte) (mask : Option (List Byte)) : Launch :=
  let w := recWord bs 8
  let levels := recLevels bs
  { id := s.nextId, wid := wid, dva := dva, entry := entry, text := recWord bs 0, prio := bits w 0 3, wide := bits w 12 1 == 1
    clusters := BitVec.ofNat 2 (bits w 13 2), levels := levels, args := BitVec.ofNat 64 (recWord bs 0x50), doneWord := recWord bs 0x58
    event := recWord bs 0x60, range := recWord bs 0x68, mask := mask, dies := s.recDies (bits w 13 2)
    total := product ((spatial levels).map (·.1)), next := [] }

/-- The placement mask can be read (R80): mapped, normal, with R, and not poisoned. -/
def State.maskReadable (s : State) (wid p : Nat) : Bool :=
  [p, p + 31].all fun a =>
    match s.page wid a with
    | none => false
    | some g => g.cls == 0 && g.r && !(Tab.get false s.memBad (g.dpaOf a / 64)) && Tab.get 0 s.memErr (g.dpaOf a / 64) != 2 && !(s.staleGranule (g.dpaOf a / 64))

/-- R80: the record is refused. -/
def State.refused (s : State) (wid : Nat) (bs : List Byte) (l : Launch) : Bool :=
  let ev := l.event
  let sp := l.levels.filter fun v => v.2.1 != 0
  let mptr := recWord bs 0x70
  decide (l.clusters = 0) || l.levels.any (fun v => v.1 == 0 || v.2.1 == 3) || decide (8 < l.levels.length) || recZeros bs ||
    !((sp.map (·.2.2)).eraseDups.length == sp.length) ||
    (decide (2 ^ 63 ≤ ev) && decide (511 < ev % 1024)) ||
    (bits l.range 38 10 == 0 && l.range != 0) ||
    (mptr != 0 && !(s.maskReadable wid mptr)) || l.dies.isEmpty ||
    l.dies.any fun d => (l.nextOn d).isSome && !((List.range 64).any fun i => maskNames l.mask (64 * d + i))

/-- A record keeps its slot of the launch queue while an iteration of it is unplaced (R84): the head moves past the oldest
records without one. -/
def State.freeSlots (s : State) (wid : Nat) : State :=
  let w := s.world wid
  let unplaced (id : Nat) : Bool := s.launches.any fun l => l.id == id && l.dies.any fun d => (l.nextOn d).isSome
  let rest := w.taken.dropWhile fun id => !(unplaced id)
  let n := w.taken.length - rest.length
  if n = 0 then s
  else
    let s := s.readHeader wid 0x10
    let w := s.world wid
    (s.setWorld wid { w with taken := rest }).poke wid (s.queueBase wid 0x10 + 8) (word8 (s.queueHead wid 0x10 + n))

/-- A walker first takes the oldest record of a world's launch queue that no walker has taken, and checks it once (R80). A
record that names only clusters without a joined die is refused by any walker (R27). -/
def execWalkerTakeRecord (die wid : Nat) (s : State) : Result :=
  if !(s.joined die) || !(s.live wid) || s.sec.lockdown != 0 || !(s.spanClear (64 * die) wid (s.queueBase wid 0x10) 64) then .next s
  else
    let s := s.readHeader wid 0x10
    let h := s.queueHead wid 0x10 + (s.world wid).taken.length
    if s.queueTail wid 0x10 = h then .next s else
    let a := s.queueBase wid 0x10 + 64 + 128 * (h % s.queueSize wid 0x10)
    if !(s.spanClear (64 * die) wid a 128) then .next s else
    let (u, bs) := s.unitRead 1023 wid a 128
    let mptr := recWord bs 0x70
    if mptr ≠ 0 ∧ s.spanClear (64 * die) wid mptr 32 = false then .next s else
    let (u, mask) := if mptr = 0 then (u, []) else u.unitRead 1023 wid mptr 32
    let l := u.parseRecord wid a h bs (if mptr = 0 then none else some mask)
    let bad := u.refused wid bs l
    if !bad && !(l.dies.contains die) then .next s
    else
      let w := u.world wid
      let s := { u.setWorld wid { w with taken := w.taken ++ [l.id] } with nextId := u.nextId + 1 }
      if bad then .next ((s.freeSlots wid).notifyWorld wid 1023 0 0x1FFFE 0)
      else .next { s with launches := s.launches ++ [l] }

/-! ### Placing an iteration (R82 to R85) -/

/-- The free stream an iteration of a record goes to on a die: the lowest SID of the eligible cores. -/
def State.slotFor (s : State) (l : Launch) (die : Nat) : Option Nat :=
  (List.range 128).findSome? fun i =>
    let sid := 128 * die + i
    if maskNames l.mask (sid / 2) && s.freeSlot sid && !(s.stream (sid ^^^ 1)).wide &&
        (if l.wide then sid % 2 == 0 && s.freeSlot (sid + 1) else true) then some sid else none

/-- The range unit of a record still holds a remainder for an earlier one (R85). -/
def State.rangeHeld (s : State) (l : Launch) (die : Nat) : Bool :=
  bits l.range 38 10 != 0 && !(l.rangeDies.contains die) &&
    (let u := Tab.get {} s.ranges (unitKey die (l.range % 64)); decide (u.next < u.total))

/-- The ready record of a world's queue for a die, with the stream it can place on (R84). -/
def State.readyOf (s : State) (die wid : Nat) : Option (Launch × Nat × Nat) :=
  match s.launches.find? fun l => l.wid == wid && (l.nextOn die).isSome with
  | none => none
  | some l =>
    match l.nextOn die, s.slotFor l die with
    | some n, some sid => if s.rangeHeld l die then none else some (l, n, sid)
    | _, _ => none

/-- The queue that wins on a die: the highest priority, then the first met from its rotating pointer (R84). -/
def State.winner (s : State) (die : Nat) : Option (Launch × Nat × Nat) :=
  let wids := (s.launches.map (·.wid)).eraseDups
  let ready := wids.filterMap fun w => s.readyOf die w
  let top := ready.foldl (fun m r => Nat.max m r.1.prio) 0
  let ptr := Tab.get 0 s.rotate (8 * die + top)
  (sortBy (fun a b => decide ((a.1.wid + 4095 - ptr) % 4095 ≤ (b.1.wid + 4095 - ptr) % 4095)) (ready.filter fun r => r.1.prio == top)).head?

/-- A context number that no live iteration of the world holds (R218): the first from the world's counter on. -/
def freshCtxn (used : List Nat) : Nat → Nat → Nat
  | 0, n => n
  | fuel + 1, n => if used.contains (n % 65536) then freshCtxn used fuel (n + 1) else n % 65536

def State.ctxnsOf (s : State) (wid : Nat) : List Nat :=
  (s.allStreams.filter fun st => st.run != Run.free && st.ident.wid == wid).map fun st => st.ident.ctxn

/-- A world has no stream on a core, and no request of it from there is in flight (R154). -/
def State.keyIdle (s : State) (core w : Nat) : Bool :=
  !([2 * core, 2 * core + 1].any fun i => (s.stream i).run != Run.free && s.widOf i == w) && !(s.allStores.any fun x => x.core == core && x.wid == w)

/-- A core has a slot for a world's key, or can give one up for it (R154). -/
def State.keyRoom (s : State) (core wid : Nat) : Bool :=
  let k := s.core core
  k.keys.contains wid || decide (k.keys.length < 64) || k.keys.any (s.keyIdle core)

/-- Loads the world's key into a slot of the core (R154): a full table gives up the slot of an idle world. -/
def State.loadKey (s : State) (core wid : Nat) : State :=
  let k := s.core core
  if k.keys.contains wid then s else s.setCore core { k with keys := takeKey k.keys 64 wid (s.keyIdle core) }

/-- A stream's scratchpad, its rings and its operand windows are zeroed (R83, R227). -/
def State.zeroHalf (s : State) (sid : Nat) (wide : Bool) : State :=
  let c := coreOf sid
  let k := s.core c
  let base := if wide then 0 else sid % 2 * Config.halfBytes
  let n := if wide then Config.spBytes else Config.halfBytes
  s.setCore c
    { k with
      sp := Memory.clear k.sp base n
      spBad := k.spBad.filter fun p => !(decide (base / 64 ≤ p.1) && decide (p.1 < (base + n) / 64))
      rings := k.rings.filter fun p => !(wide || p.1 / 8 == sid % 2)
      windows := k.windows.filter fun w => w.sid != sid }

/-- A stream at the start of an iteration (Table 3.4). -/
def startStream (l : Launch) (n die sid ctxn now : Nat) : Stream :=
  let idx := indicesOf ((spatial l.levels).map (·.1)) n
  let at' (k : Nat) : Nat :=
    match ((spatial l.levels).zip idx).find? fun p => p.1.2.2 == k with
    | some p => p.2
    | none => match l.levels[k]? with | some v => v.1 | none => 0
  let e : EngState := { line := l.text }
  { Stream.reset with
    run := .running, wide := l.wide
    ident := { wid := l.wid, launch := l.id, iter := n, ctxn := ctxn, die := die }
    s := (List.range 8).map (fun k => (k + 1, BitVec.ofNat 64 (at' k))) ++ [(9, l.args), (10, BitVec.ofNat 64 n)]
    lcid := coreOf sid, progAt := now, blocks := [(0, l.text)], eng := engines.map fun x => (x.code, e) }

/-- A stream holds an iteration of a world whose last RNEXT to a unit of a die returned a count of 0 (R85, R373). -/
def Stream.awaitsRange (st : Stream) (wid die u : Nat) : Bool := st.run != Run.free && st.ident.wid == wid && st.ident.die == die && (Tab.find st.range0 u).isSome

/-- The links from a die to the cores of the streams that a loading of a range unit tells are clear (R16). -/
def State.rangeClear (s : State) (l : Launch) (die : Nat) : Bool :=
  s.links.isEmpty || s.streams.all fun q => isService q.1 || !(q.2.awaitsRange l.wid die (l.range % 64)) || s.clearTo (64 * die) (.sp (coreOf q.1) 0)

/-- A range unit is loaded for a record's first iteration on a die: EVT bit 1 goes to the streams of the world whose last RNEXT
to it returned a count of 0 (R85). -/
def State.loadRange (s : State) (l : Launch) (die : Nat) : State :=
  let p := bits l.range 38 10
  if p = 0 ∨ l.rangeDies.contains die = true then s
  else
    let u := l.range % 64
    let unit : RangeUnit := { wid := l.wid, launch := l.id, total := bits l.range 6 32, p := p, min := bits l.range 48 16, next := 0 }
    let f (st : Stream) : Stream := if st.awaitsRange l.wid die u then st.latch 2 else st
    { s with
      ranges := Tab.set s.ranges (unitKey die u) unit
      streams := s.streams.map fun q => (q.1, if isService q.1 || s.cutOff l.wid (64 * die) (.sp (coreOf q.1) 0) then q.2 else f q.2)
      images := s.images.map fun q => (q.1, { q.2 with stream := f q.2.stream })
      shadow := s.shadow.map fun q => (q.1, { q.2 with images := q.2.images.map fun r => (r.1, r.2.1, { r.2.2 with stream := f r.2.2.stream }) })
      launches := s.launches.map fun (x : Launch) => if x.id = l.id then { x with rangeDies := x.rangeDies ++ [die] } else x }

/-- The walker of a die gives the next iteration to a stream (R82 to R85), once the links to the queue's head, and to the streams it tells of a
loaded range unit, are clear (R16) and its core has a slot for the world's key (R154). -/
def execIterationPlace (die : Nat) (s : State) : Result :=
  if !(s.joined die) || s.sec.lockdown != 0 then .next s
  else
    match s.winner die with
    | none => .next s
    | some (l, n, sid) =>
      if !(s.spanClear (64 * die) l.wid (s.queueBase l.wid 0x10) 64 && s.rangeClear l die && s.keyRoom (coreOf sid) l.wid) then .next s else
      let w := s.world l.wid
      let ctxn := freshCtxn (s.ctxnsOf l.wid) 65536 w.ctxNext
      let s := s.loadRange l die
      let s := { s with launches := s.launches.map fun (x : Launch) => if x.id = l.id then { x with next := Tab.set x.next die (n + 1) } else x,
                        rotate := Tab.set s.rotate (8 * die + l.prio) (if l.wid = 4094 then 0 else l.wid + 1) }
      let s := (s.zeroHalf sid l.wide).loadKey (coreOf sid) l.wid
      let w := s.world l.wid
      .next (((s.setWorld l.wid { w with ctxNext := (ctxn + 1) % 65536 }).setStream sid (startStream l n die sid ctxn s.now)).freeSlots l.wid)

/-! ### The end of an iteration (R77, R223) -/

/-- One more iteration of a record is done. -/
def State.iterationDone (s : State) (launch : Nat) : State :=
  { s with launches := s.launches.map fun (l : Launch) => if l.id = launch then { l with done := l.done + 1 } else l }

/-- Every slot forwarded to an iteration is free again (R238). -/
def State.unforward (s : State) (key : Nat) : State :=
  { s with
    streams := s.streams.map fun (p : Nat × Stream) => if p.2.fwd = some key then (p.1, { p.2 with fwd := none }) else p
    shadow := s.shadow.map fun p => (p.1, { p.2 with fwds := p.2.fwds.filter fun f => f.2.2 != key }) }

/-- The stream is free for the walker (R77, R82): its windows are gone; its scratchpad and rings are zeroed at the next start. -/
def State.freeStream (s : State) (sid : Nat) : State :=
  let st := s.stream sid
  let k := s.core (coreOf sid)
  (s.setCore (coreOf sid) { k with windows := k.windows.filter fun w => w.sid != sid }).setStream sid { Stream.reset with reserved := st.reserved }

/-- An accepted AWRITE outlives its iteration: its bay goes on with it, from the source that its window has kept (R77, R145, R252). -/
def State.leaveAwrite (s : State) (sid : Nat) (c : Cmd) : State :=
  match c.kind with
  | .awrite src an first nd side =>
    let b := s.bay (bayOf an)
    let base := spBase (s.stream sid) sid + src
    let rest := (List.range (awriteRows first nd side).length).drop c.pos
    let m := rest.foldl (fun (m : Memory) j => Memory.writeList m (1024 * j) (s.spBytes (coreOf sid) (base + 1024 * j) 256)) []
    s.setBay (bayOf an) { b with left := b.left ++ [(sid, c, m)] }
  | _ => s

/-- The iteration of a stream ends: its pending request lapses, its forwarded slots are free, and so is the stream. -/
def State.endIteration (s : State) (sid : Nat) : State :=
  let st := s.stream sid
  let s := st.awrites.foldl (fun (s : State) c => s.leaveAwrite sid c) s
  (((s.unreserve sid).iterationDone st.ident.launch).unforward st.ident.key).freeStream sid

/-- The completion word can take the add (R77): mapped, a multiple of 8, normal with W and no running text (R90), no
gate word. -/
def State.doneWordAt (s : State) (wid dva : Nat) : Option Nat :=
  match s.page wid dva with
  | none => none
  | some p =>
    let a := p.dpaOf dva
    if dva % 8 = 0 ∧ p.w = true ∧ p.cls = 0 ∧ (s.gateWord a 8).isNone ∧ s.reachable a = true ∧ s.runsText a = false then some a else none

/-- Step 2 of R77: 1 is added to the completion word, or an entry of kind 7 is logged; a poisoned word takes no add (R156), and an error
found at it is logged before (R422). -/
def State.addDone (s : State) (sid wid dva : Nat) : State :=
  if dva = 0 then s else
  match s.doneWordAt wid dva with
  | none => s.logError wid 7 sid 0 dva 0
  | some a =>
    let r := ((s.settle sid (.dram a) 8).atSync wid a).readGranule wid sid dva a false
    if r.2 then r.1.logError wid 7 sid 0 dva 0
    else
      let s := r.1
      let chain := s.marksOf (.dram a) (s.readBytes (coreOf sid) (.dram a) 8)
      s.writeHome sid (.dram a) (word8 (leNat (Memory.readList s.mem a 8) + 1)) (chain ++ [{ core := coreOf sid, scope := .dev, ids := [] }])

/-- The add can be made now: the writes to the word before it are at home, and the links there clear (R16, R186). -/
def State.doneSettled (s : State) (sid wid dva : Nat) : State × Bool :=
  match (if dva = 0 then none else s.doneWordAt wid dva) with
  | none => (s, true)
  | some a => s.settledHome sid (.dram a) 8

/-- All five engines have retired the end tag, and nothing of theirs is left to retire; an accepted AWRITE has (R77, R189). -/
def Stream.finished (st : Stream) : Bool :=
  engines.all (fun e => (st.eng' e).ended && (st.eng' e).push.isEmpty) && st.cmds.isEmpty

/-- The completion combiner (R77): the DEV-scope release, the add to the completion word, and the stream is free. -/
def execCompletionCombine (sid : Nat) (s : State) : Result :=
  let st := s.stream sid
  if isService sid || (st.run != Run.running && st.run != Run.parked) || !st.finished then .next s
  else
    let r := s.release sid .dev
    if !r.2 then .next r.1
    else
      let word := ((r.1.launches.find? fun l => l.id == st.ident.launch).map fun l => l.doneWord).getD 0
      let t := r.1.doneSettled sid st.ident.wid word
      if !t.2 then .next t.1 else .next ((t.1.addDone sid st.ident.wid word).endIteration sid)

/-- A record's slot of the launch queue has not been given to a newer record. -/
def State.slotStands (s : State) (l : Launch) : Bool := decide ((s.queueTail l.wid 0x10 + 2 ^ 64 - l.entry % 2 ^ 64) % 2 ^ 64 ≤ s.queueSize l.wid 0x10)

/-- The record's completion event word, as the walker of a die reads it now; where a newer record stands in its slot, as it was read with the
record (R77; assumption 65). -/
def State.eventWord (s : State) (l : Launch) : State × Nat :=
  if s.slotStands l then let r := s.unitRead 1023 l.wid (l.dva + 0x60) 8; (r.1, leNat r.2) else (s, l.event)

/-- The record is done on every die: its walker reads the completion event word, sends the event, if one is named, and the record is gone
(R77). It waits for the links to the word and to the stream (R16); behind the world's reset marker the event is discarded (R289). -/
def execRecordCompletionEvent (die wid : Nat) (s : State) : Result :=
  match s.launches.find? fun l => l.wid == wid && decide (l.total ≤ l.done) with
  | none => .next s
  | some l =>
    if !(s.spanClear (64 * die) wid (l.dva + 0x60) 8) then .next s else
    let r := s.eventWord l
    let home : Loc := .sp (coreOf (r.2 % 1024)) 0
    if 2 ^ 63 ≤ r.2 ∧ s.clearTo (64 * die) home = false then .next s else
    let t := { r.1 with launches := s.launches.filter fun x => x.id != l.id }
    if 2 ^ 63 ≤ r.2 ∧ s.cutOff wid (64 * die) home = false then .next (t.latchSid wid (r.2 % 1024) 16) else .next t

/-! ### ABANDON (R223) -/

/-- The rows an accepted AWRITE has left are unverified (R24, R223), and its bay forgets it. -/
def State.abandonAwrite (s : State) (c : Cmd) : State :=
  match c.kind with
  | .awrite _ an first nd side =>
    let rows := ((List.range nd).map fun j => first + j) ++ ((List.range 8).filter fun b => side.getLsbD b).map fun b => 256 + b
    let l := s.lease an
    let s := s.setLease an { l with unverified := (l.unverified ++ rows.drop c.pos).eraseDups }
    let b := s.bay (bayOf an)
    s.setBay (bayOf an) { b with ops := b.ops.filter fun o => o.cmd != c.id }
  | _ => s

/-- The passes a stream's commands have in the bays are gone with it. -/
def State.dropOps (s : State) (ids : List Nat) : State :=
  { s with bays := s.bays.map fun p => (p.1, { p.2 with ops := p.2.ops.filter fun o => !(ids.contains o.cmd) }) }

/-- A flip of a stream is under way: it completes (R268, R271). -/
def State.inFlip (s : State) (sid : Nat) : Bool :=
  (s.stream sid).cmds.any fun c => !c.done && (match c.kind with
    | .flip _ _ => true
    | .copy _ (some _) => c.admitted
    | _ => false)

/-- The store is held by a live window of a stream (R146). -/
def State.heldByOf (s : State) (sid : Nat) (st : Store) : Bool :=
  match st.loc with
  | .sp c o => (s.core c).windows.any fun w => w.sid == sid && decide (w.lo < o + st.data.length) && decide (o ≤ w.hi)
  | _ => false

/-- Writes that a stream's windows hold are discarded, whoever made them (R223). -/
def State.dropHeld (s : State) (sid : Nat) : State :=
  let f (l : List Store) : List Store := l.filter fun x => !(s.heldByOf sid x)
  { s with queue := f s.queue, atCore := f s.atCore, atGrp := f s.atGrp, atDie := f s.atDie }

/-- What S has issued from a store on that its gate refuses: it has not retired, and goes with the faulting lane (R214, R223). -/
def State.dropLate (s : State) (sid : Nat) : State :=
  let keep := (s.queue.filter fun x => x.sid == sid).takeWhile fun x => !x.refused && (s.lateCheck x).isNone
  let gone (l : List Store) : List Store := l.filter fun x => !(x.sid == sid && x.refused)
  { s with queue := s.queue.filter fun x => x.sid != sid || keep.any fun y => y.id == x.id
           atCore := gone s.atCore, atGrp := gone s.atGrp, atDie := gone s.atDie }

/-- No store of a stream has a token to push any more. -/
def State.dropTokens (s : State) (sid : Nat) : State :=
  let f (l : List Store) : List Store := l.map fun x => if x.sid = sid then { x with ts := none } else x
  { s with queue := f s.queue, atCore := f s.atCore, atGrp := f s.atGrp, atDie := f s.atDie }

/-- ABANDON of a stream on a core: the discards of R223, then, when its release is complete, the notification and the end. A flip completes
first, once what the stream's windows hold is discarded. Answers whether it is done. -/
def State.abandon (s : State) (sid : Nat) (note : Bool := true) : State × Bool :=
  let st := s.stream sid
  if s.inFlip sid then (s.dropHeld sid, false) else
  let s := st.awrites.foldl (fun (s : State) c => s.abandonAwrite c) s
  let s := ((((s.dropOps (st.cmds.map (·.id))).dropHeld sid).dropLate sid).dropTokens sid)
  let s := { s with traps := s.traps.filter fun t => t.sid != sid
                    regions := s.regions.map fun (p : Nat × Region) => if p.2.waiter = some sid then (p.1, { p.2 with waiter := none }) else p }
  let s := s.setStream sid { s.stream sid with
    cmds := [], awrites := [], tokens := [], scalars := [], fmtq := [], trap := none, early := []
    eng := (s.stream sid).eng.map fun (p : Nat × EngState) => (p.1, { p.2 with push := [] }) }
  let k := s.core (coreOf sid)
  let s := s.setCore (coreOf sid) { k with windows := k.windows.filter fun w => w.sid != sid }
  let r := s.release sid .dev
  if !r.2 then (r.1, false)
  else ((if note then r.1.notifyWorld st.ident.wid sid 0 0x1FFFD st.ident.iter else r.1).endIteration sid, true)

/-- ABANDON of a saved iteration: its image is dropped, and the writes its windows hold; what S had stored goes home, but
not past its world's reset marker (R289), nor what its gate refuses. -/
def State.abandonImage (s : State) (i : Image) (note : Bool := true) : State :=
  let s := i.stream.awrites.foldl (fun (s : State) c => s.abandonAwrite c) s
  let s := s.dropOps (i.stream.cmds.map (·.id))
  let key := i.stream.ident.key
  let s := match i.stream.migrate with
    | some g => s.setReserved (if i.stream.wide then [2 * coreOf g, 2 * coreOf g + 1] else [g]) false
    | none => s
  let own (x : Store) : Bool := x.sid == i.sid
  let fine := (i.queue.filter own).takeWhile fun x => !x.refused && (s.lateCheck x).isNone
  let s := i.queue.foldl (fun (s : State) x =>
    if x.into i.sid i.stream.wide || s.flushed x || (own x && !fine.contains x) then s else s.commit { x with ts := none }) s
  let gone := (s.images.filter fun p => p.2.stream.ident.key == key && decide (p.1 < 2 ^ 40)).map fun p => (p.1, imageBytes p.2.stream.wide)
  let s := { s with
    images := s.images.filter fun p => p.2.stream.ident.key != key
    stale := s.stale ++ gone
    shadow := s.shadow.map fun (p : Nat × SwapSlot) => (p.1, { p.2 with images := p.2.images.filter fun q => q.2.2.stream.ident.key != key }) }
  ((if note then s.notifyWorld i.stream.ident.wid i.sid 0 0x1FFFD i.stream.ident.iter else s).iterationDone i.stream.ident.launch).unforward key

end Sys2Proof.Machine
end

