-- ==== Sys2Proof/Machine/Contexts.lean ====
section
/-! DEFINITION. Contexts, partition swaps, power gating and migration (06 R176; 08 R202; 09 R226 to R239). -/

namespace Sys2Proof.Machine

open Sys2Proof

/-! ### Saving a stream (R226, R227, R229, R230) -/

/-- An action of the stream that completes before a save and has not yet (R213, R230): a flip, a revocation, a TRAP with firmware,
or a pass its bay can run. -/
def State.settling (s : State) (t : Nat) : Bool :=
  let st := s.stream t
  st.trap == some false || (st.cmds.any fun c => !c.done && (match c.kind with | .revoke _ _ _ => true | _ => false)) || s.inFlip t ||
    s.bays.any fun p => p.2.ops.any fun o => o.sid == t && !o.awrite && (st.cmd o.cmd).isSome && s.passReady p.2 o

/-- What an image keeps of a stream (Table 9.6): not its fetch buffer, nor the privileged CSRs. The time without progress is kept
as elapsed time. -/
def Stream.context (st : Stream) (now : Nat) : Stream :=
  { st with
    fetch := [], early := [], progAt := now - st.progAt, ctxsid := 0, ctxaddr := 0, ctxcmd := 0, ctxNext := (0, 0), ctxDue := false
    pswap := 0, pswapDue := false, pgate := 0, pgateDue := false, migst := 0, reserved := false }

/-- The links from a die to the stacks that a place in device memory is spread over are clear (R16). -/
def State.imageClear (s : State) (die key : Nat) : Bool :=
  s.links.isEmpty || decide (2 ^ 40 ≤ key) || [0, 1, 2, 3].all fun d => (dieRoute die d).all s.linkClear

/-- The live windows of a core over a write (R146). -/
def State.windowsOver (s : State) (x : Store) : List Window :=
  match x.loc with
  | .sp c o => (s.core c).windows.filter fun w => decide (w.lo < o + x.data.length) && decide (o ≤ w.hi)
  | _ => []

/-- A store in the store queue goes no further before the streams `ts` are saved, by what their images hold: a window of theirs over it or over an
earlier store of its S (R146, Table 9.6), or its own refusal or that of an earlier store. -/
def State.staysBy (s : State) (ts : List Nat) (x : Store) : Bool :=
  (s.queue.any fun y => y.id == x.id) && s.queue.any fun y => y.sid == x.sid && decide (y.id ≤ x.id) &&
    (((s.windowsOver y).any fun w => ts.contains w.sid) || (ts.contains y.sid && y.refused))

/-- What goes before a save of stream t, one of the streams `ts` that are saved together: a SYS-scope release of its effects, and of the writes
on their way into its half; whether all are home but what the images hold (R202, R227, R386; assumption 104). -/
def State.saveReady (s : State) (ts : List Nat) (t : Nat) : State × Bool :=
  let ids := s.cumulative t
  let r := (s.release t .sys).1
  let into (s : State) (x : Store) : Bool := x.into t (s.stream t).wide
  let u := r.flush (ids ++ (r.allStores.filter (into r)).map (·.id)) 4 flushFuel
  (u, (u.allStores.all fun x => !(ids.contains x.id || into u x) || u.staysBy ts x) && !(u.imageStores.any fun x => ids.contains x.id))

/-- What the image of stream t, one of the streams `ts` that are saved together, takes of the store queues: what a window holds in its half, and what its
S has not let out, but for what is to go into the half of another of them. -/
def State.keeps (s : State) (ts : List Nat) (t : Nat) (x : Store) : Bool :=
  x.into t (s.stream t).wide || (x.sid == t && !(ts.any fun u => u != t && x.into u (s.stream u).wide))

/-- Some of the stores that a stream has observed are not home. -/
def State.offHome (s : State) (st : Stream) : Bool := st.seen.any fun i => s.allStores.any fun x => x.id == i

/-- Stores of a party that have left its store queue and are not home. -/
def State.strays (s : State) (sid : Nat) : Bool := (s.atCore ++ s.atGrp ++ s.atDie).any fun x => x.sid == sid

/-- A save of stream t, one of the streams `ts`, after its release: its context, and a free stream (R202, R227, R229). What a window holds stays with
the image; what others have seen is home or on its way there (assumption 104). The passes its bays have accepted stay with them (R230, R244). -/
def State.saveStream (s : State) (ts : List Nat) (t : Nat) : State × Image :=
  let st := s.stream t
  let k := s.core (coreOf t)
  let base := spBase st t
  let i : Image :=
    { stream := { st.context s.now with seen := st.seen.filter s.pendingIds.contains }, core := coreOf t, idx := t % 2
      sp := Memory.slice k.sp base st.spSize 0
      spBad := (k.spBad.filter fun p => decide (base / 64 ≤ p.1) && decide (p.1 < (base + st.spSize) / 64))
      rings := k.rings.filter fun p => st.wide || p.1 / 8 == t % 2
      windows := k.windows.filter fun w => w.sid == t
      queue := s.queue.filter (s.keeps ts t) }
  let w := s.world st.ident.wid
  let u := s.setWorld st.ident.wid { w with savetime := s.now, logAtSave := w.log.length }
  let u := { u with queue := s.queue.filter fun x => !(s.keeps ts t x) }
  (((u.renameStores t st.ident.away).zeroHalf t st.wide).freeStream t, i)

/-- A store of an image, after its stream has come back as stream t. -/
def Store.moved (x : Store) (i : Image) (t : Nat) : Store :=
  let own := x.sid == i.sid
  { x with
    sid := if own then t else x.sid, core := if own then coreOf t else x.core
    loc := if x.into i.sid i.stream.wide then (match x.loc with | .sp _ o => .sp (coreOf t) o | .commit _ r => .commit (coreOf t) r | l => l) else x.loc }

/-- A store of an image takes its place in the store queues, which are in the order of issue (R147). -/
def insertStore (x : Store) : List Store → List Store
  | [] => [x]
  | y :: l => if x.id < y.id then x :: y :: l else y :: insertStore x l

/-- A restore into stream t: the world's key, the context, and a SYS-scope acquire (R202, R229). The stores of it that the images of others
hold are then its own on its new core. A store that its gate has refused issues again where a RETRY has come meanwhile (R222). -/
def State.restoreStream (s : State) (t : Nat) (i : Image) : State :=
  let s := (s.zeroHalf t i.stream.wide).loadKey (coreOf t) i.stream.ident.wid
  let k := s.core (coreOf t)
  let base := spBase i.stream t
  let k := { k with
    sp := Memory.paste k.sp base i.stream.spSize i.sp
    spBad := i.spBad.foldl (fun m p => Tab.put false m p.1 p.2) k.spBad
    rings := i.rings.foldl (fun m p => Tab.set m p.1 p.2) k.rings
    windows := k.windows ++ i.windows.map fun (w : Window) => { w with sid := t } }
  let s := (s.setCore (coreOf t) k).setStream t { i.stream with progAt := s.now - i.stream.progAt }
  let mine (id : Nat) : Bool := i.stream.awrites.any (fun c => c.id == id) || i.stream.cmds.any fun c => c.id == id
  let s := { s with queue := i.queue.foldl (fun (q : List Store) (x : Store) => insertStore (x.moved i t) q) s.queue }
  let s := { s with bays := s.bays.map fun (p : Nat × Bay) => (p.1, { p.2 with ops := p.2.ops.map fun (o : BayOp) => if mine o.cmd then { o with sid := t } else o }) }
  let away := i.stream.ident.away
  let s := if s.allStores.isEmpty && s.imageStores.isEmpty then s else s.mapStores fun x => if x.sid = away then { x with sid := t, core := coreOf t } else x
  let s := (s.setStream t { s.stream t with acqs := [] }).acquire t .sys (i.stream.acqs.map (·.2))
  if i.stream.run = Run.suspended then s else s.reissueStore t

/-- The core has room for the operand windows of the images that come to it: it holds up to 8 live ones (R145). -/
def State.windowRoom (s : State) (core : Nat) (is : List Image) : Bool :=
  decide ((s.core core).windows.length + (is.map fun i => i.windows.length).sum ≤ Config.liveWindows)

/-- Nothing that has left its store queue is on its way into the half of a stream: the windows that come to it hold only what nobody has seen
(assumption 104). -/
def State.noneInto (s : State) (t : Nat) (wide : Bool) : Bool := !((s.atCore ++ s.atGrp ++ s.atDie).any fun x => x.into t wide)

/-- A restore of an image into stream t can be made: its core has a slot for the world's key (R154), nothing is on its way into its half, and on
another core none of the stream's stores, nor of those it has observed, is still on its way from the old one (R202; assumption 104). -/
def State.installable (s : State) (t : Nat) (i : Image) : Bool :=
  s.noneInto t i.stream.wide && s.keyRoom (coreOf t) i.stream.ident.wid && (coreOf t == i.core || !(s.strays i.stream.ident.away || s.offHome i.stream))

/-! ### The place of an image (Table 9.7, R227) -/

/-- A place CTXADDR may name: shadow storage, or device memory that no tenant has (R149), with room for the image. -/
def State.placeOk (s : State) (addr : Nat) (wide : Bool) : Bool :=
  if addr / 2 ^ 63 = 1 then bits addr 28 35 == 0 && bits addr 0 16 == 0 && decide (bits addr 0 28 + imageBytes wide ≤ 2 ^ 28)
  else
    addr % 65536 == 0 && decide (addr + imageBytes wide ≤ Config.dramBytes) && s.reachableAll addr (imageBytes wide) &&
      !(s.alloc.any fun r => r.1 != 0 && decide (r.2.1 < addr + imageBytes wide) && decide (addr < r.2.1 + r.2.2))

/-- The key of a place: shadow storage is that of the stream's die. -/
def placeKey (addr die : Nat) : Nat := if addr / 2 ^ 63 = 1 then 2 ^ 40 + die * 2 ^ 28 + bits addr 0 28 else addr

/-- Where a slot of a die's shadow storage starts, as the key of a place: the slots and CTXADDR with SHADOW name the same bytes (R232). -/
def slotKey (slot : Nat) : Nat := 2 ^ 40 + slot / 8 * 2 ^ 28 + slot % 8 * 2 ^ 25

/-- The images that n bytes of a new one from a key cover are gone, and a shadow slot that they meet is empty (assumption 16). -/
def State.dropImages (s : State) (key n : Nat) : State :=
  let f (t : Tab Image) : Tab Image := t.filter fun p => !(imageMeets p key n)
  { s with images := f s.images, spent := f s.spent, shadow := s.shadow.filter fun p => !(decide (slotKey p.1 < key + n) && decide (key < slotKey p.1 + 2 ^ 25)) }

/-- An image is written: what it covers is gone. In device memory its granules are sealed (R227; assumption 16). -/
def State.putImage (s : State) (key : Nat) (i : Image) : State :=
  let n := imageBytes i.stream.wide
  let s := s.dropImages key n
  let s := { s with images := Tab.set s.images key i }
  if key < 2 ^ 40 then
    let out (g : Nat) : Bool := !(decide (key / 64 ≤ g) && decide (g < (key + n) / 64))
    { s with mem := Memory.clear s.mem key n, memBad := s.memBad.filter fun p => out p.1, memErr := s.memErr.filter fun p => out p.1
             fresh := s.fresh.filter fun p => out p.1 }
  else s

/-- The granules of an image are as its save wrote them: nothing has been written over them, and all can be read. -/
def State.imageGood (s : State) (key : Nat) (i : Image) : Bool :=
  let n := imageBytes i.stream.wide
  let hit (g : Nat) : Bool := decide (key / 64 ≤ g) && decide (g < (key + n) / 64)
  !i.torn && (decide (2 ^ 40 ≤ key) || !(s.memBad.any (fun p => hit p.1) || s.memErr.any fun p => hit p.1 && p.2 == 2))

/-- Firmware reads an image for a RESTORE: an error it meets is retried, and logged for the image's world (R30, R155, R422; assumption 86).
Answers whether the image is good. -/
def State.readImage (s : State) (key : Nat) (i : Image) : State × Bool :=
  let n := imageBytes i.stream.wide
  let wid := i.stream.ident.wid
  let hits := if key < 2 ^ 40 then s.memErr.filter fun p => decide (key / 64 ≤ p.1) && decide (p.1 < (key + n) / 64) else []
  let t := hits.foldl (fun (s : State) p =>
    { s.logError wid (if p.2 = 2 then 2 else 1) 1023 0 0 0 with
      memErr := Tab.put 0 s.memErr p.1 0, memBad := if p.2 = 2 then Tab.put false s.memBad p.1 true else s.memBad }) s
  (if i.torn && s.live wid then t.logError wid 2 1023 0 0 0 else t, s.imageGood key i)

/-- An image has been installed: it stands in its place, and no longer for the stream. -/
def State.spendImage (s : State) (key : Nat) (i : Image) : State := { s with images := Tab.erase s.images key, spent := Tab.set s.spent key i }

/-! ### CTXCMD (R228, R229) -/

/-- The command of a firmware stream has run: its STATUS stands, and BUSY until it is done. -/
def State.ctxEnd (s : State) (sid n : Nat) : State :=
  let f := s.stream sid
  s.setStream sid { f with ctxcmd := withStatus f.ctxcmd true n, ctxDue := false }

/-- The firmware stream's command with an OP waits to be carried out. -/
def Stream.ctxWants (f : Stream) (op : Nat) : Bool := f.ctxDue && bits f.ctxcmd.toNat 0 2 == op

/-- SAVE. -/
def execCtxSave (sid : Nat) (s : State) : Result :=
  let f := s.stream sid
  if !(f.ctxWants 1) then .next s
  else
    let t := bits f.ctxNext.1.toNat 0 10
    let addr := f.ctxNext.2.toNat
    let st := s.stream t
    if isService t || st.run == Run.free || st.run == Run.stopped then .next (s.ctxEnd sid 1)
    else if !(s.placeOk addr st.wide) then .next (s.ctxEnd sid 2)
    else if s.settling t || !(s.imageClear (dieOf (coreOf t)) (placeKey addr (dieOf (coreOf t)))) then .next s
    else
      let u := s.saveReady [t] t
      if !u.2 then .next u.1 else
      let r := (u.1.ctxEnd sid 0).saveStream [t] t
      .next (r.1.putImage (placeKey addr (dieOf (coreOf t))) r.2)

/-- A stream that RESTORE may fill (R82, R229). -/
def State.restorable (s : State) (t : Nat) : Bool := !(isService t) && s.joined (dieOf (coreOf t)) && s.freeSlot t

/-- RESTORE. A stream does not leave its cluster (R260; assumption 75). -/
def execCtxRestore (sid : Nat) (s : State) : Result :=
  let f := s.stream sid
  if !(f.ctxWants 2) then .next s
  else
    let t := bits f.ctxNext.1.toNat 0 10
    let addr := f.ctxNext.2.toNat
    let key := placeKey addr (dieOf (coreOf t))
    if !(s.restorable t) then .next (s.ctxEnd sid 1)
    else if !(s.placeOk addr false) then .next (s.ctxEnd sid 2)
    else
      match (Tab.find s.images key).or (Tab.find s.spent key) with
      | none => .next (s.ctxEnd sid 3)
      | some i =>
        if t % 2 ≠ i.idx ∨ clusterOf (dieOf (coreOf t)) ≠ clusterOf (dieOf i.core) ∨ (i.stream.wide = true ∧ s.restorable (t ^^^ 1) = false) then .next (s.ctxEnd sid 1)
        else if !(s.imageClear (dieOf (coreOf t)) key) then .next s
        else
          let r := s.readImage key i
          if !r.2 then .next (r.1.ctxEnd sid 3)
          else if !(r.1.installable t i && r.1.windowRoom (coreOf t) [i]) then .next r.1
          else .next (((r.1.ctxEnd sid 0).spendImage key i).restoreStream t i)

/-- The running command ends: BUSY is 0. -/
def execCtxCommandDone (sid : Nat) (s : State) : Result :=
  let f := s.stream sid
  if isBusy f.ctxcmd && !f.ctxDue then .next (s.setStream sid { f with ctxcmd := f.ctxcmd &&& ~~~busyBit }) else .next s

/-! ### PSWAP (R232, R233, R238) -/

/-- The streams of a partition: core index, stream index, SID. -/
def partition (die group : Nat) : List (Nat × Nat × Nat) :=
  (List.range 32).map fun n => (n / 2, n % 2, 2 * (64 * die + 16 * group + n / 2) + n % 2)

def State.pswapEnd (s : State) (sid n : Nat) : State :=
  let f := s.stream sid
  s.setStream sid { f with pswap := withStatus f.pswap true n, pswapDue := false }

def Stream.pswapWants (f : Stream) (op : Nat) : Bool := f.pswapDue && bits f.pswap.toNat 8 2 == op

/-- Some image joins a shadow slot. -/
def State.intoSlot (s : State) (slot a b : Nat) (i : Image) : State :=
  match Tab.find s.shadow slot with
  | none => s
  | some x => { s with shadow := Tab.set s.shadow slot { x with images := x.images ++ [(a, b, i)] } }

/-- An image leaves a shadow slot for a stream of a core. What the images still in the slot keep of the stream's stores follows it. -/
def State.outOfSlot (s : State) (slot a b t : Nat) : State :=
  match (Tab.find s.shadow slot).bind fun x => (x.images.find? fun q => q.1 == a && q.2.1 == b).map fun q => (x, q.2.2) with
  | none => s
  | some (x, i) => { s with shadow := Tab.set s.shadow slot { x with images := x.images.filter fun q => !(q.1 == a && q.2.1 == b) } }.restoreStream t i

/-- SAVE of a partition, stream by stream: a later one's stores that an earlier one's image keeps bear its saved name too. A forwarded slot stays
forwarded, and the shadow slot records it. -/
def execPswapSave (sid : Nat) (s : State) : Result :=
  let f := s.stream sid
  if !(f.pswapWants 1) then .next s
  else
    let w := f.pswap.toNat
    let die := bits w 4 2
    let slot := 8 * die + bits w 12 3
    let part := partition die (bits w 0 2)
    let on := part.filter fun p => (s.stream p.2.2).run != Run.free
    if (Tab.find s.shadow slot).isSome then .next (s.pswapEnd sid 2)
    else if on.any fun p => s.settling p.2.2 then .next s
    else
      let v := on.foldl (fun (a : State × Bool) p => let x := a.1.saveReady (on.map (·.2.2)) p.2.2; (x.1, a.2 && x.2)) (s, true)
      if !v.2 then .next v.1 else
      let s := v.1
      let fwds := part.filterMap fun p => (s.stream p.2.2).fwd.map fun k => (p.1, p.2.1, k)
      let u := (s.pswapEnd sid 0).dropImages (slotKey slot) (2 ^ 25)
      let u := { u with shadow := Tab.set u.shadow slot { group := bits w 0 2, images := [], fwds := fwds } }
      .next (on.foldl (fun (s : State) p => let x := s.saveStream (on.map (·.2.2)) p.2.2; x.1.intoSlot slot p.1 p.2.1 x.2) u)

/-- RESTORE of a partition. A slot forwarded to the iteration that the shadow slot records for its place does not stand in the
way. -/
def execPswapRestore (sid : Nat) (s : State) : Result :=
  let f := s.stream sid
  if !(f.pswapWants 2) then .next s
  else
    let w := f.pswap.toNat
    let die := bits w 4 2
    let slot := 8 * die + bits w 12 3
    let part := partition die (bits w 0 2)
    let fwds := ((Tab.find s.shadow slot).map (·.fwds)).getD []
    let free (p : Nat × Nat × Nat) : Bool :=
      s.freeSlot p.2.2 || (match (s.stream p.2.2).fwd with | some k => fwds.contains (p.1, p.2.1, k) && !(s.core (coreOf p.2.2)).gated | none => false)
    if !(part.all free) then .next (s.pswapEnd sid 1)
    else
      match Tab.find s.shadow slot with
      | none => .next (s.pswapEnd sid 2)
      | some x =>
        let at' (a b : Nat) : Nat := 2 * (64 * die + 16 * bits w 0 2 + a) + b
        if !(x.images.all fun q => s.installable (at' q.1 q.2.1) q.2.2 && s.windowRoom (coreOf (at' q.1 0)) ((x.images.filter fun p => p.1 == q.1).map fun p => p.2.2)) then .next s else
        let s := x.images.foldl (fun (s : State) q => s.outOfSlot slot q.1 q.2.1 (at' q.1 q.2.1)) (s.pswapEnd sid 0)
        let s := { s with shadow := Tab.erase s.shadow slot }
        .next (x.fwds.foldl (fun (s : State) q => s.setStream (at' q.1 q.2.1) { s.stream (at' q.1 q.2.1) with fwd := some q.2.2 }) s)

def execPswapDone (sid : Nat) (s : State) : Result :=
  let f := s.stream sid
  if isBusy f.pswap && !f.pswapDue then .next (s.setStream sid { f with pswap := f.pswap &&& ~~~busyBit }) else .next s

/-! ### PGATE (R234) -/

def State.pgateEnd (s : State) (sid n : Nat) : State :=
  let f := s.stream sid
  s.setStream sid { f with pgate := withStatus f.pgate true n, pgateDue := false }

def Stream.pgateWants (f : Stream) (op : Nat) : Bool := f.pgateDue && bits f.pgate.toNat 8 1 == op

def partitionOf (f : Stream) : List (Nat × Nat × Nat) := partition (bits f.pgate.toNat 4 2) (bits f.pgate.toNat 0 2)

/-- GATE: the cores of the partition lose their contents, their key slots and their TLB entries. -/
def execPgateGate (sid : Nat) (s : State) : Result :=
  let f := s.stream sid
  if !(f.pgateWants 1) then .next s
  else
    let part := partitionOf f
    if !(part.all fun p => s.freeSlot p.2.2) then .next (s.pgateEnd sid 1)
    else
      let s := s.pgateEnd sid 0
      let s := part.foldl (fun (s : State) p => (s.setCore (coreOf p.2.2) { Core.reset with gated := true }).setStream p.2.2 Stream.reset) s
      .next { s with tlb := s.tlb.filter fun t => !(part.any fun p => coreOf p.2.2 == t.1) }

/-- UNGATE: the streams come up free, with every part of their state zero. -/
def execPgateUngate (sid : Nat) (s : State) : Result :=
  let f := s.stream sid
  if !(f.pgateWants 0) then .next s
  else
    let part := partitionOf f
    if !(part.all fun p => (s.core (coreOf p.2.2)).gated) then .next (s.pgateEnd sid 2)
    else .next (part.foldl (fun (s : State) p => (s.setCore (coreOf p.2.2) Core.reset).setStream p.2.2 Stream.reset) (s.pgateEnd sid 0))

def execPgateDone (sid : Nat) (s : State) : Result :=
  let f := s.stream sid
  if isBusy f.pgate && !f.pgateDue then .next (s.setStream sid { f with pgate := f.pgate &&& ~~~busyBit }) else .next s

/-! ### Migration (R237, R238) -/

/-- The move of a stream that has retired YIELD with a request pending and drained its block: saved into the migration slot of its
target, restored there, and its former slots forwarded to its iteration. A request whose slot cannot be reached any more lapses (R27). -/
def execMigrationMove (sid : Nat) (s : State) : Result :=
  let st := s.stream sid
  match (if st.yielding && st.run == Run.running && st.drained then st.migrate else none) with
  | none => .next s
  | some g =>
    let olds := s.moveSlots sid (coreOf sid)
    let news := s.moveSlots sid (coreOf g)
    let t := news.headD g
    let key := s.migSlot t
    if !(s.reachableAll key (imageBytes true)) then .next (s.unreserve sid)
    else if s.settling sid || !(s.imageClear (dieOf (coreOf sid)) key && s.imageClear (dieOf (coreOf t)) key) then .next s
    else
      let u := s.saveReady [sid] sid
      if !u.2 || !(u.1.noneInto t st.wide) || u.1.strays sid || u.1.offHome (u.1.stream sid) || !(u.1.keyRoom (coreOf t) st.ident.wid && decide ((u.1.core (coreOf t)).windows.length + ((u.1.core (coreOf sid)).windows.filter fun w => w.sid == sid).length ≤ Config.liveWindows)) then .next u.1 else
      let r := u.1.saveStream [sid] sid
      let i := { r.2 with stream := { r.2.stream with migrate := none, yielding := false } }
      let s := ((r.1.putImage key i).spendImage key i).setReserved news false
      let s := s.restoreStream t i
      .next (olds.foldl (fun (s : State) o => s.setStream o { s.stream o with fwd := some st.ident.key }) s)

end Sys2Proof.Machine
end

