-- ==== Sys2Proof/Machine/Services.lean ====
section
/-! DEFINITION. TRAP and the services of firmware (16 R394, R395; 06 R150, R151; 07 R159, R161; 09 R221 to R223; 10 R257;
11 R264, R265; 12 R283). A request is carried out at once where it is the first of its world that firmware has; the rows of
chapter 95 for the services carry out the ones that wait. -/

namespace Sys2Proof.Machine

open Sys2Proof

/-! ### What the services share -/

/-- Every stream, on a core or saved, changed alike. -/
def State.mapStreams (s : State) (f : Stream → Stream) : State :=
  { s with
    streams := s.streams.map fun p => (p.1, f p.2)
    images := s.images.map fun p => (p.1, { p.2 with stream := f p.2.stream })
    shadow := s.shadow.map fun p => (p.1, { p.2 with images := p.2.images.map fun q => (q.1, q.2.1, { q.2.2 with stream := f q.2.2.stream }) }) }

/-- The party firmware reads a request block for: the stream of the TRAP, else the host (R422). -/
def blockParty (sid : Nat) : Nat := if sid = noSid then 512 else sid

/-- The 8-byte word of a request block at an offset. Its errors are logged when firmware takes the request up. -/
def State.blockWord (s : State) (sid wid blk off : Nat) : Nat := leNat (s.unitRead (blockParty sid) wid (blk + off) 8).2
/-- The last 24 bytes of a 64-byte request block, as a number. -/
def State.blockTail (s : State) (sid wid blk : Nat) : Nat := leNat (s.unitRead (blockParty sid) wid (blk + 40) 24).2

/-- Firmware writes a STATUS, with its release (R257, R394). -/
def State.putWord (s : State) (sid wid dva v : Nat) : State := s.writeSpan sid wid dva (word8 v) [hubRelease]

/-- The bytes [a, a + n) of a world lie in mapped pages that meet a test. -/
def State.mapped (s : State) (wid a n : Nat) (ok : Page → Bool) : Bool :=
  (List.range ((a % 4096 + n + 4095) / 4096)).all fun i =>
    match s.page wid (if i = 0 then a else (a / 4096 + i) * 4096) with
    | none => false
    | some p => ok p

/-- No mapping of a world meets [a, a + n). -/
def State.unmapped (s : State) (wid a n : Nat) : Bool :=
  !(s.pages.any fun p => p.wid == wid && decide (p.dva < a + n) && decide (a < p.dva + pageBytes p.size))

/-- Some granule of [a, a + n) cannot be read (R155). -/
def State.badSpan (s : State) (wid a n : Nat) : Bool :=
  (List.range ((a % 64 + n + 63) / 64)).any fun i =>
    match s.dpa wid ((a / 64 + i) * 64) with
    | none => false
    | some d => Tab.get false s.memBad (d / 64) || Tab.get 0 s.memErr (d / 64) == 2 || s.staleGranule (d / 64)

/-- An access violation is counted; VLIM of them within VWIN seconds are lockdown cause 2 (R291). Those before the enrolment count, from the next
one after it on (assumption 143). -/
def State.violation (s : State) (wid : Nat := 0) : State :=
  let s := { s with sec := { s.sec with violations := s.sec.violations ++ [s.now] } }
  match s.sec.enrolled with
  | none => s
  | some (_, _, vlim, vwin) =>
    if 0 < vlim ∧ vlim ≤ (s.sec.violations.filter fun t => decide (s.now ≤ t + vwin * 1000000000)).length then s.lockdown 2 wid else s

/-! ### MAP and UNMAP (R150, R151, R161) -/

/-- Firmware has allocated a device-physical range to a world (R149). -/
def State.owns (s : State) (wid a n : Nat) : Bool := s.alloc.any fun r => r.1 == wid && decide (r.2.1 ≤ a) && decide (a + n ≤ r.2.1 + r.2.2)

/-- The attribute words R151 refuses. -/
def attrBad (w : Nat) : Bool :=
  w / 256 != 0 || bits w 4 2 != 0 || (bits w 2 1 == 1 && bits w 1 1 == 1) || bits w 0 3 == 0

/-- MAP: the status, and the state with it carried out. Firmware reads the granules of a page with X for the measurement log (R283), and logs the
errors it meets (R155, R422); the digest is of the bytes as they stand (assumption 107). -/
def State.mapPage (s : State) (sid wid blk dva dpa attr : Nat) : State × Nat :=
  let n := pageBytes (bits attr 6 2)
  if blk % 32 ≠ 0 ∨ attrBad attr = true then (s, 4)
  else if dva % n ≠ 0 ∨ dpa % n ≠ 0 then (s, 2)
  else if 0x800000000000 < dva + n then (s, 5)
  else if !(s.owns wid dpa n) then (s.violation wid, 1)
  else if !(s.unmapped wid dva n) then (s, 3)
  else
    let p : Page := { wid := wid, dva := dva, dpa := dpa, size := bits attr 6 2, cls := 0, zfill := bits attr 3 1 == 1, x := bits attr 2 1 == 1
                      w := bits attr 1 1 == 1, r := bits attr 0 1 == 1 }
    let s := { s with pages := s.pages ++ [p] }
    if p.x then
      let s := (List.range (n / 64)).foldl (fun (s : State) i => (s.readGranule wid (blockParty sid) (dva + 64 * i) (dpa + 64 * i) p.zfill).1) s
      let w := s.world wid
      (s.setWorld wid { w with log := w.log ++ [sha256 (Memory.readList s.mem dpa n)] }, 0)
    else (s, 0)

/-- The spans of a live world that an UNMAP must leave: its four queues and its intake buffer (R277). -/
def State.queueSpans (s : State) (wid : Nat) : List (Nat × Nat) :=
  if s.live wid then
    [(0x00, 64), (0x10, 128), (0x20, 16), (0x30, 32)].map (fun q => (s.queueBase wid q.1, 64 + q.2 * s.queueSize wid q.1)) ++
      [(s.wtWord wid 0x48, 16384 * (s.wtWord wid 0x50 % 65536))]
  else []

/-- The page is in use by the device (status 8). -/
def State.pageInUse (s : State) (p : Page) : Bool :=
  let lo := p.dva
  let hi := p.dva + pageBytes p.size
  s.gates.any (fun g => g.wid == p.wid && ((decide (lo ≤ g.dva) && decide (g.dva < hi)) || (decide (lo < g.base + g.npg * 65536) && decide (g.base < hi)))) ||
    (s.queueSpans p.wid).any fun q => decide (0 < q.2) && decide (lo < q.1 + q.2) && decide (q.1 < hi)

/-- A stream of the world runs text from the page (R90), judged by the mapping, as `pageInUse` is (assumption 111). -/
def State.textInPage (s : State) (p : Page) : Bool :=
  s.allStreams.any fun st => st.ident.wid == p.wid && st.textLines.any fun l => p.covers p.wid l

/-- The mapping goes, and with it every TLB entry for it (R150) and every load performed ahead. -/
def State.unmapPage (s : State) (p : Page) : State :=
  { s with pages := s.pages.filter fun q => !(q.wid == p.wid && q.dva == p.dva), tlb := s.tlb.filter fun t => !(t.2.1 == p.wid && t.2.2 == p.dva) }.dropAhead fun w => w == p.wid

def State.regionBased (s : State) (wid dva : Nat) : Option Nat := (s.regions.find? fun p => p.2.wid == wid && p.2.base == dva).map (·.1)

/-- A region has served all its queued work, and its slices the laps that are closed (R161). -/
def State.emptied (s : State) (r : Nat) (x : Region) : Bool :=
  x.pend.isEmpty && (List.range x.count).all (fun i => (x.slice i).queue.isEmpty && (match (x.slice i).st with | .wait _ => true | _ => false)) &&
    !(s.allStreams.any fun st => st.cmds.any fun c => !c.done && (match c.kind with
      | .scanRead q _ _ _ _ _ => q == r && c.reply.isNone
      | .scanUpdate q _ _ _ _ => q == r && !c.admitted
      | _ => false))

/-- The last steps of R161: every row zero, the banks, the region number and the mapping free. -/
def State.freeRegion (s : State) (r : Nat) (x : Region) : State :=
  let n := (x.bytes + 65535) / 65536 * 65536
  let lo := regionDpa r / 64
  let s := { s with
    mem := Memory.clear s.mem (regionDpa r) n
    memBad := s.memBad.filter fun p => !(decide (lo ≤ p.1) && decide (p.1 < lo + n / 64))
    memErr := s.memErr.filter fun p => !(decide (lo ≤ p.1) && decide (p.1 < lo + n / 64))
    pages := s.pages.filter fun p => !(p.wid == x.wid && decide (x.base ≤ p.dva) && decide (p.dva < x.base + n))
    tlb := s.tlb.filter fun t => !(t.2.1 == x.wid && decide (x.base ≤ t.2.2) && decide (t.2.2 < x.base + n))
    regions := Tab.erase s.regions r }
  s.mapStreams fun st => { st with ports := Tab.erase st.ports r, subs := st.subs.filter fun q => q != r, lap := Tab.erase st.lap r }

/-- A region being released is freed when its work is done; answers whether it is. -/
def State.tryRelease (s : State) (r : Nat) : State × Bool :=
  match s.region r with
  | none => (s, true)
  | some x => if x.releasing && s.emptied r x then (s.freeRegion r x, true) else (s, false)

/-- UNMAP; releasing a region first closes every open lap of every port (R161). A status, or none while a region is being released. -/
def State.unmapAt (s : State) (sid wid blk dva attr : Nat) : State × Option Nat :=
  let n := pageBytes (bits attr 6 2)
  if blk % 32 ≠ 0 then (s, some 4)
  else
    match s.regionBased wid dva with
    | some r =>
      let s := match s.region r with
        | some x =>
          if x.releasing then s
          else s.setRegion r (s.closeThrough r { x with releasing := true, waiter := some sid, undo := some (x.opn, x.bells) } (s.lastLap r x))
        | none => s
      let t := s.tryRelease r
      (t.1, if t.2 then some 0 else none)
    | none =>
      if dva % n ≠ 0 then (s, some 2)
      else if 0x800000000000 ≤ dva then (s, some 5)
      else if (s.regionAt wid dva).isSome then (s, some 6)
      else
        match s.pages.find? fun p => p.wid == wid && p.dva == dva && p.size == bits attr 6 2 with
        | none => (s, some 7)
        | some p =>
          if s.pageInUse p then (s, some 8)
          else if s.textInPage p then (s, some 9)
          else (s.unmapPage p, some 0)

/-- A release that its TRAP takes back (R211): the laps it closed are open again, and their markers gone, while no slice has one of them and none has
gone on by them; else they stay closed (assumption 120). -/
def Region.reopen (x : Region) : Region :=
  let y := { x with releasing := false, waiter := none, undo := none }
  match x.undo with
  | none => y
  | some (opn, bells) =>
    let sent (port lap : Nat) : Bool := if x.stepped then decide (Tab.get 0 opn port ≤ lap) else decide (bells ≤ lap)
    let base := if x.stepped then (x.parts.map fun p => Tab.get 0 opn p).foldl Nat.min (2 ^ 64) else bells
    if (List.range x.count).all fun i => decide ((x.slice i).lap ≤ base) && (x.slice i).markers.all fun m => !(sent m.1 m.2) then
      { y with opn := opn, bells := bells, pend := x.pend.filter fun m => !(sent m.2.1 m.2.2) }
    else y

/-- No stream has used a region. -/
def State.untouched (s : State) (r : Nat) (x : Region) : Bool :=
  x.pend.isEmpty && (List.range x.count).all (fun i => (x.slice i).queue.isEmpty) &&
    !(s.allStreams.any fun st => (Tab.find st.ports r).isSome || st.cmds.any fun c => !c.done && (match c.kind with
      | .scanRead q _ _ _ _ _ => q == r
      | .scanUpdate q _ _ _ _ => q == r
      | _ => false))

/-- What firmware has begun for a TRAP that is not to have had an effect is taken back (R211): the release of a region, and the making of one, which
only stays where a stream has used it already (assumption 120). -/
def State.takeBack (s : State) (sid : Nat) : State :=
  (s.regions.filter fun p => p.2.waiter == some sid).foldl (fun (s : State) p =>
    if p.2.releasing then s.setRegion p.1 p.2.reopen
    else if s.untouched p.1 p.2 then s.freeRegion p.1 p.2 else s.setRegion p.1 { p.2 with waiter := none }) s

/-! ### SCANMAKE (R159) -/

/-- The participants a bitmap names: ports 0 to 511 and the hub's. -/
def portsOf (bm : List Byte) : List Nat := (List.range 513).filter fun i => (bm.getD (i / 8) 0).getLsbD (i % 8)

/-- The blocks refused with status 3. -/
def State.scanBlockBad (s : State) (wid blk base w1 bell pmap w4 tail : Nat) : Bool :=
  let stepped := bits w1 24 1 == 1
  let s' := 2 ^ bits w1 0 4
  let bytes := (s' * (bits w1 8 16 + 1) * 1024 + 65535) / 65536 * 65536
  let bm := s.peek wid pmap 72
  blk % 64 != 0 || base % 65536 != 0 || decide (0x800000000000 < base + bytes) || decide (2 ^ 28 ≤ w1) || bits w1 4 4 != 0 || decide (9 < bits w1 0 4) || decide (bits w1 8 16 < 63) || bits w1 26 2 == 3 ||
    decide (2 ^ 32 ≤ bell) || decide (2 ^ 12 ≤ w4) || tail != 0 ||
    (if stepped then bell != 0 || pmap % 8 != 0 || !(s.mapped wid pmap 72 fun p => p.r) || s.badSpan wid pmap 72 || decide (2 ^ 513 ≤ leNat bm)
     else pmap != 0 || decide (bell < 500) || decide (1000000000 < bell))

/-- A new region; its slices write their rows to zero before lap 0 is open. -/
def State.makeRegion (s : State) (sid wid base w1 bell : Nat) (parts : List Nat) (r : Nat) : State :=
  let n := 2 ^ bits w1 0 4
  let x : Region := { wid := wid, base := base, log2s := bits w1 0 4, nrow := bits w1 8 16 + 1, stepped := bits w1 24 1 == 1
                      zfill := bits w1 25 1 == 1, bell := bell, parts := parts, slots := (s.freeSlices (bits w1 26 2)).take n
                      lastBell := s.now, slices := (List.range n).map fun i => (i, { st := .zero 0 }), waiter := some sid }
  let s := x.slots.foldl (fun (s : State) k => s.sliceKey wid k) s
  { s.setRegion r x with pages := s.pages ++ x.pages r }

/-- SCANMAKE: the word at +32 of the block, or none while pass 0 runs. -/
def State.scanMake (s : State) (sid wid blk : Nat) : State × Option Nat :=
  match s.regions.find? fun p => p.2.waiter == some sid && !p.2.releasing with
  | some (r, x) =>
    if x.made then (s.setRegion r { x with waiter := none, lastBell := s.now }, some (256 * r)) else (s, none)
  | none =>
    let w (off : Nat) : Nat := s.blockWord sid wid blk off
    let tail := s.blockTail sid wid blk
    if bits (w 8) 24 1 = 1 ∧ s.spanClear (coreOf sid) wid (w 24) 72 = false then (s, none) else
    let map := if bits (w 8) 24 1 = 1 then s.unitRead (blockParty sid) wid (w 24) 72 else (s, [])
    if s.scanBlockBad wid blk (w 0) (w 8) (w 16) (w 24) (w 32) tail then (map.1, some 3)
    else
      let s := map.1
      let n := 2 ^ bits (w 8) 0 4
      let bytes := n * (bits (w 8) 8 16 + 1) * 1024
      if !(s.unmapped wid (w 0) ((bytes + 65535) / 65536 * 65536)) then (s, some 4)
      else
        match (List.range 16).find? fun r => (s.region r).isNone with
        | none => (s, some 1)
        | some r =>
          if (s.freeSlices (bits (w 8) 26 2)).length < n then (s, some 2)
          else (s.makeRegion sid wid (w 0) (w 8) (w 16) (portsOf map.2) r, none)

/-! ### GATEBIND (R264, R265) -/

/-- A page of a range a gate may take (status 2). -/
def State.gatePageOk (s : State) (wid base npg home : Nat) : Bool :=
  (List.range (npg * 16)).all fun i =>
    match s.page wid (base + 4096 * i) with
    | none => false
    | some p =>
      p.cls == 0 && p.w && decide (base ≤ p.dva) && decide (p.dva + pageBytes p.size ≤ base + npg * 65536) &&
        (home == 0 || (List.range 64).all fun g =>
          let k := Config.stackOf (p.dpaOf (base + 4096 * i) / 64 + g)
          if home = 1 then decide (k < 2) else decide (2 ≤ k) && decide (k < 8))

/-- The pages of a gate's range take a class, and no TLB holds their old entries. -/
def State.classRange (s : State) (wid base npg cls : Nat) : State :=
  let hit (dva : Nat) : Bool := decide (base ≤ dva) && decide (dva < base + npg * 65536)
  { s with
    pages := s.pages.map fun (p : Page) => if p.wid == wid && hit p.dva then { p with cls := cls } else p
    tlb := s.tlb.filter fun t => !(t.2.1 == wid && hit t.2.2) }

/-- GATEBIND: a status, or none while an UNBIND waits for a flip (R265), or the gate word's write for those before it. A GWORD in a page that
text runs from is answered with status 1 (assumption 116), and an empty owner set of either side with status 3 (assumption 141). A store to GWORD that
was checked before the gate was bound is not checked again as it reaches its home (assumption 146). -/
def State.gateBind (s : State) (sid wid blk : Nat) : State × Option Nat :=
  let w (off : Nat) : Nat := s.blockWord sid wid blk off
  let gw := w 0
  let base := w 8
  let unbind := bits (w 16) 16 1 == 1
  let npg := bits (w 16) 0 16 + 1
  let s0 := BitVec.ofNat 4 (bits (w 24) 0 4)
  let s1 := BitVec.ofNat 4 (bits (w 24) 4 4)
  let bad := blk % 64 != 0 || gw % 8 != 0 || base % 65536 != 0 || decide (2 ^ 17 ≤ w 16) || decide (2 ^ 11 ≤ w 24) || bits (w 24) 9 2 == 3 ||
    s.blockTail sid wid blk != 0 ||
    (if unbind then npg != 1 || bits (w 24) 0 9 != 0 else s0 == 0 || s1 == 0 || (s0 &&& s1) != 0)
  if bad then (s, some 3)
  else if unbind then
    match s.gateAt wid gw with
    | none => (s, some 5)
    | some g =>
      if g.flipping then (s, none)
      else ({ s.classRange wid g.base g.npg 0 with gates := s.gates.filter fun h => h.dpa != g.dpa }, some 0)
  else
    let word := match s.page wid gw with
      | some p => if p.cls == 0 && p.r && p.w && !(s.runsText (p.dpaOf gw)) && !(decide (base ≤ gw) && decide (gw < base + npg * 65536)) && (s.gateWord (p.dpaOf gw)).isNone then some (p.dpaOf gw) else none
      | none => none
    match word with
    | none => (s, some 1)
    | some d =>
      if !(s.gatePageOk wid base npg (bits (w 24) 9 2)) then (s, some 2)
      else if 4096 ≤ s.gates.length then (s, some 4)
      else
        let t := s.settledHome sid (.dram d) 8
        if !t.2 then (t.1, none) else
        let s := t.1
        let g : Gate := { wid := wid, dva := gw, dpa := d, base := base, npg := npg, set0 := s0, set1 := s1, owner := bits (w 24) 8 1 == 1 }
        let s := s.writeHome sid (.dram d) (word8 (bits (w 24) 8 1)) [hubRelease]
        ({ s.classRange wid base npg 2 with gates := s.gates ++ [g] }, some 0)

/-! ### LEASE and UNLEASE (R257) -/

/-- The status at acceptance: 0, with the request kept, or 7. -/
def State.leaseAccept (s : State) (sid wid blk : Nat) (un : Bool) : State × Nat :=
  let w (off : Nat) : Nat := s.blockWord sid wid blk off
  let op := w 0 % 4
  let bad := blk % 64 != 0 || decide (4 ≤ w 0) || (un && op != 0) || rangeBad (w 8) false || w 48 != 0 || w 56 != 0 ||
    (if !un && (op == 0 || op == 2) then decide (2 ^ 40 ≤ w 16) else if !un && op == 3 then decide (2 ≤ w 16) else w 16 != 0)
  if bad then (s, 7)
  else ({ s with services := s.services ++ [{ wid := wid, blk := blk, op := if un then 4 else op, range := w 8, value := w 16, token := w 32 + 2 ^ 64 * w 40 }] }, 0)

/-- Firmware carries out the oldest accepted request by its policy, and writes TOKEN, then the final STATUS with a DEV-scope release. The status of an UNLEASE
waits as its AREVOKE does for the operations the bays have accepted (R251). A range that is not leased to the tenant, and a WAKE without a live
session, is answered with status 6 (assumption 115). A lease is granted with its EOP flag 0 (assumption 124). -/
def execLeaseFinalStatus (grant : Bool) (weight : Nat) (s : State) : Result :=
  match s.services with
  | [] => .next s
  | q :: rest =>
    let t := s.spanSettled noSid q.wid q.blk 64
    if !t.2 then .next t.1 else
    let s := { t.1 with services := rest }
    let r := rangeWord q.range
    let mine := r.arrays.all fun an => s.joined (arrayDie an) && (s.lease an).st == .leased && (s.lease an).wid == q.wid
    let done (s : State) (n : Nat) : Result := .next (s.putWord noSid q.wid (q.blk + 24) n)
    let set (f : Lease → Lease) : State := (r.arrays.foldl (fun (t : State) an => t.setLease an (f (t.lease an))) s).committed
    if q.revoked then (if r.arrays.all s.arrayIdle then done s 1 else .next { s with services := rest ++ [q] })
    else if !grant then done s 6
    else if q.op = 0 then
      let wt := weight % 15 + 1
      let n := s.grantStatus r (q.wid + 4096 * wt) q.value 0
      if n = 0 then
        let g := s.grantAll r q.wid wt q.value false
        done (g.1.writeSpan noSid q.wid (q.blk + 32) (leBytes 16 g.2)) 1
      else done s (n + 1)
    else if !mine then done s 6
    else if q.op = 1 then
      let v := s.vf (s.worldVf q.wid)
      if !(v.spdm == .session && v.tdi == .run) then done s 6
      else if r.arrays.all fun an => (s.lease an).token == q.token then done (set fun l => { l with dormant := false }) 1
      else done s 8
    else if q.op = 2 then done (set fun l => { l with rsv := q.value }) 1
    else if q.op = 3 then done (set fun l => { l with eop := q.value == 1 }) 1
    else
      let s := (s.revokeAll r.arrays q.wid false).setMaint r.first (weight % 15 + 1)
      if r.arrays.all s.arrayIdle then done s 1 else .next { s with services := rest ++ [{ q with revoked := true }] }

/-! ### EVIDENCE (R283) -/

def State.allImages (s : State) : List Image := s.images.map (·.2) ++ s.shadow.flatMap fun p => p.2.images.map fun q => q.2.2

/-- Where a world's streams are: 0 running, 1 descheduled, 2 gated (R234). -/
def State.resid (s : State) (wid : Nat) : Nat :=
  let on := s.streams.any fun p => !isService p.1 && p.2.run != Run.free && p.2.ident.wid == wid
  let saved := s.allImages.filter fun i => i.stream.ident.wid == wid
  if on || saved.isEmpty then 0
  else if saved.all fun i => (s.core (16 * groupOf i.core)).gated then 2 else 1

/-- The signed part of a world report (Table 12.5). -/
def State.reportHead (s : State) (wid : Nat) (nonce : List Byte) : List Byte :=
  let w := s.world wid
  let r := s.resid wid
  let log := if r = 0 then w.log else w.log.take w.logAtSave
  leBytes 4 1 ++ leBytes 4 r ++ word8 Config.serial.toNat ++ leBytes 2 wid ++ leBytes 2 (s.worldVf wid) ++ leBytes 4 0 ++ word8 w.savetime ++
    fitBytes 32 Config.fwDigest ++ sha256 log.flatten ++ fitBytes 32 nonce

def State.report (s : State) (wid : Nat) (nonce : List Byte) : List Byte :=
  let h := s.reportHead wid nonce
  h ++ fitBytes 384 (Config.sign h)

/-- The record a world may collect; firmware collects any. -/
def State.recordFor (s : State) (wid seq : Nat) : Option Record :=
  s.records.find? fun r => r.seq == seq && (wid == 0 || (r.prev == wid || r.party == wid) && decide (s.wtWord wid 0x58 < seq))

/-- The output of EVIDENCE at an address can take n bytes: normal pages with W from which no text runs (R90). -/
def State.evidenceOut (s : State) (wid dva n : Nat) : Bool := decide (dva + n ≤ 0x800000000000) && (s.mapped wid dva n fun p => p.w && p.cls == 0) && s.textFree wid dva n

/-- The output is written once the writes before it are at their homes; until then EVIDENCE waits. -/
def State.evidenceWrite (s : State) (sid wid dva : Nat) (bs : List Byte) : State × Option Nat :=
  let t := s.spanSettled sid wid dva bs.length
  if t.2 then (t.1.writeSpan sid wid dva bs, some 0) else (t.1, none)

/-- EVIDENCE: the status, with the output written, or none while it waits. -/
def State.evidence (s : State) (sid wid blk : Nat) : State × Option Nat :=
  let w (off : Nat) : Nat := s.blockWord sid wid blk off
  let kind := w 0
  let nonceOk := decide (w 16 + 32 ≤ 0x800000000000) && (s.mapped wid (w 16) 32 fun p => p.r && p.cls != 1) && !(s.badSpan wid (w 16) 32)
  if blk % 64 ≠ 0 ∨ 1 < kind ∨ s.blockTail sid wid blk ≠ 0 then (s, some 3)
  else if kind = 0 then
    if !(s.spanClear (coreOf sid) wid (w 16) 32) then (s, none) else
    let nonce := s.unitRead (blockParty sid) wid (w 16) 32
    if nonceOk && s.evidenceOut wid (w 8) 512 then nonce.1.evidenceWrite sid wid (w 8) (s.report wid nonce.2) else (nonce.1, some 3)
  else
    match s.recordFor wid (w 24) with
    | none => (s, some 1)
    | some r => if s.evidenceOut wid (w 8) r.bytes.length then s.evidenceWrite sid wid (w 8) r.bytes else (s, some 3)

/-! ### RESUME (R221 to R223) -/

/-- A suspended stream with a context number, on a core or saved. -/
def State.suspendedOn (s : State) (wid ctxn : Nat) : Option Nat :=
  (s.streams.find? fun p => p.2.run == Run.suspended && p.2.ident.wid == wid && p.2.ident.ctxn == ctxn).map (·.1)

def State.suspendedIn (s : State) (wid ctxn : Nat) : Option Image :=
  s.allImages.find? fun i => i.stream.run == Run.suspended && i.stream.ident.wid == wid && i.stream.ident.ctxn == ctxn

/-- RETRY (R222): the stream goes on where it stopped; a wait whose fault put its token back pops it again. `at'` is the device time its
watchdog counts from. -/
def Stream.retried (st : Stream) (at' : Nat) : Stream :=
  let st := match st.wait with
    | none => st
    | some w => match (if (st.eng' .s).twDone then none else engineOf (bits w.base 23 3)) with
      | none => st
      | some x => match st.pop x .s with
        | none => st
        | some (v, t) => t.setEng .s { t.eng' .s with twDone := true, twVal := v }
  { st.reissueCmds with
    run := if st.wait.isSome && st.drained then .parked else .running
    fault := none, faultEng := none, progAt := at' }

/-- The status of a request for an iteration's fault record. -/
def resumeStatus (st : Stream) (action seq : Nat) : Nat :=
  match st.fault with
  | none => 1
  | some r => if r.seq ≠ some seq then 4 else if action = 0 ∧ !r.retry then 2 else 0

/-- RESUME: a status, or none while an ABANDON waits for its release. -/
def State.resume (s : State) (sid wid blk : Nat) : State × Option Nat :=
  let w (off : Nat) : Nat := s.blockWord sid wid blk off
  let action := w 8
  if blk % 32 ≠ 0 ∨ 2 ^ 16 ≤ w 0 ∨ 1 < action ∨ 2 ^ 32 ≤ w 16 then (s, some 3)
  else
    match s.suspendedOn wid (w 0) with
    | some t =>
      let n := resumeStatus (s.stream t) action (w 16)
      if n ≠ 0 then (s, some n)
      else if action = 0 then ((s.setStream t ((s.stream t).retried s.now)).reissueStore t, some 0)
      else
        let r := s.abandon t
        (r.1, if r.2 then some 0 else none)
    | none =>
      match s.suspendedIn wid (w 0) with
      | none => (s, some 1)
      | some i =>
        let n := resumeStatus i.stream action (w 16)
        if n ≠ 0 then (s, some n)
        else if action = 0 then (s.mapStreams fun st => if st.ident.key = i.stream.ident.key ∧ st.run = Run.suspended then st.retried 0 else st, some 0)
        else (s.abandonImage i, some 0)

/-! ### TRAP (R394, R395) -/

/-- Bytes of a service's block, and where its STATUS stands (Table 16.3). -/
def serviceSize : Nat → Nat
  | 1 => 32 | 2 => 32 | 8 => 32 | _ => 64
def serviceStatus : Nat → Nat
  | 5 => 32 | 6 => 32 | 7 => 32 | _ => 24

/-- Firmware carries out a request: the word it writes at STATUS, or none where it has to wait. -/
def State.serve (s : State) (q : TrapReq) : State × Option Nat :=
  let w (off : Nat) : Nat := s.blockWord q.sid q.wid q.blk off
  match q.svc with
  | 1 => let r := s.mapPage q.sid q.wid q.blk (w 0) (w 8) (w 16); (r.1, some r.2)
  | 2 => s.unmapAt q.sid q.wid q.blk (w 0) (w 16)
  | 3 => let r := s.leaseAccept q.sid q.wid q.blk false; (r.1, some r.2)
  | 4 => let r := s.leaseAccept q.sid q.wid q.blk true; (r.1, some r.2)
  | 5 => s.evidence q.sid q.wid q.blk
  | 6 => s.scanMake q.sid q.wid q.blk
  | 7 => s.gateBind q.sid q.wid q.blk
  | _ => s.resume q.sid q.wid q.blk

/-- A request is carried out if it is the first of its world that firmware has, once the links to its block are clear (R16) and the writes
before STATUS at home; its STATUS is then written, and the TRAP may retire. -/
def State.carry (s : State) (q : TrapReq) : State :=
  if (s.traps.find? fun t => t.wid == q.wid) = some q then
    let r := s.spanSettled q.sid q.wid (q.blk + serviceStatus q.svc) 8
    if !(r.2 && r.1.spanClear (coreOf q.sid) q.wid q.blk (serviceSize q.svc)) then r.1 else
    match r.1.serve q with
    | (s, none) => s
    | (s, some n) =>
      let s := s.putWord q.sid q.wid (q.blk + serviceStatus q.svc) n
      { (if q.sid = noSid then s else s.setStream q.sid { s.stream q.sid with trap := some true }) with traps := s.traps.filter fun t => t != q }
  else s

/-- A TRAP that has been carried out retires: later loads are performed after it (R394). -/
def State.trapEnd (s : State) : State := s.setMe { s.me with trap := none, early := [] }

/-- TRAP: MARK's order, then a DEV-scope release (R394); S holds at it until firmware has written STATUS. -/
def execTrap (a b : SReg) (s : State) : Result :=
  let sid := s.cur.sid
  match s.me.trap with
  | some true => .next s.trapEnd
  | some false => .next s.held
  | none =>
    let svc := (s.getS a).toNat
    let blk := (s.getS b).toNat
    if svc = 0 ∨ 8 < svc then .next s.illop
    else
      match s.spanCheck sid blk (serviceSize svc) .read (serviceSize svc) with
      | some f => .next (s.fault f)
      | none =>
        match s.spanCheck sid (blk + serviceStatus svc) 8 .write 8 with
        | some f => .next (s.fault f)
        | none =>
          let m := s.realign sid
          if !m.2 then .next m.1.held else
          let r := m.1.release sid .dev
          if !(r.2 && r.1.spanClear (coreOf sid) (s.widOf sid) blk (serviceSize svc)) then .next r.1.held
          else
            let s := r.1
            let q : TrapReq := { sid := sid, wid := s.widOf sid, svc := svc, blk := blk }
            let s := (s.unitRead (blockParty sid) q.wid blk (serviceSize svc)).1
            let s := { s.setMe { s.me with trap := some false } with traps := s.traps ++ [q] }
            let k := 256 + s.free 7 % 4
            let s := if q.wid = 0 then s else s.setCore k { s.core k with requests := (s.core k).requests ++ [.trap sid] }
            let s := s.carry q
            if s.me.trap == some true then .next s.trapEnd else .next s.held

/-! ### The services as steps of firmware -/

/-- Firmware takes up a waiting request of one kind; the test is of the world's block. -/
def State.takeUp (s : State) (sid blk svc : Nat) (ok : Nat → Bool) : Result :=
  match s.traps.find? fun t => t.sid == sid && t.blk == blk && t.svc == svc with
  | none => .next s
  | some q => if ok q.wid then .next (s.carry q) else .next s

def State.opIs (s : State) (sid wid blk n : Nat) : Bool := s.blockWord sid wid blk 0 % 4 == n

def execMap (sid blk : Nat) (s : State) : Result := s.takeUp sid blk 1 fun _ => true
def execUnmap (sid blk : Nat) (s : State) : Result := s.takeUp sid blk 2 fun _ => true
def execScanmake (sid blk : Nat) (s : State) : Result := s.takeUp sid blk 6 fun _ => true
def execGatebindBind (sid blk : Nat) (s : State) : Result := s.takeUp sid blk 7 fun w => bits (s.blockWord sid w blk 16) 16 1 == 0
def execGatebindUnbind (sid blk : Nat) (s : State) : Result := s.takeUp sid blk 7 fun w => bits (s.blockWord sid w blk 16) 16 1 == 1
def execLeaseRequest (sid blk : Nat) (s : State) : Result := s.takeUp sid blk 3 fun w => s.opIs sid w blk 0
def execLeaseWake (sid blk : Nat) (s : State) : Result := s.takeUp sid blk 3 fun w => s.opIs sid w blk 1
def execLeaseReserve (sid blk : Nat) (s : State) : Result := s.takeUp sid blk 3 fun w => s.opIs sid w blk 2
def execLeaseEop (sid blk : Nat) (s : State) : Result := s.takeUp sid blk 3 fun w => s.opIs sid w blk 3
def execUnlease (sid blk : Nat) (s : State) : Result := s.takeUp sid blk 4 fun _ => true
def execEvidenceWorldReport (sid blk : Nat) (s : State) : Result := s.takeUp sid blk 5 fun w => s.blockWord sid w blk 0 != 1
def execEvidenceCollectRecord (sid blk : Nat) (s : State) : Result := s.takeUp sid blk 5 fun w => s.blockWord sid w blk 0 == 1
def execResumeRetry (sid blk : Nat) (s : State) : Result := s.takeUp sid blk 8 fun w => s.blockWord sid w blk 8 != 1
def execResumeAbandon (sid blk : Nat) (s : State) : Result := s.takeUp sid blk 8 fun w => s.blockWord sid w blk 8 == 1

/-- A region whose release has been asked for is freed once its work is done (R161); the UNMAP that asked then retires. -/
def execScanRegionRelease (region : Nat) (s : State) : Result :=
  match s.region region with
  | none => .next s
  | some x =>
    match (if x.releasing then s.traps.find? fun t => x.waiter == some t.sid && t.svc == 2 else none) with
    | some q => .next (s.carry q)
    | none => .next (s.tryRelease region).1

end Sys2Proof.Machine
end

