-- ==== Sys2Proof/Machine/Hub.lean ====
section
/-! DEFINITION. The hub (12 R277 to R291; 01 R16): world queues, the host link with its SPDM, TDISP and IDE parts, worlds made and
torn down, Ethernet intake, Tsudal and die links, lockdown and enrolment. The bytes of SPDM responses beyond what R283 gives
are the standard's (assumption 17). -/

namespace Sys2Proof.Machine

open Sys2Proof

/-! ### World queues (R278) -/

/-- The newest notification beyond the hub's buffer, which had to wait for a link, is dropped and counted (R278). -/
def State.dropNote (s : State) (wid : Nat) : State :=
  if 64 < s.buffered wid ∧ s.queueRoom wid 0x20 < (s.world wid).notes.length then
    (s.setWorld wid { s.world wid with notes := (s.world wid).notes.dropLast }).queueOverflow wid 0x20
  else s

/-- The newest error-log entry beyond it, likewise. -/
def State.dropErr (s : State) (wid : Nat) : State :=
  if 64 < s.buffered wid ∧ s.queueRoom wid 0x30 < (s.world wid).errs.length then
    (s.setWorld wid { s.world wid with errs := (s.world wid).errs.dropLast }).queueOverflow wid 0x30
  else s

/-- The oldest waiting notification goes into its queue, if there is room and the links there are clear. -/
def execNotificationAppend (wid : Nat) (s : State) : Result :=
  match (s.world wid).notes with
  | [] => .next s
  | e :: es =>
    if !(s.queueClear noCore wid 0x20 16 && s.entryClear (leNat (e.take 2))) then .next s
    else if s.queueFull wid 0x20 then .next ((s.readHeader wid 0x20).dropNote wid)
    else .next ((s.setWorld wid { s.world wid with notes := es }).queueAppend wid 0x20 e)

/-- The oldest waiting error log entry goes into the error log, likewise. -/
def execErrorLogAppend (wid : Nat) (s : State) : Result :=
  match (s.world wid).errs with
  | [] => .next s
  | e :: es =>
    if !(s.queueClear noCore wid 0x30 32 && s.entryClear (leNat ((e.drop 2).take 2))) then .next s
    else if s.queueFull wid 0x30 then .next ((s.readHeader wid 0x30).dropErr wid)
    else .next ((s.setWorld wid { s.world wid with errs := es }).queueAppend wid 0x30 e)

/-! ### The hub's accesses (R422: party 512) -/

/-- The hub's port can take a write of a piece to a scanned region: a whole granule, by a port that participates (R162, R167, R170). -/
def Region.takesHub (x : Region) (dva n : Nat) : Bool := dva % 64 == 0 && n == 64 && (!x.stepped || x.parts.contains 512)

/-- A piece of a hub write within one granule. Into a gated range or a gate word it is dropped and logged (R266, R267); a whole granule
of a scanned region enters by the hub's port as a SET (R162); where nothing writable and reachable is mapped, or text runs (R90), it has
no effect (assumption 18); after the world's reset marker it is discarded (R289). A piece of which only some bytes are a gate word's is dropped
whole (assumption 148). -/
def State.hubPiece (s : State) (wid dva : Nat) (data : List Byte) : State :=
  match s.page wid dva with
  | none => s
  | some p =>
    let a := p.dpaOf dva
    if p.cls == 2 || (s.gateWord a data.length).isSome then s.logError wid 6 512 0 dva 0
    else if p.cls == 1 then
      match (s.regionAt wid dva).bind fun r => (s.region r).map fun x => (r, x) with
      | some (r, x) =>
        if x.takesHub dva data.length && decide (dva < x.base + x.bytes) then s.enqueueScan r x 512 (x.openLap 512) dva 64 noSid 0 (some (.set, data)) else s
      | none => s
    else if !p.w || s.runsText a || !(s.reachable a) || s.cutOff wid noCore (.dram a) then s
    else s.writeHome noSid (.dram a) data

/-- A hub write, granule by granule. -/
def State.hubWrite (s : State) (wid : Nat) : Nat → Nat → List Byte → State
  | 0, _, _ => s
  | fuel + 1, dva, bs =>
    if bs.isEmpty then s
    else
      let n := 64 - dva % 64
      (s.hubPiece wid dva (bs.take n)).hubWrite wid fuel (dva + n) (bs.drop n)

/-- The slices a hub write goes to have room for it in the hub's queues: 64 entries each (R177). -/
def State.hubRoom (s : State) (wid dva n : Nat) : Bool :=
  s.regions.all fun p =>
    p.2.wid != wid || (List.range p.2.count).all fun i =>
      let mine := (granulesOf dva n).filter fun q => p.2.takesHub q.1 q.2 && decide (p.2.base ≤ q.1) && decide (q.1 < p.2.base + p.2.bytes) && (p.2.place q.1).2.1 == i
      mine.isEmpty || decide (((p.2.slice i).queue.filter fun q => q.port == 512).length + mine.length ≤ 64)

/-- The links between the hub and the homes of a span are clear, and to the slices of its scanned rows (R15, R16). -/
def State.hubClear (s : State) (wid dva n : Nat) : Bool :=
  s.links.isEmpty || (granulesOf dva n).all fun q =>
    match (s.regionAt wid q.1).bind s.region, s.dpa wid q.1 with
    | some x, _ => s.sliceClear noCore x (x.place q.1).2.1
    | none, some a => s.clearTo noCore (.dram a)
    | none, none => true

/-- A 128-byte record the hub reads (R281). -/
def State.hubRecord (s : State) (wid dva : Nat) : State × List Byte := s.unitRead 512 wid dva 128

/-- A host write over PCIe to memory of a live world (R281). One that finds a full queue of a slice, or a link that
waits for a frame (R16), waits: the event is not yet due. -/
def execHostWrite (wid dva : Nat) (data : List Byte) (s : State) : Result :=
  if s.live wid ∧ dva < 0x800000000000 ∧ s.hubRoom wid dva data.length = true ∧ s.hubClear wid dva data.length = true then .next (s.hubWrite wid (data.length + 1) dva data) else .next s

/-! ### VF register blocks (R280, R281) -/

/-- The world firmware has bound to a VF (Table 12.1). -/
def State.vfWorld (s : State) (vf : Nat) : Option Nat :=
  if vf = 0 ∨ 255 < vf then none else (List.range 4095).find? fun w => s.worldState w != 0 && s.worldVf w == vf

def State.vfRuns (s : State) (vf : Nat) : Bool := decide (0 < vf) && decide (vf < 256) && (s.vf vf).tdi == .run

/-- An access outside RUN: all ones on a read, no effect of a write, and an access violation (R280, R291). Before stage A there is no
host link (R25). -/
def State.vfClosed (s : State) (vf : Nat) : State :=
  if s.boot.stage = 0 then s else
  (s.setVf vf { s.vf vf with reply := List.replicate 8 0xFF }).violation ((s.vfWorld vf).getD 0)

/-- DOORBELL: the record goes into the world's launch queue, and DBSTAT says so. A record on a stack that cannot be reached is as one that is
not mapped (R27). It waits for the links (R16). -/
def execDoorbell (vf : Nat) (v : Word) (s : State) : Result :=
  if !(s.vfRuns vf) then .next (s.vfClosed vf)
  else
    let stat (s : State) (n : Nat) : State := s.setVf vf { s.vf vf with dbstat := n }
    let a := v.toNat
    match s.vfWorld vf with
    | none => .next (stat s 3)
    | some w =>
      if !(s.live w) then .next (stat s 3)
      else if a % 128 ≠ 0 ∨ s.mapped w a 128 (fun _ => true) = false ∨ s.spanReachable w a 128 = false then .next (stat s 2)
      else if !(s.hubClear w a 128 && s.queueClear noCore w 0x10 128) then .next s
      else
        let r := s.hubRecord w a
        let q := r.1.appendRecord w r.2 512
        .next (stat q.1 (if q.2 then 0 else 1))

/-- A request of the host to firmware: it stands in the world's order with the TRAPs (R394). Its block is checked as TRAP checks it; one
that fails is dropped (assumption 99). -/
def State.hostService (s : State) (vf svc blk : Nat) : State :=
  match s.vfWorld vf with
  | none => s
  | some w =>
    if s.live w && s.mapped w blk (serviceSize svc) (fun p => p.r && p.w && p.cls == 0) && s.spanReachable w blk (serviceSize svc) && s.textFree w (blk + serviceStatus svc) 8 then
      let s := (s.unitRead 512 w blk (serviceSize svc)).1
      let q : TrapReq := { sid := noSid, wid := w, svc := svc, blk := blk }
      { s with traps := s.traps ++ [q] }.carry q
    else s

/-- RESUME: as TRAP RESUME. -/
def execVfResume (vf : Nat) (v : Word) (s : State) : Result := if s.vfRuns vf then .next (s.hostService vf 8 v.toNat) else .next (s.vfClosed vf)

/-- EVIDENCE: as TRAP EVIDENCE. -/
def execVfEvidence (vf : Nat) (v : Word) (s : State) : Result := if s.vfRuns vf then .next (s.hostService vf 5 v.toNat) else .next (s.vfClosed vf)

/-- An access outside RUN, or at an offset without a register; DBSTAT reads the last outcome. The write has no effect, and the
reply is what a read gives; of a write-only register it stays as it was (assumption 100). -/
def execVfRegisterWrite (vf off : Nat) (_v : Word) (s : State) : Result :=
  if !(s.vfRuns vf) then .next (s.vfClosed vf)
  else if off = 0 ∨ off = 0x10 ∨ off = 0x18 then .next s
  else .next (s.setVf vf { s.vf vf with reply := if off = 8 then word8 (s.vf vf).dbstat else List.replicate 8 0xFF })

/-! ### Ethernet intake (R284, R285) -/

/-- The flow table entry of a packet. -/
def State.flowOf (s : State) (port flow : Nat) : Option (Nat × Flow) :=
  s.flows.find? fun p => decide (p.1 < 8192) && p.2.valid && p.2.port == port && p.2.flow == flow

/-- The header of a packet is not R284's. -/
def packetBad (bs : List Byte) : Bool :=
  let h := leNat (bs.take 8)
  decide (bs.length < 8) || bits h 0 16 != 0x1B2C || bits h 16 16 == 0 || decide (8952 < bits h 16 16) || bits h 16 16 + 8 != bs.length

/-- The TEMPLATE record with the argument pointer of a slot and a priority. -/
def fillTemplate (bs : List Byte) (slot prio : Nat) : List Byte :=
  let w := recWord bs 8
  bs.take 8 ++ word8 (w / 8 * 8 + prio % 8) ++ (bs.drop 16).take 0x40 ++ word8 slot ++ bs.drop 0x58

/-- Firmware writes an entry of the flow table; its counters start at 0 (Table 12.6). -/
def State.writeFlow (s : State) (k : Nat) (f : Flow) : State :=
  if k < 8192 ∧ 1 ≤ s.boot.stage then { s with flows := Tab.set s.flows k { f with hits := 0, drops := 0, prio := f.prio % 8, port := f.port % 65536, flow := f.flow % 2 ^ 32, wid := f.wid % 4096 } } else s

/-- A request packet on the Ethernet intake. It waits for the links between the hub and its places (R16). A TEMPLATE at any address serves
(assumption 127), and what a datagram shorter than its header lacks of a flow id counts as 0 (assumption 128). -/
def execIntakePacket (port : Nat) (payload : List Byte) (s : State) : Result :=
  match s.flowOf port (bits (leNat (payload.take 8)) 32 32) with
  | none => .next { s with flowMiss := s.flowMiss + 1 }
  | some (k, f) =>
    let drop (s : State) : State := { s with flows := Tab.set s.flows k { f with drops := (f.drops + 1) % 2 ^ 32 } }
    let slots := s.wtWord f.wid 0x50 % 65536
    if !(s.live f.wid) then .next s
    else if packetBad payload || slots == 0 || !(s.mapped f.wid f.template 128 fun _ => true) || !(s.spanReachable f.wid f.template 128) then .next (drop s)
    else if s.queueFull f.wid 0x10 then .next (if s.spanClear noCore f.wid (s.queueBase f.wid 0x10) 64 then drop (s.readHeader f.wid 0x10 512) else s)
    else
      let slot := s.wtWord f.wid 0x48 + 16384 * (f.hits % slots)
      if !(s.hubClear f.wid slot payload.length && s.hubClear f.wid f.template 128 && s.queueClear noCore f.wid 0x10 128) then .next s else
      let s := s.hubWrite f.wid (payload.length + 1) slot payload
      let r := s.hubRecord f.wid f.template
      let q := r.1.appendRecord f.wid (fillTemplate r.2 slot f.prio) 512
      .next { q.1 with flows := Tab.set q.1.flows k { f with hits := (f.hits + 1) % 2 ^ 32 } }

/-! ### Links (R16, R286 to R289) -/

/-- Firmware binds a peer number to a remote device and a port, or unbinds it (R286). -/
def State.bindPeer (s : State) (p : Nat) (dest : Option (Nat × Nat)) : State :=
  if s.boot.stage = 0 ∨ 64 ≤ p then s else
  match dest with
  | none => { s with peers := Tab.erase s.peers p }
  | some (device, port) => if port < 4 then { s with peers := Tab.set s.peers p (device, port) } else s

/-- The slot one end sends in, and the slots the other end accepts. -/
def Link.sendSlot (l : Link) (toPeer : Bool) : Nat := if toPeer then l.slotA else l.slotB
def Link.accepts (l : Link) (toPeer : Bool) : List Nat := if toPeer then l.validB else l.validA

/-- A packet leaves one end of a link in its sender's slot. After the world's reset marker it is discarded (R289); a link that is down,
or a port the security core has taken (R290), carries none. -/
def State.sendPacket (s : State) (link wid : Nat) (toPeer : Bool) : State :=
  let l := s.link link
  if 4 ≤ link ∨ s.portClosed link = true ∨ l.flush.contains wid = true then s
  else s.setLink link { l with flight := l.flight ++ [{ wid := wid, slot := l.sendSlot toPeer, toPeer := toPeer }] }

/-- The head of a channel arrives (R286, R288). Sound, and in a slot the receiver accepts, it is delivered. Else it is dropped and goes
out again from the replay buffer, in its place and under the sender's current slot, unless the world's marker has passed (R289); at its
third failure the link is down, and stays so until a power-up (assumption 101). -/
def Link.receive (l : Link) (wid : Nat) (toPeer ok : Bool) : List Packet → Link
  | [] => l
  | p :: ps =>
    if p.wid = wid ∧ p.toPeer = toPeer then
      if ok && (l.accepts toPeer).contains p.slot then { l with flight := ps }
      else
        { l with down := l.down || decide (3 ≤ p.fails + 1)
                 flight := if l.flush.contains wid then ps else { p with slot := l.sendSlot toPeer, fails := p.fails + 1 } :: ps }
    else let r := l.receive wid toPeer ok ps; { r with flight := p :: r.flight }

def State.arrivePacket (s : State) (link wid : Nat) (toPeer ok : Bool) : State :=
  let l := s.link link
  if 4 ≤ link ∨ s.portClosed link = true then s else s.setLink link (l.receive wid toPeer ok l.flight)

/-- The peer receives a packet. -/
def State.peerPacket (s : State) (link wid : Nat) (ok : Bool) : State := s.arrivePacket link wid true ok

/-- A packet a port receives names its world and a key slot: the head of that channel, if that is the slot it names. -/
def execTsudalPacket (link wid slot : Nat) (ok : Bool) (s : State) : Result :=
  match (s.link link).flight.find? fun p => p.wid == wid && !p.toPeer with
  | none => .next s
  | some p => if p.slot = slot then .next (s.arrivePacket link wid false ok) else .next s

/-- A frame of a die or hub link: one that fails is dropped and sent once more, and what crosses the link waits for it; a second failure
of the same frame is a lasting fault (R16). -/
def execDieLinkFrame (link : Nat) (ok : Bool) (s : State) : Result :=
  let l := s.link link
  if link < 4 ∨ 12 ≤ link then .next s
  else if ok then .next (s.setLink link { l with fails := 0 })
  else if l.fails = 0 then .next (s.setLink link { l with fails := 1 })
  else .next ((s.setLink link { l with fails := 0 }).lockdown 4 link)

/-- The slot that holds the newer key. -/
def Link.newer (l : Link) : Nat := if Tab.get 0 l.keys 0 < Tab.get 0 l.keys 1 then 1 else 0

/-- The new key goes into the idle slot at both ends, once the old key of that slot is retired at both. -/
def execLinkKeyInstall (link : Nat) (s : State) : Result :=
  let l := s.link link
  let idle := 1 - l.slotA
  if 4 ≤ link ∨ l.slotA ≠ l.slotB ∨ l.validA.contains idle = true ∨ l.validB.contains idle = true then .next s
  else .next (s.setLink link { l with validA := l.validA ++ [idle], validB := l.validB ++ [idle], keys := Tab.set l.keys idle l.nextKey, nextKey := l.nextKey + 1 })

/-- A sender, whose peer has acknowledged the install, goes on in the newer slot. -/
def execLinkKeySwitch (link : Nat) (endB : Bool) (s : State) : Result :=
  let l := s.link link
  let n := l.newer
  if endB then (if l.validA.contains n then .next (s.setLink link { l with slotB := n }) else .next s)
  else if l.validB.contains n then .next (s.setLink link { l with slotA := n }) else .next s

/-- A receiver retires the old slot once its peer sends in the newer one and nothing that names the old one is in flight. -/
def execLinkKeyRetire (link : Nat) (endB : Bool) (s : State) : Result :=
  let l := s.link link
  let n := l.newer
  let clear := l.flight.all fun p => p.toPeer != endB || p.slot == n
  if endB then (if l.slotA = n ∧ l.validB.contains n = true ∧ clear = true then .next (s.setLink link { l with validB := [n] }) else .next s)
  else if l.slotB = n ∧ l.validA.contains n = true ∧ clear = true then .next (s.setLink link { l with validA := [n] }) else .next s

/-! ### Teardown (R282, R289) -/

/-- STATE of a world's entry is written; its VF stands. -/
def State.setWorldState (s : State) (wid n : Nat) : State := s.setWtWord wid 0x40 (s.wtWord wid 0x40 / 4 * 4 + n)

/-- Step 1: later doorbells and intake packets are refused. -/
def State.beginTeardown (s : State) (wid : Nat) : State := if s.live wid then s.setWorldState wid 2 else s

/-- A function-level reset of a VF: the reset marker goes out along every port, and the world's teardown begins. -/
def execFunctionLevelReset (vf : Nat) (s : State) : Result :=
  match s.vfWorld vf with
  | none => .next s
  | some w =>
    let s := (List.range 12).foldl (fun (s : State) i => let l := s.link i; s.setLink i { l with flush := (l.flush ++ [w]).eraseDups }) s
    .next (s.beginTeardown w)

/-- A TDI enters ERROR: its register block closes, and its world's teardown begins (R280). -/
def execTdiError (vf : Nat) (s : State) : Result :=
  if vf = 0 ∨ 255 < vf then .next s
  else
    let s := s.setVf vf { s.vf vf with tdi := .error }
    match s.vfWorld vf with
    | none => .next s
    | some w => .next (s.beginTeardown w)

/-- Step 2: every iteration ends as by ABANDON, without a notification; whether all have. -/
def State.abandonAll (s : State) (wid : Nat) : State × Bool :=
  let mine := (s.streams.filter fun p => !isService p.1 && p.2.run != Run.free && p.2.ident.wid == wid).map (·.1)
  let r := mine.foldl (fun (a : State × Bool) t => let x := a.1.abandon t false; (x.1, a.2 && x.2)) (s, true)
  ((r.1.allImages.filter fun i => i.stream.ident.wid == wid).foldl (fun (s : State) i => s.abandonImage i false) r.1, r.2)

/-- Step 3: gates, regions and mappings go. -/
def State.unmapAll (s : State) (wid : Nat) : State :=
  let s := { s with gates := s.gates.filter fun g => g.wid != wid }
  let s := (s.regions.filter fun p => p.2.wid == wid).foldl (fun (s : State) p => s.freeRegion p.1 p.2) s
  { s with pages := s.pages.filter fun p => p.wid != wid, tlb := s.tlb.filter fun t => t.2.1 != wid }

/-- Step 5: the key is gone from every slot, and what the world's memory and its images held is noise (R20, R155, R227). -/
def State.zeroiseKey (s : State) (wid : Nat) : State :=
  let gone := (s.alloc.filter fun r => r.1 == wid).map fun r => r.2
  { s.setWorld wid { World.reset with wtot := (s.world wid).wtot } with
    cores := s.cores.map fun (p : Nat × Core) => (p.1, { p.2 with keys := p.2.keys.filter fun w => w != wid })
    syncKeys := s.syncKeys.map fun p => (p.1, p.2.filter fun w => w != wid)
    sliceKeys := s.sliceKeys.map fun p => (p.1, p.2.filter fun w => w != wid)
    syncWords := s.syncWords.filter fun w => w.1 != wid
    spent := s.spent.map fun (p : Nat × Image) => if p.2.stream.ident.wid = wid then (p.1, { p.2 with torn := true }) else p
    alloc := s.alloc.filter fun r => r.1 != wid
    stale := s.stale ++ gone
    fresh := s.fresh.filter fun p => !(gone.any fun r => decide (r.1 ≤ p.1 * 64) && decide (p.1 * 64 < r.1 + r.2)) }

/-- What else names the world: its records, range units, requests, and the markers of its reset. -/
def State.forgetWorld (s : State) (wid : Nat) : State :=
  { s with
    launches := s.launches.filter fun l => l.wid != wid
    ranges := s.ranges.filter fun p => p.2.wid != wid
    traps := s.traps.filter fun t => t.wid != wid
    services := s.services.filter fun q => q.wid != wid
    links := s.links.map fun (p : Nat × Link) => (p.1, { p.2 with flush := p.2.flush.filter (fun w => w != wid), flight := p.2.flight.filter fun q => q.wid != wid }) }

/-- Firmware tears a world down: a host command, or a teardown that has begun. Its revocations leave the bays' maintenance weights as they
are (assumption 114). Leases on a die that has not joined are revoked with the others (assumption 136). -/
def execWorldTeardown (wid : Nat) (s : State) : Result :=
  if wid = 0 ∨ 4095 ≤ wid ∨ !(s.worldState wid == 1 || s.worldState wid == 2) then .next s
  else
    let r := (s.beginTeardown wid).abandonAll wid
    if !r.2 then .next r.1
    else
      let s := r.1.unmapAll wid
      let s := s.revokeAll ((s.leases.filter fun p => p.2.st == .leased && p.2.wid == wid).map (·.1)) 0 false
      .next (((s.zeroiseKey wid).forgetWorld wid).setWorldState wid 0)

/-! ### A new world (R277, R282) -/

/-- The queues of an entry lie in pages of the world, normal, readable and writable, where the KY-4 can reach them (R277). -/
def State.queuesGood (s : State) (wid : Nat) : Bool :=
  [(0x00, 64, 64), (0x10, 128, 128), (0x20, 16, 64), (0x30, 32, 64)].all (fun q =>
    let log := s.wtWord wid (q.1 + 8)
    let b := s.queueBase wid q.1
    decide (4 ≤ log) && decide (log ≤ 16) && b % q.2.2 == 0 && decide (b + 64 + q.2.1 * 2 ^ log ≤ 0x800000000000) &&
      (s.mapped wid b (64 + q.2.1 * 2 ^ log) fun p => p.cls == 0 && p.r && p.w) && s.spanReachable wid b (64 + q.2.1 * 2 ^ log)) &&
  (let n := s.wtWord wid 0x50 % 65536
   let b := s.wtWord wid 0x48
   n == 0 || (b % 16384 == 0 && decide (b + 16384 * n ≤ 0x800000000000) && (s.mapped wid b (16384 * n) fun p => p.cls == 0 && p.r && p.w) && s.spanReachable wid b (16384 * n)))

/-- Bytes firmware gives a world whose entry names no queues yet, and where: the first place of that size that is not in use
(assumption 19). -/
def worldBytes : Nat := 67108864

/-- Every granule of a chunk stands on a stack that can be reached (R27). -/
def State.chunkReachable (s : State) (a : Nat) : Bool := [0, 1, 2, 3].all s.joined || (List.range (worldBytes / 64)).all fun i => s.reachable (a + 64 * i)

def State.freeChunk (s : State) : Option Nat :=
  let used := s.alloc.map (fun r => r.2) ++ s.stale ++ [(s.wtbase.toNat, 524288), (s.migbase.toNat, if s.migbase = 0 then 0 else 512 * imageBytes true)] ++
    (s.images.filterMap fun p => if p.1 < 2 ^ 40 then some (p.1, imageBytes p.2.stream.wide) else none)
  (List.range (Config.dramBytes / worldBytes)).findSome? fun i =>
    let a := i * worldBytes
    if !(s.chunkReachable a) || used.any fun r => decide (r.1 < a + worldBytes) && decide (a < r.1 + r.2) then none else some a

/-- Queues of 16 entries at DVA 0 in memory of the world's own, and no intake buffer. -/
def State.setUpQueues (s : State) (wid : Nat) : State :=
  match s.freeChunk with
  | none => s
  | some a =>
    let e := s.wtbase.toNat + 128 * wid
    let p : Page := { wid := wid, dva := 0, dpa := a, size := 2, cls := 0, zfill := false, x := false, w := true, r := true }
    let s := { s with pages := s.pages ++ [p], alloc := s.alloc ++ [(wid, a, worldBytes)], mem := Memory.clear s.mem a worldBytes }
    { s with mem := Memory.writeList s.mem e (word8 0 ++ word8 4 ++ word8 2048 ++ word8 4 ++ word8 8192 ++ word8 4 ++ word8 12288 ++ word8 4 ++ word8 0 ++ word8 0 ++ word8 0) }

/-- Firmware makes a world of a freed WID and binds a VF to it; its entry must be within reach (R27). -/
def execWorldMake (wid vf : Nat) (s : State) : Result :=
  let named := s.leases.any fun p => (p.2.st == .evicting || p.2.st == .erased) && (p.2.wid == wid || p.2.party == wid)
  if wid = 0 ∨ 4095 ≤ wid ∨ 255 < vf ∨ s.worldState wid ≠ 0 ∨ named = true ∨ (vf ≠ 0 ∧ (s.vfWorld vf).isSome = true) ∨ s.boot.stage ≠ 2 ∨
      !(s.reachable (s.wtAddr wid 0) && s.reachable (s.wtAddr wid 0x40)) then .next s
  else
    let s := if s.queuesGood wid then s else s.setUpQueues wid
    if !(s.queuesGood wid) then .next s
    else
      let heads := [0x00, 0x10, 0x20, 0x30].foldl (fun (s : State) q => (s.poke wid (s.queueBase wid q) (List.replicate 64 0)).written wid (s.queueBase wid q) 64) s
      .next (((heads.setWtWord wid 0x40 (4 * vf + 1)).setWtWord wid 0x58 s.recseq).setWorld wid { World.reset with key := true, wtot := (s.world wid).wtot })

/-! ### SPDM (R279, R283)

The spec gives the messages and the algorithms; the layout of a response is the standard's (assumption 17). -/

/-- A response: SPDM 1.2, its code, its two parameters, then its body. -/
def spdmReply (code p1 p2 : Nat) (body : List Byte) : List Byte := leBytes 1 0x12 ++ leBytes 1 code ++ leBytes 1 p1 ++ leBytes 1 p2 ++ body

/-- ERROR with a code of the standard: 4 UnexpectedRequest, 6 DecryptError, 7 UnsupportedRequest. -/
def spdmError (n : Nat) : List Byte := spdmReply 0x7F n 0 []

/-- Bytes of a response that are the responder's own: nonces, random data, its key share, a MAC. -/
def State.ownBytes (s : State) (k n : Nat) : List Byte := (List.range n).map fun i => BitVec.ofNat 8 (s.free (k + i))

/-- A response with the RSA-3072 signature over it. -/
def signed' (bs : List Byte) : List Byte := bs ++ fitBytes 384 (Config.sign bs)

def State.respond (s : State) (vf : Nat) (st : Spdm) (bs : List Byte) : State := s.setVf vf { s.vf vf with spdm := st, reply := bs }

/-- A request that its connection state admits is answered; any other gets UnexpectedRequest. The responder is there from stage A on
(R25). -/
def State.spdm (s : State) (vf : Nat) (ok : Spdm → Bool) (next : Spdm → Spdm) (bs : List Byte) : State :=
  if 255 < vf ∨ s.boot.stage = 0 then s
  else if ok (s.vf vf).spdm then s.respond vf (next (s.vf vf).spdm) bs
  else s.setVf vf { s.vf vf with reply := spdmError 4 }

/-- The connection has agreed on algorithms. -/
def Spdm.negotiated : Spdm → Bool
  | .none => false | .version => false | .caps => false | _ => true

/-- VERSION: the one version 1.2. -/
def execGetVersion (vf : Nat) (s : State) : Result :=
  .next (s.spdm vf (fun _ => true) (fun _ => .version) (leBytes 1 0x10 ++ leBytes 1 0x04 ++ leBytes 2 0 ++ leBytes 1 0 ++ leBytes 1 1 ++ leBytes 2 0x1200))

/-- CAPABILITIES: certificates, challenges, signed measurements, key exchange, and records encrypted and authenticated; no PSK and no
mutual authentication. Its time and sizes are the responder's own. -/
def execGetCapabilities (vf : Nat) (s : State) : Result :=
  .next (s.spdm vf (fun c => c == .version) (fun _ => .caps)
    (spdmReply 0x61 0 0 (leBytes 1 0 ++ s.ownBytes 0 1 ++ leBytes 2 0 ++ leBytes 4 0x2D6 ++ s.ownBytes 1 8)))

/-- ALGORITHMS: the choices of Table 12.3: RSASSA_3072, SHA-256, secp384r1, AES-256-GCM. -/
def algorithmsBody : List Byte :=
  leBytes 2 48 ++ leBytes 1 1 ++ leBytes 1 0 ++ leBytes 4 2 ++ leBytes 4 4 ++ leBytes 4 1 ++ List.replicate 12 0 ++ leBytes 4 0 ++
    (leBytes 1 2 ++ leBytes 1 0x20 ++ leBytes 2 0x10) ++ (leBytes 1 3 ++ leBytes 1 0x20 ++ leBytes 2 2) ++ (leBytes 1 5 ++ leBytes 1 0x20 ++ leBytes 2 1)

def execNegotiateAlgorithms (vf : Nat) (s : State) : Result := .next (s.spdm vf (fun c => c == .caps) (fun _ => .algs) (spdmReply 0x63 3 0 algorithmsBody))

/-- DIGESTS: SHA-256 of the certificate chain of slot 0. -/
def execGetDigests (vf : Nat) (s : State) : Result := .next (s.spdm vf Spdm.negotiated id (spdmReply 0x01 0 1 (sha256 Config.certChain)))

/-- CERTIFICATE: the chain. -/
def execGetCertificate (vf : Nat) (s : State) : Result :=
  let n := Nat.min Config.certChain.length 65535
  .next (s.spdm vf Spdm.negotiated id (spdmReply 0x02 0 0 (leBytes 2 n ++ leBytes 2 (Config.certChain.length - n) ++ Config.certChain.take n)))

/-- CHALLENGE_AUTH: the digest of the chain and a nonce, signed. -/
def execChallenge (vf : Nat) (s : State) : Result :=
  .next (s.spdm vf Spdm.negotiated id (signed' (spdmReply 0x03 0 1 (sha256 Config.certChain ++ s.ownBytes 0 32 ++ leBytes 2 0))))

/-- A measurement block of the DMTF form: its index, the type of its value, the value. -/
def measurementBlock (i type : Nat) (v : List Byte) : List Byte :=
  leBytes 1 i ++ leBytes 1 1 ++ leBytes 2 (v.length + 3) ++ leBytes 1 type ++ leBytes 2 v.length ++ v

/-- Bytes 0x00 to 0x5F of a report as blocks 1 to 4: the device, the world, FWDIG and WDIG. -/
def measurementRecord (h : List Byte) : List Byte :=
  measurementBlock 1 0x83 (h.take 16) ++ measurementBlock 2 0x83 ((h.drop 16).take 16) ++ measurementBlock 3 0x01 ((h.drop 32).take 32) ++
    measurementBlock 4 0x03 ((h.drop 64).take 32)

/-- GET_MEASUREMENTS of a VF's TDI: bytes 0x00 to 0x5F of its world's report, as blocks 1 to 4, signed (R283). -/
def execGetMeasurements (vf : Nat) (s : State) : Result :=
  let rec' := measurementRecord (s.reportHead ((s.vfWorld vf).getD 0) [])
  .next (s.spdm vf Spdm.negotiated id (signed' (spdmReply 0x60 0 0 (leBytes 1 4 ++ leBytes 3 rec'.length ++ rec' ++ s.ownBytes 0 32 ++ leBytes 2 0))))

/-- A request of a VF's connection fails the verification of its signature or its MAC: DecryptError, and an access violation (R291). -/
def State.spdmFail (s : State) (vf : Nat) : State :=
  if 255 < vf ∨ s.boot.stage = 0 then s else (s.setVf vf { s.vf vf with reply := spdmError 6 }).violation ((s.vfWorld vf).getD 0)

/-- KEY_EXCHANGE: the responder's session number, random data, key share, signature and MAC. -/
def execKeyExchange (vf : Nat) (ok : Bool) (s : State) : Result :=
  if ok then .next (s.spdm vf (fun c => c == .algs) (fun _ => .exchange)
    (signed' (spdmReply 0x64 0 0 (s.ownBytes 0 2 ++ leBytes 2 0 ++ s.ownBytes 2 32 ++ s.ownBytes 34 96 ++ leBytes 2 0)) ++ s.ownBytes 130 32))
  else .next (s.spdmFail vf)

/-- FINISH: the session stands, or its MAC fails and it does not. -/
def execFinish (vf : Nat) (ok : Bool) (s : State) : Result :=
  if ok then .next (s.spdm vf (fun c => c == .exchange) (fun _ => .session) (spdmReply 0x65 0 0 []))
  else
    let v := s.vf vf
    .next ((if 255 < vf ∨ s.boot.stage = 0 ∨ v.spdm ≠ .exchange then s else s.setVf vf { v with spdm := .algs }).spdmFail vf)

def execEndSession (vf : Nat) (s : State) : Result := .next (s.spdm vf (fun c => c == .session) (fun _ => .algs) (spdmReply 0x6C 0 0 []))

/-- What Table 12.3 does not name gets the unsupported response, and nothing else happens. -/
def execUnsupportedRequest (vf : Nat) (s : State) : Result :=
  if 255 < vf ∨ s.boot.stage = 0 then .next s else .next (s.setVf vf { s.vf vf with reply := spdmError 7 })

/-- An integrity failure on a VF's IDE stream is an access violation (R291). -/
def State.ideFail (s : State) (vf : Nat) : State :=
  if vf = 0 ∨ 255 < vf ∨ s.boot.stage = 0 then s else s.violation ((s.vfWorld vf).getD 0)

/-- Firmware collects an erasure record through the physical function, whatever its worlds (R282, R283). -/
def State.collect (s : State) (seq : Nat) : State :=
  match s.records.find? fun r => r.seq == seq with
  | none => s
  | some r => if s.boot.stage = 0 then s else s.setVf 0 { s.vf 0 with reply := r.bytes }

/-! ### TDISP and IDE (R279) -/

/-- LOCK_INTERFACE from the TSM, in a session. In another TDI state, or outside a session, it changes nothing (assumption 130). -/
def execLockInterface (vf : Nat) (s : State) : Result :=
  let v := s.vf vf
  if 0 < vf ∧ vf < 256 ∧ v.spdm = .session ∧ v.tdi = .unlocked then .next (s.setVf vf { v with tdi := .locked }) else .next s

/-- START_INTERFACE from the TSM, in a session; likewise (assumption 130). -/
def execStartInterface (vf : Nat) (s : State) : Result :=
  let v := s.vf vf
  if 0 < vf ∧ vf < 256 ∧ v.spdm = .session ∧ v.tdi = .locked then .next (s.setVf vf { v with tdi := .run }) else .next s

/-- IDE_KM gives the VF's selective stream its next key, in a session; outside one it changes nothing (assumption 130). -/
def execIdeKmKeyRefresh (vf : Nat) (s : State) : Result :=
  let v := s.vf vf
  if 0 < vf ∧ vf < 256 ∧ v.spdm = .session then .next (s.setVf vf { v with ide := v.ide + 1 }) else .next s

/-! ### Enrolment and lockdown (R290, R291) -/

/-- The enrolment record is written anew: both signed copies, one after the other (R26, R291). -/
def State.enrolAs (s : State) (r : Option (BitVec 128 × Nat × Nat × Nat)) : State :=
  let n := Nat.max s.sec.copyA.seq s.sec.copyB.seq
  { s with sec := { s.sec with enrolled := r, copyA := { seq := n + 1 }, copyB := { seq := n + 2 } } }

/-- An enrolment command through the physical function; the reply is its status, 0 where it is accepted and 1 where not (assumption 129). -/
def execEnrolment (addr : BitVec 128) (port vlim vwin : Nat) (s : State) : Result :=
  let pf := s.vf 0
  if s.boot.stage = 0 then .next s
  else if pf.spdm = .session ∧ s.sec.enrolled = none ∧ 1 ≤ port ∧ port < 65536 ∧ vlim < 65536 ∧ 1 ≤ vwin ∧ vwin ≤ 86400 then
    .next ((s.enrolAs (some (addr, port, vlim, vwin))).setVf 0 { pf with reply := word8 0 })
  else .next (s.setVf 0 { pf with reply := word8 1 })

/-- A withdraw command, refused while any array is LEASED, EVICTING or ERASED; its status likewise (assumption 129). -/
def execEnrolmentWithdraw (s : State) : Result :=
  let pf := s.vf 0
  if s.boot.stage = 0 then .next s
  else if pf.spdm = .session ∧ s.sec.enrolled.isSome = true ∧ (s.leases.any fun p => p.2.st == .leased || p.2.st == .evicting || p.2.st == .erased) = false then
    .next ((s.enrolAs none).setVf 0 { pf with reply := word8 0 })
  else .next (s.setVf 0 { pf with reply := word8 1 })

/-- The hottest sensor and its die (Table 12.10). -/
def State.hottest (s : State) : Nat :=
  let d := [1, 2, 3].foldl (fun d e => if Tab.get 0 s.power.sensor d < Tab.get 0 s.power.sensor e then e else d) 0
  d * 2 ^ 56 + Tab.get 0 s.power.sensor d % 2 ^ 56

/-- The alarm record (Table 12.10). -/
def State.alarmRecord (s : State) (seq : Nat) : List Byte :=
  let h := leBytes 4 1 ++ leBytes 4 s.sec.lockdown ++ word8 Config.serial.toNat ++ word8 seq ++ word8 s.now ++ word8 s.sec.detail ++ word8 s.hottest ++
    fitBytes 32 Config.fwDigest ++ List.replicate 48 0
  h ++ fitBytes 384 (Config.sign h)

/-- In lockdown the signed alarm record is sent to the owner, and again every second under its one RECSEQ; without an enrolment
it is kept and nothing is sent. -/
def execAlarmRepeat (s : State) : Result :=
  if s.sec.lockdown = 0 then .next s
  else
    let s := if s.sec.alarmed then s else { s with recseq := s.recseq + 1, sec := { s.sec with alarmed := true, alarm := s.alarmRecord (s.recseq + 1) } }
    if s.sec.enrolled.isSome then .next { s with sec := { s.sec with sent := s.sec.sent + 1 } } else .next s

end Sys2Proof.Machine
end

