-- ==== Sys2Proof/Machine/Boot.lean ====
section
/-! DEFINITION. Start, power and temperature (01 R21 to R29). Temperatures are in 1/8 °C. -/

namespace Sys2Proof.Machine

open Sys2Proof

/-! ### Loss of power (R23, R24) -/

/-- An AWRITE that power cuts off leaves its target rows unverified. -/
def State.cutAwrite (s : State) (c : Cmd) : State :=
  match c.kind with
  | .awrite _ an first nd side => let l := s.lease an; s.setLease an { l with unverified := (l.unverified ++ awriteRows first nd side).eraseDups }
  | _ => s

/-- Every AWRITE a bay had accepted, of streams on cores, of saved ones, and of iterations that have ended. -/
def State.cutAwrites (s : State) : State :=
  ((s.allStreams.flatMap fun st => st.awrites) ++ s.bays.flatMap fun p => p.2.left.map fun x => x.2.1).foldl (fun (s : State) c => s.cutAwrite c) s

/-- An erase in progress is noted as restarted: it begins again when its die joins. -/
def Lease.cut (l : Lease) : Lease := if l.st = .evicting ∧ (l.errows ≠ 0 ∨ l.pulses ≠ 0) then { l with restarted := true } else l

/-- The compute dies, the stacked SRAM dies and the stacks lose power: contexts, shadow storage, memory and all work in flight
are gone. Arrays, leases, accounts and the bays' weights stay, and so does the hub, which is back at the safe function of stage A. -/
def State.loseDies (s : State) : State :=
  let s := s.cutAwrites
  { s with
    streams := s.streams.filter fun p => isService p.1
    cores := s.cores.filter fun p => decide (256 ≤ p.1)
    leases := s.leases.map fun p => (p.1, p.2.cut)
    bays := s.bays.map fun p => (p.1, { p.2 with ops := [], visit := none, used := 0, relax := 0, left := [] })
    mem := [], memBad := [], memErr := [], stale := [], fresh := [], queue := [], atCore := [], atGrp := [], atDie := [], rels := []
    pages := [], alloc := [], tlb := [], regions := [], gates := [], launches := [], rotate := [], ranges := [], images := [], spent := [], shadow := []
    syncKeys := [], syncWords := [], sliceKeys := []
    traps := [], services := [], worlds := s.worlds.map fun p => (p.1, { World.reset with wtot := p.2.wtot })
    boot := { s.boot with stage := Nat.min s.boot.stage 1, joined := [], failed := [] }, power := { sensor := s.power.sensor } }

/-- A new power-up (R25): what is not in non-volatile metadata or always-on SRAM is as after reset, and lockdown is over (R290). -/
def State.powerUp (s : State) : State :=
  let t := s.loseDies
  { State.reset with
    tick := t.tick, sched := t.sched, nextId := t.nextId, now := t.now, rows := t.rows, leases := t.leases, bays := t.bays, revocations := t.revocations
    recseq := t.recseq, records := t.records, worlds := t.worlds
    sec := { alarm := t.sec.alarm, enrolled := t.sec.enrolled, copyA := t.sec.copyA, copyB := t.sec.copyB }
    boot := { version := t.boot.version, fuses := t.boot.fuses, copyA := t.boot.copyA, copyB := t.boot.copyB }, power := { sensor := t.power.sensor } }

/-- Power is lost and comes back: the start begins again. -/
def execPowerLoss (s : State) : Result := .next s.powerUp

/-! ### The start (R25 to R29) -/

/-- The anti-rollback counter: the pairs with both fuses blown (R29). -/
def Boot.counter (b : Boot) : Nat := (b.fuses.filter fun p => p.1 && p.2).length

/-- Firmware starts on the service cores, each on its stream 0, at an entry the spec does not give (assumption 20). -/
def State.startFirmware (s : State) : State :=
  (List.range 4).foldl (fun (s : State) k =>
    let line := s.free k % 2 ^ 42 * 32
    let e : EngState := { line := line }
    s.setStream (512 + 2 * k) { Stream.reset with run := .running, lcid := 256 + k, progAt := s.now, blocks := [(0, line)], eng := engines.map fun x => (x.code, e) }) s

/-- Stage A: the boot ROM verifies an image of a security version. One that fails is an integrity failure (R290), one below the
counter is refused. -/
def execBootStageA (version : Nat) (ok : Bool) (s : State) : Result :=
  if s.boot.stage ≠ 0 ∨ s.boot.tripped = true then .next s
  else if !ok then .next (s.lockdown 1)
  else if version < s.boot.counter then .next s
  else .next { s with boot := { s.boot with stage := 1, version := version, incDone := false } }.startFirmware

/-- Firmware raises the anti-rollback counter once: a value fuse, then its commit fuse, which a loss of power can cut off. -/
def execRollbackIncrement (cut : Bool) (s : State) : Result :=
  let b := s.boot
  if b.stage = 0 ∨ b.incDone = true ∨ b.version ≤ b.counter ∨ 128 ≤ b.fuses.length then .next s
  else
    let s := { s with boot := { b with fuses := b.fuses ++ [(true, !cut)], incDone := true } }
    if cut then .next s.powerUp else .next s

/-- A lease after power-up: dormant, unless it is marked for erasure (R28). -/
def Lease.wakeUp (l : Lease) : Lease := if l.st = .leased ∧ l.eop = false then { l with dormant := true } else l

/-- Of two signed copies, the one with the higher sequence number among those that verify (R26). -/
def MetaCopy.choose (a b : MetaCopy) : Option MetaCopy :=
  if a.good && (!b.good || decide (b.seq ≤ a.seq)) then some a else if b.good then some b else none

/-- What the alarm's DETAIL names where the lease metadata does not verify, beside a WID of a measurement log and 0 of firmware: above every WID
(R26; assumption 96). -/
def metadataUnit : Nat := 4096

/-- Stage B: the stacks, and the lease table with its accounts, by the copy that is chosen; the journal's entries since are in the
accounts (R247). Where neither copy verifies the package stays in the safe function, an integrity failure. The enrolment record is read
alike (R291): without a copy that verifies none is in force (assumption 78). -/
def execBootStageB (s : State) : Result :=
  if s.boot.stage ≠ 1 ∨ s.boot.safe = true ∨ s.boot.tripped = true then .next s
  else
    let sec := if (s.sec.copyA.choose s.sec.copyB).isSome then s.sec else { s.sec with enrolled := none }
    match s.boot.copyA.choose s.boot.copyB with
    | none => .next ({ s with sec := sec, boot := { s.boot with safe := true } }.lockdown 1 metadataUnit)
    | some c => .next { s with sec := sec, boot := { s.boot with stage := 2, metaSeq := c.seq }, leases := s.leases.map fun p => (p.1, p.2.wakeUp) }

/-- What joining does to an array of the die: an erase begins again at row 0, and a lease marked for it is revoked with party 0 and
maintenance weight 1. -/
def State.joinArray (s : State) (an batch : Nat) : State :=
  let l := s.lease an
  if l.st = .evicting then s.setLease an { l with errows := 0, pulses := 0, rowFail := false }
  else if l.st = .leased ∧ l.eop = true then (s.revoke an 0 batch true).setMaint an 1
  else s

/-- Stage C: a compute die that passes its self-test joins; one that fails does not (R27). -/
def execDieJoin (die : Nat) (ok : Bool) (s : State) : Result :=
  if s.boot.stage ≠ 2 ∨ s.boot.tripped = true ∨ 4 ≤ die ∨ s.boot.joined.contains die = true ∨ s.boot.failed.contains die = true then .next s
  else if !ok then .next { s with boot := { s.boot with failed := s.boot.failed ++ [die] } }
  else
    let ans := (s.leases.map (·.1)).filter fun an => arrayDie an == die
    let t := ans.foldl (fun (t : State) an => t.joinArray an s.revocations) s
    .next ({ t with revocations := t.revocations + 1, boot := { t.boot with joined := t.boot.joined ++ [die] } }.committed)

/-! ### Governor, limiter, throttle, trip (R21 to R23): they change only when lanes issue -/

/-- The service core the governor runs on: service core 1 (R21). -/
def governorCore : Nat := 257

/-- A tick of the governor's timer: its request waits at service core 1 (R21, R225), and the governor sets a die's issue-rate limit for a
class: array, plane, vector or special function, in 1/16. -/
def execGovernorTick (die cls limit : Nat) (s : State) : Result :=
  if s.boot.stage ≠ 0 ∧ die < 4 ∧ cls < 4 ∧ limit ≤ 16 then
    let c := s.core governorCore
    .next { s.setCore governorCore { c with requests := c.requests ++ [.tick] } with power := { s.power with limits := Tab.set s.power.limits (8 * die + cls) limit } }
  else .next s

/-- Adds a die to a list, or takes it out. -/
def withDie (l : List Nat) (die : Nat) (on : Bool) : List Nat := if on then (l ++ [die]).eraseDups else l.filter fun d => d != die

/-- The fast limiter holds a die while its current is above the limit. -/
def execFastLimit (die : Nat) (above : Bool) (s : State) : Result :=
  if die < 4 then .next { s with power := { s.power with limited := withDie s.power.limited die above } } else .next s

def State.sense (s : State) (die temp : Nat) : State := { s with power := { s.power with sensor := Tab.set s.power.sensor die temp } }

/-- A reading below 105 °C and not below 100 °C changes nothing but what is read. -/
def State.senseBetween (s : State) (die temp : Nat) : State := if die < 4 ∧ 800 ≤ temp ∧ temp < 840 then s.sense die temp else s

/-- 105 °C: the issue rate of every engine of the die is halved. -/
def execThermalThrottle (die temp : Nat) (s : State) : Result :=
  if die < 4 ∧ 840 ≤ temp ∧ temp < 920 then .next ({ s with power := { s.power with throttled := withDie s.power.throttled die true } }.sense die temp) else .next s

/-- Below 100 °C the throttle ends. -/
def execThrottleRelease (die temp : Nat) (s : State) : Result :=
  if die < 4 ∧ temp < 800 then .next ({ s with power := { s.power with throttled := withDie s.power.throttled die false } }.sense die temp) else .next s

/-- 115 °C: the trip. After it a reading is only recorded. -/
def execThermalTrip (die temp : Nat) (s : State) : Result :=
  if die < 4 ∧ 920 ≤ temp ∧ s.boot.tripped = false then
    let t := ((s.sense die temp).loseDies).lockdown 3 die
    .next { t with boot := { t.boot with tripped := true } }
  else if die < 4 ∧ 920 ≤ temp then .next (s.sense die temp)
  else .next s

/-- A host command to restart after a trip, accepted only below 95 °C at all sensors. -/
def execHostRestart (s : State) : Result :=
  if s.boot.tripped = true ∧ (s.power.sensor.all fun p => decide (p.2 < 760)) = true then .next s.powerUp else .next s

end Sys2Proof.Machine
end

