-- ==== Sys2Proof/Machine/Special.lean ====
section
/-! DEFINITION. The special functions of F (05 R133): each is enclosed between two dyadic bounds; where both round to the same
pattern that pattern is the correctly rounded value. A result whose bounds round apart would be free; no operand comes near enough to a
rounding boundary for that (notes/assumptions/12.md). -/

namespace Sys2Proof.Machine

open Sys2Proof

/-! ### Dyadic intervals -/

/-- Bounds of a nonnegative value at unit 2^−320. -/
structure Itv where
  lo : Nat
  hi : Nat
  deriving DecidableEq, Repr

def unitExp : Nat := 320
def one' : Nat := 2 ^ unitExp

def Itv.ofNat (n : Nat) : Itv := ⟨n * one', n * one'⟩
def Itv.add (a b : Itv) : Itv := ⟨a.lo + b.lo, a.hi + b.hi⟩
/-- a − b where b is at most a. -/
def Itv.sub (a b : Itv) : Itv := ⟨a.lo - b.hi, a.hi - b.lo⟩
def Itv.mul (a b : Itv) : Itv := ⟨a.lo * b.lo / one', a.hi * b.hi / one' + 1⟩
def Itv.divNat (a : Itv) (n : Nat) : Itv := ⟨a.lo / n, a.hi / n + 1⟩
def Itv.div (a b : Itv) : Itv := ⟨a.lo * one' / b.hi, if b.lo = 0 then a.hi * one' + 1 else a.hi * one' / b.lo + 1⟩
def Itv.double (a : Itv) : Itv := ⟨2 * a.lo, 2 * a.hi⟩


/-- A dyadic magnitude m · 2^e between its bounds. -/
def itvOf (m : Nat) (e : Int) : Itv :=
  let k := e + unitExp
  if 0 ≤ k then ⟨m * 2 ^ k.toNat, m * 2 ^ k.toNat⟩ else ⟨m / 2 ^ (-k).toNat, m / 2 ^ (-k).toNat + 1⟩

/-- The sum of t · (y/k)(y/(k+1))… : n further terms of the exponential series after the term t with index k. -/
def expTerms (y : Itv) : Nat → Nat → Itv → Itv
  | 0, _, t => ⟨0, 2 * t.hi + 1⟩
  | n + 1, k, t => let u := (t.mul y).divNat k; t.add (expTerms y n (k + 1) u)

def sqTimes : Nat → Itv → Itv
  | 0, a => a
  | n + 1, a => sqTimes n (a.mul a)

/-- e^y for 0 ≤ y < 128: the series at y/256, squared eight times. -/
def expItv (y : Itv) : Itv := sqTimes 8 (expTerms (y.divNat 256) 64 1 (Itv.ofNat 1))

/-- z + z³/3 + z⁵/5 + … for 0 ≤ z ≤ 1/3. -/
def atanhTerms (z2 : Itv) : Nat → Nat → Itv → Itv
  | 0, _, t => ⟨0, 2 * t.hi + 1⟩
  | n + 1, k, t => (t.divNat k).add (atanhTerms z2 n (k + 2) (t.mul z2))

/-- ln m for 1 ≤ m ≤ 2, as 2·atanh((m − 1)/(m + 1)). -/
def lnItv (m : Itv) : Itv :=
  let z := (m.sub (Itv.ofNat 1)).div (m.add (Itv.ofNat 1))
  (atanhTerms (z.mul z) 110 1 z).double

def ln2Itv : Itv := lnItv (Itv.ofNat 2)

/-- x + 2x³/3 + 4x⁵/(3·5) + … , the series of erf without its factor. -/
def erfTerms (x2 : Itv) : Nat → Nat → Itv → Itv
  | 0, _, t => ⟨0, 2 * t.hi + 1⟩
  | n + 1, k, t => t.add (erfTerms x2 n (k + 2) (((t.mul x2).double).divNat k))

/-- The integer square root by bisection, n bits. -/
def isqrt : Nat → Nat → Nat → Nat
  | 0, _, r => r
  | n + 1, x, r => let s := r + 2 ^ n; isqrt n x (if s * s ≤ x then s else r)

/-- Square root of an interval. -/
def sqrtItv (a : Itv) : Itv := ⟨isqrt 400 (a.lo * one') 0, isqrt 400 (a.hi * one') 0 + 1⟩

/-- atan(1/n) = 1/n − 1/(3n³) + … , its positive and negative terms apart. -/
def atanInv (n : Nat) : Nat → Nat → Itv → Itv × Itv → Itv × Itv
  | 0, _, t, (p, q) => (⟨p.lo, p.hi + t.hi + 1⟩, ⟨q.lo, q.hi + t.hi + 1⟩)
  | f + 1, k, t, (p, q) =>
    let u := t.divNat k
    let t' := t.divNat (n * n)
    if k % 4 = 1 then atanInv n f (k + 2) t' (p.add u, q) else atanInv n f (k + 2) t' (p, q.add u)

/-- π by Machin's formula. -/
def piItv : Itv :=
  let a := atanInv 5 80 1 ((Itv.ofNat 1).divNat 5) (⟨0, 0⟩, ⟨0, 0⟩)
  let b := atanInv 239 40 1 ((Itv.ofNat 1).divNat 239) (⟨0, 0⟩, ⟨0, 0⟩)
  let a' := a.1.sub a.2
  let b' := b.1.sub b.2
  ⟨16 * a'.lo - 4 * b'.hi, 16 * a'.hi - 4 * b'.lo⟩

/-! ### The functions on finite nonzero operands -/

/-- The functions of F. -/
inductive FFun | exp2 | log2 | rcp | rsq | tanh | sigm | erf
  deriving DecidableEq, Repr

/-- A signed enclosure: the sign, and the bounds of the magnitude as mantissas at an exponent. -/
structure Enclosure where
  neg : Bool
  lo : Nat
  hi : Nat
  exp : Int
  deriving DecidableEq, Repr

def Itv.enclose (neg : Bool) (a : Itv) (e : Int := 0) : Enclosure := ⟨neg, a.lo, a.hi, e - unitExp⟩

/-- 1 − 2^−90 to 1: where a function has come this close to 1. -/
def nearOne : Itv := ⟨one' - 2 ^ (unitExp - 90), one'⟩

/-- 2^x for x = ±m·2^e. -/
def exp2Enc (neg : Bool) (m : Nat) (e : Int) : Enclosure :=
  let scaled : Int := if 0 ≤ e + 160 then (m * 2 ^ (e + 160).toNat : Nat) else 0
  if 160 ≤ (Nat.log2 m : Int) + e then ⟨false, 1, 1, if neg then -1000 else 1000⟩
  else
    let x := if neg then -scaled else scaled
    let n := x.fdiv (2 ^ 160)
    let f := (x.fmod (2 ^ 160)).toNat
    if 4000 < n ∨ n < -4000 then ⟨false, 1, 1, if neg then -1000 else 1000⟩
    else if f = 0 then ⟨false, 1, 1, n⟩
    else (expItv ((itvOf f (-160)).mul ln2Itv)).enclose false n

/-- log₂ of m·2^e. -/
def log2Enc (m : Nat) (e : Int) : Enclosure :=
  let k := Nat.log2 m
  let n : Int := k + e
  if m = 2 ^ k then ⟨decide (n < 0), n.natAbs, n.natAbs, 0⟩
  else
    let f := (lnItv (itvOf m (-k))).div ln2Itv
    if 0 ≤ n then ((Itv.ofNat n.toNat).add f).enclose false
    else ((Itv.ofNat n.natAbs).sub f).enclose true

/-- 1/(m·2^e): 64 bits beyond the operand's, and a sticky bit below them. -/
def rcpEnc (neg : Bool) (m : Nat) (e : Int) : Enclosure :=
  let k := Nat.log2 m + 64
  let q := 2 * (2 ^ k / m) + (if 2 ^ k % m = 0 then 0 else 1)
  ⟨neg, q, q, -(k : Int) - e - 1⟩

/-- 1/√(m·2^e), with a sticky bit. -/
def rsqEnc (m : Nat) (e : Int) : Enclosure :=
  let m' := if e % 2 = 0 then m else 2 * m
  let e' := if e % 2 = 0 then e else e - 1
  let k := Nat.log2 m' + 64
  let r := isqrt (k + 1) (2 ^ (2 * k) / m') 0
  let q := 2 * r + (if r * r * m' = 2 ^ (2 * k) then 0 else 1)
  ⟨false, q, q, -(k : Int) - e' / 2 - 1⟩

/-- The magnitude is at least a power of two. -/
def atLeast (m : Nat) (e : Int) (k : Int) : Bool := decide (k ≤ (Nat.log2 m : Int) + e)

/-- tanh: (e^2x − 1)/(e^2x + 1). -/
def tanhEnc (neg : Bool) (m : Nat) (e : Int) : Enclosure :=
  if atLeast m e 5 then nearOne.enclose neg
  else
    let y := expItv (itvOf m (e + 1))
    ((y.sub (Itv.ofNat 1)).div (y.add (Itv.ofNat 1))).enclose neg

/-- 1/(1 + e^−x). -/
def sigmEnc (neg : Bool) (m : Nat) (e : Int) : Enclosure :=
  if neg then
    if atLeast m e 7 then ⟨false, 0, 2 ^ (unitExp - 180), -unitExp⟩
    else ((Itv.ofNat 1).div ((Itv.ofNat 1).add (expItv (itvOf m e)))).enclose false
  else
    if atLeast m e 6 then nearOne.enclose false
    else let y := expItv (itvOf m e); (y.div (y.add (Itv.ofNat 1))).enclose false

/-- erf x: the series times 2·e^(−x²)/√π. -/
def erfEnc (neg : Bool) (m : Nat) (e : Int) : Enclosure :=
  if atLeast m e 3 then nearOne.enclose neg
  else
    let x := itvOf m e
    let x2 := x.mul x
    (((erfTerms x2 400 3 x).double).div ((expItv x2).mul (sqrtItv piItv))).enclose neg

/-! ### Rounding and special operands (Table 5.8) -/

/-- The result of a function on a finite nonzero operand, if its enclosure decides the rounding. One that overflows keeps its sign: FRCP of a
tiny negative operand is −inf (assumption 93). -/
def ffinite (f : FFun) (t : Ty) (neg : Bool) (m : Nat) (e : Int) : Option Nat :=
  let enc : Option Enclosure := match f with
    | .exp2 => some (exp2Enc neg m e)
    | .log2 => if neg then none else some (log2Enc m e)
    | .rcp => some (rcpEnc neg m e)
    | .rsq => if neg then none else some (rsqEnc m e)
    | .tanh => some (tanhEnc neg m e)
    | .sigm => some (sigmEnc neg m e)
    | .erf => some (erfEnc neg m e)
  match enc with
  | none => some (cnan t)
  | some c =>
    let a := encodeFloat t .rne false (.fin c.neg c.lo c.exp)
    let b := encodeFloat t .rne false (.fin c.neg c.hi c.exp)
    if a = b then some a else none

def oneBits (t : Ty) : Nat := bias t * 2 ^ fracBits t
def halfBits (t : Ty) : Nat := (bias t - 1) * 2 ^ fracBits t
def signBit (t : Ty) : Nat := 2 ^ (expBits t + fracBits t)

/-- An infinity or a zero as operand (Table 5.8). -/
def fspecial (f : FFun) (t : Ty) (isInf neg : Bool) : Nat :=
  match f with
  | .exp2 => if isInf then (if neg then 0 else infBits t false) else oneBits t
  | .log2 => if isInf then (if neg then cnan t else infBits t false) else infBits t true
  | .rcp => if isInf then (if neg then signBit t else 0) else infBits t neg
  | .rsq => if isInf then (if neg then cnan t else 0) else infBits t neg
  | .tanh => if isInf then oneBits t + (if neg then signBit t else 0) else (if neg then signBit t else 0)
  | .sigm => if isInf then (if neg then 0 else oneBits t) else halfBits t
  | .erf => if isInf then oneBits t + (if neg then signBit t else 0) else (if neg then signBit t else 0)

/-- One element (R133): the index k of the element tells free values apart. -/
def ffun (f : FFun) (t : Ty) (tick k b : Nat) : Nat :=
  match decodeFloat t b with
  | .nan => cnan t
  | .inf neg => fspecial f t true neg
  | .fin neg m e =>
    if m = 0 then fspecial f t false neg
    else (ffinite f t neg m e).getD (Config.special tick k % 2 ^ tyBits t)

/-- A whole row. -/
def frow (f : FFun) (t : Ty) (tick : Nat) (r : Row) : Row :=
  let es := rowElems (tyBytes t) r
  rowOf (tyBytes t) ((List.range es.length).map fun k => ffun f t tick k (es.getD k 0))

end Sys2Proof.Machine
end

