-- ==== Sys2Proof/Machine/FEngine.lean ====
section
/-! DEFINITION. The instructions of F (03 R75; 05 R133; 13 R330): one special function over a row, written when it issues and
visible to F itself 6 slots later. -/

namespace Sys2Proof.Machine

open Sys2Proof

/-- An F instruction. -/
def State.fOp (s : State) (f : FFun) (d a : VReg) (t : Ty) : State :=
  s.fWrite s.cur.sid d.val (tyBytes t) (frow f t s.tick (s.me.fRead a.val))

def execFexp2 (d a : VReg) (t : Ty) (s : State) : Result := .next (s.fOp .exp2 d a t)
def execFlog2 (d a : VReg) (t : Ty) (s : State) : Result := .next (s.fOp .log2 d a t)
def execFrcp (d a : VReg) (t : Ty) (s : State) : Result := .next (s.fOp .rcp d a t)
def execFrsq (d a : VReg) (t : Ty) (s : State) : Result := .next (s.fOp .rsq d a t)
def execFtanh (d a : VReg) (t : Ty) (s : State) : Result := .next (s.fOp .tanh d a t)
def execFsigm (d a : VReg) (t : Ty) (s : State) : Result := .next (s.fOp .sigm d a t)
def execFerf (d a : VReg) (t : Ty) (s : State) : Result := .next (s.fOp .erf d a t)

end Sys2Proof.Machine
end

