-- ==== Sys2Proof/Machine/Scalar.lean ====
section
/-! DEFINITION. The common instructions and S's integer operations (03 R62 to R71; 13 R293 to R321; 14 R326 to R357; 15 R358
to R388; 16 R419, R420). -/

namespace Sys2Proof.Machine

open Sys2Proof

/-! ### Common instructions -/

/-- NOP (R359): one issue slot and its tokens. -/
def execNop (_e : Engine) (s : State) : Result := .next s

/-- LOOP (R66 to R68, R342): the count register is an s-register on S, an e-register elsewhere. -/
def execLoop (e : Engine) (lvl : Fin 4) (cnt : Fin 32) (body : Fin 1024) (stages : Fin 9) (rot tok : Bool) (s : State) : Result :=
  let c := if e = .s then s.getS cnt else s.getE e (Fin.ofNat 8 cnt.val)
  if (rot && e != .v) || (tok && e == .s) then .next s.illop
  else .next (s.openLoop lvl.val c.toNat body.val stages.val rot tok)

/-- REP (R70, R371): the field holds n − 1. -/
def execRep (_e : Engine) (n : Fin 64) (dA dB dC : BitVec 3) (s : State) : Result :=
  .next (s.openRep (n.val + 1) dA.toInt dB.toInt dC.toInt)

/-- The engine retires the end tag: it issues no further lane, repetition or loop token of the iteration (R77, R361). -/
def State.endTag (s : State) : State :=
  let es := s.myEng
  let s := s.setMyEng { es with ended := true, rep := none, loops := [], loopTop := false, hold := .none }
  let k := s.core (coreOf s.cur.sid)
  let other := (s.stream (s.cur.sid ^^^ 1)).run == Run.running
  let last := engines.all fun e => (s.me.eng' e).ended
  let s := if last && other && !isService s.cur.sid then s.setCore (coreOf s.cur.sid) { k with switch := true } else s
  { s with cur := { s.cur with ts := engineOf (bits s.cur.base 20 3) } }

/-- NOTIFY (R77, R78, R360, R361): M and C retire it behind their earlier commands. -/
def execNotify (e : Engine) (tag : BitVec 17) (s : State) : Result :=
  if tag.toNat = 0x1FFFF then
    if (e == .m || e == .c) && s.me.busy e then .next s.held else .next s.endTag
  else if (e == .m || e == .c) && s.me.busy e then
    let c : Cmd := { id := s.nextId, eng := e, kind := .note tag.toNat, ts := s.cur.ts, line := s.cur.line, lane := s.cur.lane, base := s.cur.base, x := s.cur.x, blk := s.myEng.blk, visit := s.myEng.visit, done := true }
    .next ({ s.setMe { s.me with cmds := s.me.cmds ++ [c] } with nextId := s.nextId + 1 }).deferred
  else .next (s.notifyWorld (s.widOf s.cur.sid) s.cur.sid e.code tag.toNat s.me.ident.iter)

/-- QPUSH (R65, R190, R367): the value goes with the S stores before it. -/
def execQpush (e : Engine) (a : SReg) (s : State) : Result :=
  let q := Tab.get [] s.me.scalars e.code
  if q.length < Config.scalarDepth then
    .next (s.setMe { s.me with scalars := Tab.set s.me.scalars e.code (q ++ [{ val := s.getS a, mark := s.nextId }]) })
  else .next ((s.setMyEng { s.myEng with hold := .scalar }).held)

/-- EPOP (R65, R190, R328). -/
def execEpop (e : Engine) (d : EReg) (s : State) : Result :=
  match Tab.get [] s.me.scalars e.code with
  | [] => .next ((s.setMyEng { s.myEng with hold := .scalar }).held)
  | v :: q =>
    let st := { s.me with scalars := Tab.set s.me.scalars e.code q, marks := Tab.set s.me.marks e.code v.mark }
    .next ((s.setMe st).setE e d v.val)

/-- TOKS (R62, R393): the chosen token enters first, then the lane's TS. -/
def execToks (e : Engine) (v : Bool) (s : State) : Result :=
  match s.me.push .s e v with
  | some st => .next (s.setMe st)
  | none => .next ((s.setMyEng { s.myEng with hold := .push e }).held)

/-! ### Arithmetic -/

def execAdd (d a b : SReg) (s : State) : Result := .next (s.setS d (s.getS a + s.getS b))
def execSub (d a b : SReg) (s : State) : Result := .next (s.setS d (s.getS a - s.getS b))
def execMul (d a b : SReg) (s : State) : Result := .next (s.setS d (s.getS a * s.getS b))

/-- Bits [127:64] of the signed product (R357). -/
def mulHigh (a b : Word) : Word := BitVec.ofInt 64 (a.toInt * b.toInt / 2 ^ 64)

/-- Bits [127:64] of the unsigned product (R357). -/
def mulHighU (a b : Word) : Word := BitVec.ofNat 64 (a.toNat * b.toNat / 2 ^ 64)

def execMulh (d a b : SReg) (s : State) : Result := .next (s.setS d (mulHigh (s.getS a) (s.getS b)))
def execMulhn (d a b : SReg) (s : State) : Result := .next (s.setS d (mulHighU (s.getS a) (s.getS b)))

/-- The signed quotient, toward zero (Table 14.1). -/
def divS (a b : Word) : Word := if b = 0 then BitVec.allOnes 64 else BitVec.ofInt 64 (a.toInt.tdiv b.toInt)

/-- The unsigned quotient (Table 14.1). -/
def divU (a b : Word) : Word := if b = 0 then BitVec.allOnes 64 else BitVec.ofNat 64 (a.toNat / b.toNat)

def execDiv (d a b : SReg) (s : State) : Result := .next (s.setS d (divS (s.getS a) (s.getS b)))
def execDivn (d a b : SReg) (s : State) : Result := .next (s.setS d (divU (s.getS a) (s.getS b)))

/-- The remainders that go with the quotients (R370). -/
def remS (a b : Word) : Word := a - divS a b * b
def remU (a b : Word) : Word := a - divU a b * b

def execRem (d a b : SReg) (s : State) : Result := .next (s.setS d (remS (s.getS a) (s.getS b)))
def execRemn (d a b : SReg) (s : State) : Result := .next (s.setS d (remU (s.getS a) (s.getS b)))

def execAnd (d a b : SReg) (s : State) : Result := .next (s.setS d (s.getS a &&& s.getS b))
def execOr (d a b : SReg) (s : State) : Result := .next (s.setS d (s.getS a ||| s.getS b))
def execXor (d a b : SReg) (s : State) : Result := .next (s.setS d (s.getS a ^^^ s.getS b))

/-- Shifts by a count of any size (R378, R380). -/
def shiftL (a : Word) (c : Nat) : Word := if c < 64 then a <<< c else 0
def shiftR (a : Word) (c : Nat) : Word := if c < 64 then a >>> c else 0
def shiftA (a : Word) (c : Nat) : Word := a.sshiftRight (Nat.min c 63)

def execShl (d a b : SReg) (s : State) : Result := .next (s.setS d (shiftL (s.getS a) (s.getS b).toNat))
def execShr (d a b : SReg) (s : State) : Result := .next (s.setS d (shiftR (s.getS a) (s.getS b).toNat))
def execSra (d a b : SReg) (s : State) : Result := .next (s.setS d (shiftA (s.getS a) (s.getS b).toNat))

/-- The smaller and the larger operand, by either order (R346). -/
def minS (a b : Word) : Word := if b.slt a then b else a
def minU (a b : Word) : Word := if b.ult a then b else a
def maxS (a b : Word) : Word := if a.slt b then b else a
def maxU (a b : Word) : Word := if a.ult b then b else a

def execMin (d a b : SReg) (s : State) : Result := .next (s.setS d (minS (s.getS a) (s.getS b)))
def execMinn (d a b : SReg) (s : State) : Result := .next (s.setS d (minU (s.getS a) (s.getS b)))
def execMax (d a b : SReg) (s : State) : Result := .next (s.setS d (maxS (s.getS a) (s.getS b)))
def execMaxn (d a b : SReg) (s : State) : Result := .next (s.setS d (maxU (s.getS a) (s.getS b)))

/-! ### Predicates and selection -/

def execCmp (p : PReg) (c : Cond) (a b : SReg) (v : CmpMode) (s : State) : Result :=
  .next (s.setP p (cmpInto v (s.getP p) (holds c (s.getS a) (s.getS b))))

def execCmpi (p : PReg) (c : Cond) (a : SReg) (i : BitVec 7) (s : State) : Result := .next (s.setP p (holds c (s.getS a) (sx i)))

def execPlog (d a b : PReg) (t : BitVec 4) (s : State) : Result := .next (s.setP d (plogBit t (s.getP a) (s.getP b)))

def execSel (d a b : SReg) (p : PReg) (s : State) : Result := .next (s.setS d (if s.getP p then s.getS a else s.getS b))

/-! ### Counting bits -/

/-- Zero bits below the lowest one bit, from bit lo on (R319). -/
def ctzFrom (a : Word) : Nat → Nat → Nat
  | 0, lo => lo
  | n + 1, lo => if a.getLsbD lo then lo else ctzFrom a n (lo + 1)

/-- Zero bits above the highest one bit among the lowest n (R319). -/
def clzBelow (a : Word) : Nat → Nat
  | 0 => 0
  | n + 1 => if a.getLsbD n then 0 else 1 + clzBelow a n

/-- One bits among the lowest n (R319). -/
def popBelow (a : Word) : Nat → Nat
  | 0 => 0
  | n + 1 => (a.getLsbD n).toNat + popBelow a n

def execClz (d a : SReg) (s : State) : Result := .next (s.setS d (BitVec.ofNat 64 (clzBelow (s.getS a) 64)))
def execCtz (d a : SReg) (s : State) : Result := .next (s.setS d (BitVec.ofNat 64 (ctzFrom (s.getS a) 64 0)))
def execPopc (d a : SReg) (s : State) : Result := .next (s.setS d (BitVec.ofNat 64 (popBelow (s.getS a) 64)))

/-! ### Immediates -/

def execAddi (d a : SReg) (i : BitVec 7) (s : State) : Result := .next (s.setS d (s.getS a + sx i))
def execAndi (d a : SReg) (i : BitVec 7) (s : State) : Result := .next (s.setS d (s.getS a &&& sx i))
def execOri (d a : SReg) (i : BitVec 7) (s : State) : Result := .next (s.setS d (s.getS a ||| sx i))
def execXori (d a : SReg) (i : BitVec 7) (s : State) : Result := .next (s.setS d (s.getS a ^^^ sx i))
def execShli (d a : SReg) (n : Fin 64) (s : State) : Result := .next (s.setS d (shiftL (s.getS a) n.val))
def execShri (d a : SReg) (n : Fin 64) (s : State) : Result := .next (s.setS d (shiftR (s.getS a) n.val))
def execSrai (d a : SReg) (n : Fin 64) (s : State) : Result := .next (s.setS d (shiftA (s.getS a) n.val))

/-- LIMM (R341): sign-extended. -/
def execLimm (d : SReg) (imm : BitVec 32) (s : State) : Result := .next (s.setS d (sx imm))

/-- LUP (R344): the upper half. -/
def execLup (d : SReg) (imm : BitVec 32) (s : State) : Result :=
  .next (s.setS d (imm.zeroExtend 64 <<< 32 ||| (s.getS d &&& 0xFFFFFFFF)))

/-- The field of len bits at pos (R330). -/
def fieldOf (a : Word) (pos len : Nat) : Nat := bits a.toNat pos len

/-- EXT (R330): the operand holds len − 1. -/
def execExt (d a : SReg) (pos len : Fin 64) (s : State) : Result :=
  .next (s.setS d (BitVec.ofNat 64 (fieldOf (s.getS a) pos.val (len.val + 1))))

/-- EXT.S (R330): sign-extended from the field's highest bit. -/
def execExtS (d a : SReg) (pos len : Fin 64) (s : State) : Result :=
  .next (s.setS d (BitVec.ofInt 64 (signed (len.val + 1) (fieldOf (s.getS a) pos.val (len.val + 1)))))

/-- A field of len bits at pos replaced (R336). -/
def insertField (old a : Word) (pos len : Nat) : Word :=
  BitVec.ofNat 64 (old.toNat - bits old.toNat pos len * 2 ^ pos + bits a.toNat 0 len * 2 ^ pos)

def execIns (d a : SReg) (pos len : Fin 64) (s : State) : Result :=
  .next (s.setS d (insertField (s.getS d) (s.getS a) pos.val (len.val + 1)))

/-! ### Spill memory (R138, R383, R384) -/

def execSpld (d : SReg) (n : Fin 1024) (s : State) : Result := .next (s.setS d (Tab.get 0 s.me.spill n.val))
def execSpst (a : SReg) (n : Fin 1024) (s : State) : Result :=
  .next (s.setMe { s.me with spill := Tab.set s.me.spill n.val (s.getS a) })

end Sys2Proof.Machine
end

