-- ==== Sys2Proof/Machine/Streams.lean ====
section
/-! DEFINITION. What the units of a stream do beside the issue of lanes (03 R57, R58, R63 to R65, R72, R74, R75, R88; 06 R145;
09 R216, R220, R225). -/

namespace Sys2Proof.Machine

open Sys2Proof

/-! ### Fetch -/

/-- The first line from a DVA on, to the end of its block, that the fetch buffer does not hold. -/
def State.missingLine (s : State) (sid : Nat) : Nat → Nat → Option Nat
  | 0, _ => none
  | fuel + 1, dva =>
    match Tab.find (s.stream sid).fetch dva with
    | none => some dva
    | some l => if Line.be (BitVec.ofNat 256 l) then none else s.missingLine sid fuel (dva + 32)

/-- The fetch unit reads ahead of S while its buffer has room (R57). What a fetch would fault at faults when an engine visits it. -/
def execFetchLine (sid : Nat) (s : State) : Result :=
  let st := s.stream sid
  if st.run = Run.running ∧ st.fetch.length < Config.fetchLines then
    match s.missingLine sid Config.fetchLines (st.eng' .s).line with
    | none => .next s
    | some dva =>
      match (if s.fetchWaits sid dva then (s, .error (xlate dva .fetch 32)) else s.fetch sid dva) with
      | (t, .ok _) => .next t
      | (_, .error _) => .next s
  else .next s

/-! ### Engines that are held -/

/-- An engine's hold ends; its next issue slot tries again. -/
def State.unhold (s : State) (sid : Nat) (e : Engine) : State :=
  let st := s.stream sid
  s.setStream sid (st.setEng e { st.eng' e with hold := .none })

/-- A token has come for an engine that waits for one (R63). -/
def execTokenWaitResume (sid : Nat) (e : Engine) (s : State) : Result :=
  match ((s.stream sid).eng' e).hold with
  | .token src => if ((s.stream sid).fifo src e).isEmpty then .next s else .next (s.unhold sid e)
  | _ => .next s

/-- The held pushes enter their FIFOs: of the engine's last lanes, or of a command that is complete (R63); and so do the tokens of FENCEs and loops
of S that are complete (R331, R342). -/
def execTokenPushResume (sid : Nat) (e : Engine) (s : State) : Result :=
  let st := s.stream sid
  if (st.eng' e).push.isEmpty then .next ((s.retireCmds sid e).tryFences sid) else .next (s.setStream sid (st.pushWaiting e))

/-- An EPOP has an entry to take, or a QPUSH room for its value (R65). -/
def execScalarFifoResume (sid : Nat) (e : Engine) (s : State) : Result :=
  let st := s.stream sid
  if (st.eng' e).hold = .scalar then
    let ready := match s.laneOf sid e with
      | some (.qpush x _) => decide ((Tab.get [] st.scalars x.code).length < Config.scalarDepth)
      | _ => !(Tab.get [] st.scalars e.code).isEmpty
    if ready then .next (s.unhold sid e) else .next s
  else .next s

/-- The format queue has room (R127). -/
def execFormatQueueResume (sid : Nat) (s : State) : Result :=
  let st := s.stream sid
  if (st.eng' .s).hold = .format ∧ st.fmtq.length < Config.formatDepth then .next (s.unhold sid .s) else .next s

/-- The engines behind have moved on (R57, R58). -/
def execSlipWindowResume (sid : Nat) (e : Engine) (s : State) : Result :=
  if ((s.stream sid).eng' e).hold = .slip && s.slipOk sid e && s.queuesOpen sid e then .next (s.unhold sid e) else .next s

/-! ### Waits and the sequencer (R72, R74) -/

/-- A stream whose wait does not hold parks once its engines have drained the block (R72). -/
def execStreamPark (sid : Nat) (s : State) : Result :=
  let st := s.stream sid
  if st.run = Run.running ∧ st.wait.isSome = true ∧ st.drained = true then .next (s.setStream sid { st with run := .parked }) else .next s

/-- The sequencer looks at the condition of a parked stream again (R72, R220): when it holds the wait retires at that moment and
the stream is runnable. S first pushes the token it is held at (R63). A fault puts the token that the wait popped back (R211). -/
def execWaitWake (sid : Nat) (s : State) : Result :=
  let st := s.stream sid
  match (if st.run = Run.parked ∧ s.pushClear sid = true then st.wait else none) with
  | none => .next s
  | some w =>
    let s := { s with cur := { sid := sid, eng := .s, line := w.line, lane := w.lane, base := w.base, x := w.x, ts := w.ts } }
    match s.tryWait w.instr w.arrived with
    | (.holds t, _) =>
      let t := t.branch t.nextLine
      let st := t.stream sid
      .next ((t.setStream sid ({ st with wait := none, run := .running }.pushOrWait .s w.ts)).progress sid)
    | (.waits t, e) =>
      let t := if e = w.arrived then t else t.progress sid
      .next (t.setStream sid { t.stream sid with wait := some { w with arrived := e } })
    | (.later t, _) => .next t
    | (.faults t f, e) =>
      let t := t.setStream sid { t.stream sid with wait := some { w with arrived := e } }
      .next (t.returnToken.raise sid .s w.line w.lane (Instr.hasProgress w.instr) f)

/-- The stream has retired the last end tag of its iteration (R74). -/
def Stream.ended (st : Stream) : Bool := engines.all fun e => (st.eng' e).ended

/-- The core's issuing stream, or a service core's one, has drained the block that a YIELD ended, and no move is pending (R237, R421). -/
def State.yields (s : State) (sid : Nat) : Bool :=
  let st := s.stream sid
  st.yielding && st.migrate.isNone && st.run == Run.running && st.drained

/-- The core's other stream takes over the engines (R74): the issuing one cannot go on, has ended, or has drained its block with
a switch due or after a YIELD (R421); a move that is pending at the YIELD goes first (R237). A stream stopped by a bad line first lets its engines come to it (R109). A YIELD that finds no
other runnable stream goes on, and a switch that was due to a stream which is no longer runnable lapses. What the new stream's 4,096
cycles count from is this step (assumption 92). -/
def execStreamSwitch (core : Nat) (s : State) : Result :=
  let k := s.core core
  let a := 2 * core + k.issuing
  let st := s.stream a
  let t := if s.yields a then s.setStream a { st with yielding := false } else s
  if !(s.otherRuns a) then .next (if k.switch then t.setCore core { k with switch := false } else t)
  else if st.finishing then .next s
  else if st.run != Run.running || st.ended || s.yields a || (k.switch && st.drained && !(st.yielding && st.migrate.isSome)) then
    .next (t.setCore core { k with issuing := 1 - k.issuing, switch := false, gained := s.clock })
  else .next s

/-- The other stream has been runnable while this one held the core for 4,096 cycles (R74). -/
def execSwitchQuantumExpiry (core : Nat) (s : State) : Result :=
  let k := s.core core
  if core < 256 ∧ (s.stream (2 * core + (1 - k.issuing))).run = Run.running ∧ k.gained + 4096 ≤ s.clock then .next (s.setCore core { k with switch := true })
  else .next s

/-! ### F results, windows -/

/-- Results whose exposure has elapsed are no longer in flight (R75). -/
def execFExposure (sid : Nat) (s : State) : Result :=
  let st := s.stream sid
  .next (s.setStream sid { st with fres := st.fres.filter fun r => decide (0 < r.left) })

/-- Windows whose engine has read their last source byte retire (R145). -/
def execOperandWindowRetire (core : Nat) (s : State) : Result :=
  let k := s.core core
  .next (s.setCore core { k with windows := k.windows.filter fun w => !(s.windowDone w) })

/-! ### The watchdog (R88) -/

/-- The first lane of an engine from a line on that it visits as number `visit`, in its block or in the ones that S has decided after it. S goes
on after a line with BE that holds no lane of its own. -/
def State.laneFrom (s : State) (sid : Nat) (e : Engine) : Nat → Nat → Nat → Nat → Place
  | 0, blk, visit, dva => { blk := blk, visit := visit, lane := 0, line := dva }
  | fuel + 1, blk, visit, dva =>
    match s.lineAt sid dva with
    | none => { blk := blk, visit := visit, lane := 0, line := dva }
    | some l =>
      let j := nextLane l e 0
      if j < 8 then { blk := blk, visit := visit, lane := j, line := dva }
      else if Line.be l then
        match (Tab.find (s.stream sid).blocks (blk + 1)).or (if e = .s then some (dva + 32) else none) with
        | some d => s.laneFrom sid e fuel (blk + 1) 1 d
        | none => { blk := blk + 1, visit := 0, lane := 0, line := dva }
      else s.laneFrom sid e fuel blk (visit + 1) (dva + 32)

/-- The first lane of an engine among n lines of a loop's body. -/
def State.bodyLane (s : State) (sid : Nat) (e : Engine) (blk visit dva n : Nat) : Option Place :=
  (List.range n).findSome? fun i =>
    match s.lineAt sid (dva + 32 * i) with
    | none => some { blk := blk, visit := visit + i, lane := 0, line := dva + 32 * i }
    | some l => let j := nextLane l e 0; if j < 8 then some { blk := blk, visit := visit + i, lane := j, line := dva + 32 * i } else none

/-- The lane an engine comes to in the block after its own, whose last line is `line`; it stands before that block where S has not decided it. -/
def State.laneBeyond (s : State) (sid : Nat) (e : Engine) (blk line : Nat) : Place :=
  match (Tab.find (s.stream sid).blocks (blk + 1)).or (if e = .s then some (line + 32) else none) with
  | some d => s.laneFrom sid e textFuel (blk + 1) 1 d
  | none => { blk := blk + 1, visit := 0, lane := 0, line := line }

/-- The lane an engine comes to from a line that it visits as number `visit`, through its open loops, with the iterations each has left (R66).
`past` is the line that it has passed before: the block ends there if it has BE and no loop has iterations left. -/
def State.laneIn (s : State) (sid : Nat) (e : Engine) (blk : Nat) : List (LoopFrame × Nat) → Option Nat → Nat → Nat → Place
  | [], past, visit, dva =>
    match past.filter (s.isBe sid) with
    | some line => s.laneBeyond sid e blk line
    | none => s.laneFrom sid e textFuel blk visit dva
  | (f, left) :: fs, _, visit, dva =>
    let rest := (f.last + 32 - dva) / 32
    let n := (f.last + 32 - f.first) / 32
    match (s.bodyLane sid e blk visit dva rest).or (if left = 0 then none else s.bodyLane sid e blk (visit + rest) f.first n) with
    | some p => p
    | none => s.laneIn sid e blk fs (some f.out) (visit + rest + left * n) (f.out + 32)

/-- The lane an engine has not issued yet. One that has passed its block's last line, and every loop, stands before the block after it. -/
def State.nextPlace (s : State) (sid : Nat) (e : Engine) : Place :=
  let es := (s.stream sid).eng' e
  if 0 < es.lane ∧ es.lane < 8 then { blk := es.blk, visit := es.visit, lane := es.lane, line := es.line }
  else if es.atEnd ∨ es.ended then s.laneBeyond sid e es.blk es.line
  else s.laneIn sid e es.blk es.openLoops (if es.lane = 0 then none else some (es.skip.getD es.line)) (es.visit + 1) es.upNext

/-- The lane an engine waits or stands at, or is to issue next; none once it has retired the end tag. -/
def State.ownPlace (s : State) (sid : Nat) (e : Engine) : Option Place :=
  let st := s.stream sid
  let es := st.eng' e
  match (if e = .s then st.wait else none) with
  | some w => some { blk := es.blk, visit := es.visit, lane := w.lane, line := w.line }
  | none => if es.ended then none else some (s.nextPlace sid e)

/-- The commands of an engine in flight whose lanes have not retired. A loop's own LOOP is not counted with them (assumption 120). -/
def Stream.unretiredCmds (st : Stream) (e : Engine) : List Cmd := st.cmds.filter fun c => c.eng == e && c.kind != .loopEnd

/-- An engine's oldest unretired lane, if it has one: in the commands and stores in flight, or its own place. -/
def State.oldest (s : State) (sid : Nat) (e : Engine) : Option Place :=
  let flying := ((s.stream sid).unretiredCmds e).map Cmd.place ++ (if e = .s then (s.unretired sid).map Store.place else [])
  flying.foldl (fun (a : Option Place) p => match a with | some q => if p.before q then some p else a | none => some p) (s.ownPlace sid e)

/-- The engine that is furthest behind: the one whose oldest unretired lane stands earliest in the text (R88). -/
def State.behind (s : State) (sid : Nat) : Engine :=
  ([Engine.s, .v, .m, .c, .f].foldl (fun (a : Engine × Option Place) e => match s.oldest sid e, a.2 with
    | some p, some q => if p.before q then (e, some p) else a
    | some p, none => (e, some p)
    | none, _ => a) (Engine.s, none)).1

/-- A GFLIP or a TRAP that S stands at has no effect where its lane faults (R211): the gate is not in flip any more (R334), and firmware has no
request, and takes back what it has begun (assumption 120). -/
def State.withdraw (s : State) (sid : Nat) : State :=
  let st := s.stream sid
  let mine (c : Cmd) : Bool := c.eng == .s && c.atLane && !c.done && (match c.kind with | .flip _ _ => true | _ => false)
  let open' (g : Gate) : Bool := st.cmds.any fun c => mine c && c.pos == 1 && (match c.kind with | .flip d _ => d == g.dpa | _ => false)
  let s := { s.setStream sid { st with cmds := st.cmds.filter fun c => !mine c } with gates := s.gates.map fun g => if open' g then { g with flipping := false } else g }
  if st.trap = some false then
    let s := s.takeBack sid
    { s.setStream sid { s.stream sid with trap := none } with
      traps := s.traps.filter fun t => t.sid != sid
      cores := s.cores.map fun p => (p.1, { p.2 with requests := p.2.requests.filter fun r => r != .trap sid }) }
  else s

/-- STALL at S's oldest unretired lane (R88), which has not issued then (R211, R213): the wait or the lane that S stands at, a store in flight,
or a FENCE beside S. Once S has retired the end tag and has none, it is lane 0 of S's last line (assumption 121). -/
def State.stall (s : State) (sid : Nat) (f : FaultInfo) : State :=
  match s.oldest sid .s with
  | none => s.faultAt sid .s ((s.stream sid).eng' .s).line 0 f
  | some p =>
    let hits := (s.unretired sid).filter fun x => x.place == p
    if s.ownPlace sid .s == some p then (s.withdraw sid).faultAt sid .s p.line p.lane f
    else
      match hits.foldl (fun (a : Option Store) x => match a with | some y => if x.id < y.id then some x else a | none => some x) none,
          ((s.stream sid).unretiredCmds .s).find? fun c => c.place == p with
      | some x, _ => (s.refuse x).raise sid .s p.line p.lane false f
      | none, some c => s.faultCmd sid c f
      | none, none => s.faultAt sid .s p.line p.lane f

/-- The watchdog of a stream without progress (R88): STALL; DETAIL names the engine that is furthest behind. Its time runs too while the stream
is runnable and the other stream of its core issues (assumption 108). Where it is raised is `State.stall`'s (assumption 121). -/
def execStall (sid : Nat) (s : State) : Result :=
  let st := s.stream sid
  if isService sid || !(st.run == Run.running || st.run == Run.parked) || st.wdog == 0 || decide (s.now < st.progAt + st.wdog.toNat * 1000) then .next s
  else .next (s.stall sid { code := 0x11, detail := BitVec.ofNat 64 (s.behind sid).code })

/-! ### Fault records (R216, R217) -/

def FaultRec.bytes (r : FaultRec) (seq : Nat) : List Byte :=
  leBytes 4 (r.code + 2 ^ 8 * r.eng.code + 2 ^ 11 * r.lane + 2 ^ 16 * r.prog.toNat + 2 ^ 17 * r.retry.toNat) ++ leBytes 2 r.wid ++ leBytes 2 r.sid ++
    word8 r.line ++ word8 r.addr.toNat ++ word8 r.iter ++ word8 r.ctxn ++ word8 r.detail.toNat ++ word8 r.time ++ leBytes 4 seq ++ leBytes 4 r.lcid

/-- The fault of an iteration is in its world's queue under a sequence number. -/
def Stream.numbered (r : FaultRec) (seq : Nat) (st : Stream) : Stream :=
  if st.fault = some r then { st with fault := some { r with seq := some seq } } else st

/-- The oldest waiting record of a world goes into its fault queue, if there is room (R216) and the links there are clear (R16). -/
def execFaultRecordAppend (wid : Nat) (s : State) : Result :=
  match (s.world wid).faults with
  | [] => .next s
  | r :: rs =>
    if !(s.queueClear noCore wid 0 64 && s.entryClear r.sid) then .next s
    else if s.queueFull wid 0 then .next (s.readHeader wid 0)
    else
      let seq := s.queueTail wid 0
      let f := Stream.numbered r (seq % 2 ^ 32)
      let s := (s.setWorld wid { s.world wid with faults := rs }).queueAppend wid 0 (r.bytes (seq % 2 ^ 32))
      .next { s with
        streams := s.streams.map fun p => (p.1, f p.2)
        images := s.images.map fun p => (p.1, { p.2 with stream := f p.2.stream })
        shadow := s.shadow.map fun p => (p.1, { p.2 with images := p.2.images.map fun q => (q.1, q.2.1, { q.2.2 with stream := f q.2.2.stream }) }) }

/-! ### Service cores -/

/-- A pending request enters the handler of a service core at a block end, with ECAUSE 0 (R225). EPC names the lane S is to begin at, which
after an ERET is the one it has returned to (R329). -/
def execHandlerEntry (sid : Nat) (s : State) : Result :=
  let c := s.core (coreOf sid)
  let st := s.stream sid
  match (if isService sid && c.eie && st.run == Run.running && st.sAtStart && st.drained then c.requests else []) with
  | [] => .next s
  | _ :: q => .next ((s.setCore (coreOf sid) { c with requests := q }).enterHandler sid (st.eng' .s).line (st.eng' .s).first 0)

end Sys2Proof.Machine
end

