-- ==== Sys2Proof/Machine/Vector.lean ====
section
/-! DEFINITION. The V engine (03 R69; 05 R128 to R135; 06 R137, R140, R146; 16 R389 to R414). -/

namespace Sys2Proof.Machine

open Sys2Proof

/-! ### Registers, masks and elements -/

/-- The physical register a V field names (R69). -/
def State.phys (s : State) (n : Nat) : Nat := if 16 ≤ n then 16 + (n + 16 - s.me.rot % 16) % 16 else n

def State.vRow (s : State) (n : Nat) (bytes : Nat := tyBytes s.me.vty) : Row := s.readRow s.cur.sid .v (s.phys n) bytes
/-- V writes a register, in elements of some bytes. -/
def State.setVRow (s : State) (n : Nat) (x : Row) (bytes : Nat := tyBytes s.me.vty) : State := s.writeRow s.cur.sid .v (s.phys n) bytes x

/-- The type V computes at. -/
def State.vty (s : State) : Ty := s.me.vty
def State.lanes (s : State) : Nat := lanesOf s.vty

/-- The elements of a V register. -/
def State.vElems (s : State) (n : Nat) : List Nat := rowElems (tyBytes s.vty) (s.vRow n)
def State.setVElems (s : State) (n : Nat) (l : List Nat) : State := s.setVRow n (rowOf (tyBytes s.vty) l)

/-- Selected lanes, in ascending order. -/
def State.selected (s : State) (m : MReg) : List Nat := (List.range s.lanes).filter fun i => (s.getM m).getLsbD i

/-- A mask with the bits of a list, from lane 0 up (R390). -/
def maskOf (l : List Bool) : VMask := BitVec.ofNat 1024 (packElems 1 (l.map Bool.toNat))

/-- New elements where the mask selects, the old ones elsewhere. -/
def mergeMask (m : VMask) (old new : List Nat) : List Nat := (old.zip new).zipIdx.map fun p => if m.getLsbD p.2 then p.1.2 else p.1.1

/-! ### Element-wise instructions (R396, R397) -/

/-- Some elements of a V register are written; the others stay (R76). -/
def State.setVLanes (s : State) (n : Nat) (sel : Nat → Bool) (l : List Nat) : State :=
  s.writeRow s.cur.sid .v (s.phys n) (tyBytes s.vty) (rowOf (tyBytes s.vty) l)
    (rowOf (tyBytes s.vty) ((List.range s.lanes).map fun i => if sel i then 2 ^ tyBits s.vty - 1 else 0))

/-- The elements that a mask selects are written. -/
def State.setVMasked (s : State) (n : Nat) (m : MReg) (l : List Nat) : State := s.setVLanes n (fun i => (s.getM m).getLsbD i) l

/-- Every selected lane takes a function of the two sources and of its own old value. -/
def State.vMap (s : State) (d a b : VReg) (m : MReg) (f : Nat → Nat → Nat → Nat) : State :=
  let old := s.vElems d.val
  let new := (old.zip ((s.vElems a.val).zip (s.vElems b.val))).map fun p => f p.1 p.2.1 p.2.2
  s.setVMasked d.val m new

/-- The shifts, at an integer type only. -/
def State.vShift (s : State) (d a b : VReg) (m : MReg) (f : Nat → Nat → Nat) : Result :=
  if isFloat s.vty then .next s.illop else .next (s.vMap d a b m fun _ x c => f x c)

def execVadd (d a b : VReg) (m : MReg) (s : State) : Result := .next (s.vMap d a b m fun _ x y => addAt s.vty x y)
def execVsub (d a b : VReg) (m : MReg) (s : State) : Result := .next (s.vMap d a b m fun _ x y => subAt s.vty x y)
def execVmul (d a b : VReg) (m : MReg) (s : State) : Result := .next (s.vMap d a b m fun _ x y => mulAt s.vty x y)
def execVfma (d a b : VReg) (m : MReg) (s : State) : Result := .next (s.vMap d a b m fun c x y => fmaAt s.vty x y c)
def execVmin (d a b : VReg) (m : MReg) (s : State) : Result := .next (s.vMap d a b m fun _ x y => minAt s.vty x y)
def execVmax (d a b : VReg) (m : MReg) (s : State) : Result := .next (s.vMap d a b m fun _ x y => maxAt s.vty x y)
def execVand (d a b : VReg) (m : MReg) (s : State) : Result := .next (s.vMap d a b m fun _ x y => x &&& y)
def execVor (d a b : VReg) (m : MReg) (s : State) : Result := .next (s.vMap d a b m fun _ x y => x ||| y)
def execVxor (d a b : VReg) (m : MReg) (s : State) : Result := .next (s.vMap d a b m fun _ x y => x ^^^ y)
def execVshl (d a b : VReg) (m : MReg) (s : State) : Result :=
  s.vShift d a b m fun x c => if tyBits s.vty ≤ c then 0 else x * 2 ^ c % 2 ^ tyBits s.vty
def execVshr (d a b : VReg) (m : MReg) (s : State) : Result :=
  s.vShift d a b m fun x c => toPattern s.vty (if tyBits s.vty ≤ c then (if intOf s.vty x < 0 then -1 else 0) else intOf s.vty x / 2 ^ c)
def execVshrl (d a b : VReg) (m : MReg) (s : State) : Result :=
  s.vShift d a b m fun x c => if tyBits s.vty ≤ c then 0 else x / 2 ^ c

/-! ### Comparison, selection, movement -/

/-- VCMP (R401). -/
def execVcmp (md : MReg) (c : Cond) (a b : VReg) (m : MReg) (s : State) : Result :=
  let r := ((s.vElems a.val).zip (s.vElems b.val)).zipIdx.map fun p => (s.getM m).getLsbD p.2 && condAt s.vty c p.1.1 p.1.2
  .next (s.setM md (maskOf r))

/-- VSEL (R413). -/
def execVsel (d a b : VReg) (m : MReg) (s : State) : Result := .next (s.setVElems d.val (mergeMask (s.getM m) (s.vElems b.val) (s.vElems a.val)))

/-- VPERM (R409). -/
def execVperm (d a b : VReg) (s : State) : Result :=
  let xs := s.vElems a.val
  .next (s.setVElems d.val ((s.vElems b.val).map fun k => xs.getD (k % s.lanes) 0))

/-- VBCAST (R398). -/
def execVbcast (d : VReg) (a : EReg) (s : State) : Result :=
  .next (s.setVElems d.val (List.replicate s.lanes ((s.getE .v a).toNat % 2 ^ tyBits s.vty)))

/-- VEXT (R405). -/
def execVext (d : EReg) (a : VReg) (l : EReg) (s : State) : Result :=
  let x := (s.vElems a.val).getD ((s.getE .v l).toNat % s.lanes) 0
  .next (s.setE .v d (if isFloat s.vty then BitVec.ofNat 64 x else BitVec.ofInt 64 (intOf s.vty x)))

/-- VINS (R407). -/
def execVins (d : VReg) (a l : EReg) (s : State) : Result :=
  .next (s.setVLanes d.val (fun i => i == (s.getE .v l).toNat % s.lanes) (List.replicate s.lanes ((s.getE .v a).toNat % 2 ^ tyBits s.vty)))

/-- VTYPE (R414). -/
def execVtype (t : Ty) (s : State) : Result :=
  if t.code < 6 then .next (s.setMe { s.me with vty := t }) else .next s.illop

/-- One node of VRED (R130). -/
def redAt (op : RedOp) (t : Ty) (x y : Nat) : Nat :=
  match op with
  | .add => addAt t x y
  | .max => maxAt t x y
  | .min => minAt t x y
  | .and => x &&& y
  | .or => x ||| y
  | .xor => x ^^^ y

/-- VRED (R411). -/
def execVred (d a : VReg) (op : RedOp) (s : State) : Result :=
  if bitwiseRed op && isFloat s.vty then .next s.illop
  else .next (s.setVElems d.val (List.replicate s.lanes (treeTop (redAt op s.vty) (Nat.log2 s.lanes) (s.vElems a.val))))

/-! ### Conversion (R402, R403) -/

/-- VCVT. -/
def execVcvt (d a : VReg) (es : EReg) (tfrom tto : Ty) (rnd : Rnd) (sat scl : Bool) (s : State) : Result :=
  let bf := tyBytes tfrom
  let bt := tyBytes tto
  let n := cvtCount tfrom tto
  let nf := n * bf / 1024
  let nt := n * bt / 1024
  if 32 < a.val + nf ∨ 32 < d.val + nt then .next s.illop
  else
    let scale := if scl then some ((s.getE .v es).toNat % 2 ^ 32) else none
    let src := ((List.range nf).flatMap fun r => rowElems bf (s.vRow (a.val + r) bf)).take n
    let out := src.map (convertAt tfrom tto rnd sat scale)
    .next ((List.range nt).foldl (fun (t : State) r => t.setVRow (d.val + r) (rowOf bt ((out.drop (r * (1024 / bt))).take (1024 / bt))) bt) s)

/-! ### Random numbers and dropout (R134, R135, R404, R412) -/

/-- VRND. -/
def execVrnd (d : VReg) (seed idx : EReg) (s : State) : Result :=
  .next (s.setVElems d.val ((List.range s.lanes).map fun i =>
    (kymix (s.getE .v seed) (s.getE .v idx + BitVec.ofNat 64 i)).toNat % 2 ^ tyBits s.vty))

/-- VDROP. -/
def execVdrop (d a : VReg) (seed idx ts : EReg) (md : MReg) (s : State) : Result :=
  if !isFloat s.vty then .next s.illop
  else
    let thr := (s.getE .v ts).toNat % 2 ^ 32
    let scale := decodeFloat .f32 ((s.getE .v ts).toNat / 2 ^ 32)
    let keep := (List.range s.lanes).map fun i => decide (thr ≤ (kymix (s.getE .v seed) (s.getE .v idx + BitVec.ofNat 64 i)).toNat / 256)
    let out := ((s.vElems a.val).zip keep).map fun p => if p.2 then encodeFloat s.vty .rne false ((decodeFloat s.vty p.1).mul scale) else 0
    .next ((s.setVElems d.val out).setM md (maskOf keep))

/-! ### The scratchpad (R137, R140, R146, R406, R408) -/

/-- Where the stream's window starts in its core's scratchpad. -/
def State.vBase (s : State) : Nat := spBase s.me s.cur.sid

/-- A granule of the stream's window is poisoned. -/
def State.vBad (s : State) (off : Nat) : Bool := Tab.get false (s.core (coreOf s.cur.sid)).spBad ((s.vBase + off) / 64)

/-- Some of the elements of w bytes at these offsets lie in a live operand window. -/
def State.vHeld (s : State) (w : Nat) (offs : List Nat) : Bool := offs.any fun o => s.inWindow (coreOf s.cur.sid) (s.vBase + o) w

/-- The older stores to elements of w bytes at offsets of the stream's window are made, and whether none is left on its way (R186). -/
def State.vSettled (s : State) (w : Nat) (offs : List Nat) : State × Bool :=
  offs.foldl (fun (acc : State × Bool) o => let r := acc.1.settledHome acc.1.cur.sid (.sp (coreOf acc.1.cur.sid) (acc.1.vBase + o)) w; (r.1, acc.2 && r.2)) (s, true)

/-- Elements of w bytes written at offsets of the stream's window, in order; a granule written whole loses its poison (R156). -/
def State.vStore (s : State) (w : Nat) (l : List (Nat × Nat)) : State :=
  let c := coreOf s.cur.sid
  let base := s.vBase
  let k := s.core c
  let sp := l.foldl (fun (m : Memory) p => Memory.writeList m (base + p.1) (leBytes w p.2)) k.sp
  let offs := (l.map (·.1)).eraseDups
  let whole (g : Nat) : Bool := decide ((offs.filter fun o => o / 64 == g).length = 64 / w)
  let bad := if k.spBad.isEmpty then k.spBad else ((offs.map (· / 64)).eraseDups.filter whole).foldl (fun t g => Tab.put false t (base / 64 + g) false) k.spBad
  s.setCore c { k with sp := sp, spBad := bad }

/-- An element of w bytes at an offset of the stream's window. -/
def State.vLoad (s : State) (w off : Nat) : Nat := leNat (s.spBytes (coreOf s.cur.sid) (s.vBase + off) w)

/-- V holds until a window retires (R146). -/
def State.holdV (s : State) : Result := .next ((s.setMyEng { s.myEng with hold := .command }).held)

/-- V writes elements of w bytes, and goes on by `k`: it holds while a window holds the write, or an older store to those bytes is on its way
(R146, R186). -/
def State.vWrite (s : State) (w : Nat) (l : List (Nat × Nat)) (k : State → State) : Result :=
  if s.vHeld w (l.map (·.1)) then s.holdV
  else
    let u := s.vSettled w (l.map (·.1))
    if u.2 then .next (k (u.1.vStore w l)) else u.1.holdV

/-- The offset of VLD and VST, or the fault it takes (R408). -/
def State.vRowOffset (s : State) (b : EReg) (o : BitVec 5) (k : Kind) : Except FaultInfo Nat :=
  let off := addrAdd (s.getE .v b) (1024 * o.toInt)
  if off % 32 ≠ 0 then .error (align off k 1024)
  else if s.me.spSize < off + 1024 then .error (xlate off k 1024)
  else .ok off

/-- VLD. -/
def execVld (d : VReg) (b : EReg) (o : BitVec 5) (m : MReg) (s : State) : Result :=
  match s.vRowOffset b o .read with
  | .error f => .next (s.fault f)
  | .ok off =>
    let w := tyBytes s.vty
    match (s.selected m).find? fun i => s.vBad (off + i * w) with
    | some i => .next (s.fault (poisonAt (off + i * w) .read 1024))
    | none =>
      let new := elems (8 * w) s.lanes (leNat (s.spBytes (coreOf s.cur.sid) (s.vBase + off) 1024))
      .next ((s.spMeet s.cur.sid .v (s.vBase + off) 1024).setVMasked d.val m new)

/-- VST. -/
def execVst (a : VReg) (b : EReg) (o : BitVec 5) (m : MReg) (s : State) : Result :=
  match s.vRowOffset b o .write with
  | .error f => .next (s.fault f)
  | .ok off =>
    let w := tyBytes s.vty
    let xs := s.vElems a.val
    let l := (s.selected m).map fun i => (off + i * w, xs.getD i 0)
    s.vWrite w l id

/-- The offsets of VGATH and VSCAT, by lane; or the fault of the lowest lane that fails (R406). -/
def State.vOffsets (s : State) (vi : VReg) (b : EReg) (m : MReg) (k : Kind) : Except FaultInfo (List (Nat × Nat)) :=
  let w := tyBytes s.vty
  let ix := s.vElems vi.val
  let offs : List (Nat × Int) := (s.selected m).map fun i => (i, ((s.getE .v b).toNat : Int) + signed (8 * w) (ix.getD i 0) * (w : Int))
  let addr (o : Int) : Nat := (BitVec.ofInt 64 o).toNat
  match offs.find? fun p => decide (p.2 % (w : Int) ≠ 0) with
  | some p => .error (align (addr p.2) k w)
  | none =>
    match offs.find? fun p => decide (p.2 < 0) || decide ((s.me.spSize : Int) < p.2 + w) with
    | some p => .error (xlate (addr p.2) k w)
    | none => .ok (offs.map fun p => (p.1, p.2.toNat))

/-- VGATH. -/
def execVgath (d vi : VReg) (b : EReg) (m : MReg) (sz : MemSize) (s : State) : Result :=
  let w := tyBytes s.vty
  if sizeBytes sz ≠ w then .next s.illop
  else
    match s.vOffsets vi b m .read with
    | .error f => .next (s.fault f)
    | .ok l =>
      match l.find? fun p => s.vBad p.2 with
      | some p => .next (s.fault { code := 0x0B, addr := BitVec.ofNat 64 p.2, detail := accessDetail .read w })
      | none => .next ((l.foldl (fun (s : State) p => s.spMeet s.cur.sid .v (s.vBase + p.2) w) s).setVMasked d.val m
          (l.foldl (fun xs p => xs.set p.1 (s.vLoad w p.2)) (List.replicate s.lanes 0)))

/-- VSCAT. -/
def execVscat (a vi : VReg) (b : EReg) (m : MReg) (sz : MemSize) (s : State) : Result :=
  let w := tyBytes s.vty
  if sizeBytes sz ≠ w then .next s.illop
  else
    match s.vOffsets vi b m .write with
    | .error f => .next (s.fault f)
    | .ok l =>
      let xs := s.vElems a.val
      s.vWrite w (l.map fun p => (p.2, xs.getD p.1 0)) id

/-! ### Conditional streams (R399, R400) -/

def Stream.condStream (st : Stream) (k : Nat) : CondStream := Tab.get {} st.cond k
def State.setCond (s : State) (k : Nat) (c : CondStream) : State := s.setMe { s.me with cond := Tab.set s.me.cond k c }

/-- Offset of a slot of a conditional stream's ring. -/
def State.condSlot (s : State) (k slot : Nat) : Nat := s.me.spSize - 65536 + 16384 * k + 1024 * (slot % 16)

def CondStream.isEmpty (c : CondStream) : Bool := c.ready == 0 && c.partialCount == 0

/-- VPUSH. -/
def execVpush (k : Fin 4) (a : VReg) (m : MReg) (s : State) : Result :=
  let c := s.me.condStream k.val
  let w := tyBytes s.vty
  let n := s.lanes
  let sel := s.selected m
  if (!c.isEmpty && c.width != w) || decide (16 < c.ready + (c.partialCount + sel.length + n - 1) / n) then .next s.illop
  else
    let xs := s.vElems a.val
    let l := sel.zipIdx.map fun p =>
      let e := c.partialCount + p.2
      (s.condSlot k.val (c.head + c.ready + e / n) + e % n * w, xs.getD p.1 0)
    let q := c.partialCount + sel.length
    s.vWrite w l fun s => (s.setCond k.val { c with ready := c.ready + q / n, counts := c.counts ++ List.replicate (q / n) n, partialCount := q % n, width := w })

/-- VCLOSE. -/
def execVclose (k : Fin 4) (s : State) : Result :=
  let c := s.me.condStream k.val
  let w := tyBytes s.vty
  if !c.isEmpty && c.width != w then .next s.illop
  else if c.partialCount = 0 then .next s
  else
    let l := (List.range (s.lanes - c.partialCount)).map fun i => (s.condSlot k.val (c.head + c.ready) + (c.partialCount + i) * w, 0)
    s.vWrite w l fun s => (s.setCond k.val { c with ready := c.ready + 1, counts := c.counts ++ [c.partialCount], partialCount := 0 })

/-- VPOP. -/
def execVpop (d : VReg) (k : Fin 4) (md : MReg) (s : State) : Result :=
  let c := s.me.condStream k.val
  if c.ready = 0 then .next ((s.setVRow d.val 0).setM md 0)
  else if c.width ≠ tyBytes s.vty then .next s.illop
  else
    let off := s.condSlot k.val c.head
    match (List.range 16).find? fun i => s.vBad (off + 64 * i) with
    | some i => .next (s.fault (poisonAt (off + 64 * i) .read 1024))
    | none =>
      let s' := ((s.spMeet s.cur.sid .v (s.vBase + off) 1024).setVRow d.val (bytesRow (s.spBytes (coreOf s.cur.sid) (s.vBase + off) 1024))).setM md
        (maskOf ((List.range s.lanes).map fun i => decide (i < c.counts.headD 0)))
      .next (s'.setCond k.val { c with head := (c.head + 1) % 16, ready := c.ready - 1, counts := c.counts.tail })

/-! ### Reply rows (R410) -/

/-- VQPOP: a poisoned row that no page zero-fills takes POISON and stays. The row lies in no granule: FADDR is 0 (assumption 74). -/
def execVqpop (d : VReg) (es : EReg) (s : State) : Result :=
  match s.me.vq with
  | [] => .next ((s.setMyEng { s.myEng with hold := .command }).held)
  | q :: rest =>
    if q.status.getLsbD 32 && !q.status.getLsbD 33 then .next (s.fault (poisonAt 0 .read 1024))
    else .next (((s.setMe { s.me with vq := rest }).setVRow d.val q.data).setE .v es q.status)

end Sys2Proof.Machine
end

