-- ==== Sys2Proof/Machine/Dispatch.lean ====
section
/-! DEFINITION. One arm for each instruction and each step of another unit: a direct call of its meaning. -/

namespace Sys2Proof.Machine

open Sys2Proof

def exec (i : Instr) (s : State) : Host.Outcome State Fault Refusal :=
  match i with
  | .nop e => Sys2Proof.Machine.execNop e s
  | .loop e lvl cnt body stages rot tok => Sys2Proof.Machine.execLoop e lvl cnt body stages rot tok s
  | .rep e n dA dB dC => Sys2Proof.Machine.execRep e n dA dB dC s
  | .notify e tag => Sys2Proof.Machine.execNotify e tag s
  | .qpush e a => Sys2Proof.Machine.execQpush e a s
  | .epop e d => Sys2Proof.Machine.execEpop e d s
  | .toks e v => Sys2Proof.Machine.execToks e v s
  | .csrr d c => Sys2Proof.Machine.execCsrr d c s
  | .csrw a c => Sys2Proof.Machine.execCsrw a c s
  | .winWrite v => Sys2Proof.Machine.execWinWrite v s
  | .wdogWrite v => Sys2Proof.Machine.execWdogWrite v s
  | .add d a b => Sys2Proof.Machine.execAdd d a b s
  | .sub d a b => Sys2Proof.Machine.execSub d a b s
  | .mul d a b => Sys2Proof.Machine.execMul d a b s
  | .mulh d a b => Sys2Proof.Machine.execMulh d a b s
  | .mulhn d a b => Sys2Proof.Machine.execMulhn d a b s
  | .div d a b => Sys2Proof.Machine.execDiv d a b s
  | .divn d a b => Sys2Proof.Machine.execDivn d a b s
  | .rem d a b => Sys2Proof.Machine.execRem d a b s
  | .remn d a b => Sys2Proof.Machine.execRemn d a b s
  | .and d a b => Sys2Proof.Machine.execAnd d a b s
  | .or d a b => Sys2Proof.Machine.execOr d a b s
  | .xor d a b => Sys2Proof.Machine.execXor d a b s
  | .shl d a b => Sys2Proof.Machine.execShl d a b s
  | .shr d a b => Sys2Proof.Machine.execShr d a b s
  | .sra d a b => Sys2Proof.Machine.execSra d a b s
  | .min d a b => Sys2Proof.Machine.execMin d a b s
  | .minn d a b => Sys2Proof.Machine.execMinn d a b s
  | .max d a b => Sys2Proof.Machine.execMax d a b s
  | .maxn d a b => Sys2Proof.Machine.execMaxn d a b s
  | .cmp p c a b v => Sys2Proof.Machine.execCmp p c a b v s
  | .sel d a b p => Sys2Proof.Machine.execSel d a b p s
  | .clz d a => Sys2Proof.Machine.execClz d a s
  | .ctz d a => Sys2Proof.Machine.execCtz d a s
  | .popc d a => Sys2Proof.Machine.execPopc d a s
  | .addi d a imm => Sys2Proof.Machine.execAddi d a imm s
  | .andi d a imm => Sys2Proof.Machine.execAndi d a imm s
  | .ori d a imm => Sys2Proof.Machine.execOri d a imm s
  | .xori d a imm => Sys2Proof.Machine.execXori d a imm s
  | .shli d a n => Sys2Proof.Machine.execShli d a n s
  | .shri d a n => Sys2Proof.Machine.execShri d a n s
  | .srai d a n => Sys2Proof.Machine.execSrai d a n s
  | .cmpi p c a imm => Sys2Proof.Machine.execCmpi p c a imm s
  | .limm d imm => Sys2Proof.Machine.execLimm d imm s
  | .lup d imm => Sys2Proof.Machine.execLup d imm s
  | .ext d a pos len => Sys2Proof.Machine.execExt d a pos len s
  | .extS d a pos len => Sys2Proof.Machine.execExtS d a pos len s
  | .ins d a pos len => Sys2Proof.Machine.execIns d a pos len s
  | .plog d a b t => Sys2Proof.Machine.execPlog d a b t s
  | .ld d b sz o => Sys2Proof.Machine.execLd d b sz o s
  | .st a b sz o => Sys2Proof.Machine.execSt a b sz o s
  | .spld d n => Sys2Proof.Machine.execSpld d n s
  | .spst a n => Sys2Proof.Machine.execSpst a n s
  | .mark => Sys2Proof.Machine.execMark s
  | .ldacq d b sz sc off => Sys2Proof.Machine.execLdacq d b sz sc off s
  | .strel a b sz sc off => Sys2Proof.Machine.execStrel a b sz sc off s
  | .fence sc k mask => Sys2Proof.Machine.execFence sc k mask s
  | .tlook d a => Sys2Proof.Machine.execTlook d a s
  | .tset d a b => Sys2Proof.Machine.execTset d a b s
  | .tinv a => Sys2Proof.Machine.execTinv a s
  | .br p sense o => Sys2Proof.Machine.execBr p sense o s
  | .jmp o => Sys2Proof.Machine.execJmp o s
  | .call o => Sys2Proof.Machine.execCall o s
  | .ret => Sys2Proof.Machine.execRet s
  | .yield => Sys2Proof.Machine.execYield s
  | .wfill r a => Sys2Proof.Machine.execWfill r a s
  | .wfree r a => Sys2Proof.Machine.execWfree r a s
  | .wevt d mask => Sys2Proof.Machine.execWevt d mask s
  | .waitge a b sc off => Sys2Proof.Machine.execWaitge a b sc off s
  | .rinit r a b => Sys2Proof.Machine.execRinit r a b s
  | .rclaim d r a => Sys2Proof.Machine.execRclaim d r a s
  | .rcommit r a => Sys2Proof.Machine.execRcommit r a s
  | .rfree r a => Sys2Proof.Machine.execRfree r a s
  | .amo d b c op ord sc dbl off => Sys2Proof.Machine.execAmo d b c op ord sc dbl off s
  | .acas d b exp new ord sc dbl off => Sys2Proof.Machine.execAcas d b exp new ord sc dbl off s
  | .bar b c => Sys2Proof.Machine.execBar b c s
  | .sev a user ev => Sys2Proof.Machine.execSev a user ev s
  | .gflip b owner off => Sys2Proof.Machine.execGflip b owner off s
  | .rnext d a => Sys2Proof.Machine.execRnext d a s
  | .launch d a => Sys2Proof.Machine.execLaunch d a s
  | .ovl a mask => Sys2Proof.Machine.execOvl a mask s
  | .fmtq a => Sys2Proof.Machine.execFmtq a s
  | .trap a b => Sys2Proof.Machine.execTrap a b s
  | .eret => Sys2Proof.Machine.execEret s
  | .tlbi a b => Sys2Proof.Machine.execTlbi a b s
  | .halt => Sys2Proof.Machine.execHalt s
  | .agrant a b => Sys2Proof.Machine.execAgrant a b s
  | .arevoke a => Sys2Proof.Machine.execArevoke a s
  | .aerase a => Sys2Proof.Machine.execAerase a s
  | .aattest a b => Sys2Proof.Machine.execAattest a b s
  | .astat d a => Sys2Proof.Machine.execAstat d a s
  | .smig a b => Sys2Proof.Machine.execSmig a b s
  | .vadd d a b m => Sys2Proof.Machine.execVadd d a b m s
  | .vsub d a b m => Sys2Proof.Machine.execVsub d a b m s
  | .vmul d a b m => Sys2Proof.Machine.execVmul d a b m s
  | .vfma d a b m => Sys2Proof.Machine.execVfma d a b m s
  | .vmin d a b m => Sys2Proof.Machine.execVmin d a b m s
  | .vmax d a b m => Sys2Proof.Machine.execVmax d a b m s
  | .vand d a b m => Sys2Proof.Machine.execVand d a b m s
  | .vor d a b m => Sys2Proof.Machine.execVor d a b m s
  | .vxor d a b m => Sys2Proof.Machine.execVxor d a b m s
  | .vshl d a b m => Sys2Proof.Machine.execVshl d a b m s
  | .vshr d a b m => Sys2Proof.Machine.execVshr d a b m s
  | .vshrl d a b m => Sys2Proof.Machine.execVshrl d a b m s
  | .vcmp md c a b m => Sys2Proof.Machine.execVcmp md c a b m s
  | .vsel d a b m => Sys2Proof.Machine.execVsel d a b m s
  | .vcvt d a es tfrom tto rnd sat scl => Sys2Proof.Machine.execVcvt d a es tfrom tto rnd sat scl s
  | .vred d a op => Sys2Proof.Machine.execVred d a op s
  | .vperm d a b => Sys2Proof.Machine.execVperm d a b s
  | .vbcast d a => Sys2Proof.Machine.execVbcast d a s
  | .vext d a l => Sys2Proof.Machine.execVext d a l s
  | .vins d a l => Sys2Proof.Machine.execVins d a l s
  | .vld d b o m => Sys2Proof.Machine.execVld d b o m s
  | .vst a b o m => Sys2Proof.Machine.execVst a b o m s
  | .vgath d vi b m sz => Sys2Proof.Machine.execVgath d vi b m sz s
  | .vscat a vi b m sz => Sys2Proof.Machine.execVscat a vi b m sz s
  | .vpush k a m => Sys2Proof.Machine.execVpush k a m s
  | .vpop d k md => Sys2Proof.Machine.execVpop d k md s
  | .vclose k => Sys2Proof.Machine.execVclose k s
  | .vrnd d seed idx => Sys2Proof.Machine.execVrnd d seed idx s
  | .vdrop d a seed idx ts md => Sys2Proof.Machine.execVdrop d a seed idx ts md s
  | .vtype t => Sys2Proof.Machine.execVtype t s
  | .vqpop d st => Sys2Proof.Machine.execVqpop d st s
  | .mcfg lvl fld a => Sys2Proof.Machine.execMcfg lvl fld a s
  | .mgo => Sys2Proof.Machine.execMgo s
  | .mpass act arr row acc t => Sys2Proof.Machine.execMpass act arr row acc t s
  | .mlds a t => Sys2Proof.Machine.execMlds a t s
  | .mswap => Sys2Proof.Machine.execMswap s
  | .mclr row n => Sys2Proof.Machine.execMclr row n s
  | .mconv row n sz f32 => Sys2Proof.Machine.execMconv row n sz f32 s
  | .awrite src an cnt first => Sys2Proof.Machine.execAwrite src an cnt first s
  | .ccopy a => Sys2Proof.Machine.execCcopy a s
  | .cgath a => Sys2Proof.Machine.execCgath a s
  | .cscanr a len d lapr lap vq => Sys2Proof.Machine.execCscanr a len d lapr lap vq s
  | .cscanu a src len lapr lap op => Sys2Proof.Machine.execCscanu a src len lapr lap op s
  | .clap d r close => Sys2Proof.Machine.execClap d r close s
  | .cbank src dst rows => Sys2Proof.Machine.execCbank src dst rows s
  | .ccopyf a flag val sc add => Sys2Proof.Machine.execCcopyf a flag val sc add s
  | .fexp2 d a t => Sys2Proof.Machine.execFexp2 d a t s
  | .flog2 d a t => Sys2Proof.Machine.execFlog2 d a t s
  | .frcp d a t => Sys2Proof.Machine.execFrcp d a t s
  | .frsq d a t => Sys2Proof.Machine.execFrsq d a t s
  | .ftanh d a t => Sys2Proof.Machine.execFtanh d a t s
  | .fsigm d a t => Sys2Proof.Machine.execFsigm d a t s
  | .ferf d a t => Sys2Proof.Machine.execFerf d a t s
  | .fetchLine sid => Sys2Proof.Machine.execFetchLine sid s
  | .tokenWaitResume sid e => Sys2Proof.Machine.execTokenWaitResume sid e s
  | .tokenPushResume sid e => Sys2Proof.Machine.execTokenPushResume sid e s
  | .scalarFifoResume sid e => Sys2Proof.Machine.execScalarFifoResume sid e s
  | .formatQueueResume sid => Sys2Proof.Machine.execFormatQueueResume sid s
  | .slipWindowResume sid e => Sys2Proof.Machine.execSlipWindowResume sid e s
  | .streamPark sid => Sys2Proof.Machine.execStreamPark sid s
  | .waitWake sid => Sys2Proof.Machine.execWaitWake sid s
  | .streamSwitch core => Sys2Proof.Machine.execStreamSwitch core s
  | .switchQuantumExpiry core => Sys2Proof.Machine.execSwitchQuantumExpiry core s
  | .fExposure sid => Sys2Proof.Machine.execFExposure sid s
  | .operandWindowRetire core => Sys2Proof.Machine.execOperandWindowRetire core s
  | .completionCombine sid => Sys2Proof.Machine.execCompletionCombine sid s
  | .recordCompletionEvent die wid => Sys2Proof.Machine.execRecordCompletionEvent die wid s
  | .walkerTakeRecord die wid => Sys2Proof.Machine.execWalkerTakeRecord die wid s
  | .iterationPlace die => Sys2Proof.Machine.execIterationPlace die s
  | .stall sid => Sys2Proof.Machine.execStall sid s
  | .faultRecordAppend wid => Sys2Proof.Machine.execFaultRecordAppend wid s
  | .handlerEntry sid => Sys2Proof.Machine.execHandlerEntry sid s
  | .migrationMove sid => Sys2Proof.Machine.execMigrationMove sid s
  | .ctxSave sid => Sys2Proof.Machine.execCtxSave sid s
  | .ctxRestore sid => Sys2Proof.Machine.execCtxRestore sid s
  | .ctxCommandDone sid => Sys2Proof.Machine.execCtxCommandDone sid s
  | .pswapSave sid => Sys2Proof.Machine.execPswapSave sid s
  | .pswapRestore sid => Sys2Proof.Machine.execPswapRestore sid s
  | .pswapDone sid => Sys2Proof.Machine.execPswapDone sid s
  | .pgateGate sid => Sys2Proof.Machine.execPgateGate sid s
  | .pgateUngate sid => Sys2Proof.Machine.execPgateUngate sid s
  | .pgateDone sid => Sys2Proof.Machine.execPgateDone sid s
  | .map sid blk => Sys2Proof.Machine.execMap sid blk s
  | .unmap sid blk => Sys2Proof.Machine.execUnmap sid blk s
  | .scanRegionRelease region => Sys2Proof.Machine.execScanRegionRelease region s
  | .scanmake sid blk => Sys2Proof.Machine.execScanmake sid blk s
  | .gatebindBind sid blk => Sys2Proof.Machine.execGatebindBind sid blk s
  | .gatebindUnbind sid blk => Sys2Proof.Machine.execGatebindUnbind sid blk s
  | .leaseRequest sid blk => Sys2Proof.Machine.execLeaseRequest sid blk s
  | .leaseWake sid blk => Sys2Proof.Machine.execLeaseWake sid blk s
  | .leaseReserve sid blk => Sys2Proof.Machine.execLeaseReserve sid blk s
  | .leaseEop sid blk => Sys2Proof.Machine.execLeaseEop sid blk s
  | .unlease sid blk => Sys2Proof.Machine.execUnlease sid blk s
  | .leaseFinalStatus grant weight => Sys2Proof.Machine.execLeaseFinalStatus grant weight s
  | .evidenceWorldReport sid blk => Sys2Proof.Machine.execEvidenceWorldReport sid blk s
  | .evidenceCollectRecord sid blk => Sys2Proof.Machine.execEvidenceCollectRecord sid blk s
  | .resumeRetry sid blk => Sys2Proof.Machine.execResumeRetry sid blk s
  | .resumeAbandon sid blk => Sys2Proof.Machine.execResumeAbandon sid blk s
  | .arrayPass bay => Sys2Proof.Machine.execArrayPass bay s
  | .mgoPass sid => Sys2Proof.Machine.execMgoPass sid s
  | .awriteRowStep bay ok => Sys2Proof.Machine.execAwriteRowStep bay ok s
  | .eraseStep bay ok => Sys2Proof.Machine.execEraseStep bay ok s
  | .metadataCheckpoint => Sys2Proof.Machine.execMetadataCheckpoint s
  | .copyStep sid idx => Sys2Proof.Machine.execCopyStep sid idx s
  | .scanAdmission sid => Sys2Proof.Machine.execScanAdmission sid s
  | .lapBell region => Sys2Proof.Machine.execLapBell region s
  | .closeMarkerArrive region slice port => Sys2Proof.Machine.execCloseMarkerArrive region slice port s
  | .sliceZeroRow region slice => Sys2Proof.Machine.execSliceZeroRow region slice s
  | .sliceRowServe region slice => Sys2Proof.Machine.execSliceRowServe region slice s
  | .slicePassEnd region slice => Sys2Proof.Machine.execSlicePassEnd region slice s
  | .scanReplyDeliver sid => Sys2Proof.Machine.execScanReplyDeliver sid s
  | .gateFlipCommit sid => Sys2Proof.Machine.execGateFlipCommit sid s
  | .notificationAppend wid => Sys2Proof.Machine.execNotificationAppend wid s
  | .errorLogAppend wid => Sys2Proof.Machine.execErrorLogAppend wid s
  | .doorbell vf v => Sys2Proof.Machine.execDoorbell vf v s
  | .vfResume vf v => Sys2Proof.Machine.execVfResume vf v s
  | .vfEvidence vf v => Sys2Proof.Machine.execVfEvidence vf v s
  | .vfRegisterWrite vf off v => Sys2Proof.Machine.execVfRegisterWrite vf off v s
  | .intakePacket port payload => Sys2Proof.Machine.execIntakePacket port payload s
  | .tsudalPacket link wid slot ok => Sys2Proof.Machine.execTsudalPacket link wid slot ok s
  | .dieLinkFrame link ok => Sys2Proof.Machine.execDieLinkFrame link ok s
  | .linkKeyInstall link => Sys2Proof.Machine.execLinkKeyInstall link s
  | .linkKeySwitch link endB => Sys2Proof.Machine.execLinkKeySwitch link endB s
  | .linkKeyRetire link endB => Sys2Proof.Machine.execLinkKeyRetire link endB s
  | .functionLevelReset vf => Sys2Proof.Machine.execFunctionLevelReset vf s
  | .worldTeardown wid => Sys2Proof.Machine.execWorldTeardown wid s
  | .getVersion vf => Sys2Proof.Machine.execGetVersion vf s
  | .getCapabilities vf => Sys2Proof.Machine.execGetCapabilities vf s
  | .negotiateAlgorithms vf => Sys2Proof.Machine.execNegotiateAlgorithms vf s
  | .getDigests vf => Sys2Proof.Machine.execGetDigests vf s
  | .getCertificate vf => Sys2Proof.Machine.execGetCertificate vf s
  | .challenge vf => Sys2Proof.Machine.execChallenge vf s
  | .getMeasurements vf => Sys2Proof.Machine.execGetMeasurements vf s
  | .keyExchange vf ok => Sys2Proof.Machine.execKeyExchange vf ok s
  | .finish vf ok => Sys2Proof.Machine.execFinish vf ok s
  | .endSession vf => Sys2Proof.Machine.execEndSession vf s
  | .lockInterface vf => Sys2Proof.Machine.execLockInterface vf s
  | .startInterface vf => Sys2Proof.Machine.execStartInterface vf s
  | .ideKmKeyRefresh vf => Sys2Proof.Machine.execIdeKmKeyRefresh vf s
  | .enrolment addr port vlim vwin => Sys2Proof.Machine.execEnrolment addr port vlim vwin s
  | .enrolmentWithdraw => Sys2Proof.Machine.execEnrolmentWithdraw s
  | .alarmRepeat => Sys2Proof.Machine.execAlarmRepeat s
  | .bootStageA version ok => Sys2Proof.Machine.execBootStageA version ok s
  | .rollbackIncrement cut => Sys2Proof.Machine.execRollbackIncrement cut s
  | .bootStageB => Sys2Proof.Machine.execBootStageB s
  | .dieJoin die ok => Sys2Proof.Machine.execDieJoin die ok s
  | .powerLoss => Sys2Proof.Machine.execPowerLoss s
  | .governorTick die cls limit => Sys2Proof.Machine.execGovernorTick die cls limit s
  | .fastLimit die above => Sys2Proof.Machine.execFastLimit die above s
  | .thermalThrottle die temp => Sys2Proof.Machine.execThermalThrottle die temp s
  | .throttleRelease die temp => Sys2Proof.Machine.execThrottleRelease die temp s
  | .thermalTrip die temp => Sys2Proof.Machine.execThermalTrip die temp s
  | .hostRestart => Sys2Proof.Machine.execHostRestart s
  | .worldMake wid vf => Sys2Proof.Machine.execWorldMake wid vf s
  | .hostWrite wid dva data => Sys2Proof.Machine.execHostWrite wid dva data s
  | .tdiError vf => Sys2Proof.Machine.execTdiError vf s
  | .unsupportedRequest vf => Sys2Proof.Machine.execUnsupportedRequest vf s

end Sys2Proof.Machine
end

