-- ==== Sys2Proof/Machine/Turn.lean ====
section
/-! DEFINITION. Turns: what moves in a step, what passes with it, and how an instruction is placed where the next step
fetches it. -/

namespace Sys2Proof.Machine

open Sys2Proof

/-- Which turn this step takes: the head of the schedule, else a free one. -/
def State.takeTurn (s : State) : Turn × State :=
  match s.sched with
  | t :: r => (t, { s with sched := r })
  | [] => (Config.turn s.tick, s)

/-- The TLB (cores 0 to 259, then groups) may hold any of the valid translations, within its size (R153). -/
def State.tlbNext (s : State) : List (Nat × Nat × Nat) :=
  ((List.range 276).map fun t =>
    ((s.pages.filter fun p => Config.tlbHolds s.tick t p.dva p.wid).map fun p => (t, p.wid, p.dva)).take (if t < 260 then 384 else 16384)).flatten

/-- Time passes (R10), and translations come and go. -/
def State.pass (s : State) : State :=
  { s with tick := s.tick + 1, now := s.now + Config.elapsed s.tick, clock := s.clock + Config.cycles s.tick, tlb := s.tlbNext }

/-- DVA of a scratchpad granule as a stream reads it: in its own window, else in the core window (Table 6.1). -/
def State.granuleDva (s : State) (sid core g : Nat) : Nat :=
  if core = coreOf sid ∧ spBase (s.stream sid) sid ≤ 64 * g ∧ 64 * g < spBase (s.stream sid) sid + (s.stream sid).spSize then spDva + (64 * g - spBase (s.stream sid) sid)
  else 0xFF8000000000 + 0x200000 * core + 64 * g

/-- A read of an SRAM of a core by a stream has met an error that ECC does not correct, and is retried: logged for the stream's world
(R30, R155). -/
def State.sramError (s : State) (sid dva : Nat) (lasting : Bool) : State :=
  if (s.stream sid).run = Run.free then s else s.logError (s.widOf sid) (if lasting then 2 else 1) (partyOf sid) 0 dva 0

/-- A scratchpad granule: a lasting error poisons it. -/
def State.spUpset (s : State) (sid core g : Nat) (lasting : Bool) : State :=
  if (s.stream sid).run = Run.free then s else
  let t := s.sramError sid (s.granuleDva sid core g) lasting
  if lasting then t.setCore core { t.core core with spBad := Tab.put false (t.core core).spBad g true } else t

/-- A spill word: after a lasting error its value is free (assumption 86). -/
def State.spillUpset (s : State) (sid k : Nat) (lasting : Bool) : State :=
  let t := s.sramError sid 0 lasting
  if lasting ∧ (s.stream sid).run ≠ Run.free then t.setStream sid { t.stream sid with spill := Tab.set (t.stream sid).spill (k % 1024) (BitVec.ofNat 64 (s.free 0)) } else t

/-- A tile row: after a lasting error its value is free (assumption 86). -/
def State.tileUpset (s : State) (sid row : Nat) (lasting : Bool) : State :=
  let t := s.sramError sid 0 lasting
  if lasting ∧ (s.stream sid).run ≠ Run.free then t.setStream sid ((t.stream sid).setRow (row % 32) (BitVec.ofNat 8192 (s.free 0))) else t

/-- A row of a matrix plane: after a lasting error its value is free (assumption 86). -/
def State.planeUpset (s : State) (sid : Nat) (shadow : Bool) (row : Nat) (lasting : Bool) : State :=
  let t := s.sramError sid 0 lasting
  let k := t.core (coreOf sid)
  let bad (m : Memory) : Memory := Memory.writeList m (256 * (row % 128)) ((List.range 256).map fun i => Config.noiseByte s.tick i)
  if lasting ∧ (s.stream sid).run ≠ Run.free then t.setCore (coreOf sid) (if shadow then { k with planeS := bad k.planeS } else { k with planeA := bad k.planeA }) else t

/-- A ring's counts: after a lasting error they are free (assumption 86). -/
def State.ringUpset (s : State) (sid r : Nat) (lasting : Bool) : State :=
  let t := s.sramError sid 0 lasting
  let free (k : Nat) : BitVec 32 := BitVec.ofNat 32 (s.free k)
  if lasting ∧ (s.stream sid).run ≠ Run.free then
    t.setRing (coreOf sid) (r % 16) { t.ring (coreOf sid) (r % 16) with claim := free 0, commit := free 1, free := free 2 } else t

/-- An entry of the tag table: after a lasting error it is not valid, or its tag is free (assumption 86). -/
def State.tagUpset (s : State) (sid k : Nat) (lasting : Bool) : State :=
  let t := s.sramError sid 0 lasting
  let st := t.stream sid
  if lasting ∧ (s.stream sid).run ≠ Run.free ∧ (Tab.find st.tags k).isSome = true then
    let rest := Tab.erase st.tags k
    let tag := s.free 1 % 2 ^ 36
    t.setStream sid { st with tags := if s.free 0 % 2 = 0 ∨ (rest.any fun p => p.2 == tag) = true then rest else Tab.set rest k tag } else t

/-- A row of the C→V FIFO: after a lasting error it is poisoned, by its status word (R155, R172; assumption 86). -/
def State.rowUpset (s : State) (sid k : Nat) (lasting : Bool) : State :=
  let t := s.sramError sid 0 lasting
  let st := t.stream sid
  match st.vq[k]? with
  | none => s
  | some q => if lasting ∧ (s.stream sid).run ≠ Run.free then t.setStream sid { st with vq := st.vq.set k { q with status := (q.status ||| 0x100000000) &&& ~~~0x200000000 } } else t

/-- An entry of a scalar FIFO: after a lasting error its value is free (assumption 86). -/
def State.scalarUpset (s : State) (sid : Nat) (e : Engine) (k : Nat) (lasting : Bool) : State :=
  let t := s.sramError sid 0 lasting
  let st := t.stream sid
  let q := Tab.get [] st.scalars e.code
  match q[k]? with
  | none => s
  | some x => if lasting ∧ (s.stream sid).run ≠ Run.free then t.setStream sid { st with scalars := Tab.set st.scalars e.code (q.set k { x with val := BitVec.ofNat 64 (s.free 0) }) } else t

/-- A word of the format queue, likewise. -/
def State.formatUpset (s : State) (sid k : Nat) (lasting : Bool) : State :=
  let t := s.sramError sid 0 lasting
  let st := t.stream sid
  if lasting ∧ (s.stream sid).run ≠ Run.free then t.setStream sid { st with fmtq := st.fmtq.set k (BitVec.ofNat 64 (s.free 0)) } else t

/-- A word of a nest table, likewise: level and field by 8·level + field. -/
def State.nestUpset (s : State) (sid : Nat) (shadow : Bool) (k : Nat) (lasting : Bool) : State :=
  let t := s.sramError sid 0 lasting
  let st := t.stream sid
  let bad (n : Nest) : Nest := Tab.set n (8 * (k / 8 % 7) + k % 8 % 6) (BitVec.ofNat 64 (s.free 0))
  if lasting ∧ (s.stream sid).run ≠ Run.free then
    t.setStream sid (if shadow then { st with nestShadow := bad st.nestShadow } else { st with nestActive := bad st.nestActive }) else t

/-- A line of the fetch buffer: after a lasting error it is dropped, and comes from its home again when it is next read (assumption 86). -/
def State.fetchUpset (s : State) (sid dva : Nat) (lasting : Bool) : State :=
  if (Tab.find (s.stream sid).fetch dva).isNone then s else
  let t := s.sramError sid dva lasting
  if lasting ∧ (s.stream sid).run ≠ Run.free then t.setStream sid { t.stream sid with fetch := Tab.erase (t.stream sid).fetch dva } else t

/-- An entry of a TLB: after a lasting error it is dropped, and its translation is walked again (R153; assumption 86). -/
def State.tlbUpset (s : State) (sid k : Nat) (lasting : Bool) : State :=
  match s.tlb[k]? with
  | none => s
  | some x =>
    let t := s.sramError sid x.2.2 lasting
    if lasting ∧ (s.stream sid).run ≠ Run.free then { t with tlb := t.tlb.eraseIdx k } else t

/-- A word that a sync engine holds: it stands for its word of device memory, whose next read meets the error (R20, R155). -/
def State.syncUpset (s : State) (k : Nat) (lasting : Bool) : State :=
  match s.syncWords[k]? with
  | none => s
  | some w => { s with memErr := Tab.put 0 s.memErr (w.2 / 8) (if lasting then 2 else 1) }

/-- An image in shadow storage is uncorrectable when it is read: logged for its world, and after a lasting error it does not verify any more
(R30, R227). -/
def State.shadowUpset (s : State) (place : Nat) (lasting : Bool) : State :=
  if place < 2 ^ 40 then s else
  match (Tab.find s.images place).or (Tab.find s.spent place) with
  | none => s
  | some i =>
    let s := s.logError i.stream.ident.wid (if lasting then 2 else 1) 1023 0 0 0
    let f (t : Tab Image) : Tab Image := t.map fun p => if p.1 = place ∧ lasting = true then (p.1, { p.2 with torn := true }) else p
    { s with images := f s.images, spent := f s.spent }

/-- A scratchpad granule of the k-th image of a shadow slot is uncorrectable when it is read: a lasting error poisons it, and the poison comes
back with the image (assumption 86). -/
def State.swapUpset (s : State) (slot k g : Nat) (lasting : Bool) : State :=
  match (Tab.find s.shadow slot).bind fun x => x.images[k]?.map fun q => (x, q) with
  | none => s
  | some (x, a, b, i) =>
    let s := s.logError i.stream.ident.wid (if lasting then 2 else 1) 1023 0 0 0
    let at' := spBase i.stream i.sid / 64 + g % (i.stream.spSize / 64)
    if lasting then { s with shadow := Tab.set s.shadow slot { x with images := x.images.set k (a, b, { i with spBad := Tab.put false i.spBad at' true }) } } else s

/-- A signed copy does not verify any more: 0 and 1 of the lease table and the accounts, else of the enrolment record. -/
def State.metaUpset (s : State) (copy : Nat) : State :=
  match copy with
  | 0 => { s with boot := { s.boot with copyA := { s.boot.copyA with good := false } } }
  | 1 => { s with boot := { s.boot with copyB := { s.boot.copyB with good := false } } }
  | 2 => { s with sec := { s.sec with copyA := { s.sec.copyA with good := false } } }
  | _ => { s with sec := { s.sec with copyB := { s.sec.copyB with good := false } } }

/-- One turn, given the meaning of instructions. A lasting fault of logic is raised at the lane its engine stands at, modulo 8 (assumption 113). -/
def State.takes (run : Instr → State → Result) (s : State) : Turn → Result
  | .lane sid e => s.engineTurn run sid e
  | .event i => if i.engine.isSome then .next s else run i s
  | .move k => .next (s.moveNth k)
  | .upset g lasting => .next { s with memErr := Tab.put 0 s.memErr g (if lasting then 2 else 1) }
  | .spUpset sid c g lasting => .next (s.spUpset sid c g lasting)
  | .early sid base off n => .next (s.loadEarly sid base off n)
  | .corrected => .next { s with corrected := s.corrected ++ [s.now] }
  | .spillUpset sid k lasting => .next (s.spillUpset sid k lasting)
  | .tileUpset sid row lasting => .next (s.tileUpset sid row lasting)
  | .planeUpset sid shadow row lasting => .next (s.planeUpset sid shadow row lasting)
  | .ringUpset sid r lasting => .next (s.ringUpset sid r lasting)
  | .tagUpset sid k lasting => .next (s.tagUpset sid k lasting)
  | .rowUpset sid k lasting => .next (s.rowUpset sid k lasting)
  | .scalarUpset sid e k lasting => .next (s.scalarUpset sid e k lasting)
  | .formatUpset sid k lasting => .next (s.formatUpset sid k lasting)
  | .nestUpset sid shadow k lasting => .next (s.nestUpset sid shadow k lasting)
  | .fetchUpset sid dva lasting => .next (s.fetchUpset sid dva lasting)
  | .tlbUpset sid k lasting => .next (s.tlbUpset sid k lasting)
  | .syncUpset k lasting => .next (s.syncUpset k lasting)
  | .sense die temp => .next (s.senseBetween die temp)
  | .shadowUpset place lasting => .next (s.shadowUpset place lasting)
  | .swapUpset slot k g lasting => .next (s.swapUpset slot k g lasting)
  | .metaUpset copy => .next (s.metaUpset copy)
  | .alarm detail => .next (s.lockdown 3 detail)
  | .logUpset wid => .next (s.lockdown 1 wid)
  | .syncOut die => .next (s.syncEvict die)
  | .flow k valid port id prio wid template => .next (s.writeFlow k { valid := valid, port := port, flow := id, prio := prio, wid := wid, template := template })
  | .bindPeer p dest => .next (s.bindPeer p dest)
  | .sendPacket link wid toPeer => .next (s.sendPacket link wid toPeer)
  | .peerPacket link wid ok => .next (s.peerPacket link wid ok)
  | .ideFail vf => .next (s.ideFail vf)
  | .spdmFail vf => .next (s.spdmFail vf)
  | .collect seq => .next (s.collect seq)
  | .logicFault sid e unit =>
    let st := s.stream sid
    if st.run = Run.free ∨ st.run = Run.stopped then .next s
    else
      .next (s.faultAt sid e (st.eng' e).line ((st.eng' e).lane % 8) { code := 0x1F, detail := BitVec.ofNat 64 (unit % 65536) })
  | .host sid =>
    if isService sid then .next (s.setCore (coreOf sid) { s.core (coreOf sid) with requests := (s.core (coreOf sid)).requests ++ [.host] }) else .next s

/-- One step, given the meaning of instructions. -/
def State.stepWith (run : Instr → State → Result) (s : State) : Result :=
  match s.takeTurn.2.takes run s.takeTurn.1 with
  | .next t => .next t.pass
  | .fault r => .fault r
  | .refused r => .refused r

/-- Where `withFetchWord` places its line. -/
def placeDva : Nat := 65536

/-- A stream of world 1 about to visit a line in a text page of its own, and its engine's turn next. -/
def State.placeWord (s : State) (e : Engine) (l : Line) : State :=
  let at' : EngState := { line := placeDva }
  let st : Stream := { s.stream 0 with
    run := .running, wide := false, ident := { (s.stream 0).ident with wid := 1 }, yielding := false
    wait := none, fetch := [], early := [], blocks := [(0, placeDva)], eng := [(1, at'), (2, at'), (3, at'), (4, at'), (5, at')] }
  let s := { s with
    mem := Memory.writeList s.mem placeDva (leBytes 32 l.toNat)
    pages := { wid := 1, dva := placeDva, dpa := placeDva, size := 0, cls := 0, zfill := false, x := true, w := false, r := false } :: s.pages
    boot := { s.boot with stage := 2, joined := [0, 1, 2, 3] }
    sched := [.lane 0 e] }
  (s.setStream 0 st).setCore 0 { s.core 0 with issuing := 0, switch := false }

end Sys2Proof.Machine
end

