-- ==== Sys2Proof/Machine/Step.lean ====
section
/-! DEFINITION. One step of the package: the turn that `sched` names, or a free one, then time passes. -/

namespace Sys2Proof.Machine

open Sys2Proof

/-- One step. -/
def step (s : State) : Host.Outcome State Fault Refusal := s.stepWith exec

/-- The state with an instruction where the next step fetches and runs it: a text page of world 1 that holds its line, a stream
of that world about to visit the line, and that stream's engine next in the schedule. -/
def State.withFetchWord (s : State) (nbits w : Nat) : State := s.placeWord (wordEngine (w % 2 ^ nbits % 2 ^ 32) (w % 2 ^ nbits / 2 ^ 32 % 2 ^ 32))
  (lineOfWord (wordEngine (w % 2 ^ nbits % 2 ^ 32) (w % 2 ^ nbits / 2 ^ 32 % 2 ^ 32)) (w % 2 ^ nbits % 2 ^ 32) (w % 2 ^ nbits / 2 ^ 32 % 2 ^ 32))

end Sys2Proof.Machine
end

