-- ==== Sys2Proof/Safety.lean ====
section
/-! DEFINITION. What counts as a safe step, and the frames and results that claims are stated with. -/

namespace Sys2Proof.Machine

open Sys2Proof

/-- The step goes on: the model stops nowhere. -/
def State.safe (s : State) : Prop := ∃ t, step s = .next t

/-- Device memory is in its canonical form. -/
def State.memoryWf (s : State) : Bool := Memory.wf s.mem

/-- The instruction completes, in a next state with a property. -/
def Completes (i : Instr) (s : State) (P : State → Prop) : Prop := ∃ t, exec i s = .next t ∧ P t

/-- Every link carries what is sent over it: no frame waits to go out again (R16), and no world is being reset (R289). -/
def State.linksIdle (s : State) : Prop := ∀ p ∈ s.links, p.2.fails = 0 ∧ p.2.flush = []

/-- No S store is on its way or kept in an image, no release is pending with a value, and the links are idle. -/
def State.noStores (s : State) : Prop :=
  s.queue = [] ∧ s.atCore = [] ∧ s.atGrp = [] ∧ s.atDie = [] ∧ s.rels = [] ∧ s.imageStores = [] ∧ s.linksIdle

/-- No S store is on its way, no release is pending with a value, the links are idle, no load of the issuing stream was performed ahead
of its turn, and no granule of device memory is poisoned, in error, left by a torn-down world or sealed in an image. -/
def State.quiet (s : State) : Prop :=
  s.noStores ∧ s.me.early = [] ∧ s.memBad = [] ∧ s.memErr = [] ∧ s.stale = [] ∧ s.images = [] ∧ s.spent = []

/-! ### Waits -/

/-- The look at a parked stream's wait ends it: the stream runs, with S at the line after the wait's (R72). -/
def Woken (s : State) (sid : Nat) (w : Wait) : Prop := Completes (.waitWake sid) s fun t =>
  (t.stream sid).run = .running ∧ (t.stream sid).wait = none ∧ ((t.stream sid).eng' .s).line = w.line + 32 ∧ t.mem = s.mem ∧
  ∀ k, k ≠ sid → t.stream k = s.stream k

/-- The look at a parked stream's wait leaves it as it is. -/
def StaysParked (s : State) (sid : Nat) (w : Wait) : Prop := Completes (.waitWake sid) s fun t =>
  (t.stream sid).run = .parked ∧ t.mem = s.mem ∧ (∀ k, k ≠ sid → t.stream k = s.stream k) ∧
  ∃ v, (t.stream sid).wait = some v ∧ v.instr = w.instr ∧ v.line = w.line ∧ v.lane = w.lane

/-! ### Contexts -/

/-- a has what Table 9.6 names of b's own: its registers, rows, masks and predicates, the CSRs, the engines with their positions, the wait and the
fault, the FIFOs, the nest tables, the spill memory, the tags, the work in flight, the ports and subscriptions, the request and the identity. -/
def SameContext (a b : Stream) : Prop :=
  a.run = b.run ∧ a.wide = b.wide ∧ a.ident = b.ident ∧ a.s = b.s ∧ a.p = b.p ∧ a.m = b.m ∧ a.v = b.v ∧ a.ovf = b.ovf ∧ a.e = b.e ∧
  a.win = b.win ∧ a.winNow = b.winNow ∧ a.stbase = b.stbase ∧ a.stlim = b.stlim ∧ a.wdog = b.wdog ∧ a.lcid = b.lcid ∧
  a.fcode = b.fcode ∧ a.faddr = b.faddr ∧ a.fline = b.fline ∧ a.feng = b.feng ∧ a.evt = b.evt ∧
  a.eng = b.eng ∧ a.blocks = b.blocks ∧ a.rot = b.rot ∧ a.wait = b.wait ∧ a.fault = b.fault ∧ a.faultEng = b.faultEng ∧
  a.tokens = b.tokens ∧ a.scalars = b.scalars ∧ a.fmtq = b.fmtq ∧ a.nestActive = b.nestActive ∧ a.nestShadow = b.nestShadow ∧
  a.spill = b.spill ∧ a.tags = b.tags ∧ a.cmds = b.cmds ∧ a.awrites = b.awrites ∧ a.vq = b.vq ∧ a.fres = b.fres ∧
  a.vty = b.vty ∧ a.cond = b.cond ∧ a.ports = b.ports ∧ a.subs = b.subs ∧ a.migrate = b.migrate ∧ a.yielding = b.yielding

/-! ### Gate flips -/

/-- The flip of a gate is made: its word counts one more, with the owner in bit 0, no other byte of device memory changes, and the range is
the owner's (R268). -/
def State.Flipped (s : State) (g : Gate) (owner : Bool) (t : State) : Prop :=
  (∀ i < 8, Memory.read t.mem (g.dpa + i) = (leBytes 8 (2 * (leNat (Memory.readList s.mem g.dpa 8) / 2 + 1) + owner.toNat)).getD i 0) ∧
  (∀ b, (b < g.dpa ∨ g.dpa + 8 ≤ b) → Memory.read t.mem b = Memory.read s.mem b) ∧
  ∀ h ∈ t.gates, h.dpa = g.dpa → h = { g with owner := owner, flipping := false }

/-! ### Frames -/

/-- Only the issuing stream changes: every byte of device memory, every core, lease, region, gate, world and link, and every
other stream are as before. -/
def OnlyMe (s t : State) : Prop := t = { s with streams := t.streams } ∧ ∀ k, k ≠ s.cur.sid → t.stream k = s.stream k

/-- Only S[d] of the issuing stream changes; loads performed ahead with it as their base are let go (R188). -/
def OnlyS (d : SReg) (s t : State) : Prop :=
  OnlyMe s t ∧ t.me = { s.me with s := t.me.s, early := t.me.early } ∧ ∀ r, r ≠ d → t.getS r = s.getS r

/-- Only P[d] of the issuing stream changes. -/
def OnlyP (d : PReg) (s t : State) : Prop :=
  OnlyMe s t ∧ t.me = { s.me with p := t.me.p } ∧ ∀ r, r ≠ d → t.getP r = s.getP r

/-- Only E[x][d] of the issuing stream changes. -/
def OnlyE (x : Engine) (d : EReg) (s t : State) : Prop :=
  OnlyMe s t ∧ t.me = { s.me with e := t.me.e } ∧ ∀ y r, (y ≠ x ∨ r ≠ d) → t.getE y r = s.getE y r

/-! ### Results -/

/-- The instruction completes: it writes v to S[d], nothing where d is s0, which reads 0 (R98), and leaves the rest as before. -/
def ResultS (i : Instr) (s : State) (d : SReg) (v : Word) : Prop :=
  Completes i s fun t => t.getS d = (if d = 0 then 0 else v) ∧ OnlyS d s t

/-- The instruction completes: it writes b to P[d], nothing where d is p0, which reads 1 (R98), and leaves the rest as before. -/
def ResultP (i : Instr) (s : State) (d : PReg) (b : Bool) : Prop :=
  Completes i s fun t => t.getP d = (d == 0 || b) ∧ OnlyP d s t

/-- Element k of a row at an element size in bytes (R113). -/
def laneAt (bytes : Nat) (x : Row) (k : Nat) : Nat := bits x.toNat (8 * bytes * k) (8 * bytes)

/-- Element k of V[n] at the type in force. -/
def State.lane (s : State) (n k : Nat) : Nat := laneAt (tyBytes s.vty) (s.me.row (s.phys n)) k

/-- An engine of the issuing stream has acquired every row write of the others (R76, R389). -/
def State.acquired (s : State) (e : Engine) : Prop := ∀ n, s.me.unknown e n = []

/-- Only tile row n of the issuing stream changes, with what the model keeps of row writes (R75, R76). -/
def OnlyRow (n : Nat) (s t : State) : Prop :=
  OnlyMe s t ∧ t.me = { s.me with v := t.me.v, fRace := t.me.fRace, fres := t.me.fres, made := t.me.made } ∧ ∀ k, k ≠ n → t.me.row k = s.me.row k

/-- The instruction completes: element k of V[d] becomes f k, and the rest is as before. -/
def ResultV (i : Instr) (s : State) (d : VReg) (f : Nat → Nat) : Prop :=
  Completes i s fun t => (∀ k < s.lanes, laneAt (tyBytes s.vty) (t.me.row (s.phys d.val)) k = f k) ∧ OnlyRow (s.phys d.val) s t

/-- The instruction completes: bit k of M[d] becomes f k, but m0 stays all ones (R390), and the rest is as before. -/
def ResultM (i : Instr) (s : State) (d : MReg) (f : Nat → Bool) : Prop :=
  Completes i s fun t => (∀ k < 1024, (t.getM d).getLsbD k = (d == 0 || f k)) ∧ OnlyMe s t ∧ t.me = { s.me with m := t.me.m } ∧
    ∀ r, r ≠ d → t.getM r = s.getM r

/-- Byte a of the issuing stream's scratchpad window (R140). -/
def State.spAt (s : State) (a : Nat) : Byte := Memory.read (s.core (coreOf s.cur.sid)).sp (s.vBase + a)

/-- The number in w bytes at an offset of the issuing stream's window. -/
def State.spNat (s : State) (a w : Nat) : Nat := leNat ((List.range w).map fun i => s.spAt (a + i))

/-- Only scratchpad bytes of the issuing core change; f gives the bytes of the issuing stream's window, by offset, and bytes
outside the window stay. -/
def OnlySp (f : Nat → Byte) (s t : State) : Prop :=
  t = { s with cores := t.cores } ∧ (∀ c, c ≠ coreOf s.cur.sid → t.core c = s.core c) ∧
  t.core (coreOf s.cur.sid) = { s.core (coreOf s.cur.sid) with sp := (t.core (coreOf s.cur.sid)).sp, spBad := (t.core (coreOf s.cur.sid)).spBad } ∧
  (∀ a, t.spAt a = f a) ∧ ∀ a < s.vBase, Memory.read (t.core (coreOf s.cur.sid)).sp a = Memory.read (s.core (coreOf s.cur.sid)).sp a

/-- Σ over a pass's activations of a(k)·(w(k, n) − z(k / 32, n)), with codes of 8 bits (R118). -/
def State.dot8 (s : State) (an n : Nat) (act : List Byte) : Int :=
  (act.zipIdx.map fun p => p.1.toInt *
    (((Memory.read s.rows (arrayAddr an p.2 + n)).toNat : Int) - ((Memory.read s.rows (arrayAddr an (256 + p.2 / 32) + n)).toNat : Int))).sum

/-- Firmware's next request of its world is q, from a stream's TRAP, or from the host, of a service at a block (R281, R394, R395). -/
def State.asked (s : State) (q : TrapReq) (sid blk svc : Nat) : Prop :=
  (s.traps.find? fun t => t.sid == sid && t.blk == blk && t.svc == svc) = some q ∧ (s.traps.find? fun t => t.wid == q.wid) = some q

/-- The request is answered with a word n at its STATUS, where no text runs from that page (R90), and a TRAP that made it may retire (R395). -/
def Answered (t : State) (q : TrapReq) (n : Nat) : Prop :=
  q ∉ t.traps ∧ (q.sid ≠ noSid → (t.stream q.sid).trap = some true) ∧
  ∀ d, (∀ i < 8, t.dpa q.wid (q.blk + serviceStatus q.svc + i) = some (d + i)) → t.textFree q.wid (q.blk + serviceStatus q.svc) 8 = true → Memory.readList t.mem d 8 = leBytes 8 n

/-- The step of firmware that carries out a request of a service: its row of the table, by the block's words (R394). -/
def State.serviceStep (s : State) (sid wid blk svc : Nat) : Instr :=
  let w (off : Nat) : Nat := s.blockWord sid wid blk off
  match svc with
  | 1 => .map sid blk
  | 2 => .unmap sid blk
  | 3 => (match w 0 % 4 with | 0 => .leaseRequest sid blk | 1 => .leaseWake sid blk | 2 => .leaseReserve sid blk | _ => .leaseEop sid blk)
  | 4 => .unlease sid blk
  | 5 => if w 0 = 1 then .evidenceCollectRecord sid blk else .evidenceWorldReport sid blk
  | 6 => .scanmake sid blk
  | 7 => if bits (w 16) 16 1 = 1 then .gatebindUnbind sid blk else .gatebindBind sid blk
  | _ => if w 8 = 1 then .resumeAbandon sid blk else .resumeRetry sid blk

/-! ### Rounding -/

/-- The size of a finite value m · 2^e at unit 2^u. -/
def sizeAt (m : Nat) (e u : Int) : Nat := m * 2 ^ (e - u).toNat

/-- r is a value of a float type nearest to (−1)^neg · m · 2^e: the infinity of its sign from halfway beyond the largest finite value on (Table 5.7),
else a finite value of its sign to which no other value of the type is nearer; of two as near, the one with an even last digit, or the larger where ties go `away` (R131). -/
def Nearest (t : Ty) (away : Bool) (neg : Bool) (m : Nat) (e : Int) (r : Nat) : Prop :=
  let h : Int := (2 ^ expBits t : Nat) - 3 - bias t - fracBits t
  let beyond : Prop := ∃ u, u ≤ e ∧ u ≤ h ∧ (2 ^ (fracBits t + 2) - 1) * 2 ^ (h - u).toNat ≤ sizeAt m e u
  (beyond → r = infBits t neg) ∧
  (¬beyond → r < 2 ^ tyBits t ∧ ∃ n f, decodeFloat t r = .fin neg n f ∧ ∀ c a k g u, c < 2 ^ tyBits t → decodeFloat t c = .fin a k g → u ≤ e → u ≤ f → u ≤ g →
    let far (x : Int) : Nat := (x - sAt neg m e u).natAbs
    far (sAt neg n f u) ≤ far (sAt a k g u) ∧ (far (sAt neg n f u) = far (sAt a k g u) → sAt neg n f u ≠ sAt a k g u →
      if away then sizeAt k g u ≤ sizeAt n f u else r % 2 = 0))

/-- r is the largest value of a float type, in size, that is not beyond (−1)^neg · m · 2^e, with its sign. -/
def Inward (t : Ty) (neg : Bool) (m : Nat) (e : Int) (r : Nat) : Prop :=
  r < 2 ^ tyBits t ∧ ∃ n f, decodeFloat t r = .fin neg n f ∧ (∀ u, u ≤ e → u ≤ f → sizeAt n f u ≤ sizeAt m e u) ∧
    ∀ c a k g u, decodeFloat t c = .fin a k g → u ≤ e → u ≤ f → u ≤ g → sizeAt k g u ≤ sizeAt m e u → sizeAt k g u ≤ sizeAt n f u

/-- r is the smallest value of a float type, in size, that (−1)^neg · m · 2^e is not beyond, with its sign: an infinity where no finite one is. -/
def Outward (t : Ty) (neg : Bool) (m : Nat) (e : Int) (r : Nat) : Prop :=
  (r = infBits t neg ∧ ∀ c a k g u, decodeFloat t c = .fin a k g → u ≤ e → u ≤ g → sizeAt k g u < sizeAt m e u) ∨
  (r < 2 ^ tyBits t ∧ ∃ n f, decodeFloat t r = .fin neg n f ∧ (∀ u, u ≤ e → u ≤ f → sizeAt m e u ≤ sizeAt n f u) ∧
    ∀ c a k g u, decodeFloat t c = .fin a k g → u ≤ e → u ≤ f → u ≤ g → sizeAt m e u ≤ sizeAt k g u → sizeAt n f u ≤ sizeAt k g u)

/-- r is (−1)^neg · m · 2^e rounded to a float type in a mode (R131). -/
def Rounded (t : Ty) (mode : Rnd) (neg : Bool) (m : Nat) (e : Int) (r : Nat) : Prop :=
  match mode with
  | .rne => Nearest t false neg m e r
  | .rna => Nearest t true neg m e r
  | .rz => Inward t neg m e r
  | .rdn => if neg then Outward t neg m e r else Inward t neg m e r
  | .rup => if neg then Inward t neg m e r else Outward t neg m e r

/-- q is (−1)^neg · m · 2^e rounded to an integer in a mode (R131). -/
def RoundedInt (mode : Rnd) (neg : Bool) (m : Nat) (e : Int) (q : Int) : Prop := ∀ u, u ≤ e → u ≤ 0 →
  let one : Nat := 2 ^ (-u).toNat
  let x : Int := sAt neg m e u
  let far : Nat := (q * one - x).natAbs
  match mode with
  | .rne => 2 * far ≤ one ∧ (2 * far = one → q % 2 = 0)
  | .rna => 2 * far ≤ one ∧ (2 * far = one → x.natAbs ≤ q.natAbs * one)
  | .rz => 0 ≤ q * x ∧ q.natAbs * one ≤ x.natAbs ∧ x.natAbs < (q.natAbs + 1) * one
  | .rdn => q * one ≤ x ∧ x < (q + 1) * one
  | .rup => (q - 1) * one < x ∧ x ≤ q * one

/-- The least and the greatest value of an integer type (R113). -/
def leastOf (t : Ty) : Int := if t = .n8 then 0 else -(2 ^ (tyBits t - 1))
def greatestOf (t : Ty) : Int := if t = .n8 then 255 else 2 ^ (tyBits t - 1) - 1

/-- r is what a source value converts to, at a type, in a mode, with SAT or without (Table 5.7). -/
def Converted (t : Ty) (mode : Rnd) (sat : Bool) (r : Nat) : FVal → Prop
  | .nan => r = if isFloat t then cnan t else 0
  | .inf a => if isFloat t then r = infBits t a else (r : Int) = (if sat then (if a then leastOf t else greatestOf t) else 0) % 2 ^ tyBits t
  | .fin a m e =>
    if isFloat t then ∃ q, Rounded t mode a m e q ∧ r = if sat = true ∧ q = infBits t a then infBits t a - 1 else q
    else ∃ q, RoundedInt mode a m e q ∧ (r : Int) = (if sat then max (leastOf t) (min (greatestOf t) q) else q) % 2 ^ tyBits t

/-- The value of an element of VCVT's source, at a type other than rns (R113). -/
def sourceValue (t : Ty) (b : Nat) : FVal :=
  if isFloat t then decodeFloat t b
  else let x : Int := if t = .n8 then (b % 256 : Nat) else signed (tyBits t) b
    .fin (decide (x < 0)) x.natAbs 0

/-- One value is less than another; −0 and +0 are equal, and a NaN is in no order (R401). -/
def Less : FVal → FVal → Prop
  | .inf a, .inf b => a = true ∧ b = false
  | .inf a, .fin _ _ _ => a = true
  | .fin _ _ _, .inf b => b = false
  | .fin a m e, .fin b n f => ∃ u, u ≤ e ∧ u ≤ f ∧ sAt a m e u < sAt b n f u
  | _, _ => False

/-- One value stands below another in the order of VMIN and VMAX, where −0 is below +0 (R129). -/
def Below (x y : FVal) : Prop := Less x y ∨ ∃ e f, x = .fin true 0 e ∧ y = .fin false 0 f

/-- r is the exact sum of two finite values, rounded once by RNE; a sum of 0 is −0 only of two negative values (IEEE 754). -/
def RoundedSum (t : Ty) (a : Bool) (m : Nat) (e : Int) (b : Bool) (n : Nat) (f : Int) (r : Nat) : Prop :=
  ∃ p k u, r = encodeFloat t .rne false (.fin p k u) ∧ (k = 0 → p = (a && b)) ∧
    ∀ w, w ≤ u → w ≤ e → w ≤ f → sAt p k u w = sAt a m e w + sAt b n f w

/-! ### Real values -/

/-- A pattern of a float type stands for a finite real number. -/
def Denotes (t : Ty) (b : Nat) (x : ℝ) : Prop := ∃ neg m e, decodeFloat t b = .fin neg m e ∧ x = (if neg then -1 else 1) * (m : ℝ) * (2 : ℝ) ^ (e : ℤ)

/-- r is a real number that is not 0, rounded RNE to a float type: the infinity of its sign from halfway beyond the largest finite value on, else the
value of its sign to which none of the type is nearer, and of two as near the one with an even last digit (R131, R133). -/
def RoundsTo (t : Ty) (y : ℝ) (r : Nat) : Prop :=
  let beyond : Prop := (2 ^ (fracBits t + 2) - 1 : ℝ) * (2 : ℝ) ^ ((2 ^ expBits t : Nat) - 3 - bias t - fracBits t : ℤ) ≤ |y|
  (beyond → (0 < y → r = infBits t false) ∧ (y < 0 → r = infBits t true)) ∧
  (¬beyond → (0 < y → r < signBit t) ∧ (y < 0 → signBit t ≤ r ∧ r < 2 ^ tyBits t) ∧ ∃ x, Denotes t r x ∧
    ∀ c z, Denotes t c z → |x - y| ≤ |z - y| ∧ (|x - y| = |z - y| → z ≠ x → r % 2 = 0))

/-- y is the value of a function of F at x (R133). -/
def FFun.takes (f : FFun) (x y : ℝ) : Prop :=
  match f with
  | .exp2 => y = (2 : ℝ) ^ x
  | .log2 => y = Real.logb 2 x
  | .rcp => y = 1 / x
  | .rsq => y = 1 / Real.sqrt x
  | .tanh => y = Real.tanh x
  | .sigm => y = 1 / (1 + Real.exp (-x))
  | .erf => y = 2 / Real.sqrt Real.pi * intervalIntegral (fun u => Real.exp (-u ^ 2)) 0 x MeasureTheory.volume

/-! ### Trees and KYMIX -/

/-- The balanced binary tree over the first 2^n of a list of values, in their order: its two halves are such trees (R123, R130). -/
def balanced (f : Nat → Nat → Nat) : Nat → (Nat → Nat) → Nat
  | 0, g => g 0
  | n + 1, g => f (balanced f n g) (balanced f n fun i => g (i + 2 ^ n))

/-- KYMIX as R134 computes it, on numbers below 2³². -/
def kymixRule (seed index : Nat) : Nat :=
  let rotl (x n : Nat) : Nat := x * 2 ^ n % 2 ^ 32 + x / 2 ^ (32 - n)
  let p := [1, 2, 3, 4, 5, 6].foldl (fun (p : Nat × Nat) k =>
    let a := (p.1 + rotl p.2 5 + k * 0x7F4A7C15) % 2 ^ 32
    (a, rotl (p.2 ^^^ (a * 0x2545F491 % 2 ^ 32)) 11)) ((index % 2 ^ 32) ^^^ (seed % 2 ^ 32), (index / 2 ^ 32) ^^^ (seed / 2 ^ 32))
  p.1 ^^^ p.2

/-! ### Places and comparisons -/

/-- A place in device memory or in a scratchpad. -/
def Target.inMemory : Target → Prop
  | .dram _ _ => True
  | .sp _ _ => True
  | _ => False

/-- The truth of a comparison (Table 4.7, the column of CMP). -/
def cmpHolds (c : Cond) (x y : Word) : Bool :=
  match c with
  | .eq => x == y
  | .ne => x != y
  | .lt => decide (x.toInt < y.toInt)
  | .le => decide (x.toInt ≤ y.toInt)
  | .gt => decide (y.toInt < x.toInt)
  | .ge => decide (y.toInt ≤ x.toInt)
  | .ltn => decide (x.toNat < y.toNat)
  | .len => decide (x.toNat ≤ y.toNat)

end Sys2Proof.Machine
end

