-- ==== Sys2Proof/Certificates/Slice0/Obligations.lean ====
section
/-! DEFINITION. The statements for the provers. Each docstring names the rules of spec/ it formalises. -/

open Sys2Proof Sys2Proof.Machine

/-- R388, R301, R302, R363 and their neighbours: sums, differences, bit operations and choices, with nothing else changed. -/
def Obligations.IntegerResults : Prop := ∀ (s : State) (d a b : SReg) (p : PReg) (i : BitVec 7),
  ResultS (.add d a b) s d (BitVec.ofNat 64 ((s.getS a).toNat + (s.getS b).toNat)) ∧
  ResultS (.sub d a b) s d (BitVec.ofInt 64 ((s.getS a).toInt - (s.getS b).toInt)) ∧
  ResultS (.addi d a i) s d (BitVec.ofInt 64 ((s.getS a).toInt + i.toInt)) ∧
  (∃ v, ResultS (.and d a b) s d v ∧ ∀ k, v.getLsbD k = ((s.getS a).getLsbD k && (s.getS b).getLsbD k)) ∧
  (∃ v, ResultS (.or d a b) s d v ∧ ∀ k, v.getLsbD k = ((s.getS a).getLsbD k || (s.getS b).getLsbD k)) ∧
  (∃ v, ResultS (.xor d a b) s d v ∧ ∀ k, v.getLsbD k = ((s.getS a).getLsbD k ^^ (s.getS b).getLsbD k)) ∧
  (∃ v, ResultS (.andi d a i) s d v ∧ ∀ k < 64, v.getLsbD k = ((s.getS a).getLsbD k && i.getLsbD (Nat.min k 6))) ∧
  (∃ v, ResultS (.ori d a i) s d v ∧ ∀ k < 64, v.getLsbD k = ((s.getS a).getLsbD k || i.getLsbD (Nat.min k 6))) ∧
  (∃ v, ResultS (.xori d a i) s d v ∧ ∀ k < 64, v.getLsbD k = ((s.getS a).getLsbD k ^^ i.getLsbD (Nat.min k 6))) ∧
  ResultS (.min d a b) s d (if (s.getS a).toInt ≤ (s.getS b).toInt then s.getS a else s.getS b) ∧
  ResultS (.minn d a b) s d (if (s.getS a).toNat ≤ (s.getS b).toNat then s.getS a else s.getS b) ∧
  ResultS (.max d a b) s d (if (s.getS a).toInt < (s.getS b).toInt then s.getS b else s.getS a) ∧
  ResultS (.maxn d a b) s d (if (s.getS a).toNat < (s.getS b).toNat then s.getS b else s.getS a) ∧
  ResultS (.sel d a b p) s d (if s.getP p then s.getS a else s.getS b)

/-- R357: MULH and MULHN write bits [127:64] of the exact signed and unsigned product, and MUL the bits below (R356).
R327 and R370 with Tables 14.1 and 15.3: quotients toward zero, the remainders that go with them, a zero divisor, and the
quotient that wraps. -/
def Obligations.ProductsAndQuotients : Prop :=
  (∀ (s : State) (d a b : SReg), ∃ lo hi hiN : Word,
  ResultS (.mul d a b) s d lo ∧ ResultS (.mulh d a b) s d hi ∧ ResultS (.mulhn d a b) s d hiN ∧
  (s.getS a).toInt * (s.getS b).toInt = hi.toInt * 2 ^ 64 + lo.toNat ∧
  (s.getS a).toNat * (s.getS b).toNat = hiN.toNat * 2 ^ 64 + lo.toNat) ∧
  (∀ (s : State) (d a b : SReg), ∃ q r qN rN : Word,
  ResultS (.div d a b) s d q ∧ ResultS (.rem d a b) s d r ∧ ResultS (.divn d a b) s d qN ∧ ResultS (.remn d a b) s d rN ∧
  (s.getS b = 0 → q = BitVec.allOnes 64 ∧ qN = BitVec.allOnes 64 ∧ r = s.getS a ∧ rN = s.getS a) ∧
  ((s.getS a).toInt = -(2 ^ 63) ∧ (s.getS b).toInt = -1 → q = s.getS a ∧ r = 0) ∧
  (s.getS b ≠ 0 ∧ ¬((s.getS a).toInt = -(2 ^ 63) ∧ (s.getS b).toInt = -1) →
    (s.getS a).toInt = q.toInt * (s.getS b).toInt + r.toInt ∧ r.toInt.natAbs < (s.getS b).toInt.natAbs ∧
    q.toInt.natAbs = (s.getS a).toInt.natAbs / (s.getS b).toInt.natAbs) ∧
  (s.getS b ≠ 0 → (s.getS a).toNat = qN.toNat * (s.getS b).toNat + rN.toNat ∧ rN.toNat < (s.getS b).toNat))

/-- R319: CLZ counts the zero bits above the highest one bit, CTZ those below the lowest, POPC the one bits; 64, 64 and 0 for
the operand 0. -/
def Obligations.BitCounts : Prop := ∀ (s : State) (d a : SReg), ∃ c t p : Nat,
  ResultS (.clz d a) s d (BitVec.ofNat 64 c) ∧ ResultS (.ctz d a) s d (BitVec.ofNat 64 t) ∧ ResultS (.popc d a) s d (BitVec.ofNat 64 p) ∧
  (if s.getS a = 0 then c = 64 ∧ t = 64 else
    c < 64 ∧ (s.getS a).getLsbD (63 - c) = true ∧ (∀ k, 63 - c < k → (s.getS a).getLsbD k = false) ∧
    t < 64 ∧ (s.getS a).getLsbD t = true ∧ ∀ k, k < t → (s.getS a).getLsbD k = false) ∧
  p = ((List.range 64).filter fun k => (s.getS a).getLsbD k).length

/-- R378 to R381: shifts by any count; 64 or more leaves 0, or the sign.
R330, R336, R341, R344: fields taken out, with zeros or the field's sign above, a field put in, and immediates. The operand of
the last field is its length less 1. -/
def Obligations.ShiftsAndFields : Prop :=
  (∀ (s : State) (d a b : SReg) (n : Fin 64), ∃ l r x li ri xi : Word,
  ResultS (.shl d a b) s d l ∧ ResultS (.shr d a b) s d r ∧ ResultS (.sra d a b) s d x ∧
  ResultS (.shli d a n) s d li ∧ ResultS (.shri d a n) s d ri ∧ ResultS (.srai d a n) s d xi ∧
  l.toNat = (s.getS a).toNat * 2 ^ (s.getS b).toNat % 2 ^ 64 ∧ r.toNat = (s.getS a).toNat / 2 ^ (s.getS b).toNat ∧
  x.toInt = (s.getS a).toInt / 2 ^ (s.getS b).toNat ∧
  li.toNat = (s.getS a).toNat * 2 ^ n.val % 2 ^ 64 ∧ ri.toNat = (s.getS a).toNat / 2 ^ n.val ∧ xi.toInt = (s.getS a).toInt / 2 ^ n.val) ∧
  (∀ (s : State) (d a : SReg) (pos len : Fin 64) (imm : BitVec 32), pos.val + len.val < 64 →
  ∃ z x f l u : Word,
  ResultS (.ext d a pos len) s d z ∧ ResultS (.extS d a pos len) s d x ∧ ResultS (.ins d a pos len) s d f ∧
  ResultS (.limm d imm) s d l ∧ ResultS (.lup d imm) s d u ∧
  ∀ k < 64,
    z.getLsbD k = (decide (k ≤ len.val) && (s.getS a).getLsbD (pos.val + k)) ∧
    x.getLsbD k = (s.getS a).getLsbD (pos.val + Nat.min k len.val) ∧
    f.getLsbD k = (if pos.val ≤ k ∧ k ≤ pos.val + len.val then (s.getS a).getLsbD (k - pos.val) else (s.getS d).getLsbD k) ∧
    l.getLsbD k = imm.getLsbD (Nat.min k 31) ∧
    u.getLsbD k = (if k < 32 then (s.getS d).getLsbD k else imm.getLsbD (k - 32)))

/-- R320 and R366: CMP and CMPI write their comparison, or it joined to the old predicate; PLOG looks up its table. -/
def Obligations.Predicates : Prop := ∀ (s : State) (p q r : PReg) (c : Cond) (a b : SReg) (i : BitVec 7) (t : BitVec 4),
  ResultP (.cmp p c a b .set) s p (cmpHolds c (s.getS a) (s.getS b)) ∧
  ResultP (.cmp p c a b .and) s p (s.getP p && cmpHolds c (s.getS a) (s.getS b)) ∧
  ResultP (.cmp p c a b .or) s p (s.getP p || cmpHolds c (s.getS a) (s.getS b)) ∧
  ResultP (.cmpi p c a i) s p (cmpHolds c (s.getS a) (BitVec.ofInt 64 i.toInt)) ∧
  ResultP (.plog p q r t) s p (t.getLsbD (2 * (if s.getP q then 1 else 0) + (if s.getP r then 1 else 0)))

/-- R293, R98: the frame of the instructions of S that write only a scalar or a predicate: every byte of device memory, of the scratchpads and of the arrays, every
other stream, every other register, and the issuing stream's rows, E, CSRs and FIFOs, are after as before. -/
def Obligations.RegisterFrames : Prop := ∀ (s t : State) (d a b : SReg) (p q : PReg) (n : BitVec 7) (pos len : Fin 64) (c : Cond) (v : CmpMode) (w : BitVec 4) (imm : BitVec 32),
  (∃ i ∈ [Instr.add d a b, .sub d a b, .mul d a b, .mulh d a b, .mulhn d a b, .div d a b, .divn d a b, .rem d a b, .remn d a b, .and d a b, .or d a b, .xor d a b,
    .shl d a b, .shr d a b, .sra d a b, .min d a b, .minn d a b, .max d a b, .maxn d a b, .cmp p c a b v, .sel d a b p, .clz d a, .ctz d a, .popc d a, .addi d a n,
    .andi d a n, .ori d a n, .xori d a n, .shli d a pos, .shri d a pos, .srai d a pos, .cmpi p c a n, .limm d imm, .lup d imm, .ext d a pos len, .extS d a pos len,
    .ins d a pos len, .plog p q p w, .nop .s], exec i s = .next t) →
  (∀ x, Memory.read t.mem x = Memory.read s.mem x) ∧ (∀ k x, Memory.read (t.core k).sp x = Memory.read (s.core k).sp x) ∧ (∀ x, Memory.read t.rows x = Memory.read s.rows x) ∧
  (∀ k, k ≠ s.cur.sid → t.stream k = s.stream k) ∧ (∀ r, r ≠ d → t.getS r = s.getS r) ∧ (∀ r, r ≠ p → t.getP r = s.getP r) ∧
  t.me = { s.me with s := t.me.s, p := t.me.p, early := t.me.early } ∧ t.gates = s.gates ∧ t.leases = s.leases ∧ t.pages = s.pages

/-- R359 (NOP occupies a slot and does nothing else) and R360, R78 (NOTIFY leaves a notification with SID, engine code, tag and
iteration number for the world, and the end tag ends the engine's part of the iteration).
R62, R65, R127, R367: TOKS enters its token in the FIFO from S, QPUSH appends a register's value, EPOP takes the oldest value,
and FMTQ appends a format word, each when there is room (or an entry). -/
def Obligations.QueuesOfEngines : Prop :=
  (∀ (s : State) (e : Engine) (tag : BitVec 17),
  exec (.nop e) s = .next s ∧
  (¬((e = .m ∨ e = .c) ∧ s.me.busy e = true) →
    (tag ≠ 0x1FFFF → s.buffered (s.widOf s.cur.sid) < 64 →
      exec (.notify e tag) s = .next (s.setWorld (s.widOf s.cur.sid) { s.world (s.widOf s.cur.sid) with
        notes := (s.world (s.widOf s.cur.sid)).notes ++
          [leBytes 2 s.cur.sid ++ leBytes 1 e.code ++ leBytes 1 0 ++ leBytes 4 tag.toNat ++ leBytes 8 s.me.ident.iter] })) ∧
    (tag = 0x1FFFF → e = s.cur.eng →
      Completes (.notify e tag) s fun t => (t.me.eng' e).ended = true ∧ (t.me.eng' e).loops = [] ∧ t.mem = s.mem ∧ t.worlds = s.worlds ∧
        ∀ f, f ≠ e → t.me.eng' f = s.me.eng' f))) ∧
  (∀ (s : State) (e : Engine) (v : Bool) (a : SReg) (d : EReg) (x : Scalar) (q : List Scalar),
  ((s.me.fifo .s e).length < 16 → Completes (.toks e v) s fun t =>
    t.me.fifo .s e = s.me.fifo .s e ++ [v] ∧ (∀ f g, tokenKey f g ≠ tokenKey .s e → t.me.fifo f g = s.me.fifo f g) ∧ OnlyMe s t) ∧
  ((Tab.get [] s.me.scalars e.code).length < 32 → Completes (.qpush e a) s fun t =>
    (Tab.get [] t.me.scalars e.code).map (·.val) = (Tab.get [] s.me.scalars e.code).map (·.val) ++ [s.getS a] ∧ OnlyMe s t ∧
    t.me = { s.me with scalars := t.me.scalars }) ∧
  (Tab.get [] s.me.scalars e.code = x :: q → Completes (.epop e d) s fun t =>
    t.getE e d = x.val ∧ Tab.get [] t.me.scalars e.code = q ∧ (∀ y r, (y ≠ e ∨ r ≠ d) → t.getE y r = s.getE y r) ∧ OnlyMe s t) ∧
  (s.me.fmtq.length < 16 → Completes (.fmtq a) s fun t => t.me = { s.me with fmtq := s.me.fmtq ++ [s.getS a] } ∧ OnlyMe s t))

/-- R66, R67, R342, R112, Table 3.1: LOOP opens a level inside the loops that are open, with its count, stages and bounds, and its first body line is
the next; a count of 0 sends the engine past the body (past the longest where the line has left out another, the model's choice, assumption 151). It is ILLOP where its level is open, where it stages in a staged loop, rotates outside V or in
a rotating loop, takes T on S, or where its body leaves its block or the loop around it.
R70, R371: REP puts its count and its register steps in force on the engine's next lane, and is ILLOP where that lane may not
be its target. -/
def Obligations.LoopsAndRepeats : Prop :=
  (∀ (s : State) (e : Engine) (lvl : Fin 4) (cnt : Fin 32) (body : Fin 1024) (stages : Fin 9) (rot tok : Bool) (c : Nat),
  e = s.cur.eng → s.myEng.line = s.cur.line →
  c = (if e = .s then s.getS cnt else s.getE e (Fin.ofNat 8 cnt.val)).toNat % 2 ^ 32 →
  let last := s.cur.line + 32 * (body.val + 1)
  let bad : Prop := (rot = true ∧ e ≠ .v) ∨ (tok = true ∧ e = .s) ∨
    (∃ f ∈ s.myEng.loops, f.lvl = lvl.val ∨ (stages.val ≠ 0 ∧ f.stages ≠ 0) ∨ (rot = true ∧ f.rot = true) ∨ f.last < last) ∨
    ∃ i ≤ body.val, s.isBe s.cur.sid (s.cur.line + 32 * i) = true
  (bad → exec (.loop e lvl cnt body stages rot tok) s = .next s.illop) ∧
  (¬bad → Completes (.loop e lvl cnt body stages rot tok) s fun t =>
    (c = 0 → t.out = .moved ∧ (t.me.eng' e).skip = some (Nat.max (s.myEng.skip.getD 0) last) ∧ (t.me.eng' e).loops = s.myEng.loops) ∧
    (c ≠ 0 → t.out = .deferred ∧ (t.me.eng' e).loopTop = true ∧ ∃ f, (t.me.eng' e).loops = f :: s.myEng.loops ∧ f.lvl = lvl.val ∧ f.count = c ∧ f.i = 0 ∧
      f.first = s.cur.line + 32 ∧ f.last = last ∧ f.stages = stages.val ∧ f.rot = rot ∧ f.tok = tok ∧ f.ts = s.cur.ts ∧ f.out = Nat.max (s.myEng.skip.getD 0) last ∧
      f.iters = c + Nat.max stages.val 1 - 1) ∧
    t.mem = s.mem ∧ ∀ x, x ≠ e → t.me.eng' x = s.me.eng' x)) ∧
  (∀ (s : State) (e : Engine) (n : Fin 64) (dA dB dC : BitVec 3) (l : Line),
  e = s.cur.eng → s.lineAt s.cur.sid s.cur.line = some l →
  (s.badTarget s.cur.sid e dA.toInt dB.toInt dC.toInt = true → exec (.rep e n dA dB dC) s = .next s.illop) ∧
  (s.badTarget s.cur.sid e dA.toInt dB.toInt dC.toInt = false → Completes (.rep e n dA dB dC) s fun t =>
    (t.me.eng' e).rep = some { n := n.val + 1, j := 0, dA := dA.toInt, dB := dB.toInt, dC := dC.toInt } ∧
    (t.me.eng' e).lane = nextLane l e s.cur.lane ∧ t.out = .moved ∧ OnlyMe s { t with out := s.out } ∧
    ∀ f, f ≠ e → t.me.eng' f = s.me.eng' f))

/-- R107, R324: what CSRR reads of each unprivileged CSR that holds state of the stream; the numbers that PCID and SID read on a service core's
stream are the model's choice (assumption 3). R224: what firmware reads of each privileged one, of TVEC to EIE on a service core, where no other stream
has them, and of CTXCMD with OP 0; outside firmware each takes PRIV.
R91, R88, R107, R112, R325, R224, R228, R232, R234: CSRW of WIN stores its value clamped to 1 to 64, of WDOG restarts the count, of STBASE and
STLIM stores the value; LCID is firmware's to write and ILLOP to tenants; a read-only privileged CSR is ILLOP to any stream, and every other takes PRIV
outside firmware. Firmware's write of TVEC, EPC, ESCR and EIE, on a service core, of WTBASE, MIGBASE, CTXSID and CTXADDR stores the value, a bit the layout gives no
meaning being ILLOP (the model's reading of R5, assumption 9); its write of CTXCMD, PSWAP or PGATE starts the command with BUSY set, has STATUS 4
where OP or a zero field refuses it, and holds while BUSY is set. -/
def Obligations.ControlRegisters : Prop :=
  (∀ (s : State) (d : SReg),
  ResultS (.csrr d 0x001) s d (BitVec.ofNat 64 s.me.lcid) ∧ ResultS (.csrr d 0x002) s d (BitVec.ofNat 64 (s.cur.sid / 2)) ∧
  ResultS (.csrr d 0x003) s d (BitVec.ofNat 64 s.cur.sid) ∧ ResultS (.csrr d 0x004) s d (BitVec.ofNat 64 (s.widOf s.cur.sid)) ∧
  ResultS (.csrr d 0x005) s d (BitVec.ofNat 64 s.me.win) ∧ ResultS (.csrr d 0x006) s d s.me.stbase ∧ ResultS (.csrr d 0x007) s d s.me.stlim ∧
  ResultS (.csrr d 0x008) s d (s.me.evt.zeroExtend 64) ∧ ResultS (.csrr d 0x00A) s d (BitVec.ofNat 64 s.me.fmtq.length) ∧
  ResultS (.csrr d 0x00B) s d s.me.wdog ∧ ResultS (.csrr d 0x010) s d s.me.fcode ∧ ResultS (.csrr d 0x011) s d s.me.faddr ∧
  ResultS (.csrr d 0x012) s d s.me.fline ∧ ResultS (.csrr d 0x013) s d s.me.feng ∧
  (let k := s.core (coreOf s.cur.sid);
    (∀ p ∈ [((0x100 : BitVec 12), k.tvec), (0x101, k.epc), (0x102, k.ecause), (0x103, k.escr), (0x104, BitVec.ofNat 64 k.eie.toNat)],
      (isService s.cur.sid = true → ResultS (.csrr d p.1) s d p.2) ∧
      (s.firmware s.cur.sid = true → isService s.cur.sid = false → exec (.csrr d p.1) s = .next s.illop) ∧
      (s.firmware s.cur.sid = false → exec (.csrr d p.1) s = .next s.priv)) ∧
    ∃ cmd : Word, (∀ i < 64, cmd.getLsbD i = (s.me.ctxcmd.getLsbD i && decide (2 ≤ i))) ∧
      ∀ p ∈ [((0x110 : BitVec 12), s.wtbase), (0x120, s.me.ctxsid), (0x121, s.me.ctxaddr), (0x122, cmd), (0x128, s.me.pswap), (0x129, s.me.pgate),
          (0x130, s.me.migst), (0x131, s.migbase)],
        (s.firmware s.cur.sid = true → ResultS (.csrr d p.1) s d p.2) ∧ (s.firmware s.cur.sid = false → exec (.csrr d p.1) s = .next s.priv))) ∧
  (∀ (s : State) (a : SReg) (v : Word),
  let x := s.getS a
  let k := coreOf s.cur.sid
  let fw (n : BitVec 12) (here : Bool) (zero : Word) (t : State) : Prop :=
    exec (.csrw a n) s = .next (if s.firmware s.cur.sid then (if here = false ∨ x &&& zero ≠ 0 then s.illop else t) else s.priv)
  let starts (n : BitVec 12) (old : Word) (good : Prop) (started refused : Stream → Stream) : Prop :=
    (s.firmware s.cur.sid = false → exec (.csrw a n) s = .next s.priv) ∧
    (s.firmware s.cur.sid = true →
      (old.getLsbD 63 = true → Completes (.csrw a n) s fun t => t.out = .held ∧ OnlyMe s { t with out := s.out } ∧ t.me = { s.me with eng := t.me.eng }) ∧
      (old.getLsbD 63 = false → good → Completes (.csrw a n) s fun t => OnlyMe s t ∧ t.me = started s.me) ∧
      (old.getLsbD 63 = false → ¬good → Completes (.csrw a n) s fun t => OnlyMe s t ∧ t.me = refused s.me))
  Completes (.csrw a 0x005) s (fun t => t.me = { s.me with win := if x.toNat = 0 then 1 else if 64 < x.toNat then 64 else x.toNat } ∧ OnlyMe s t) ∧
  Completes (.winWrite v) s (fun t => t.me = { s.me with win := if v.toNat = 0 then 1 else if 64 < v.toNat then 64 else v.toNat } ∧ OnlyMe s t) ∧
  Completes (.csrw a 0x00B) s (fun t => t.me = { s.me with wdog := x, progAt := s.now } ∧ OnlyMe s t) ∧
  Completes (.wdogWrite v) s (fun t => t.me = { s.me with wdog := v, progAt := s.now } ∧ OnlyMe s t) ∧
  Completes (.csrw a 0x006) s (fun t => t.me = { s.me with stbase := x } ∧ OnlyMe s t) ∧
  Completes (.csrw a 0x007) s (fun t => t.me = { s.me with stlim := x } ∧ OnlyMe s t) ∧
  exec (.csrw a 0x001) s = .next (if s.firmware s.cur.sid then s.setMe { s.me with lcid := x.toNat } else s.illop) ∧
  exec (.csrw a 0x102) s = .next s.illop ∧ exec (.csrw a 0x130) s = .next s.illop ∧
  fw 0x100 (isService s.cur.sid) 31 (s.setCore k { s.core k with tvec := x }) ∧
  fw 0x101 (isService s.cur.sid) 0xFFFF000000000018 (s.setCore k { s.core k with epc := x }) ∧
  fw 0x103 (isService s.cur.sid) 0 (s.setCore k { s.core k with escr := x }) ∧
  fw 0x104 (isService s.cur.sid) (~~~1) (s.setCore k { s.core k with eie := x.getLsbD 0 }) ∧
  fw 0x110 true 4095 { s with wtbase := x } ∧
  fw 0x120 true (~~~1023) (s.setMe { s.me with ctxsid := x }) ∧
  fw 0x121 true 0 (s.setMe { s.me with ctxaddr := x }) ∧
  fw 0x131 true 65535 { s with migbase := x } ∧
  starts 0x122 s.me.ctxcmd (x &&& 0x0FFFFFFFFFFFFFFC = 0 ∧ (x.toNat % 4 = 1 ∨ x.toNat % 4 = 2))
    (fun st => { st with ctxcmd := BitVec.ofNat 64 (2 ^ 63 + x.toNat % 4), ctxDue := true, ctxNext := (st.ctxsid, st.ctxaddr) })
    (fun st => { st with ctxcmd := BitVec.ofNat 64 (4 * 2 ^ 60) }) ∧
  starts 0x128 s.me.pswap (x &&& 0x0FFFFFFFFFFF8CCC = 0 ∧ (x.toNat / 256 % 4 = 1 ∨ x.toNat / 256 % 4 = 2))
    (fun st => { st with pswap := BitVec.ofNat 64 (2 ^ 63 + x.toNat % 2 ^ 60), pswapDue := true })
    (fun st => { st with pswap := BitVec.ofNat 64 (4 * 2 ^ 60) ||| x &&& 0x7333 }) ∧
  starts 0x129 s.me.pgate (x &&& 0x0FFFFFFFFFFFFECC = 0)
    (fun st => { st with pgate := BitVec.ofNat 64 (2 ^ 63 + x.toNat % 2 ^ 60), pgateDue := true })
    (fun st => { st with pgate := BitVec.ofNat 64 (4 * 2 ^ 60) ||| x &&& 0x133 }))

/-- R339, R147, R138, R383, R384: a load of device memory with no store on its way and no error reads the size bytes at its address,
sign-extended, and changes nothing else; spill memory reads back what was written.
R138, R339, R340: with no store on its way, LD and LDACQ of the own scratchpad or of another core's window, where it is not poisoned, read the size
bytes that stand there, and of a ring word its value (Table 6.5), sign-extended, and change nothing else.
R195, R345, R340, R331: with no store on its way, MARK completes at once and changes nothing, LDACQ reads like a load, and a
FENCE whose engines have reached it completes at once. -/
def Obligations.LoadsAndOrder : Prop :=
  (∀ (s : State) (d b a : SReg) (sz : MemSize) (o : BitVec 5) (dpa : Nat) (p : Page) (n : Fin 1024),
  (s.quiet → (b = 31 → s.stackBad (addrAdd (s.getS b) (o.toInt * sizeBytes sz)) = false) →
    s.target s.cur.sid (addrAdd (s.getS b) (o.toInt * sizeBytes sz)) (sizeBytes sz) .read = .ok (.dram dpa p) →
    ResultS (.ld d b sz o) s d (BitVec.ofInt 64 (signed (8 * sizeBytes sz) (leNat (Memory.readList s.mem dpa (sizeBytes sz)))))) ∧
  ResultS (.spld d n) s d (Tab.get 0 s.me.spill n.val) ∧
  Completes (.spst a n) s fun t => Tab.get 0 t.me.spill n.val = s.getS a ∧ (∀ k, k ≠ n.val → Tab.get 0 t.me.spill k = Tab.get 0 s.me.spill k) ∧
    t.me = { s.me with spill := t.me.spill } ∧ OnlyMe s t) ∧
  (∀ (s : State) (d b : SReg) (sz : MemSize) (o : BitVec 5) (sc : Scope) (off : BitVec 20), s.quiet →
  let n := sizeBytes sz
  let loads (i : Instr) (a : Nat) : Prop := (b = 31 → s.stackBad a = false) →
    (∀ c q, s.target s.cur.sid a n .read = .ok (.sp c q) → Tab.get false (s.core c).spBad (q / 64) = false →
      ResultS i s d (BitVec.ofInt 64 (signed (8 * n) (leNat (Memory.readList (s.core c).sp q n))))) ∧
    ∀ c r w sub, s.target s.cur.sid a n .read = .ok (.ring c r w sub) →
      ResultS i s d (BitVec.ofInt 64 (signed (8 * n) ((s.ring c r).word w / 2 ^ (8 * sub) % 2 ^ (8 * n))))
  loads (.ld d b sz o) (addrAdd (s.getS b) (o.toInt * n)) ∧ loads (.ldacq d b sz sc off) (addrAdd (s.getS b) off.toInt)) ∧
  (∀ (s : State) (d b : SReg) (sz : MemSize) (sc : Scope) (off : BitVec 20) (k : FenceKind) (mask : BitVec 5)
  (dpa : Nat) (p : Page), s.quiet →
  exec .mark s = .next s ∧
  ((b = 31 → s.stackBad (addrAdd (s.getS b) off.toInt) = false) → s.target s.cur.sid (addrAdd (s.getS b) off.toInt) (sizeBytes sz) .read = .ok (.dram dpa p) →
    ResultS (.ldacq d b sz sc off) s d (BitVec.ofInt 64 (signed (8 * sizeBytes sz) (leNat (Memory.readList s.mem dpa (sizeBytes sz)))))) ∧
  (s.me.fenceReached mask s.myEng.blk s.myEng.visit s.cur.line = true → Completes (.fence sc k mask) s fun t =>
    t.mem = s.mem ∧ t.queue = [] ∧ t.out = s.out ∧ t.me = { s.me with acqs := t.me.acqs, seen := t.me.seen }))

/-- R147, R385, R387: a store enters S's store queue with its bytes; memory is unchanged until it leaves, and the store it leaves
is to the place its address names. A release waits for what precedes it. R139: with no store on its way, one through s31 to the
scratchpad is performed at once. One into a gated range is held while a flip before it in the text is to come (the model's reading of R268,
assumption 150).
R147, R186, R385: once a store to device memory has moved out to its home, the bytes it names are its data and every other
byte of device memory is as before. -/
def Obligations.StoresMoveOutward : Prop :=
  (∀ (s : State) (a b : SReg) (sz : MemSize) (o : BitVec 5) (sc : Scope) (off : BitVec 20) (t : Target),
  (s.target s.cur.sid (addrAdd (s.getS b) (o.toInt * sizeBytes sz)) (sizeBytes sz) .write (s.standsBehind s.cur.sid) = .ok t → b ≠ 31 →
    s.flipFirst (addrAdd (s.getS b) (o.toInt * sizeBytes sz)) (sizeBytes sz) = false →
    Completes (.st a b sz o) s fun u => ∃ x, u.queue = s.queue ++ [x] ∧ x.loc = t.loc ∧ x.data = leBytes (sizeBytes sz) (s.getS a).toNat ∧
      x.sid = s.cur.sid ∧ x.rel = none ∧ x.ts = s.cur.ts ∧ u = { s with queue := u.queue, nextId := u.nextId, out := u.out }) ∧
  (∀ c q, s.target s.cur.sid (addrAdd (s.getS 31) (o.toInt * sizeBytes sz)) (sizeBytes sz) .write (s.standsBehind s.cur.sid) = .ok (.sp c q) → s.quiet →
    s.flipFirst (addrAdd (s.getS 31) (o.toInt * sizeBytes sz)) (sizeBytes sz) = false → s.stackBad (addrAdd (s.getS 31) (o.toInt * sizeBytes sz)) = false →
    Completes (.st a 31 sz o) s fun u => u = { s with cores := u.cores } ∧
      (∀ i < sizeBytes sz, Memory.read (u.core c).sp (q + i) = (leBytes (sizeBytes sz) (s.getS a).toNat).getD i 0) ∧
      ∀ d x, (d ≠ c ∨ x < q ∨ q + sizeBytes sz ≤ x) → Memory.read (u.core d).sp x = Memory.read (s.core d).sp x) ∧
  (∀ q, s.target s.cur.sid (addrAdd (s.getS b) off.toInt) (sizeBytes sz) .write (s.standsBehind s.cur.sid) = .ok q → (s.realign s.cur.sid).2 = true →
    (s.realign s.cur.sid).1.target s.cur.sid (addrAdd (s.getS b) off.toInt) (sizeBytes sz) .write ((s.realign s.cur.sid).1.standsBehind s.cur.sid) = .ok t →
    (b = 31 → s.stackBad (addrAdd (s.getS b) off.toInt) = false) → s.flipFirst (addrAdd (s.getS b) off.toInt) (sizeBytes sz) = false →
    Completes (.strel a b sz sc off) s fun u => ∃ x, u.queue = (s.realign s.cur.sid).1.queue ++ [x] ∧ x.loc = t.loc ∧
      x.data = leBytes (sizeBytes sz) (s.getS a).toNat ∧ x.rel = some sc ∧ x.need = (s.realign s.cur.sid).1.cumulative s.cur.sid ∧
      u.mem = (s.realign s.cur.sid).1.mem) ∧
  (∀ i dva, (i = Instr.st a b sz o ∧ dva = addrAdd (s.getS b) (o.toInt * sizeBytes sz) ∨ i = Instr.strel a b sz sc off ∧ dva = addrAdd (s.getS b) off.toInt) →
    s.target s.cur.sid dva (sizeBytes sz) .write (s.standsBehind s.cur.sid) = .ok t → (b = 31 → s.stackBad dva = false) → s.flipFirst dva (sizeBytes sz) = true →
    exec i s = .next ((s.setMyEng { s.myEng with hold := .order }).held))) ∧
  (∀ (s : State) (st : Store) (a : Nat), st.loc = .dram a → st.rel = none → st.ts = none →
  s.mayMove 3 st = true → st ∈ s.atDie → s.flushed st = false → s.lateCheck st = none →
  (∀ i, i < st.data.length → Memory.read (s.moveStore 3 st).mem (a + i) = st.data.getD i 0) ∧
  (∀ c, (c < a ∨ a + st.data.length ≤ c) → Memory.read (s.moveStore 3 st).mem c = Memory.read s.mem c) ∧
  (s.moveStore 3 st).streams = s.streams)

/-- R142, R391: TSET names a slot and gives its old tag, with the tag in no other slot and every other slot and tag as before; TLOOK finds the slot of
a tag, TINV takes a tag out. -/
def Obligations.TagTable : Prop := ∀ (s : State) (d a b : SReg),
  ResultS (.tlook d a) s d (match s.me.slotOf (bits (s.getS a).toNat 12 36) with | some k => BitVec.ofNat 64 k | none => BitVec.allOnes 64) ∧
  ((s.getS b).toNat < (if s.me.wide then 256 else 128) → Completes (.tset d a b) s fun t =>
    t.me.slotOf (bits (s.getS a).toNat 12 36) = some (s.getS b).toNat ∧
    t.getS d = (if d = 0 then 0 else match Tab.find s.me.tags (s.getS b).toNat with | some g => BitVec.ofNat 64 (g * 4096) | none => BitVec.allOnes 64) ∧
    (∀ r, r ≠ d → t.getS r = s.getS r) ∧
    (∀ j, j ≠ (s.getS b).toNat → Tab.find t.me.tags j ≠ some (bits (s.getS a).toNat 12 36) ∧
      (Tab.find s.me.tags j ≠ some (bits (s.getS a).toNat 12 36) → Tab.find t.me.tags j = Tab.find s.me.tags j)) ∧
    (∀ g, g ≠ bits (s.getS a).toNat 12 36 → s.me.slotOf g ≠ some (s.getS b).toNat → t.me.slotOf g = s.me.slotOf g) ∧
    t.me = { s.me with tags := t.me.tags, s := t.me.s, early := t.me.early } ∧ OnlyMe s t) ∧
  Completes (.tinv a) s fun t => t.me.slotOf (bits (s.getS a).toNat 12 36) = none ∧
    (∀ g, g ≠ bits (s.getS a).toNat 12 36 → t.me.slotOf g = s.me.slotOf g) ∧ t.me = { s.me with tags := t.me.tags } ∧ OnlyMe s t

/-- R59, R308, R337, R421: where S goes on after a branch, a jump and a YIELD, each to a block of its own that starts there: it has the next number, S stands before
its first visit of its first line, and the stream knows its start, and those of the blocks that its engines have still to finish; what a
YIELD asks for is decided once the engines have drained the block, and until then the stream is marked as yielding.
R139, R309, R372: with the stack in the scratchpad and no store on its way, CALL pushes the line after its own, and S goes on at
its target; RET pops a line and branches there; every other byte of the scratchpad is as before.
R139, R340, R387: an LD, ST, LDACQ or STREL through s31 outside [STLIM, STBASE) takes STACK, with S[31] in DETAIL.
R79, R364: OVL with the S bit, when every engine its mask names has finished the block and retired, and S itself has no FENCE left, goes on at
the line of its register with an empty fetch buffer, and carries registers and S's open loops over. -/
def Obligations.BlocksEnd : Prop :=
  (∀ (s : State) (p : PReg) (sense : Bool) (o : BitVec 14) (j : BitVec 17),
  (exec (.br p sense o) s = .next (s.branch (if s.getP p != sense then lineAdd s.cur.line o.toInt else s.cur.line + 32))) ∧
  exec (.jmp j) s = .next (s.branch (lineAdd s.cur.line j.toInt)) ∧
  exec .yield s = .next ((s.setMe { s.me with yielding := true }).branch (s.cur.line + 32)) ∧
  ∀ n, let t := s.branch n
    (t.me.eng' .s).line = n ∧ (t.me.eng' .s).blk = (s.me.eng' .s).blk + 1 ∧ (t.me.eng' .s).visit = 0 ∧ (t.me.eng' .s).lane = 0 ∧ (t.me.eng' .s).atEnd = false ∧
    (t.me.eng' .s).loops = [] ∧ Tab.find t.me.blocks ((s.me.eng' .s).blk + 1) = some n ∧
    (∀ e, (s.me.eng' e).ended = false → (s.me.eng' e).blk ≤ (s.me.eng' .s).blk → Tab.find t.me.blocks (s.me.eng' e).blk = Tab.find s.me.blocks (s.me.eng' e).blk) ∧
    (∀ e, e ≠ .s → t.me.eng' e = s.me.eng' e) ∧ t.mem = s.mem ∧ t.me.s = s.me.s ∧ t.out = .moved) ∧
  (∀ (s : State) (o : BitVec 17) (sp c off : Nat), s.quiet →
  sp = (s.getS 31).toNat → c = coreOf s.cur.sid → spDva ≤ s.me.stlim.toNat → s.me.stbase.toNat ≤ s.spEnd → s.cur.line + 32 < 2 ^ 64 →
  (s.me.stlim.toNat + 8 ≤ sp → sp ≤ s.me.stbase.toNat → off = s.stackOff (sp - 8) →
    ∃ u : State, exec (.call o) s = .next ((u.setS 31 (BitVec.ofNat 64 (sp - 8))).branch (lineAdd s.cur.line o.toInt)) ∧
      u = { s with cores := u.cores } ∧ (∀ k, k ≠ c → u.core k = s.core k) ∧
      (∀ i < 8, Memory.read (u.core c).sp (off + i) = (leBytes 8 (s.cur.line + 32)).getD i 0) ∧
      ∀ a, (a < off ∨ off + 8 ≤ a) → Memory.read (u.core c).sp a = Memory.read (s.core c).sp a) ∧
  (s.me.stlim.toNat ≤ sp → sp + 8 ≤ s.me.stbase.toNat → off = s.stackOff sp → (s.core c).spBad = [] →
    leNat (Memory.readList (s.core c).sp off 8) % 32 = 0 →
    exec .ret s = .next ((s.setS 31 (BitVec.ofNat 64 (sp + 8))).branch (leNat (Memory.readList (s.core c).sp off 8))))) ∧
  (∀ (s : State) (d : SReg) (sz : MemSize) (o : BitVec 5) (sc : Scope) (off : BitVec 20),
  ((let a := addrAdd (s.getS 31) off.toInt; a < s.me.stlim.toNat ∨ s.me.stbase.toNat ≤ a) →
    exec (.ldacq d 31 sz sc off) s = .next (s.fault { code := 0x07, detail := s.getS 31 }) ∧
    exec (.strel d 31 sz sc off) s = .next (s.fault { code := 0x07, detail := s.getS 31 })) ∧
  ((let a := (addrAdd (s.getS 31) (o.toInt * sizeBytes sz)); a < s.me.stlim.toNat ∨ s.me.stbase.toNat ≤ a) →
  exec (.ld d 31 sz o) s = .next (s.fault { code := 0x07, detail := s.getS 31 }) ∧
  exec (.st d 31 sz o) s = .next (s.fault { code := 0x07, detail := s.getS 31 }))) ∧
  (∀ (s : State) (a : SReg) (mask : BitVec 5) (t dpa : Nat) (p : Page), s.quiet →
  mask.getLsbD 4 = true → t = (s.getS a).toNat → t % 32 = 0 → t < 0x800000000000 →
  s.pageCheck (s.widOf s.cur.sid) s.cur.sid t 32 .fetch = .ok (dpa, p) →
  (∀ e : Engine, e ≠ .s → inMask mask e = true → (s.me.eng' e).blk = s.myEng.blk ∧ (s.me.eng' e).atEnd = true ∧ s.me.busy e = false) →
  s.tryFences s.cur.sid = s → s.me.busy .s = false → s.pushClear s.cur.sid = true →
  exec (.ovl a mask) s = .next (((s.setMe { s.me with fetch := [] }).branch t).setMyEng
    { ((s.setMe { s.me with fetch := [] }).branch t).myEng with loops := s.myEng.loops }))

/-- R211, R213, R217: a fault of a compute stream that is not yet suspended suspends it, fills FCODE, FADDR, FLINE and FENG, and
leaves its registers, its spill memory, every scratchpad, device memory and every other stream as they were. -/
def Obligations.FaultsSuspend : Prop := ∀ (s : State) (sid : Nat) (e : Engine) (line lane : Nat) (prog : Bool) (f : FaultInfo),
  isService sid = false → (s.stream sid).run ≠ .suspended →
  let t := s.raise sid e line lane prog f
  (t.stream sid).run = .suspended ∧ (t.stream sid).fcode = BitVec.ofNat 64 f.code ∧ (t.stream sid).faddr = f.addr ∧
  (t.stream sid).fline = BitVec.ofNat 64 line ∧ (t.stream sid).feng = BitVec.ofNat 64 (e.code + 8 * lane) ∧
  (t.stream sid).s = (s.stream sid).s ∧ (t.stream sid).p = (s.stream sid).p ∧ (t.stream sid).v = (s.stream sid).v ∧
  (t.stream sid).e = (s.stream sid).e ∧ (t.stream sid).m = (s.stream sid).m ∧ (t.stream sid).spill = (s.stream sid).spill ∧ t.cores = s.cores ∧ t.mem = s.mem ∧
  (∀ k, k ≠ sid → t.stream k = s.stream k) ∧
  (t.world (s.widOf sid)).faults = (s.world (s.widOf sid)).faults ++ [s.faultRec sid e line lane prog f]

/-- R225, R329: on a service core a fault enters the handler: EPC names the lane, ECAUSE the code, EIE is 0 and S goes on at TVEC;
with EIE 0 the core stops in lockdown; and ERET goes to EPC with EIE set.
R335, R225, R329: HALT on a service core waits with no request pending, and with one takes the oldest (the model's choice, assumption 35) and enters the
handler with ECAUSE 0; ERET goes back; elsewhere both are illegal.
R225, R329: a pending request enters the handler of a service core at a block end, with EPC at the line and lane S is to begin at; the oldest goes first, which is the model's choice (assumption 35).
R394, R395: a TRAP whose block can be read and whose status can be written reaches firmware, behind the earlier requests of its world, and holds S
until its status is there; when it is, the TRAP retires. One with no earlier request of its world is carried out in the same step, as the step of its
service would carry it out (the model's choice, assumption 43). -/
def Obligations.HandlersEnterAndReturn : Prop :=
  (∀ (s : State) (sid : Nat) (e : Engine) (line lane : Nat) (prog : Bool) (f : FaultInfo),
  isService sid = true → line % 32 = 0 → lane < 8 → line < 2 ^ 48 → f.code < 32 →
  ((s.core (coreOf sid)).eie = true →
    let t := s.raise sid e line lane prog f
    (t.stream sid).run = .running ∧ (t.core (coreOf sid)).epc.toNat = line + lane ∧ (t.core (coreOf sid)).ecause.toNat = f.code ∧ (t.core (coreOf sid)).eie = false ∧
    ((t.stream sid).eng' .s).line = (s.core (coreOf sid)).tvec.toNat / 32 * 32 ∧ t.mem = s.mem ∧
    ((t.leaveHandler sid).core (coreOf sid)).eie = true ∧ (((t.leaveHandler sid).stream sid).eng' .s).line = line ∧
    (((t.leaveHandler sid).stream sid).eng' .s).first = (if lane = 0 then 1 else lane)) ∧
  ((s.core (coreOf sid)).eie = false → s.sec.lockdown = 0 →
    let t := s.raise sid e line lane prog f
    (t.stream sid).run = .stopped ∧ t.sec.lockdown = 5 ∧ t.core (coreOf sid) = s.core (coreOf sid))) ∧
  (∀ (s : State) (q : Request) (qs : List Request),
  (isService s.cur.sid = true →
    ((s.core (coreOf s.cur.sid)).requests = [] → Completes .halt s fun t => t.out = .held ∧ t.core (coreOf s.cur.sid) = s.core (coreOf s.cur.sid)) ∧
    ((s.core (coreOf s.cur.sid)).requests = q :: qs → (s.core (coreOf s.cur.sid)).eie = true →
      Completes .halt s fun t => (t.core (coreOf s.cur.sid)).requests = qs ∧ (t.core (coreOf s.cur.sid)).ecause = 0 ∧
        (t.core (coreOf s.cur.sid)).eie = false ∧ (t.me.eng' .s).line = (s.core (coreOf s.cur.sid)).tvec.toNat / 32 * 32) ∧
    exec .eret s = .next ((s.leaveHandler s.cur.sid).finish .moved)) ∧
  (isService s.cur.sid = false → exec .halt s = .next s.illop ∧ exec .eret s = .next s.illop)) ∧
  (∀ (s : State) (sid : Nat) (q : Request) (qs : List Request), isService sid = true →
  (s.core (coreOf sid)).requests = q :: qs → (s.core (coreOf sid)).eie = true → (s.stream sid).run = .running →
  (s.stream sid).sAtStart = true → (s.stream sid).drained = true →
  Completes (.handlerEntry sid) s fun t => (t.core (coreOf sid)).requests = qs ∧ (t.core (coreOf sid)).ecause = 0 ∧
    (t.core (coreOf sid)).epc = BitVec.ofNat 64 (((s.stream sid).eng' .s).line / 32 * 32 + ((s.stream sid).eng' .s).first % 8) ∧
    (t.core (coreOf sid)).eie = false ∧ ((t.stream sid).eng' .s).line = (s.core (coreOf sid)).tvec.toNat / 32 * 32 ∧ t.mem = s.mem) ∧
  (∀ (s : State) (a b : SReg) (svc blk : Nat) (x : TrapReq),
  (s.me.trap = some true → Completes (.trap a b) s fun t => t.me = { s.me with trap := none, early := [] } ∧ OnlyMe s t) ∧
  (s.me.trap = some false → Completes (.trap a b) s fun t => t = { s with out := .held }) ∧
  (s.quiet → s.me.trap = none → svc = (s.getS a).toNat → 1 ≤ svc → svc ≤ 8 → blk = (s.getS b).toNat →
    s.spanCheck s.cur.sid blk (serviceSize svc) .read (serviceSize svc) = none → s.spanCheck s.cur.sid (blk + serviceStatus svc) 8 .write 8 = none →
    let q : TrapReq := { sid := s.cur.sid, wid := s.widOf s.cur.sid, svc := svc, blk := blk }
    ((s.traps.find? fun q => q.wid == s.widOf s.cur.sid) = some x → x.sid ≠ s.cur.sid →
      Completes (.trap a b) s fun t => t.out = .held ∧ t.me.trap = some false ∧ t.traps = s.traps ++ [q] ∧ t.mem = s.mem) ∧
    ((s.traps.find? fun q => q.wid == s.widOf s.cur.sid) = none → (∀ q ∈ s.traps, q.sid ≠ s.cur.sid) → ∃ u v : State,
      u = { s with streams := u.streams, cores := u.cores, traps := s.traps ++ [q] } ∧ u.me = { s.me with trap := some false } ∧
      (∀ k, k ≠ s.cur.sid → u.stream k = s.stream k) ∧ (∀ c, u.core c = { s.core c with requests := (u.core c).requests }) ∧
      exec (u.serviceStep s.cur.sid (s.widOf s.cur.sid) blk svc) u = .next v ∧
      exec (.trap a b) s = .next (if v.me.trap = some true then v.setMe { v.me with trap := none, early := [] } else { v with out := .held }))))

/-- R72, R73, R417: WEVT takes the set bits its mask names, clears them and writes them; with none set it is kept as the stream's
wait.
R376, R86, R373: over idle links SEV sets the mask's event bits of a stream that runs an iteration of the issuing world, and
changes nothing for a service core's stream, which holds no launch iteration (its numbers are the model's, assumption 3); RNEXT hands out
the chunk of its range unit's remainder, and start 0 and count 0 where nothing remains or the unit is another world's (a service core's stream asks a
unit of die 0, the model's choice, assumption 131). -/
def Obligations.EventsAndRanges : Prop :=
  (∀ (s : State) (d : SReg) (mask : BitVec 8), mask ≠ 0 →
  (s.me.evt &&& mask ≠ 0 → Completes (.wevt d mask) s fun t =>
    t.me.evt = s.me.evt &&& ~~~mask ∧ t.getS d = (if d = 0 then 0 else (s.me.evt &&& mask).zeroExtend 64) ∧
    (∀ r, r ≠ d → t.getS r = s.getS r) ∧ t.me.wait = s.me.wait ∧ t.mem = s.mem ∧ t.out = .moved) ∧
  (s.me.evt &&& mask = 0 → Completes (.wevt d mask) s fun t => t.out = .held ∧ t.me.evt = s.me.evt ∧
    ∃ w, t.me.wait = some w ∧ w.instr = .wevt d mask ∧ w.line = s.cur.line ∧ w.lane = s.cur.lane)) ∧
  (∀ (s : State) (a d : SReg) (user : BitVec 3) (ev : Bool) (t n : Nat) (u : RangeUnit),
  (t = (s.getS a).toNat → t < 1024 → (user ≠ 0 ∨ ev = true) → s.linksIdle →
    (isService t = false → (s.stream t).run ≠ .free → s.widOf t = s.widOf s.cur.sid → Completes (.sev a user ev) s fun x =>
      (x.stream t).evt = (s.stream t).evt ||| BitVec.ofNat 8 (32 * user.toNat + ev.toNat) ∧ (∀ k, k ≠ t → x.stream k = s.stream k) ∧
      x = { s with streams := x.streams }) ∧
    (isService t = true → exec (.sev a user ev) s = .next s)) ∧
  (n = (s.getS a).toNat → n < 64 → d ≠ 0 → d ≠ 31 → u = Tab.get {} s.ranges (64 * s.me.ident.die + n) →
    (u.wid = s.widOf s.cur.sid → u.next < u.total → 1 ≤ u.p → ∀ q,
      (2 * u.p * q < u.total - u.next + 2 * u.p ∧ u.total - u.next ≤ 2 * u.p * q) →
      Completes (.rnext d a) s fun x => x.getS d = BitVec.ofNat 64 u.next ∧
        x.getS (d + 1) = BitVec.ofNat 64 (Nat.min (u.total - u.next) (Nat.max u.min q)) ∧ (∀ r, r ≠ d → r ≠ d + 1 → x.getS r = s.getS r) ∧
        Tab.get {} x.ranges (64 * s.me.ident.die + n) = { u with next := u.next + Nat.min (u.total - u.next) (Nat.max u.min q) } ∧
        (∀ k, k ≠ 64 * s.me.ident.die + n → Tab.get {} x.ranges k = Tab.get {} s.ranges k) ∧ x.mem = s.mem) ∧
    ((u.total ≤ u.next ∨ u.wid ≠ s.widOf s.cur.sid) → Completes (.rnext d a) s fun x =>
      x.getS d = 0 ∧ x.getS (d + 1) = 0 ∧ (∀ r, r ≠ d → r ≠ d + 1 → x.getS r = s.getS r) ∧ x.ranges = s.ranges ∧ x.mem = s.mem)))

/-- R143, R369, Table 6.4: with the ring ready and no store on its way, RCLAIM, RCOMMIT and RFREE add their count to CLAIM, COMMIT
and FREE where CLAIM + count - FREE and COMMIT + count - FREE, modulo 2^32, are at most n, and COMMIT - FREE is at least the count; RCLAIM gives the first slot, and RINIT sets the ring up with its counters at 0.
R143, R418, R199, R415: with no store on its way, WFILL, WFREE and WAITGE go on at once where their condition holds, and are
kept as the stream's wait where it does not; WAITGE's word is then the home sync engine's (R20).
R200, R306, Table 13.3: with no store on its way, BAR counts its arrival; the arrival that reaches the count completes the
episode and goes on, an earlier one is kept as the stream's wait with its episode. Every byte outside the word is as before. An arrival in a gated
range comes behind the flips before it in the text (the model's reading of R268, assumption 150). -/
def Obligations.RingsAndBarriers : Prop :=
  (∀ (s : State) (d a b : SReg) (r : Sys2Proof.Ring) (k : Nat) (x : Sys2Proof.Machine.Ring), s.quiet →
  k = (s.getS a).toNat → x = s.myRing r.val →
  (s.ringReady r.val = true → 1 ≤ k → k ≤ x.n →
    (x.claimedWith k ≤ x.n → Completes (.rclaim d r a) s fun t =>
      t.myRing r.val = { x with claim := x.claim + BitVec.ofNat 32 k } ∧
      t.getS d = (if d = 0 then 0 else BitVec.ofNat 64 (x.claim.toNat % x.n)) ∧ t.mem = s.mem) ∧
    (x.filledWith k ≤ x.n → Completes (.rcommit r a) s fun t =>
      t.myRing r.val = { x with commit := x.commit + BitVec.ofNat 32 k } ∧ t.mem = s.mem ∧ t.streams = s.streams) ∧
    (k ≤ x.filled → Completes (.rfree r a) s fun t =>
      t.myRing r.val = { x with free := x.free + BitVec.ofNat 32 k } ∧ t.mem = s.mem ∧ t.streams = s.streams)) ∧
  (x.claimedWith k = (x.claim.toNat + k + (2 ^ 32 - x.free.toNat)) % 2 ^ 32 ∧ x.filledWith k = (x.commit.toNat + k + (2 ^ 32 - x.free.toNat)) % 2 ^ 32) ∧
  (s.ownsRing r.val = true → k % 32 = 0 → (s.getS b).toNat < 2 ^ 32 → (s.getS b).toNat % 65536 % 32 = 0 →
    32 ≤ (s.getS b).toNat % 65536 → (s.getS b).toNat % 65536 ≤ 32768 → 1 ≤ (s.getS b).toNat / 65536 → (s.getS b).toNat / 65536 ≤ 4096 →
    k + (s.getS b).toNat / 65536 * ((s.getS b).toNat % 65536) ≤ s.me.spSize →
    Completes (.rinit r a b) s fun t =>
      t.myRing r.val = { offset := k, z := (s.getS b).toNat % 65536, n := (s.getS b).toNat / 65536 } ∧ t.mem = s.mem ∧ t.streams = s.streams)) ∧
  (∀ (s : State) (a b : SReg) (r : Sys2Proof.Ring) (sc : Scope) (off : BitVec 20) (k : Nat)
  (x : Sys2Proof.Machine.Ring) (dpa : Nat) (p : Page), s.quiet → k = (s.getS a).toNat → x = s.myRing r.val →
  (s.ringReady r.val = true → 1 ≤ k → k ≤ x.n →
    (k ≤ x.filled → exec (.wfill r a) s = .next (s.branch (s.cur.line + 32))) ∧
    (¬ k ≤ x.filled → Completes (.wfill r a) s fun t => t.out = .held ∧ ∃ w, t.me.wait = some w ∧ w.instr = .wfill r a) ∧
    (k ≤ (x.free + BitVec.ofNat 32 x.n - x.claim).toNat → exec (.wfree r a) s = .next (s.branch (s.cur.line + 32))) ∧
    (¬ k ≤ (x.free + BitVec.ofNat 32 x.n - x.claim).toNat → Completes (.wfree r a) s fun t => t.out = .held ∧ ∃ w, t.me.wait = some w ∧ w.instr = .wfree r a)) ∧
  (s.target s.cur.sid (addrAdd (s.getS b) off.toInt) 8 .read = .ok (.dram dpa p) →
    (k ≤ leNat (Memory.readList s.mem dpa 8) → ∃ u : State, exec (.waitge a b sc off) s = .next (u.branch (s.cur.line + 32)) ∧
      u = { s with syncKeys := u.syncKeys, syncWords := u.syncWords }) ∧
    (¬ k ≤ leNat (Memory.readList s.mem dpa 8) → Completes (.waitge a b sc off) s fun t => t.out = .held ∧
      ∃ w, t.me.wait = some w ∧ w.instr = .waitge a b sc off))) ∧
  (∀ (s : State) (b c : SReg) (a dpa w n : Nat) (p : Page), s.quiet →
  a = (s.getS b).toNat → n = (s.getS c).toNat → 1 ≤ n → n < 2 ^ 32 → s.atomicTarget s.cur.sid a 8 = .ok (dpa, p) → s.flipFirst a 8 = false →
  w = leNat (Memory.readList s.mem dpa 8) →
  Completes (.bar b c) s fun t =>
    (∀ d, (d < dpa ∨ dpa + 8 ≤ d) → Memory.read t.mem d = Memory.read s.mem d) ∧
    (n ≤ w % 2 ^ 32 + 1 → t.out = .moved ∧ ∀ i < 8, Memory.read t.mem (dpa + i) = (leBytes 8 ((w / 2 ^ 32 + 1) % 2 ^ 32 * 2 ^ 32)).getD i 0) ∧
    (¬ n ≤ w % 2 ^ 32 + 1 → t.out = .held ∧ (∀ i < 8, Memory.read t.mem (dpa + i) = (leBytes 8 (w + 1)).getD i 0) ∧
      ∃ x, t.me.wait = some x ∧ x.instr = .bar b c ∧ x.arrived = some (BitVec.ofNat 64 (w / 2 ^ 32))))

/-- R299, R300: with no store on its way, AMO on device memory gives the old value and leaves the sum, bits, minimum, maximum or
operand, in one step, and no other byte changes; AMO.ADD on a ring's COMMIT word adds to COMMIT. One in a gated range is held while a flip before
it in the text is to come (the model's reading of R268, assumption 150).
R295: ACAS writes where the old value is the expected one, and gives the old value either way; behind a flip it is held as AMO is. -/
def Obligations.AtomicsUpdate : Prop :=
  (∀ (s : State) (d b c : SReg) (op : AmoOp) (ord : Order) (sc : Scope) (dbl : Bool) (off : BitVec 20)
  (dpa n x v y : Nat) (p : Page) (k r w sub : Nat), s.quiet → n = (if dbl then 8 else 4) →
  (s.target s.cur.sid (addrAdd (s.getS b) off.toInt) n .atomic = .ok (.ring k r w sub) →
    exec (.amo d b c .add ord sc dbl off) s = .next ((s.setRing k r ((s.ring k r).add ((s.getS c).toNat % 2 ^ 32))).setS d ((s.ring k r).commit.zeroExtend 64))) ∧
  (∀ h, ¬(op = .add ∧ isCommit (addrAdd (s.getS b) off.toInt) = true) →
    s.atomicTarget s.cur.sid (addrAdd (s.getS b) off.toInt) n .atomic (s.standsBehind s.cur.sid) = .ok h → s.flipFirst (addrAdd (s.getS b) off.toInt) n = true →
    exec (.amo d b c op ord sc dbl off) s = .next ((s.setMyEng { s.myEng with hold := .order }).held)) ∧
  (s.atomicTarget s.cur.sid (addrAdd (s.getS b) off.toInt) n = .ok (dpa, p) → s.flipFirst (addrAdd (s.getS b) off.toInt) n = false →
  x = leNat (Memory.readList s.mem dpa n) → v = (s.getS c).toNat % 2 ^ (8 * n) →
  y = (match op with
    | .add => (x + v) % 2 ^ (8 * n) | .and => x &&& v | .or => x ||| v | .xor => x ^^^ v | .swap => v
    | .min => if signed (8 * n) x ≤ signed (8 * n) v then x else v | .max => if signed (8 * n) v ≤ signed (8 * n) x then x else v
    | .minn => if x ≤ v then x else v | .maxn => if v ≤ x then x else v) →
  Completes (.amo d b c op ord sc dbl off) s fun t =>
    t.getS d = (if d = 0 then 0 else BitVec.ofNat 64 x) ∧ (∀ r, r ≠ d → t.getS r = s.getS r) ∧
    (∀ i < n, Memory.read t.mem (dpa + i) = (leBytes n y).getD i 0) ∧
    ∀ a, (a < dpa ∨ dpa + n ≤ a) → Memory.read t.mem a = Memory.read s.mem a)) ∧
  (∀ (s : State) (d b e w : SReg) (ord : Order) (sc : Scope) (dbl : Bool) (off : BitVec 20)
  (dpa n x : Nat) (p : Page), s.quiet → n = (if dbl then 8 else 4) →
  (∀ h, s.atomicTarget s.cur.sid (addrAdd (s.getS b) off.toInt) n .atomic (s.standsBehind s.cur.sid) = .ok h → s.flipFirst (addrAdd (s.getS b) off.toInt) n = true →
    exec (.acas d b e w ord sc dbl off) s = .next ((s.setMyEng { s.myEng with hold := .order }).held)) ∧
  (s.atomicTarget s.cur.sid (addrAdd (s.getS b) off.toInt) n = .ok (dpa, p) → s.flipFirst (addrAdd (s.getS b) off.toInt) n = false →
  x = leNat (Memory.readList s.mem dpa n) →
  Completes (.acas d b e w ord sc dbl off) s fun t =>
    t.getS d = (if d = 0 then 0 else BitVec.ofNat 64 x) ∧ (∀ r, r ≠ d → t.getS r = s.getS r) ∧
    (∀ i < n, Memory.read t.mem (dpa + i) = (if x = (s.getS e).toNat % 2 ^ (8 * n) then (leBytes n ((s.getS w).toNat % 2 ^ (8 * n))).getD i 0
      else Memory.read s.mem (dpa + i))) ∧
    ∀ a, (a < dpa ∨ dpa + n ≤ a) → Memory.read t.mem a = Memory.read s.mem a))

/-- R338, R281: with no store on its way, LAUNCH of a record mapped in one page of a live world, whose queue's stack can be
reached, appends its 128 bytes and gives 0, and
gives 1 with nothing else changed when the queue is full.
R216, R217, R278, R16: the oldest waiting fault record, notification or error-log entry of a world goes into its queue when there is
room, no error in the queue's header, its stack can be reached and the link from its party to the hub is clear, and the entries behind it keep their
order; while that link sends a frame again it waits.
R278, R156: an entry appended to a world queue whose span is mapped in one piece, with no error in its header, stands in the slot of the tail, the tail is one more, and
no other byte of memory changes (a granule it fills is clean, and an image under those bytes is torn, R227). -/
def Obligations.QueueAppends : Prop :=
  (∀ (s : State) (d a : SReg) (r dpa : Nat) (p : Page), s.quiet →
  r = (s.getS a).toNat → r % 128 = 0 → r < 0x800000000000 → s.pageCheck (s.widOf s.cur.sid) s.cur.sid r 128 .read = .ok (dpa, p) →
  (∀ i < 128, s.page (s.widOf s.cur.sid) (r + i) = some p) → s.live (s.widOf s.cur.sid) = true →
  s.queueClear (coreOf s.cur.sid) (s.widOf s.cur.sid) 0x10 128 = true →
  (s.queueFull (s.widOf s.cur.sid) 0x10 = false →
    exec (.launch d a) s = .next ((s.queueAppend (s.widOf s.cur.sid) 0x10 (Memory.readList s.mem dpa 128)).setS d 0)) ∧
  (s.queueFull (s.widOf s.cur.sid) 0x10 = true → ResultS (.launch d a) s d 1)) ∧
  (∀ (s : State) (wid : Nat) (r : FaultRec) (rs : List FaultRec) (e : List Byte) (es : List (List Byte)),
  ((s.world wid).faults = r :: rs → s.queueFull wid 0 = false → s.queueClear 1023 wid 0 64 = true → s.entryClear r.sid = true → s.tryHeader wid 0 = (s, 0) → Completes (.faultRecordAppend wid) s fun t =>
    (t.world wid).faults = rs ∧ t.mem = (s.queueAppend wid 0 (r.bytes (s.queueTail wid 0 % 2 ^ 32))).mem ∧ t.cores = s.cores ∧
    ((s.stream r.sid).fault = some r → (t.stream r.sid).fault = some { r with seq := some (s.queueTail wid 0 % 2 ^ 32) })) ∧
  ((s.world wid).notes = e :: es → s.queueFull wid 0x20 = false → s.queueClear 1023 wid 0x20 16 = true → s.entryClear (leNat (e.take 2)) = true → s.tryHeader wid 0x20 = (s, 0) → Completes (.notificationAppend wid) s fun t =>
    (t.world wid).notes = es ∧ t.mem = (s.queueAppend wid 0x20 e).mem ∧ t.streams = s.streams) ∧
  ((s.world wid).errs = e :: es → s.queueFull wid 0x30 = false → s.queueClear 1023 wid 0x30 32 = true → s.entryClear (leNat ((e.drop 2).take 2)) = true → s.tryHeader wid 0x30 = (s, 0) → Completes (.errorLogAppend wid) s fun t =>
    (t.world wid).errs = es ∧ t.mem = (s.queueAppend wid 0x30 e).mem ∧ t.streams = s.streams) ∧
  ((s.world wid).notes = e :: es → s.entryClear (leNat (e.take 2)) = false → exec (.notificationAppend wid) s = .next s)) ∧
  (∀ (s : State) (wid off b d tail len : Nat) (entry : List Byte),
  b = s.queueBase wid off → tail = s.queueTail wid off → len = entry.length → s.tryHeader wid off = (s, 0) →
  (∀ i < 64 + len * s.queueSize wid off, s.dpa wid (b + i) = some (d + i)) →
  let slot := d + 64 + len * (tail % s.queueSize wid off)
  Memory.readList (s.queueAppend wid off entry).mem slot len = entry ∧ Memory.readList (s.queueAppend wid off entry).mem d 8 = leBytes 8 (tail + 1) ∧
  (∀ a, (a < slot ∨ slot + len ≤ a) → (a < d ∨ d + 8 ≤ a) → Memory.read (s.queueAppend wid off entry).mem a = Memory.read s.mem a) ∧
  let q := s.queueAppend wid off entry
  q = { s with mem := q.mem, images := q.images, spent := q.spent, memBad := q.memBad, memErr := q.memErr, fresh := q.fresh, rels := q.rels })

/-- R103, R107, R112, R329, R335: outside firmware the privileged functions of S take PRIV, before anything of theirs happens, except
that ERET and HALT, which are instructions of the service cores alone, are ILLOP there.
R392, R235, R236, R382: in firmware and with no store on its way, TLBI with an address of all ones leaves no entry of its worlds,
and with another address no entry of its worlds whose page covers it, and no other entry is lost;
SMIG of an eligible stream posts the request, reserves the target, sets EVT bit 2 and gives MIGST 0, to a target that is not eligible, its own pending
one too, gives 2 and changes nothing else, and of a stream that does not run gives 1; a cancel takes the request back and gives 0, and gives 3 where there is none, or where the move has begun, which it has from the YIELD on
(the model's reading, assumption 11). -/
def Obligations.PrivilegedLanes : Prop :=
  (∀ (s : State) (a b d : SReg), s.firmware s.cur.sid = false →
  exec (.smig a b) s = .next s.priv ∧
  (rangeBad (s.getS a).toNat false = false → exec (.agrant a b) s = .next s.priv ∧ exec (.aattest a b) s = .next s.priv) ∧
  (rangeBad (s.getS a).toNat true = false → s.me.revoking = none → exec (.arevoke a) s = .next s.priv ∧ exec (.aerase a) s = .next s.priv) ∧
  ((s.getS a).toNat < 2 ^ 12 → (s.getS a).toNat ≠ 4095 → (s.getS b).toNat < 2 ^ 48 → exec (.tlbi a b) s = .next s.priv) ∧
  exec .eret s = .next s.illop ∧ exec .halt s = .next s.illop ∧
  exec (.csrr d 0x130) s = .next s.priv) ∧
  (∀ (s : State) (a b : SReg) (v w t : Nat), s.firmware s.cur.sid = true →
  v = (s.getS a).toNat → w = (s.getS b).toNat →
  (s.quiet → v < 2 ^ 13 → ¬(v < 4096 ∧ v % 4096 = 4095) → w = 2 ^ 64 - 1 →
    Completes (.tlbi a b) s fun u => u = { s with tlb := u.tlb } ∧
      u.tlb = s.tlb.filter fun e => !(decide (4096 ≤ v) || e.2.1 == v % 4096)) ∧
  (s.quiet → v < 2 ^ 13 → ¬(v < 4096 ∧ v % 4096 = 4095) → w < 2 ^ 48 →
    Completes (.tlbi a b) s fun u => u = { s with tlb := u.tlb } ∧
      ∀ e, e ∈ u.tlb ↔ e ∈ s.tlb ∧ ¬((4096 ≤ v ∨ e.2.1 = v % 4096) ∧
        ∀ p, s.pages.find? (fun p => p.wid == e.2.1 && p.dva == e.2.2) = some p → p.covers e.2.1 w = true)) ∧
  (t = v → v < 512 → (s.stream t).run ≠ .free → (s.stream t).ident.wid ≠ 0 → (s.stream t).migrate = none →
    w < 256 → s.migbase ≠ 0 → s.eligible t w = true → (s.stream t).wide = false →
    Completes (.smig a b) s fun u => (u.stream t).migrate = some (2 * w + t % 2) ∧ (u.stream (2 * w + t % 2)).reserved = true ∧
      (u.stream t).evt = (s.stream t).evt ||| 4 ∧ u.me.migst = 0 ∧ u.mem = s.mem) ∧
  (v < 512 → (s.stream v).run ≠ .free → (s.stream v).ident.wid ≠ 0 → ((s.stream v).migrate = none ∨ (s.stream v).yielding = false) →
    w < 256 → s.migbase ≠ 0 → s.eligible v w = false → Completes (.smig a b) s fun u => u.me = { s.me with migst := 2 } ∧ OnlyMe s u) ∧
  (v < 512 → (s.stream v).run = .free → Completes (.smig a b) s fun u => u.me.migst = 1 ∧ u = { s with streams := u.streams }) ∧
  (v < 512 → (s.stream v).run ≠ .free → (s.stream v).ident.wid ≠ 0 → w = 2 ^ 64 - 1 →
    (∀ g, (s.stream v).migrate = some g → (s.stream v).yielding = false → Completes (.smig a b) s fun u => (u.stream v).migrate = none ∧ u.me.migst = 0 ∧ u.mem = s.mem) ∧
    (((s.stream v).migrate = none ∨ (s.stream v).yielding = true) → Completes (.smig a b) s fun u =>
      u.me = { s.me with migst := 3 } ∧ OnlyMe s u)))

/-- R250, R251, R253, R294, Table 10.3: in firmware and with no store on its way, AREVOKE of leased arrays and AERASE of free ones
start their erase and name who is charged; an array that is not in the state the function needs, or whose die has not joined, stops the whole range with
NOLEASE, which names the first such array.
R254, R256, Tables 10.3, 10.7: in firmware and with no store on its way, AGRANT of a block in one page, whose status is 0, leases every array of
its range to the block's world with its weight and reserve; AATTEST of erased arrays of one revocation frees each, or retires it
where a row failed, and issues one record under the next RECSEQ, and takes NOLEASE, with no array changed, where an array is not ERASED by the
revocation of the first. A refused AGRANT takes no NOLEASE: it writes the first status that applies of 2, 4, 3 and 1, and the range stays as it was.
R255, R303: with no store on its way and no AWRITE accepted by the bay, ASTAT of an array the stream may look at gives its state
word, with the lessee's weight in the bay, LIFE, MAXROW, CHG or RSV, and item 4 its world's WTOT; an ASTAT that waits for AWRITEs, which one that finds some
in the bay does, is held while the bay has one of them, and answers each item when it has none. -/
def Obligations.ArraysChangeHands : Prop :=
  (∀ (s : State) (a : SReg) (r : RangeWord), s.firmware s.cur.sid = true → s.quiet →
  r = rangeWord (s.getS a).toNat → rangeBad (s.getS a).toNat true = false → s.me.revoking = none →
  ((s.firstBad r fun l => l.st == .leased && l.wid == (s.lease r.first).wid) = none → (∀ an ∈ r.arrays, ∀ o ∈ (s.bay (bayOf an)).ops, o.an ≠ an) →
    Completes (.arevoke a) s fun t => (∀ an ∈ r.arrays, (t.lease an).st = .evicting ∧ (t.lease an).party = r.party ∧ (t.lease an).wid = (s.lease an).wid) ∧
      (∀ an, an ∉ r.arrays → t.lease an = s.lease an) ∧ t.mem = s.mem ∧ t.rows = s.rows) ∧
  ((s.firstBad r fun l => l.st == .free) = none →
    Completes (.aerase a) s fun t => (∀ an ∈ r.arrays, (t.lease an).st = .evicting ∧ (t.lease an).party = r.party ∧ (t.lease an).wid = 4095) ∧
      (∀ an, an ∉ r.arrays → t.lease an = s.lease an) ∧ t.mem = s.mem ∧ t.rows = s.rows) ∧
  (∀ an, (r.arrays.find? fun an => !(s.joined (arrayDie an)) || (s.lease an).st != .free) = some an →
    exec (.aerase a) s = .next (s.fault { code := 0x0A, detail := BitVec.ofNat 64 (an % 2 ^ 18) })) ∧
  (∀ an, (r.arrays.find? fun an => !(s.joined (arrayDie an)) || (s.lease an).st != .leased || (s.lease an).wid != (s.lease r.first).wid) = some an →
    exec (.arevoke a) s = .next (s.fault { code := 0x0A, detail := BitVec.ofNat 64 (an % 2 ^ 18) }))) ∧
  (∀ (s : State) (a b : SReg) (r : RangeWord) (blk w0 w1 : Nat), s.firmware s.cur.sid = true → s.quiet →
  r = rangeWord (s.getS a).toNat → rangeBad (s.getS a).toNat false = false → blk = (s.getS b).toNat → blk % 64 = 0 →
  (∀ p, (∀ i < 64, s.page (s.widOf s.cur.sid) (blk + i) = some p) → s.spanCheck s.cur.sid blk 64 .read = none → s.spanCheck s.cur.sid (blk + 16) 8 .write = none →
    w0 = leNat (s.peek (s.widOf s.cur.sid) blk 8) → w1 = leNat (s.peek (s.widOf s.cur.sid) (blk + 8) 8) →
    s.grantStatus r w0 w1 (leNat (s.peek (s.widOf s.cur.sid) (blk + 40) 24)) = 0 →
    Completes (.agrant a b) s fun t => (∀ an ∈ r.arrays, (t.lease an).st = .leased ∧ (t.lease an).wid = w0 % 4096 ∧
      (t.lease an).weight = bits w0 12 4 ∧ (t.lease an).rsv = w1 % 2 ^ 40 ∧ (t.lease an).dormant = false ∧ (t.lease an).chg = 0) ∧
      (∀ an, an ∉ r.arrays → t.lease an = s.lease an) ∧ t.rows = s.rows) ∧
  (∀ p tail n, (∀ i < 64, s.page (s.widOf s.cur.sid) (blk + i) = some p) → s.spanCheck s.cur.sid blk 64 .read = none → s.spanCheck s.cur.sid (blk + 16) 8 .write = none →
    w0 = leNat (s.peek (s.widOf s.cur.sid) blk 8) → w1 = leNat (s.peek (s.widOf s.cur.sid) (blk + 8) 8) → tail = leNat (s.peek (s.widOf s.cur.sid) (blk + 40) 24) →
    n = (if 2 ^ 17 ≤ w0 ∨ w0 / 2 ^ 12 % 16 = 0 ∨ 2 ^ 40 ≤ w1 ∨ tail ≠ 0 then 2
      else if w0 % 4096 = 0 ∨ w0 % 4096 = 4095 ∨ s.live (w0 % 4096) = false then 4
      else if (r.arrays.any fun an => !(s.joined (arrayDie an))) = true then 3
      else if (r.arrays.any fun an => (s.lease an).st != .free) = true then 1 else 0) → n ≠ 0 →
    Completes (.agrant a b) s fun t => Memory.readList t.mem (p.dpaOf (blk + 16)) 8 = leBytes 8 n ∧ t.leases = s.leases ∧ t.rows = s.rows) ∧
  (∀ an, s.spanCheck s.cur.sid (blk + 0x60) 32 .read = none → s.spanCheck s.cur.sid blk (0x200 + 24 * r.count) .write = none →
    (r.arrays.find? fun an => !(s.joined (arrayDie an)) || (s.lease an).st != .erased || (s.lease an).wid != (s.lease r.first).wid ||
      (s.lease an).revocation != (s.lease r.first).revocation) = some an →
    exec (.aattest a b) s = .next (s.fault { code := 0x0A, detail := BitVec.ofNat 64 (an % 2 ^ 18) })) ∧
  (s.spanCheck s.cur.sid (blk + 0x60) 32 .read = none → s.spanCheck s.cur.sid blk (0x200 + 24 * r.count) .write = none →
    (s.firstBad r fun l => l.st == .erased && l.wid == (s.lease r.first).wid && l.revocation == (s.lease r.first).revocation) = none →
    Completes (.aattest a b) s fun t => t.recseq = s.recseq + 1 ∧ (∃ x, t.records = s.records ++ [x] ∧ x.seq = s.recseq + 1 ∧
        x.prev = (s.lease r.first).wid ∧ x.party = (s.lease r.first).party) ∧
      (∀ an ∈ r.arrays, (t.lease an).st = (if (s.lease an).vfail then .retired else .free) ∧ (t.lease an).wid = 4095) ∧
      (∀ an, an ∉ r.arrays → t.lease an = s.lease an) ∧ t.rows = s.rows)) ∧
  (∀ (s : State) (d a : SReg) (w an item : Nat),
  w = (s.getS a).toNat → w < 2 ^ 21 → an = w % 2 ^ 18 → item = w / 2 ^ 18 → item < 6 →
  let stat (who : Nat) : Nat := if item = 0 then (s.lease an).stateWord (Tab.get 1 (s.bay (bayOf an)).weights (s.lease an).wid) else if item = 1 then (s.lease an).life
    else if item = 2 then (s.lease an).maxrow else if item = 3 then (s.lease an).chg else if item = 4 then (s.world who).wtot else (s.lease an).rsv
  (s.quiet → s.me.asking = none → item ≠ 4 → (if s.firmware s.cur.sid then s.joined (arrayDie an) = true else (s.lease an).active (s.widOf s.cur.sid) = true ∧ arrayCore an = coreOf s.cur.sid) →
    ((s.bay (bayOf an)).writing = [] → ResultS (.astat d a) s d (BitVec.ofNat 64 (stat 0))) ∧
    ((s.bay (bayOf an)).writing ≠ [] → Completes (.astat d a) s fun t => t.out = .held ∧ t.me.s = s.me.s ∧
      ∃ c, t.me.asking = some (c, (s.bay (bayOf an)).writing))) ∧
  (s.quiet → s.me.asking = none → item = 4 → an = 0 → s.firmware s.cur.sid = false →
    ResultS (.astat d a) s d (BitVec.ofNat 64 (s.world (s.widOf s.cur.sid)).wtot)) ∧
  (∀ c ids, s.me.asking = some (c, ids) →
    ((∃ x ∈ (s.bay (bayOf an)).writing, x ∈ ids) → exec (.astat d a) s = .next s.held) ∧
    ((∀ x ∈ (s.bay (bayOf an)).writing, x ∉ ids) → s.firmware s.cur.sid = false → Completes (.astat d a) s fun t =>
      t.getS d = (if d = 0 then 0 else BitVec.ofNat 64 (stat (s.widOf s.cur.sid))) ∧ (∀ r, r ≠ d → t.getS r = s.getS r) ∧ OnlyMe s t) ∧
    ((∀ x ∈ (s.bay (bayOf an)).writing, x ∉ ids) → s.firmware s.cur.sid = true → Completes (.astat d a) s fun t =>
      t.getS d = (if d = 0 then 0 else BitVec.ofNat 64 (stat 0)) ∧ (∀ r, r ≠ d → t.getS r = s.getS r) ∧ OnlyMe s t)))

/-- R57: the fetch unit brings the next missing line of S's block into the buffer, as memory holds it, when it has room and the line
may be fetched.
R58, R63, R65, R127: an engine held for a token, for room in a token FIFO, for a scalar entry, for room in the format queue or
by the slip window and the lane queues goes on when what it waits for is there.
R75, R145: results of F whose exposure has elapsed are no longer in flight, and the others are; a window whose engine has read
its last byte is gone, and the others stay. -/
def Obligations.EnginesGoOn : Prop :=
  (∀ (s : State) (sid dva dpa : Nat) (p : Page), s.quiet → (s.stream sid).run = .running →
  (s.stream sid).fetch.length < 64 → s.missingLine sid 64 ((s.stream sid).eng' .s).line = some dva → dva < 0x800000000000 →
  s.pageCheck (s.widOf sid) sid dva 32 .fetch = .ok (dpa, p) →
  Completes (.fetchLine sid) s fun t => Tab.find (t.stream sid).fetch dva = some (leNat (Memory.readList s.mem dpa 32)) ∧
    t = { s with streams := t.streams } ∧ t.stream sid = { s.stream sid with fetch := (t.stream sid).fetch } ∧ ∀ k, k ≠ sid → t.stream k = s.stream k) ∧
  (∀ (s : State) (sid : Nat) (e src d : Engine),
  (((s.stream sid).eng' e).hold = .token src → (s.stream sid).fifo src e ≠ [] → Completes (.tokenWaitResume sid e) s fun t =>
    ((t.stream sid).eng' e).hold = .none ∧ (t.stream sid).tokens = (s.stream sid).tokens ∧ t = { s with streams := t.streams }) ∧
  (((s.stream sid).eng' e).push = [d] → ((s.stream sid).fifo e d).length < 16 → Completes (.tokenPushResume sid e) s fun t =>
    ((t.stream sid).eng' e).push = [] ∧ ((t.stream sid).eng' e).hold = .none ∧
    (t.stream sid).fifo e d = (s.stream sid).fifo e d ++ [true] ∧ t = { s with streams := t.streams }) ∧
  (((s.stream sid).eng' e).hold = .scalar → Tab.get [] (s.stream sid).scalars e.code ≠ [] → (∀ x a, s.laneOf sid e ≠ some (.qpush x a)) →
    Completes (.scalarFifoResume sid e) s fun t => ((t.stream sid).eng' e).hold = .none ∧ (t.stream sid).scalars = (s.stream sid).scalars) ∧
  (((s.stream sid).eng' .s).hold = .format → (s.stream sid).fmtq.length < 16 → Completes (.formatQueueResume sid) s fun t =>
    ((t.stream sid).eng' .s).hold = .none ∧ (t.stream sid).fmtq = (s.stream sid).fmtq) ∧
  (((s.stream sid).eng' e).hold = .slip → s.slipOk sid e = true → s.queuesOpen sid e = true → Completes (.slipWindowResume sid e) s fun t =>
    ((t.stream sid).eng' e).hold = .none ∧ t = { s with streams := t.streams })) ∧
  (∀ (s : State) (sid core : Nat),
  (Completes (.fExposure sid) s fun t => (∀ r, r ∈ (t.stream sid).fres ↔ r ∈ (s.stream sid).fres ∧ 0 < r.left) ∧
    t.stream sid = { s.stream sid with fres := (t.stream sid).fres } ∧ t = { s with streams := t.streams }) ∧
  (Completes (.operandWindowRetire core) s fun t => (∀ w, w ∈ (t.core core).windows ↔ w ∈ (s.core core).windows ∧ s.windowDone w = false) ∧
    t.core core = { s.core core with windows := (t.core core).windows } ∧ t = { s with cores := t.cores }))

/-- R72, R220: a stream whose wait does not hold parks once its engines have drained the block; when the condition of a parked stream's
wait holds, looked at again with the registers as they are, the wait is gone and the stream runs at its next block, and when it does not
the stream stays parked: a WEVT, and with no store on its way a WFILL, WFREE or WAITGE, and a BAR whose arrival has been made.
R74: the core's other stream takes over the engines when it can run and the issuing one cannot, has ended, or has drained its block
with a switch due; a switch that is due to a stream which is not runnable lapses; a stream that has been runnable while the other held the core for 4,096
cycles makes a switch due. R237: a move that is pending at the YIELD goes before a due switch. R421: a YIELD whose block is drained gives the engines to the other stream where it is runnable, and goes on
where it is not. That the 4,096 cycles count from the switch is the model's choice (assumption 92).
R88: a stream without progress for WDOG microseconds takes STALL, which suspends it; before that nothing happens. That the time of a runnable
stream runs while the other stream of its core issues is the model's choice (assumption 108). -/
def Obligations.StreamsParkAndSwitch : Prop :=
  (∀ (s u : State) (sid k dpa : Nat) (w : Wait) (a b d : SReg) (r : Sys2Proof.Ring) (sc : Scope) (off : BitVec 20) (e : Word)
  (mask : BitVec 8) (x : Sys2Proof.Machine.Ring) (p : Page),
  ((s.stream sid).run = .running → (s.stream sid).wait = some w → (s.stream sid).drained = true →
    exec (.streamPark sid) s = .next (s.setStream sid { s.stream sid with run := .parked })) ∧
  ((s.stream sid).run = .parked → (s.stream sid).wait = some w → w.instr = .wevt d mask → w.ts = none → s.pushClear sid = true → (s.stream sid).evt &&& mask ≠ 0 →
    Completes (.waitWake sid) s fun t => (t.stream sid).run = .running ∧ (t.stream sid).wait = none ∧
      (t.stream sid).evt = (s.stream sid).evt &&& ~~~mask ∧ ((t.stream sid).eng' .s).line = w.line + 32 ∧ t.mem = s.mem ∧
      ∀ k, k ≠ sid → t.stream k = s.stream k) ∧
  ((s.stream sid).run = .parked → (s.stream sid).wait = some w → w.instr = .wevt d mask → (s.stream sid).evt &&& mask = 0 →
    Completes (.waitWake sid) s fun t => (t.stream sid).run = .parked ∧ (t.stream sid).evt = (s.stream sid).evt) ∧
  ((s.stream sid).run = .parked → (s.stream sid).wait = some w → w.ts = none → s.pushClear sid = true →
    u = { s with cur := { sid := sid, eng := .s, line := w.line, lane := w.lane, base := w.base, x := w.x, ts := none } } → u.quiet →
    k = (u.getS a).toNat → x = u.myRing r.val →
    (w.instr = .wfill r a → u.ringReady r.val = true → 1 ≤ k → k ≤ x.n → (k ≤ x.filled → Woken s sid w) ∧ (¬ k ≤ x.filled → StaysParked s sid w)) ∧
    (w.instr = .wfree r a → u.ringReady r.val = true → 1 ≤ k → k ≤ x.n →
      (k ≤ (x.free + BitVec.ofNat 32 x.n - x.claim).toNat → Woken s sid w) ∧
      (¬ k ≤ (x.free + BitVec.ofNat 32 x.n - x.claim).toNat → StaysParked s sid w)) ∧
    (w.instr = .waitge a b sc off → u.target sid (addrAdd (u.getS b) off.toInt) 8 .read = .ok (.dram dpa p) →
      (k ≤ leNat (Memory.readList s.mem dpa 8) → Woken s sid w) ∧ (¬ k ≤ leNat (Memory.readList s.mem dpa 8) → StaysParked s sid w)) ∧
    (w.instr = .bar b a → w.arrived = some e → u.atomicTarget sid (u.getS b).toNat 8 .read = .ok (dpa, p) →
      (leNat (Memory.readList s.mem dpa 8) / 2 ^ 32 ≠ e.toNat → Woken s sid w) ∧
      (leNat (Memory.readList s.mem dpa 8) / 2 ^ 32 = e.toNat → StaysParked s sid w)))) ∧
  (∀ (s : State) (core a : Nat), core < 256 → a = 2 * core + (s.core core).issuing → (s.core core).issuing < 2 →
  ((s.stream (a ^^^ 1)).run = .running → s.yields a = false → (s.stream a).finishing = false →
    ((s.stream a).run ≠ .running ∨ (s.stream a).ended = true ∨ ((s.core core).switch = true ∧ (s.stream a).drained = true ∧ ((s.stream a).yielding = true → (s.stream a).migrate = none))) →
    Completes (.streamSwitch core) s fun t => (t.core core).issuing = 1 - (s.core core).issuing ∧ (t.core core).switch = false ∧
      (t.core core).gained = s.clock ∧ t = { s with cores := t.cores } ∧ ∀ k, k ≠ core → t.core k = s.core k) ∧
  ((s.stream (a ^^^ 1)).run = .running → (s.stream a).run = .running → (s.stream a).ended = false → (s.stream a).yielding = true → (s.stream a).migrate ≠ none →
    exec (.streamSwitch core) s = .next s) ∧
  ((s.stream (a ^^^ 1)).run ≠ .running → s.yields a = false → (s.core core).switch = true →
    exec (.streamSwitch core) s = .next (s.setCore core { s.core core with switch := false })) ∧
  (s.yields a = true → (s.stream a).finishing = false → Completes (.streamSwitch core) s fun t =>
    t.stream a = { s.stream a with yielding := false } ∧ (∀ k, k ≠ a → t.stream k = s.stream k) ∧ (t.core core).switch = false ∧
    (t.core core).issuing = (if (s.stream (a ^^^ 1)).run = .running then 1 - (s.core core).issuing else (s.core core).issuing) ∧
    (∀ k, k ≠ core → t.core k = s.core k) ∧ t.mem = s.mem) ∧
  ((s.stream (2 * core + (1 - (s.core core).issuing))).run = .running → (s.core core).gained + 4096 ≤ s.clock →
    exec (.switchQuantumExpiry core) s = .next (s.setCore core { s.core core with switch := true }))) ∧
  (∀ (s : State) (sid : Nat), isService sid = false →
  ((s.stream sid).run = .running ∨ (s.stream sid).run = .parked) → (s.stream sid).wdog ≠ 0 →
  ((s.stream sid).progAt + (s.stream sid).wdog.toNat * 1000 ≤ s.now → Completes (.stall sid) s fun t =>
    (t.stream sid).run = .suspended ∧ (t.stream sid).fcode = 0x11 ∧ (∃ r, (t.stream sid).fault = some r ∧ r.code = 0x11 ∧ r.retry = true ∧ r.eng = .s) ∧
    t.mem = s.mem ∧ ∀ k, k ≠ sid → t.stream k = s.stream k) ∧
  (s.now < (s.stream sid).progAt + (s.stream sid).wdog.toNat * 1000 → exec (.stall sid) s = .next s))

/-- R80, R84: with no store on its way and no error in memory, a walker takes the oldest record of a live world's launch queue that none has taken; a record that it does not refuse
stands among the launches afterwards, a refused one is notified as SID 1023 with tag 0x1FFFE. That the walker of any joined die refuses a
record is assumption 61, that ones in [63:40] of undeclared level words make it refuse one is assumption 37, and when the slots of the queue come
free is assumption 21.
R82, R83, R154, Table 3.4: a walker gives the next iteration of the record that wins to the stream it may take: it runs from the record's
text line, with the iteration's number in s10, the argument pointer in s9, an empty scratchpad half and no tokens; while its core has no slot for the
world's key, and none to give up, or a link to a stream that a range unit's loading tells is not clear (R16, R85), it waits.
R77: when all engines of an iteration have retired the end tag and nothing of it is in flight, its completion word grows by 1, its
record counts one more iteration done, and its stream is free; a record done on every die sets the completion event that its word at +0x60 names, read
then, and is gone. That the completion word is the one kept when the record was read, and the event too where a newer record stands in its slot, is the
model's choice (assumption 65). -/
def Obligations.IterationsRun : Prop :=
  (∀ (s : State) (die wid k a : Nat) (bs : List Byte) (l : Launch), s.quiet → s.joined die = true → s.live wid = true →
  s.sec.lockdown = 0 → k = s.queueHead wid 0x10 + (s.world wid).taken.length → s.queueTail wid 0x10 ≠ k →
  a = s.queueBase wid 0x10 + 64 + 128 * (k % s.queueSize wid 0x10) → bs = (s.unitRead 1023 wid a 128).2 →
  l = s.parseRecord wid a k bs (if recWord bs 0x70 = 0 then none else some (s.unitRead 1023 wid (recWord bs 0x70) 32).2) →
  (s.refused wid bs l = false → die ∈ l.dies → Completes (.walkerTakeRecord die wid) s fun t => t.launches = s.launches ++ [l] ∧
    (t.world wid).taken = (s.world wid).taken ++ [l.id] ∧ t.nextId = s.nextId + 1 ∧ t.mem = s.mem ∧ t.streams = s.streams) ∧
  (s.refused wid bs l = true → exec (.walkerTakeRecord die wid) s =
    .next (({ s.setWorld wid { s.world wid with taken := (s.world wid).taken ++ [l.id] } with nextId := s.nextId + 1 }.freeSlots wid).notifyWorld wid 1023 0 0x1FFFE 0))) ∧
  (∀ (s : State) (die n sid : Nat) (l : Launch), s.joined die = true → s.sec.lockdown = 0 →
  s.winner die = some (l, n, sid) → s.spanClear (64 * die) l.wid (s.queueBase l.wid 0x10) 64 = true →
  (s.keyRoom (coreOf sid) l.wid = false ∨ s.rangeClear l die = false → exec (.iterationPlace die) s = .next s) ∧
  (s.keyRoom (coreOf sid) l.wid = true → s.rangeClear l die = true → Completes (.iterationPlace die) s fun t => (t.stream sid).run = .running ∧ (t.stream sid).ident.wid = l.wid ∧ (t.stream sid).ident.iter = n ∧
    ((t.stream sid).eng' .s).line = l.text ∧ Tab.get 0 (t.stream sid).s 9 = l.args ∧ Tab.get 0 (t.stream sid).s 10 = BitVec.ofNat 64 n ∧
    (t.stream sid).tokens = [] ∧ (t.stream sid).wdog = 0 ∧ (t.stream sid).win = 16 ∧
    ∀ a, (if l.wide then a < 1048576 else sid % 2 * 524288 ≤ a ∧ a < sid % 2 * 524288 + 524288) → Memory.read (t.core (coreOf sid)).sp a = 0)) ∧
  (∀ (s : State) (sid die wid a ev : Nat) (l : Launch), s.quiet →
  (isService sid = false → (s.stream sid).run = .running → (s.stream sid).finished = true → (s.stream sid).migrate = none →
    s.launches.find? (fun x => x.id == (s.stream sid).ident.launch) = some l → l.doneWord ≠ 0 →
    s.doneWordAt (s.stream sid).ident.wid l.doneWord = some a →
    Completes (.completionCombine sid) s fun t => (t.stream sid).run = .free ∧
      t.mem = Memory.writeList s.mem a (leBytes 8 (leNat (Memory.readList s.mem a 8) + 1)) ∧
      t.launches = s.launches.map (fun x => if x.id = l.id then { x with done := x.done + 1 } else x)) ∧
  (s.launches.find? (fun x => x.wid == wid && decide (x.total ≤ x.done)) = some l →
    ev = (if s.slotStands l then leNat (s.unitRead 1023 l.wid (l.dva + 0x60) 8).2 else l.event) →
    (ev < 2 ^ 63 → exec (.recordCompletionEvent die wid) s = .next { s with launches := s.launches.filter fun x => x.id != l.id }) ∧
    (2 ^ 63 ≤ ev → isService (ev % 1024) = false → (s.stream (ev % 1024)).run ≠ .free → (s.stream (ev % 1024)).ident.wid = wid →
    Completes (.recordCompletionEvent die wid) s fun t => t.launches = s.launches.filter (fun x => x.id != l.id) ∧
      (t.stream (ev % 1024)).evt = (s.stream (ev % 1024)).evt ||| 16 ∧ t.mem = s.mem)))

/-- R396, R397, R413, R129, R390: element-wise instructions of V compute each lane their mask selects from the same lanes of the
sources and leave the others; a shift by the element's width or more leaves 0, or the sign, and shifts are ILLOP at a float
type; VSEL chooses lane by lane. -/
def Obligations.VectorElements : Prop := ∀ (s : State) (d a b : VReg) (m : MReg), s.acquired .v →
  let x := s.lane a.val
  let y := s.lane b.val
  let on (f : Nat → Nat) : Nat → Nat := fun k => if (s.getM m).getLsbD k then f k else s.lane d.val k
  ResultV (.vadd d a b m) s d (on fun k => addAt s.vty (x k) (y k)) ∧
  ResultV (.vsub d a b m) s d (on fun k => subAt s.vty (x k) (y k)) ∧
  ResultV (.vmul d a b m) s d (on fun k => mulAt s.vty (x k) (y k)) ∧
  ResultV (.vfma d a b m) s d (on fun k => fmaAt s.vty (x k) (y k) (s.lane d.val k)) ∧
  ResultV (.vmin d a b m) s d (on fun k => minAt s.vty (x k) (y k)) ∧
  ResultV (.vmax d a b m) s d (on fun k => maxAt s.vty (x k) (y k)) ∧
  ResultV (.vand d a b m) s d (on fun k => x k &&& y k) ∧
  ResultV (.vor d a b m) s d (on fun k => x k ||| y k) ∧
  ResultV (.vxor d a b m) s d (on fun k => x k ^^^ y k) ∧
  ResultV (.vsel d a b m) s d (fun k => if (s.getM m).getLsbD k then x k else y k) ∧
  (isFloat s.vty = false →
    ResultV (.vshl d a b m) s d (on fun k => x k * 2 ^ y k % 2 ^ tyBits s.vty) ∧
    ResultV (.vshrl d a b m) s d (on fun k => x k / 2 ^ y k) ∧
    ResultV (.vshr d a b m) s d (on fun k => toPattern s.vty (intOf s.vty (x k) / 2 ^ y k))) ∧
  (isFloat s.vty = true →
    exec (.vshl d a b m) s = .next s.illop ∧ exec (.vshrl d a b m) s = .next s.illop ∧ exec (.vshr d a b m) s = .next s.illop)

/-- R129, R131, R114: what the element operations are. At an integer type they are exact modulo the width. A finite value is rounded to a
value of the type as each mode says, to the nearest one with an even last digit on a tie for RNE, and beyond the largest to infinity; a float pattern that is no NaN is its own rounding, in every
mode. A sum, a difference, a product and a fused product and sum of finite operands are the exact result rounded once, with the sign of a zero that
IEEE 754 gives; infinities follow IEEE 754 too, and an operation on a NaN gives the canonical NaN. The minimum and the maximum of two
float patterns that are no NaN are the one that stands below and the one above, with −0 below +0. -/
def Obligations.ElementArithmetic : Prop := (∀ (t : Ty) (x y z : Nat), isFloat t = false →
    addAt t x y % 2 ^ tyBits t = (x + y) % 2 ^ tyBits t ∧ mulAt t x y % 2 ^ tyBits t = x * y % 2 ^ tyBits t ∧
    fmaAt t x y z % 2 ^ tyBits t = (x * y + z) % 2 ^ tyBits t ∧ (subAt t x y + y) % 2 ^ tyBits t = x % 2 ^ tyBits t ∧
    intOf t (minAt t x y) = min (intOf t x) (intOf t y) ∧ intOf t (maxAt t x y) = max (intOf t x) (intOf t y)) ∧
  (∀ (t : Ty) (mode : Rnd) (sat : Bool) (b : Nat), isFloat t = true → b < 2 ^ tyBits t → decodeFloat t b ≠ .nan →
    encodeFloat t mode sat (decodeFloat t b) = b) ∧
  (∀ (t : Ty) (mode : Rnd) (neg : Bool) (m : Nat) (e : Int), isFloat t = true → Rounded t mode neg m e (encodeFloat t mode false (.fin neg m e))) ∧
  (∀ (t : Ty) (x y z : Nat), isFloat t = true →
    (∀ a m e b n f, decodeFloat t x = .fin a m e → decodeFloat t y = .fin b n f →
      RoundedSum t a m e b n f (addAt t x y) ∧ mulAt t x y = encodeFloat t .rne false (.fin (a != b) (m * n) (e + f)) ∧
      (∀ c k g, decodeFloat t z = .fin c k g → RoundedSum t (a != b) (m * n) (e + f) c k g (fmaAt t x y z)) ∧
      ∀ c, decodeFloat t z = .inf c → fmaAt t x y z = infBits t c) ∧
    (y < 2 ^ tyBits t → subAt t x y = addAt t x (y ^^^ signBit t)) ∧
    (∀ a b n f, decodeFloat t x = .inf a → decodeFloat t y = .fin b n f →
      let p := if n = 0 then cnan t else infBits t (a != b)
      addAt t x y = infBits t a ∧ addAt t y x = infBits t a ∧ mulAt t x y = p ∧ mulAt t y x = p) ∧
    (∀ a b, decodeFloat t x = .inf a → decodeFloat t y = .inf b →
      addAt t x y = (if a = b then infBits t a else cnan t) ∧ mulAt t x y = infBits t (a != b)) ∧
    ((∃ a, decodeFloat t x = .inf a ∨ decodeFloat t y = .inf a) →
      (mulAt t x y = cnan t → fmaAt t x y z = cnan t) ∧
      ∀ p, mulAt t x y = infBits t p → fmaAt t x y z = if decodeFloat t z = .nan ∨ decodeFloat t z = .inf (!p) then cnan t else infBits t p)) ∧
  (∀ (t : Ty) (x y z : Nat), isFloat t = true → decodeFloat t x = .nan →
    addAt t x y = cnan t ∧ addAt t y x = cnan t ∧ mulAt t x y = cnan t ∧ mulAt t y x = cnan t ∧ subAt t x y = cnan t ∧ subAt t y x = cnan t ∧
    minAt t x y = cnan t ∧ minAt t y x = cnan t ∧ maxAt t x y = cnan t ∧ maxAt t y x = cnan t ∧
    fmaAt t x y z = cnan t ∧ fmaAt t y x z = cnan t ∧ fmaAt t y z x = cnan t) ∧
  (∀ (t : Ty) (x y : Nat), isFloat t = true → x < 2 ^ tyBits t → y < 2 ^ tyBits t → decodeFloat t x ≠ .nan → decodeFloat t y ≠ .nan →
    (Below (decodeFloat t x) (decodeFloat t y) ∨ Below (decodeFloat t y) (decodeFloat t x) ∨ x = y) ∧ minAt t x x = x ∧ maxAt t x x = x ∧
    (Below (decodeFloat t x) (decodeFloat t y) → minAt t x y = x ∧ minAt t y x = x ∧ maxAt t x y = y ∧ maxAt t y x = y))

/-- R401, R99, R132, R120, R115, R134, Tables 4.7, 5.7: what the conditions of VCMP, the conversions of VCVT and KYMIX are. A condition at a float type
goes by value, with −0 equal to +0 and a NaN in no order, and at an integer type by the signed values, UNORD holding never and ORD always. A
conversion rounds its source value, times the scale where there is one, once, with SAT clamped; a NaN scale or source, or an infinity times 0, converts as a
NaN; a residue number converts as the one integer of the signed range with its residues, and an i32 to its residues. The sign of an integer
0 times a negative scale is the model's choice (assumption 66). -/
def Obligations.ElementConversions : Prop := (∀ (t : Ty) (x y : Nat), isFloat t = true →
    let p := decodeFloat t x
    let q := decodeFloat t y
    let un : Prop := p = .nan ∨ q = .nan
    (condAt t .lt x y = true ↔ Less p q) ∧ (condAt t .gt x y = true ↔ Less q p) ∧
    (condAt t .le x y = true ↔ ¬un ∧ ¬Less q p) ∧ (condAt t .ge x y = true ↔ ¬un ∧ ¬Less p q) ∧
    (condAt t .eq x y = true ↔ ¬un ∧ ¬Less p q ∧ ¬Less q p) ∧ (condAt t .ne x y = true ↔ un ∨ Less p q ∨ Less q p) ∧
    (condAt t .ltn x y = true ↔ un) ∧ (condAt t .len x y = true ↔ ¬un)) ∧
  (∀ t ∈ [Ty.i32, .i16, .i8], ∀ x y : Nat,
    let a := signed (tyBits t) x
    let b := signed (tyBits t) y
    condAt t .lt x y = decide (a < b) ∧ condAt t .gt x y = decide (b < a) ∧ condAt t .le x y = decide (a ≤ b) ∧ condAt t .ge x y = decide (b ≤ a) ∧
    condAt t .eq x y = decide (a = b) ∧ condAt t .ne x y = decide (a ≠ b) ∧ condAt t .ltn x y = false ∧ condAt t .len x y = true) ∧
  (∀ f ∈ [Ty.f32, .bf16, .f16, .i32, .i16, .i8, .n8], ∀ t ∈ [Ty.f32, .bf16, .f16, .i32, .i16, .i8, .n8], ∀ (mode : Rnd) (sat : Bool) (b k : Nat),
    let v := sourceValue f b
    let c := decodeFloat .f32 k
    let r := convertAt f t mode sat (some k) b
    Converted t mode sat (convertAt f t mode sat none b) v ∧
    (v = .nan ∨ c = .nan → Converted t mode sat r .nan) ∧
    (∀ x m e y n g, v = .fin x m e → c = .fin y n g → Converted t mode sat r (.fin (x != y) (m * n) (e + g))) ∧
    (∀ x y n g, (v = .inf x ∧ c = .fin y n g ∨ v = .fin x n g ∧ c = .inf y) → Converted t mode sat r (if n = 0 then .nan else .inf (x != y))) ∧
    (∀ x y, v = .inf x → c = .inf y → Converted t mode sat r (.inf (x != y)))) ∧
  (∀ (mode : Rnd) (sat : Bool) (b : Nat) (x : Int), -8388480 ≤ x → x ≤ 8388479 →
    x % 255 = (b % 256 % 255 : Nat) → x % 256 = (b / 256 % 256 : Nat) → x % 257 = (b / 65536 % 512 % 257 : Nat) →
    (convertAt .rns .i32 mode sat none b : Int) = x % 2 ^ 32 ∧
    ∃ n f, decodeFloat .f32 (convertAt .rns .f32 mode sat none b) = .fin (decide (x < 0)) n f ∧ ∀ u, u ≤ f → u ≤ 0 → sizeAt n f u = sizeAt x.natAbs 0 u) ∧
  (∀ (mode : Rnd) (sat : Bool) (b : Nat),
    let x : Int := if sat then max (-8388480) (min 8388479 (signed 32 b)) else signed 32 b
    (convertAt .i32 .rns mode sat none b : Int) = x % 255 + 256 * (x % 256) + 65536 * (x % 257)) ∧
  ∀ seed index : Word, (kymix seed index).toNat = kymixRule seed.toNat index.toNat

/-- R401, R409, R398, R405, R407, R414, R411, R130: comparison into a mask, permutation, broadcast, one lane out and in, the type, and
the reduction of all lanes by a balanced tree, whose sum at an integer type is the sum of the lanes.
R402, R403, R404, R412, R134, R135: VCVT converts element by element over its groups of rows; VRND writes KYMIX of the index and
its lane; VDROP keeps, scaled, the lanes whose number is not below the threshold, clears the others, and says which in its
mask. -/
def Obligations.VectorMoves : Prop :=
  (∀ (s : State) (d a b : VReg) (m md : MReg) (c : Cond) (e l : EReg) (ty : Ty) (op : RedOp), s.acquired .v →
  let x := s.lane a.val
  let y := s.lane b.val
  let w := tyBits s.vty
  let j := (s.getE .v l).toNat % s.lanes
  ResultM (.vcmp md c a b m) s md (fun k => decide (k < s.lanes) && (s.getM m).getLsbD k && condAt s.vty c (x k) (y k)) ∧
  ResultV (.vperm d a b) s d (fun k => x (y k % s.lanes)) ∧
  ResultV (.vbcast d e) s d (fun _ => (s.getE .v e).toNat % 2 ^ w) ∧
  ResultV (.vins d e l) s d (fun k => if k = j then (s.getE .v e).toNat % 2 ^ w else s.lane d.val k) ∧
  Completes (.vext e a l) s (fun t =>
    t.getE .v e = (if isFloat s.vty then BitVec.ofNat 64 (x j) else BitVec.ofInt 64 (intOf s.vty (x j))) ∧ OnlyE .v e s t) ∧
  (ty.code < 6 → Completes (.vtype ty) s fun t => t.me = { s.me with vty := ty } ∧ OnlyMe s t) ∧
  (bitwiseRed op = false ∨ isFloat s.vty = false →
    ResultV (.vred d a op) s d (fun _ => balanced (match op with
      | .add => addAt s.vty | .max => maxAt s.vty | .min => minAt s.vty | .and => (· &&& ·) | .or => (· ||| ·) | .xor => (· ^^^ ·)) (Nat.log2 s.lanes) x)) ∧
  (bitwiseRed op = true ∧ isFloat s.vty = true → exec (.vred d a op) s = .next s.illop) ∧
  (isFloat s.vty = false → ResultV (.vred d a .add) s d (fun _ => ((List.range s.lanes).map x).sum % 2 ^ w))) ∧
  (∀ (s : State) (d a : VReg) (es seed idx : EReg) (md : MReg) (tf tt : Ty) (rnd : Rnd) (sat scl : Bool) (n : Nat),
  s.acquired .v →
  (n = cvtCount tf tt → a.val + n * tyBytes tf / 1024 ≤ 32 → d.val + n * tyBytes tt / 1024 ≤ 32 →
    Completes (.vcvt d a es tf tt rnd sat scl) s fun t =>
      (∀ k < n, laneAt (tyBytes tt) (t.me.row (s.phys (d.val + k * tyBytes tt / 1024))) (k % (1024 / tyBytes tt)) =
        convertAt tf tt rnd sat (if scl then some ((s.getE .v es).toNat % 2 ^ 32) else none)
          (laneAt (tyBytes tf) (s.me.row (s.phys (a.val + k * tyBytes tf / 1024))) (k % (1024 / tyBytes tf)))) ∧
      (∀ r, (∀ i < n * tyBytes tt / 1024, r ≠ s.phys (d.val + i)) → t.me.row r = s.me.row r) ∧ OnlyMe s t ∧
      t.me = { s.me with v := t.me.v, fRace := t.me.fRace, made := t.me.made }) ∧
  ResultV (.vrnd d seed idx) s d (fun k => (kymix (s.getE .v seed) (s.getE .v idx + BitVec.ofNat 64 k)).toNat % 2 ^ tyBits s.vty) ∧
  (isFloat s.vty = true →
    let keep (k : Nat) : Bool := decide ((s.getE .v es).toNat % 2 ^ 32 ≤ (kymix (s.getE .v seed) (s.getE .v idx + BitVec.ofNat 64 k)).toNat / 256)
    Completes (.vdrop d a seed idx es md) s fun t =>
      (∀ k < s.lanes, laneAt (tyBytes s.vty) (t.me.row (s.phys d.val)) k =
        if keep k then encodeFloat s.vty .rne false ((decodeFloat s.vty (s.lane a.val k)).mul (decodeFloat .f32 ((s.getE .v es).toNat / 2 ^ 32))) else 0) ∧
      (∀ k < s.lanes, (t.getM md).getLsbD k = (md == 0 || keep k)) ∧ (∀ r, r ≠ s.phys d.val → t.me.row r = s.me.row r) ∧ OnlyMe s t) ∧
  (isFloat s.vty = false → exec (.vdrop d a seed idx es md) s = .next s.illop))

/-- R406, R408, R137: with no window live, no store on its way and no granule of the scratchpad poisoned, VLD and VST move the lanes
their mask selects between a row and 1 KiB of the scratchpad, VGATH and VSCAT each lane at its own offset; a scattered byte
keeps the highest lane's value. -/
def Obligations.VectorMemory : Prop := ∀ (s : State) (v ix : VReg) (b : EReg) (o : BitVec 5) (m : MReg) (sz : MemSize) (off w : Nat) (q : Nat → Nat),
  s.acquired .v → s.quiet → (s.core (coreOf s.cur.sid)).spBad = [] → (s.core (coreOf s.cur.sid)).windows = [] → w = tyBytes s.vty →
  (off = (addrAdd (s.getE .v b) (1024 * o.toInt)) → off % 32 = 0 → off + 1024 ≤ s.me.spSize →
    ResultV (.vld v b o m) s v (fun k => if (s.getM m).getLsbD k then s.spNat (off + k * w) w else s.lane v.val k) ∧
    Completes (.vst v b o m) s (OnlySp (fun c =>
      if off ≤ c ∧ c < off + s.lanes * w ∧ (s.getM m).getLsbD ((c - off) / w) = true then (leBytes w (s.lane v.val ((c - off) / w))).getD ((c - off) % w) 0
      else s.spAt c) s)) ∧
  (sizeBytes sz = w →
    (∀ k < s.lanes, (s.getM m).getLsbD k = true →
      (q k : Int) = (s.getE .v b).toNat + signed (8 * w) (s.lane ix.val k) * w ∧ q k % w = 0 ∧ q k + w ≤ s.me.spSize) →
    ResultV (.vgath v ix b m sz) s v (fun k => if (s.getM m).getLsbD k then s.spNat (q k) w else s.lane v.val k) ∧
    Completes (.vscat v ix b m sz) s fun t => OnlySp t.spAt s t ∧
      (∀ k < s.lanes, (s.getM m).getLsbD k = true → (∀ j, k < j → j < s.lanes → (s.getM m).getLsbD j = true → q j ≠ q k) →
        ∀ i < w, t.spAt (q k + i) = (leBytes w (s.lane v.val k)).getD i 0) ∧
      ∀ c, (∀ k < s.lanes, (s.getM m).getLsbD k = true → c < q k ∨ q k + w ≤ c) → t.spAt c = s.spAt c)

/-- R399, R400, R410: with no window live, no store on its way and no granule of the scratchpad poisoned, VPUSH appends the selected
lanes to its stream's ring and counts the rows that fill, with the rows that were ready, the elements before them and every other byte as they were, VCLOSE fills the partial row with zeros, VPOP takes the row at the
head and says which lanes are valid, and VQPOP takes the oldest row of the C→V FIFO with its status word. -/
def Obligations.VectorQueues : Prop := ∀ (s : State) (k : Fin 4) (v : VReg) (m md : MReg) (es : EReg) (c : CondStream) (w n : Nat) (sel : List Nat) (r : VqRow) (rs : List VqRow),
  s.acquired .v → s.quiet → (s.core (coreOf s.cur.sid)).spBad = [] → (s.core (coreOf s.cur.sid)).windows = [] → s.vty.code < 6 →
  w = tyBytes s.vty → n = s.lanes → c = s.me.condStream k.val → sel = s.selected m →
  (c.isEmpty = true ∨ c.width = w →
    (c.ready + (c.partialCount + sel.length + n - 1) / n ≤ 16 → c.partialCount < n →
      Completes (.vpush k v m) s fun t => OnlySp t.spAt { s with streams := t.streams } t ∧
        t.me.condStream k.val = { c with
          ready := c.ready + (c.partialCount + sel.length) / n, counts := c.counts ++ List.replicate ((c.partialCount + sel.length) / n) n, partialCount := (c.partialCount + sel.length) % n, width := w } ∧
        (∀ i (h : i < sel.length), ∀ b < w,
          t.spAt (s.condSlot k.val (c.head + c.ready + (c.partialCount + i) / n) + (c.partialCount + i) % n * w + b) = (leBytes w (s.lane v.val sel[i])).getD b 0) ∧
        (∀ j < c.ready, ∀ b < 1024, t.spAt (s.condSlot k.val (c.head + j) + b) = s.spAt (s.condSlot k.val (c.head + j) + b)) ∧
        (∀ b < c.partialCount * w, t.spAt (s.condSlot k.val (c.head + c.ready) + b) = s.spAt (s.condSlot k.val (c.head + c.ready) + b)) ∧
        ∀ a, (∀ i < sel.length, ∀ b < w, a ≠ s.condSlot k.val (c.head + c.ready + (c.partialCount + i) / n) + (c.partialCount + i) % n * w + b) → t.spAt a = s.spAt a) ∧
    (c.partialCount = 0 → exec (.vclose k) s = .next s) ∧
    (0 < c.partialCount → c.partialCount < n → Completes (.vclose k) s fun t =>
      t.me.condStream k.val = { c with ready := c.ready + 1, counts := c.counts ++ [c.partialCount], partialCount := 0 } ∧
      ∀ a, t.spAt a = if s.condSlot k.val (c.head + c.ready) + c.partialCount * w ≤ a ∧ a < s.condSlot k.val (c.head + c.ready) + 1024 then 0 else s.spAt a) ∧
    (0 < c.ready → c.width = w → Completes (.vpop v k md) s fun t =>
      (∀ j < n, laneAt w (t.me.row (s.phys v.val)) j = s.spNat (s.condSlot k.val c.head + j * w) w) ∧
      (∀ j < n, (t.getM md).getLsbD j = (md == 0 || decide (j < c.counts.headD 0))) ∧
      t.me.condStream k.val = { c with head := (c.head + 1) % 16, ready := c.ready - 1, counts := c.counts.tail } ∧
      (∀ x, x ≠ s.phys v.val → t.me.row x = s.me.row x) ∧ t.cores = s.cores ∧ t.mem = s.mem)) ∧
  (c.ready = 0 → Completes (.vpop v k md) s fun t => t.me.row (s.phys v.val) = 0 ∧ (md ≠ 0 → t.getM md = 0) ∧ t.me.cond = s.me.cond ∧
    (∀ x, x ≠ s.phys v.val → t.me.row x = s.me.row x) ∧ OnlyMe s t) ∧
  (s.me.vq = r :: rs → r.status.getLsbD 32 = false ∨ r.status.getLsbD 33 = true → Completes (.vqpop v es) s fun t =>
    t.me.row (s.phys v.val) = r.data ∧ t.getE .v es = r.status ∧ t.me.vq = rs ∧ (∀ x, x ≠ s.phys v.val → t.me.row x = s.me.row x) ∧ OnlyMe s t) ∧
  (s.me.vq = [] → Completes (.vqpop v es) s fun t => t.out = .held ∧ t.me.vq = [])

/-- R75, R76: an F instruction writes its function of each lane as F reads the source, where V and M have written the row only what F
has acquired; F itself reads its result later, and the other rows as before. The element each gives for an infinity, a zero, a finite
number below 0 or +1 (Table 5.8), as a table of the model. -/
def Obligations.SpecialFunctions : Prop := ∀ (s : State) (d a : VReg) (t : Ty), isFloat t = true →
  ((∀ w ∈ Tab.get [] s.me.fRace d.val, w.eng ≠ .f → w.idx ≤ (s.me.knows .f).of w.eng) → ∀ p ∈ [(Instr.fexp2 d a t, FFun.exp2), (.flog2 d a t, .log2), (.frcp d a t, .rcp), (.frsq d a t, .rsq), (.ftanh d a t, .tanh),
      (.fsigm d a t, .sigm), (.ferf d a t, .erf)],
    Completes p.1 s fun u =>
      (∀ k < lanesOf t, laneAt (tyBytes t) (u.me.row d.val) k = ffun p.2 t s.tick k (laneAt (tyBytes t) (s.me.fRead a.val) k)) ∧
      ((∀ w ∈ Tab.get [] s.me.fRace d.val, s.me.settled w = false ∧ w.idx ≤ s.me.made.f) → u.me.fRead d.val = s.me.fRead d.val) ∧
      (∀ r, r ≠ d.val → u.me.row r = s.me.row r ∧ ((∀ w ∈ Tab.get [] s.me.fRace r, w.idx ≤ s.me.made.f) → u.me.fRead r = s.me.fRead r)) ∧ OnlyMe s u) ∧
  (∀ (f : FFun) (k b : Nat), decodeFloat t b = .nan → ffun f t s.tick k b = cnan t) ∧
  (∀ (k b : Nat) (n : Nat) (e : Int), decodeFloat t b = .fin true n e → n ≠ 0 →
    ffun .log2 t s.tick k b = cnan t ∧ ffun .rsq t s.tick k b = cnan t) ∧
  (∀ k, let x (f : FFun) (b : Nat) := ffun f t s.tick k b
    let ninf := infBits t true
    let pinf := infBits t false
    let one := oneBits t
    let sg := signBit t
    [x .exp2 ninf, x .log2 ninf, x .rcp ninf, x .rsq ninf, x .tanh ninf, x .sigm ninf, x .erf ninf] = [0, cnan t, sg, cnan t, sg + one, 0, sg + one] ∧
    [x .exp2 sg, x .log2 sg, x .rcp sg, x .rsq sg, x .tanh sg, x .sigm sg, x .erf sg] = [one, ninf, ninf, ninf, sg, halfBits t, sg] ∧
    [x .exp2 0, x .log2 0, x .rcp 0, x .rsq 0, x .tanh 0, x .sigm 0, x .erf 0] = [one, ninf, pinf, pinf, 0, halfBits t, 0] ∧
    [x .exp2 pinf, x .log2 pinf, x .rcp pinf, x .rsq pinf, x .tanh pinf, x .sigm pinf, x .erf pinf] = [pinf, pinf, 0, 0, one, one, one] ∧
    [x .exp2 one, x .log2 one, x .rcp one, x .rsq one] = [one + 2 ^ fracBits t, 0, one, one])

/-- R133: FRCP and FRSQ of a finite operand that is not 0, and for FRSQ above 0, give the exact 1/x and 1/√x rounded RNE to the type. A reciprocal below 0
that overflows is −inf (the model's choice, assumption 93). -/
def Obligations.RootsRounded : Prop := ∀ (t : Ty) (tick k b m : Nat) (neg : Bool) (e : Int) (x : ℝ), isFloat t = true → decodeFloat t b = .fin neg m e → m ≠ 0 →
  Denotes t b x → (∀ y, FFun.takes .rcp x y → RoundsTo t y (ffun .rcp t tick k b)) ∧
    (neg = false → ∀ y, FFun.takes .rsq x y → RoundsTo t y (ffun .rsq t tick k b))

/-- R133: FEXP2, FLOG2, FTANH, FSIGM and FERF of a finite operand that is not 0, and for FLOG2 above 0, give the exact function value rounded RNE to the
type, where the model's enclosure of it decides the rounding. That it does so for every operand is no part of this (assumption 12). -/
def Obligations.SeriesRounded : Prop := ∀ (f : FFun) (t : Ty) (tick k b m : Nat) (neg : Bool) (e : Int) (x y : ℝ), f ≠ .rcp → f ≠ .rsq → isFloat t = true →
  decodeFloat t b = .fin neg m e → m ≠ 0 → (f = .log2 → neg = false) → (ffinite f t neg m e).isSome = true → Denotes t b x → FFun.takes f x y →
  RoundsTo t y (ffun f t tick k b)

/-- R115, R119, R120: the residues of an integer of the signed range name it, and adding residues channel by channel adds integers. -/
def Obligations.ResidueNumbers : Prop := (∀ x : Int, -8388480 ≤ x → x ≤ 8388479 → crt (rnsParts (rnsOf x)) = x) ∧ (∀ x y : Int, rnsAdd (rnsOf x) (rnsOf y) = rnsOf (x + y))

/-- R347, R348, R349, R352, R355: MCFG writes one field of the shadow nest table; MSWAP exchanges the planes; MLDS fills the shadow
plane, as it is or transposed, at once (that it is complete when it issues is the model's reading, assumption 45); MCLR clears rows and MCONV converts
them by Table 14.6, each with their overflow flags. -/
def Obligations.MatrixRows : Prop := ∀ (s : State) (lvl : Fin 7) (fld : Fin 6) (a : EReg) (row : VReg) (n : Fin 32) (f32 : Bool) (off c : Nat),
  s.quiet → s.acquired .m → c = coreOf s.cur.sid →
  (Completes (.mcfg lvl fld a) s fun t => nestGet t.me.nestShadow lvl.val fld.val = s.getE .m a ∧
    (∀ l x, x < 8 → (l ≠ lvl.val ∨ x ≠ fld.val) → nestGet t.me.nestShadow l x = nestGet s.me.nestShadow l x) ∧
    t.me = { s.me with nestShadow := t.me.nestShadow } ∧ OnlyMe s t) ∧
  (Completes .mswap s fun t => t.core c = { s.core c with planeA := (s.core c).planeS, planeS := (s.core c).planeA } ∧
    (∀ k, k ≠ c → t.core k = s.core k) ∧ t = { s with cores := t.cores }) ∧
  (off = (s.getE .m a).toNat → off % 256 = 0 → off + 32768 ≤ s.me.spSize → (s.core c).spBad = [] → (s.core c).windows.length < 8 →
    (Completes (.mlds a false) s fun t => (∀ i < 32768, Memory.read (t.core c).planeS i = s.spAt (off + i)) ∧
      t.core c = { s.core c with planeS := (t.core c).planeS } ∧ t = { s with cores := t.cores }) ∧
    (Completes (.mlds a true) s fun t =>
      (∀ j k i, j < 128 → k < 128 → i < 2 → Memory.read (t.core c).planeS (256 * j + 2 * k + i) = s.spAt (off + 256 * k + 2 * j + i)) ∧
      t.core c = { s.core c with planeS := (t.core c).planeS } ∧ t = { s with cores := t.cores })) ∧
  ((∀ k ∈ s.me.cmds, k.eng = .m → k.done = true) →
    (Completes (.mclr row n) s fun t => (∀ r, row.val ≤ r → r ≤ row.val + n.val → t.me.row r = 0 ∧ t.me.overflowed r = false) ∧
      (∀ r, (r < row.val ∨ row.val + n.val < r) → t.me.row r = s.me.row r ∧ t.me.overflowed r = s.me.overflowed r) ∧ OnlyMe s t) ∧
    (Completes (.mconv row n a f32) s fun t =>
      (∀ r, row.val ≤ r → r ≤ row.val + n.val → t.me.overflowed r = false ∧ ∀ k < 256,
        let x := laneAt 4 (s.me.row r) k
        let scale := decodeFloat .f32 ((s.getE .m a).toNat % 2 ^ 32)
        laneAt 4 (t.me.row r) k =
          if f32 = false then toPattern .i32 (crt (rnsParts x))
          else if (s.getE .m a).getLsbD 32 = false then encodeFloat .f32 .rne false ((ofInt (crt (rnsParts x))).mul scale)
          else if s.me.overflowed r = true then 0x7FC00000
          else encodeFloat .f32 .rne false ((ofInt (signed 32 x)).mul scale)) ∧
      (∀ r, (r < row.val ∨ row.val + n.val < r) → t.me.row r = s.me.row r ∧ t.me.overflowed r = s.me.overflowed r) ∧ OnlyMe s t))

/-- R353, R354, R252, R304, R123, R124: with no store on its way and no granule of the scratchpad poisoned, an MPASS on an array goes to the array's
bay with the oldest format word, and its rows wait for it; one on the active plane leaves in the first 128 elements of its row the exact sums of 8-bit
products, or the tree sums of bf16 or f16 ones, at once (that it is complete when it issues is the model's choice, assumption 45); an AWRITE the bay has
room for is accepted there; an empty format queue takes FMTQ.
R350, R351: MGO makes the shadow nest active and stands until its last pass is done, then retires; the tuples of a nest are taken
with level 0 fastest; each step of a nest of plane passes runs one pass, after the last of which the command is done, and a nest of array
passes hands its next pass to that pass's bay. -/
def Obligations.PassesIssue : Prop :=
  (∀ (s : State) (e e' e'' : EReg) (row : VReg) (acc t : Bool) (first : Fin 256) (w : Word) (ws : List Word) (a an : Nat),
  s.quiet → (s.core (coreOf s.cur.sid)).spBad = [] → (s.core (coreOf s.cur.sid)).windows.length < 8 → a = (s.getE .m e).toNat → an = (s.getE .m e').toNat →
  (s.mayUse s.cur.sid an = true → s.me.fmtq = w :: ws → fmtBad w ((fmtOf w).tr || t) (some s.me.spSize) = false → (fmtOf w).src = false →
    row.val + (fmtOf w).nrow ((fmtOf w).tr || t) ≤ 32 → a % 32 = 0 → a + (fmtOf w).nb ((fmtOf w).tr || t) ≤ s.me.spSize →
    ((s.bay (bayOf an)).ops.filter fun o => o.sid == s.cur.sid && !o.awrite).length < 8 → s.savedWrite an = false →
    Completes (.mpass e e' row acc t) s fun u => u.out = .deferred ∧ u.me.fmtq = ws ∧ u.me.v = s.me.v ∧ u.rows = s.rows ∧ u.mem = s.mem ∧
      ∃ c o, u.me.cmds = s.me.cmds ++ [c] ∧ c.kind = .pass a an row.val acc t w ∧ c.eng = s.cur.eng ∧ c.done = false ∧
        (u.bay (bayOf an)).ops = (s.bay (bayOf an)).ops ++ [o] ∧ o.cmd = c.id ∧ o.sid = s.cur.sid ∧ o.wid = s.widOf s.cur.sid ∧ o.an = an ∧ o.awrite = false) ∧
  (s.acquired .m → s.me.fmtq = w :: ws → fmtBad w ((fmtOf w).tr || t) (some s.me.spSize) = false → (fmtOf w).src = true → a % 32 = 0 →
    a + (fmtOf w).nb ((fmtOf w).tr || t) ≤ s.me.spSize → s.me.tileBusy row.val 1 none = false →
    let plane (z j n : Nat) : Nat := if (fmtOf w).tr || t then planeElem (s.core (coreOf s.cur.sid)).planeA z n j else planeElem (s.core (coreOf s.cur.sid)).planeA z j n
    Completes (.mpass e e' row acc t) s fun u => u.out = s.out ∧ u.me.fmtq = ws ∧ u.rows = s.rows ∧ u.mem = s.mem ∧ u.cores = s.cores ∧ u.me.cmds = s.me.cmds ∧
      (∀ k, k ≠ row.val → u.me.row k = s.me.row k) ∧ (∀ n, 128 ≤ n → n < 256 → laneAt 4 (u.me.row row.val) n = laneAt 4 (s.me.row row.val) n) ∧
      ((fmtOf w).at' = 5 → (fmtOf w).ot = 3 → ((fmtOf w).acc || acc) = false → ∀ n < 128, laneAt 4 (u.me.row row.val) n =
        toPattern .i32 (((List.range (fmtOf w).klen).map fun j => signed 8 (s.spNat (a + j) 1) * signed 8 (plane 1 j n)).sum)) ∧
      (∀ ty ∈ [Ty.bf16, Ty.f16], (fmtOf w).at' = ty.code → (fmtOf w).scl = false → ((fmtOf w).acc || acc) = false → ∀ n < 128, laneAt 4 (u.me.row row.val) n =
        encodeFloat .f32 .rne false (decodeFloat .f32 (planeSum ((List.range (fmtOf w).klen).map fun j =>
          (decodeFloat ty (s.spNat (a + 2 * j) 2)).mul (decodeFloat ty (plane 2 j n))))))) ∧
  (s.me.fmtq = [] → exec (.mpass e e' row acc t) s = .next (s.fault { code := 0x08 }) ∧
    (s.me.standing .m = none → exec .mgo s = .next (s.fault { code := 0x08 }))) ∧
  (∀ x nd sb n, s.mayUse s.cur.sid an = true → x = (s.getE .m e'').toNat → x < 2 ^ 17 → nd = x % 512 → sb = BitVec.ofNat 8 (x / 512) → nd ≤ 256 → first.val + nd ≤ 256 →
    n = (awriteRows first.val nd sb).length → 0 < n → a % 1024 = 0 → a + 1024 * n ≤ s.me.spSize →
    ((s.lease an).rsv = 0 ∨ (s.lease an).chg + n ≤ (s.lease an).rsv) → s.writesIn (s.bay (bayOf an)) < 4 →
    Completes (.awrite e e' e'' first) s fun u => u.out = s.out ∧ u.rows = s.rows ∧ u.mem = s.mem ∧ u.me.cmds = s.me.cmds ∧
      ∃ c o, u.me.awrites = s.me.awrites ++ [c] ∧ c.kind = .awrite a an first.val nd sb ∧ c.pos = 0 ∧
        (u.bay (bayOf an)).ops = (s.bay (bayOf an)).ops ++ [o] ∧ o.cmd = c.id ∧ o.sid = s.cur.sid ∧ o.an = an ∧ o.awrite = true)) ∧
  (∀ (s : State) (sid : Nat) (w : Word) (ws : List Word) (c : Cmd),
  (s.quiet → (s.core (coreOf s.cur.sid)).windows.length < 8 → s.me.standing .m = none → s.me.fmtq = w :: ws → fmtBad w (fmtOf w).tr none = false →
    nestBad s.me.nestShadow (fmtOf w) s.me.spSize = none →
    Completes .mgo s fun u => u.out = .held ∧ u.me.nestActive = s.me.nestShadow ∧ u.me.fmtq = ws ∧ u.me.v = s.me.v ∧
      ∃ d, u.me.cmds = s.me.cmds ++ [d] ∧ d.kind = .nest w ∧ d.pos = 0 ∧ d.atLane = true) ∧
  (s.me.standing .m = some c → c.done = true → Completes .mgo s fun u => u.out = .deferred ∧ (∀ d ∈ u.me.cmds, d.id = c.id → d.atLane = false) ∧ u.me.v = s.me.v) ∧
  (s.me.standing .m = some c → c.done = false → exec .mgo s = .next { s with out := .held }) ∧
  (∀ (n : Nest) (p : Nat), p < nestTotal n → let ix := nestIndex (nestExts n) p
    ix.length = 6 ∧ (∀ k < 6, ix.getD k 0 < nestExt n k) ∧
    p = ix.getD 0 0 + nestExt n 0 * (ix.getD 1 0 + nestExt n 1 * (ix.getD 2 0 + nestExt n 2 * (ix.getD 3 0 + nestExt n 3 * (ix.getD 4 0 + nestExt n 4 * ix.getD 5 0))))) ∧
  (∀ (n : Nest) (f : Fmt) (ix : List Nat) (act an row sc : Nat), (s.stream sid).nestCmd = some c → c.kind = .nest w → c.faulted = false → s.mayIssue sid = true → c.pos < nestTotal n →
    s.enterWorld sid .m = some s → f = fmtOf w → n = (s.stream sid).nestActive → ix = nestIndex (nestExts n) c.pos →
    act = (nestAt n 1 ix).toNat → an = (nestAt n 2 ix).toNat → row = (nestAt n 3 ix).toNat → sc = (nestAt n 4 ix + f.scloff).toNat →
    act % 32 = 0 → (s.core (coreOf sid)).spBad = [] →
    (f.src = true → (s.stream sid).tileBusy row (f.nrow f.tr) (some c.id) = false → s.nestOps c.id = [] → Completes (.mgoPass sid) s fun u =>
      (u.stream sid).v = ((s.runPass sid w f.tr (f.acc && !nestFresh n ix) act an row sc).stream sid).v ∧ u.rows = s.rows ∧ u.mem = s.mem ∧
      ∃ d ∈ (u.stream sid).cmds, d.id = c.id ∧ d.pos = c.pos + 1 ∧ d.done = decide (nestTotal n ≤ c.pos + 1)) ∧
    (f.src = false → s.mayUse sid an = true → ((s.bay (bayOf an)).ops.filter fun o => o.sid == sid && !o.awrite).length < 8 → s.savedWrite an = false →
      Completes (.mgoPass sid) s fun u => ∃ o, (u.bay (bayOf an)).ops = (s.bay (bayOf an)).ops ++ [o] ∧ o.cmd = c.id ∧ o.sid = sid ∧ o.an = an ∧
        o.awrite = false ∧ o.wid = s.widOf sid ∧ o.pass = c.pos ∧ (∀ b, b ≠ bayOf an → u.bay b = s.bay b) ∧
        u.stream sid = (s.stream sid).setCmd { c with pos := c.pos + 1 } ∧ (∀ k, k ≠ sid → u.stream k = s.stream k) ∧ u.rows = s.rows ∧ u.mem = s.mem)))

/-- R117, R118, R122, R240: a pass of 8-bit codes into i32 rows, not accumulating and not transposed, leaves in element n of its row the
exact sum over k of activation k times the difference of code (k, n) and the zero point of its group of 32 rows. -/
def Obligations.ArrayPassSums : Prop := ∀ (s : State) (bay act an row c : Nat) (o : BayOp) (r : Nat × Bool) (cmd : Cmd) (w : Word) (acts : List Byte),
  s.turnOf bay = some (o, r) → o.awrite = false → s.passOf o = some cmd → s.passFault o = none → cmd.kind = .pass act an row false false w →
  (fmtOf w).src = false → (fmtOf w).z4 = false → (fmtOf w).ot = 3 → (fmtOf w).acc = false → (fmtOf w).tr = false → (fmtOf w).scl = false →
  (∀ n, (s.stream o.sid).unknown .m n = []) → (∀ x ∈ (s.stream o.sid).cmds, ∀ g, x.kind ≠ .note g) → c = coreOf o.sid →
  acts = s.spBytes c (spBase (s.stream o.sid) o.sid + act) (fmtOf w).klen →
  Completes (.arrayPass bay) s fun u =>
    (∀ n < 256, laneAt 4 ((u.stream o.sid).row row) n = toPattern .i32 (s.dot8 an n acts)) ∧
    (∀ k, k ≠ row → (u.stream o.sid).row k = (s.stream o.sid).row k) ∧ u.rows = s.rows ∧ u.mem = s.mem ∧ u.leases = s.leases

/-- R247, R252, R246: over clear links a bay's step of an AWRITE programs one row with its 256 bytes of the scratchpad, counts the program, and notes
whether the row verifies; every other row of every array is as before. The source of an AWRITE whose iteration has ended is what its
window kept (R77).
R244, R249, R247: the pulses of an erase: the first of a row is a program; a row that checks is cleared and the next begins; a row that
fails its sixth is given up, with its contents as they are (the model's reading, assumption 39), and marks the array; the last row ends
the erase in ERASED. Every other row keeps its contents, and after the step maintenance has no work at the bay for a relaxation of free length
(assumption 106). R26: a
checkpoint writes both signed copies, one after the other, with higher sequence numbers. -/
def Obligations.RowsProgrammed : Prop :=
  (∀ (s : State) (bay src an first nd row : Nat) (ok : Bool) (o : BayOp) (r : Nat × Bool) (p : Programming) (side : BitVec 8),
  s.turnOf bay = some (o, r) → o.awrite = true → s.writeOf o = some p → p.cmd.kind = .awrite src an first nd side →
  row = (awriteRows first nd side).getD p.cmd.pos 0 → row < 264 → (p.src = none → s.readClear o.wid (arrayCore an) (.sp (coreOf p.sid) 0) = true) →
  Completes (.awriteRowStep bay ok) s fun u =>
    (p.src = none → ∀ i < 256, Memory.read u.rows (arrayAddr an row + i) =
      (s.spBytes (coreOf p.sid) (spBase (s.stream p.sid) p.sid + src + 1024 * p.cmd.pos) 256).getD i 0) ∧
    (∀ m, p.src = some m → ∀ i < 256, Memory.read u.rows (arrayAddr an row + i) = Memory.read m (1024 * p.cmd.pos + i)) ∧
    (∀ a, (a < arrayAddr an row ∨ arrayAddr an row + 256 ≤ a) → Memory.read u.rows a = Memory.read s.rows a) ∧
    (u.lease an).life = Nat.min ((s.lease an).life + 1) (2 ^ 40 - 1) ∧ (u.lease an).chg = Nat.min ((s.lease an).chg + 1) (2 ^ 40 - 1) ∧
    (row ∈ (u.lease an).unverified ↔ ok = false) ∧ (∀ k, k ≠ row → (k ∈ (u.lease an).unverified ↔ k ∈ (s.lease an).unverified)) ∧
    (∀ k, k ≠ an → u.lease k = s.lease k) ∧ (u.world o.wid).wtot = Nat.min ((s.world o.wid).wtot + 1) (2 ^ 48 - 1) ∧ u.mem = s.mem) ∧
  (∀ (s : State) (bay an : Nat) (ok again : Bool), s.arbiter bay = some (0, again) → s.eraseTarget bay = some an →
  (Completes (.eraseStep bay ok) s fun u =>
    (∀ k, k ≠ an → u.lease k = s.lease k) ∧ u.mem = s.mem ∧ (∀ k, k ≠ bay → u.bay k = s.bay k) ∧
    (∀ v : State, v.bay bay = u.bay bay → v.now < s.now + Config.relaxation s.tick → v.hasWork bay 0 = false) ∧
    (∀ a, ¬(arrayAddr an (s.lease an).errows ≤ a ∧ a < arrayAddr an (s.lease an).errows + 256) → Memory.read u.rows a = Memory.read s.rows a) ∧
    ((s.lease an).pulses = 0 → (u.lease an).pulses = 1 ∧ u.rows = s.rows ∧ (u.lease an).errows = (s.lease an).errows ∧
      (u.lease an).life = Nat.min ((s.lease an).life + 1) (2 ^ 40 - 1) ∧ (u.lease an).erChg = (s.lease an).erChg + 1) ∧
    (0 < (s.lease an).pulses → ok = true → (u.lease an).errows = (s.lease an).errows + 1 ∧ (u.lease an).pulses = 0 ∧
      (u.lease an).rowFail = (s.lease an).rowFail ∧ ∀ i < 256, Memory.read u.rows (arrayAddr an (s.lease an).errows + i) = 0) ∧
    (0 < (s.lease an).pulses → ok = false → (s.lease an).pulses < 5 →
      (u.lease an).pulses = (s.lease an).pulses + 1 ∧ u.rows = s.rows ∧ (u.lease an).errows = (s.lease an).errows) ∧
    (5 ≤ (s.lease an).pulses → ok = false → (u.lease an).errows = (s.lease an).errows + 1 ∧ (u.lease an).rowFail = true ∧ u.rows = s.rows) ∧
    (0 < (s.lease an).pulses → (u.lease an).errows = (s.lease an).errows + 1 →
      ((s.lease an).errows + 1 < 264 → (u.lease an).st = (s.lease an).st) ∧
      (264 ≤ (s.lease an).errows + 1 → (u.lease an).st = .erased ∧ (u.lease an).vfail = (u.lease an).rowFail ∧ (u.lease an).erEnd = s.now))) ∧
  (s.boot.stage = 2 → Completes .metadataCheckpoint s fun u => u.journal = 0 ∧ s.boot.copyA.seq < u.boot.copyA.seq ∧
    s.boot.copyB.seq < u.boot.copyB.seq ∧ u.boot.copyB.seq = u.boot.copyA.seq + 1 ∧ u.boot.copyA.good = true ∧ u.boot.copyB.good = true ∧
    u = { s with journal := u.journal, boot := { s.boot with copyA := u.boot.copyA, copyB := u.boot.copyB } }))

/-- R311, R312, R315, R316, R317, R310, R145: with no store on its way, a window and a command free and no earlier copy of C that has yet to read bytes of the descriptor,
a copy instruction of C whose descriptor and checks are good becomes a command with all its steps before it, and touches no byte; a copy of no element is
complete at once. CBANK copies 1 KiB rows.
R312, R313, R188, R212: with no store on its way and no granule of a scratchpad poisoned, a step of a copy between places of device memory and of
scratchpads, with nothing earlier of C, no window and no flip of S in its way, copies its elements and no other byte, and counts them; a step into the C→V FIFO appends
one row of them. -/
def Obligations.CopiesRun : Prop :=
  (∀ (s : State) (a fl va : EReg) (sc : Scope) (add : Bool) (bs gs : List Byte) (d g : CopyDesc),
  s.quiet → (s.core (coreOf s.cur.sid)).windows.length < 8 → s.roomC = true → s.me.owed < 16 →
  let issues (i : Instr) (x : CopyDesc) (flag : Option (Nat × Word × Scope × Bool)) : Prop :=
    Completes i s fun t => t.out = .deferred ∧ t.mem = s.mem ∧ (∀ k, (t.core k).sp = (s.core k).sp) ∧ (∀ k, k ≠ s.cur.sid → t.stream k = s.stream k) ∧
      ∃ c, t.me = { s.me with cmds := s.me.cmds ++ [c] } ∧ c.kind = .copy x flag ∧ c.pos = 0 ∧ c.done = false ∧ c.eng = s.cur.eng ∧ c.ts = s.cur.ts
  (s.mayReadNow s.cur.sid (s.getE .c a).toNat 192 = true → (s.readDescriptor s.cur.sid (s.getE .c a).toNat 192).2 = .ok bs → copyPlan (s.getE .c a).toNat bs = .copy d →
    (d.total ≠ 0 → issues (.ccopy a) d none) ∧ (d.total = 0 → exec (.ccopy a) s = .next s) ∧
    (s.flagCheck s.cur.sid (s.getE .c fl).toNat (s.getE .c va) sc add = none →
      issues (.ccopyf a fl va sc add) d (some ((s.getE .c fl).toNat, s.getE .c va, sc, add)))) ∧
  (s.mayReadNow s.cur.sid (s.getE .c a).toNat 64 = true → (s.readDescriptor s.cur.sid (s.getE .c a).toNat 64).2 = .ok gs → s.gatherPlan s.cur.sid gs = .copy g →
    (g.total ≠ 0 → issues (.cgath a) g none) ∧ (g.total = 0 → exec (.cgath a) s = .next s)) ∧
  ((s.getE .c a).toNat % 1024 = 0 → (s.getE .c fl).toNat % 1024 = 0 →
    ((s.getE .c va).toNat ≠ 0 →
      issues (.cbank a fl va) { src := (s.getE .c a).toNat, dst := (s.getE .c fl).toNat, esize := 64, dims := [(16 * (s.getE .c va).toNat, 64, 64)] } none) ∧
    ((s.getE .c va).toNat = 0 → exec (.cbank a fl va) s = .next s))) ∧
  (∀ (s : State) (sid idx n : Nat) (c : Cmd) (d : CopyDesc) (sa da : Nat → Target),
  s.quiet → (∀ k, (s.core k).spBad = []) → (s.stream sid).working[idx]? = some c → c.kind = .copy d none → c.faulted = false → c.admitted = false → s.cmdsRun sid = true →
  c.pos < d.total → n = d.stepLen (d.stepKey c.pos) (d.total - c.pos) c.pos → 0 < d.esize →
  (∀ x ∈ (s.stream sid).cmds, ∀ g, x.kind ≠ .note g) →
  (∀ i < n, s.target sid (s.srcAt sid d (c.pos + i)) d.esize .read = .ok (sa i) ∧ (sa i).inMemory) →
  (d.toVq = false → (((s.stream sid).cmds.takeWhile fun x => x.id != c.id).all fun x => x.eng != .c || x.done) = true → s.cmdHeld sid c = false →
    (∀ i < n, s.target sid (d.dstAt (c.pos + i)) d.esize .write = .ok (da i) ∧ (da i).inMemory ∧ s.flipBefore sid .c .s c.place (d.dstAt (c.pos + i)) d.esize = false) →
    (∀ i j, i < j → j < n → (da i).loc.meets d.esize (da j).loc d.esize = false ∧ (da i).loc.meets d.esize (sa j).loc d.esize = false) →
    Completes (.copyStep sid idx) s fun t =>
      (∀ i < n, ∀ b < d.esize, t.homeByte ((da i).loc.plus b) = s.homeByte ((sa i).loc.plus b)) ∧
      (∀ a, (∀ i < n, (da i).loc.meets d.esize (.dram a) 1 = false) → Memory.read t.mem a = Memory.read s.mem a) ∧
      (∀ k a, (∀ i < n, (da i).loc.meets d.esize (.sp k a) 1 = false) → Memory.read (t.core k).sp a = Memory.read (s.core k).sp a) ∧
      ((∀ i < n, ∃ a p, da i = .dram a p) → t.cores = s.cores) ∧ ((∀ i < n, ∃ k o, da i = .sp k o) → t.mem = s.mem) ∧
      ∀ x ∈ (t.stream sid).cmds, x.id = c.id → x.pos = c.pos + n ∧ x.done = decide (d.total ≤ c.pos + n)) ∧
  (d.toVq = true → (∀ i < n, s.mayReadC sid c (s.srcAt sid d (c.pos + i)) d.esize = true) → (s.stream sid).owed ≤ 16 → ((s.stream sid).cmds.find? fun x => x.delivers).map (·.id) = some c.id →
    Completes (.copyStep sid idx) s fun t => t.mem = s.mem ∧ t.cores = s.cores ∧
      (t.stream sid).vq = (s.stream sid).vq ++ [{ data := bytesRow ((List.range n).flatMap fun i => (List.range d.esize).map fun b => s.homeByte ((sa i).loc.plus b)), status := 0 }]))

/-- R272, R315, R268, R269, R271, R334: with no store on its way, the flag of a finished CCOPYF is written, or added, as one word of device
memory after the copy; a flag that is a gate word starts a flip; the flip of a GFLIP that has issued starts where the owner set holds the
flipper, and is GATE with the word as it was where it does not; and when a flip is made, of C or of S, the gate has its new owner, its word
counts one more with the owner in bit 0, and no other byte changes. That a service core's stream may flip any gate is the model's choice
(assumption 98).
R271, R334: GFLIP of a gate word that passes its checks issues its flip and holds S, with the gate and memory as they were (the
flip is made by steps of its own, FlagsAndFlips); one of a word that no gate names is GATE with no effect; when the flip is made, S
goes on and the command is gone. -/
def Obligations.FlagsAndFlips : Prop :=
  (∀ (s : State) (sid idx f a : Nat) (v : Word) (sc : Scope) (add owner : Bool) (c : Cmd) (d : CopyDesc) (p : Page) (g : Gate),
  s.quiet → (∀ x ∈ (s.stream sid).cmds, ∀ n, x.kind ≠ .note n) →
  ((s.stream sid).working[idx]? = some c → ((s.stream sid).working.head?.map (·.id)) = some c.id → c.kind = .copy d (some (f, v, sc, add)) →
    c.faulted = false → c.admitted = false → s.cmdsRun sid = true → d.total ≤ c.pos → s.flagCheck sid f v sc add = none →
    (s.gateAt (s.widOf sid) f = none → s.target sid f 8 .write = .ok (.dram a p) →
      Completes (.copyStep sid idx) s fun t =>
        (∀ i < 8, Memory.read t.mem (a + i) = (leBytes 8 (if add then leNat (Memory.readList s.mem a 8) + v.toNat else v.toNat)).getD i 0) ∧
        (∀ b, (b < a ∨ a + 8 ≤ b) → Memory.read t.mem b = Memory.read s.mem b) ∧ t.cores = s.cores ∧
        ∀ x ∈ (t.stream sid).cmds, x.id = c.id → x.done = true) ∧
    (s.gateAt (s.widOf sid) f = some g → g.flipping = false → (isService sid = true ∨ g.permits (dieOf (coreOf sid)) = true) →
      Completes (.copyStep sid idx) s fun t => t.mem = s.mem ∧ (∀ x ∈ (t.stream sid).cmds, x.id = c.id → x.admitted = true ∧ x.done = false) ∧
        ∀ h ∈ t.gates, h.dpa = g.dpa → h = { g with flipping := true })) ∧
  ((∀ x ∈ (s.stream sid).working, x.admitted = false) → (s.stream sid).flipping = some c → c.done = false → c.kind = .flip g.dpa owner →
    (s.gates.find? fun h => h.dpa == g.dpa) = some g →
    (c.pos = 0 → g.flipping = false → (isService sid = true ∨ g.permits (dieOf (coreOf sid)) = true) →
      Completes (.gateFlipCommit sid) s fun t => t.mem = s.mem ∧ (∀ x ∈ (t.stream sid).cmds, x.id = c.id → x.pos = 1) ∧
        ∀ h ∈ t.gates, h.dpa = g.dpa → h = { g with flipping := true }) ∧
    (c.pos = 0 → g.flipping = false → isService sid = false → g.permits (dieOf (coreOf sid)) = false → (s.stream sid).run ≠ .suspended →
      Completes (.gateFlipCommit sid) s fun t => t.mem = s.mem ∧ t.gates = s.gates ∧ (t.stream sid).run = .suspended ∧ (t.stream sid).fcode = 0x0D ∧
        ∀ x ∈ (t.stream sid).cmds, x.id ≠ c.id) ∧
    (c.pos ≠ 0 → Completes (.gateFlipCommit sid) s fun t => s.Flipped g owner t ∧ ∀ x ∈ (t.stream sid).cmds, x.id = c.id → x.done = true)) ∧
  ((s.stream sid).flipping = none →
    ((s.stream sid).working.find? fun x => x.admitted && (match x.kind with | .copy _ (some _) => true | _ => false)) = some c →
    c.kind = .copy d (some (f, v, sc, add)) → s.gateAt (s.widOf sid) f = some g →
    Completes (.gateFlipCommit sid) s fun t => s.Flipped g (v.getLsbD 0) t ∧ ∀ x ∈ (t.stream sid).cmds, x.id = c.id → x.done = true)) ∧
  (∀ (s : State) (b : SReg) (owner : Bool) (off : BitVec 20) (a dpa : Nat) (p : Page) (g : Gate) (c : Cmd),
  (s.cur.eng = .s → s.me.flipping true = none → a = (addrAdd (s.getS b) off.toInt) → a < 0x800000000000 →
    s.pageCheck (s.widOf s.cur.sid) s.cur.sid a 8 .write false true = .ok (dpa, p) →
    (s.gateAt (s.widOf s.cur.sid) a = none → exec (.gflip b owner off) s = .next (s.fault (gateFault a 0))) ∧
    (s.gateAt (s.widOf s.cur.sid) a = some g → Completes (.gflip b owner off) s fun t => t.out = .held ∧ t.mem = s.mem ∧ t.gates = s.gates ∧
      ∃ x, t.me.flipping true = some x ∧ x.kind = .flip g.dpa owner ∧ x.done = false ∧ x.pos = 0)) ∧
  (s.me.flipping true = some c → c.done = true → Completes (.gflip b owner off) s fun t =>
    t.me = { s.me with cmds := s.me.cmds.filter fun x => x.id != c.id } ∧ OnlyMe s t))

/-- R163, R164, R170, R172, R175, R177, R322, R323: with no store on its way, a window free, no earlier copy of C still writing, none of its writes held and room in the slice, a CSCANR or CSCANU whose checks are good
is admitted at once: its slice's queue gains the request, stamped with its lap, under the next sequence number of its port; a CSCANR that finds no row free in the
C→V FIFO has taken its stamp, and holds. That this
holds while the region's rows are still being cleared, and while it is being released, is the model's choice (assumptions 94, 95).
R173, R318, R165, R167: CLAP gives the port's open lap and subscribes its stream; with CLOSE, in stepped mode, it closes that lap and
sends a marker to every slice, or holds while the lap is 16 ahead of the laps served. -/
def Obligations.ScansAdmitted : Prop :=
  (∀ (s : State) (a len e l : EReg) (lap vq : Bool) (op : ScanOp) (dva n dst r port stamp : Nat) (x : Region)
  (data : List Byte) (w : Option (Nat × Nat)), s.quiet → s.me.standing .c = none → s.roomC = true → s.region r = some x → (∀ c ∈ s.me.cmds, ∀ g, c.kind ≠ .note g) →
  dva = (s.getE .c a).toNat → n = (s.getE .c len).toNat → stampLap (x.openLap port) (s.scanStamp l lap) = some stamp → x.roomFor (x.place dva).2.1 port = true →
  let queued (t : State) (q : ScanReq) : Prop := ∃ y, t.region r = some y ∧
    (y.slice (x.place dva).2.1).queue = (x.slice (x.place dva).2.1).queue ++ [q] ∧ Tab.get 0 y.seqs port = Tab.get 0 x.seqs port + 1 ∧
    (∀ i, i ≠ (x.place dva).2.1 → y.slice i = x.slice i) ∧ t.mem = s.mem ∧
    q.port = port ∧ q.seq = Tab.get 0 x.seqs port ∧ q.stamp = stamp ∧ q.row = (x.place dva).1 ∧ q.off = (x.place dva).2.2 ∧ q.len = n ∧ q.wid = x.wid
  (dst = (s.getE .c e).toNat → s.scanCheck s.cur.sid dva n .read = .ok (r, x, port) →
    (if vq then s.me.owed < 16 else dst % 64 = 0 ∧ (s.spDvaRange s.cur.sid dst (n + 8)).isSome = true) →
    Completes (.cscanr a len e l lap vq) s fun t => t.out = .deferred ∧ (∃ q, queued t q ∧ q.update = none ∧ q.cmd = s.nextId) ∧
      ∃ c ∈ t.me.cmds, c.id = s.nextId ∧ c.kind = .scanRead r dva n stamp vq dst ∧ c.admitted = true ∧ c.done = false) ∧
  (dst = (s.getE .c e).toNat → s.scanCheck s.cur.sid dva n .read = .ok (r, x, port) → vq = true → 16 ≤ s.me.owed →
    Completes (.cscanr a len e l lap vq) s fun t => t.out = .held ∧ t.regions = s.regions ∧ t.mem = s.mem ∧
      ∃ c ∈ t.me.cmds, c.id = s.nextId ∧ c.kind = .scanRead r dva n stamp vq dst ∧ c.admitted = false) ∧
  (s.scanCheck s.cur.sid dva n .write = .ok (r, x, port) → (s.scanSource s.cur.sid (s.getE .c e).toNat n) = (s, .ok (data, w)) → data.length = n →
    (s.core (coreOf s.cur.sid)).windows.length < 8 → s.mayReadNow s.cur.sid (s.getE .c e).toNat n = true →
    (∀ c ∈ s.me.cmds, c.eng = .c → c.done = true ∨ (∃ d f, c.kind = .copy d f ∧ d.toVq = true) ∨ ((∀ d f, c.kind ≠ .copy d f) ∧ s.cmdHeld s.cur.sid c = false)) →
    Completes (.cscanu a e len l lap op) s fun t => t.out = s.out ∧ (∃ q, queued t q ∧ q.update = some (op, data)) ∧ ∀ c ∈ t.me.cmds, c ∈ s.me.cmds)) ∧
  (∀ (s : State) (e l : EReg) (r p : Nat) (x : Region), r = (s.getE .c l).toNat → r < 16 → s.region r = some x →
  x.wid = s.widOf s.cur.sid → s.portOf s.cur.sid r = some p → (x.stepped = false ∨ p ∈ x.parts) →
  (Completes (.clap e l false) s fun t => t.getE .c e = BitVec.ofNat 64 (x.openLap p % 2 ^ 32) ∧ r ∈ t.me.subs ∧ Tab.find t.me.ports r = some p ∧
    t.regions = s.regions ∧ t.mem = s.mem) ∧
  (x.stepped = true → x.openLap p < x.served + 16 → Completes (.clap e l true) s fun t =>
    t.getE .c e = BitVec.ofNat 64 (x.openLap p % 2 ^ 32) ∧ r ∈ t.me.subs ∧ t.mem = s.mem ∧ ∃ y, t.region r = some y ∧ y.openLap p = x.openLap p + 1 ∧
      y.pend = x.pend ++ (List.range x.count).map (fun i => (i, p, x.openLap p)) ∧ y.slices = x.slices ∧ y.served = x.served) ∧
  (x.stepped = true → ¬ x.openLap p < x.served + 16 → Completes (.clap e l true) s fun t => t.out = .held ∧ t.regions = s.regions) ∧
  (x.stepped = false → exec (.clap e l true) s = .next (s.fault { code := 0x0E, addr := 0, detail := BitVec.ofNat 64 r })))

/-- Table 7.5, R165, R166, R167, over idle links: the lap bell of a timed region closes the open lap of every port; a close marker reaches its slice; a
slice writes its rows to zero one by one, after the last of which it waits for lap 0, or begins its pass where its markers have come
already; when the cursor has passed the last row with nothing left of the lap it waits for the next one; laps that every
slice has served set EVT bit 3 of the region's subscribers.
R168, R169, Table 7.2: with no store on its way, the cursor of a slice serves the next row of its pass: a SET leaves its bytes, an
ADD.i32 adds word by word, the float additions, MAX and MIN act element by element on the old value and the source, of two SETs the one of the higher port or sequence number stands, and a read answers its command with
the row's bytes after the updates. Every other byte of memory stays.
R172, R175, R177, R161: a waiting request is admitted once its slice has room, and the C→V FIFO where it delivers there; the oldest reply a stream is owed goes to the C→V FIFO, or
to the scratchpad with its status word after it, when no window is live and nothing of C stands before it; and a released region
whose work is done is gone with its mapping, its rows zero. -/
def Obligations.SlicesServe : Prop :=
  (∀ (s : State) (r i port lap row : Nat) (x : Region), s.linksIdle → s.region r = some x →
  (x.stepped = false → x.releasing = false → x.made = true → x.waiter = none → x.lastBell + x.bell ≤ s.now → x.bells < x.served + 16 →
    Completes (.lapBell r) s fun t => t.mem = s.mem ∧ t.streams = s.streams ∧ ∃ y, t.region r = some y ∧ y.bells = x.bells + 1 ∧ y.lastBell = x.lastBell + x.bell ∧
      y.pend = x.pend ++ (s.timedPorts r).flatMap (fun p => (List.range x.count).map fun k => (k, p, x.bells)) ∧ y.slices = x.slices) ∧
  ((x.pend.find? fun m => m.1 == i && m.2.1 == port) = some (i, port, lap) → s.noneWaiting r port lap = true →
    x.stepped = true → (x.slice i).st = .wait lap → (x.slice i).hasWork lap = true →
    Completes (.closeMarkerArrive r i port) s fun t => t.mem = s.mem ∧ ∃ y, t.region r = some y ∧ y.pend = x.pend.erase (i, port, lap) ∧
      (y.slice i).markers = (x.slice i).markers ++ [(port, lap)] ∧ (y.slice i).queue = (x.slice i).queue ∧ (∀ k, k ≠ i → y.slice k = x.slice k) ∧
      (y.slice i).st = (if x.parts.all (fun p => ((x.slice i).markers ++ [(port, lap)]).contains (p, lap)) then .pass lap 0 else .wait lap)) ∧
  ((x.pend.find? fun m => m.1 == i && m.2.1 == port) = some (i, port, lap) → s.noneWaiting r port lap = false → exec (.closeMarkerArrive r i port) s = .next s) ∧
  (i < x.count → (x.slice i).st = .zero row → s.quiet → Completes (.sliceZeroRow r i) s fun t =>
    (∀ b, Memory.read t.mem b = if rowAddr r (row * x.count + i) ≤ b ∧ b < rowAddr r (row * x.count + i) + 1024 then 0 else Memory.read s.mem b) ∧
    ∃ y, t.region r = some y ∧ (row + 1 < x.nrow → (y.slice i).st = .zero (row + 1)) ∧
      (¬ row + 1 < x.nrow → (x.markersIn i 0 = false → (y.slice i).st = .wait 0) ∧
        (x.markersIn i 0 = true → (x.slice i).hasWork 0 = true → (y.slice i).st = .pass 0 0)) ∧ (y.slice i).queue = (x.slice i).queue ∧
      ∀ k, k ≠ i → y.slice k = x.slice k) ∧
  ((x.slice i).st = .pass lap row → (x.slice i).hasWork lap = false →
    Completes (.slicePassEnd r i) s fun t => t.mem = s.mem ∧ ∃ y, t.region r = some y ∧ lap + 1 ≤ (y.slice i).lap ∧ (y.slice i).queue = (x.slice i).queue ∧
      y.served = Nat.max x.served y.servedNow ∧ (x.served < y.servedNow → ∀ k, r ∈ (s.stream k).subs → (s.stream k).ident.wid = x.wid → (t.stream k).evt = (s.stream k).evt ||| 8)) ∧
  ((x.slice i).st = .pass lap row → ((x.slice i).queue.any fun q => q.stamp == lap && decide (row ≤ q.row / x.count)) = true →
    exec (.slicePassEnd r i) s = .next s)) ∧
  (∀ (s : State) (r i lap cur a : Nat) (x : Region) (q u : ScanReq) (d d' : List Byte), s.quiet → s.region r = some x →
  (x.slice i).st = .pass lap cur → q.stamp = lap → cur ≤ q.row / x.count → a = rowAddr r q.row + q.off → q.len = d.length →
  ((x.slice i).queue = [q] →
    (q.update = some (.set, d) → Completes (.sliceRowServe r i) s fun t =>
      (∀ k < d.length, Memory.read t.mem (a + k) = d.getD k 0) ∧ (∀ b, (b < a ∨ a + d.length ≤ b) → Memory.read t.mem b = Memory.read s.mem b) ∧
      ∃ y, t.region r = some y ∧ y.slice i = { x.slice i with st := .pass lap (q.row / x.count + 1), queue := [] }) ∧
    (q.update = some (.addI32, d) → d.length % 4 = 0 → Completes (.sliceRowServe r i) s fun t =>
      (∀ k < d.length / 4, leNat (Memory.readList t.mem (a + 4 * k) 4) =
        (leNat (Memory.readList s.mem (a + 4 * k) 4) + leNat ((d.drop (4 * k)).take 4)) % 2 ^ 32) ∧
      (∀ b, (b < a ∨ a + d.length ≤ b) → Memory.read t.mem b = Memory.read s.mem b)) ∧
    (∀ op ∈ [(ScanOp.addF32, 4, addAt .f32), (.addBf16, 2, addAt .bf16), (.addF16, 2, addAt .f16), (.maxF32, 4, maxAt .f32), (.minF32, 4, minAt .f32)],
      q.update = some (op.1, d) → d.length % op.2.1 = 0 → Completes (.sliceRowServe r i) s fun t =>
      (∀ k < d.length / op.2.1, leNat (Memory.readList t.mem (a + op.2.1 * k) op.2.1) =
        op.2.2 (leNat (Memory.readList s.mem (a + op.2.1 * k) op.2.1)) (leNat ((d.drop (op.2.1 * k)).take op.2.1))) ∧
      (∀ b, (b < a ∨ a + d.length ≤ b) → Memory.read t.mem b = Memory.read s.mem b)) ∧
    (q.update = none → q.len % 64 = 0 → Completes (.sliceRowServe r i) s fun t => t.mem = s.mem ∧
      ∀ k, ∀ c ∈ (t.stream k).cmds, c.id = q.cmd → c.reply = some (bytesRow (Memory.readList s.mem a q.len), BitVec.ofNat 64 (lap % 2 ^ 32)))) ∧
  ((x.slice i).queue = [q, u] ∨ (x.slice i).queue = [u, q] →
    q.update = some (.set, d) → u.update = some (.set, d') → u.stamp = lap → u.row = q.row → u.off = q.off → u.len = q.len → d'.length = d.length →
    (q.port < u.port ∨ (q.port = u.port ∧ q.seq < u.seq)) →
    Completes (.sliceRowServe r i) s fun t => (∀ k < d'.length, Memory.read t.mem (a + k) = d'.getD k 0) ∧
      ∀ b, (b < a ∨ a + d.length ≤ b) → Memory.read t.mem b = Memory.read s.mem b)) ∧
  (∀ (s : State) (sid r n a st dst off : Nat) (c : Cmd) (x : Region) (row : Row) (status : Word) (vq : Bool), s.quiet →
  ((s.stream sid).unadmitted = some c → s.cmdsRun sid = true → c.kind = .scanRead r a n st vq dst → s.region r = some x →
    ∀ p, s.portOf sid r = some p →
    (x.roomFor (x.place a).2.1 p = true → (vq = true → (s.stream sid).owed ≤ 16) → Completes (.scanAdmission sid) s fun t => (∀ d ∈ (t.stream sid).cmds, d.id = c.id → d.admitted = true) ∧
      ∃ y q, t.region r = some y ∧ (y.slice (x.place a).2.1).queue = (x.slice (x.place a).2.1).queue ++ [q] ∧ q.stamp = st ∧ q.port = p ∧ q.cmd = c.id) ∧
    ((x.roomFor (x.place a).2.1 p = false ∨ (vq = true ∧ 16 < (s.stream sid).owed)) → exec (.scanAdmission sid) s = .next s)) ∧
  (((s.stream sid).cmds.find? fun d => d.delivers) = some c → c.kind = .scanRead r a n st vq dst → c.reply = some (row, status) → (s.stream sid).run ≠ .free →
    (∀ d ∈ (s.stream sid).cmds, ∀ g, d.kind ≠ .note g) →
    (vq = true → Completes (.scanReplyDeliver sid) s fun t => (t.stream sid).vq = (s.stream sid).vq ++ [{ data := row, status := status }] ∧ t.mem = s.mem ∧
      t.cores = s.cores ∧ ∀ d ∈ (t.stream sid).cmds, d.id = c.id → d.done = true) ∧
    (vq = false → s.spDvaRange sid dst (n + 8) = some off → n ≤ 1024 → (s.core (coreOf sid)).windows = [] → s.mayWriteC sid c dst (n + 8) = true →
      status.getLsbD 32 = false → Completes (.scanReplyDeliver sid) s fun t => t.mem = s.mem ∧
      (∀ b, Memory.read (t.core (coreOf sid)).sp b = if off ≤ b ∧ b < off + n then (rowBytes row).getD (b - off) 0
        else if off + n ≤ b ∧ b < off + n + 8 then (leBytes 8 status.toNat).getD (b - off - n) 0 else Memory.read (s.core (coreOf sid)).sp b) ∧
      ∀ d ∈ (t.stream sid).cmds, d.id = c.id → d.done = true)) ∧
  (s.region r = some x → x.releasing = true → s.emptied r x = true → (∀ q ∈ s.traps, x.waiter ≠ some q.sid) →
    Completes (.scanRegionRelease r) s fun t => t.region r = none ∧ (∀ k, k ≠ r → t.region k = s.region k) ∧
      (∀ b, Memory.read t.mem b = if regionDpa r ≤ b ∧ b < regionDpa r + (x.bytes + 65535) / 65536 * 65536 then 0 else Memory.read s.mem b) ∧
      ∀ p ∈ t.pages, p ∈ s.pages ∧ ¬(p.wid = x.wid ∧ x.base ≤ p.dva ∧ p.dva < x.base + (x.bytes + 65535) / 65536 * 65536)))

/-- R226, R227, R228, R229, R260, Tables 9.6, 9.7: with no store on its way, a SAVE that may run leaves the stream free and its context and
scratchpad half, its rings and its windows in an image at the place named, with all that Table 9.6 names of it as it was, and a RESTORE that may run brings them back and leaves the image spent in its place; each leaves
STATUS 0 with BUSY, which the end of the command clears. A SAVE of a free stream has STATUS 1, one to a bad place STATUS 2, a
RESTORE of no image, or of one that does not verify, STATUS 3; reading a torn one is logged for its world (assumption 86). That the image stands spent in its place (assumption 16), that STATUS 1 of a SAVE goes before STATUS 2
(assumption 42), and that BUSY stands until a later step (assumption 62) are the model's choices.
R232, R233: with no store on its way, a PSWAP SAVE of a partition whose streams may be saved frees each of them and fills the shadow
slot with their contexts; a RESTORE of a filled slot over free streams brings each back and empties the slot; SAVE to a filled slot
has STATUS 2 and RESTORE of an empty one too. BUSY ends with the command. -/
def Obligations.ContextsMove : Prop :=
  (∀ (s : State) (sid t addr key : Nat) (f st : Stream) (i : Image), s.noStores → t ≠ sid → t < 512 → sid < 1024 →
  f = s.stream sid → st = s.stream t → t = bits f.ctxNext.1.toNat 0 10 → addr = f.ctxNext.2.toNat → key = placeKey addr (dieOf (coreOf t)) →
  (f.ctxWants 1 = true →
    (st.run ≠ .free → st.run ≠ .stopped → s.placeOk addr st.wide = true → s.settling t = false →
      Completes (.ctxSave sid) s fun u => (u.stream t).run = .free ∧ u.stream sid = { f with ctxcmd := withStatus f.ctxcmd true 0, ctxDue := false } ∧
        (∀ k, k ≠ t → k ≠ sid → u.stream k = s.stream k) ∧
        ∃ x, Tab.find u.images key = some x ∧ x.stream = { st.context s.now with seen := [] } ∧ x.idx = t % 2 ∧ x.core = coreOf t ∧ SameContext x.stream st ∧
          x.windows = (s.core (coreOf t)).windows.filter (fun w => w.sid == t) ∧
          (∀ r, (st.wide = true ∨ r / 8 = t % 2) → Tab.find x.rings r = Tab.find (s.core (coreOf t)).rings r) ∧
          ∀ a < st.spSize, Memory.read x.sp a = Memory.read (s.core (coreOf t)).sp (spBase st t + a)) ∧
    (st.run = .free → exec (.ctxSave sid) s = .next (s.setStream sid { f with ctxcmd := withStatus f.ctxcmd true 1, ctxDue := false })) ∧
    (st.run = .running → s.placeOk addr st.wide = false → exec (.ctxSave sid) s = .next (s.setStream sid { f with ctxcmd := withStatus f.ctxcmd true 2, ctxDue := false }))) ∧
  (f.ctxWants 2 = true → s.restorable t = true → s.placeOk addr false = true →
    (Tab.find s.images key = some i → t % 2 = i.idx → clusterOf (dieOf (coreOf t)) = clusterOf (dieOf i.core) → (i.stream.wide = true → s.restorable (t ^^^ 1) = true) → s.imageGood key i = true → s.installable t i = true → s.windowRoom (coreOf t) [i] = true →
      Completes (.ctxRestore sid) s fun u =>
        u.stream t = { i.stream with progAt := s.now - i.stream.progAt, acqs := [], seen := (u.stream t).seen, early := (u.stream t).early } ∧
        u.stream sid = { f with ctxcmd := withStatus f.ctxcmd true 0, ctxDue := false } ∧ Tab.find u.images key = none ∧
        (s.memErr = [] → Tab.find u.spent key = some i ∧ u.mem = s.mem) ∧
        ∀ a < i.stream.spSize, Memory.read (u.core (coreOf t)).sp (spBase i.stream t + a) = Memory.read i.sp a) ∧
    (Tab.find s.images key = some i → t % 2 = i.idx → clusterOf (dieOf (coreOf t)) = clusterOf (dieOf i.core) → (i.stream.wide = true → s.restorable (t ^^^ 1) = true) → s.imageGood key i = false →
      Completes (.ctxRestore sid) s fun u => u.stream t = s.stream t ∧ u.stream sid = { f with ctxcmd := withStatus f.ctxcmd true 3, ctxDue := false } ∧
        (s.memErr = [] → ((i.torn && s.live i.stream.ident.wid) = false → u.mem = s.mem) ∧ (i.torn = true → s.live i.stream.ident.wid = true →
          s.bufferFull i.stream.ident.wid 0x30 (s.world i.stream.ident.wid).errs.length = false →
          u.mem = s.mem ∧ (u.world i.stream.ident.wid).errs.length = (s.world i.stream.ident.wid).errs.length + 1))) ∧
    (Tab.find s.images key = none → Tab.find s.spent key = none → exec (.ctxRestore sid) s = .next (s.setStream sid { f with ctxcmd := withStatus f.ctxcmd true 3, ctxDue := false }))) ∧
  (isBusy f.ctxcmd = true → f.ctxDue = false → Completes (.ctxCommandDone sid) s fun u =>
    (∀ k, (u.stream sid).ctxcmd.getLsbD k = (f.ctxcmd.getLsbD k && k != 63)) ∧ u = { s with streams := u.streams } ∧ ∀ k, k ≠ sid → u.stream k = s.stream k)) ∧
  (∀ (s : State) (sid die grp slot : Nat) (f : Stream) (x : SwapSlot), s.noStores → 512 ≤ sid → f = s.stream sid →
  die = bits f.pswap.toNat 4 2 → grp = bits f.pswap.toNat 0 2 → slot = 8 * die + bits f.pswap.toNat 12 3 →
  let at' (c b : Nat) : Nat := 2 * (64 * die + 16 * grp + c) + b
  (f.pswapWants 1 = true →
    (Tab.find s.shadow slot = none → (∀ p ∈ partition die grp, s.settling p.2.2 = false) →
      Completes (.pswapSave sid) s fun u => u.stream sid = { f with pswap := withStatus f.pswap true 0, pswapDue := false } ∧
        ∃ y, Tab.find u.shadow slot = some y ∧ ∀ c b, c < 16 → b < 2 → (u.stream (at' c b)).run = .free ∧
          ((s.stream (at' c b)).run ≠ .free ↔ ∃ q ∈ y.images, q.1 = c ∧ q.2.1 = b ∧ q.2.2.stream = { (s.stream (at' c b)).context s.now with seen := [] })) ∧
    (Tab.find s.shadow slot = some x → exec (.pswapSave sid) s = .next (s.setStream sid { f with pswap := withStatus f.pswap true 2, pswapDue := false }))) ∧
  (f.pswapWants 2 = true → (∀ p ∈ partition die grp, s.freeSlot p.2.2 = true) →
    (Tab.find s.shadow slot = some x → x.fwds = [] → (x.images.map fun q => (q.1, q.2.1)).Nodup → (∀ q ∈ x.images, q.1 < 16 ∧ q.2.1 < 2 ∧ s.installable (at' q.1 q.2.1) q.2.2 = true ∧
        s.windowRoom (coreOf (at' q.1 0)) ((x.images.filter fun p => p.1 == q.1).map fun p => p.2.2) = true) →
      Completes (.pswapRestore sid) s fun u => u.stream sid = { f with pswap := withStatus f.pswap true 0, pswapDue := false } ∧
        Tab.find u.shadow slot = none ∧ u.mem = s.mem ∧ ∀ q ∈ x.images, u.stream (at' q.1 q.2.1) =
          { q.2.2.stream with progAt := s.now - q.2.2.stream.progAt, acqs := [], seen := (u.stream (at' q.1 q.2.1)).seen, early := (u.stream (at' q.1 q.2.1)).early }) ∧
    (Tab.find s.shadow slot = none → exec (.pswapRestore sid) s = .next (s.setStream sid { f with pswap := withStatus f.pswap true 2, pswapDue := false }))) ∧
  (isBusy f.pswap = true → f.pswapDue = false → Completes (.pswapDone sid) s fun u =>
    (∀ k, (u.stream sid).pswap.getLsbD k = (f.pswap.getLsbD k && k != 63)) ∧ u = { s with streams := u.streams } ∧ ∀ k, k ≠ sid → u.stream k = s.stream k))

/-- R234: GATE of a partition with every stream free empties and gates its cores, and with one in use has STATUS 1; UNGATE brings gated
cores up empty. Neither touches memory. BUSY stands until a later step ends it (the model's choice, assumption 62).
R237, R238: with no store on its way, the move of a stream that has yielded with a request pending takes its context and its
scratchpad half to the target and leaves its former slot free and forwarded to the iteration; a request whose slot in the migration area
cannot be reached lapses (the model's choice, assumption 76). -/
def Obligations.PowerGatesAndMoves : Prop :=
  (∀ (s : State) (sid die grp : Nat) (f : Stream), 512 ≤ sid → f = s.stream sid → die = bits f.pgate.toNat 4 2 → grp = bits f.pgate.toNat 0 2 →
  (f.pgateWants 1 = true →
    ((∀ p ∈ partition die grp, s.freeSlot p.2.2 = true) → Completes (.pgateGate sid) s fun u =>
      u.stream sid = { f with pgate := withStatus f.pgate true 0, pgateDue := false } ∧ u.mem = s.mem ∧ u.rows = s.rows ∧ u.leases = s.leases ∧
      (∀ c < 16, u.core (64 * die + 16 * grp + c) = { Core.reset with gated := true }) ∧
      (∀ e ∈ u.tlb, e ∈ s.tlb ∧ ∀ c < 16, e.1 ≠ 64 * die + 16 * grp + c) ∧
      ∀ k, (k < 64 * die + 16 * grp ∨ 64 * die + 16 * grp + 16 ≤ k) → u.core k = s.core k) ∧
    (∀ p ∈ partition die grp, s.freeSlot p.2.2 = false →
      exec (.pgateGate sid) s = .next (s.setStream sid { f with pgate := withStatus f.pgate true 1, pgateDue := false }))) ∧
  (f.pgateWants 0 = true → (∀ p ∈ partition die grp, (s.core (coreOf p.2.2)).gated = true) → Completes (.pgateUngate sid) s fun u =>
    u.stream sid = { f with pgate := withStatus f.pgate true 0, pgateDue := false } ∧ u.mem = s.mem ∧
    ∀ c < 16, u.core (64 * die + 16 * grp + c) = Core.reset ∧ ∀ b < 2, u.stream (2 * (64 * die + 16 * grp + c) + b) = Stream.reset) ∧
  (isBusy f.pgate = true → f.pgateDue = false → Completes (.pgateDone sid) s fun u =>
    (∀ k, (u.stream sid).pgate.getLsbD k = (f.pgate.getLsbD k && k != 63)) ∧ u = { s with streams := u.streams } ∧ ∀ k, k ≠ sid → u.stream k = s.stream k)) ∧
  (∀ (s : State) (sid g : Nat) (st : Stream), s.noStores → st = s.stream sid → sid < 512 → g < 512 → g % 2 = sid % 2 → g ≠ sid →
  st.migrate = some g → st.yielding = true → st.run = .running → st.drained = true → st.wide = false →
  (s.reachableAll (s.migSlot g) (imageBytes true) = false → exec (.migrationMove sid) s = .next (s.unreserve sid)) ∧
  (s.reachableAll (s.migSlot g) (imageBytes true) = true → s.settling sid = false → s.keyRoom (coreOf g) st.ident.wid = true →
    (s.core (coreOf g)).windows.length + ((s.core (coreOf sid)).windows.filter fun w => w.sid == sid).length ≤ 8 → Completes (.migrationMove sid) s fun u =>
    u.stream g = { st.context s.now with progAt := s.now - (s.now - st.progAt), migrate := none, yielding := false, acqs := [], seen := (u.stream g).seen, early := (u.stream g).early } ∧
    SameContext { u.stream g with migrate := st.migrate, yielding := st.yielding } st ∧
    (u.stream sid).run = .free ∧ (u.stream sid).fwd = some st.ident.key ∧ (∀ k, k ≠ sid → k ≠ g → u.stream k = s.stream k) ∧
    ∀ a < 524288, Memory.read (u.core (coreOf g)).sp (g % 2 * 524288 + a) = Memory.read (s.core (coreOf sid)).sp (sid % 2 * 524288 + a)))

/-- R150, R151, Table 6.8: with no store on its way, firmware answers a MAP that meets its checks by a new mapping and status 0, and one that
overlaps a mapping by status 3; an UNMAP of a page not in use takes the mapping and its TLB entries away.
R159, Table 7.1: with no store on its way, SCANMAKE of a good block sets up the lowest free region, each slice to write its rows to zero
first, and is answered with the region's number above status 0 when all have; a refused block is answered with 3. That it takes the lowest free
number is the model's choice (assumption 38).
R264, R265, R267: with no store on its way, GATEBIND of a good block binds the gate: its word holds the owner, its pages are gated and no
TLB holds their old entries; UNBIND of a gate no flip holds makes its pages normal and the gate is gone. -/
def Obligations.MapsRegionsGates : Prop :=
  (∀ (s : State) (sid blk dva dpa attr n : Nat) (q : TrapReq) (p : Page), s.quiet →
  dva = s.blockWord sid q.wid blk 0 →
  (s.asked q sid blk 1 → dpa = s.blockWord sid q.wid blk 8 → attr = s.blockWord sid q.wid blk 16 → n = pageBytes (bits attr 6 2) →
    blk % 32 = 0 → attrBad attr = false → dva % n = 0 → dpa % n = 0 → dva + n ≤ 0x800000000000 → s.owns q.wid dpa n = true →
    (s.unmapped q.wid dva n = true → Completes (.map sid blk) s fun t => Answered t q 0 ∧ t.rows = s.rows ∧
      t.pages = s.pages ++ [{ wid := q.wid, dva := dva, dpa := dpa, size := bits attr 6 2, cls := 0, zfill := attr.testBit 3, x := attr.testBit 2, w := attr.testBit 1, r := attr.testBit 0 }]) ∧
    (s.unmapped q.wid dva n = false → Completes (.map sid blk) s fun t => Answered t q 3 ∧ t.pages = s.pages)) ∧
  (s.asked q sid blk 2 → attr = s.blockWord sid q.wid blk 16 → blk % 32 = 0 → s.regionBased q.wid dva = none → dva % pageBytes (bits attr 6 2) = 0 →
    dva < 0x800000000000 → s.regionAt q.wid dva = none →
    ((s.pages.find? fun x => x.wid == q.wid && x.dva == dva && x.size == bits attr 6 2) = some p → s.pageInUse p = false → s.textInPage p = false →
      Completes (.unmap sid blk) s fun t => Answered t q 0 ∧ t.rows = s.rows ∧
        (∀ x, x ∈ t.pages ↔ x ∈ s.pages ∧ ¬(x.wid = q.wid ∧ x.dva = dva)) ∧ ∀ e ∈ t.tlb, e ∈ s.tlb ∧ ¬(e.2.1 = q.wid ∧ e.2.2 = dva)) ∧
    ((s.pages.find? fun x => x.wid == q.wid && x.dva == dva && x.size == bits attr 6 2) = none →
      Completes (.unmap sid blk) s fun t => Answered t q 7 ∧ t.pages = s.pages))) ∧
  (∀ (s : State) (sid blk r : Nat) (q : TrapReq) (x : Region), s.quiet → s.asked q sid blk 6 →
  let w (off : Nat) : Nat := s.blockWord sid q.wid blk off
  let bad : Bool := s.scanBlockBad q.wid blk (w 0) (w 8) (w 16) (w 24) (w 32) (s.blockTail sid q.wid blk)
  let n := 2 ^ bits (w 8) 0 4
  ((s.regions.find? fun p => p.2.waiter == some sid && !p.2.releasing) = some (r, x) → x.made = true →
    Completes (.scanmake sid blk) s fun t => Answered t q (256 * r) ∧ ∃ y, t.region r = some y ∧ y.waiter = none ∧ y.slices = x.slices ∧ y.wid = x.wid ∧ y.base = x.base) ∧
  ((s.regions.find? fun p => p.2.waiter == some sid && !p.2.releasing) = none →
    (bad = true → Completes (.scanmake sid blk) s fun t => Answered t q 3 ∧ t.regions = s.regions) ∧
    (bad = false → s.unmapped q.wid (w 0) ((n * (bits (w 8) 8 16 + 1) * 1024 + 65535) / 65536 * 65536) = true →
      ((List.range 16).find? fun k => (s.region k).isNone) = some r → n ≤ (s.freeSlices (bits (w 8) 26 2)).length →
      Completes (.scanmake sid blk) s fun t => t.traps = s.traps ∧ t.mem = s.mem ∧ ∃ y, t.region r = some y ∧ t.pages = s.pages ++ y.pages r ∧
        y.wid = q.wid ∧ y.base = w 0 ∧ y.count = n ∧ y.nrow = bits (w 8) 8 16 + 1 ∧ y.stepped = (w 8).testBit 24 ∧ y.zfill = (w 8).testBit 25 ∧ y.bell = w 16 ∧
        y.served = 0 ∧ y.slots.length = n ∧ ∀ i < n, y.slice i = { st := .zero 0 }))) ∧
  (∀ (s : State) (sid blk d : Nat) (q : TrapReq) (g : Gate) (p : Page), s.quiet → s.asked q sid blk 7 → blk % 64 = 0 →
  let w (off : Nat) : Nat := s.blockWord sid q.wid blk off
  let npg := w 16 % 65536 + 1
  s.blockTail sid q.wid blk = 0 → w 0 % 8 = 0 → w 8 % 65536 = 0 →
  (w 16 < 65536 → w 24 < 2 ^ 11 → bits (w 24) 9 2 ≠ 3 → bits (w 24) 0 4 ≠ 0 → bits (w 24) 4 4 ≠ 0 → bits (w 24) 0 4 &&& bits (w 24) 4 4 = 0 →
    s.page q.wid (w 0) = some p → p.cls = 0 → p.r = true → p.w = true → ¬(w 8 ≤ w 0 ∧ w 0 < w 8 + npg * 65536) → d = p.dpaOf (w 0) → s.gateWord d = none → s.runsText d = false →
    s.gatePageOk q.wid (w 8) npg (bits (w 24) 9 2) = true → s.gates.length < 4096 →
    Completes (.gatebindBind sid blk) s fun t => Answered t q 0 ∧
      t.gates = s.gates ++ [{ wid := q.wid, dva := w 0, dpa := d, base := w 8, npg := npg, set0 := BitVec.ofNat 4 (w 24), set1 := BitVec.ofNat 4 (w 24 / 16), owner := (w 24).testBit 8 }] ∧
      t.pages = s.pages.map (fun x => if x.wid = q.wid ∧ w 8 ≤ x.dva ∧ x.dva < w 8 + npg * 65536 then { x with cls := 2 } else x) ∧
      (∀ e ∈ t.tlb, ¬(e.2.1 = q.wid ∧ w 8 ≤ e.2.2 ∧ e.2.2 < w 8 + npg * 65536)) ∧
      ∀ e, (∀ i < 8, t.dpa q.wid (blk + 32 + i) = some (e + i)) → (e + 8 ≤ d ∨ d + 8 ≤ e) → Memory.readList t.mem d 8 = leBytes 8 (bits (w 24) 8 1)) ∧
  (w 16 = 65536 → bits (w 24) 0 9 = 0 → w 24 < 2 ^ 11 → bits (w 24) 9 2 ≠ 3 →
    (s.gateAt q.wid (w 0) = some g → g.flipping = false → Completes (.gatebindUnbind sid blk) s fun t => Answered t q 0 ∧
      (∀ h, h ∈ t.gates ↔ h ∈ s.gates ∧ h.dpa ≠ g.dpa) ∧
      t.pages = s.pages.map fun x => if x.wid = q.wid ∧ g.base ≤ x.dva ∧ x.dva < g.base + g.npg * 65536 then { x with cls := 0 } else x) ∧
    (s.gateAt q.wid (w 0) = none → Completes (.gatebindUnbind sid blk) s fun t => Answered t q 5 ∧ t.gates = s.gates)))

/-- R257, R394, Table 10.12: with no store on its way, a LEASE or UNLEASE request whose block is good is accepted with STATUS 0 and kept, and changes no
lease; a bad block, one that is not aligned, whose range word is bad, with a nonzero zero field or with an OP or a VALUE outside the table, is answered
with 7 and changes nothing.
R257, R254, R251, R28: when firmware carries out the oldest accepted request on leases of the requesting world: a refusal leaves every lease;
RESERVE sets the reserve, EOP the flag, WAKE with each array's token ends dormancy, UNLEASE starts the erase charged to the tenant and has its STATUS when the accepted passes are complete, and
REQUEST of free arrays leases them to it, each with its final STATUS. -/
def Obligations.LeaseServices : Prop :=
  (∀ (s : State) (sid blk : Nat) (q : TrapReq), s.quiet →
  let w (off : Nat) : Nat := s.blockWord sid q.wid blk off
  let accepts (i : Instr) (op : Nat) : Prop := Completes i s fun t => Answered t q 0 ∧ t.leases = s.leases ∧ t.rows = s.rows ∧
    t.services = s.services ++ [{ wid := q.wid, blk := q.blk, op := op, range := w 8, value := w 16, token := w 32 + 2 ^ 64 * w 40 }]
  let refuses (i : Instr) : Prop := Completes i s fun t => Answered t q 7 ∧ t.leases = s.leases ∧ t.rows = s.rows ∧ t.services = s.services
  let good : Prop := blk % 64 = 0 ∧ rangeBad (w 8) false = false ∧ w 48 = 0 ∧ w 56 = 0
  (s.asked q sid blk 3 →
    (good → (w 0 = 0 → w 16 < 2 ^ 40 → accepts (.leaseRequest sid blk) 0) ∧ (w 0 = 1 → w 16 = 0 → accepts (.leaseWake sid blk) 1) ∧
      (w 0 = 2 → w 16 < 2 ^ 40 → accepts (.leaseReserve sid blk) 2) ∧ (w 0 = 3 → w 16 < 2 → accepts (.leaseEop sid blk) 3)) ∧
    (¬good ∨ 4 ≤ w 0 ∨ (w 0 % 2 = 0 ∧ 2 ^ 40 ≤ w 16) ∨ (w 0 = 1 ∧ w 16 ≠ 0) ∨ (w 0 = 3 ∧ 2 ≤ w 16) → refuses (s.serviceStep sid q.wid blk 3))) ∧
  (s.asked q sid blk 4 → (good → w 0 = 0 → w 16 = 0 → accepts (.unlease sid blk) 4) ∧ (¬good ∨ w 0 ≠ 0 ∨ w 16 ≠ 0 → refuses (.unlease sid blk)))) ∧
  (∀ (s : State) (grant : Bool) (weight : Nat) (q : LeaseReq) (qs : List LeaseReq) (r : RangeWord), s.quiet →
  s.services = q :: qs → q.revoked = false → r = rangeWord q.range →
  let status (t : State) (n : Nat) : Prop := t.services = qs ∧ (∀ an, an ∉ r.arrays → t.lease an = s.lease an) ∧ t.rows = s.rows ∧
    ∀ d, (∀ i < 8, t.dpa q.wid (q.blk + 24 + i) = some (d + i)) → t.textFree q.wid (q.blk + 24) 8 = true → Memory.readList t.mem d 8 = leBytes 8 n
  let mine : Prop := ∀ an ∈ r.arrays, s.joined (arrayDie an) = true ∧ (s.lease an).st = .leased ∧ (s.lease an).wid = q.wid
  (grant = false → Completes (.leaseFinalStatus grant weight) s fun t => status t 6 ∧ t.leases = s.leases) ∧
  (grant = true → q.op = 2 → mine → Completes (.leaseFinalStatus grant weight) s fun t => status t 1 ∧
    ∀ an ∈ r.arrays, t.lease an = { s.lease an with rsv := q.value }) ∧
  (grant = true → q.op = 3 → mine → Completes (.leaseFinalStatus grant weight) s fun t => status t 1 ∧
    ∀ an ∈ r.arrays, t.lease an = { s.lease an with eop := q.value == 1 }) ∧
  (grant = true → q.op = 1 → mine → (s.vf (s.worldVf q.wid)).spdm = .session → (s.vf (s.worldVf q.wid)).tdi = .run →
    ((∀ an ∈ r.arrays, (s.lease an).token = q.token) → Completes (.leaseFinalStatus grant weight) s fun t => status t 1 ∧
      ∀ an ∈ r.arrays, t.lease an = { s.lease an with dormant := false }) ∧
    ((∃ an ∈ r.arrays, (s.lease an).token ≠ q.token) → Completes (.leaseFinalStatus grant weight) s fun t => status t 8 ∧ t.leases = s.leases)) ∧
  (grant = true → q.op = 4 → mine →
    ((∀ an ∈ r.arrays, s.arrayIdle an = true) → Completes (.leaseFinalStatus grant weight) s fun t => status t 1 ∧
      ∀ an ∈ r.arrays, (t.lease an).st = .evicting ∧ (t.lease an).party = q.wid ∧ (t.lease an).wid = q.wid) ∧
    ((∃ an ∈ r.arrays, ∃ o ∈ (s.bay (bayOf an)).ops, o.an = an ∧ o.awrite = false ∧ s.standsBack o = false) → Completes (.leaseFinalStatus grant weight) s fun t =>
      t.services = qs ++ [{ q with revoked := true }] ∧ ∀ an ∈ r.arrays, (t.lease an).st = .evicting)) ∧
  ((∀ an ∈ r.arrays, s.arrayIdle an = true) → Completes (.leaseFinalStatus grant weight) { s with services := { q with revoked := true } :: qs } fun t =>
    status t 1 ∧ t.leases = s.leases) ∧
  (grant = true → q.op = 0 → q.wid ≠ 0 → q.wid < 4095 → s.live q.wid = true → q.value < 2 ^ 40 →
    (∀ an ∈ r.arrays, s.joined (arrayDie an) = true ∧ (s.lease an).st = .free) → Completes (.leaseFinalStatus grant weight) s fun t => status t 1 ∧
      ∀ an ∈ r.arrays, (t.lease an).st = .leased ∧ (t.lease an).wid = q.wid ∧ (t.lease an).rsv = q.value ∧ (t.lease an).chg = 0 ∧ (t.lease an).dormant = false))

/-- R283: with no store on its way, EVIDENCE of kind 0 writes the world's signed report and of kind 1 the record asked for, or is answered with
1 where the world may collect no such record.
R221, R222, R223: with no store on its way, RESUME of a suspended stream with the number of its fault record: RETRY lets it go on where it
stopped, if its fault may be retried; ABANDON frees it, counts its iteration as done and notes it under tag 0x1FFFD, but waits for a flip of it that is under way; a wrong number
is answered with 4 and no suspended stream with 1. -/
def Obligations.EvidenceAndResume : Prop :=
  (∀ (s : State) (sid blk : Nat) (q : TrapReq) (r : Record), s.quiet → s.asked q sid blk 5 → blk % 64 = 0 →
  let w (off : Nat) : Nat := s.blockWord sid q.wid blk off
  let out (n : Nat) : Prop := w 8 + n ≤ 0x800000000000 ∧ s.mapped q.wid (w 8) n (fun p => p.w && p.cls == 0) = true ∧ s.textFree q.wid (w 8) n = true
  let written (t : State) (bs : List Byte) : Prop := ∀ d e, (∀ i < bs.length, t.dpa q.wid (w 8 + i) = some (d + i)) →
    (∀ i < 8, t.dpa q.wid (blk + 32 + i) = some (e + i)) → (e + 8 ≤ d ∨ d + bs.length ≤ e) → Memory.readList t.mem d bs.length = bs
  s.blockTail sid q.wid blk = 0 →
  (w 0 = 0 → w 16 + 32 ≤ 0x800000000000 → s.mapped q.wid (w 16) 32 (fun p => p.r && p.cls != 1) = true → out 512 →
    Completes (.evidenceWorldReport sid blk) s fun t => Answered t q 0 ∧ written t (s.report q.wid (s.unitRead (blockParty sid) q.wid (w 16) 32).2) ∧ t.records = s.records) ∧
  (w 0 = 1 → s.recordFor q.wid (w 24) = some r → out r.bytes.length → 0 < r.bytes.length →
    Completes (.evidenceCollectRecord sid blk) s fun t => Answered t q 0 ∧ written t r.bytes ∧ t.records = s.records) ∧
  (w 0 = 1 → s.recordFor q.wid (w 24) = none → Completes (.evidenceCollectRecord sid blk) s fun t => Answered t q 1)) ∧
  (∀ (s : State) (sid blk k seq : Nat) (q : TrapReq) (f : FaultRec), s.quiet → s.asked q sid blk 8 → blk % 32 = 0 →
  let w (off : Nat) : Nat := s.blockWord sid q.wid blk off
  w 0 < 2 ^ 16 → w 16 = seq → seq < 2 ^ 32 → k ≠ sid →
  (s.suspendedOn q.wid (w 0) = some k → (s.stream k).fault = some f →
    (f.seq = some seq →
      (w 8 = 0 → f.retry = true → (s.stream k).wait = none → Completes (.resumeRetry sid blk) s fun t => Answered t q 0 ∧ (t.stream k).run = .running ∧
        (t.stream k).fault = none ∧ (t.stream k).s = (s.stream k).s ∧ (t.stream k).eng = (s.stream k).eng ∧ (∀ c ∈ (t.stream k).cmds, c.faulted = false)) ∧
      (w 8 = 0 → f.retry = false → Completes (.resumeRetry sid blk) s fun t => Answered t q 2 ∧ t.stream k = s.stream k) ∧
      (w 8 = 1 → s.inFlip k = true → exec (.resumeAbandon sid blk) s = .next s) ∧
      (w 8 = 1 → s.inFlip k = false → s.buffered (s.stream k).ident.wid < 64 → Completes (.resumeAbandon sid blk) s fun t => Answered t q 0 ∧ (t.stream k).run = .free ∧
        (t.world (s.stream k).ident.wid).notes = (s.world (s.stream k).ident.wid).notes ++
          [leBytes 2 k ++ leBytes 1 0 ++ leBytes 1 0 ++ leBytes 4 0x1FFFD ++ leBytes 8 (s.stream k).ident.iter] ∧
        ∀ l ∈ s.launches, ∃ m ∈ t.launches, m = if l.id = (s.stream k).ident.launch then { l with done := l.done + 1 } else l)) ∧
    (f.seq ≠ some seq → w 8 ≤ 1 → Completes (if w 8 = 0 then .resumeRetry sid blk else .resumeAbandon sid blk) s fun t => Answered t q 4 ∧ t.stream k = s.stream k)) ∧
  (s.suspendedOn q.wid (w 0) = none → s.suspendedIn q.wid (w 0) = none → w 8 = 0 → Completes (.resumeRetry sid blk) s fun t => Answered t q 1))

/-- R280, R281, R201, Table 12.4: with no store on its way and no poisoned memory, a doorbell in RUN appends its record and reads 0 in DBSTAT, or appends nothing and reads
1, 2 (a record whose stack cannot be reached counts as unmapped, assumption 76) or 3; DBSTAT and unnamed offsets reply to a register access; outside RUN every access is all ones and a violation, but before
stage A there is no link. A host write to a writable granule of a live world lands there, in a gated page it is logged, and where text runs
(R90) or without W it has no effect (assumption 18). The order in which DBSTAT 3, 2 and 1 are looked at is the model's (assumption 42), and
so is what becomes of a RESUME or EVIDENCE whose block fails its checks: nothing (assumption 99). One with no earlier request of its world is carried out
in the same step, as the step of its service would carry it out (the model's choice, assumption 43).
R284, R285: an intake packet of no valid flow is counted as missed; one for a live world that is malformed, or finds
no slot, a full queue or no template (assumption 56), is counted as dropped; a good one fills its slot and appends the template with the slot as argument pointer. -/
def Obligations.HostAndIntake : Prop :=
  (∀ (s : State) (vf w off dva : Nat) (v : Word) (p : Page) (data : List Byte), s.quiet →
  (s.vfRuns vf = true → s.vfWorld vf = some w →
    (s.live w = true →
      (v.toNat % 128 = 0 → s.mapped w v.toNat 128 (fun _ => true) = true → s.spanReachable w v.toNat 128 = true → s.queueClear 1023 w 0x10 128 = true →
        (s.queueFull w 0x10 = false → exec (.doorbell vf v) s =
          .next ((s.queueAppend w 0x10 (s.hubRecord w v.toNat).2).setVf vf { s.vf vf with dbstat := 0 })) ∧
        (s.queueFull w 0x10 = true → exec (.doorbell vf v) s = .next (s.setVf vf { s.vf vf with dbstat := 1 }))) ∧
      ((v.toNat % 128 ≠ 0 ∨ s.mapped w v.toNat 128 (fun _ => true) = false ∨ s.spanReachable w v.toNat 128 = false) → exec (.doorbell vf v) s = .next (s.setVf vf { s.vf vf with dbstat := 2 }))) ∧
    (s.live w = false → exec (.doorbell vf v) s = .next (s.setVf vf { s.vf vf with dbstat := 3 })) ∧
    exec (.vfRegisterWrite vf 8 v) s = .next (s.setVf vf { s.vf vf with reply := leBytes 8 (s.vf vf).dbstat }) ∧
    (off ∉ [0, 8, 0x10, 0x18] → exec (.vfRegisterWrite vf off v) s = .next (s.setVf vf { s.vf vf with reply := List.replicate 8 0xFF })) ∧
    (∀ q, s.live w = true → (s.traps.find? fun t => t.wid == w) = some q → q.sid ≠ noSid →
      (s.mapped w v.toNat 32 (fun p => p.r && p.w && p.cls == 0) = false → exec (.vfResume vf v) s = .next s) ∧
      (s.mapped w v.toNat 64 (fun p => p.r && p.w && p.cls == 0) = false → exec (.vfEvidence vf v) s = .next s) ∧
      (s.mapped w v.toNat 32 (fun p => p.r && p.w && p.cls == 0) = true → s.spanReachable w v.toNat 32 = true → s.textFree w (v.toNat + 24) 8 = true →
        exec (.vfResume vf v) s =
        .next { s with traps := s.traps ++ [{ sid := noSid, wid := w, svc := 8, blk := v.toNat }] }) ∧
      (s.mapped w v.toNat 64 (fun p => p.r && p.w && p.cls == 0) = true → s.spanReachable w v.toNat 64 = true → s.textFree w (v.toNat + 32) 8 = true →
        exec (.vfEvidence vf v) s =
        .next { s with traps := s.traps ++ [{ sid := noSid, wid := w, svc := 5, blk := v.toNat }] })) ∧
    (s.live w = true → (s.traps.find? fun t => t.wid == w) = none → (∀ q ∈ s.traps, q.sid ≠ noSid) →
      (∀ n ∈ [32, 64], s.mapped w v.toNat n (fun p => p.r && p.w && p.cls == 0) = false →
        (n = 32 → exec (.vfResume vf v) s = .next s) ∧ (n = 64 → exec (.vfEvidence vf v) s = .next s)) ∧
      (∀ i ∈ [(Instr.vfResume vf v, 8, 32, 24), (.vfEvidence vf v, 5, 64, 32)],
        s.mapped w v.toNat i.2.2.1 (fun p => p.r && p.w && p.cls == 0) = true → s.spanReachable w v.toNat i.2.2.1 = true → s.textFree w (v.toNat + i.2.2.2) 8 = true →
        let u : State := { s with traps := s.traps ++ [{ sid := noSid, wid := w, svc := i.2.1, blk := v.toNat }] }
        ∃ t, exec (u.serviceStep noSid w v.toNat i.2.1) u = .next t ∧ exec i.1 s = .next t))) ∧
  (s.vfRuns vf = false → s.boot.stage = 0 → ∀ i ∈ [Instr.doorbell vf v, .vfResume vf v, .vfEvidence vf v, .vfRegisterWrite vf off v], exec i s = .next s) ∧
  (s.vfRuns vf = false → s.boot.stage ≠ 0 → ∀ i ∈ [Instr.doorbell vf v, .vfResume vf v, .vfEvidence vf v, .vfRegisterWrite vf off v],
    Completes i s fun t => (t.vf vf).reply = List.replicate 8 0xFF ∧ t.sec.violations = s.sec.violations ++ [s.now] ∧ t.mem = s.mem ∧ t.traps = s.traps ∧
      (s.sec.enrolled = none → t.sec.lockdown = s.sec.lockdown) ∧
      (∀ a port vlim vwin, s.sec.enrolled = some (a, port, vlim, vwin) → s.sec.lockdown = 0 → vlim = 1 → t.sec.lockdown = 2)) ∧
  (s.live w = true → dva < 0x800000000000 → 0 < data.length → dva % 64 + data.length ≤ 64 → s.hubRoom w dva data.length = true → s.page w dva = some p →
    (p.cls = 0 → p.w = true → s.gateWord (p.dpaOf dva) data.length = none → s.runsText (p.dpaOf dva) = false → s.reachable (p.dpaOf dva) = true → Completes (.hostWrite w dva data) s fun t =>
      (∀ i < data.length, Memory.read t.mem (p.dpaOf dva + i) = data.getD i 0) ∧
      (∀ a, (a < p.dpaOf dva ∨ p.dpaOf dva + data.length ≤ a) → Memory.read t.mem a = Memory.read s.mem a) ∧ t.streams = s.streams) ∧
    (p.cls = 0 → s.gateWord (p.dpaOf dva) data.length = none → (p.w = false ∨ s.runsText (p.dpaOf dva) = true) → exec (.hostWrite w dva data) s = .next s) ∧
    (p.cls = 2 → s.buffered w < 64 → Completes (.hostWrite w dva data) s fun t => t.mem = s.mem ∧
      (t.world w).errs.length = (s.world w).errs.length + 1)) ∧
  ((s.live w = false ∨ s.hubRoom w dva data.length = false) → exec (.hostWrite w dva data) s = .next s)) ∧
  (∀ (s : State) (port k slot : Nat) (payload : List Byte) (f : Flow),
  (s.flowOf port (bits (leNat (payload.take 8)) 32 32) = none → exec (.intakePacket port payload) s = .next { s with flowMiss := s.flowMiss + 1 }) ∧
  (s.flowOf port (bits (leNat (payload.take 8)) 32 32) = some (k, f) →
    (s.live f.wid = true → (packetBad payload = true ∨ s.wtWord f.wid 0x50 % 65536 = 0 ∨ s.mapped f.wid f.template 128 (fun _ => true) = false ∨
        (s.queueFull f.wid 0x10 = true ∧ s.spanClear 1023 f.wid (s.queueBase f.wid 0x10) 64 = true ∧ s.tryHeader f.wid 0x10 = (s, 0))) →
      exec (.intakePacket port payload) s = .next { s with flows := Tab.set s.flows k { f with drops := (f.drops + 1) % 2 ^ 32 } }) ∧
    (s.live f.wid = false → exec (.intakePacket port payload) s = .next s) ∧
    (∀ u r, s.live f.wid = true → packetBad payload = false → s.wtWord f.wid 0x50 % 65536 ≠ 0 → s.queueFull f.wid 0x10 = false →
      s.mapped f.wid f.template 128 (fun _ => true) = true →
      s.spanReachable f.wid f.template 128 = true → s.hubClear f.wid slot payload.length = true → s.hubClear f.wid f.template 128 = true →
      s.queueClear 1023 f.wid 0x10 128 = true → slot = s.wtWord f.wid 0x48 + 16384 * (f.hits % (s.wtWord f.wid 0x50 % 65536)) → u = s.hubWrite f.wid (payload.length + 1) slot payload → r = u.hubRecord f.wid f.template →
      r.1.live f.wid = true → r.1.queueFull f.wid 0x10 = false →
      Completes (.intakePacket port payload) s fun t => Tab.find t.flows k = some { f with hits := (f.hits + 1) % 2 ^ 32 } ∧ t.streams = s.streams ∧
        t.mem = (r.1.queueAppend f.wid 0x10 (fillTemplate r.2 slot f.prio)).mem)))

/-- R16, R286, R288, R289, R290: a packet goes out behind the others in its sender's slot; the oldest of its channel arrives, and one that fails, or names
a slot the receiver does not accept, goes out again in its place under the current slot, takes the link down at its third failure, and is
discarded after the world's marker; a second failure of a die or hub link's frame is lockdown cause 4 with
the link's number (assumption 87); a port that the security core has taken in lockdown carries nothing (assumption 88); the clauses on packets
are those of the direction to this device; a new key is installed at both ends,
each sender switches to it, and each receiver retires the old slot when its peer has switched and nothing in flight names the old one. -/
def Obligations.LinksCarry : Prop := ∀ (s : State) (k wid slot : Nat) (l : Link), l = s.link k →
  (k < 4 → s.portClosed k = false →
    (wid ∉ l.flush → s.sendPacket k wid false = s.setLink k { l with flight := l.flight ++ [{ wid := wid, slot := l.slotB, toPeer := false }] }) ∧
    (wid ∈ l.flush → s.sendPacket k wid false = s) ∧
    (∀ qs p ps, l.flight = qs ++ p :: ps → (∀ q ∈ qs, q.wid ≠ wid ∨ q.toPeer = true) → p.wid = wid → p.toPeer = false → p.slot = slot →
      (slot ∈ l.validA → exec (.tsudalPacket k wid slot true) s = .next (s.setLink k { l with flight := qs ++ ps })) ∧
      (∀ ok, (ok = false ∨ slot ∉ l.validA) → wid ∉ l.flush → exec (.tsudalPacket k wid slot ok) s =
        .next (s.setLink k { l with down := decide (3 ≤ p.fails + 1), flight := qs ++ { p with slot := l.slotB, fails := p.fails + 1 } :: ps })) ∧
      (∀ ok, (ok = false ∨ slot ∉ l.validA) → wid ∈ l.flush → p.fails = 0 → exec (.tsudalPacket k wid slot ok) s = .next (s.setLink k { l with flight := qs ++ ps })))) ∧
  (s.portClosed k = true → ∀ ok, exec (.tsudalPacket k wid slot ok) s = .next s ∧ s.sendPacket k wid false = s) ∧
  (4 ≤ k → k < 12 →
    exec (.dieLinkFrame k true) s = .next (s.setLink k { l with fails := 0 }) ∧
    (l.fails = 0 → exec (.dieLinkFrame k false) s = .next (s.setLink k { l with fails := 1 })) ∧
    (l.fails ≠ 0 → Completes (.dieLinkFrame k false) s fun t => (t.link k).fails = 0 ∧ (s.sec.lockdown = 0 → t.sec.lockdown = 4 ∧ t.sec.detail = k))) ∧
  (k < 4 → l.slotA = 0 → l.slotB = 0 → l.validA = [0] → l.validB = [0] → Tab.get 0 l.keys 0 < l.nextKey →
    (Completes (.linkKeyInstall k) s fun t => t.link k = { l with validA := [0, 1], validB := [0, 1], keys := Tab.set l.keys 1 l.nextKey, nextKey := l.nextKey + 1 } ∧
      (t.link k).newer = 1)) ∧
  (∀ n, n = l.newer →
    (n ∈ l.validB → exec (.linkKeySwitch k false) s = .next (s.setLink k { l with slotA := n })) ∧
    (n ∈ l.validA → exec (.linkKeySwitch k true) s = .next (s.setLink k { l with slotB := n })) ∧
    (l.slotB = n → n ∈ l.validA → (∀ p ∈ l.flight, p.toPeer = false → p.slot = n) → exec (.linkKeyRetire k false) s = .next (s.setLink k { l with validA := [n] })) ∧
    (l.slotA = n → n ∈ l.validB → (∀ p ∈ l.flight, p.toPeer = true → p.slot = n) → exec (.linkKeyRetire k true) s = .next (s.setLink k { l with validB := [n] })) ∧
    ((l.slotB ≠ n ∨ ∃ p ∈ l.flight, p.toPeer = false ∧ p.slot ≠ n) → exec (.linkKeyRetire k false) s = .next s) ∧
    ((l.slotA ≠ n ∨ ∃ p ∈ l.flight, p.toPeer = true ∧ p.slot ≠ n) → exec (.linkKeyRetire k true) s = .next s))

/-- R277, R280, R282, R289: a new world, whose entry's stack can be reached, is live on its VF, with the last RECSEQ as its base and a key; a function-level reset or a TDI error begins its
teardown; and the teardown leaves no stream, gate, mapping or key of it, in no core, sync engine or slice, its leases evicting with party 0, and STATE 0. -/
def Obligations.WorldsComeAndGo : Prop := ∀ (s : State) (wid vf : Nat), s.quiet →
  (0 < wid → wid < 4095 → vf ≤ 255 → s.worldState wid = 0 → s.wtbase.toNat % 64 = 0 → s.reachable (s.wtAddr wid 0) = true → s.reachable (s.wtAddr wid 0x40) = true → s.boot.stage = 2 → s.recseq < 2 ^ 64 → (vf = 0 ∨ s.vfWorld vf = none) → s.queuesGood wid = true →
    (∀ p ∈ s.leases, (p.2.st = .evicting ∨ p.2.st = .erased) → p.2.wid ≠ wid ∧ p.2.party ≠ wid) →
    Completes (.worldMake wid vf) s fun t => t.worldState wid = 1 ∧ t.worldVf wid = vf ∧ t.wtWord wid 0x58 = s.recseq ∧ (t.world wid).key = true ∧
      (t.world wid).wtot = (s.world wid).wtot ∧ t.leases = s.leases ∧ t.streams = s.streams) ∧
  (s.vfWorld vf = some wid →
    (Completes (.functionLevelReset vf) s fun t => (∀ i < 12, wid ∈ (t.link i).flush) ∧ (s.live wid = true → t.worldState wid = 2) ∧ t.streams = s.streams) ∧
    (0 < vf → vf < 256 → Completes (.tdiError vf) s fun t => (t.vf vf).tdi = .error ∧ (s.live wid = true → t.worldState wid = 2) ∧ t.streams = s.streams)) ∧
  (0 < wid → wid < 4095 → (s.worldState wid = 1 ∨ s.worldState wid = 2) → (∀ k, (s.stream k).ident.wid = wid → s.inFlip k = false) → Completes (.worldTeardown wid) s fun t =>
    t.worldState wid = 0 ∧ (∀ k, isService k = false → (t.stream k).run ≠ .free → (t.stream k).ident.wid ≠ wid) ∧ (∀ g ∈ t.gates, g.wid ≠ wid) ∧
    (∀ p ∈ t.pages, p.wid ≠ wid) ∧ (∀ e ∈ t.tlb, e.2.1 ≠ wid) ∧ (t.world wid).key = false ∧ (∀ c, wid ∉ (t.core c).keys) ∧
    (∀ p ∈ t.syncKeys, wid ∉ p.2) ∧ (∀ p ∈ t.sliceKeys, wid ∉ p.2) ∧ (∀ p ∈ t.syncWords, p.1 ≠ wid) ∧ (∀ p ∈ t.spent, p.2.stream.ident.wid = wid → p.2.torn = true) ∧
    (∀ an, (s.lease an).st = .leased → (s.lease an).wid = wid → (t.lease an).st = .evicting ∧ (t.lease an).party = 0 ∧ (t.lease an).wid = wid) ∧ t.rows = s.rows)

/-- R279, R283, Table 12.3: a request of SPDM that its connection's state admits is answered by its response and moves the connection on; any other is
answered with UnexpectedRequest and moves nothing; a KEY_EXCHANGE or FINISH that fails its signature or MAC is an access violation answered
with DecryptError, and a failed FINISH ends the exchange; what the table does not name is answered with UnsupportedRequest; before stage A there is
no responder (R25). The bytes of a reply are the standard's (assumption 17).
R279, R290, R291, Table 12.9: in a session a TDI is locked, then started, and its IDE key goes on; an owner is enrolled once, with values in range,
and withdrawn only when no array is leased, evicting or erased; and in lockdown the alarm is made, at its first sending
(the model's choice, assumption 58), once under its own RECSEQ and sent. Both copies of the
enrolment record are written anew, each under a higher number (R26). -/
def Obligations.SessionsAndSecurity : Prop :=
  (∀ (s : State) (vf : Nat) (c : Spdm), vf ≤ 255 → c = (s.vf vf).spdm → s.boot.stage ≠ 0 →
  let answers (i : Instr) (ok : Bool) (code : Nat) (next : Spdm) : Prop := Completes i s fun t => (∀ k, k ≠ vf → t.vf k = s.vf k) ∧ t = { s with vfs := t.vfs } ∧
    (t.vf vf).tdi = (s.vf vf).tdi ∧
    (if ok then (t.vf vf).spdm = next ∧ (t.vf vf).reply.take 2 = [if code = 0x04 then 0x10 else 0x12, BitVec.ofNat 8 code] else (t.vf vf).spdm = c ∧ (t.vf vf).reply = [0x12, 0x7F, 4, 0])
  answers (.getVersion vf) true 0x04 .version ∧
  answers (.getCapabilities vf) (c == .version) 0x61 .caps ∧
  answers (.negotiateAlgorithms vf) (c == .caps) 0x63 .algs ∧
  answers (.getDigests vf) c.negotiated 0x01 c ∧
  answers (.getCertificate vf) c.negotiated 0x02 c ∧
  answers (.challenge vf) c.negotiated 0x03 c ∧
  answers (.getMeasurements vf) c.negotiated 0x60 c ∧
  answers (.keyExchange vf true) (c == .algs) 0x64 .exchange ∧
  answers (.finish vf true) (c == .exchange) 0x65 .session ∧
  answers (.endSession vf) (c == .session) 0x6C .algs ∧
  (∀ i ∈ [Instr.keyExchange vf false, .finish vf false], Completes i s fun t => (t.vf vf).reply = [0x12, 0x7F, 6, 0] ∧ (t.vf vf).tdi = (s.vf vf).tdi ∧
    (t.vf vf).spdm = (if i = .finish vf false ∧ c = .exchange then .algs else c) ∧ t.sec.violations = s.sec.violations ++ [s.now]) ∧
  Completes (.unsupportedRequest vf) s fun t => t = s.setVf vf { s.vf vf with reply := [0x12, 0x7F, 7, 0] }) ∧
  (∀ (s : State) (vf port vlim vwin : Nat) (addr : BitVec 128) (v : Vf), v = s.vf vf → s.boot.stage ≠ 0 →
  (0 < vf → vf < 256 → v.spdm = .session →
    (v.tdi = .unlocked → exec (.lockInterface vf) s = .next (s.setVf vf { v with tdi := .locked })) ∧
    (v.tdi = .locked → exec (.startInterface vf) s = .next (s.setVf vf { v with tdi := .run })) ∧
    (v.tdi ≠ .locked → exec (.startInterface vf) s = .next s) ∧ (v.tdi ≠ .unlocked → exec (.lockInterface vf) s = .next s) ∧
    exec (.ideKmKeyRefresh vf) s = .next (s.setVf vf { v with ide := v.ide + 1 })) ∧
  (v.spdm ≠ .session → exec (.lockInterface vf) s = .next s ∧ exec (.startInterface vf) s = .next s ∧ exec (.ideKmKeyRefresh vf) s = .next s) ∧
  (Completes (.enrolment addr port vlim vwin) s fun t => (t.sec.enrolled ≠ s.sec.enrolled → s.sec.copyA.seq < t.sec.copyA.seq ∧ t.sec.copyA.seq < t.sec.copyB.seq) ∧ t.sec.enrolled =
    (if (s.vf 0).spdm = .session ∧ s.sec.enrolled = none ∧ 1 ≤ port ∧ port < 65536 ∧ vlim < 65536 ∧ 1 ≤ vwin ∧ vwin ≤ 86400 then some (addr, port, vlim, vwin)
      else s.sec.enrolled) ∧ t.leases = s.leases ∧ t.mem = s.mem) ∧
  (Completes .enrolmentWithdraw s fun t => t.sec.enrolled =
    (if (s.vf 0).spdm = .session ∧ (∀ p ∈ s.leases, p.2.st = .free ∨ p.2.st = .retired) then none else s.sec.enrolled) ∧ t.leases = s.leases ∧ t.mem = s.mem) ∧
  (s.sec.lockdown ≠ 0 →
    (s.sec.alarmed = false → Completes .alarmRepeat s fun t => t.recseq = s.recseq + 1 ∧ t.sec.alarmed = true ∧ t.sec.alarm = s.alarmRecord (s.recseq + 1) ∧
      t.sec.sent = s.sec.sent + (if s.sec.enrolled.isSome then 1 else 0)) ∧
    (s.sec.alarmed = true → Completes .alarmRepeat s fun t => t.recseq = s.recseq ∧ t.sec.alarm = s.sec.alarm ∧
      t.sec.sent = s.sec.sent + (if s.sec.enrolled.isSome then 1 else 0))) ∧
  (s.sec.lockdown = 0 → exec .alarmRepeat s = .next s))

/-- R24, R25, R26, R27, R28, R29: stage A starts an image that verifies at or above the counter; stage B takes, of the copies that verify, the one with the higher
number, stays in the safe function without one, which the alarm's detail tells (its number, assumption 96), and makes leases dormant; a die that passes its self-test joins, and one that fails does not; an erase on it begins again and a marked lease is revoked.
R29: firmware raises the counter once after stage A with an image above it; an increment cut between the two fuses counts nothing, uses up its pair,
and starts the power-up again; with 128 pairs consumed nothing is blown. -/
def Obligations.StartStages : Prop :=
  (∀ (s : State) (version die : Nat),
  (s.boot.stage = 0 → s.boot.tripped = false →
    (s.boot.counter ≤ version → Completes (.bootStageA version true) s fun t => t.boot = { s.boot with stage := 1, version := version, incDone := false } ∧
      (∀ k < 4, (t.stream (512 + 2 * k)).run = .running) ∧ t.leases = s.leases ∧ t.rows = s.rows) ∧
    (version < s.boot.counter → exec (.bootStageA version true) s = .next s) ∧
    Completes (.bootStageA version false) s fun t => t.boot = s.boot ∧ (s.sec.lockdown = 0 → t.sec.lockdown = 1)) ∧
  (∀ a b : MetaCopy, (∀ c, MetaCopy.choose a b = some c → c.good = true ∧ (c = a ∨ c = b) ∧ (a.good = true → a.seq ≤ c.seq) ∧ (b.good = true → b.seq ≤ c.seq)) ∧
    (MetaCopy.choose a b = none ↔ a.good = false ∧ b.good = false)) ∧
  (s.boot.stage = 1 → s.boot.safe = false → s.boot.tripped = false →
    (MetaCopy.choose s.boot.copyA s.boot.copyB = none → Completes .bootStageB s fun t => t.boot = { s.boot with safe := true } ∧ t.leases = s.leases ∧ (s.sec.lockdown = 0 → t.sec.lockdown = 1 ∧ t.sec.detail = metadataUnit)) ∧
    (∀ c, MetaCopy.choose s.boot.copyA s.boot.copyB = some c → Completes .bootStageB s fun t => t.boot = { s.boot with stage := 2, metaSeq := c.seq } ∧ t.mem = s.mem ∧ t.rows = s.rows ∧
      ∀ an, (t.lease an).st = (s.lease an).st ∧ (t.lease an).wid = (s.lease an).wid ∧
        ((s.lease an).st = .leased → (s.lease an).eop = false → (t.lease an).dormant = true) ∧
        ((s.lease an).eop = true → (t.lease an).dormant = (s.lease an).dormant))) ∧
  (s.boot.stage = 2 → s.boot.tripped = false → die < 4 → die ∉ s.boot.joined → die ∉ s.boot.failed →
    exec (.dieJoin die false) s = .next { s with boot := { s.boot with failed := s.boot.failed ++ [die] } } ∧
    Completes (.dieJoin die true) s fun t => t.boot.joined = s.boot.joined ++ [die] ∧ t.boot.failed = s.boot.failed ∧ t.rows = s.rows ∧
      (∀ an, arrayDie an ≠ die → t.lease an = s.lease an) ∧
      (∀ an, arrayDie an = die → (s.lease an).st = .evicting → (t.lease an).st = .evicting ∧ (t.lease an).errows = 0 ∧ (t.lease an).pulses = 0 ∧
        (t.lease an).wid = (s.lease an).wid ∧ (t.lease an).party = (s.lease an).party) ∧
      (∀ an, arrayDie an = die → (s.lease an).st = .leased → (s.lease an).eop = true → (t.lease an).st = .evicting ∧ (t.lease an).party = 0 ∧ (t.lease an).byEop = true ∧
        (t.bay (bayOf an)).maint = 1))) ∧
  (∀ s : State,
  (s.boot.stage ≠ 0 → s.boot.incDone = false → s.boot.counter < s.boot.version → s.boot.fuses.length < 128 →
    (Completes (.rollbackIncrement false) s fun t => t.boot = { s.boot with fuses := s.boot.fuses ++ [(true, true)], incDone := true } ∧
      t.boot.counter = s.boot.counter + 1 ∧ t = { s with boot := t.boot }) ∧
    (Completes (.rollbackIncrement true) s fun t => t.boot.fuses = s.boot.fuses ++ [(true, false)] ∧ t.boot.counter = s.boot.counter ∧ t.boot.stage = 0)) ∧
  (∀ cut, (s.boot.stage = 0 ∨ s.boot.incDone = true ∨ s.boot.version ≤ s.boot.counter ∨ 128 ≤ s.boot.fuses.length) → exec (.rollbackIncrement cut) s = .next s))

/-- R23, R24, R29, R290: a loss of power, or a trip at 115 °C, loses contexts, shadow storage, memory and work in flight; the arrays keep their contents,
leases, accounts and weights; an erase in progress stays and counts as restarted; and a trip enters lockdown with cause 3 until the host restarts below 95 °C, and no die
joins before; a reading after the trip is kept. What a start finds, memory of zeros, cores as at reset, enrolment and RECSEQ as they were, and an erase marked restarted, is the model's choice (assumptions 1, 2 and 59).
R21, R22, R23, R225: the governor's limits, the fast limiter and the throttle change themselves and nothing else, no register, memory, order or lap; and the
tick that wakes the governor is one more request at service core 1. -/
def Obligations.PowerIsLost : Prop :=
  (∀ (s : State) (die temp : Nat),
  let lost (t : State) : Prop := t.mem = [] ∧ (∀ k, isService k = false → (t.stream k).run = .free) ∧ (∀ c < 256, t.core c = Core.reset) ∧ t.images = [] ∧
    t.shadow = [] ∧ t.launches = [] ∧ (∀ b, (t.bay b).ops = [] ∧ (t.bay b).weights = (s.bay b).weights) ∧ t.pages = [] ∧ t.allStores = [] ∧ t.boot.joined = [] ∧ t.rows = s.rows ∧
    t.boot.fuses = s.boot.fuses ∧ ∀ an, (t.lease an).st = (s.lease an).st ∧ (t.lease an).wid = (s.lease an).wid ∧ (t.lease an).party = (s.lease an).party ∧
      (t.lease an).life = (s.lease an).life ∧ (t.lease an).chg = (s.lease an).chg ∧ (t.lease an).rsv = (s.lease an).rsv ∧
      ((s.lease an).st = .evicting → (s.lease an).errows ≠ 0 → (t.lease an).restarted = true)
  (Completes .powerLoss s fun t => lost t ∧ t.boot.stage = 0 ∧ t.sec.lockdown = 0 ∧ t.sec.enrolled = s.sec.enrolled ∧ t.recseq = s.recseq) ∧
  (die < 4 → 920 ≤ temp → s.boot.tripped = false → Completes (.thermalTrip die temp) s fun t => lost t ∧ t.boot.tripped = true ∧
    t.boot.stage = Nat.min s.boot.stage 1 ∧ (s.sec.lockdown = 0 → t.sec.lockdown = 3 ∧ t.sec.detail = die)) ∧
  (s.boot.tripped = true → ∀ i ∈ [Instr.bootStageA temp true, .bootStageB, .dieJoin die true], exec i s = .next s) ∧
  (temp < 920 → exec (.thermalTrip die temp) s = .next s) ∧
  (die < 4 → 920 ≤ temp → s.boot.tripped = true → Completes (.thermalTrip die temp) s fun t => Tab.get 0 t.power.sensor die = temp ∧ t = { s with power := t.power }) ∧
  (s.boot.tripped = true → (∀ p ∈ s.power.sensor, p.2 < 760) → Completes .hostRestart s fun t => t.boot.stage = 0 ∧ t.boot.tripped = false ∧ t.sec.lockdown = 0) ∧
  (s.boot.tripped = false ∨ (∃ p ∈ s.power.sensor, 760 ≤ p.2) → exec .hostRestart s = .next s)) ∧
  (∀ (s : State) (die cls limit temp : Nat) (above : Bool), die < 4 →
  (s.boot.stage ≠ 0 → cls < 4 → limit ≤ 16 → Completes (.governorTick die cls limit) s fun t => Tab.get 16 t.power.limits (8 * die + cls) = limit ∧ t = { s with power := t.power, cores := t.cores } ∧
    t.core governorCore = { s.core governorCore with requests := (s.core governorCore).requests ++ [.tick] } ∧ ∀ c, c ≠ governorCore → t.core c = s.core c) ∧
  (Completes (.fastLimit die above) s fun t => (die ∈ t.power.limited ↔ above = true) ∧ (∀ d, d ≠ die → (d ∈ t.power.limited ↔ d ∈ s.power.limited)) ∧ t = { s with power := t.power }) ∧
  (840 ≤ temp → temp < 920 → Completes (.thermalThrottle die temp) s fun t => die ∈ t.power.throttled ∧ Tab.get 0 t.power.sensor die = temp ∧ t = { s with power := t.power }) ∧
  (temp < 800 → Completes (.throttleRelease die temp) s fun t => die ∉ t.power.throttled ∧ Tab.get 0 t.power.sensor die = temp ∧ t = { s with power := t.power }))

/-- R57, R62, R63, R70, R110, R111: in an engine's turn a step takes the lane its PC stands at, or the first of the line it begins to visit, decodes it, as a repeat
prefix has stepped it, pops its TW token, once under a prefix, runs exactly that instruction, and retires it, and time passes; without its token the engine is
held. A lane whose encoding or use is ILLOP (`badGate`, `badRep`, `illegal`, and `misused` where it acts) takes ILLOP at that lane: its token stays in its FIFO, and
nothing of the instruction happens. A lane that its gate keeps from acting takes an issue slot and no token, and has no effect. -/
def Obligations.StepRunsDecoded : Prop := ∀ (s s0 s1 : State) (sid : Nat) (e : Engine) (l : Line),
  s.takeTurn = (.lane sid e, s0) → s0.mayIssue sid = true →
  ((s0.stream sid).eng' e).ended = false → ((s0.stream sid).eng' e).push = [] → stuck e (s0.stream sid).cmds = false → ((s0.stream sid).eng' e).atEnd = false → (e = .s → (s0.stream sid).wait = none) →
  s1 = (if ((s0.stream sid).eng' e).lane = 0 then s0.beginVisit sid e else s0) → (s1.stream sid).run = .running →
  let es := (s1.stream sid).eng' e
  0 < es.lane → es.lane < 8 → es.push = [] → s1.lineAt sid es.line = some l →
  let x := Line.xOf l es.lane
  let w := match es.rep, decodeLane e (Line.word l es.lane) x with
    | some r, .ok k => stepWord (fieldUses k.instr) r (Line.word l es.lane)
    | _, _ => Line.word l es.lane
  let at' (ts : Option Engine) : State := { s1 with cur := { sid := sid, eng := e, line := es.line, lane := es.lane, base := w, x := x.getD 0, ts := ts }, out := .retired }
  let same (t : State) : Prop := t.mem = s1.mem ∧ t.cores = s1.cores ∧ (t.stream sid).tokens = (s1.stream sid).tokens ∧ (t.stream sid).s = (s1.stream sid).s ∧
    (t.stream sid).p = (s1.stream sid).p ∧ (t.stream sid).v = (s1.stream sid).v ∧ (t.stream sid).e = (s1.stream sid).e ∧ (t.stream sid).m = (s1.stream sid).m ∧
    (t.stream sid).cmds = (s1.stream sid).cmds ∧ ∀ k, k ≠ sid → t.stream k = s1.stream k
  let illop : Prop := step s = .next ((at' none).illop).pass ∧ (isService sid = false → es.twDone = false → ∃ t, step s = .next t ∧ same t ∧ (t.stream sid).run = .suspended ∧
    (t.stream sid).fcode = 2 ∧ (t.stream sid).fline = BitVec.ofNat 64 es.line ∧ (t.stream sid).feng = BitVec.ofNat 64 (e.code + 8 * es.lane))
  (∀ r, decodeLane e w x = .error r → illop) ∧
  ∀ ln, decodeLane e w x = .ok ln →
    let bad : Prop := es.badGate ln.g.val = true ∨ badRep ln.instr w = true ∨ (at' none).illegal sid e ln.instr = true
    let clear : Bool := !es.g.getLsbD (ln.g.val - 1)
    let off : Prop := ln.g.val ≠ 0 ∧ (match es.rep with | some r => if r.j = 0 then clear else r.off | none => clear) = true
    (bad → illop) ∧
    (¬bad → off → ∃ t, step s = .next t ∧ same t ∧ (es.rep = none → ((t.stream sid).eng' e).lane = nextLane l e es.lane)) ∧
    (¬bad → ¬off → (at' none).misused ln.instr = true → illop) ∧
    (¬bad → ¬off → (at' none).misused ln.instr = false → ∀ s2, (at' (if (match es.rep with | some r => decide (r.n ≤ r.j + 1) | none => true) = true then ln.ts else none)).enterWorld sid e = some s2 →
      (ln.tw = none ∨ es.twDone = true → ∀ t, exec ln.instr s2 = .next t → step s = .next t.settleLane.pass) ∧
      (∀ src v st, ln.tw = some src → es.twDone = false → (s1.stream sid).pop src e = some (v, st) → ∀ t,
        exec ln.instr (s2.setStream sid (st.setEng e { es with twDone := true, twVal := v, hold := .none })) = .next t → step s = .next t.settleLane.pass) ∧
      (∀ src, ln.tw = some src → es.twDone = false → (s1.stream sid).pop src e = none →
        step s = .next (s2.setStream sid ((s1.stream sid).setEng e { es with hold := .token src })).pass))

/-- Table 4.3, Tables 4.9 to 4.13: words written out from the encodings, of every engine, decode to the instructions they stand for. -/
def Obligations.DecodeWords : Prop := decodeLane .s 0x38003214 none = .ok { tw := none, ts := none, g := 0, instr := .and 3 4 5 } ∧
  decodeLane .s 0x30003215 none = .ok { tw := none, ts := none, g := 0, instr := .divn 3 4 5 } ∧
  decodeLane .s 0x64007307 none = .ok { tw := none, ts := none, g := 0, instr := .andi 7 6 7 } ∧
  decodeLane .s 0x7C005000 (some 0x12345678) = .ok { tw := none, ts := none, g := 0, instr := .limm 5 0x12345678 } ∧
  decodeLane .s 0x01320000 none = .ok { tw := some .v, ts := some .m, g := 1, instr := .nop .s } ∧
  decodeLane .v 0x2000110C none = .ok { tw := none, ts := none, g := 0, instr := .vadd 1 2 3 0 } ∧
  decodeLane .m 0x34002180 none = .ok { tw := none, ts := none, g := 0, instr := .mclr 2 3 } ∧
  decodeLane .c 0x20002000 none = .ok { tw := none, ts := none, g := 0, instr := .ccopy 2 } ∧
  decodeLane .f 0x20001101 none = .ok { tw := none, ts := none, g := 0, instr := .fexp2 1 2 .bf16 }

/-- The encoder and the decoder agree: every well-formed lane of every engine, with every token, gate and operand, is read back from its words. -/
def Obligations.DecodeEncode : Prop := ∀ (l : Lane) (e : Engine), l.wf = true → l.instr.engine = some e →
  ∃ w x, encodeLane l = some (w, x) ∧ w < 2 ^ 32 ∧ x.getD 0 < 2 ^ 32 ∧ decodeLane e w x = .ok l

/-- R94, R96, R110, Tables 4.2, 4.4, 4.9 to 4.13: the words that are no lane. What decodes is a well-formed lane of the engine, and its encoding is the very words it was
read from: so a word with an unassigned opcode, a reserved code, a field named zero that is not zero, or an e-register above 7 is refused, and so is
one beside an X lane that its opcode has no use for, or without the one it needs. In particular an opcode that the engine's table does not list is refused, and a
TW or TS of 6, 7 or the lane's own engine.
R92, R93, R94, R108, R109, Tables 4.1, 4.2: a line is good just where its header's [31:29] are zero, each nibble is 0 to 6, each empty lane is zero, an X lane stands
directly above a lane whose opcode is marked (64) and above each of these, and a block-ending instruction is the last S lane of a BE line. When the first engine
of a compute stream begins its visit of a line that is not good, the stream takes ILLINE with that engine and lane 0, and no lane of the line issues. -/
def Obligations.WordsRefused : Prop :=
  (∀ (e : Engine) (w : Nat) (x : Option Nat), w < 2 ^ 32 → x.getD 0 < 2 ^ 32 →
  (∀ ln, decodeLane e w x = .ok ln → ln.wf = true ∧ ln.instr.engine = some e ∧ encodeLane ln = some (w, x)) ∧
  (opOf w = w / 2 ^ 26) ∧
  (∀ first, first = (match e with | .s => 0x40 | .v => 0x27 | .m => 0x10 | .c => 0x0F | .f => 0x0F) → (first ≤ opOf w ∨ (e ≠ .s ∧ 5 ≤ opOf w ∧ opOf w ≤ 7)) →
    ∃ r, decodeLane e w x = .error r) ∧
  (∀ k ∈ [w / 2 ^ 23 % 8, w / 2 ^ 20 % 8], k = 6 ∨ k = 7 ∨ k = e.code → ∃ r, decodeLane e w x = .error r) ∧
  (wide64 e (opOf w) ≠ x.isSome → ∃ r, decodeLane e w x = .error r)) ∧
  ((∀ l : Line, Line.error l = none ↔
    Line.word l 0 / 2 ^ 29 = 0 ∧ ∀ i, 1 ≤ i → i ≤ 7 → let n := Line.word l 0 / 16 ^ (i - 1) % 16
      n ≤ 6 ∧ (n = 0 → Line.word l i = 0) ∧
      (n = 6 → 2 ≤ i ∧ ∃ e : Engine, Line.word l 0 / 16 ^ (i - 2) % 16 = e.code ∧ wide64 e (opOf (Line.word l (i - 1))) = true) ∧
      ∀ e : Engine, n = e.code →
        (wide64 e (opOf (Line.word l i)) = true → i < 7 ∧ Line.word l 0 / 16 ^ i % 16 = 6) ∧
        (e = .s → blockEnding (Line.word l i) = true → Line.word l 0 / 2 ^ 28 % 2 = 1 ∧ ∀ j, i < j → j ≤ 7 → Line.word l 0 / 16 ^ (j - 1) % 16 ≠ 1)) ∧
  ∀ (s s0 u : State) (sid : Nat) (e : Engine) (l : Line), s.takeTurn = (.lane sid e, s0) → s0.mayIssue sid = true → isService sid = false →
    let es := (s0.stream sid).eng' e
    es.ended = false → es.push = [] → stuck e (s0.stream sid).cmds = false → es.atEnd = false → (e = .s → (s0.stream sid).wait = none) → es.lane = 0 →
    (es.visit = 0 → s0.mayBegin sid es.blk = true) → s0.slipOk sid e = true → s0.queuesOpen sid e = true → s0.fetchWaits sid es.line = false →
    s0.fetch sid es.line = (u, .ok l) → (u.stream sid).run = .running → Line.error l ≠ none →
    ∃ t, step s = .next t ∧ (t.stream sid).run = .suspended ∧ (t.stream sid).fcode = 1 ∧ (t.stream sid).fline = BitVec.ofNat 64 es.line ∧
      (t.stream sid).feng = BitVec.ofNat 64 e.code ∧ t.mem = u.mem ∧ t.cores = u.cores ∧ (t.stream sid).tokens = (u.stream sid).tokens ∧ (t.stream sid).s = (u.stream sid).s ∧
      (∀ x, (t.stream sid).eng' x = (u.stream sid).eng' x) ∧ ∀ k, k ≠ sid → t.stream k = u.stream k)

/-- Every step keeps device memory and the contents of the arrays in canonical form. -/
def Obligations.StepKeepsMemory : Prop := ∀ s t : State, Memory.wf s.mem = true → Memory.wf s.rows = true → step s = .next t →
  Memory.wf t.mem = true ∧ Memory.wf t.rows = true

/-- The model answers every instruction and every turn with a next state: it stops nowhere. -/
def Obligations.EveryStepGoesOn : Prop := (∀ (i : Instr) (s : State), ∃ t, exec i s = .next t) ∧ ∀ s : State, s.safe

/-- At reset memory is canonical and lists nothing. Every stream is free, with every register, predicate, row, mask, engine scalar, spill word and nest
table entry 0, its CSRs 0 but WIN, which is 16, its type f32 and its FIFOs and tag table empty. Every core's scratchpad and planes read 0, its rings have
no slots, and its handler registers are 0. WTBASE and MIGBASE are 0, no die has joined, and nothing is leased. The zeros of the registers, WIN and the
type are the model's choice (assumption 1), and so is that memory nothing has written reads 0 (assumption 2). -/
def Obligations.ResetState : Prop := State.reset.mem = [] ∧ Memory.wf State.reset.mem = true ∧ Memory.wf State.reset.rows = true ∧
  (∀ a, Memory.read State.reset.mem a = 0 ∧ Memory.read State.reset.rows a = 0) ∧
  (∀ k, let x := State.reset.stream k
    x.run = .free ∧ x.win = 16 ∧ x.winNow = 16 ∧ x.vty = .f32 ∧ x.rot = 0 ∧
    (∀ r, Tab.get 0 x.s r = 0 ∧ Tab.get false x.p r = false ∧ x.row r = 0 ∧ x.overflowed r = false ∧ Tab.get 0 x.m r = 0 ∧ Tab.get 0 x.spill r = 0) ∧
    (∀ e r, Tab.get 0 (Tab.get [] x.e e) r = 0) ∧ (∀ l f, nestGet x.nestActive l f = 0 ∧ nestGet x.nestShadow l f = 0) ∧
    x.evt = 0 ∧ x.lcid = 0 ∧ x.stbase = 0 ∧ x.stlim = 0 ∧ x.wdog = 0 ∧ x.fcode = 0 ∧ x.faddr = 0 ∧ x.fline = 0 ∧ x.feng = 0 ∧
    x.ctxsid = 0 ∧ x.ctxaddr = 0 ∧ x.ctxcmd = 0 ∧ x.pswap = 0 ∧ x.pgate = 0 ∧ x.migst = 0 ∧
    x.tags = [] ∧ (∀ e f, x.fifo e f = []) ∧ (∀ e, Tab.get [] x.scalars e = []) ∧ x.fmtq = [] ∧ x.vq = [] ∧ x.cmds = []) ∧
  (∀ c, let x := State.reset.core c
    (∀ a, Memory.read x.sp a = 0 ∧ Memory.read x.planeA a = 0 ∧ Memory.read x.planeS a = 0) ∧ (∀ r, State.reset.ring c r = {}) ∧ x.windows = [] ∧ x.keys = [] ∧
    x.gated = false ∧ x.tvec = 0 ∧ x.epc = 0 ∧ x.ecause = 0 ∧ x.escr = 0 ∧ x.eie = false ∧ x.requests = []) ∧
  State.reset.wtbase = 0 ∧ State.reset.migbase = 0 ∧ State.reset.pages = [] ∧ State.reset.recseq = 0 ∧
  (∀ die, State.reset.joined die = false) ∧ (∀ an, (State.reset.lease an).st = .free) ∧ State.reset.sec.lockdown = 0 ∧ State.reset.boot.stage = 0
end

