-- ==== Sys2Proof/Laws/Tab.lean ====
section
/-! SUPPORT. Tables: reads after writes. Memory: reads after writes, and every operation keeps the canonical form. -/

namespace Sys2Proof

/-! ### Tables -/

theorem Tab.get_insert_self {α : Type} (d : α) (t : Tab α) (k : Nat) (x : α) (h : ∀ p ∈ t, p.1 ≠ k) :
    Tab.get d (Tab.insert t k x) k = x := by
  induction t with
  | nil => simp [Tab.insert, Tab.get]
  | cons p t ih =>
    obtain ⟨a, y⟩ := p
    have ha : a ≠ k := h (a, y) (by simp)
    have ht : ∀ p ∈ t, p.1 ≠ k := fun p hp => h p (by simp [hp])
    unfold Tab.insert
    split
    · simp [Tab.get, ha, ih ht]
    · simp [Tab.get]

theorem Tab.get_insert_ne {α : Type} (d : α) (t : Tab α) {k j : Nat} (x : α) (h : j ≠ k) :
    Tab.get d (Tab.insert t k x) j = Tab.get d t j := by
  induction t with
  | nil => simp [Tab.insert, Tab.get, Ne.symm h]
  | cons p t ih =>
    obtain ⟨a, y⟩ := p
    unfold Tab.insert
    split
    · by_cases haj : a = j
      · simp [Tab.get, haj]
      · simp [Tab.get, haj, ih]
    · simp [Tab.get, Ne.symm h]

theorem Tab.get_erase_ne {α : Type} (d : α) (t : Tab α) {k j : Nat} (h : j ≠ k) : Tab.get d (Tab.erase t k) j = Tab.get d t j := by
  induction t with
  | nil => rfl
  | cons p t ih =>
    obtain ⟨a, y⟩ := p
    unfold Tab.erase at ih ⊢
    by_cases hak : a = k
    · subst hak
      simp [Tab.get, Ne.symm h, ih]
    · by_cases haj : a = j
      · subst haj
        have hb : (a != k) = true := by simpa using h
        simp only [List.filter, hb, Tab.get, if_true]
      · simp [hak, Tab.get, haj, ih]

theorem Tab.get_erase_self {α : Type} (d : α) (t : Tab α) (k : Nat) : Tab.get d (Tab.erase t k) k = d := by
  induction t with
  | nil => rfl
  | cons p t ih =>
    obtain ⟨a, y⟩ := p
    unfold Tab.erase at ih ⊢
    by_cases hak : a = k
    · simp [hak, ih]
    · simp [hak, Tab.get, ih]

theorem Tab.erase_not_mem {α : Type} (t : Tab α) (k : Nat) : ∀ p ∈ Tab.erase t k, p.1 ≠ k := by
  intro p hp
  simpa using (List.mem_filter.1 hp).2

@[simp] theorem Tab.get_set_self {α : Type} (d : α) (t : Tab α) (k : Nat) (x : α) : Tab.get d (Tab.set t k x) k = x :=
  Tab.get_insert_self d _ k x (Tab.erase_not_mem t k)

theorem Tab.get_set_ne {α : Type} (d : α) (t : Tab α) {k j : Nat} (x : α) (h : j ≠ k) : Tab.get d (Tab.set t k x) j = Tab.get d t j := by
  rw [Tab.set, Tab.get_insert_ne d _ x h, Tab.get_erase_ne d t h]

theorem Tab.get_set {α : Type} (d : α) (t : Tab α) (k j : Nat) (x : α) : Tab.get d (Tab.set t k x) j = if j = k then x else Tab.get d t j := by
  split
  · next h => subst h; exact Tab.get_set_self d t j x
  · next h => exact Tab.get_set_ne d t x h

/-- What holds of the default and of every entry holds of what is read. -/
theorem Tab.get_of_forall {α : Type} {d : α} (P : α → Prop) (hd : P d) {t : Tab α} (h : ∀ p ∈ t, P p.2) (k : Nat) : P (Tab.get d t k) := by
  induction t with
  | nil => exact hd
  | cons p t ih =>
    unfold Tab.get
    split
    · exact h p (List.mem_cons_self ..)
    · exact ih fun q hq => h q (List.mem_cons_of_mem _ hq)

@[simp] theorem Tab.get_put_self {α : Type} [DecidableEq α] (d : α) (t : Tab α) (k : Nat) (x : α) : Tab.get d (Tab.put d t k x) k = x := by
  unfold Tab.put
  split
  · next h => rw [h]; exact Tab.get_erase_self d t k
  · exact Tab.get_set_self d t k x

theorem Tab.get_put_ne {α : Type} [DecidableEq α] (d : α) (t : Tab α) {k j : Nat} (x : α) (h : j ≠ k) :
    Tab.get d (Tab.put d t k x) j = Tab.get d t j := by
  unfold Tab.put
  split
  · exact Tab.get_erase_ne d t h
  · exact Tab.get_set_ne d t x h

/-! ### The canonical form -/

/-- Every key is at least lo, and the keys rise strictly. -/
def Tab.risingFrom {α : Type} : Nat → Tab α → Prop
  | _, [] => True
  | lo, (a, _) :: t => lo ≤ a ∧ Tab.risingFrom (a + 1) t

theorem Tab.risingFrom_mono {α : Type} {t : Tab α} {lo hi : Nat} (h : Tab.risingFrom hi t) (hl : lo ≤ hi) : Tab.risingFrom lo t := by
  cases t with
  | nil => trivial
  | cons p t => exact ⟨Nat.le_trans hl h.1, h.2⟩

theorem Tab.rising_cons {α : Type} (p : Nat × α) (t : Tab α) : Tab.rising (p :: t) = true ↔ Tab.risingFrom p.1 (p :: t) := by
  induction t generalizing p with
  | nil => simp [Tab.rising, Tab.risingFrom]
  | cons q t ih =>
    obtain ⟨a, x⟩ := p
    obtain ⟨b, y⟩ := q
    have := ih (b, y)
    simp only [Tab.rising, Bool.and_eq_true, decide_eq_true_eq, this, Tab.risingFrom]
    constructor
    · rintro ⟨h, -, h'⟩; exact ⟨Nat.le_refl _, h, h'⟩
    · rintro ⟨-, h, h'⟩; exact ⟨h, Nat.le_refl _, h'⟩

theorem Tab.rising_iff {α : Type} (t : Tab α) : Tab.rising t = true ↔ Tab.risingFrom 0 t := by
  cases t with
  | nil => simp [Tab.rising, Tab.risingFrom]
  | cons p t =>
    rw [Tab.rising_cons]
    exact ⟨fun h => Tab.risingFrom_mono h (Nat.zero_le _), fun h => ⟨Nat.le_refl _, h.2⟩⟩

theorem Tab.risingFrom_filter {α : Type} (f : Nat × α → Bool) {t : Tab α} {lo : Nat} (h : Tab.risingFrom lo t) :
    Tab.risingFrom lo (t.filter f) := by
  induction t generalizing lo with
  | nil => trivial
  | cons p t ih =>
    by_cases hf : f p
    · simp only [List.filter, hf]
      exact ⟨h.1, ih h.2⟩
    · simp only [List.filter, hf]
      exact Tab.risingFrom_mono (ih h.2) (Nat.le_succ_of_le h.1)

theorem Tab.risingFrom_insert {α : Type} {t : Tab α} {lo k : Nat} (x : α) (h : Tab.risingFrom lo t) (hk : lo ≤ k) (hn : ∀ p ∈ t, p.1 ≠ k) :
    Tab.risingFrom lo (Tab.insert t k x) := by
  induction t generalizing lo with
  | nil => exact ⟨hk, trivial⟩
  | cons p t ih =>
    obtain ⟨a, y⟩ := p
    have ha : a ≠ k := hn (a, y) (by simp)
    have ht : ∀ p ∈ t, p.1 ≠ k := fun p hp => hn p (by simp [hp])
    unfold Tab.insert
    split
    · next hlt => exact ⟨h.1, ih h.2 hlt ht⟩
    · next hge => exact ⟨hk, by omega, h.2⟩

theorem Tab.mem_insert {α : Type} {t : Tab α} {k : Nat} {x : α} {p : Nat × α} (h : p ∈ Tab.insert t k x) : p = (k, x) ∨ p ∈ t := by
  induction t with
  | nil => simpa [Tab.insert] using h
  | cons q t ih =>
    obtain ⟨a, y⟩ := q
    unfold Tab.insert at h
    split at h
    · rcases List.mem_cons.1 h with h | h
      · exact .inr (by simp [h])
      · exact (ih h).imp id fun h => by simp [h]
    · rcases List.mem_cons.1 h with h | h
      · exact .inl h
      · exact .inr h

/-! ### Memory -/

theorem Memory.wf_iff (m : Memory) : Memory.wf m = true ↔ Tab.risingFrom 0 m ∧ ∀ p ∈ m, p.2 ≠ Memory.unlisted := by
  simp [Memory.wf, Tab.rising_iff]

@[simp] theorem Memory.wf_nil : Memory.wf [] = true := rfl

theorem Memory.wf_filter {m : Memory} (f : Nat × BitVec 8 → Bool) (h : Memory.wf m = true) : Memory.wf (m.filter f) = true := by
  rw [Memory.wf_iff] at h ⊢
  exact ⟨Tab.risingFrom_filter f h.1, fun p hp => h.2 p (List.mem_filter.1 hp).1⟩

theorem Memory.wf_write {m : Memory} (a : Nat) (b : Byte) (h : Memory.wf m = true) : Memory.wf (Memory.write m a b) = true := by
  unfold Memory.write Tab.put
  split
  · exact Memory.wf_filter _ h
  · next hb =>
    have he := Memory.wf_filter (fun p => p.1 != a) h
    rw [Memory.wf_iff] at he ⊢
    refine ⟨Tab.risingFrom_insert b he.1 (Nat.zero_le _) (Tab.erase_not_mem m a), ?_⟩
    intro p hp
    rcases Tab.mem_insert hp with hp | hp
    · simpa [hp] using hb
    · exact he.2 p hp

theorem Memory.wf_writeList {m : Memory} (a : Nat) (bs : List Byte) (h : Memory.wf m = true) : Memory.wf (Memory.writeList m a bs) = true := by
  induction bs generalizing m a with
  | nil => exact h
  | cons b bs ih => exact ih (a + 1) (Memory.wf_write a b h)

theorem Memory.wf_clear {m : Memory} (a n : Nat) (h : Memory.wf m = true) : Memory.wf (Memory.clear m a n) = true := Memory.wf_filter _ h

theorem Tab.risingFrom_shift {t : Memory} {lo a b : Nat} (hb : ∀ p ∈ t, a ≤ p.1) (h : Tab.risingFrom lo t) :
    Tab.risingFrom (lo - a + b) (t.map fun p => (p.1 - a + b, p.2)) := by
  induction t generalizing lo with
  | nil => trivial
  | cons p t ih =>
    have hp : a ≤ p.1 := hb p (by simp)
    refine ⟨by have := h.1; omega, ?_⟩
    have := ih (fun q hq => hb q (by simp [hq])) h.2
    exact Tab.risingFrom_mono this (by omega)

theorem Memory.slice_rising {m : Memory} (a n b : Nat) (h : Tab.risingFrom 0 m) : Tab.risingFrom b (Memory.slice m a n b) := by
  unfold Memory.slice
  have hm : ∀ p ∈ m.filter (fun p => decide (a ≤ p.1) && decide (p.1 < a + n)), a ≤ p.1 := by
    intro p hp
    have := (List.mem_filter.1 hp).2
    simp at this
    exact this.1
  have := Tab.risingFrom_shift (lo := 0) (a := a) (b := b) hm (Tab.risingFrom_filter _ h)
  exact Tab.risingFrom_mono this (by omega)

theorem Memory.wf_slice {m : Memory} (a n b : Nat) (h : Memory.wf m = true) : Memory.wf (Memory.slice m a n b) = true := by
  rw [Memory.wf_iff] at h ⊢
  refine ⟨Tab.risingFrom_mono (Memory.slice_rising a n b h.1) (Nat.zero_le _), ?_⟩
  intro p hp
  obtain ⟨q, hq, rfl⟩ := List.mem_map.1 hp
  exact h.2 q (List.mem_filter.1 hq).1

/-- Two rising tables, the second above the first, joined. -/
theorem Tab.risingFrom_append {α : Type} {t u : Tab α} {lo hi : Nat} (ht : Tab.risingFrom lo t) (hu : Tab.risingFrom hi u) (hl : lo ≤ hi)
    (hm : ∀ p ∈ t, p.1 < hi) : Tab.risingFrom lo (t ++ u) := by
  induction t generalizing lo with
  | nil => exact Tab.risingFrom_mono hu hl
  | cons p t ih =>
    exact ⟨ht.1, ih ht.2 (hm p (by simp)) fun q hq => hm q (by simp [hq])⟩

theorem Tab.risingFrom_of_le {α : Type} {t : Tab α} {lo hi : Nat} (h : Tab.risingFrom lo t) (hm : ∀ p ∈ t, hi ≤ p.1) : Tab.risingFrom hi t := by
  cases t with
  | nil => trivial
  | cons p t => exact ⟨hm p (by simp), h.2⟩

theorem Memory.wf_paste {m x : Memory} (a n : Nat) (hm : Memory.wf m = true) (hx : Memory.wf x = true) : Memory.wf (Memory.paste m a n x) = true := by
  have hs := Memory.wf_slice 0 n a hx
  rw [Memory.wf_iff] at hm hs hx ⊢
  have hlo : ∀ p ∈ m.filter (fun p => decide (p.1 < a)), p.1 < a := by
    intro p hp; simpa using (List.mem_filter.1 hp).2
  have hhi : ∀ p ∈ m.filter (fun p => decide (a + n ≤ p.1)), a + n ≤ p.1 := by
    intro p hp; simpa using (List.mem_filter.1 hp).2
  have hmid : ∀ p ∈ Memory.slice x 0 n a, p.1 < a + n := by
    intro p hp
    obtain ⟨q, hq, rfl⟩ := List.mem_map.1 hp
    have := (List.mem_filter.1 hq).2
    simp at this
    show q.1 - 0 + a < a + n
    omega
  refine ⟨?_, ?_⟩
  · unfold Memory.paste
    rw [List.append_assoc]
    refine Tab.risingFrom_append (hi := a) (Tab.risingFrom_filter _ hm.1) ?_ (Nat.zero_le _) hlo
    refine Tab.risingFrom_append (hi := a + n) (Memory.slice_rising 0 n a hx.1) ?_ (by omega) hmid
    exact Tab.risingFrom_of_le (Tab.risingFrom_filter _ hm.1) hhi
  · intro p hp
    unfold Memory.paste at hp
    rcases List.mem_append.1 hp with hp | hp
    · rcases List.mem_append.1 hp with hp | hp
      · exact hm.2 p (List.mem_filter.1 hp).1
      · exact hs.2 p hp
    · exact hm.2 p (List.mem_filter.1 hp).1

/-! ### Reads after writes -/

@[simp] theorem Memory.read_write_self (m : Memory) (a : Nat) (b : Byte) : Memory.read (Memory.write m a b) a = b := Tab.get_put_self _ m a b

theorem Memory.read_write_ne (m : Memory) {a c : Nat} (b : Byte) (h : c ≠ a) : Memory.read (Memory.write m a b) c = Memory.read m c :=
  Tab.get_put_ne _ m b h

/-- A write leaves every byte outside its range alone. -/
theorem Memory.read_writeList_out (m : Memory) (a : Nat) (bs : List Byte) {c : Nat} (h : c < a ∨ a + bs.length ≤ c) :
    Memory.read (Memory.writeList m a bs) c = Memory.read m c := by
  induction bs generalizing m a with
  | nil => rfl
  | cons b bs ih =>
    simp only [List.length_cons] at h
    rw [Memory.writeList, ih _ _ (by omega), Memory.read_write_ne _ _ (by omega)]

/-- A write gives back what it wrote. -/
theorem Memory.read_writeList_in (m : Memory) (a : Nat) (bs : List Byte) {i : Nat} (h : i < bs.length) :
    Memory.read (Memory.writeList m a bs) (a + i) = bs.getD i 0 := by
  induction bs generalizing m a i with
  | nil => simp at h
  | cons b bs ih =>
    rw [Memory.writeList]
    cases i with
    | zero => rw [Nat.add_zero, Memory.read_writeList_out _ _ _ (by omega)]; simp
    | succ i =>
      have := ih (Memory.write m a b) (a + 1) (i := i) (by simpa using h)
      rw [show a + (i + 1) = a + 1 + i by omega, this]
      simp

theorem Memory.read_filter (m : Memory) (f : Nat → Bool) (c : Nat) :
    Memory.read (m.filter fun p => f p.1) c = if f c then Memory.read m c else 0 := by
  induction m with
  | nil => simp [Memory.read, Tab.get, Memory.unlisted]
  | cons p m ih =>
    obtain ⟨a, x⟩ := p
    simp only [Memory.read] at ih ⊢
    by_cases hf : f a
    · simp only [List.filter, hf, Tab.get]
      split
      · next h => subst h; simp [hf]
      · exact ih
    · simp only [List.filter, hf, Tab.get]
      rw [ih]
      split
      · next hc =>
        have : a ≠ c := fun h => hf (h ▸ hc)
        simp [this]
      · rfl

/-- Clearing a range reads as 0 there and leaves the rest. -/
theorem Memory.read_clear (m : Memory) (a n c : Nat) :
    Memory.read (Memory.clear m a n) c = if a ≤ c ∧ c < a + n then 0 else Memory.read m c := by
  have h := Memory.read_filter m (fun k => !(decide (a ≤ k) && decide (k < a + n))) c
  unfold Memory.clear
  rw [h]
  by_cases hc : a ≤ c ∧ c < a + n
  · simp [hc.1, hc.2]
  · rw [if_neg hc, if_pos]
    simp; omega

@[simp] theorem Memory.length_readList (m : Memory) (a n : Nat) : (Memory.readList m a n).length = n := by
  induction n generalizing a with
  | zero => rfl
  | succ n ih => simp [Memory.readList, ih]

@[simp] theorem leBytes_length (n v : Nat) : (leBytes n v).length = n := by
  induction n generalizing v with
  | zero => rfl
  | succ n ih => simp [leBytes, ih]

end Sys2Proof
end

