-- ==== Sys2Proof/Laws/State.lean ====
section
/-! SUPPORT. One lemma for each field under each update of the state. -/

namespace Sys2Proof.Machine

open Sys2Proof

/-! ### Tables of the state -/

@[simp] theorem State.stream_setStream (s : State) (sid : Nat) (st : Stream) : (s.setStream sid st).stream sid = st := Tab.get_set_self _ _ _ _
theorem State.stream_setStream_ne (s : State) {sid j : Nat} (st : Stream) (h : j ≠ sid) : (s.setStream sid st).stream j = s.stream j := Tab.get_set_ne _ _ _ h
@[simp] theorem State.core_setStream (s : State) (sid : Nat) (st : Stream) (j : Nat) : (s.setStream sid st).core j = s.core j := rfl
@[simp] theorem State.lease_setStream (s : State) (sid : Nat) (st : Stream) (j : Nat) : (s.setStream sid st).lease j = s.lease j := rfl
@[simp] theorem State.bay_setStream (s : State) (sid : Nat) (st : Stream) (j : Nat) : (s.setStream sid st).bay j = s.bay j := rfl
@[simp] theorem State.world_setStream (s : State) (sid : Nat) (st : Stream) (j : Nat) : (s.setStream sid st).world j = s.world j := rfl
@[simp] theorem State.vf_setStream (s : State) (sid : Nat) (st : Stream) (j : Nat) : (s.setStream sid st).vf j = s.vf j := rfl
@[simp] theorem State.link_setStream (s : State) (sid : Nat) (st : Stream) (j : Nat) : (s.setStream sid st).link j = s.link j := rfl

@[simp] theorem State.core_setCore (s : State) (c : Nat) (k : Core) : (s.setCore c k).core c = k := Tab.get_set_self _ _ _ _
theorem State.core_setCore_ne (s : State) {c j : Nat} (k : Core) (h : j ≠ c) : (s.setCore c k).core j = s.core j := Tab.get_set_ne _ _ _ h
@[simp] theorem State.stream_setCore (s : State) (c : Nat) (k : Core) (j : Nat) : (s.setCore c k).stream j = s.stream j := rfl
@[simp] theorem State.lease_setCore (s : State) (c : Nat) (k : Core) (j : Nat) : (s.setCore c k).lease j = s.lease j := rfl
@[simp] theorem State.bay_setCore (s : State) (c : Nat) (k : Core) (j : Nat) : (s.setCore c k).bay j = s.bay j := rfl
@[simp] theorem State.world_setCore (s : State) (c : Nat) (k : Core) (j : Nat) : (s.setCore c k).world j = s.world j := rfl
@[simp] theorem State.vf_setCore (s : State) (c : Nat) (k : Core) (j : Nat) : (s.setCore c k).vf j = s.vf j := rfl
@[simp] theorem State.link_setCore (s : State) (c : Nat) (k : Core) (j : Nat) : (s.setCore c k).link j = s.link j := rfl

@[simp] theorem State.lease_setLease (s : State) (an : Nat) (l : Lease) : (s.setLease an l).lease an = l := Tab.get_set_self _ _ _ _
theorem State.lease_setLease_ne (s : State) {an j : Nat} (l : Lease) (h : j ≠ an) : (s.setLease an l).lease j = s.lease j := Tab.get_set_ne _ _ _ h
@[simp] theorem State.stream_setLease (s : State) (an : Nat) (l : Lease) (j : Nat) : (s.setLease an l).stream j = s.stream j := rfl
@[simp] theorem State.core_setLease (s : State) (an : Nat) (l : Lease) (j : Nat) : (s.setLease an l).core j = s.core j := rfl
@[simp] theorem State.bay_setLease (s : State) (an : Nat) (l : Lease) (j : Nat) : (s.setLease an l).bay j = s.bay j := rfl
@[simp] theorem State.world_setLease (s : State) (an : Nat) (l : Lease) (j : Nat) : (s.setLease an l).world j = s.world j := rfl
@[simp] theorem State.vf_setLease (s : State) (an : Nat) (l : Lease) (j : Nat) : (s.setLease an l).vf j = s.vf j := rfl
@[simp] theorem State.link_setLease (s : State) (an : Nat) (l : Lease) (j : Nat) : (s.setLease an l).link j = s.link j := rfl

@[simp] theorem State.bay_setBay (s : State) (b : Nat) (x : Bay) : (s.setBay b x).bay b = x := Tab.get_set_self _ _ _ _
theorem State.bay_setBay_ne (s : State) {b j : Nat} (x : Bay) (h : j ≠ b) : (s.setBay b x).bay j = s.bay j := Tab.get_set_ne _ _ _ h
@[simp] theorem State.stream_setBay (s : State) (b : Nat) (x : Bay) (j : Nat) : (s.setBay b x).stream j = s.stream j := rfl
@[simp] theorem State.core_setBay (s : State) (b : Nat) (x : Bay) (j : Nat) : (s.setBay b x).core j = s.core j := rfl
@[simp] theorem State.lease_setBay (s : State) (b : Nat) (x : Bay) (j : Nat) : (s.setBay b x).lease j = s.lease j := rfl
@[simp] theorem State.world_setBay (s : State) (b : Nat) (x : Bay) (j : Nat) : (s.setBay b x).world j = s.world j := rfl
@[simp] theorem State.vf_setBay (s : State) (b : Nat) (x : Bay) (j : Nat) : (s.setBay b x).vf j = s.vf j := rfl
@[simp] theorem State.link_setBay (s : State) (b : Nat) (x : Bay) (j : Nat) : (s.setBay b x).link j = s.link j := rfl

@[simp] theorem State.world_setWorld (s : State) (w : Nat) (x : World) : (s.setWorld w x).world w = x := Tab.get_set_self _ _ _ _
theorem State.world_setWorld_ne (s : State) {w j : Nat} (x : World) (h : j ≠ w) : (s.setWorld w x).world j = s.world j := Tab.get_set_ne _ _ _ h
@[simp] theorem State.stream_setWorld (s : State) (w : Nat) (x : World) (j : Nat) : (s.setWorld w x).stream j = s.stream j := rfl
@[simp] theorem State.core_setWorld (s : State) (w : Nat) (x : World) (j : Nat) : (s.setWorld w x).core j = s.core j := rfl
@[simp] theorem State.lease_setWorld (s : State) (w : Nat) (x : World) (j : Nat) : (s.setWorld w x).lease j = s.lease j := rfl
@[simp] theorem State.bay_setWorld (s : State) (w : Nat) (x : World) (j : Nat) : (s.setWorld w x).bay j = s.bay j := rfl
@[simp] theorem State.vf_setWorld (s : State) (w : Nat) (x : World) (j : Nat) : (s.setWorld w x).vf j = s.vf j := rfl
@[simp] theorem State.link_setWorld (s : State) (w : Nat) (x : World) (j : Nat) : (s.setWorld w x).link j = s.link j := rfl

@[simp] theorem State.vf_setVf (s : State) (n : Nat) (x : Vf) : (s.setVf n x).vf n = x := Tab.get_set_self _ _ _ _
theorem State.vf_setVf_ne (s : State) {n j : Nat} (x : Vf) (h : j ≠ n) : (s.setVf n x).vf j = s.vf j := Tab.get_set_ne _ _ _ h
@[simp] theorem State.stream_setVf (s : State) (n : Nat) (x : Vf) (j : Nat) : (s.setVf n x).stream j = s.stream j := rfl
@[simp] theorem State.core_setVf (s : State) (n : Nat) (x : Vf) (j : Nat) : (s.setVf n x).core j = s.core j := rfl
@[simp] theorem State.lease_setVf (s : State) (n : Nat) (x : Vf) (j : Nat) : (s.setVf n x).lease j = s.lease j := rfl
@[simp] theorem State.bay_setVf (s : State) (n : Nat) (x : Vf) (j : Nat) : (s.setVf n x).bay j = s.bay j := rfl
@[simp] theorem State.world_setVf (s : State) (n : Nat) (x : Vf) (j : Nat) : (s.setVf n x).world j = s.world j := rfl
@[simp] theorem State.link_setVf (s : State) (n : Nat) (x : Vf) (j : Nat) : (s.setVf n x).link j = s.link j := rfl

@[simp] theorem State.link_setLink (s : State) (n : Nat) (x : Link) : (s.setLink n x).link n = x := Tab.get_set_self _ _ _ _
theorem State.link_setLink_ne (s : State) {n j : Nat} (x : Link) (h : j ≠ n) : (s.setLink n x).link j = s.link j := Tab.get_set_ne _ _ _ h
@[simp] theorem State.stream_setLink (s : State) (n : Nat) (x : Link) (j : Nat) : (s.setLink n x).stream j = s.stream j := rfl
@[simp] theorem State.core_setLink (s : State) (n : Nat) (x : Link) (j : Nat) : (s.setLink n x).core j = s.core j := rfl
@[simp] theorem State.lease_setLink (s : State) (n : Nat) (x : Link) (j : Nat) : (s.setLink n x).lease j = s.lease j := rfl
@[simp] theorem State.bay_setLink (s : State) (n : Nat) (x : Link) (j : Nat) : (s.setLink n x).bay j = s.bay j := rfl
@[simp] theorem State.world_setLink (s : State) (n : Nat) (x : Link) (j : Nat) : (s.setLink n x).world j = s.world j := rfl
@[simp] theorem State.vf_setLink (s : State) (n : Nat) (x : Link) (j : Nat) : (s.setLink n x).vf j = s.vf j := rfl

/-! ### Fields of the state -/

@[simp] theorem State.setStream_tick (s : State) (sid : Nat) (st : Stream) : (s.setStream sid st).tick = s.tick := rfl
@[simp] theorem State.setStream_sched (s : State) (sid : Nat) (st : Stream) : (s.setStream sid st).sched = s.sched := rfl
@[simp] theorem State.setStream_cur (s : State) (sid : Nat) (st : Stream) : (s.setStream sid st).cur = s.cur := rfl
@[simp] theorem State.setStream_out (s : State) (sid : Nat) (st : Stream) : (s.setStream sid st).out = s.out := rfl
@[simp] theorem State.setStream_nextId (s : State) (sid : Nat) (st : Stream) : (s.setStream sid st).nextId = s.nextId := rfl
@[simp] theorem State.setStream_cores (s : State) (sid : Nat) (st : Stream) : (s.setStream sid st).cores = s.cores := rfl
@[simp] theorem State.setStream_rows (s : State) (sid : Nat) (st : Stream) : (s.setStream sid st).rows = s.rows := rfl
@[simp] theorem State.setStream_leases (s : State) (sid : Nat) (st : Stream) : (s.setStream sid st).leases = s.leases := rfl
@[simp] theorem State.setStream_bays (s : State) (sid : Nat) (st : Stream) : (s.setStream sid st).bays = s.bays := rfl
@[simp] theorem State.setStream_revocations (s : State) (sid : Nat) (st : Stream) : (s.setStream sid st).revocations = s.revocations := rfl
@[simp] theorem State.setStream_recseq (s : State) (sid : Nat) (st : Stream) : (s.setStream sid st).recseq = s.recseq := rfl
@[simp] theorem State.setStream_records (s : State) (sid : Nat) (st : Stream) : (s.setStream sid st).records = s.records := rfl
@[simp] theorem State.setStream_journal (s : State) (sid : Nat) (st : Stream) : (s.setStream sid st).journal = s.journal := rfl
@[simp] theorem State.setStream_mem (s : State) (sid : Nat) (st : Stream) : (s.setStream sid st).mem = s.mem := rfl
@[simp] theorem State.setStream_memBad (s : State) (sid : Nat) (st : Stream) : (s.setStream sid st).memBad = s.memBad := rfl
@[simp] theorem State.setStream_memErr (s : State) (sid : Nat) (st : Stream) : (s.setStream sid st).memErr = s.memErr := rfl
@[simp] theorem State.setStream_stale (s : State) (sid : Nat) (st : Stream) : (s.setStream sid st).stale = s.stale := rfl
@[simp] theorem State.setStream_fresh (s : State) (sid : Nat) (st : Stream) : (s.setStream sid st).fresh = s.fresh := rfl
@[simp] theorem State.setStream_queue (s : State) (sid : Nat) (st : Stream) : (s.setStream sid st).queue = s.queue := rfl
@[simp] theorem State.setStream_atCore (s : State) (sid : Nat) (st : Stream) : (s.setStream sid st).atCore = s.atCore := rfl
@[simp] theorem State.setStream_atGrp (s : State) (sid : Nat) (st : Stream) : (s.setStream sid st).atGrp = s.atGrp := rfl
@[simp] theorem State.setStream_atDie (s : State) (sid : Nat) (st : Stream) : (s.setStream sid st).atDie = s.atDie := rfl
@[simp] theorem State.setStream_rels (s : State) (sid : Nat) (st : Stream) : (s.setStream sid st).rels = s.rels := rfl
@[simp] theorem State.setStream_pages (s : State) (sid : Nat) (st : Stream) : (s.setStream sid st).pages = s.pages := rfl
@[simp] theorem State.setStream_alloc (s : State) (sid : Nat) (st : Stream) : (s.setStream sid st).alloc = s.alloc := rfl
@[simp] theorem State.setStream_tlb (s : State) (sid : Nat) (st : Stream) : (s.setStream sid st).tlb = s.tlb := rfl
@[simp] theorem State.setStream_regions (s : State) (sid : Nat) (st : Stream) : (s.setStream sid st).regions = s.regions := rfl
@[simp] theorem State.setStream_gates (s : State) (sid : Nat) (st : Stream) : (s.setStream sid st).gates = s.gates := rfl
@[simp] theorem State.setStream_launches (s : State) (sid : Nat) (st : Stream) : (s.setStream sid st).launches = s.launches := rfl
@[simp] theorem State.setStream_rotate (s : State) (sid : Nat) (st : Stream) : (s.setStream sid st).rotate = s.rotate := rfl
@[simp] theorem State.setStream_ranges (s : State) (sid : Nat) (st : Stream) : (s.setStream sid st).ranges = s.ranges := rfl
@[simp] theorem State.setStream_worlds (s : State) (sid : Nat) (st : Stream) : (s.setStream sid st).worlds = s.worlds := rfl
@[simp] theorem State.setStream_wtbase (s : State) (sid : Nat) (st : Stream) : (s.setStream sid st).wtbase = s.wtbase := rfl
@[simp] theorem State.setStream_migbase (s : State) (sid : Nat) (st : Stream) : (s.setStream sid st).migbase = s.migbase := rfl
@[simp] theorem State.setStream_images (s : State) (sid : Nat) (st : Stream) : (s.setStream sid st).images = s.images := rfl
@[simp] theorem State.setStream_spent (s : State) (sid : Nat) (st : Stream) : (s.setStream sid st).spent = s.spent := rfl
@[simp] theorem State.setStream_shadow (s : State) (sid : Nat) (st : Stream) : (s.setStream sid st).shadow = s.shadow := rfl
@[simp] theorem State.setStream_vfs (s : State) (sid : Nat) (st : Stream) : (s.setStream sid st).vfs = s.vfs := rfl
@[simp] theorem State.setStream_flows (s : State) (sid : Nat) (st : Stream) : (s.setStream sid st).flows = s.flows := rfl
@[simp] theorem State.setStream_flowMiss (s : State) (sid : Nat) (st : Stream) : (s.setStream sid st).flowMiss = s.flowMiss := rfl
@[simp] theorem State.setStream_links (s : State) (sid : Nat) (st : Stream) : (s.setStream sid st).links = s.links := rfl
@[simp] theorem State.setStream_peers (s : State) (sid : Nat) (st : Stream) : (s.setStream sid st).peers = s.peers := rfl
@[simp] theorem State.setStream_syncKeys (s : State) (sid : Nat) (st : Stream) : (s.setStream sid st).syncKeys = s.syncKeys := rfl
@[simp] theorem State.setStream_syncWords (s : State) (sid : Nat) (st : Stream) : (s.setStream sid st).syncWords = s.syncWords := rfl
@[simp] theorem State.setStream_sliceKeys (s : State) (sid : Nat) (st : Stream) : (s.setStream sid st).sliceKeys = s.sliceKeys := rfl
@[simp] theorem State.setStream_sec (s : State) (sid : Nat) (st : Stream) : (s.setStream sid st).sec = s.sec := rfl
@[simp] theorem State.setStream_boot (s : State) (sid : Nat) (st : Stream) : (s.setStream sid st).boot = s.boot := rfl
@[simp] theorem State.setStream_power (s : State) (sid : Nat) (st : Stream) : (s.setStream sid st).power = s.power := rfl
@[simp] theorem State.setStream_corrected (s : State) (sid : Nat) (st : Stream) : (s.setStream sid st).corrected = s.corrected := rfl
@[simp] theorem State.setStream_clock (s : State) (sid : Nat) (st : Stream) : (s.setStream sid st).clock = s.clock := rfl
@[simp] theorem State.setStream_now (s : State) (sid : Nat) (st : Stream) : (s.setStream sid st).now = s.now := rfl
@[simp] theorem State.setStream_traps (s : State) (sid : Nat) (st : Stream) : (s.setStream sid st).traps = s.traps := rfl
@[simp] theorem State.setStream_services (s : State) (sid : Nat) (st : Stream) : (s.setStream sid st).services = s.services := rfl

@[simp] theorem State.setCore_tick (s : State) (c : Nat) (k : Core) : (s.setCore c k).tick = s.tick := rfl
@[simp] theorem State.setCore_sched (s : State) (c : Nat) (k : Core) : (s.setCore c k).sched = s.sched := rfl
@[simp] theorem State.setCore_cur (s : State) (c : Nat) (k : Core) : (s.setCore c k).cur = s.cur := rfl
@[simp] theorem State.setCore_out (s : State) (c : Nat) (k : Core) : (s.setCore c k).out = s.out := rfl
@[simp] theorem State.setCore_nextId (s : State) (c : Nat) (k : Core) : (s.setCore c k).nextId = s.nextId := rfl
@[simp] theorem State.setCore_streams (s : State) (c : Nat) (k : Core) : (s.setCore c k).streams = s.streams := rfl
@[simp] theorem State.setCore_rows (s : State) (c : Nat) (k : Core) : (s.setCore c k).rows = s.rows := rfl
@[simp] theorem State.setCore_leases (s : State) (c : Nat) (k : Core) : (s.setCore c k).leases = s.leases := rfl
@[simp] theorem State.setCore_bays (s : State) (c : Nat) (k : Core) : (s.setCore c k).bays = s.bays := rfl
@[simp] theorem State.setCore_revocations (s : State) (c : Nat) (k : Core) : (s.setCore c k).revocations = s.revocations := rfl
@[simp] theorem State.setCore_recseq (s : State) (c : Nat) (k : Core) : (s.setCore c k).recseq = s.recseq := rfl
@[simp] theorem State.setCore_records (s : State) (c : Nat) (k : Core) : (s.setCore c k).records = s.records := rfl
@[simp] theorem State.setCore_journal (s : State) (c : Nat) (k : Core) : (s.setCore c k).journal = s.journal := rfl
@[simp] theorem State.setCore_mem (s : State) (c : Nat) (k : Core) : (s.setCore c k).mem = s.mem := rfl
@[simp] theorem State.setCore_memBad (s : State) (c : Nat) (k : Core) : (s.setCore c k).memBad = s.memBad := rfl
@[simp] theorem State.setCore_memErr (s : State) (c : Nat) (k : Core) : (s.setCore c k).memErr = s.memErr := rfl
@[simp] theorem State.setCore_stale (s : State) (c : Nat) (k : Core) : (s.setCore c k).stale = s.stale := rfl
@[simp] theorem State.setCore_fresh (s : State) (c : Nat) (k : Core) : (s.setCore c k).fresh = s.fresh := rfl
@[simp] theorem State.setCore_queue (s : State) (c : Nat) (k : Core) : (s.setCore c k).queue = s.queue := rfl
@[simp] theorem State.setCore_atCore (s : State) (c : Nat) (k : Core) : (s.setCore c k).atCore = s.atCore := rfl
@[simp] theorem State.setCore_atGrp (s : State) (c : Nat) (k : Core) : (s.setCore c k).atGrp = s.atGrp := rfl
@[simp] theorem State.setCore_atDie (s : State) (c : Nat) (k : Core) : (s.setCore c k).atDie = s.atDie := rfl
@[simp] theorem State.setCore_rels (s : State) (c : Nat) (k : Core) : (s.setCore c k).rels = s.rels := rfl
@[simp] theorem State.setCore_pages (s : State) (c : Nat) (k : Core) : (s.setCore c k).pages = s.pages := rfl
@[simp] theorem State.setCore_alloc (s : State) (c : Nat) (k : Core) : (s.setCore c k).alloc = s.alloc := rfl
@[simp] theorem State.setCore_tlb (s : State) (c : Nat) (k : Core) : (s.setCore c k).tlb = s.tlb := rfl
@[simp] theorem State.setCore_regions (s : State) (c : Nat) (k : Core) : (s.setCore c k).regions = s.regions := rfl
@[simp] theorem State.setCore_gates (s : State) (c : Nat) (k : Core) : (s.setCore c k).gates = s.gates := rfl
@[simp] theorem State.setCore_launches (s : State) (c : Nat) (k : Core) : (s.setCore c k).launches = s.launches := rfl
@[simp] theorem State.setCore_rotate (s : State) (c : Nat) (k : Core) : (s.setCore c k).rotate = s.rotate := rfl
@[simp] theorem State.setCore_ranges (s : State) (c : Nat) (k : Core) : (s.setCore c k).ranges = s.ranges := rfl
@[simp] theorem State.setCore_worlds (s : State) (c : Nat) (k : Core) : (s.setCore c k).worlds = s.worlds := rfl
@[simp] theorem State.setCore_wtbase (s : State) (c : Nat) (k : Core) : (s.setCore c k).wtbase = s.wtbase := rfl
@[simp] theorem State.setCore_migbase (s : State) (c : Nat) (k : Core) : (s.setCore c k).migbase = s.migbase := rfl
@[simp] theorem State.setCore_images (s : State) (c : Nat) (k : Core) : (s.setCore c k).images = s.images := rfl
@[simp] theorem State.setCore_spent (s : State) (c : Nat) (k : Core) : (s.setCore c k).spent = s.spent := rfl
@[simp] theorem State.setCore_shadow (s : State) (c : Nat) (k : Core) : (s.setCore c k).shadow = s.shadow := rfl
@[simp] theorem State.setCore_vfs (s : State) (c : Nat) (k : Core) : (s.setCore c k).vfs = s.vfs := rfl
@[simp] theorem State.setCore_flows (s : State) (c : Nat) (k : Core) : (s.setCore c k).flows = s.flows := rfl
@[simp] theorem State.setCore_flowMiss (s : State) (c : Nat) (k : Core) : (s.setCore c k).flowMiss = s.flowMiss := rfl
@[simp] theorem State.setCore_links (s : State) (c : Nat) (k : Core) : (s.setCore c k).links = s.links := rfl
@[simp] theorem State.setCore_peers (s : State) (c : Nat) (k : Core) : (s.setCore c k).peers = s.peers := rfl
@[simp] theorem State.setCore_syncKeys (s : State) (c : Nat) (k : Core) : (s.setCore c k).syncKeys = s.syncKeys := rfl
@[simp] theorem State.setCore_syncWords (s : State) (c : Nat) (k : Core) : (s.setCore c k).syncWords = s.syncWords := rfl
@[simp] theorem State.setCore_sliceKeys (s : State) (c : Nat) (k : Core) : (s.setCore c k).sliceKeys = s.sliceKeys := rfl
@[simp] theorem State.setCore_sec (s : State) (c : Nat) (k : Core) : (s.setCore c k).sec = s.sec := rfl
@[simp] theorem State.setCore_boot (s : State) (c : Nat) (k : Core) : (s.setCore c k).boot = s.boot := rfl
@[simp] theorem State.setCore_power (s : State) (c : Nat) (k : Core) : (s.setCore c k).power = s.power := rfl
@[simp] theorem State.setCore_corrected (s : State) (c : Nat) (k : Core) : (s.setCore c k).corrected = s.corrected := rfl
@[simp] theorem State.setCore_clock (s : State) (c : Nat) (k : Core) : (s.setCore c k).clock = s.clock := rfl
@[simp] theorem State.setCore_now (s : State) (c : Nat) (k : Core) : (s.setCore c k).now = s.now := rfl
@[simp] theorem State.setCore_traps (s : State) (c : Nat) (k : Core) : (s.setCore c k).traps = s.traps := rfl
@[simp] theorem State.setCore_services (s : State) (c : Nat) (k : Core) : (s.setCore c k).services = s.services := rfl

@[simp] theorem State.setLease_tick (s : State) (an : Nat) (l : Lease) : (s.setLease an l).tick = s.tick := rfl
@[simp] theorem State.setLease_sched (s : State) (an : Nat) (l : Lease) : (s.setLease an l).sched = s.sched := rfl
@[simp] theorem State.setLease_cur (s : State) (an : Nat) (l : Lease) : (s.setLease an l).cur = s.cur := rfl
@[simp] theorem State.setLease_out (s : State) (an : Nat) (l : Lease) : (s.setLease an l).out = s.out := rfl
@[simp] theorem State.setLease_nextId (s : State) (an : Nat) (l : Lease) : (s.setLease an l).nextId = s.nextId := rfl
@[simp] theorem State.setLease_streams (s : State) (an : Nat) (l : Lease) : (s.setLease an l).streams = s.streams := rfl
@[simp] theorem State.setLease_cores (s : State) (an : Nat) (l : Lease) : (s.setLease an l).cores = s.cores := rfl
@[simp] theorem State.setLease_rows (s : State) (an : Nat) (l : Lease) : (s.setLease an l).rows = s.rows := rfl
@[simp] theorem State.setLease_bays (s : State) (an : Nat) (l : Lease) : (s.setLease an l).bays = s.bays := rfl
@[simp] theorem State.setLease_revocations (s : State) (an : Nat) (l : Lease) : (s.setLease an l).revocations = s.revocations := rfl
@[simp] theorem State.setLease_recseq (s : State) (an : Nat) (l : Lease) : (s.setLease an l).recseq = s.recseq := rfl
@[simp] theorem State.setLease_records (s : State) (an : Nat) (l : Lease) : (s.setLease an l).records = s.records := rfl
@[simp] theorem State.setLease_journal (s : State) (an : Nat) (l : Lease) : (s.setLease an l).journal = s.journal := rfl
@[simp] theorem State.setLease_mem (s : State) (an : Nat) (l : Lease) : (s.setLease an l).mem = s.mem := rfl
@[simp] theorem State.setLease_memBad (s : State) (an : Nat) (l : Lease) : (s.setLease an l).memBad = s.memBad := rfl
@[simp] theorem State.setLease_memErr (s : State) (an : Nat) (l : Lease) : (s.setLease an l).memErr = s.memErr := rfl
@[simp] theorem State.setLease_stale (s : State) (an : Nat) (l : Lease) : (s.setLease an l).stale = s.stale := rfl
@[simp] theorem State.setLease_fresh (s : State) (an : Nat) (l : Lease) : (s.setLease an l).fresh = s.fresh := rfl
@[simp] theorem State.setLease_queue (s : State) (an : Nat) (l : Lease) : (s.setLease an l).queue = s.queue := rfl
@[simp] theorem State.setLease_atCore (s : State) (an : Nat) (l : Lease) : (s.setLease an l).atCore = s.atCore := rfl
@[simp] theorem State.setLease_atGrp (s : State) (an : Nat) (l : Lease) : (s.setLease an l).atGrp = s.atGrp := rfl
@[simp] theorem State.setLease_atDie (s : State) (an : Nat) (l : Lease) : (s.setLease an l).atDie = s.atDie := rfl
@[simp] theorem State.setLease_rels (s : State) (an : Nat) (l : Lease) : (s.setLease an l).rels = s.rels := rfl
@[simp] theorem State.setLease_pages (s : State) (an : Nat) (l : Lease) : (s.setLease an l).pages = s.pages := rfl
@[simp] theorem State.setLease_alloc (s : State) (an : Nat) (l : Lease) : (s.setLease an l).alloc = s.alloc := rfl
@[simp] theorem State.setLease_tlb (s : State) (an : Nat) (l : Lease) : (s.setLease an l).tlb = s.tlb := rfl
@[simp] theorem State.setLease_regions (s : State) (an : Nat) (l : Lease) : (s.setLease an l).regions = s.regions := rfl
@[simp] theorem State.setLease_gates (s : State) (an : Nat) (l : Lease) : (s.setLease an l).gates = s.gates := rfl
@[simp] theorem State.setLease_launches (s : State) (an : Nat) (l : Lease) : (s.setLease an l).launches = s.launches := rfl
@[simp] theorem State.setLease_rotate (s : State) (an : Nat) (l : Lease) : (s.setLease an l).rotate = s.rotate := rfl
@[simp] theorem State.setLease_ranges (s : State) (an : Nat) (l : Lease) : (s.setLease an l).ranges = s.ranges := rfl
@[simp] theorem State.setLease_worlds (s : State) (an : Nat) (l : Lease) : (s.setLease an l).worlds = s.worlds := rfl
@[simp] theorem State.setLease_wtbase (s : State) (an : Nat) (l : Lease) : (s.setLease an l).wtbase = s.wtbase := rfl
@[simp] theorem State.setLease_migbase (s : State) (an : Nat) (l : Lease) : (s.setLease an l).migbase = s.migbase := rfl
@[simp] theorem State.setLease_images (s : State) (an : Nat) (l : Lease) : (s.setLease an l).images = s.images := rfl
@[simp] theorem State.setLease_spent (s : State) (an : Nat) (l : Lease) : (s.setLease an l).spent = s.spent := rfl
@[simp] theorem State.setLease_shadow (s : State) (an : Nat) (l : Lease) : (s.setLease an l).shadow = s.shadow := rfl
@[simp] theorem State.setLease_vfs (s : State) (an : Nat) (l : Lease) : (s.setLease an l).vfs = s.vfs := rfl
@[simp] theorem State.setLease_flows (s : State) (an : Nat) (l : Lease) : (s.setLease an l).flows = s.flows := rfl
@[simp] theorem State.setLease_flowMiss (s : State) (an : Nat) (l : Lease) : (s.setLease an l).flowMiss = s.flowMiss := rfl
@[simp] theorem State.setLease_links (s : State) (an : Nat) (l : Lease) : (s.setLease an l).links = s.links := rfl
@[simp] theorem State.setLease_peers (s : State) (an : Nat) (l : Lease) : (s.setLease an l).peers = s.peers := rfl
@[simp] theorem State.setLease_syncKeys (s : State) (an : Nat) (l : Lease) : (s.setLease an l).syncKeys = s.syncKeys := rfl
@[simp] theorem State.setLease_syncWords (s : State) (an : Nat) (l : Lease) : (s.setLease an l).syncWords = s.syncWords := rfl
@[simp] theorem State.setLease_sliceKeys (s : State) (an : Nat) (l : Lease) : (s.setLease an l).sliceKeys = s.sliceKeys := rfl
@[simp] theorem State.setLease_sec (s : State) (an : Nat) (l : Lease) : (s.setLease an l).sec = s.sec := rfl
@[simp] theorem State.setLease_boot (s : State) (an : Nat) (l : Lease) : (s.setLease an l).boot = s.boot := rfl
@[simp] theorem State.setLease_power (s : State) (an : Nat) (l : Lease) : (s.setLease an l).power = s.power := rfl
@[simp] theorem State.setLease_corrected (s : State) (an : Nat) (l : Lease) : (s.setLease an l).corrected = s.corrected := rfl
@[simp] theorem State.setLease_clock (s : State) (an : Nat) (l : Lease) : (s.setLease an l).clock = s.clock := rfl
@[simp] theorem State.setLease_now (s : State) (an : Nat) (l : Lease) : (s.setLease an l).now = s.now := rfl
@[simp] theorem State.setLease_traps (s : State) (an : Nat) (l : Lease) : (s.setLease an l).traps = s.traps := rfl
@[simp] theorem State.setLease_services (s : State) (an : Nat) (l : Lease) : (s.setLease an l).services = s.services := rfl

@[simp] theorem State.setBay_tick (s : State) (b : Nat) (x : Bay) : (s.setBay b x).tick = s.tick := rfl
@[simp] theorem State.setBay_sched (s : State) (b : Nat) (x : Bay) : (s.setBay b x).sched = s.sched := rfl
@[simp] theorem State.setBay_cur (s : State) (b : Nat) (x : Bay) : (s.setBay b x).cur = s.cur := rfl
@[simp] theorem State.setBay_out (s : State) (b : Nat) (x : Bay) : (s.setBay b x).out = s.out := rfl
@[simp] theorem State.setBay_nextId (s : State) (b : Nat) (x : Bay) : (s.setBay b x).nextId = s.nextId := rfl
@[simp] theorem State.setBay_streams (s : State) (b : Nat) (x : Bay) : (s.setBay b x).streams = s.streams := rfl
@[simp] theorem State.setBay_cores (s : State) (b : Nat) (x : Bay) : (s.setBay b x).cores = s.cores := rfl
@[simp] theorem State.setBay_rows (s : State) (b : Nat) (x : Bay) : (s.setBay b x).rows = s.rows := rfl
@[simp] theorem State.setBay_leases (s : State) (b : Nat) (x : Bay) : (s.setBay b x).leases = s.leases := rfl
@[simp] theorem State.setBay_revocations (s : State) (b : Nat) (x : Bay) : (s.setBay b x).revocations = s.revocations := rfl
@[simp] theorem State.setBay_recseq (s : State) (b : Nat) (x : Bay) : (s.setBay b x).recseq = s.recseq := rfl
@[simp] theorem State.setBay_records (s : State) (b : Nat) (x : Bay) : (s.setBay b x).records = s.records := rfl
@[simp] theorem State.setBay_journal (s : State) (b : Nat) (x : Bay) : (s.setBay b x).journal = s.journal := rfl
@[simp] theorem State.setBay_mem (s : State) (b : Nat) (x : Bay) : (s.setBay b x).mem = s.mem := rfl
@[simp] theorem State.setBay_memBad (s : State) (b : Nat) (x : Bay) : (s.setBay b x).memBad = s.memBad := rfl
@[simp] theorem State.setBay_memErr (s : State) (b : Nat) (x : Bay) : (s.setBay b x).memErr = s.memErr := rfl
@[simp] theorem State.setBay_stale (s : State) (b : Nat) (x : Bay) : (s.setBay b x).stale = s.stale := rfl
@[simp] theorem State.setBay_fresh (s : State) (b : Nat) (x : Bay) : (s.setBay b x).fresh = s.fresh := rfl
@[simp] theorem State.setBay_queue (s : State) (b : Nat) (x : Bay) : (s.setBay b x).queue = s.queue := rfl
@[simp] theorem State.setBay_atCore (s : State) (b : Nat) (x : Bay) : (s.setBay b x).atCore = s.atCore := rfl
@[simp] theorem State.setBay_atGrp (s : State) (b : Nat) (x : Bay) : (s.setBay b x).atGrp = s.atGrp := rfl
@[simp] theorem State.setBay_atDie (s : State) (b : Nat) (x : Bay) : (s.setBay b x).atDie = s.atDie := rfl
@[simp] theorem State.setBay_rels (s : State) (b : Nat) (x : Bay) : (s.setBay b x).rels = s.rels := rfl
@[simp] theorem State.setBay_pages (s : State) (b : Nat) (x : Bay) : (s.setBay b x).pages = s.pages := rfl
@[simp] theorem State.setBay_alloc (s : State) (b : Nat) (x : Bay) : (s.setBay b x).alloc = s.alloc := rfl
@[simp] theorem State.setBay_tlb (s : State) (b : Nat) (x : Bay) : (s.setBay b x).tlb = s.tlb := rfl
@[simp] theorem State.setBay_regions (s : State) (b : Nat) (x : Bay) : (s.setBay b x).regions = s.regions := rfl
@[simp] theorem State.setBay_gates (s : State) (b : Nat) (x : Bay) : (s.setBay b x).gates = s.gates := rfl
@[simp] theorem State.setBay_launches (s : State) (b : Nat) (x : Bay) : (s.setBay b x).launches = s.launches := rfl
@[simp] theorem State.setBay_rotate (s : State) (b : Nat) (x : Bay) : (s.setBay b x).rotate = s.rotate := rfl
@[simp] theorem State.setBay_ranges (s : State) (b : Nat) (x : Bay) : (s.setBay b x).ranges = s.ranges := rfl
@[simp] theorem State.setBay_worlds (s : State) (b : Nat) (x : Bay) : (s.setBay b x).worlds = s.worlds := rfl
@[simp] theorem State.setBay_wtbase (s : State) (b : Nat) (x : Bay) : (s.setBay b x).wtbase = s.wtbase := rfl
@[simp] theorem State.setBay_migbase (s : State) (b : Nat) (x : Bay) : (s.setBay b x).migbase = s.migbase := rfl
@[simp] theorem State.setBay_images (s : State) (b : Nat) (x : Bay) : (s.setBay b x).images = s.images := rfl
@[simp] theorem State.setBay_spent (s : State) (b : Nat) (x : Bay) : (s.setBay b x).spent = s.spent := rfl
@[simp] theorem State.setBay_shadow (s : State) (b : Nat) (x : Bay) : (s.setBay b x).shadow = s.shadow := rfl
@[simp] theorem State.setBay_vfs (s : State) (b : Nat) (x : Bay) : (s.setBay b x).vfs = s.vfs := rfl
@[simp] theorem State.setBay_flows (s : State) (b : Nat) (x : Bay) : (s.setBay b x).flows = s.flows := rfl
@[simp] theorem State.setBay_flowMiss (s : State) (b : Nat) (x : Bay) : (s.setBay b x).flowMiss = s.flowMiss := rfl
@[simp] theorem State.setBay_links (s : State) (b : Nat) (x : Bay) : (s.setBay b x).links = s.links := rfl
@[simp] theorem State.setBay_peers (s : State) (b : Nat) (x : Bay) : (s.setBay b x).peers = s.peers := rfl
@[simp] theorem State.setBay_syncKeys (s : State) (b : Nat) (x : Bay) : (s.setBay b x).syncKeys = s.syncKeys := rfl
@[simp] theorem State.setBay_syncWords (s : State) (b : Nat) (x : Bay) : (s.setBay b x).syncWords = s.syncWords := rfl
@[simp] theorem State.setBay_sliceKeys (s : State) (b : Nat) (x : Bay) : (s.setBay b x).sliceKeys = s.sliceKeys := rfl
@[simp] theorem State.setBay_sec (s : State) (b : Nat) (x : Bay) : (s.setBay b x).sec = s.sec := rfl
@[simp] theorem State.setBay_boot (s : State) (b : Nat) (x : Bay) : (s.setBay b x).boot = s.boot := rfl
@[simp] theorem State.setBay_power (s : State) (b : Nat) (x : Bay) : (s.setBay b x).power = s.power := rfl
@[simp] theorem State.setBay_corrected (s : State) (b : Nat) (x : Bay) : (s.setBay b x).corrected = s.corrected := rfl
@[simp] theorem State.setBay_clock (s : State) (b : Nat) (x : Bay) : (s.setBay b x).clock = s.clock := rfl
@[simp] theorem State.setBay_now (s : State) (b : Nat) (x : Bay) : (s.setBay b x).now = s.now := rfl
@[simp] theorem State.setBay_traps (s : State) (b : Nat) (x : Bay) : (s.setBay b x).traps = s.traps := rfl
@[simp] theorem State.setBay_services (s : State) (b : Nat) (x : Bay) : (s.setBay b x).services = s.services := rfl

@[simp] theorem State.setWorld_tick (s : State) (w : Nat) (x : World) : (s.setWorld w x).tick = s.tick := rfl
@[simp] theorem State.setWorld_sched (s : State) (w : Nat) (x : World) : (s.setWorld w x).sched = s.sched := rfl
@[simp] theorem State.setWorld_cur (s : State) (w : Nat) (x : World) : (s.setWorld w x).cur = s.cur := rfl
@[simp] theorem State.setWorld_out (s : State) (w : Nat) (x : World) : (s.setWorld w x).out = s.out := rfl
@[simp] theorem State.setWorld_nextId (s : State) (w : Nat) (x : World) : (s.setWorld w x).nextId = s.nextId := rfl
@[simp] theorem State.setWorld_streams (s : State) (w : Nat) (x : World) : (s.setWorld w x).streams = s.streams := rfl
@[simp] theorem State.setWorld_cores (s : State) (w : Nat) (x : World) : (s.setWorld w x).cores = s.cores := rfl
@[simp] theorem State.setWorld_rows (s : State) (w : Nat) (x : World) : (s.setWorld w x).rows = s.rows := rfl
@[simp] theorem State.setWorld_leases (s : State) (w : Nat) (x : World) : (s.setWorld w x).leases = s.leases := rfl
@[simp] theorem State.setWorld_bays (s : State) (w : Nat) (x : World) : (s.setWorld w x).bays = s.bays := rfl
@[simp] theorem State.setWorld_revocations (s : State) (w : Nat) (x : World) : (s.setWorld w x).revocations = s.revocations := rfl
@[simp] theorem State.setWorld_recseq (s : State) (w : Nat) (x : World) : (s.setWorld w x).recseq = s.recseq := rfl
@[simp] theorem State.setWorld_records (s : State) (w : Nat) (x : World) : (s.setWorld w x).records = s.records := rfl
@[simp] theorem State.setWorld_journal (s : State) (w : Nat) (x : World) : (s.setWorld w x).journal = s.journal := rfl
@[simp] theorem State.setWorld_mem (s : State) (w : Nat) (x : World) : (s.setWorld w x).mem = s.mem := rfl
@[simp] theorem State.setWorld_memBad (s : State) (w : Nat) (x : World) : (s.setWorld w x).memBad = s.memBad := rfl
@[simp] theorem State.setWorld_memErr (s : State) (w : Nat) (x : World) : (s.setWorld w x).memErr = s.memErr := rfl
@[simp] theorem State.setWorld_stale (s : State) (w : Nat) (x : World) : (s.setWorld w x).stale = s.stale := rfl
@[simp] theorem State.setWorld_fresh (s : State) (w : Nat) (x : World) : (s.setWorld w x).fresh = s.fresh := rfl
@[simp] theorem State.setWorld_queue (s : State) (w : Nat) (x : World) : (s.setWorld w x).queue = s.queue := rfl
@[simp] theorem State.setWorld_atCore (s : State) (w : Nat) (x : World) : (s.setWorld w x).atCore = s.atCore := rfl
@[simp] theorem State.setWorld_atGrp (s : State) (w : Nat) (x : World) : (s.setWorld w x).atGrp = s.atGrp := rfl
@[simp] theorem State.setWorld_atDie (s : State) (w : Nat) (x : World) : (s.setWorld w x).atDie = s.atDie := rfl
@[simp] theorem State.setWorld_rels (s : State) (w : Nat) (x : World) : (s.setWorld w x).rels = s.rels := rfl
@[simp] theorem State.setWorld_pages (s : State) (w : Nat) (x : World) : (s.setWorld w x).pages = s.pages := rfl
@[simp] theorem State.setWorld_alloc (s : State) (w : Nat) (x : World) : (s.setWorld w x).alloc = s.alloc := rfl
@[simp] theorem State.setWorld_tlb (s : State) (w : Nat) (x : World) : (s.setWorld w x).tlb = s.tlb := rfl
@[simp] theorem State.setWorld_regions (s : State) (w : Nat) (x : World) : (s.setWorld w x).regions = s.regions := rfl
@[simp] theorem State.setWorld_gates (s : State) (w : Nat) (x : World) : (s.setWorld w x).gates = s.gates := rfl
@[simp] theorem State.setWorld_launches (s : State) (w : Nat) (x : World) : (s.setWorld w x).launches = s.launches := rfl
@[simp] theorem State.setWorld_rotate (s : State) (w : Nat) (x : World) : (s.setWorld w x).rotate = s.rotate := rfl
@[simp] theorem State.setWorld_ranges (s : State) (w : Nat) (x : World) : (s.setWorld w x).ranges = s.ranges := rfl
@[simp] theorem State.setWorld_wtbase (s : State) (w : Nat) (x : World) : (s.setWorld w x).wtbase = s.wtbase := rfl
@[simp] theorem State.setWorld_migbase (s : State) (w : Nat) (x : World) : (s.setWorld w x).migbase = s.migbase := rfl
@[simp] theorem State.setWorld_images (s : State) (w : Nat) (x : World) : (s.setWorld w x).images = s.images := rfl
@[simp] theorem State.setWorld_spent (s : State) (w : Nat) (x : World) : (s.setWorld w x).spent = s.spent := rfl
@[simp] theorem State.setWorld_shadow (s : State) (w : Nat) (x : World) : (s.setWorld w x).shadow = s.shadow := rfl
@[simp] theorem State.setWorld_vfs (s : State) (w : Nat) (x : World) : (s.setWorld w x).vfs = s.vfs := rfl
@[simp] theorem State.setWorld_flows (s : State) (w : Nat) (x : World) : (s.setWorld w x).flows = s.flows := rfl
@[simp] theorem State.setWorld_flowMiss (s : State) (w : Nat) (x : World) : (s.setWorld w x).flowMiss = s.flowMiss := rfl
@[simp] theorem State.setWorld_links (s : State) (w : Nat) (x : World) : (s.setWorld w x).links = s.links := rfl
@[simp] theorem State.setWorld_peers (s : State) (w : Nat) (x : World) : (s.setWorld w x).peers = s.peers := rfl
@[simp] theorem State.setWorld_syncKeys (s : State) (w : Nat) (x : World) : (s.setWorld w x).syncKeys = s.syncKeys := rfl
@[simp] theorem State.setWorld_syncWords (s : State) (w : Nat) (x : World) : (s.setWorld w x).syncWords = s.syncWords := rfl
@[simp] theorem State.setWorld_sliceKeys (s : State) (w : Nat) (x : World) : (s.setWorld w x).sliceKeys = s.sliceKeys := rfl
@[simp] theorem State.setWorld_sec (s : State) (w : Nat) (x : World) : (s.setWorld w x).sec = s.sec := rfl
@[simp] theorem State.setWorld_boot (s : State) (w : Nat) (x : World) : (s.setWorld w x).boot = s.boot := rfl
@[simp] theorem State.setWorld_power (s : State) (w : Nat) (x : World) : (s.setWorld w x).power = s.power := rfl
@[simp] theorem State.setWorld_corrected (s : State) (w : Nat) (x : World) : (s.setWorld w x).corrected = s.corrected := rfl
@[simp] theorem State.setWorld_clock (s : State) (w : Nat) (x : World) : (s.setWorld w x).clock = s.clock := rfl
@[simp] theorem State.setWorld_now (s : State) (w : Nat) (x : World) : (s.setWorld w x).now = s.now := rfl
@[simp] theorem State.setWorld_traps (s : State) (w : Nat) (x : World) : (s.setWorld w x).traps = s.traps := rfl
@[simp] theorem State.setWorld_services (s : State) (w : Nat) (x : World) : (s.setWorld w x).services = s.services := rfl

@[simp] theorem State.setVf_tick (s : State) (n : Nat) (x : Vf) : (s.setVf n x).tick = s.tick := rfl
@[simp] theorem State.setVf_sched (s : State) (n : Nat) (x : Vf) : (s.setVf n x).sched = s.sched := rfl
@[simp] theorem State.setVf_cur (s : State) (n : Nat) (x : Vf) : (s.setVf n x).cur = s.cur := rfl
@[simp] theorem State.setVf_out (s : State) (n : Nat) (x : Vf) : (s.setVf n x).out = s.out := rfl
@[simp] theorem State.setVf_nextId (s : State) (n : Nat) (x : Vf) : (s.setVf n x).nextId = s.nextId := rfl
@[simp] theorem State.setVf_streams (s : State) (n : Nat) (x : Vf) : (s.setVf n x).streams = s.streams := rfl
@[simp] theorem State.setVf_cores (s : State) (n : Nat) (x : Vf) : (s.setVf n x).cores = s.cores := rfl
@[simp] theorem State.setVf_rows (s : State) (n : Nat) (x : Vf) : (s.setVf n x).rows = s.rows := rfl
@[simp] theorem State.setVf_leases (s : State) (n : Nat) (x : Vf) : (s.setVf n x).leases = s.leases := rfl
@[simp] theorem State.setVf_bays (s : State) (n : Nat) (x : Vf) : (s.setVf n x).bays = s.bays := rfl
@[simp] theorem State.setVf_revocations (s : State) (n : Nat) (x : Vf) : (s.setVf n x).revocations = s.revocations := rfl
@[simp] theorem State.setVf_recseq (s : State) (n : Nat) (x : Vf) : (s.setVf n x).recseq = s.recseq := rfl
@[simp] theorem State.setVf_records (s : State) (n : Nat) (x : Vf) : (s.setVf n x).records = s.records := rfl
@[simp] theorem State.setVf_journal (s : State) (n : Nat) (x : Vf) : (s.setVf n x).journal = s.journal := rfl
@[simp] theorem State.setVf_mem (s : State) (n : Nat) (x : Vf) : (s.setVf n x).mem = s.mem := rfl
@[simp] theorem State.setVf_memBad (s : State) (n : Nat) (x : Vf) : (s.setVf n x).memBad = s.memBad := rfl
@[simp] theorem State.setVf_memErr (s : State) (n : Nat) (x : Vf) : (s.setVf n x).memErr = s.memErr := rfl
@[simp] theorem State.setVf_stale (s : State) (n : Nat) (x : Vf) : (s.setVf n x).stale = s.stale := rfl
@[simp] theorem State.setVf_fresh (s : State) (n : Nat) (x : Vf) : (s.setVf n x).fresh = s.fresh := rfl
@[simp] theorem State.setVf_queue (s : State) (n : Nat) (x : Vf) : (s.setVf n x).queue = s.queue := rfl
@[simp] theorem State.setVf_atCore (s : State) (n : Nat) (x : Vf) : (s.setVf n x).atCore = s.atCore := rfl
@[simp] theorem State.setVf_atGrp (s : State) (n : Nat) (x : Vf) : (s.setVf n x).atGrp = s.atGrp := rfl
@[simp] theorem State.setVf_atDie (s : State) (n : Nat) (x : Vf) : (s.setVf n x).atDie = s.atDie := rfl
@[simp] theorem State.setVf_rels (s : State) (n : Nat) (x : Vf) : (s.setVf n x).rels = s.rels := rfl
@[simp] theorem State.setVf_pages (s : State) (n : Nat) (x : Vf) : (s.setVf n x).pages = s.pages := rfl
@[simp] theorem State.setVf_alloc (s : State) (n : Nat) (x : Vf) : (s.setVf n x).alloc = s.alloc := rfl
@[simp] theorem State.setVf_tlb (s : State) (n : Nat) (x : Vf) : (s.setVf n x).tlb = s.tlb := rfl
@[simp] theorem State.setVf_regions (s : State) (n : Nat) (x : Vf) : (s.setVf n x).regions = s.regions := rfl
@[simp] theorem State.setVf_gates (s : State) (n : Nat) (x : Vf) : (s.setVf n x).gates = s.gates := rfl
@[simp] theorem State.setVf_launches (s : State) (n : Nat) (x : Vf) : (s.setVf n x).launches = s.launches := rfl
@[simp] theorem State.setVf_rotate (s : State) (n : Nat) (x : Vf) : (s.setVf n x).rotate = s.rotate := rfl
@[simp] theorem State.setVf_ranges (s : State) (n : Nat) (x : Vf) : (s.setVf n x).ranges = s.ranges := rfl
@[simp] theorem State.setVf_worlds (s : State) (n : Nat) (x : Vf) : (s.setVf n x).worlds = s.worlds := rfl
@[simp] theorem State.setVf_wtbase (s : State) (n : Nat) (x : Vf) : (s.setVf n x).wtbase = s.wtbase := rfl
@[simp] theorem State.setVf_migbase (s : State) (n : Nat) (x : Vf) : (s.setVf n x).migbase = s.migbase := rfl
@[simp] theorem State.setVf_images (s : State) (n : Nat) (x : Vf) : (s.setVf n x).images = s.images := rfl
@[simp] theorem State.setVf_spent (s : State) (n : Nat) (x : Vf) : (s.setVf n x).spent = s.spent := rfl
@[simp] theorem State.setVf_shadow (s : State) (n : Nat) (x : Vf) : (s.setVf n x).shadow = s.shadow := rfl
@[simp] theorem State.setVf_flows (s : State) (n : Nat) (x : Vf) : (s.setVf n x).flows = s.flows := rfl
@[simp] theorem State.setVf_flowMiss (s : State) (n : Nat) (x : Vf) : (s.setVf n x).flowMiss = s.flowMiss := rfl
@[simp] theorem State.setVf_links (s : State) (n : Nat) (x : Vf) : (s.setVf n x).links = s.links := rfl
@[simp] theorem State.setVf_peers (s : State) (n : Nat) (x : Vf) : (s.setVf n x).peers = s.peers := rfl
@[simp] theorem State.setVf_syncKeys (s : State) (n : Nat) (x : Vf) : (s.setVf n x).syncKeys = s.syncKeys := rfl
@[simp] theorem State.setVf_syncWords (s : State) (n : Nat) (x : Vf) : (s.setVf n x).syncWords = s.syncWords := rfl
@[simp] theorem State.setVf_sliceKeys (s : State) (n : Nat) (x : Vf) : (s.setVf n x).sliceKeys = s.sliceKeys := rfl
@[simp] theorem State.setVf_sec (s : State) (n : Nat) (x : Vf) : (s.setVf n x).sec = s.sec := rfl
@[simp] theorem State.setVf_boot (s : State) (n : Nat) (x : Vf) : (s.setVf n x).boot = s.boot := rfl
@[simp] theorem State.setVf_power (s : State) (n : Nat) (x : Vf) : (s.setVf n x).power = s.power := rfl
@[simp] theorem State.setVf_corrected (s : State) (n : Nat) (x : Vf) : (s.setVf n x).corrected = s.corrected := rfl
@[simp] theorem State.setVf_clock (s : State) (n : Nat) (x : Vf) : (s.setVf n x).clock = s.clock := rfl
@[simp] theorem State.setVf_now (s : State) (n : Nat) (x : Vf) : (s.setVf n x).now = s.now := rfl
@[simp] theorem State.setVf_traps (s : State) (n : Nat) (x : Vf) : (s.setVf n x).traps = s.traps := rfl
@[simp] theorem State.setVf_services (s : State) (n : Nat) (x : Vf) : (s.setVf n x).services = s.services := rfl

@[simp] theorem State.setLink_tick (s : State) (n : Nat) (x : Link) : (s.setLink n x).tick = s.tick := rfl
@[simp] theorem State.setLink_sched (s : State) (n : Nat) (x : Link) : (s.setLink n x).sched = s.sched := rfl
@[simp] theorem State.setLink_cur (s : State) (n : Nat) (x : Link) : (s.setLink n x).cur = s.cur := rfl
@[simp] theorem State.setLink_out (s : State) (n : Nat) (x : Link) : (s.setLink n x).out = s.out := rfl
@[simp] theorem State.setLink_nextId (s : State) (n : Nat) (x : Link) : (s.setLink n x).nextId = s.nextId := rfl
@[simp] theorem State.setLink_streams (s : State) (n : Nat) (x : Link) : (s.setLink n x).streams = s.streams := rfl
@[simp] theorem State.setLink_cores (s : State) (n : Nat) (x : Link) : (s.setLink n x).cores = s.cores := rfl
@[simp] theorem State.setLink_rows (s : State) (n : Nat) (x : Link) : (s.setLink n x).rows = s.rows := rfl
@[simp] theorem State.setLink_leases (s : State) (n : Nat) (x : Link) : (s.setLink n x).leases = s.leases := rfl
@[simp] theorem State.setLink_bays (s : State) (n : Nat) (x : Link) : (s.setLink n x).bays = s.bays := rfl
@[simp] theorem State.setLink_revocations (s : State) (n : Nat) (x : Link) : (s.setLink n x).revocations = s.revocations := rfl
@[simp] theorem State.setLink_recseq (s : State) (n : Nat) (x : Link) : (s.setLink n x).recseq = s.recseq := rfl
@[simp] theorem State.setLink_records (s : State) (n : Nat) (x : Link) : (s.setLink n x).records = s.records := rfl
@[simp] theorem State.setLink_journal (s : State) (n : Nat) (x : Link) : (s.setLink n x).journal = s.journal := rfl
@[simp] theorem State.setLink_mem (s : State) (n : Nat) (x : Link) : (s.setLink n x).mem = s.mem := rfl
@[simp] theorem State.setLink_memBad (s : State) (n : Nat) (x : Link) : (s.setLink n x).memBad = s.memBad := rfl
@[simp] theorem State.setLink_memErr (s : State) (n : Nat) (x : Link) : (s.setLink n x).memErr = s.memErr := rfl
@[simp] theorem State.setLink_stale (s : State) (n : Nat) (x : Link) : (s.setLink n x).stale = s.stale := rfl
@[simp] theorem State.setLink_fresh (s : State) (n : Nat) (x : Link) : (s.setLink n x).fresh = s.fresh := rfl
@[simp] theorem State.setLink_queue (s : State) (n : Nat) (x : Link) : (s.setLink n x).queue = s.queue := rfl
@[simp] theorem State.setLink_atCore (s : State) (n : Nat) (x : Link) : (s.setLink n x).atCore = s.atCore := rfl
@[simp] theorem State.setLink_atGrp (s : State) (n : Nat) (x : Link) : (s.setLink n x).atGrp = s.atGrp := rfl
@[simp] theorem State.setLink_atDie (s : State) (n : Nat) (x : Link) : (s.setLink n x).atDie = s.atDie := rfl
@[simp] theorem State.setLink_rels (s : State) (n : Nat) (x : Link) : (s.setLink n x).rels = s.rels := rfl
@[simp] theorem State.setLink_pages (s : State) (n : Nat) (x : Link) : (s.setLink n x).pages = s.pages := rfl
@[simp] theorem State.setLink_alloc (s : State) (n : Nat) (x : Link) : (s.setLink n x).alloc = s.alloc := rfl
@[simp] theorem State.setLink_tlb (s : State) (n : Nat) (x : Link) : (s.setLink n x).tlb = s.tlb := rfl
@[simp] theorem State.setLink_regions (s : State) (n : Nat) (x : Link) : (s.setLink n x).regions = s.regions := rfl
@[simp] theorem State.setLink_gates (s : State) (n : Nat) (x : Link) : (s.setLink n x).gates = s.gates := rfl
@[simp] theorem State.setLink_launches (s : State) (n : Nat) (x : Link) : (s.setLink n x).launches = s.launches := rfl
@[simp] theorem State.setLink_rotate (s : State) (n : Nat) (x : Link) : (s.setLink n x).rotate = s.rotate := rfl
@[simp] theorem State.setLink_ranges (s : State) (n : Nat) (x : Link) : (s.setLink n x).ranges = s.ranges := rfl
@[simp] theorem State.setLink_worlds (s : State) (n : Nat) (x : Link) : (s.setLink n x).worlds = s.worlds := rfl
@[simp] theorem State.setLink_wtbase (s : State) (n : Nat) (x : Link) : (s.setLink n x).wtbase = s.wtbase := rfl
@[simp] theorem State.setLink_migbase (s : State) (n : Nat) (x : Link) : (s.setLink n x).migbase = s.migbase := rfl
@[simp] theorem State.setLink_images (s : State) (n : Nat) (x : Link) : (s.setLink n x).images = s.images := rfl
@[simp] theorem State.setLink_spent (s : State) (n : Nat) (x : Link) : (s.setLink n x).spent = s.spent := rfl
@[simp] theorem State.setLink_shadow (s : State) (n : Nat) (x : Link) : (s.setLink n x).shadow = s.shadow := rfl
@[simp] theorem State.setLink_vfs (s : State) (n : Nat) (x : Link) : (s.setLink n x).vfs = s.vfs := rfl
@[simp] theorem State.setLink_flows (s : State) (n : Nat) (x : Link) : (s.setLink n x).flows = s.flows := rfl
@[simp] theorem State.setLink_flowMiss (s : State) (n : Nat) (x : Link) : (s.setLink n x).flowMiss = s.flowMiss := rfl
@[simp] theorem State.setLink_peers (s : State) (n : Nat) (x : Link) : (s.setLink n x).peers = s.peers := rfl
@[simp] theorem State.setLink_syncKeys (s : State) (n : Nat) (x : Link) : (s.setLink n x).syncKeys = s.syncKeys := rfl
@[simp] theorem State.setLink_syncWords (s : State) (n : Nat) (x : Link) : (s.setLink n x).syncWords = s.syncWords := rfl
@[simp] theorem State.setLink_sliceKeys (s : State) (n : Nat) (x : Link) : (s.setLink n x).sliceKeys = s.sliceKeys := rfl
@[simp] theorem State.setLink_sec (s : State) (n : Nat) (x : Link) : (s.setLink n x).sec = s.sec := rfl
@[simp] theorem State.setLink_boot (s : State) (n : Nat) (x : Link) : (s.setLink n x).boot = s.boot := rfl
@[simp] theorem State.setLink_power (s : State) (n : Nat) (x : Link) : (s.setLink n x).power = s.power := rfl
@[simp] theorem State.setLink_corrected (s : State) (n : Nat) (x : Link) : (s.setLink n x).corrected = s.corrected := rfl
@[simp] theorem State.setLink_clock (s : State) (n : Nat) (x : Link) : (s.setLink n x).clock = s.clock := rfl
@[simp] theorem State.setLink_now (s : State) (n : Nat) (x : Link) : (s.setLink n x).now = s.now := rfl
@[simp] theorem State.setLink_traps (s : State) (n : Nat) (x : Link) : (s.setLink n x).traps = s.traps := rfl
@[simp] theorem State.setLink_services (s : State) (n : Nat) (x : Link) : (s.setLink n x).services = s.services := rfl

@[simp] theorem State.finish_tick (s : State) (o : LaneEnd) : (s.finish o).tick = s.tick := rfl
@[simp] theorem State.finish_sched (s : State) (o : LaneEnd) : (s.finish o).sched = s.sched := rfl
@[simp] theorem State.finish_cur (s : State) (o : LaneEnd) : (s.finish o).cur = s.cur := rfl
@[simp] theorem State.finish_nextId (s : State) (o : LaneEnd) : (s.finish o).nextId = s.nextId := rfl
@[simp] theorem State.finish_streams (s : State) (o : LaneEnd) : (s.finish o).streams = s.streams := rfl
@[simp] theorem State.finish_cores (s : State) (o : LaneEnd) : (s.finish o).cores = s.cores := rfl
@[simp] theorem State.finish_rows (s : State) (o : LaneEnd) : (s.finish o).rows = s.rows := rfl
@[simp] theorem State.finish_leases (s : State) (o : LaneEnd) : (s.finish o).leases = s.leases := rfl
@[simp] theorem State.finish_bays (s : State) (o : LaneEnd) : (s.finish o).bays = s.bays := rfl
@[simp] theorem State.finish_revocations (s : State) (o : LaneEnd) : (s.finish o).revocations = s.revocations := rfl
@[simp] theorem State.finish_recseq (s : State) (o : LaneEnd) : (s.finish o).recseq = s.recseq := rfl
@[simp] theorem State.finish_records (s : State) (o : LaneEnd) : (s.finish o).records = s.records := rfl
@[simp] theorem State.finish_journal (s : State) (o : LaneEnd) : (s.finish o).journal = s.journal := rfl
@[simp] theorem State.finish_mem (s : State) (o : LaneEnd) : (s.finish o).mem = s.mem := rfl
@[simp] theorem State.finish_memBad (s : State) (o : LaneEnd) : (s.finish o).memBad = s.memBad := rfl
@[simp] theorem State.finish_memErr (s : State) (o : LaneEnd) : (s.finish o).memErr = s.memErr := rfl
@[simp] theorem State.finish_stale (s : State) (o : LaneEnd) : (s.finish o).stale = s.stale := rfl
@[simp] theorem State.finish_fresh (s : State) (o : LaneEnd) : (s.finish o).fresh = s.fresh := rfl
@[simp] theorem State.finish_queue (s : State) (o : LaneEnd) : (s.finish o).queue = s.queue := rfl
@[simp] theorem State.finish_atCore (s : State) (o : LaneEnd) : (s.finish o).atCore = s.atCore := rfl
@[simp] theorem State.finish_atGrp (s : State) (o : LaneEnd) : (s.finish o).atGrp = s.atGrp := rfl
@[simp] theorem State.finish_atDie (s : State) (o : LaneEnd) : (s.finish o).atDie = s.atDie := rfl
@[simp] theorem State.finish_rels (s : State) (o : LaneEnd) : (s.finish o).rels = s.rels := rfl
@[simp] theorem State.finish_pages (s : State) (o : LaneEnd) : (s.finish o).pages = s.pages := rfl
@[simp] theorem State.finish_alloc (s : State) (o : LaneEnd) : (s.finish o).alloc = s.alloc := rfl
@[simp] theorem State.finish_tlb (s : State) (o : LaneEnd) : (s.finish o).tlb = s.tlb := rfl
@[simp] theorem State.finish_regions (s : State) (o : LaneEnd) : (s.finish o).regions = s.regions := rfl
@[simp] theorem State.finish_gates (s : State) (o : LaneEnd) : (s.finish o).gates = s.gates := rfl
@[simp] theorem State.finish_launches (s : State) (o : LaneEnd) : (s.finish o).launches = s.launches := rfl
@[simp] theorem State.finish_rotate (s : State) (o : LaneEnd) : (s.finish o).rotate = s.rotate := rfl
@[simp] theorem State.finish_ranges (s : State) (o : LaneEnd) : (s.finish o).ranges = s.ranges := rfl
@[simp] theorem State.finish_worlds (s : State) (o : LaneEnd) : (s.finish o).worlds = s.worlds := rfl
@[simp] theorem State.finish_wtbase (s : State) (o : LaneEnd) : (s.finish o).wtbase = s.wtbase := rfl
@[simp] theorem State.finish_migbase (s : State) (o : LaneEnd) : (s.finish o).migbase = s.migbase := rfl
@[simp] theorem State.finish_images (s : State) (o : LaneEnd) : (s.finish o).images = s.images := rfl
@[simp] theorem State.finish_spent (s : State) (o : LaneEnd) : (s.finish o).spent = s.spent := rfl
@[simp] theorem State.finish_shadow (s : State) (o : LaneEnd) : (s.finish o).shadow = s.shadow := rfl
@[simp] theorem State.finish_vfs (s : State) (o : LaneEnd) : (s.finish o).vfs = s.vfs := rfl
@[simp] theorem State.finish_flows (s : State) (o : LaneEnd) : (s.finish o).flows = s.flows := rfl
@[simp] theorem State.finish_flowMiss (s : State) (o : LaneEnd) : (s.finish o).flowMiss = s.flowMiss := rfl
@[simp] theorem State.finish_links (s : State) (o : LaneEnd) : (s.finish o).links = s.links := rfl
@[simp] theorem State.finish_peers (s : State) (o : LaneEnd) : (s.finish o).peers = s.peers := rfl
@[simp] theorem State.finish_syncKeys (s : State) (o : LaneEnd) : (s.finish o).syncKeys = s.syncKeys := rfl
@[simp] theorem State.finish_syncWords (s : State) (o : LaneEnd) : (s.finish o).syncWords = s.syncWords := rfl
@[simp] theorem State.finish_sliceKeys (s : State) (o : LaneEnd) : (s.finish o).sliceKeys = s.sliceKeys := rfl
@[simp] theorem State.finish_sec (s : State) (o : LaneEnd) : (s.finish o).sec = s.sec := rfl
@[simp] theorem State.finish_boot (s : State) (o : LaneEnd) : (s.finish o).boot = s.boot := rfl
@[simp] theorem State.finish_power (s : State) (o : LaneEnd) : (s.finish o).power = s.power := rfl
@[simp] theorem State.finish_corrected (s : State) (o : LaneEnd) : (s.finish o).corrected = s.corrected := rfl
@[simp] theorem State.finish_clock (s : State) (o : LaneEnd) : (s.finish o).clock = s.clock := rfl
@[simp] theorem State.finish_now (s : State) (o : LaneEnd) : (s.finish o).now = s.now := rfl
@[simp] theorem State.finish_traps (s : State) (o : LaneEnd) : (s.finish o).traps = s.traps := rfl
@[simp] theorem State.finish_services (s : State) (o : LaneEnd) : (s.finish o).services = s.services := rfl
@[simp] theorem State.finish_out (s : State) (o : LaneEnd) : (s.finish o).out = o := rfl

@[simp] theorem State.stream_finish (s : State) (o : LaneEnd) (j : Nat) : (s.finish o).stream j = s.stream j := rfl
@[simp] theorem State.core_finish (s : State) (o : LaneEnd) (j : Nat) : (s.finish o).core j = s.core j := rfl
@[simp] theorem State.lease_finish (s : State) (o : LaneEnd) (j : Nat) : (s.finish o).lease j = s.lease j := rfl
@[simp] theorem State.bay_finish (s : State) (o : LaneEnd) (j : Nat) : (s.finish o).bay j = s.bay j := rfl
@[simp] theorem State.world_finish (s : State) (o : LaneEnd) (j : Nat) : (s.finish o).world j = s.world j := rfl
@[simp] theorem State.vf_finish (s : State) (o : LaneEnd) (j : Nat) : (s.finish o).vf j = s.vf j := rfl
@[simp] theorem State.link_finish (s : State) (o : LaneEnd) (j : Nat) : (s.finish o).link j = s.link j := rfl

/-! ### Fields of a stream -/

@[simp] theorem Stream.setEng_run (st : Stream) (e : Engine) (x : EngState) : (st.setEng e x).run = st.run := rfl
@[simp] theorem Stream.setEng_wide (st : Stream) (e : Engine) (x : EngState) : (st.setEng e x).wide = st.wide := rfl
@[simp] theorem Stream.setEng_reserved (st : Stream) (e : Engine) (x : EngState) : (st.setEng e x).reserved = st.reserved := rfl
@[simp] theorem Stream.setEng_fwd (st : Stream) (e : Engine) (x : EngState) : (st.setEng e x).fwd = st.fwd := rfl
@[simp] theorem Stream.setEng_ident (st : Stream) (e : Engine) (x : EngState) : (st.setEng e x).ident = st.ident := rfl
@[simp] theorem Stream.setEng_s (st : Stream) (e : Engine) (x : EngState) : (st.setEng e x).s = st.s := rfl
@[simp] theorem Stream.setEng_p (st : Stream) (e : Engine) (x : EngState) : (st.setEng e x).p = st.p := rfl
@[simp] theorem Stream.setEng_spill (st : Stream) (e : Engine) (x : EngState) : (st.setEng e x).spill = st.spill := rfl
@[simp] theorem Stream.setEng_evt (st : Stream) (e : Engine) (x : EngState) : (st.setEng e x).evt = st.evt := rfl
@[simp] theorem Stream.setEng_lcid (st : Stream) (e : Engine) (x : EngState) : (st.setEng e x).lcid = st.lcid := rfl
@[simp] theorem Stream.setEng_win (st : Stream) (e : Engine) (x : EngState) : (st.setEng e x).win = st.win := rfl
@[simp] theorem Stream.setEng_winNow (st : Stream) (e : Engine) (x : EngState) : (st.setEng e x).winNow = st.winNow := rfl
@[simp] theorem Stream.setEng_stbase (st : Stream) (e : Engine) (x : EngState) : (st.setEng e x).stbase = st.stbase := rfl
@[simp] theorem Stream.setEng_stlim (st : Stream) (e : Engine) (x : EngState) : (st.setEng e x).stlim = st.stlim := rfl
@[simp] theorem Stream.setEng_wdog (st : Stream) (e : Engine) (x : EngState) : (st.setEng e x).wdog = st.wdog := rfl
@[simp] theorem Stream.setEng_progAt (st : Stream) (e : Engine) (x : EngState) : (st.setEng e x).progAt = st.progAt := rfl
@[simp] theorem Stream.setEng_fcode (st : Stream) (e : Engine) (x : EngState) : (st.setEng e x).fcode = st.fcode := rfl
@[simp] theorem Stream.setEng_faddr (st : Stream) (e : Engine) (x : EngState) : (st.setEng e x).faddr = st.faddr := rfl
@[simp] theorem Stream.setEng_fline (st : Stream) (e : Engine) (x : EngState) : (st.setEng e x).fline = st.fline := rfl
@[simp] theorem Stream.setEng_feng (st : Stream) (e : Engine) (x : EngState) : (st.setEng e x).feng = st.feng := rfl
@[simp] theorem Stream.setEng_tags (st : Stream) (e : Engine) (x : EngState) : (st.setEng e x).tags = st.tags := rfl
@[simp] theorem Stream.setEng_v (st : Stream) (e : Engine) (x : EngState) : (st.setEng e x).v = st.v := rfl
@[simp] theorem Stream.setEng_ovf (st : Stream) (e : Engine) (x : EngState) : (st.setEng e x).ovf = st.ovf := rfl
@[simp] theorem Stream.setEng_m (st : Stream) (e : Engine) (x : EngState) : (st.setEng e x).m = st.m := rfl
@[simp] theorem Stream.setEng_vty (st : Stream) (e : Engine) (x : EngState) : (st.setEng e x).vty = st.vty := rfl
@[simp] theorem Stream.setEng_rot (st : Stream) (e : Engine) (x : EngState) : (st.setEng e x).rot = st.rot := rfl
@[simp] theorem Stream.setEng_cond (st : Stream) (e : Engine) (x : EngState) : (st.setEng e x).cond = st.cond := rfl
@[simp] theorem Stream.setEng_e (st : Stream) (e : Engine) (x : EngState) : (st.setEng e x).e = st.e := rfl
@[simp] theorem Stream.setEng_tokens (st : Stream) (e : Engine) (x : EngState) : (st.setEng e x).tokens = st.tokens := rfl
@[simp] theorem Stream.setEng_scalars (st : Stream) (e : Engine) (x : EngState) : (st.setEng e x).scalars = st.scalars := rfl
@[simp] theorem Stream.setEng_fmtq (st : Stream) (e : Engine) (x : EngState) : (st.setEng e x).fmtq = st.fmtq := rfl
@[simp] theorem Stream.setEng_vq (st : Stream) (e : Engine) (x : EngState) : (st.setEng e x).vq = st.vq := rfl
@[simp] theorem Stream.setEng_blocks (st : Stream) (e : Engine) (x : EngState) : (st.setEng e x).blocks = st.blocks := rfl
@[simp] theorem Stream.setEng_fetch (st : Stream) (e : Engine) (x : EngState) : (st.setEng e x).fetch = st.fetch := rfl
@[simp] theorem Stream.setEng_wait (st : Stream) (e : Engine) (x : EngState) : (st.setEng e x).wait = st.wait := rfl
@[simp] theorem Stream.setEng_fault (st : Stream) (e : Engine) (x : EngState) : (st.setEng e x).fault = st.fault := rfl
@[simp] theorem Stream.setEng_faultEng (st : Stream) (e : Engine) (x : EngState) : (st.setEng e x).faultEng = st.faultEng := rfl
@[simp] theorem Stream.setEng_nestActive (st : Stream) (e : Engine) (x : EngState) : (st.setEng e x).nestActive = st.nestActive := rfl
@[simp] theorem Stream.setEng_nestShadow (st : Stream) (e : Engine) (x : EngState) : (st.setEng e x).nestShadow = st.nestShadow := rfl
@[simp] theorem Stream.setEng_cmds (st : Stream) (e : Engine) (x : EngState) : (st.setEng e x).cmds = st.cmds := rfl
@[simp] theorem Stream.setEng_awrites (st : Stream) (e : Engine) (x : EngState) : (st.setEng e x).awrites = st.awrites := rfl
@[simp] theorem Stream.setEng_trap (st : Stream) (e : Engine) (x : EngState) : (st.setEng e x).trap = st.trap := rfl
@[simp] theorem Stream.setEng_fres (st : Stream) (e : Engine) (x : EngState) : (st.setEng e x).fres = st.fres := rfl
@[simp] theorem Stream.setEng_made (st : Stream) (e : Engine) (x : EngState) : (st.setEng e x).made = st.made := rfl
@[simp] theorem Stream.setEng_fKnow (st : Stream) (e : Engine) (x : EngState) : (st.setEng e x).fKnow = st.fKnow := rfl
@[simp] theorem Stream.setEng_fTok (st : Stream) (e : Engine) (x : EngState) : (st.setEng e x).fTok = st.fTok := rfl
@[simp] theorem Stream.setEng_fRace (st : Stream) (e : Engine) (x : EngState) : (st.setEng e x).fRace = st.fRace := rfl
@[simp] theorem Stream.setEng_ports (st : Stream) (e : Engine) (x : EngState) : (st.setEng e x).ports = st.ports := rfl
@[simp] theorem Stream.setEng_subs (st : Stream) (e : Engine) (x : EngState) : (st.setEng e x).subs = st.subs := rfl
@[simp] theorem Stream.setEng_migrate (st : Stream) (e : Engine) (x : EngState) : (st.setEng e x).migrate = st.migrate := rfl
@[simp] theorem Stream.setEng_yielding (st : Stream) (e : Engine) (x : EngState) : (st.setEng e x).yielding = st.yielding := rfl
@[simp] theorem Stream.setEng_ctxsid (st : Stream) (e : Engine) (x : EngState) : (st.setEng e x).ctxsid = st.ctxsid := rfl
@[simp] theorem Stream.setEng_ctxaddr (st : Stream) (e : Engine) (x : EngState) : (st.setEng e x).ctxaddr = st.ctxaddr := rfl
@[simp] theorem Stream.setEng_ctxcmd (st : Stream) (e : Engine) (x : EngState) : (st.setEng e x).ctxcmd = st.ctxcmd := rfl
@[simp] theorem Stream.setEng_ctxNext (st : Stream) (e : Engine) (x : EngState) : (st.setEng e x).ctxNext = st.ctxNext := rfl
@[simp] theorem Stream.setEng_ctxDue (st : Stream) (e : Engine) (x : EngState) : (st.setEng e x).ctxDue = st.ctxDue := rfl
@[simp] theorem Stream.setEng_pswap (st : Stream) (e : Engine) (x : EngState) : (st.setEng e x).pswap = st.pswap := rfl
@[simp] theorem Stream.setEng_pswapDue (st : Stream) (e : Engine) (x : EngState) : (st.setEng e x).pswapDue = st.pswapDue := rfl
@[simp] theorem Stream.setEng_pgate (st : Stream) (e : Engine) (x : EngState) : (st.setEng e x).pgate = st.pgate := rfl
@[simp] theorem Stream.setEng_pgateDue (st : Stream) (e : Engine) (x : EngState) : (st.setEng e x).pgateDue = st.pgateDue := rfl
@[simp] theorem Stream.setEng_migst (st : Stream) (e : Engine) (x : EngState) : (st.setEng e x).migst = st.migst := rfl
@[simp] theorem Stream.setEng_range0 (st : Stream) (e : Engine) (x : EngState) : (st.setEng e x).range0 = st.range0 := rfl
@[simp] theorem Stream.setEng_seen (st : Stream) (e : Engine) (x : EngState) : (st.setEng e x).seen = st.seen := rfl
@[simp] theorem Stream.setEng_acqs (st : Stream) (e : Engine) (x : EngState) : (st.setEng e x).acqs = st.acqs := rfl
@[simp] theorem Stream.setEng_early (st : Stream) (e : Engine) (x : EngState) : (st.setEng e x).early = st.early := rfl
@[simp] theorem Stream.setEng_marks (st : Stream) (e : Engine) (x : EngState) : (st.setEng e x).marks = st.marks := rfl
@[simp] theorem Stream.setEng_lap (st : Stream) (e : Engine) (x : EngState) : (st.setEng e x).lap = st.lap := rfl

@[simp] theorem Stream.eng_setEng (st : Stream) (e : Engine) (x : EngState) : (st.setEng e x).eng' e = x := Tab.get_set_self _ _ _ _

/-- The codes of the engines differ. -/
theorem Engine.code_inj {a b : Engine} (h : a.code = b.code) : a = b := by cases a <;> cases b <;> simp_all [Engine.code]

theorem Stream.eng_setEng_ne (st : Stream) {e f : Engine} (x : EngState) (h : f ≠ e) : (st.setEng e x).eng' f = st.eng' f :=
  Tab.get_set_ne _ _ _ fun hc => h (Engine.code_inj hc)

/-! ### The issuing stream -/

@[simp] theorem State.me_setMe (s : State) (st : Stream) : (s.setMe st).me = st := Tab.get_set_self _ _ _ _
@[simp] theorem State.setMe_cur (s : State) (st : Stream) : (s.setMe st).cur = s.cur := rfl
@[simp] theorem State.setMe_mem (s : State) (st : Stream) : (s.setMe st).mem = s.mem := rfl
@[simp] theorem State.setMe_cores (s : State) (st : Stream) : (s.setMe st).cores = s.cores := rfl
@[simp] theorem State.me_finish (s : State) (o : LaneEnd) : (s.finish o).me = s.me := rfl

theorem State.stream_setMe_ne (s : State) (st : Stream) {k : Nat} (h : k ≠ s.cur.sid) : (s.setMe st).stream k = s.stream k := Tab.get_set_ne _ _ _ h

end Sys2Proof.Machine
end

