-- ==== Sys2Proof/Laws/Memory.lean ====
section
/-! SUPPORT. Every operation on memory keeps device memory and the contents of the arrays in canonical form. -/

namespace Sys2Proof.Machine

open Sys2Proof

/-- Device memory and the contents of the arrays are in canonical form. -/
def State.canon (s : State) : Prop := Memory.wf s.mem = true ∧ Memory.wf s.rows = true

theorem State.canon_reset : State.reset.canon := ⟨rfl, rfl⟩

/-- An operation that leaves both memories alone keeps the form. -/
theorem State.canon_of_eq {s t : State} (h : s.canon) (hm : t.mem = s.mem) (hr : t.rows = s.rows) : t.canon := by
  unfold State.canon
  rw [hm, hr]
  exact h

/-- A fold of steps that each keep the form keeps it. -/
theorem State.canon_foldl {α : Type} (f : State → α → State) (h : ∀ s x, s.canon → (f s x).canon) (l : List α) {s : State} (hs : s.canon) : (l.foldl f s).canon := by
  induction l generalizing s with
  | nil => exact hs
  | cons x l ih => exact ih (h s x hs)

/-- What holds of the state before and of each step of a fold holds after it. -/
theorem foldl_keeps {α β : Type} (P : β → Prop) (f : β → α → β) (h : ∀ s x, P s → P (f s x)) (l : List α) {s : β} (hs : P s) : P (l.foldl f s) := by
  induction l generalizing s with
  | nil => exact hs
  | cons x l ih => exact ih (h s x hs)

/-! ### The package's own writes (12 R278) -/

/-- A write over an image changes the images alone. -/
theorem State.tear_mem (s : State) (a n : Nat) : (s.tear a n).mem = s.mem ∧ (s.tear a n).rows = s.rows := by
  unfold State.tear
  split <;> exact ⟨rfl, rfl⟩

theorem State.canon_tear {s : State} (a n : Nat) (h : s.canon) : (s.tear a n).canon :=
  State.canon_of_eq h (State.tear_mem s a n).1 (State.tear_mem s a n).2

theorem State.canon_poke {s : State} (wid dva : Nat) (bs : List Byte) (h : s.canon) : (s.poke wid dva bs).canon := by
  induction bs generalizing s dva with
  | nil => exact h
  | cons b bs ih =>
    unfold State.poke
    apply ih
    split
    · exact State.canon_tear _ _ ⟨Memory.wf_write _ _ h.1, h.2⟩
    · exact h

theorem State.canon_setWtWord {s : State} (wid off v : Nat) (h : s.canon) : (s.setWtWord wid off v).canon := by
  unfold State.setWtWord
  split
  · exact ⟨Memory.wf_writeList _ _ h.1, h.2⟩
  · exact h

theorem State.canon_queueOverflow {s : State} (wid off : Nat) (h : s.canon) : (s.queueOverflow wid off).canon := State.canon_poke _ _ _ h

theorem State.canon_countDrop {s : State} (wid off party : Nat) (h : s.canon) : (s.countDrop wid off party).canon := by
  unfold State.countDrop
  split
  · exact h
  · exact State.canon_queueOverflow _ _ h

theorem State.canon_tryGranule {s : State} (dpa : Nat) (h : s.canon) : (s.tryGranule dpa).1.canon := by
  unfold State.tryGranule
  dsimp only
  repeat' split
  all_goals exact h

theorem State.canon_tryHeader {s : State} (wid off : Nat) (h : s.canon) : (s.tryHeader wid off).1.canon := by
  unfold State.tryHeader
  split
  · exact h
  · exact State.canon_tryGranule _ h

theorem State.canon_addErr {s : State} (wid party : Nat) (entry : List Byte) (h : s.canon) : (s.addErr wid party entry).canon := by
  unfold State.addErr
  dsimp only
  by_cases hb : (s.bufferFull wid 0x30 (s.world wid).errs.length && s.dropClear wid 0x30 party) = true
  · rw [if_pos hb]; exact State.canon_countDrop _ _ _ h
  · rw [if_neg hb]; exact State.canon_of_eq h rfl rfl

/-- An entry that may be the second one. -/
theorem State.canon_errIf {s : State} (c : Prop) [Decidable c] (wid party : Nat) (entry : List Byte) (h : s.canon) :
    (if c then s else s.addErr wid party entry).canon := by
  split
  · exact h
  · exact State.canon_addErr _ _ _ h

theorem State.canon_logError {s : State} (wid kind sid lap dva extra : Nat) (h : s.canon) : (s.logError wid kind sid lap dva extra).canon := by
  have ht := State.canon_tryHeader wid 0x30 h
  unfold State.logError
  generalize (s.bufferFull wid 0x30 (s.world wid).errs.length && !(s.dropCut wid 0x30 sid)) = b
  have hu : (if b = true then s.tryHeader wid 0x30 else (s, 0)).1.canon := by
    by_cases hb : b = true
    · rw [if_pos hb]; exact ht
    · rw [if_neg hb]; exact h
  generalize (if b = true then s.tryHeader wid 0x30 else (s, 0)) = u at hu ⊢
  exact State.canon_addErr _ _ _ (State.canon_errIf _ _ _ _ hu)

theorem State.canon_readHeader {s : State} (wid off party : Nat) (h : s.canon) : (s.readHeader wid off party).canon := by
  have ht := State.canon_tryHeader wid off h
  unfold State.readHeader
  generalize s.tryHeader wid off = r at ht ⊢
  dsimp only
  by_cases hk : r.2 = 0
  · rw [if_pos hk]; exact ht
  · rw [if_neg hk]; exact State.canon_logError _ _ _ _ _ _ ht

theorem State.canon_notifyWorld {s : State} (wid sid eng tag iter : Nat) (h : s.canon) : (s.notifyWorld wid sid eng tag iter).canon := by
  have ht := State.canon_readHeader wid 0x20 1023 h
  unfold State.notifyWorld
  dsimp only
  by_cases hb : (s.bufferFull wid 0x20 (s.world wid).notes.length && s.dropClear wid 0x20 sid) = true
  · rw [if_pos hb]
    by_cases hc : s.dropCut wid 0x20 sid = true
    · rw [if_pos hc]; exact h
    · rw [if_neg hc]; exact State.canon_queueOverflow _ _ ht
  · rw [if_neg hb]; exact State.canon_of_eq h rfl rfl

/-! ### Poison (06 R155, R156) -/

theorem State.canon_readGranule {s : State} (wid sid dva dpa : Nat) (zfill : Bool) (lap : Nat) (h : s.canon) : (s.readGranule wid sid dva dpa zfill lap).1.canon := by
  have ht := State.canon_tryGranule dpa h
  unfold State.readGranule
  generalize s.tryGranule dpa = r at ht ⊢
  dsimp only
  generalize (if r.2.1 && zfill then 3 else r.2.2) = k
  by_cases hk : k = 0
  · rw [if_pos hk]; exact ht
  · rw [if_neg hk]; exact State.canon_logError _ _ _ _ _ _ ht

theorem State.canon_writtenPoison {s : State} (l : Loc) (n : Nat) (h : s.canon) : (s.writtenPoison l n).canon := by
  cases l with
  | dram a =>
    exact State.canon_foldl _ (fun s i hs => by split <;> exact hs) _ h
  | sp c o => exact h
  | commit c r => exact h
  | peer p o => exact h

/-! ### Stores on their way (06 R147, R186; 08 R192) -/

theorem State.canon_setHome {s : State} (l : Loc) (data : List Byte) (h : s.canon) : (s.setHome l data).canon := by
  cases l with
  | dram a => exact State.canon_tear _ _ ⟨Memory.wf_writeList _ _ h.1, h.2⟩
  | sp c o => exact h
  | commit c r => exact h
  | peer p o => exact h

theorem State.canon_setMarks {s : State} (l : Loc) (n : Nat) (ms : List RelMark) (h : s.canon) : (s.setMarks l n ms).canon := by
  unfold State.setMarks
  repeat' split
  all_goals exact h

theorem State.canon_ringMark {s : State} (c r : Nat) (ms : List RelMark) (h : s.canon) : (s.ringMark c r ms).canon := by
  unfold State.ringMark
  split <;> exact h

/-- Bytes written at a place with the marks of a release. -/
theorem State.canon_put {s : State} (l : Loc) (data : List Byte) (ms : List RelMark) (h : s.canon) :
    (((s.setHome l data).writtenPoison l data.length).setMarks l data.length ms).canon :=
  State.canon_setMarks _ _ _ (State.canon_writtenPoison _ _ (State.canon_setHome _ _ h))

theorem State.canon_commit {s : State} (st : Store) (h : s.canon) : (s.commit st).canon := by
  unfold State.commit
  cases st.loc with
  | commit c r => exact State.canon_ringMark _ _ _ h
  | dram a => exact State.canon_put _ _ _ h
  | sp c o => exact State.canon_put _ _ _ h
  | peer p o => exact State.canon_put _ _ _ h

theorem State.canon_setAt {s : State} (lvl : Nat) (l : List Store) (h : s.canon) : (s.setAt lvl l).canon := by
  unfold State.setAt
  split <;> exact h

theorem State.canon_mapOwner {s : State} (sid : Nat) (f : Stream → Stream) (h : s.canon) : (s.mapOwner sid f).canon := by
  unfold State.mapOwner
  split <;> exact h

theorem State.canon_storeToken {s : State} (st : Store) (h : s.canon) : (s.storeToken st).canon := by
  unfold State.storeToken
  repeat' split
  all_goals first
    | exact State.canon_mapOwner _ _ h
    | exact h

theorem State.canon_arrive {s : State} (st : Store) (lvl : Nat) (h : s.canon) : (s.arrive st lvl).canon := by
  unfold State.arrive
  dsimp only
  have h1 := State.canon_storeToken st h
  have hp : ∀ {t : State} (k : Nat), t.canon → (t.progress k).canon := fun _ h => h
  repeat' split
  all_goals first
    | exact State.canon_commit _ (hp _ h1)
    | exact State.canon_setAt _ _ (hp _ h1)
    | exact State.canon_commit _ h1
    | exact State.canon_setAt _ _ h1
    | exact State.canon_commit _ (hp _ h)
    | exact State.canon_setAt _ _ (hp _ h)
    | exact State.canon_commit _ h
    | exact State.canon_setAt _ _ h

theorem State.canon_enterHandler {s : State} (sid line lane cause : Nat) (h : s.canon) : (s.enterHandler sid line lane cause).canon := by
  unfold State.enterHandler State.lockdown
  dsimp only
  repeat' split
  all_goals exact h

theorem State.canon_raise {s : State} (sid : Nat) (e : Engine) (line lane : Nat) (prog : Bool) (f : FaultInfo) (h : s.canon) : (s.raise sid e line lane prog f).canon := by
  unfold State.raise
  split
  · exact State.canon_enterHandler _ _ _ _ h
  · split <;> exact h

theorem State.canon_editStore {s : State} (id : Nat) (f : Store → Store) (h : s.canon) : (s.editStore id f).canon :=
  State.canon_foldl _ (fun _ _ hs => State.canon_setAt _ _ hs) _ h

theorem State.canon_refuse {s : State} (st : Store) (h : s.canon) : (s.refuse st).canon := by
  have he := State.canon_editStore st.id (fun x => { x with refused := true }) h
  unfold State.refuse
  exact State.canon_of_eq he rfl rfl

theorem State.canon_moveStore {s : State} (lvl : Nat) (st : Store) (h : s.canon) : (s.moveStore lvl st).canon := by
  unfold State.moveStore
  repeat' split
  · exact State.canon_setAt _ _ h
  · exact State.canon_raise _ _ _ _ _ _ (State.canon_refuse _ h)
  · exact State.canon_arrive _ _ (State.canon_setAt _ _ h)
  · exact h

theorem State.canon_moveNth {s : State} (k : Nat) (h : s.canon) : (s.moveNth k).canon := by
  unfold State.moveNth
  split
  · exact State.canon_moveStore _ _ h
  · exact h

theorem State.canon_flush (ids : List Nat) (lvl fuel : Nat) {s : State} (h : s.canon) : (s.flush ids lvl fuel).canon := by
  induction fuel generalizing ids lvl s with
  | zero => exact h
  | succ fuel ih =>
    unfold State.flush
    refine State.canon_foldl _ (fun s i hs => ?_) _ ?_
    · refine State.canon_foldl _ (fun s st hs => ?_) _ hs
      split
      · exact State.canon_moveStore _ _ hs
      · exact hs
    · split
      · exact h
      · refine State.canon_foldl _ (fun s st hs => ?_) _ h
        split
        · refine State.canon_moveStore _ _ ?_
          split
          · exact ih _ _ (ih _ _ hs)
          · exact hs
        · exact hs

theorem State.canon_release {s : State} (sid : Nat) (x : Scope) (h : s.canon) : (s.release sid x).1.canon := by
  unfold State.release
  dsimp only
  split
  · exact h
  · exact State.canon_flush _ _ _ h

theorem State.canon_drain {s : State} (sid : Nat) (h : s.canon) : (s.drain sid).1.canon := by
  unfold State.drain
  dsimp only
  split
  · exact h
  · exact State.canon_flush _ _ _ h

theorem State.canon_settle {s : State} (sid : Nat) (l : Loc) (n : Nat) (h : s.canon) : (s.settle sid l n).canon := by
  unfold State.settle
  split
  · exact h
  · exact State.canon_flush _ _ _ h

theorem State.canon_observe {s : State} (sid : Nat) (ids : List Nat) (h : s.canon) : (s.observe sid ids).canon := by
  unfold State.observe
  split <;> exact h

theorem State.canon_dropEarly {s : State} (sid : Nat) (h : s.canon) : (s.dropEarly sid).canon := by
  unfold State.dropEarly
  split <;> exact h

theorem State.canon_acquire {s : State} (sid : Nat) (sc : Scope) (marks : List RelMark) (h : s.canon) : (s.acquire sid sc marks).canon := by
  unfold State.acquire
  dsimp only
  split
  · exact h
  · exact State.canon_dropEarly _ (State.canon_observe _ _ h)

theorem State.canon_meet {s : State} (sid : Nat) (e : Engine) (ids : List Nat) (marks : List RelMark) (acq : Option Scope) (h : s.canon) :
    (s.meet sid e ids marks acq).canon := by
  have ho := State.canon_observe sid ids h
  unfold State.meet
  cases acq with
  | some sc =>
    have ha := State.canon_acquire sid sc marks ho
    dsimp only
    split
    · exact ha
    · exact ha
  | none => dsimp only; split <;> exact ho

theorem State.canon_load {s : State} (sid : Nat) (e : Engine) (dva : Nat) (t : Target) (n : Nat) (acq : Option Scope) (h : s.canon) :
    (s.load sid e dva t n acq).state.canon := by
  cases t with
  | dram a p =>
    have hg := State.canon_readGranule (s.widOf sid) (partyOf sid) dva a p.zfill 0 h
    simp only [State.load]
    split
    · exact hg
    · exact State.canon_meet _ _ _ _ _ hg
  | sp c o => exact State.canon_meet _ _ _ _ _ h
  | ring c r w sub => exact State.canon_meet _ _ _ _ _ h
  | peer p o => exact h

theorem State.canon_enqueue {s : State} (dva : Nat) (t : Target) (data : List Byte) (rel : Option Scope) (need : List Nat) (h : s.canon) :
    (s.enqueue dva t data rel need).canon := h

theorem State.canon_writeHome {s : State} (sid : Nat) (l : Loc) (data : List Byte) (ms : List RelMark) (h : s.canon) : (s.writeHome sid l data ms).canon := by
  have hs := State.canon_settle sid l data.length h
  unfold State.writeHome
  dsimp only
  split
  · exact hs
  · cases l with
    | commit c r => exact State.canon_ringMark _ _ _ hs
    | dram a => exact State.canon_put _ _ _ hs
    | sp c o => exact State.canon_put _ _ _ hs
    | peer p o => exact State.canon_put _ _ _ hs

theorem State.canon_settledHome {s : State} (sid : Nat) (l : Loc) (n : Nat) (h : s.canon) : (s.settledHome sid l n).1.canon := State.canon_settle _ _ _ h

theorem State.canon_settled {s : State} (sid : Nat) (l : Loc) (n : Nat) (h : s.canon) : (s.settled sid l n).1.canon := State.canon_settle _ _ _ h

theorem State.canon_spanSettled {s : State} (sid wid dva n : Nat) (h : s.canon) : (s.spanSettled sid wid dva n).1.canon := by
  refine foldl_keeps (fun r : State × Bool => r.1.canon) _ (fun r q hr => ?_) _ h
  split
  · exact State.canon_settledHome _ _ _ hr
  · exact hr

theorem State.canon_writeSpan {s : State} (sid wid dva : Nat) (data : List Byte) (ms : List RelMark) (h : s.canon) : (s.writeSpan sid wid dva data ms).canon := by
  refine State.canon_foldl _ (fun s q hs => ?_) _ h
  split
  · split
    · exact hs
    · exact State.canon_writeHome _ _ _ _ hs
  · exact hs

theorem State.canon_written {s : State} (wid dva n : Nat) (h : s.canon) : (s.written wid dva n).canon := by
  refine State.canon_foldl _ (fun s q hs => ?_) _ h
  split
  · refine State.canon_setMarks _ _ _ ?_
    split <;> exact hs
  · exact hs

theorem State.canon_queueAppend {s : State} (wid off : Nat) (entry : List Byte) (party : Nat) (h : s.canon) : (s.queueAppend wid off entry party).canon := by
  have hr := State.canon_readHeader wid off party h
  unfold State.queueAppend
  generalize s.readHeader wid off party = u at hr ⊢
  have hp := State.canon_poke wid (u.queueBase wid off) (word8 (u.queueTail wid off + 1))
    (State.canon_written wid (u.queueSlot wid off entry.length) entry.length (State.canon_poke wid (u.queueSlot wid off entry.length) entry hr))
  dsimp only
  split
  · exact State.canon_setMarks _ _ _ hp
  · exact hp

/-- Stores change hands without a change of memory. -/
theorem State.canon_renameStores {s : State} (a b : Nat) (h : s.canon) : (s.renameStores a b).canon := by
  unfold State.renameStores
  split <;> exact h

/-! ### What a store leaves -/

/-- Bytes written at a place of device memory read back, and every other byte stays. -/
theorem State.read_setHome_in (s : State) (a : Nat) (data : List Byte) {i : Nat} (h : i < data.length) :
    Memory.read (s.setHome (.dram a) data).mem (a + i) = data.getD i 0 := by
  rw [show (s.setHome (.dram a) data).mem = s.mem.writeList a data from (State.tear_mem _ _ _).1]
  exact Memory.read_writeList_in _ _ _ h

theorem State.read_setHome_out (s : State) (a : Nat) (data : List Byte) {c : Nat} (h : c < a ∨ a + data.length ≤ c) :
    Memory.read (s.setHome (.dram a) data).mem c = Memory.read s.mem c := by
  rw [show (s.setHome (.dram a) data).mem = s.mem.writeList a data from (State.tear_mem _ _ _).1]
  exact Memory.read_writeList_out _ _ _ h

/-- Poison's bookkeeping touches no byte. -/
theorem State.mem_writtenPoison (s : State) (l : Loc) (n : Nat) : (s.writtenPoison l n).mem = s.mem ∧ (s.writtenPoison l n).streams = s.streams ∧
    (s.writtenPoison l n).rows = s.rows := by
  cases l with
  | dram a =>
    exact foldl_keeps (fun t : State => t.mem = s.mem ∧ t.streams = s.streams ∧ t.rows = s.rows) _ (fun t i ht => by split <;> exact ht) _ ⟨rfl, rfl, rfl⟩
  | sp c o => exact ⟨rfl, rfl, rfl⟩
  | commit c r => exact ⟨rfl, rfl, rfl⟩
  | peer p o => exact ⟨rfl, rfl, rfl⟩

/-- With no store on its way there is nothing to settle. -/
theorem State.settle_of_empty {s : State} (sid : Nat) (l : Loc) (n : Nat) (h : s.queue = [] ∧ s.atCore = [] ∧ s.atGrp = [] ∧ s.atDie = []) : s.settle sid l n = s := by
  unfold State.settle
  rw [h.1, h.2.1, h.2.2.1, h.2.2.2]
  rfl

/-- No image keeps a store of a stream where none keeps any. -/
theorem State.guests_of_none {s : State} (sid : Nat) (h : s.imageStores = []) : s.guests sid = [] := by
  have hq : ∀ i ∈ s.saved, i.queue = [] := fun i hi => List.flatMap_eq_nil_iff.1 h i hi
  refine List.flatMap_eq_nil_iff.2 fun i hi => ?_
  rw [hq i hi]
  simp

/-- A stream with nothing in the store queue, and nothing in the image of another, has drained it. -/
theorem State.drain_of_empty {s : State} (sid : Nat) (h : s.queue = []) (hi : s.imageStores = []) : s.drain sid = (s, true) := by
  unfold State.drain
  rw [h, State.guests_of_none sid hi]
  rfl

/-- With no store on its way a release is complete. -/
theorem State.release_of_empty {s : State} (sid : Nat) (x : Scope) (h : s.allStores = []) (hi : s.imageStores = []) : s.release sid x = (s, true) := by
  have hp : s.pendingIds = [] := by
    unfold State.pendingIds
    rw [h, hi]
    rfl
  have hc : s.cumulative sid = [] := by
    unfold State.cumulative
    rw [h, State.guests_of_none sid hi, hp]
    simp
  unfold State.release
  rw [hc]
  rfl

/-- With every link idle a transfer crosses at once. -/
theorem State.link_of_idle {s : State} (h : ∀ p ∈ s.links, p.2.fails = 0 ∧ p.2.flush = []) (k : Nat) : (s.link k).fails = 0 ∧ (s.link k).flush = [] := by
  unfold State.link
  exact Tab.get_of_forall (fun l : Link => l.fails = 0 ∧ l.flush = []) ⟨rfl, rfl⟩ h k

theorem State.clearTo_of_idle {s : State} (h : ∀ p ∈ s.links, p.2.fails = 0 ∧ p.2.flush = []) (core : Nat) (l : Loc) : s.clearTo core l = true := by
  unfold State.clearTo State.linkClear
  rw [Bool.or_eq_true]
  exact .inr (List.all_eq_true.2 fun k _ => by rw [(State.link_of_idle h k).1]; rfl)

theorem State.cutOff_of_idle {s : State} (h : ∀ p ∈ s.links, p.2.fails = 0 ∧ p.2.flush = []) (wid core : Nat) (l : Loc) : s.cutOff wid core l = false := by
  unfold State.cutOff
  rw [Bool.and_eq_false_iff]
  exact .inr (List.any_eq_false.2 fun k _ => by rw [(State.link_of_idle h k).2]; simp)

/-- With the links idle no read is kept from its reader. -/
theorem State.readClear_of_idle {s : State} (h : ∀ p ∈ s.links, p.2.fails = 0 ∧ p.2.flush = []) (wid core : Nat) (l : Loc) : s.readClear wid core l = true := by
  unfold State.readClear
  rw [State.clearTo_of_idle h, State.cutOff_of_idle h]
  rfl

theorem State.onPath_of_empty {s : State} (core : Nat) (l : Loc) (n : Nat) (h : s.queue = [] ∧ s.atCore = [] ∧ s.atGrp = [] ∧ s.atDie = []) :
    s.onPath core l n = [] := by
  unfold State.onPath
  rw [h.2.1, h.2.2.1, h.2.2.2]
  rfl

/-- With no store on its way and the links idle a write can be made at once. -/
theorem State.settledHome_of_empty {s : State} (sid : Nat) (l : Loc) (n : Nat) (h : s.queue = [] ∧ s.atCore = [] ∧ s.atGrp = [] ∧ s.atDie = [])
    (hl : ∀ p ∈ s.links, p.2.fails = 0 ∧ p.2.flush = []) : s.settledHome sid l n = (s, true) := by
  unfold State.settledHome
  rw [State.settle_of_empty sid l n h]
  dsimp only
  rw [State.clearTo_of_idle hl, State.onPath_of_empty _ _ _ h]
  rfl

end Sys2Proof.Machine
end

