-- ==== Sys2Proof/Laws/Ops.lean ====
section
/-! SUPPORT. What the shared operations can do: register writes, tokens, taking a fault, and one step. -/

namespace Sys2Proof.Machine

open Sys2Proof

/-! ### Register writes (04 R98, 16 R390) -/

/-- A write of S[d] changes S[d] alone, and nothing where d is s0. -/
theorem onlyS_setS (s : State) (d : SReg) (v : Word) : OnlyS d s (s.setS d v) ∧ (s.setS d v).getS d = if d = 0 then 0 else v := by
  unfold State.setS
  by_cases hd : d = 0
  · subst hd; simp [OnlyS, OnlyMe, State.getS]
  · simp only [hd, if_false]
    refine ⟨⟨⟨rfl, fun k hk => State.stream_setMe_ne s _ hk⟩, by rw [State.me_setMe], fun r hr => ?_⟩, by simp [State.getS, hd]⟩
    by_cases h0 : r = 0
    · simp [State.getS, h0]
    · simp only [State.getS, h0, if_false, State.me_setMe]
      exact Tab.get_set_ne _ _ _ fun h => hr (Fin.ext h)

theorem resultS_of {i : Instr} {s : State} {d : SReg} {v : Word} (h : exec i s = .next (s.setS d v)) : ResultS i s d v :=
  ⟨_, h, (onlyS_setS s d v).2, (onlyS_setS s d v).1⟩

/-- A write of P[d] changes P[d] alone, and nothing where d is p0. -/
theorem onlyP_setP (s : State) (d : PReg) (v : Bool) : OnlyP d s (s.setP d v) ∧ (s.setP d v).getP d = (d == 0 || v) := by
  unfold State.setP
  by_cases hd : d = 0
  · subst hd; simp [OnlyP, OnlyMe, State.getP]
  · simp only [hd, if_false]
    refine ⟨⟨⟨rfl, fun k hk => State.stream_setMe_ne s _ hk⟩, by simp, fun r hr => ?_⟩, by simp [State.getP, hd]⟩
    by_cases h0 : r = 0
    · simp [State.getP, h0]
    · simp only [State.getP, State.me_setMe]
      rw [Tab.get_set_ne _ _ _ fun h => hr (Fin.ext h)]

theorem resultP_of {i : Instr} {s : State} {d : PReg} {v : Bool} (h : exec i s = .next (s.setP d v)) : ResultP i s d v :=
  ⟨_, h, (onlyP_setP s d v).2, (onlyP_setP s d v).1⟩

/-- A write of E[x][d] changes E[x][d] alone. -/
theorem onlyE_setE (s : State) (x : Engine) (d : EReg) (v : Word) : OnlyE x d s (s.setE x d v) ∧ (s.setE x d v).getE x d = v := by
  refine ⟨⟨⟨rfl, fun k hk => State.stream_setMe_ne s _ hk⟩, by simp [State.setE], fun y r h => ?_⟩, by simp [State.setE, State.getE]⟩
  simp only [State.getE, State.setE, State.me_setMe]
  by_cases hx : y = x
  · subst hx
    rw [Tab.get_set_self, Tab.get_set_ne]
    exact fun hr => h.elim (fun h => h rfl) fun h => h (Fin.ext hr)
  · rw [Tab.get_set_ne]
    exact fun hc => hx (Engine.code_inj hc)

/-- A write of M[d] changes M[d] alone, and nothing where d is m0. -/
theorem State.getM_setM (s : State) (d : MReg) (x : VMask) (r : MReg) :
    (s.setM d x).getM r = if r = d ∧ d ≠ 0 then x else s.getM r := by
  unfold State.setM
  by_cases hd : d = 0
  · simp [hd]
  · simp only [hd, if_false]
    by_cases hr : r = d
    · subst hr; simp [State.getM, hd]
    · have hv : r.val ≠ d.val := fun h => hr (Fin.ext h)
      simp only [State.getM, State.me_setMe, hr, false_and, if_false, Tab.get_set_ne _ _ _ hv]

/-! ### Tokens (03 R62, R63) -/

theorem tokenKey_inj {a b c d : Engine} (h : tokenKey a b = tokenKey c d) : a = c ∧ b = d := by
  revert h
  cases a <;> cases b <;> cases c <;> cases d <;> decide

/-- A push happens only where there is room, adds the token at the end of its FIFO, and leaves every other FIFO. -/
theorem Stream.push_spec {st t : Stream} {src dst : Engine} {v : Bool} (h : st.push src dst v = some t) :
    (st.fifo src dst).length < Config.tokenDepth ∧ t.fifo src dst = st.fifo src dst ++ [v] ∧
    (∀ a b, (a ≠ src ∨ b ≠ dst) → t.fifo a b = st.fifo a b) ∧ t = { st with tokens := t.tokens, fTok := t.fTok } := by
  unfold Stream.push at h
  split at h
  · next hl =>
    cases h
    refine ⟨hl, Tab.get_set_self _ _ _ _, fun a b hab => Tab.get_set_ne _ _ _ fun hk => ?_, rfl⟩
    obtain ⟨ha, hb⟩ := tokenKey_inj hk
    exact hab.elim (fun h => h ha) fun h => h hb
  · cases h

/-- A full FIFO refuses a push. -/
theorem Stream.push_full {st : Stream} {src dst : Engine} {v : Bool} (h : Config.tokenDepth ≤ (st.fifo src dst).length) : st.push src dst v = none := by
  unfold Stream.push
  rw [if_neg (Nat.not_lt.2 h)]

/-- A pop takes the oldest token of its FIFO and leaves every other FIFO; an empty one gives nothing. -/
theorem Stream.pop_spec {st t : Stream} {src dst : Engine} {v : Bool} (h : st.pop src dst = some (v, t)) :
    st.fifo src dst = v :: t.fifo src dst ∧ (∀ a b, (a ≠ src ∨ b ≠ dst) → t.fifo a b = st.fifo a b) ∧
    t = { st with tokens := t.tokens, fTok := t.fTok, fKnow := t.fKnow, early := t.early } := by
  unfold Stream.pop at h
  split at h
  · cases h
  · next x r hf =>
    cases h
    refine ⟨by rw [hf]; exact congrArg (v :: ·) (Tab.get_set_self _ _ _ _).symm, fun a b hab => Tab.get_set_ne _ _ _ fun hk => ?_, rfl⟩
    obtain ⟨ha, hb⟩ := tokenKey_inj hk
    exact hab.elim (fun h => h ha) fun h => h hb

theorem Stream.pop_empty {st : Stream} {src dst : Engine} (h : st.fifo src dst = []) : st.pop src dst = none := by
  unfold Stream.pop
  rw [h]

/-! ### Taking a fault (09 R211, R214, R225) -/

/-- A stream that is already suspended keeps its one fault (R214). -/
theorem State.raise_suspended {s : State} {sid : Nat} (hs : isService sid = false) (h : (s.stream sid).run = .suspended)
    (e : Engine) (line lane : Nat) (prog : Bool) (f : FaultInfo) : s.raise sid e line lane prog f = s := by
  unfold State.raise
  simp [hs, h]

/-- On a service core a fault enters the handler (R225). -/
theorem State.raise_service {s : State} {sid : Nat} (hs : isService sid = true) (e : Engine) (line lane : Nat) (prog : Bool) (f : FaultInfo) :
    s.raise sid e line lane prog f = s.enterHandler sid line lane f.code := by
  unfold State.raise
  simp [hs]

/-- Entering the lockdown changes the security core alone. -/
theorem State.lockdown_only (s : State) (cause detail : Nat) : s.lockdown cause detail = { s with sec := (s.lockdown cause detail).sec } := by
  unfold State.lockdown
  split <;> rfl

/-- Entering the handler changes one core, one stream and the security core (R225). -/
theorem State.enterHandler_only (s : State) (sid line lane cause : Nat) :
    s.enterHandler sid line lane cause = { s with streams := (s.enterHandler sid line lane cause).streams, cores := (s.enterHandler sid line lane cause).cores,
                                                  sec := (s.enterHandler sid line lane cause).sec } := by
  unfold State.enterHandler
  dsimp only
  split
  · rfl
  · rw [State.lockdown_only]; rfl

/-- Taking a fault changes streams, cores, worlds and the security core, and no memory (R211, R213). -/
theorem State.raise_only (s : State) (sid : Nat) (e : Engine) (line lane : Nat) (prog : Bool) (f : FaultInfo) :
    s.raise sid e line lane prog f = { s with streams := (s.raise sid e line lane prog f).streams, cores := (s.raise sid e line lane prog f).cores,
                                              worlds := (s.raise sid e line lane prog f).worlds, sec := (s.raise sid e line lane prog f).sec } := by
  unfold State.raise
  split
  · rw [State.enterHandler_only]
  · split <;> rfl

/-- A faulting lane leaves device memory, the arrays, leases, bays, pages, gates, regions, launches and S stores as they were. -/
theorem State.fault_only (s : State) (f : FaultInfo) :
    s.fault f = { s with streams := (s.fault f).streams, cores := (s.fault f).cores, worlds := (s.fault f).worlds, sec := (s.fault f).sec, out := .faulted } := by
  have h : s.returnToken = { s with streams := s.returnToken.streams } := by
    unfold State.returnToken
    dsimp only
    split <;> rfl
  unfold State.fault
  rw [State.raise_only]
  rw [h]
  rfl

/-! ### One step -/

/-- A step is its turn, and then time passes. -/
theorem step_eq (s : State) : step s = (match s.takeTurn.2.takes exec s.takeTurn.1 with
    | .next t => .next t.pass
    | .fault r => .fault r
    | .refused r => .refused r) := rfl

/-- A turn of another unit runs that unit's instruction. -/
theorem takes_event {s : State} {i : Instr} (h : i.engine = none) : s.takes exec (.event i) = exec i s := by
  simp [State.takes, h]

/-- The passing of time changes the clocks, the tick and the TLBs alone. -/
theorem State.pass_only (s : State) : s.pass = { s with tick := s.pass.tick, now := s.pass.now, clock := s.pass.clock, tlb := s.pass.tlb } := rfl

end Sys2Proof.Machine
end

