-- ==== Sys2Proof/Tests/Slice0.lean ====
section
/-! SUPPORT. Tests: terms the well-formedness check refuses, words written out from the encoding tables of the spec, single
steps on small states, and for every statement a state and operands that meet its hypotheses. -/

namespace Sys2Proof.Tests

set_option Elab.async false

open Sys2Proof Sys2Proof.Machine

/-! ### Small states -/

/-- An engine at the line at DVA 4194304. -/
def atLine : EngState := { line := 4194304 }

/-- A stream that runs an iteration of world 1. -/
def busy : Stream := { run := .running, ident := { wid := 1 }, blocks := [(0, 4194304)], eng := [(1, atLine), (2, atLine), (3, atLine), (4, atLine), (5, atLine)] }

/-- A 2 MiB page of world 1 for data at DVA 0. -/
def dataPage : Page := { wid := 1, dva := 0, dpa := 0, size := 2, cls := 0, zfill := false, x := false, w := true, r := true }

/-- A page of world 1 for text at DVA 4 MiB. -/
def textPage : Page := { wid := 1, dva := 4194304, dpa := 4194304, size := 0, cls := 0, zfill := false, x := true, w := false, r := true }

/-- The package with all dies joined, world 1 live on VF 1, and stream 0 running in it, S at lane 1. -/
def small : State := { State.reset with
  streams := [(0, busy)], pages := [dataPage, textPage], boot := { stage := 2, joined := [0, 1, 2, 3] }
  mem := [(192, 5)], cur := { sid := 0, eng := .s, line := 4194304, lane := 1 } }

/-- `small` with the fields of its stream changed. -/
def withMe (f : Stream → Stream) : State := small.setMe (f small.me)

/-- `small` with scalars of S set. -/
def withS (l : List (Nat × Word)) : State := withMe fun st => { st with s := l }

/-- `small` with firmware issuing: stream 512 of service core 256. -/
def firm : State := { small with streams := [(0, busy), (512, { busy with lcid := 256 })], cur := { sid := 512, eng := .s, line := 4194304, lane := 1 } }

/-- A machine with no link has idle links. -/
theorem idle (s : State) (h : s.links = []) : s.linksIdle := by simp [State.linksIdle, h]

theorem small_quiet : small.quiet := ⟨⟨rfl, rfl, rfl, rfl, rfl, rfl, idle _ rfl⟩, rfl, rfl, rfl, rfl, rfl, rfl⟩
theorem firm_quiet : firm.quiet := ⟨⟨rfl, rfl, rfl, rfl, rfl, rfl, idle _ rfl⟩, rfl, rfl, rfl, rfl, rfl, rfl⟩
theorem withMe_quiet (f : Stream → Stream) (h : (f small.me).early = []) : (withMe f).quiet := ⟨⟨rfl, rfl, rfl, rfl, rfl, rfl, idle _ rfl⟩, h, rfl, rfl, rfl, rfl, rfl⟩
theorem small_live : small.live 1 = true := by decide
theorem small_vf : small.vfWorld 1 = some 1 := by decide +kernel


/-! ### The well-formedness check refuses -/

/-- One ill-formed lane instruction for each check of R67, R96 to R106 and the reference entries. -/
theorem test_wf_refuses_lanes : ([Instr.loop .v 0 8 0 0 false false, .loop .m 0 1 0 0 true false, .loop .s 0 1 0 0 false true, .qpush .s 1, .epop .s 0,
    .toks .s true, .ext 1 1 60 4, .extS 1 1 60 4, .ins 1 1 60 4, .fence .core .rel 0, .wevt 1 0, .rnext 0 1, .rnext 31 1, .ovl 1 15,
    .vcvt 0 1 0 .z8 .f32 .rne false false, .vcvt 0 1 1 .f32 .bf16 .rne false false, .vcvt 0 31 0 .f32 .bf16 .rne false false, .vcvt 31 0 0 .bf16 .f32 .rne false false,
    .vtype .n8, .mcfg 6 0 0, .mcfg 6 5 0, .mclr 31 1, .mconv 31 1 0 false, .cscanr 0 0 1 0 false true, .cscanr 0 0 0 1 false true,
    .cscanu 0 0 0 1 false .set, .fexp2 0 0 .i32, .flog2 0 0 .n8, .frcp 0 0 .i8, .frsq 0 0 .i16, .ftanh 0 0 .z8, .fsigm 0 0 .rns, .ferf 0 0 .z4] : List Instr).all
    (fun i => !i.wf) = true := by decide

/-- A unit that does not exist, for every step of another unit that names one. -/
theorem test_wf_refuses_engine_steps : ([Instr.fetchLine 520, .tokenWaitResume 520 .v, .tokenPushResume 520 .v, .scalarFifoResume 520 .v, .formatQueueResume 520,
    .slipWindowResume 520 .v, .streamPark 520, .waitWake 520, .streamSwitch 260, .switchQuantumExpiry 260, .fExposure 520, .operandWindowRetire 260,
    .completionCombine 520, .recordCompletionEvent 4 1, .recordCompletionEvent 0 4095, .walkerTakeRecord 4 1, .walkerTakeRecord 0 4095, .iterationPlace 4, .stall 520,
    .faultRecordAppend 4095, .handlerEntry 520, .migrationMove 520, .ctxSave 520, .ctxRestore 520, .ctxCommandDone 520, .pswapSave 520, .pswapRestore 520,
    .pswapDone 520, .pgateGate 520, .pgateUngate 520, .pgateDone 520] : List Instr).all (fun i => !i.wf) = true := by decide
theorem test_wf_refuses_service_steps : ([Instr.map 520 0, .unmap 520 0, .scanRegionRelease 16, .scanmake 520 0, .gatebindBind 520 0, .gatebindUnbind 520 0,
    .leaseRequest 520 0, .leaseWake 520 0, .leaseReserve 520 0, .leaseEop 520 0, .unlease 520 0, .evidenceWorldReport 520 0, .evidenceCollectRecord 520 0,
    .resumeRetry 520 0, .resumeAbandon 520 0, .arrayPass 4096, .mgoPass 520, .awriteRowStep 4096 true, .eraseStep 4096 true, .copyStep 520 0, .scanAdmission 520,
    .lapBell 16, .closeMarkerArrive 16 0 0, .closeMarkerArrive 0 512 0, .closeMarkerArrive 0 0 513, .sliceZeroRow 16 0, .sliceRowServe 0 512, .slicePassEnd 16 0,
    .scanReplyDeliver 520, .gateFlipCommit 520, .notificationAppend 4095, .errorLogAppend 4095] : List Instr).all (fun i => !i.wf) = true := by decide
theorem test_wf_refuses_hub_steps : ([Instr.doorbell 256 0, .vfResume 256 0, .vfEvidence 256 0, .vfRegisterWrite 256 0 0, .tsudalPacket 4 1 0 true, .tsudalPacket 0 4095 0 true,
    .dieLinkFrame 3 true, .dieLinkFrame 8 true, .linkKeyInstall 8, .linkKeySwitch 8 true, .linkKeyRetire 8 true, .functionLevelReset 256, .worldTeardown 4095,
    .getVersion 256, .getCapabilities 256, .negotiateAlgorithms 256, .getDigests 256, .getCertificate 256, .challenge 256, .getMeasurements 256, .keyExchange 256 true,
    .finish 256 true, .endSession 256, .lockInterface 256, .startInterface 256, .ideKmKeyRefresh 256, .enrolment 0 0 0 1, .enrolment 0 65536 0 1, .enrolment 0 1 65536 1,
    .enrolment 0 1 0 0, .enrolment 0 1 0 86401, .dieJoin 4 true, .governorTick 4 0 0, .governorTick 0 4 0, .governorTick 0 0 17, .fastLimit 4 true, .thermalThrottle 4 850,
    .throttleRelease 4 700, .thermalTrip 4 920, .worldMake 4095 0, .worldMake 1 256, .hostWrite 4095 0 [], .tdiError 256, .unsupportedRequest 256] : List Instr).all
    (fun i => !i.wf) = true := by decide

/-- A lane that names its own engine in TW or TS, and a step of another unit in a lane, are refused (R96). -/
theorem test_wf_refuses_tokens : Lane.wf { tw := some .s, ts := none, g := 0, instr := .nop .s } = false ∧
    Lane.wf { tw := none, ts := some .v, g := 0, instr := .vtype .f32 } = false ∧ Lane.wf { tw := none, ts := none, g := 0, instr := .powerLoss } = false := by decide

/-! ### Words of the spec's encodings

Each word is put together from the bit positions of Tables 4.9 to 4.14: the opcode, then the fields. -/

/-- The decoder reads these words, and X lanes, as these instructions. -/
def readsAs (e : Engine) (l : List (Nat × Option Nat × Instr)) : Bool :=
  l.all fun p => match decodeLane e p.1 p.2.1 with
    | .ok ln => ln == { tw := none, ts := none, g := 0, instr := p.2.2 }
    | .error _ => false

theorem test_decode_s_1 : readsAs .s [
    (0x00000000, none, .nop .s),
    (0x0C01ABCD, none, .notify .s 0x1ABCD),
    (0x08004F28, none, .rep .s 9 7 1 2),
    (0x04014403, some 0x40000000, .loop .s 2 17 3 4 false false),
    (0x10008480, none, .qpush .v 9),
    (0x14016000, none, .toks .f true),
    (0x18003008, none, .csrr 3 0x008),
    (0x1C003131, none, .csrw 3 0x131),
    (0x20003214, none, .add 3 4 5),
    (0x24003214, none, .sub 3 4 5),
    (0x28003214, none, .mul 3 4 5),
    (0x38003214, none, .and 3 4 5),
    (0x3C003214, none, .or 3 4 5),
    (0x40003214, none, .xor 3 4 5),
    (0x44003214, none, .shl 3 4 5),
    (0x2C003214, none, .mulh 3 4 5),
    (0x2C003215, none, .mulhn 3 4 5),
    (0x30003214, none, .div 3 4 5),
    (0x30003215, none, .divn 3 4 5),
    (0x34003214, none, .rem 3 4 5)] = true := by decide

theorem test_decode_s_2 : readsAs .s [
    (0x34003215, none, .remn 3 4 5),
    (0x48003214, none, .shr 3 4 5),
    (0x48003215, none, .sra 3 4 5),
    (0x4C003214, none, .min 3 4 5),
    (0x4C003215, none, .minn 3 4 5),
    (0x50003214, none, .max 3 4 5),
    (0x50003215, none, .maxn 3 4 5),
    (0x54014215, none, .cmp 2 .gt 4 5 .and),
    (0x58003216, none, .sel 3 4 5 2),
    (0x5C003200, none, .clz 3 4),
    (0x5C003201, none, .ctz 3 4),
    (0x5C003202, none, .popc 3 4),
    (0x6000327B, none, .addi 3 4 0x7B),
    (0x6400327B, none, .andi 3 4 0x7B),
    (0x6800327B, none, .ori 3 4 0x7B),
    (0x6C00327B, none, .xori 3 4 0x7B),
    (0x7000323F, none, .shli 3 4 63),
    (0x74003205, none, .shri 3 4 5),
    (0x74003245, none, .srai 3 4 5),
    (0x7800F205, none, .cmpi 1 .len 4 5)] = true := by decide

theorem test_decode_s_3 : readsAs .s [
    (0x7C005000, some 0x12345678, .limm 5 0x12345678),
    (0x80005000, some 0x89ABCDEF, .lup 5 0x89ABCDEF),
    (0x84003200, some 0x0000020F, .ext 3 4 8 15),
    (0x84003201, some 0x0000020F, .extS 3 4 8 15),
    (0x88003200, some 0x0000020F, .ins 3 4 8 15),
    (0x8C00D80E, none, .plog 1 2 3 0xE),
    (0x9000327E, none, .ld 3 4 .d 0x1E),
    (0x94003222, none, .st 3 4 .h 2),
    (0x980033FF, none, .spld 3 1023),
    (0x9C003007, none, .spst 3 7),
    (0xA0000000, none, .mark),
    (0xA400324C, some 0x000FFFFC, .ldacq 3 4 .w .dev 0xFFFFC),
    (0xA8003210, some 0x00000005, .strel 3 4 .b .sys 5),
    (0xAC009900, none, .fence .die .rel 0b10010),
    (0xB0004180, none, .tlook 4 3),
    (0xB0004189, none, .tset 4 3 2),
    (0xB0000182, none, .tinv 3),
    (0xB401FFFE, none, .br 3 true 0x3FFE),
    (0xB8010000, none, .jmp 0x10000),
    (0xBC000005, none, .call 5)] = true := by decide

theorem test_decode_s_4 : readsAs .s [
    (0xC0000000, none, .ret),
    (0xC4000000, none, .yield),
    (0xC8012200, none, .wfill 9 4),
    (0xC8012201, none, .wfree 9 4),
    (0xCC003081, none, .wevt 3 0x81),
    (0xD0003204, some 0x00000008, .waitge 3 4 .grp 8),
    (0xD4012214, none, .rinit 9 4 5),
    (0xD4012215, none, .rclaim 5 9 4),
    (0xD4012202, none, .rcommit 9 4),
    (0xD4012203, none, .rfree 9 4),
    (0xD8003214, some 0x8D480000, .amo 3 4 5 .swap .ar .die true 0x80000),
    (0xDC003214, some 0x32C00010, .acas 3 4 5 6 .acq .dev false 16),
    (0xE0000214, none, .bar 4 5),
    (0xE40030A1, none, .sev 3 5 true),
    (0xE8000240, some 0x00000008, .gflip 4 true 8),
    (0xEC003200, none, .rnext 3 4),
    (0xF0003200, none, .launch 3 4),
    (0xF4000244, none, .ovl 4 0b10001),
    (0xF8000200, none, .fmtq 4),
    (0xFC003201, none, .trap 3 4)] = true := by decide

theorem test_decode_s_5 : readsAs .s [
    (0xFC000002, none, .eret),
    (0xFC003203, none, .tlbi 3 4),
    (0xFC000004, none, .halt),
    (0xFC003205, none, .agrant 3 4),
    (0xFC003006, none, .arevoke 3),
    (0xFC003007, none, .aerase 3),
    (0xFC003208, none, .aattest 3 4),
    (0xFC003209, none, .astat 3 4),
    (0xFC00320A, none, .smig 3 4)] = true := by decide

theorem test_decode_v_1 : readsAs .v [
    (0x00000000, none, .nop .v),
    (0x0C01ABCD, none, .notify .v 0x1ABCD),
    (0x08004F28, none, .rep .v 9 7 1 2),
    (0x10005000, none, .epop .v 5),
    (0x04009BFF, some 0x8C000000, .loop .v 1 6 1023 8 true true),
    (0x2000110E, none, .vadd 1 2 3 2),
    (0x2400110E, none, .vsub 1 2 3 2),
    (0x2800110E, none, .vmul 1 2 3 2),
    (0x2C00110E, none, .vfma 1 2 3 2),
    (0x3000110E, none, .vmin 1 2 3 2),
    (0x3400110E, none, .vmax 1 2 3 2),
    (0x3800110E, none, .vand 1 2 3 2),
    (0x3C00110E, none, .vor 1 2 3 2),
    (0x4000110E, none, .vxor 1 2 3 2),
    (0x4400110E, none, .vshl 1 2 3 2),
    (0x4800110E, none, .vshr 1 2 3 2),
    (0x4C00110E, none, .vshrl 1 2 3 2),
    (0x5001810D, some 0x00000006, .vcmp 3 .ltn 2 3 1),
    (0x5400110F, none, .vsel 1 2 3 3),
    (0x58001114, some 0x01380000, .vcvt 1 2 5 .f32 .bf16 .rz true true)] = true := by decide

theorem test_decode_v_2 : readsAs .v [
    (0x5C001100, some 0x00000005, .vred 1 2 .xor),
    (0x6000110C, none, .vperm 1 2 3),
    (0x64001300, none, .vbcast 1 6),
    (0x6800611C, none, .vext 6 2 7),
    (0x6C00131C, none, .vins 1 6 7),
    (0x70001341, none, .vld 1 6 0x10 1),
    (0x7400130C, none, .vst 1 6 3 0),
    (0x78001119, some 0x00000001, .vgath 1 2 6 1 .h),
    (0x7C001119, some 0x00000002, .vscat 1 2 6 1 .w),
    (0x80018101, none, .vpush 3 2 1),
    (0x84001C40, none, .vpop 1 3 2),
    (0x88010000, none, .vclose 2),
    (0x8C00131C, some 0x00000000, .vrnd 1 6 7),
    (0x90001118, some 0x000000AF, .vdrop 1 2 6 7 5 2),
    (0x94000004, none, .vtype .i16),
    (0x98001300, none, .vqpop 1 6)] = true := by decide

theorem test_decode_m : readsAs .m [
    (0x00000000, none, .nop .m),
    (0x0C01ABCD, none, .notify .m 0x1ABCD),
    (0x08004F28, none, .rep .m 9 7 1 2),
    (0x10005000, none, .epop .m 5),
    (0x04018400, some 0x04000000, .loop .m 3 1 0 0 false true),
    (0x20018814, none, .mcfg 6 1 5),
    (0x24000000, none, .mgo),
    (0x28001100, some 0x0000007F, .mpass 1 2 31 true true),
    (0x2C003800, none, .mlds 3 true),
    (0x30000000, none, .mswap),
    (0x34002180, none, .mclr 2 3),
    (0x38002196, none, .mconv 2 3 5 true),
    (0x3C00110C, some 0x000000C8, .awrite 1 2 3 200)] = true := by decide

theorem test_decode_c : readsAs .c [
    (0x00000000, none, .nop .c),
    (0x0C01ABCD, none, .notify .c 0x1ABCD),
    (0x08004F28, none, .rep .c 9 7 1 2),
    (0x10005000, none, .epop .c 5),
    (0x20002000, none, .ccopy 2),
    (0x24002000, none, .cgath 2),
    (0x2800110C, some 0x00000012, .cscanr 1 2 3 4 true false),
    (0x2C00110C, some 0x0000004E, .cscanu 1 2 3 4 true .minF32),
    (0x30001101, none, .clap 1 2 true),
    (0x3400110C, some 0x00000000, .cbank 1 2 3),
    (0x3800110C, some 0x00000007, .ccopyf 1 2 3 .dev true)] = true := by decide

theorem test_decode_f : readsAs .f [
    (0x00000000, none, .nop .f),
    (0x0C01ABCD, none, .notify .f 0x1ABCD),
    (0x08004F28, none, .rep .f 9 7 1 2),
    (0x10005000, none, .epop .f 5),
    (0x20001100, none, .fexp2 1 2 .f32),
    (0x24001101, none, .flog2 1 2 .bf16),
    (0x28001102, none, .frcp 1 2 .f16),
    (0x2C001100, none, .frsq 1 2 .f32),
    (0x30001101, none, .ftanh 1 2 .bf16),
    (0x34001102, none, .fsigm 1 2 .f16),
    (0x38001100, none, .ferf 1 2 .f32)] = true := by decide
/-- The decoder refuses these words by this name. -/
def refusedAs (e : Engine) (w : Nat) (r : DecodeError) : Bool := match decodeLane e w none with | .ok _ => false | .error x => x == r

/-- Words the tables do not admit: an unassigned opcode, a reserved code, bits that must be zero, an e-register field with upper bits, a combination
its table calls ILLOP, a token that names the lane's engine, a missing X lane. -/
theorem test_decode_refuses : (refusedAs .v 0x14000000 .unassigned && refusedAs .s 0x10000000 .reservedCode && refusedAs .s 0x00000001 .zeroField &&
    refusedAs .v 0x10008000 .engineField && refusedAs .s 0xCC003000 .badOperands && refusedAs .s 0x00800000 .tokenField && refusedAs .s 0x7C005000 .xLane) = true := by decide

/-- Lines (R92 to R94, R108): one lane of S and an empty rest; a reserved nibble; an empty lane that is not zero; an X lane after nothing; a block-ending
instruction without BE; a header bit that must be zero. -/
theorem test_lines : Line.error (BitVec.ofNat 256 (0x00000001 + 0x38003214 * 2 ^ 32)) = none ∧ Line.error (BitVec.ofNat 256 7) = some .reservedNibble ∧
    Line.error (BitVec.ofNat 256 (2 ^ 32)) = some .emptyNonzero ∧ Line.error (BitVec.ofNat 256 6) = some .strayX ∧
    Line.error (BitVec.ofNat 256 (1 + 0xB8000000 * 2 ^ 32)) = some .blockEnd ∧ Line.error (BitVec.ofNat 256 (2 ^ 29)) = some .headerZero := by decide

/-! ### States and operands that meet the statements' hypotheses: S, events, rings, faults -/

theorem wit_BitFields : (56 : Fin 64).val + (7 : Fin 64).val < 64 := by decide
theorem wit_RegisterFrames : ∃ t, exec (.add 3 4 5) small = .next t := ⟨_, rfl⟩
theorem wit_QueuesOfEngines_notify : ¬((Engine.v = .m ∨ Engine.v = .c) ∧ small.me.busy .v = true) ∧ (0x1FFFE : BitVec 17) ≠ 0x1FFFF ∧
    small.buffered (small.widOf small.cur.sid) < 64 ∧ Engine.s = small.cur.eng := by decide +kernel
theorem wit_QueuesOfEngines_room : (small.me.fifo .s .v).length < 16 ∧ (Tab.get [] small.me.scalars Engine.v.code).length < 32 ∧ small.me.fmtq.length < 16 := by decide
theorem wit_QueuesOfEngines_epop : Tab.get [] (withMe fun st => { st with scalars := [(2, [⟨7, 0⟩])] }).me.scalars Engine.v.code = ⟨7, 0⟩ :: [] := by decide
/-- S in a loop of level 0, staged, whose body ends three lines on. -/
def inLoop : State := withMe fun st => { st.setEng .s { atLine with loops := [{ lvl := 0, count := 2, i := 0, first := 4194304, last := 4194400, stages := 2, rot := false, tok := false, iters := 0, opn := false, ts := none, out := 4194400 }] } with s := [(4, 3)] }

/-- A LOOP of level 1 stands well in it; one of level 0, one with stages, and one that ends behind it do not. -/
theorem wit_LoopsAndRepeats_loop : Engine.s = inLoop.cur.eng ∧ inLoop.myEng.line = inLoop.cur.line ∧ inLoop.myEng.loops.length = 1 ∧
    (∀ f ∈ inLoop.myEng.loops, f.lvl ≠ (1 : Fin 4).val ∧ f.stages ≠ 0 ∧ f.rot = false ∧ ¬ f.last < inLoop.cur.line + 32 * (2 + 1)) ∧
    (∀ f ∈ inLoop.myEng.loops, f.lvl = (0 : Fin 4).val ∧ f.last < inLoop.cur.line + 32 * (3 + 1)) ∧
    (∀ i ≤ 2, inLoop.isBe 0 (inLoop.cur.line + 32 * i) = false) ∧ (inLoop.getS 4).toNat % 2 ^ 32 = 3 := by decide

/-- S stands at a REP with steps at DVA 4194304; its next lane holds a word. -/
def repText (w : Nat) : State := { withMe fun st => st.setEng .s { atLine with lane := 1 } with
  mem := Memory.writeList small.mem 4194304 (leBytes 32 (0x11 + 0x08000000 * 2 ^ 32 + w * 2 ^ 64)) }

/-- A REP before an ADD, and one before another REP. -/
theorem wit_LoopsAndRepeats_rep : (repText 0x20003214).badTarget 0 .s 1 1 1 = false ∧ (repText 0x08000000).badTarget 0 .s 0 0 0 = true ∧
    ((repText 0x20003214).lineAt 0 (repText 0x20003214).cur.line).isSome = true ∧ ((repText 0x08000000).lineAt 0 (repText 0x08000000).cur.line).isSome = true ∧
    (repText 0x20003214).cur.eng = .s := by decide +kernel
theorem wit_ControlRegisters : firm.firmware firm.cur.sid = true ∧ isService firm.cur.sid = true ∧ small.firmware small.cur.sid = false ∧ firm.me.ctxcmd.getLsbD 63 = false ∧
    firm.me.pswap.getLsbD 63 = false ∧ firm.me.pgate.getLsbD 63 = false ∧ (1 : Word) &&& 0x0FFFFFFFFFFFFFFC = 0 ∧ (0x100 : Word) &&& 0x0FFFFFFFFFFF8CCC = 0 ∧
    (1 : Word) &&& 0x0FFFFFFFFFFFFECC = 0 := by decide
theorem wit_LoadsAndOrder : (withS [(4, 192)]).quiet ∧ (4 : SReg) ≠ 31 ∧
    (withS [(4, 192)]).target 0 (addrAdd ((withS [(4, 192)]).getS 4) (-8)) 8 .read = .ok (.dram 184 dataPage) ∧
    (withS [(4, 192)]).me.fenceReached 0b10010 0 0 4194304 = true := ⟨withMe_quiet _ rfl, by decide, by rfl, by decide⟩
/-- The own scratchpad, and the ring words of the own core's window. -/
theorem wit_StoresMoveOutward_issue : (withS [(4, 192)]).target 0 (addrAdd ((withS [(4, 192)]).getS 4) 8) 8 .write ((withS [(4, 192)]).standsBehind 0) = .ok (.dram 200 dataPage) ∧
    ((withS [(4, 192)]).realign 0).2 = true ∧
    ((withS [(4, 192)]).realign 0).1.target 0 (addrAdd ((withS [(4, 192)]).getS 4) 8) 8 .write (((withS [(4, 192)]).realign 0).1.standsBehind 0) = .ok (.dram 200 dataPage) := ⟨by rfl, by decide, by rfl⟩

/-- A store of stream 0 at the DIE point, on its way to device-physical address 512. -/
def atHomeDoor : Store := { id := 1, sid := 0, core := 0, loc := .dram 512, data := [1, 2] }

theorem wit_StoresMoveOutward_arrive : ({ small with atDie := [atHomeDoor] } : State).mayMove 3 atHomeDoor = true ∧
    atHomeDoor ∈ ({ small with atDie := [atHomeDoor] } : State).atDie ∧ ({ small with atDie := [atHomeDoor] } : State).flushed atHomeDoor = false ∧
    ({ small with atDie := [atHomeDoor] } : State).lateCheck atHomeDoor = none := by decide +kernel
theorem wit_TagTable : ((withS [(5, 127)]).getS 5).toNat < (if (withS [(5, 127)]).me.wide then 256 else 128) := by decide
/-- A stack of 64 bytes at the top of the scratchpad half, with the pointer in its middle. -/
def stacked : State := withMe fun st => { st with s := [(31, 0xFF000007FFE0)], stlim := 0xFF000007FFC0, stbase := 0xFF0000080000 }

theorem wit_BlocksEnd_call : spDva ≤ stacked.me.stlim.toNat ∧ stacked.me.stbase.toNat ≤ stacked.spEnd ∧ stacked.cur.line + 32 < 2 ^ 64 ∧
    stacked.me.stlim.toNat + 8 ≤ (stacked.getS 31).toNat ∧ (stacked.getS 31).toNat + 8 ≤ stacked.me.stbase.toNat ∧ (stacked.core 0).spBad = [] ∧
    leNat (Memory.readList (stacked.core 0).sp (stacked.stackOff (stacked.getS 31).toNat) 8) % 32 = 0 := by decide
theorem wit_StoresQueue_stack : stacked.quiet ∧ (stacked.target 0 (addrAdd (stacked.getS 31) (0 * 8)) 8 .write (stacked.standsBehind 0) |>.toOption.map (·.loc)) = some (.sp 0 524256) ∧
    stacked.stackBad (addrAdd (stacked.getS 31) (0 * 8)) = false := ⟨withMe_quiet _ rfl, by decide +kernel, by decide⟩
theorem wit_BlocksEnd_stack : (addrAdd (stacked.getS 31) ((-5) * 8)) < stacked.me.stlim.toNat ∧ stacked.me.stbase.toNat ≤ (addrAdd (stacked.getS 31) (4 * 8)) := by decide
/-- S at an OVL of V and F, which have finished the block. -/
def overlaying : State := withMe fun st => { st with s := [(4, 4194304)], eng := [(1, atLine), (2, { atLine with atEnd := true }), (5, { atLine with atEnd := true })] }

theorem wit_BlocksEnd_ovl : overlaying.quiet ∧ (0b11001 : BitVec 5).getLsbD 4 = true ∧ (overlaying.getS 4).toNat % 32 = 0 ∧
    overlaying.pageCheck 1 0 4194304 32 .fetch = .ok (4194304, textPage) ∧
    (∀ e ∈ engines, e ≠ .s → inMask 0b11001 e = true → (overlaying.me.eng' e).blk = overlaying.myEng.blk ∧ (overlaying.me.eng' e).atEnd = true ∧ overlaying.me.busy e = false) ∧
    overlaying.tryFences 0 = overlaying ∧ overlaying.me.busy .s = false ∧ overlaying.pushClear 0 = true :=
  ⟨withMe_quiet _ rfl, by decide, by decide, by rfl, by decide, by rfl, by decide, by decide⟩
theorem wit_FaultsSuspend : isService 0 = false ∧ (small.stream 0).run ≠ .suspended := by decide

/-- A service core with interrupts enabled and one request. -/
def asking : State := firm.setCore 256 { firm.core 256 with eie := true, requests := [.host], tvec := 4096 }

theorem wit_HandlersEnterAndReturn : isService asking.cur.sid = true ∧ (asking.core (coreOf 512)).eie = true ∧ (asking.core (coreOf 512)).requests = .host :: [] ∧
    (firm.core (coreOf 512)).eie = false ∧ (firm.core (coreOf 512)).requests = [] ∧ firm.sec.lockdown = 0 ∧ isService small.cur.sid = false := by decide
theorem wit_HandlersEnterAndReturn_request : (asking.stream 512).run = .running ∧ (asking.stream 512).sAtStart = true ∧ (asking.stream 512).drained = true := by decide
theorem wit_EventsAndRanges_wevt : (withMe fun st => { st with evt := 5 }).me.evt &&& 4 ≠ 0 ∧ small.me.evt &&& 4 = 0 := by decide
theorem wit_EventsAndRanges_sev : small.linksIdle ∧ isService 0 = false ∧ (small.stream 0).run ≠ .free ∧ small.widOf 0 = small.widOf small.cur.sid ∧ isService 514 = true :=
  ⟨idle _ rfl, by decide, by decide, by decide, by decide⟩
theorem wit_EventsAndRanges_rnext : (Tab.get {} ({ small with ranges := [(0, { wid := 1, total := 9, p := 4, min := 2, next := 8 })] } : State).ranges (64 * small.me.ident.die + 0) : RangeUnit) =
    { wid := 1, total := 9, p := 4, min := 2, next := 8 } := by decide

/-- Ring 0 of core 0: 4 slots of 32 bytes, 3 claimed, 2 of them filled, the count 1 in s4, ring geometry in s5. -/
def ringed : State := (withS [(4, 1), (5, 4 * 65536 + 32), (6, 128)]).setCore 0 { small.core 0 with rings := [(0, { z := 32, n := 4, claim := 3, commit := 2 })] }

theorem wit_RingsAndBarriers_ring : ringed.ringReady 0 = true ∧ 1 ≤ (ringed.getS 4).toNat ∧ (ringed.getS 4).toNat ≤ (ringed.myRing 0).n ∧
    (ringed.myRing 0).claimedWith 1 ≤ 4 ∧ (ringed.myRing 0).filledWith 1 ≤ 4 ∧ 1 ≤ (ringed.myRing 0).filled := by decide
theorem wit_RingsAndBarriers_rinit : ringed.ownsRing 0 = true ∧ (ringed.getS 6).toNat % 32 = 0 ∧ (ringed.getS 5).toNat < 2 ^ 32 ∧ 32 ≤ (ringed.getS 5).toNat % 65536 ∧
    (ringed.getS 5).toNat % 65536 ≤ 32768 ∧ 1 ≤ (ringed.getS 5).toNat / 65536 ∧ (ringed.getS 5).toNat / 65536 ≤ 4096 ∧
    (ringed.getS 6).toNat + (ringed.getS 5).toNat / 65536 * ((ringed.getS 5).toNat % 65536) ≤ ringed.me.spSize := by decide
theorem wit_RingsAndBarriers_waits : 1 ≤ (ringed.myRing 0).filled ∧ ¬ 3 ≤ (ringed.myRing 0).filled ∧
    1 ≤ ((ringed.myRing 0).free + BitVec.ofNat 32 4 - (ringed.myRing 0).claim).toNat ∧ ¬ 2 ≤ ((ringed.myRing 0).free + BitVec.ofNat 32 4 - (ringed.myRing 0).claim).toNat := by decide
theorem wit_RingsAndBarriers_word : (withS [(4, 184), (5, 1)]).target 0 (addrAdd ((withS [(4, 184), (5, 1)]).getS 4) 8) 8 .read = .ok (.dram 192 dataPage) ∧
    leNat (Memory.readList (withS [(4, 184), (5, 1)]).mem 192 8) = 5 := ⟨by rfl, by decide⟩
theorem wit_RingsAndBarriers_bar : (withS [(4, 256), (5, 1)]).atomicTarget 0 256 8 = .ok (256, dataPage) ∧ 1 ≤ ((withS [(4, 256), (5, 1)]).getS 5).toNat ∧
    1 ≤ leNat (Memory.readList (withS [(4, 256), (5, 1)]).mem 256 8) % 2 ^ 32 + 1 ∧ ¬ 2 ≤ leNat (Memory.readList (withS [(4, 256), (5, 1)]).mem 256 8) % 2 ^ 32 + 1 := ⟨by rfl, by decide⟩

/-! ### Witnesses: atomics, gates, queues, leases, TRAP -/

theorem wit_AtomicsUpdate_dram : (withS [(4, 184), (5, 1)]).quiet ∧
    (withS [(4, 184), (5, 1)]).target 0 (addrAdd ((withS [(4, 184), (5, 1)]).getS 4) 8) 8 .atomic = .ok (.dram 192 dataPage) ∧ dataPage.r = true ∧
    (withS [(4, 184), (5, 1)]).atomicTarget 0 (addrAdd ((withS [(4, 184), (5, 1)]).getS 4) 8) 8 = .ok (192, dataPage) := ⟨withMe_quiet _ rfl, by rfl, by decide, by rfl⟩

/-- s4 points at the COMMIT word of ring 0 in the stream's ring window. -/
def ringWord : State := (withS [(4, 0xFF8000100010)]).setCore 0 { small.core 0 with rings := [(0, { z := 32, n := 4 })] }

theorem wit_AtomicsUpdate_ring : (addrAdd (ringWord.getS 4) 0) = 0xFF8000100010 ∧ ringWord.target 0 0xFF8000100010 4 .atomic = .ok (.ring 0 0 2 0) := ⟨by decide, by rfl⟩

/-- A gate at DVA 256 whose sides are die 0 and die 1, with a page of its own. -/
def gated : State := { withS [(4, 256)] with gates := [{ wid := 1, dva := 256, dpa := 256, base := 8388608, npg := 1, set0 := 1, set1 := 2, owner := false }] }
def itsGate : Gate := { wid := 1, dva := 256, dpa := 256, base := 8388608, npg := 1, set0 := 1, set1 := 2, owner := false }

theorem wit_GateFlips_none : (withS [(4, 256)]).cur.eng = .s ∧ (withS [(4, 256)]).me.flipping true = none ∧ (withS [(4, 256)]).pageCheck 1 0 256 8 .write false true = .ok (256, dataPage) ∧
    (withS [(4, 256)]).gateAt 1 256 = none := ⟨by decide, by decide, by rfl, by decide⟩
theorem wit_GateFlips_start : gated.me.flipping true = none ∧ (addrAdd (gated.getS 4) 0) = 256 ∧ gated.pageCheck 1 0 256 8 .write false true = .ok (256, dataPage) ∧
    gated.gateAt 1 256 = some itsGate ∧ itsGate ∈ gated.gates ∧ itsGate.flipping = false ∧ itsGate.permits (dieOf (coreOf 0)) = true :=
  ⟨by decide, by decide, by rfl, by decide, by decide, by decide, by decide⟩

/-- A flip of S's GFLIP, made. -/
def flipCmd (d : Bool) : Cmd := { id := 7, eng := .s, kind := .flip 256 true, ts := none, line := 4194304, lane := 1, base := 0, x := 0, done := d }

theorem wit_GateFlips_done : (withMe fun st => { st with cmds := [{ flipCmd true with atLane := true }] }).me.flipping true = some { flipCmd true with atLane := true } ∧ (flipCmd true).done = true := by decide

/-- World 1 with launch, fault, notification and error queues of 4 slots in its data page, and the world table at 1 MiB. -/
def queues (tail : Nat) : State := { withS [(4, 1024)] with
  wtbase := 1048576
  mem := [0, 16, 32, 48].foldl (fun m o => Memory.writeList (Memory.writeList m (1048576 + 128 + o) (leBytes 8 (65536 + 4096 * o))) (1048576 + 128 + o + 8) (leBytes 8 2))
    (Memory.writeList (Memory.writeList [] (65536 + 4096 * 16) (leBytes 8 tail)) (1048576 + 128 + 64) [5]) }

theorem wit_QueueAppends_launch : 1024 % 128 = 0 ∧ (queues 0).pageCheck ((queues 0).widOf 0) 0 1024 128 .read = .ok (1024, dataPage) ∧ (queues 0).live ((queues 0).widOf 0) = true ∧
    (queues 0).queueFull 1 0x10 = false ∧ (queues 4).queueFull 1 0x10 = true ∧ (queues 4).live 1 = true := ⟨by decide, by rfl, by decide +kernel, by decide +kernel, by decide +kernel, by decide +kernel⟩
theorem queues_quiet (n : Nat) : (queues n).quiet := ⟨⟨rfl, rfl, rfl, rfl, rfl, rfl, idle _ rfl⟩, rfl, rfl, rfl, rfl, rfl, rfl⟩
/-- The queues' stack can be reached from a core, the hub and the walkers. -/
theorem queues_clear : ((queues 0).queueClear 0 1 0x10 128 && (queues 4).queueClear 0 1 0x10 128 && (queues 0).queueClear 1023 1 0 64 && (queues 0).queueClear 1023 1 0x20 16 && (queues 0).queueClear 1023 1 0x30 32) = true := by decide +kernel

/-- A fault record of stream 0. -/
def aFault : FaultRec := { code := 4, addr := 0, detail := 0, eng := .s, lane := 1, line := 4194304, retry := true, prog := false, wid := 1, sid := 0, iter := 0, ctxn := 0, time := 0, lcid := 0 }

theorem wit_QueueAppends_record : (∀ i < 128, (queues 0).page 1 (1024 + i) = some dataPage) ∧ ((withMe fun st => { st with fault := some aFault }).stream aFault.sid).fault = some aFault := by decide +kernel
theorem wit_QueueAppends_waiting : ((queues 0).setWorld 1 { faults := [aFault], notes := [[1]], errs := [[2]] }).queueFull 1 0 = false ∧
    ((queues 0).setWorld 1 { faults := [aFault], notes := [[1]], errs := [[2]] }).queueFull 1 0x20 = false ∧
    ((queues 0).setWorld 1 { faults := [aFault], notes := [[1]], errs := [[2]] }).queueFull 1 0x30 = false ∧
    (((queues 0).setWorld 1 { faults := [aFault], notes := [[1]], errs := [[2]] }).world 1).faults = aFault :: [] ∧
    (queues 0).entryClear aFault.sid = true ∧ (queues 0).entryClear (leNat ([1].take 2)) = true ∧
    ({ queues 0 with links := [(hubLink 0, { fails := 1 })] } : State).entryClear 0 = false := by decide +kernel
theorem wit_QueueAppends_header : ∀ off ∈ [0, 0x10, 0x20, 0x30], (queues 4).tryHeader 1 off = (queues 4, 0) := by decide +kernel
theorem wit_QueueAppends_span : ∀ i < 64 + 32 * (queues 0).queueSize 1 0x20, (queues 0).dpa 1 ((queues 0).queueBase 1 0x20 + i) = some (196608 + i) := by decide +kernel
theorem wit_PrivilegedLanes : (withS [(4, 5 + 2 ^ 24), (6, 5)]).firmware 0 = false ∧ rangeBad ((withS [(4, 5 + 2 ^ 24), (6, 5)]).getS 6).toNat false = false ∧
    rangeBad ((withS [(4, 5 + 2 ^ 24), (6, 5)]).getS 4).toNat true = false ∧ (withS [(4, 5 + 2 ^ 24), (6, 5)]).me.revoking = none ∧
    ((withS [(4, 5 + 2 ^ 24), (6, 5)]).getS 6).toNat < 2 ^ 12 ∧ ((withS [(4, 5 + 2 ^ 24), (6, 5)]).getS 6).toNat ≠ 4095 := by decide

/-- `firm` with scalars of S set. -/
def firmS (l : List (Nat × Word)) : State := firm.setMe { firm.me with s := l }
theorem firmS_quiet (l : List (Nat × Word)) : (firmS l).quiet := ⟨⟨rfl, rfl, rfl, rfl, rfl, rfl, idle _ rfl⟩, rfl, rfl, rfl, rfl, rfl, rfl⟩

theorem wit_TlbiAndSmig_tlbi : (firmS [(4, 1), (5, BitVec.allOnes 64)]).firmware 512 = true ∧ ((firmS [(4, 1), (5, BitVec.allOnes 64)]).getS 5).toNat = 2 ^ 64 - 1 ∧
    (firmS [(4, 1), (5, 4194304)]).firmware 512 = true ∧ ((firmS [(4, 1), (5, 4194304)]).getS 5).toNat < 2 ^ 48 := by decide

/-- Firmware asks to move stream 0 to core 1. -/
def moving : State := { firmS [(4, 0), (5, 1)] with migbase := 2097152 }

theorem wit_TlbiAndSmig_smig : moving.firmware 512 = true ∧ (moving.stream 0).run ≠ .free ∧ (moving.stream 0).ident.wid ≠ 0 ∧ (moving.stream 0).migrate = none ∧
    (moving.stream 7).run = .free ∧ moving.migbase ≠ 0 ∧ moving.eligible 0 1 = true ∧ (moving.stream 0).wide = false ∧ (moving.stream 2).run = .free ∧
    moving.eligible 0 0 = false ∧ (moving.stream 0).yielding = false := by decide +kernel

/-- A cancel finds the request that it takes back, one that has begun, or none. -/
theorem wit_TlbiAndSmig_cancel : let s (f : Stream → Stream) := (firmS [(4, 0), (5, BitVec.allOnes 64)]).setStream 0 (f (firm.stream 0))
    ((s id).getS 5).toNat = 2 ^ 64 - 1 ∧ (s id).firmware 512 = true ∧ ((s id).stream 0).ident.wid ≠ 0 ∧ ((s id).stream 0).migrate = none ∧
    ((s fun st => { st with migrate := some 2 }).stream 0).migrate = some 2 ∧ ((s fun st => { st with migrate := some 2 }).stream 0).yielding = false ∧
    ((s fun st => { st with migrate := some 2, yielding := true }).stream 0).yielding = true := by decide +kernel

/-- Firmware, whose world 0 has its own page at DVA 0, with array 5 in a state; s4 holds its range word and s5 a block. -/
def leased (st : LeaseState) (b : Word) (mw : Word := 2 ^ 24) : State := { firmS [(4, 5 + mw), (5, b)] with
  leases := [(5, { st := st, wid := 1, dormant := false })], pages := [dataPage, textPage, { dataPage with wid := 0, dpa := 2097152 }]
  wtbase := 1048576, mem := Memory.writeList (Memory.writeList [] (1048576 + 128 + 64) [5]) 2097152 [1, 0x10] }
theorem leased_quiet (st : LeaseState) (b mw : Word) : (leased st b mw).quiet := ⟨⟨rfl, rfl, rfl, rfl, rfl, rfl, idle _ rfl⟩, rfl, rfl, rfl, rfl, rfl, rfl⟩
theorem range5 : rangeWord (5 + 2 ^ 24) = { first := 5, count := 1, mw := 1, party := 0 } ∧ rangeWord 5 = { first := 5, count := 1, mw := 0, party := 0 } := by decide

theorem wit_ArraysChangeHands_start : (leased .leased 0).firmware 512 = true ∧ rangeBad ((leased .leased 0).getS 4).toNat true = false ∧ (leased .leased 0).me.revoking = none ∧
    ((leased .leased 0).firstBad (rangeWord 5) fun l => l.st == .leased && l.wid == ((leased .leased 0).lease (rangeWord 5).first).wid) = none ∧
    (leased .leased 0).arrayIdle 5 = true ∧ ((leased .free 0).firstBad (rangeWord 5) fun l => l.st == .free) = none ∧
    ((leased .leased 0).firstBad (rangeWord 5) fun l => l.st == .free) = some 5 := by decide +kernel
theorem wit_ArraysChangeHands_grant : rangeBad ((leased .free 0 0).getS 4).toNat false = false ∧ ((leased .free 0 0).getS 5).toNat % 64 = 0 ∧
    (leased .free 0 0).spanCheck 512 0 64 .read = none ∧ (leased .free 0 0).spanCheck 512 16 8 .write = none ∧
    (leased .free 0 0).grantStatus (rangeWord 5) (leNat ((leased .free 0 0).peek 0 0 8)) (leNat ((leased .free 0 0).peek 0 8 8)) (leNat ((leased .free 0 0).peek 0 40 24)) = 0 := by decide +kernel
theorem wit_ArraysChangeHands_attest : (leased .erased 0 0).spanCheck 512 0x60 32 .read = none ∧ (leased .erased 0 0).spanCheck 512 0 (0x200 + 24) .write = none ∧
    ((leased .erased 0 0).firstBad (rangeWord 5) fun l => l.st == .erased && l.wid == ((leased .erased 0 0).lease (rangeWord 5).first).wid &&
      l.revocation == ((leased .erased 0 0).lease (rangeWord 5).first).revocation) = none := by decide +kernel

/-- World 1 with array 5 leased, which lies in bay 0 of core 0; s4 asks for an item of it. -/
def looking (w : Word) : State := { withS [(4, w)] with leases := [(5, { st := .leased, wid := 1, dormant := false })] }

theorem wit_ArraysChangeHands_astat : ((looking (5 + 3 * 2 ^ 18)).getS 4).toNat < 2 ^ 21 ∧ ((looking 5).lease 5).active 1 = true ∧ arrayCore 5 = coreOf 0 ∧
    ((looking 5).bay (bayOf 5)).writing = [] ∧ (looking 5).me.asking = none ∧ (leased .leased 0).joined (arrayDie 5) = true ∧ (looking (4 * 2 ^ 18)).firmware 0 = false := by decide +kernel

theorem wit_ArrayStatus_asking : let c : Cmd := { id := 9, eng := .s, kind := .stat [7] 4 5 1 1, ts := none, line := 4194304, lane := 1, base := 0, x := 0, atLane := true }
    let st : Stream := { busy with cmds := [c] }
    let b : Bay := { ops := [{ wid := 1, sid := 0, cmd := 7, an := 5, awrite := true }] }
    st.asking = some (c, [7]) ∧ (∃ x ∈ b.writing, x ∈ [7]) ∧ ∀ x ∈ ({} : Bay).writing, x ∉ [7] := by decide +kernel

/-- Stream 0 with a TRAP of service 5, EVIDENCE, at DVA 256, while stream 1 of its world has one under way. -/
def trapping : State := { withS [(4, 5), (5, 256)] with traps := [{ sid := 1, wid := 1, svc := 1, blk := 0 }] }

theorem wit_TrapReachesFirmware : trapping.me.trap = none ∧ (trapping.getS 4).toNat = 5 ∧ (trapping.getS 5).toNat = 256 ∧ trapping.widOf 0 ≠ 0 ∧
    trapping.spanCheck 0 256 (serviceSize 5) .read (serviceSize 5) = none ∧ trapping.spanCheck 0 (256 + serviceStatus 5) 8 .write 8 = none ∧
    (trapping.traps.find? fun q => q.wid == trapping.widOf 0) = some { sid := 1, wid := 1, svc := 1, blk := 0 } ∧
    (({ trapping with traps := [] } : State).traps.find? fun q => q.wid == trapping.widOf 0) = none ∧
    (withMe fun st => { st with trap := some true }).me.trap = some true := by decide +kernel

/-! ### Witnesses: engines, streams, launches -/

theorem wit_EnginesGoOn_fetch : small.quiet ∧ (small.stream 0).run = .running ∧ (small.stream 0).fetch.length < 64 ∧
    small.missingLine 0 64 ((small.stream 0).eng' .s).line = some 4194304 ∧ small.pageCheck (small.widOf 0) 0 4194304 32 .fetch = .ok (4194304, textPage) :=
  ⟨small_quiet, by decide, by decide, by decide +kernel, by rfl⟩

/-- `small` with V held in a way. -/
def heldV (e : EngState) (f : Stream → Stream := id) : State := withMe fun st => f (st.setEng .v e)

theorem wit_EnginesGoOn_token : (((heldV { hold := .token .s } fun st => { st with tokens := [(tokenKey .s .v, [true])] }).stream 0).eng' .v).hold = .token .s ∧
    ((heldV { hold := .token .s } fun st => { st with tokens := [(tokenKey .s .v, [true])] }).stream 0).fifo .s .v ≠ [] := by decide
theorem wit_EnginesGoOn_push : (((heldV { push := [.m] }).stream 0).eng' .v).push = [.m] ∧ ((heldV { push := [.m] }).stream 0).fifo .v .m = [] := by decide
theorem wit_EnginesGoOn_scalar : (((heldV { hold := .scalar } fun st => { st with scalars := [(2, [⟨7, 0⟩])] }).stream 0).eng' .v).hold = .scalar ∧
    Tab.get [] ((heldV { hold := .scalar } fun st => { st with scalars := [(2, [⟨7, 0⟩])] }).stream 0).scalars Engine.v.code ≠ [] ∧
    (match (heldV { hold := .scalar } fun st => { st with scalars := [(2, [⟨7, 0⟩])] }).laneOf 0 .v with | some (.qpush _ _) => false | _ => true) = true := by decide +kernel
theorem wit_EnginesGoOn_format : (((withMe fun st => st.setEng .s { atLine with hold := .format }).stream 0).eng' .s).hold = .format ∧ small.me.fmtq.length < 16 := by decide
theorem wit_EnginesGoOn_slip : (((heldV { atLine with hold := .slip }).stream 0).eng' .v).hold = .slip ∧ (heldV { atLine with hold := .slip }).slipOk 0 .v = true ∧ (heldV { atLine with hold := .slip }).queuesOpen 0 .v = true := by decide +kernel

/-- A WEVT of mask 4 that stream 0 waits with. -/
def aWait : Wait := { line := 4194304, lane := 2, instr := .wevt 3 4, ts := none, base := 0, x := 0 }

theorem wit_StreamsParkAndSwitch_park : ((withMe fun st => { st with wait := some aWait, eng := [1, 2, 3, 4, 5].map fun k => (k, { atLine with atEnd := true }) }).stream 0).drained = true ∧
    ((withMe fun st => { st with wait := some aWait }).stream 0).wait = some aWait := by decide +kernel
theorem wit_StreamsParkAndSwitch_tokens : (withMe fun st => { st with run := .parked, wait := some aWait }).pushClear 0 = true := by decide
theorem wit_StreamsParkAndSwitch_wake : ((withMe fun st => { st with run := .parked, wait := some aWait, evt := 4 }).stream 0).evt &&& 4 ≠ 0 ∧ aWait.ts = none ∧
    ((withMe fun st => { st with run := .parked, wait := some aWait }).stream 0).evt &&& 4 = 0 ∧ ((withMe fun st => { st with run := .parked }).stream 0).run = .parked := by decide

/-- Stream 0 parked in a wait for ring 0, which holds 2 of 4 slots filled, 3 claimed, for a memory word of 5, or at a barrier of episode 0; s4 and s5 are the
wait's operands. -/
def parkedIn (i : Instr) (a b : Word) (ep : Option Word := none) : State := (withMe fun st => { st with
  run := .parked, wait := some { aWait with instr := i, arrived := ep }, s := [(4, a), (5, b)] }).setCore 0 { small.core 0 with rings := [(0, { z := 32, n := 4, claim := 3, commit := 2 })] }
/-- The parked stream as its wait is looked at again. -/
def lookedAt (s : State) : State := { s with cur := { sid := 0, eng := .s, line := aWait.line, lane := aWait.lane, base := aWait.base, x := aWait.x, ts := none } }
theorem lookedAt_quiet (i : Instr) (a b : Word) (ep : Option Word) : (lookedAt (parkedIn i a b ep)).quiet := ⟨⟨rfl, rfl, rfl, rfl, rfl, rfl, idle _ rfl⟩, rfl, rfl, rfl, rfl, rfl, rfl⟩

theorem wit_StreamsParkAndSwitch_ring : let u (i : Instr) (a : Word) := lookedAt (parkedIn i a 0)
    (u (.wfill 0 4) 2).ringReady 0 = true ∧ ((u (.wfill 0 4) 2).getS 4).toNat ≤ ((u (.wfill 0 4) 2).myRing 0).filled ∧ ¬ ((u (.wfill 0 4) 3).getS 4).toNat ≤ ((u (.wfill 0 4) 3).myRing 0).filled ∧
    ((u (.wfree 0 4) 1).getS 4).toNat ≤ (((u (.wfree 0 4) 1).myRing 0).free + BitVec.ofNat 32 4 - ((u (.wfree 0 4) 1).myRing 0).claim).toNat ∧
    ¬ ((u (.wfree 0 4) 2).getS 4).toNat ≤ (((u (.wfree 0 4) 2).myRing 0).free + BitVec.ofNat 32 4 - ((u (.wfree 0 4) 2).myRing 0).claim).toNat ∧
    (parkedIn (.wfill 0 4) 2 0).pushClear 0 = true ∧ ((parkedIn (.wfill 0 4) 2 0).stream 0).run = .parked := by decide +kernel
theorem wit_StreamsParkAndSwitch_word : let u (a : Word) := lookedAt (parkedIn (.waitge 4 5 .dev 8) a 184)
    (u 5).target 0 (addrAdd ((u 5).getS 5) 8) 8 .read = .ok (.dram 192 dataPage) ∧ ((u 5).getS 4).toNat ≤ leNat (Memory.readList (u 5).mem 192 8) ∧
    (u 6).target 0 (addrAdd ((u 6).getS 5) 8) 8 .read = .ok (.dram 192 dataPage) ∧ ¬ ((u 6).getS 4).toNat ≤ leNat (Memory.readList (u 6).mem 192 8) := ⟨by rfl, by decide, by rfl, by decide⟩
theorem wit_StreamsParkAndSwitch_bar : let u (e : Word) := lookedAt (parkedIn (.bar 5 4) 2 192 (some e))
    (u 0).atomicTarget 0 ((u 0).getS 5).toNat 8 .read = .ok (192, dataPage) ∧ leNat (Memory.readList (u 0).mem 192 8) / 2 ^ 32 = (0 : Word).toNat ∧
    (u 3).atomicTarget 0 ((u 3).getS 5).toNat 8 .read = .ok (192, dataPage) ∧ leNat (Memory.readList (u 3).mem 192 8) / 2 ^ 32 ≠ (3 : Word).toNat := ⟨by rfl, by decide, by rfl, by decide⟩

/-- Core 0 with both streams in an iteration, stream 0 parked. -/
def twoUp : State := { small with streams := [(0, { busy with run := .parked }), (1, busy)], clock := 5000 }

theorem wit_StreamsParkAndSwitch_switch : (twoUp.stream 1).run = .running ∧ (twoUp.stream 0).run ≠ .running ∧ (twoUp.core 0).issuing = 0 ∧ (twoUp.core 0).gained + 4096 ≤ twoUp.clock ∧
    (small.stream 1).run ≠ .running ∧ ((small.setCore 0 { small.core 0 with switch := true }).core 0).switch = true := by decide
/-- Stream 0 has drained the block that its YIELD ended; its engines stand at the start of the next. -/
def yielded : State := withMe fun st => { st with yielding := true }
theorem wit_StreamsParkAndSwitch_yield : twoUp.yields 0 = false ∧ (twoUp.stream 0).finishing = false ∧ yielded.yields 0 = true ∧ (yielded.stream 0).finishing = false ∧
    (yielded.core 0).issuing = 0 ∧ ((twoUp.setCore 0 { twoUp.core 0 with switch := true }).core 0).issuing < 2 ∧ (small.setCore 0 { small.core 0 with switch := true }).yields 0 = false := by decide +kernel
/-- Stream 0 has yielded with a move pending. -/
theorem wit_StreamsParkAndSwitch_move : let s : State := { small with streams := [(0, { busy with yielding := true, migrate := some 2 }), (1, busy)] }
    (s.stream 1).run = .running ∧ (s.stream 0).run = .running ∧ (s.stream 0).ended = false ∧ (s.stream 0).yielding = true ∧ (s.stream 0).migrate ≠ none := by decide +kernel
theorem wit_StreamsParkAndSwitch_stall : isService 0 = false ∧ ((withMe fun st => { st with wdog := 5 }).stream 0).wdog ≠ 0 ∧
    ({ withMe (fun st => { st with wdog := 5 }) with now := 5000 }.stream 0).progAt + ({ withMe (fun st => { st with wdog := 5 }) with now := 5000 }.stream 0).wdog.toNat * 1000 ≤ 5000 := by decide

/-- Die 0 with one free core and a record of world 1 for it, whose completion word is at DVA 512. -/
def aLaunch : Launch where
  id := 3
  wid := 1
  dva := 1024
  text := 4194304
  prio := 0
  wide := false
  clusters := 0
  levels := [(1, 0, 0)]
  args := 7
  doneWord := 512
  event := 2 ^ 63
  range := 0
  mask := none
  dies := [0]
  total := 1
def finishedStream : Stream := { busy with
  ident := { wid := 1, launch := 3, die := 0 }
  eng := [1, 2, 3, 4, 5].map fun k => (k, { atLine with atEnd := true, ended := true }) }
def launching : State := { small with launches := [aLaunch], streams := [(0, finishedStream)] }

/-- Core 0 with its 64 key slots held by other worlds, each with a store on its way. -/
def crowded : State := { launching.setCore 0 { launching.core 0 with keys := (List.range 64).map (· + 2) } with
  atGrp := (List.range 64).map fun k => { atHomeDoor with id := k, wid := k + 2 } }

theorem wit_IterationsRun_place : (launching.winner 0).map (fun p => (p.1, p.2.1)) = some (aLaunch, 0) ∧ launching.joined 0 = true ∧ launching.sec.lockdown = 0 ∧ launching.spanClear 0 1 (launching.queueBase 1 0x10) 64 = true ∧
    launching.keyRoom 0 1 = true ∧ crowded.keyRoom 0 1 = false ∧ launching.rangeClear aLaunch 0 = true ∧
    ({ launching with links := [(4, { fails := 1 })], streams := [(128, { busy with range0 := [(0, 1)] })] } : State).rangeClear aLaunch 0 = false := by decide +kernel
theorem wit_IterationsRun_end : launching.quiet ∧ (launching.stream 0).finished = true ∧ (launching.stream 0).migrate = none ∧
    launching.launches.find? (fun x => x.id == (launching.stream 0).ident.launch) = some aLaunch ∧ aLaunch.doneWord ≠ 0 ∧ launching.doneWordAt (launching.stream 0).ident.wid 512 = some 512 :=
  ⟨⟨⟨rfl, rfl, rfl, rfl, rfl, rfl, idle _ rfl⟩, rfl, rfl, rfl, rfl, rfl, rfl⟩, by decide +kernel, by decide +kernel, by decide +kernel, by decide, by decide +kernel⟩
theorem wit_IterationsRun_event : ([{ aLaunch with done := 1 }].find? fun x => x.wid == 1 && decide (x.total ≤ x.done)) = some { aLaunch with done := 1 } ∧
    2 ^ 63 ≤ aLaunch.event ∧ isService (aLaunch.event % 1024) = false ∧ (launching.stream (aLaunch.event % 1024)).run ≠ .free ∧ (launching.stream 0).ident.wid = 1 := by decide +kernel
/-- The event word in the record's slot, none and one of stream 0, and a slot that a newer record has. -/
theorem wit_IterationsRun_slot : let s (m : Memory) : State := { launching with mem := m }
    (s []).slotStands aLaunch = true ∧ leNat ((s []).unitRead 1023 1 (1024 + 0x60) 8).2 < 2 ^ 63 ∧
    2 ^ 63 ≤ leNat ((s (Memory.writeList [] (1024 + 0x60) (leBytes 8 (2 ^ 63)))).unitRead 1023 1 (1024 + 0x60) 8).2 ∧
    (s (Memory.writeList [] 0 (leBytes 8 100))).slotStands aLaunch = false := by decide +kernel

/-- `queues` with one launch record in world 1's launch queue: one iteration from the text page, on every cluster. -/
def recorded (clusters : Nat) : State := { queues 1 with mem := Memory.writeList (queues 1).mem (65536 + 4096 * 16 + 64) (leBytes 8 4194304 ++ leBytes 8 (8192 * clusters) ++ leBytes 4 1) }
theorem recorded_quiet (n : Nat) : (recorded n).quiet := ⟨⟨rfl, rfl, rfl, rfl, rfl, rfl, idle _ rfl⟩, rfl, rfl, rfl, rfl, rfl, rfl⟩
def recBytes (s : State) : List Byte := (s.unitRead 1023 1 (s.queueBase 1 0x10 + 64 + 128 * ((s.queueHead 1 0x10 + (s.world 1).taken.length) % s.queueSize 1 0x10)) 128).2
def recLaunch (s : State) : Launch := s.parseRecord 1 (s.queueBase 1 0x10 + 64) 0 (recBytes s) none
theorem wit_IterationsRun_take : (recorded 1).live 1 = true ∧ (recorded 1).joined 0 = true ∧
    (recorded 1).queueHead 1 0x10 + ((recorded 1).world 1).taken.length = 0 ∧ (recorded 1).queueTail 1 0x10 ≠ 0 ∧ recWord (recBytes (recorded 1)) 0x70 = 0 ∧
    (recorded 1).refused 1 (recBytes (recorded 1)) (recLaunch (recorded 1)) = false ∧ 0 ∈ (recLaunch (recorded 1)).dies ∧
    (recorded 0).refused 1 (recBytes (recorded 0)) (recLaunch (recorded 0)) = true := by decide +kernel

/-! ### Witnesses: V, F, M, bays -/

/-- `small` with scalars of an engine set. -/
def withE (e : Engine) (l : List (Nat × Word)) (f : Stream → Stream := id) : State := withMe fun st => f { st with e := [(e.code, l)] }
theorem withE_quiet (e : Engine) (l : List (Nat × Word)) (f : Stream → Stream) (h : (withE e l f).me.early = []) : (withE e l f).quiet := withMe_quiet _ h
theorem small_acquired (e : Engine) : small.acquired e := fun _ => rfl

theorem wit_VectorElements : small.acquired .v ∧ isFloat small.vty = true ∧ isFloat (withMe fun st => { st with vty := .i32 }).vty = false := ⟨fun _ => rfl, by decide, by decide⟩
theorem wit_ElementArithmetic : isFloat .i32 = false ∧ isFloat .f32 = true ∧ 0x3F800000 < 2 ^ tyBits .f32 ∧ decodeFloat .f32 0x3F800000 ≠ .nan ∧ decodeFloat .f32 0x7FC00000 = .nan := by decide +kernel
/-- Finite operands, infinities, a product that is infinite and one that is no number, and a value beyond the largest bf16. -/
theorem wit_ElementArithmetic_cases : decodeFloat .f16 0x3C01 = .fin false 1025 (-10) ∧ decodeFloat .f16 0x8000 = .fin true 0 (-24) ∧ decodeFloat .f16 0x7C00 = .inf false ∧ decodeFloat .f16 0xFC00 = .inf true ∧
    mulAt .f16 0x7C00 0x3C01 = infBits .f16 false ∧ mulAt .f16 0x7C00 0x8000 = cnan .f16 ∧ (0x8000 : Nat) < 2 ^ tyBits .f16 ∧ (2 ^ (fracBits .bf16 + 2) - 1) * 2 ^ 0 ≤ 1022 * 2 ^ ((118 : Int) - 118).toNat := by decide +kernel
theorem wit_ElementArithmetic_below : decodeFloat .f16 0x3C00 = .fin false 1024 (-10) ∧ Below (.fin false 1024 (-10)) (.fin false 1025 (-10)) ∧
    Below (decodeFloat .f16 0x8000) (decodeFloat .f16 0) ∧ Below (decodeFloat .f16 0xFC00) (decodeFloat .f16 0x7C00) :=
  ⟨by decide, .inl ⟨-10, by decide, by decide, by decide⟩, .inr ⟨-24, -24, by decide, by decide⟩, .inl ⟨by decide, by decide⟩⟩
/-- Source values and scales of every kind, an integer at an end of the residue range, and a residue word of −1 (Table 5.2). -/
theorem wit_ElementConversions : sourceValue .i8 0x80 = .fin true 128 0 ∧ sourceValue .n8 0x80 = .fin false 128 0 ∧ sourceValue .bf16 0xFF80 = .inf true ∧ sourceValue .f16 0x7E00 = .nan ∧
    decodeFloat .f32 0x43000000 = .fin false 8388608 (-16) ∧ decodeFloat .f32 0xFF800000 = .inf true ∧ decodeFloat .f32 0x7FC00000 = .nan ∧
    (-1 : Int) % 255 = ((0x0100FFFE : Nat) % 256 % 255 : Nat) ∧ (-1 : Int) % 256 = ((0x0100FFFE : Nat) / 256 % 256 : Nat) ∧ (-1 : Int) % 257 = ((0x0100FFFE : Nat) / 65536 % 512 % 257 : Nat) := by decide +kernel
theorem wit_VectorMoves : small.acquired .v ∧ Ty.f32.code < 6 ∧ (bitwiseRed .add = false ∨ isFloat small.vty = false) ∧ (bitwiseRed .and = true ∧ isFloat small.vty = true) ∧
    (4 : VReg).val + cvtCount .f32 .bf16 * tyBytes .f32 / 1024 ≤ 32 ∧ (8 : VReg).val + cvtCount .f32 .bf16 * tyBytes .bf16 / 1024 ≤ 32 := ⟨fun _ => rfl, by decide, by decide, by decide, by decide, by decide⟩
theorem wit_VectorMemory_rows : (withE .v [(4, 1024)]).acquired .v ∧ (withE .v [(4, 1024)]).quiet ∧ ((withE .v [(4, 1024)]).core 0).spBad = [] ∧
    ((withE .v [(4, 1024)]).core 0).windows = [] ∧ (addrAdd ((withE .v [(4, 1024)]).getE .v 4) (1024 * (-1))) % 32 = 0 ∧
    (addrAdd ((withE .v [(4, 1024)]).getE .v 4) (1024 * (-1))) + 1024 ≤ (withE .v [(4, 1024)]).me.spSize := ⟨fun _ => rfl, withE_quiet _ _ _ rfl, by decide, by decide, by decide, by decide⟩
theorem wit_VectorMemory_lanes : sizeBytes .w = tyBytes (withE .v [(4, 1024)]).vty ∧ ∀ k < (withE .v [(4, 1024)]).lanes, ((withE .v [(4, 1024)]).getM 0).getLsbD k = true →
    ((1024 : Nat) : Int) = ((withE .v [(4, 1024)]).getE .v 4).toNat + signed (8 * 4) ((withE .v [(4, 1024)]).lane 7 k) * 4 ∧ 1024 % 4 = 0 ∧ 1024 + 4 ≤ (withE .v [(4, 1024)]).me.spSize := by decide +kernel

/-- Conditional stream 0 with one full row and one lane of the next. -/
def filling : State := withMe fun st => { st with cond := [(0, { ready := 1, counts := [256], partialCount := 1, width := 4 })], vq := [{ data := 5, status := 0 }] }

theorem wit_VectorQueues_stream : filling.acquired .v ∧ filling.quiet ∧ filling.vty.code < 6 ∧ (filling.me.condStream 0).width = tyBytes filling.vty ∧
    (filling.me.condStream 0).ready + ((filling.me.condStream 0).partialCount + (filling.selected 0).length + filling.lanes - 1) / filling.lanes ≤ 16 ∧
    0 < (filling.me.condStream 0).partialCount ∧ (filling.me.condStream 0).partialCount < filling.lanes ∧ 0 < (filling.me.condStream 0).ready :=
  ⟨fun _ => rfl, withMe_quiet _ rfl, by decide, by decide, by decide +kernel, by decide, by decide, by decide⟩
theorem wit_VectorQueues_other : (small.me.condStream 0).isEmpty = true ∧ (small.me.condStream 0).ready = 0 ∧ (small.me.condStream 0).partialCount = 0 ∧
    filling.me.vq = ⟨5, 0⟩ :: [] ∧ (0 : Word).getLsbD 32 = false ∧ small.me.vq = [] := by decide +kernel
theorem wit_SpecialFunctions : isFloat .bf16 = true ∧ decodeFloat .bf16 0x7FC0 = .nan ∧ (∃ n e, decodeFloat .bf16 0xBF80 = .fin true n e ∧ n ≠ 0) ∧
    (∀ w ∈ Tab.get [] small.me.fRace 1, w.eng ≠ .f → w.idx ≤ (small.me.knows .f).of w.eng) := ⟨by decide, by decide +kernel, ⟨_, _, rfl, by decide +kernel⟩, by decide⟩
theorem wit_ResidueNumbers : (-8388480 : Int) ≤ -8388480 ∧ (-8388480 : Int) ≤ 8388479 := by decide
theorem wit_MatrixRows : (withE .m [(4, 256)]).quiet ∧ (withE .m [(4, 256)]).acquired .m ∧ ((withE .m [(4, 256)]).getE .m 4).toNat % 256 = 0 ∧
    ((withE .m [(4, 256)]).getE .m 4).toNat + 32768 ≤ (withE .m [(4, 256)]).me.spSize ∧ ((withE .m [(4, 256)]).core 0).spBad = [] ∧
    ∀ k ∈ (withE .m [(4, 256)]).me.cmds, k.eng = .m → k.done = true := ⟨withE_quiet _ _ _ rfl, fun _ => rfl, by decide, by decide, by decide, by decide⟩

/-- An i8 pass of 32 activations by 8-bit codes to i32 rows, from array 5 of core 0, which world 1 holds; M issues. -/
def passFmt : Word := BitVec.ofNat 64 (5 + 7 * 16 + 3 * 256 + 31 * 65536)
def passing : State :=
  let u := withE .m [(4, 1024), (5, 5), (6, 1)] fun st => { st with fmtq := [passFmt] }
  { u with leases := [(5, { st := .leased, wid := 1 })], cur := { u.cur with eng := .m } }

theorem wit_PassesIssue_pass : passing.quiet ∧ (passing.core 0).spBad = [] ∧ (passing.core 0).windows.length < 8 ∧ (passing.getE .m 4).toNat = 1024 ∧ (passing.getE .m 5).toNat = 5 ∧
    passing.mayUse 0 5 = true ∧ passing.me.fmtq = passFmt :: [] ∧ fmtBad passFmt ((fmtOf passFmt).tr || false) (some passing.me.spSize) = false ∧ (fmtOf passFmt).src = false ∧
    (31 : VReg).val + (fmtOf passFmt).nrow ((fmtOf passFmt).tr || false) ≤ 32 ∧ 1024 % 32 = 0 ∧ 1024 + (fmtOf passFmt).nb ((fmtOf passFmt).tr || false) ≤ passing.me.spSize ∧
    ((passing.bay (bayOf 5)).ops.filter fun o => o.sid == 0 && !o.awrite).length < 8 ∧ passing.savedWrite 5 = false ∧ small.me.fmtq = [] ∧ small.me.standing .m = none :=
  ⟨⟨⟨rfl, rfl, rfl, rfl, rfl, rfl, idle _ rfl⟩, rfl, rfl, rfl, rfl, rfl, rfl⟩, by decide, by decide, by decide, by decide, by decide +kernel, by decide, by decide +kernel, by decide, by decide, by decide, by decide, by decide +kernel, by decide +kernel, by decide, by decide +kernel⟩
theorem wit_PassesIssue_awrite : (passing.getE .m 6).toNat = 1 ∧ (awriteRows 0 1 0).length = 1 ∧ 1024 % 1024 = 0 ∧ 1024 + 1024 * 1 ≤ passing.me.spSize ∧
    (passing.lease 5).rsv = 0 ∧ passing.writesIn (passing.bay (bayOf 5)) < 4 := by decide +kernel
theorem wit_PassesIssue_mgo : (passing.core 0).windows.length < 8 ∧ passing.me.standing .m = none ∧ passing.me.fmtq = passFmt :: [] ∧ fmtBad passFmt (fmtOf passFmt).tr none = false ∧
    nestBad passing.me.nestShadow (fmtOf passFmt) passing.me.spSize = none := by decide +kernel

/-- A nest of one pass from the scratchpad, in M's hands, before and after it is done. -/
def srcFmt : Word := BitVec.ofNat 64 (5 + 5 * 16 + 3 * 256 + 2 ^ 14 + 31 * 65536)
/-- M with the format of a pass over the active plane, of i8 or of bf16, and the ready row of the MPASS free of M's commands. -/
def planeFmt (ty : Ty) : Word := BitVec.ofNat 64 (ty.code + ty.code * 16 + (if ty = .i8 then 3 else 0) * 256 + 2 ^ 14 + 31 * 65536)
def planar (ty : Ty) : State := passing.setMe { passing.me with fmtq := [planeFmt ty] }

theorem wit_PassesIssue_plane : (planar .i8).acquired .m ∧ ∀ ty ∈ [Ty.i8, Ty.bf16], (planar ty).me.fmtq = planeFmt ty :: [] ∧
    fmtBad (planeFmt ty) ((fmtOf (planeFmt ty)).tr || false) (some (planar ty).me.spSize) = false ∧ (fmtOf (planeFmt ty)).src = true ∧ (fmtOf (planeFmt ty)).at' = ty.code ∧
    (ty = .i8 → (fmtOf (planeFmt ty)).ot = 3) ∧ (fmtOf (planeFmt ty)).scl = false ∧ ((fmtOf (planeFmt ty)).acc || false) = false ∧ ((planar ty).getE .m 4).toNat = 1024 ∧
    1024 + (fmtOf (planeFmt ty)).nb ((fmtOf (planeFmt ty)).tr || false) ≤ (planar ty).me.spSize ∧ (planar ty).me.tileBusy 31 1 none = false :=
  ⟨fun _ => rfl, by decide +kernel⟩
def nestCmd (d : Bool) : Cmd := { id := 9, eng := .m, kind := .nest srcFmt, ts := none, line := 4194304, lane := 1, base := 0, x := 0, atLane := true, done := d }
def nesting (d : Bool) : State :=
  let u := withMe fun st => { st with cmds := [nestCmd d] }
  u.setCore 0 { u.core 0 with lastWid := [(3, 2)] }

theorem wit_PassesIssue_stands : (nesting true).me.standing .m = some (nestCmd true) ∧ (nestCmd true).done = true ∧ (nesting false).me.standing .m = some (nestCmd false) ∧ (nestCmd false).done = false := by decide +kernel
theorem wit_PassesIssue_nest : 0 < nestTotal [] ∧ ((nesting false).stream 0).nestCmd = some (nestCmd false) ∧ ((nesting false).stream 0).tileBusy 0 ((fmtOf srcFmt).nrow (fmtOf srcFmt).tr) (some 9) = false ∧ (nesting false).nestOps 9 = [] ∧ (nestCmd false).faulted = false ∧ (nesting false).mayIssue 0 = true ∧ (nesting false).enterWorld 0 .m = some (nesting false) ∧
    (nestAt ((nesting false).stream 0).nestActive 1 (nestIndex (nestExts ((nesting false).stream 0).nestActive) 0)).toNat % 32 = 0 ∧ ((nesting false).core 0).spBad = [] ∧ (fmtOf srcFmt).src = true := by decide +kernel

/-- The same of a nest whose passes are on array 0 of core 0, which world 1 holds. -/
def arrayNest : State :=
  let c : Cmd := { nestCmd false with kind := .nest (BitVec.ofNat 64 (5 + 7 * 16 + 3 * 256 + 31 * 65536)) }
  let u := withMe fun st => { st with cmds := [c] }
  { u.setCore 0 { u.core 0 with lastWid := [(3, 2)] } with leases := [(0, { st := .leased, wid := 1 })] }

theorem wit_NestRuns_array : (arrayNest.stream 0).nestCmd.isSome = true ∧ arrayNest.enterWorld 0 .m = some arrayNest ∧ arrayNest.mayIssue 0 = true ∧ arrayNest.mayUse 0 0 = true ∧
    (nestAt (arrayNest.stream 0).nestActive 2 (nestIndex (nestExts (arrayNest.stream 0).nestActive) 0)).toNat = 0 ∧ (arrayNest.bay (bayOf 0)).ops = [] ∧
    arrayNest.savedWrite 0 = false ∧ (fmtOf (BitVec.ofNat 64 (5 + 7 * 16 + 3 * 256 + 31 * 65536))).src = false := by decide +kernel

/-- Array 5 of world 1 with a pass in its bay. -/
def passCmd : Cmd := { id := 9, eng := .m, kind := .pass 0 5 2 false false passFmt, ts := none, line := 4194304, lane := 1, base := 0, x := 0 }
def passOp : BayOp := { wid := 1, sid := 0, cmd := 9, an := 5, awrite := false }
def inBay : State := { withMe fun st => { st with cmds := [passCmd] } with leases := [(5, { st := .leased, wid := 1 })], bays := [(0, { ops := [passOp] })] }

theorem no_notes {st : Stream} {c : Cmd} (h : st.cmds = [c]) (hc : ∀ g, c.kind ≠ .note g) : ∀ x ∈ st.cmds, ∀ g, x.kind ≠ .note g := by simp [h, hc]

theorem wit_ArrayPassSums : inBay.turnOf 0 = some (passOp, (1, false)) ∧ passOp.awrite = false ∧ inBay.passOf passOp = some passCmd ∧ inBay.passFault passOp = none ∧
    (fmtOf passFmt).src = false ∧ (fmtOf passFmt).z4 = false ∧ (fmtOf passFmt).ot = 3 ∧ (fmtOf passFmt).acc = false ∧ (fmtOf passFmt).tr = false ∧ (fmtOf passFmt).scl = false ∧
    (∀ n, (inBay.stream 0).unknown .m n = []) ∧ (∀ x ∈ (inBay.stream 0).cmds, ∀ g, x.kind ≠ .note g) :=
  ⟨by decide +kernel, rfl, by decide +kernel, by decide +kernel, by decide, by decide, by decide, by decide, by decide, by decide, fun _ => rfl,
    no_notes rfl fun _ h => nomatch h⟩

/-- Array 5 of world 1 with an AWRITE of its row 0 in its bay, and an erase of array 6 of the bay at its second pulse. -/
def rowCmd : Cmd := { id := 9, eng := .m, kind := .awrite 1024 5 0 1 0, ts := none, line := 4194304, lane := 1, base := 0, x := 0 }
def rowOp : BayOp := { wid := 1, sid := 0, cmd := 9, an := 5, awrite := true }
def writing : State := { withMe fun st => { st with awrites := [rowCmd] } with leases := [(5, { st := .leased, wid := 1 })], bays := [(0, { ops := [rowOp] })] }
def erasing (pulses : Nat) : State := { small with leases := [(6, { st := .evicting, wid := 1, pulses := pulses })] }

theorem wit_RowsProgrammed_write : writing.turnOf 0 = some (rowOp, (1, false)) ∧ rowOp.awrite = true ∧ writing.writeOf rowOp = some ⟨0, rowCmd, none⟩ ∧ (awriteRows 0 1 0).getD rowCmd.pos 0 = 0 ∧
    writing.readClear 1 (arrayCore 5) (.sp (coreOf 0) 0) = true := by decide +kernel
/-- The same of an iteration that has ended, whose row the window kept. -/
theorem wit_RowsProgrammed_left : let s : State := { small with leases := [(5, { st := .leased, wid := 1 })], bays := [(0, { ops := [rowOp], left := [(0, rowCmd, [(3, 7)])] })] }
    s.turnOf 0 = some (rowOp, (1, false)) ∧ s.writeOf rowOp = some ⟨0, rowCmd, some [(3, 7)]⟩ := by decide +kernel
theorem wit_RowsProgrammed_checkpoint : small.boot.stage = 2 := by decide
theorem wit_RowsProgrammed_erase : (erasing 0).arbiter 0 = some (0, false) ∧ (erasing 5).arbiter 0 = some (0, false) ∧ (erasing 0).eraseTarget 0 = some 6 ∧ ((erasing 5).lease 6).pulses = 5 ∧
    (0 : Nat) < ({ erasing 0 with now := 1 } : State).now + Config.relaxation 0 := ⟨by decide +kernel, by decide +kernel, by decide +kernel, by decide, by show 0 < 1 + Config.relaxation 0; omega⟩

/-! ### Witnesses: copies, flags, scanned regions -/

/-- The descriptor a plan copies by. -/
def planned : Plan → Option CopyDesc
  | .copy d => some d
  | _ => none
theorem copy_of {p : Plan} {d : CopyDesc} (h : planned p = some d) : p = .copy d := by cases p <;> simp_all [planned]
theorem ok_of {x : Except FaultInfo α} {a : α} (h : x.toOption = some a) : x = .ok a := by cases x <;> simp_all [Except.toOption]
theorem wit_LoadsAndOrder_windows : (withS [(4, BitVec.ofNat 64 (spDva + 64))]).target 0 (addrAdd ((withS [(4, BitVec.ofNat 64 (spDva + 64))]).getS 4) 8) 8 .read = .ok (.sp 0 72) ∧
    Tab.get false ((withS []).core 0).spBad (72 / 64) = false ∧
    (withS [(4, 0xFF8000100000)]).target 0 (addrAdd ((withS [(4, 0xFF8000100000)]).getS 4) 16) 8 .read = .ok (.ring 0 0 2 0) := ⟨ok_of (by decide +kernel), by decide, ok_of (by decide +kernel)⟩

/-- A copy of 8 elements of 8 bytes, its descriptor at the foot of the scratchpad half; a gather of 2 rows at 256. -/
def someCopy (n : Nat) : CopyDesc := { src := 512, dst := 1024, esize := 8, dims := [(n, 8, 8)] }
def someGather (n : Nat) : CopyDesc := { src := 4096, dst := 8192, esize := 32, dims := [(1, 32, 32), (n, 32, 32)], index := some (spDva + 1024, 32) }
def copyBytes (n : Nat) : List Byte := leBytes 8 512 ++ leBytes 8 1024 ++ leBytes 8 0x30 ++ leBytes 8 0 ++ leBytes 4 n ++ leBytes 8 8 ++ leBytes 8 8
def gatherBytes (n : Nat) : List Byte := leBytes 8 4096 ++ leBytes 8 8192 ++ leBytes 8 (spDva + 1024) ++ leBytes 4 n ++ leBytes 4 32
def copying (n : Nat) : State :=
  let u := withE .c [(4, BitVec.ofNat 64 spDva), (5, 2048), (6, 3), (7, BitVec.ofNat 64 (spDva + 256))]
  u.setCore 0 { u.core 0 with sp := Memory.writeList (Memory.writeList [] 0 (copyBytes n)) 256 (gatherBytes n) }
theorem copying_quiet (n : Nat) : (copying n).quiet := ⟨⟨rfl, rfl, rfl, rfl, rfl, rfl, idle _ rfl⟩, rfl, rfl, rfl, rfl, rfl, rfl⟩
def bytesOf (n a l : Nat) : List Byte := Memory.readList ((copying n).core 0).sp a l

theorem wit_CopiesRun_copy : (copying 8).roomC = true ∧ ((copying 8).core 0).windows.length < 8 ∧ (copying 8).me.owed < 16 ∧
    ((copying 8).readDescriptor 0 ((copying 8).getE .c 4).toNat 192).2 = .ok (bytesOf 8 0 192) ∧ copyPlan ((copying 8).getE .c 4).toNat (bytesOf 8 0 192) = .copy (someCopy 8) ∧
    (someCopy 8).total ≠ 0 ∧ (copying 8).flagCheck 0 ((copying 8).getE .c 5).toNat ((copying 8).getE .c 6) .dev false = none :=
  ⟨by decide, by decide, by decide, ok_of (by decide +kernel), copy_of (by decide +kernel), by decide, by decide +kernel⟩
theorem wit_CopiesRun_empty : ((copying 0).readDescriptor 0 ((copying 0).getE .c 4).toNat 192).2 = .ok (bytesOf 0 0 192) ∧ copyPlan ((copying 0).getE .c 4).toNat (bytesOf 0 0 192) = .copy (someCopy 0) ∧
    (someCopy 0).total = 0 := ⟨ok_of (by decide +kernel), copy_of (by decide +kernel), by decide⟩
theorem wit_CopiesRun_gather : ((copying 2).readDescriptor 0 ((copying 2).getE .c 7).toNat 64).2 = .ok (bytesOf 2 256 64) ∧ (copying 2).gatherPlan 0 (bytesOf 2 256 64) = .copy (someGather 2) ∧
    (someGather 2).total ≠ 0 := ⟨ok_of (by decide +kernel), copy_of (by decide +kernel), by decide⟩
theorem wit_CopiesRun_bank : ((copying 2).getE .c 4).toNat % 1024 = 0 ∧ ((copying 2).getE .c 5).toNat % 1024 = 0 ∧ ((copying 2).getE .c 6).toNat ≠ 0 := by decide

def copyCmd (pos : Nat) (k : CmdKind) : Cmd := { id := 9, eng := .c, kind := k, pos := pos, ts := none, line := 4194304, lane := 1, base := 0, x := 0 }
def underWay (c : Cmd) : State := withMe fun st => { st with cmds := [c] }
theorem underWay_no_notes (c : Cmd) (hc : ∀ g, c.kind ≠ .note g) : ∀ x ∈ ((underWay c).stream 0).cmds, ∀ g, x.kind ≠ .note g := no_notes rfl hc

theorem wit_CopiesRun_step : (∀ k, ((underWay (copyCmd 0 (.copy (someCopy 8) none))).core k).spBad = []) ∧
    ((underWay (copyCmd 0 (.copy (someCopy 8) none))).stream 0).working[0]? = some (copyCmd 0 (.copy (someCopy 8) none)) ∧
    (underWay (copyCmd 0 (.copy (someCopy 8) none))).cmdsRun 0 = true ∧ 0 < (someCopy 8).total ∧ 8 = (someCopy 8).stepLen ((someCopy 8).stepKey 0) ((someCopy 8).total - 0) 0 ∧
    (underWay (copyCmd 0 (.copy (someCopy 8) none))).cmdHeld 0 (copyCmd 0 (.copy (someCopy 8) none)) = false ∧
    (∀ i < 8, (underWay (copyCmd 0 (.copy (someCopy 8) none))).target 0 ((underWay (copyCmd 0 (.copy (someCopy 8) none))).srcAt 0 (someCopy 8) (0 + i)) 8 .read = .ok (.dram (512 + 8 * i) dataPage)) ∧
    (∀ i < 8, (underWay (copyCmd 0 (.copy (someCopy 8) none))).target 0 ((someCopy 8).dstAt (0 + i)) 8 .write = .ok (.dram (1024 + 8 * i) dataPage)) ∧
    (∀ j < 8, ∀ i < j, (Loc.dram (1024 + 8 * i)).meets 8 (.dram (1024 + 8 * j)) 8 = false ∧ (Loc.dram (1024 + 8 * i)).meets 8 (.dram (512 + 8 * j)) 8 = false) :=
  ⟨fun k => by by_cases h : k = 0 <;> simp [underWay, withMe, small, State.reset, State.core, State.setMe, State.setStream, Tab.get, Core.reset, h], by decide +kernel, by decide +kernel, by decide, by decide +kernel, by decide +kernel,
    fun i h => ok_of (by revert i; decide +kernel), fun i h => ok_of (by revert i; decide +kernel), by decide +kernel⟩

/-- The same from and to the scratchpad. -/
def inward : CopyDesc := { someCopy 8 with dst := spDva + 1024 }
def outward : CopyDesc := { someCopy 8 with src := spDva + 1024 }
theorem wit_CopiesRun_scratchpad : 8 = inward.stepLen (inward.stepKey 0) (inward.total - 0) 0 ∧ 8 = outward.stepLen (outward.stepKey 0) (outward.total - 0) 0 ∧
    (∀ i < 8, (underWay (copyCmd 0 (.copy inward none))).target 0 (inward.dstAt (0 + i)) 8 .write = .ok (.sp 0 (1024 + 8 * i))) ∧
    (∀ i < 8, (underWay (copyCmd 0 (.copy outward none))).target 0 ((underWay (copyCmd 0 (.copy outward none))).srcAt 0 outward (0 + i)) 8 .read = .ok (.sp 0 (1024 + 8 * i))) ∧
    (underWay (copyCmd 0 (.copy inward none))).cmdHeld 0 (copyCmd 0 (.copy inward none)) = false ∧ (underWay (copyCmd 0 (.copy outward none))).cmdHeld 0 (copyCmd 0 (.copy outward none)) = false ∧
    (∀ j < 8, ∀ i < j, (Loc.sp 0 (1024 + 8 * i)).meets 8 (.sp 0 (1024 + 8 * j)) 8 = false ∧ (Loc.sp 0 (1024 + 8 * i)).meets 8 (.dram (512 + 8 * j)) 8 = false) :=
  ⟨by decide +kernel, by decide +kernel, fun i h => ok_of (by revert i; decide +kernel), fun i h => ok_of (by revert i; decide +kernel), by decide +kernel, by decide +kernel, by decide +kernel⟩

/-- A copy of a whole row into the C→V FIFO. -/
def toFifo : CopyDesc := { src := 512, dst := 0, esize := 8, dims := [(2, 8, 8)], toVq := true }
theorem wit_CopiesRun_fifo : toFifo.toVq = true ∧ ((underWay (copyCmd 0 (.copy toFifo none))).stream 0).owed ≤ 16 ∧ 2 = toFifo.stepLen (toFifo.stepKey 0) (toFifo.total - 0) 0 ∧
    (((underWay (copyCmd 0 (.copy toFifo none))).stream 0).cmds.find? fun x => x.delivers).map (·.id) = some 9 ∧
    ∀ i < 2, (underWay (copyCmd 0 (.copy toFifo none))).mayReadC 0 (copyCmd 0 (.copy toFifo none)) ((underWay (copyCmd 0 (.copy toFifo none))).srcAt 0 toFifo (0 + i)) 8 = true := by decide +kernel

def flagged (f : Nat) (v : Word) : CmdKind := .copy (someCopy 8) (some (f, v, .dev, false))
def flagCmd (f : Nat) (v : Word) : Cmd := copyCmd 8 (flagged f v)
theorem wit_FlagsAndFlips_word : ((underWay (flagCmd 2048 3)).stream 0).working[0]? = some (flagCmd 2048 3) ∧ ((underWay (flagCmd 2048 3)).stream 0).working.head?.map (·.id) = some 9 ∧
    (underWay (flagCmd 2048 3)).cmdsRun 0 = true ∧ (someCopy 8).total ≤ (flagCmd 2048 3).pos ∧ (underWay (flagCmd 2048 3)).flagCheck 0 2048 3 .dev false = none ∧
    (underWay (flagCmd 2048 3)).gateAt 1 2048 = none ∧ (underWay (flagCmd 2048 3)).target 0 2048 8 .write = .ok (.dram 2048 dataPage) :=
  ⟨by decide +kernel, by decide +kernel, by decide +kernel, by decide, by decide +kernel, by decide +kernel, by rfl⟩

/-- The same with its flag at the gate of `gated`. -/
def gateFlag : State := { underWay (flagCmd 256 1) with gates := gated.gates }
theorem wit_FlagsAndFlips_gate : gateFlag.flagCheck 0 256 1 .dev false = none ∧ gateFlag.gateAt (gateFlag.widOf 0) 256 = some itsGate ∧ itsGate.flipping = false ∧
    itsGate.permits (dieOf (coreOf 0)) = true := by decide +kernel
theorem wit_FlagsAndFlips_flag : gateFlag.widOf 0 = 1 ∧ ({ gateFlag with streams := [(0, { busy with cmds := [{ flagCmd 256 1 with admitted := true }] })] } : State).me.flipping = none ∧
    (({ gateFlag with streams := [(0, { busy with cmds := [{ flagCmd 256 1 with admitted := true }] })] } : State).me.working.find?
      fun x => x.admitted && (match x.kind with | .copy _ (some _) => true | _ => false)) = some { flagCmd 256 1 with admitted := true } := by decide +kernel

/-- S at the flip of a gate that die 0 holds, or that die 1 does; it has begun, or not. -/
def flipper (g : Gate) (pos : Nat) : State := { underWay { flipCmd false with pos := pos } with gates := [g] }
def otherGate : Gate := { itsGate with owner := true }
theorem flipper_quiet (g : Gate) (n : Nat) : (flipper g n).quiet := ⟨⟨rfl, rfl, rfl, rfl, rfl, rfl, idle _ rfl⟩, rfl, rfl, rfl, rfl, rfl, rfl⟩
theorem wit_FlagsAndFlips_flip : ((flipper itsGate 0).stream 0).flipping = some (flipCmd false) ∧ (flipCmd false).kind = .flip itsGate.dpa true ∧ (flipCmd false).pos = 0 ∧
    ((flipper itsGate 0).gates.find? fun h => h.dpa == itsGate.dpa) = some itsGate ∧ itsGate.flipping = false ∧ itsGate.permits (dieOf (coreOf 0)) = true ∧
    otherGate.permits (dieOf (coreOf 0)) = false ∧ ((flipper otherGate 0).gates.find? fun h => h.dpa == itsGate.dpa) = some otherGate ∧ ((flipper otherGate 0).stream 0).run ≠ .suspended ∧
    ((flipper itsGate 1).stream 0).flipping = some { flipCmd false with pos := 1 } ∧ ∀ x ∈ ((flipper itsGate 1).stream 0).working, x.admitted = false := by decide +kernel

/-- Region 3 of world 1 in stepped mode: 2 slices of 4 rows at 8 MiB, with its page; stream 0 takes part. -/
def aRegion : Region where
  wid := 1
  base := 8388608
  log2s := 1
  nrow := 4
  stepped := true
  zfill := false
  bell := 1000
  parts := [0]
def scanPage : Page := { wid := 1, dva := 8388608, dpa := 8388608, size := 1, cls := 1, zfill := false, x := false, w := true, r := true }
def scanning (x : Region) (l : List (Nat × Word)) (f : Stream → Stream := id) : State :=
  let u := withE .c l f
  { u with regions := [(3, x)], pages := [dataPage, textPage, scanPage], cur := { u.cur with eng := .c } }
theorem scanning_quiet (x : Region) (l : List (Nat × Word)) (f : Stream → Stream) (h : (scanning x l f).me.early = []) : (scanning x l f).quiet := ⟨⟨rfl, rfl, rfl, rfl, rfl, rfl, idle _ rfl⟩, h, rfl, rfl, rfl, rfl, rfl⟩
/-- s4 the row, s5 the length, s6 a place in the scratchpad, s7 the region's number. -/
def scanArgs : List (Nat × Word) := [(4, 8388608), (5, 64), (6, BitVec.ofNat 64 (spDva + 4096)), (7, 3)]

theorem wit_ScansAdmitted_read : (scanning aRegion scanArgs).me.standing .c = none ∧ (scanning aRegion scanArgs).roomC = true ∧ (scanning aRegion scanArgs).region 3 = some aRegion ∧
    stampLap (aRegion.openLap 0) ((scanning aRegion scanArgs).scanStamp 7 false) = some 0 ∧ aRegion.roomFor (aRegion.place 8388608).2.1 0 = true ∧
    (scanning aRegion scanArgs).scanCheck 0 8388608 64 .read = .ok (3, aRegion, 0) ∧ ((scanning aRegion scanArgs).getE .c 6).toNat % 64 = 0 ∧
    ((scanning aRegion scanArgs).spDvaRange 0 ((scanning aRegion scanArgs).getE .c 6).toNat (64 + 8)).isSome = true ∧ (scanning aRegion scanArgs).me.owed < 16 :=
  ⟨by decide, by decide, by decide, by decide, by decide +kernel, ok_of (by decide +kernel), by decide +kernel, by decide +kernel, by decide⟩
theorem wit_ScansAdmitted_update : (scanning aRegion scanArgs).scanCheck 0 8388608 64 .write = .ok (3, aRegion, 0) ∧ (List.replicate 64 (0 : Byte)).length = 64 ∧ ((scanning aRegion scanArgs).core 0).windows = [] ∧ (scanning aRegion scanArgs).me.cmds = [] ∧
    (scanning aRegion scanArgs).scanSource 0 (spDva + 4096) 64 = (scanning aRegion scanArgs, .ok (List.replicate 64 0, some (4096, 4159))) :=
  ⟨ok_of (by decide +kernel), by decide, by decide, by decide, Prod.ext (by decide +kernel) (ok_of (by decide +kernel))⟩
theorem wit_ScansAdmitted_lap : ((scanning aRegion scanArgs).getE .c 7).toNat = 3 ∧ aRegion.wid = (scanning aRegion scanArgs).widOf 0 ∧ (scanning aRegion scanArgs).portOf 0 3 = some 0 ∧
    0 ∈ aRegion.parts ∧ aRegion.openLap 0 < aRegion.served + 16 ∧ ¬ ({ aRegion with opn := [(0, 16)] } : Region).openLap 0 < aRegion.served + 16 := by decide +kernel

/-- C's stream has no row of the FIFO free. -/
theorem wit_ScansAdmitted_full : let s := scanning aRegion scanArgs fun st => { st with vq := List.replicate 16 ⟨5, 0⟩ }
    16 ≤ s.me.owed ∧ s.me.standing .c = none ∧ s.roomC = true ∧ s.scanCheck 0 8388608 64 .read = .ok (3, aRegion, 0) := ⟨by decide +kernel, by decide, by decide, ok_of (by decide +kernel)⟩

/-- One update of row 1 at lap 0 in slice 1. -/
def aSet (p : Nat) (op : Option (ScanOp × List Byte)) : ScanReq := { port := p, seq := 0, stamp := 0, row := 1, off := 0, len := 64, update := op, sid := 0, cmd := 9, wid := 1 }
def ones : List Byte := List.replicate 64 1
def sliced (y : Slice) : Region := { aRegion with slices := [(1, y)] }

theorem wit_SlicesServe_bell : let x : Region := { aRegion with stepped := false }
    x.releasing = false ∧ x.made = true ∧ x.waiter = none ∧ x.lastBell + x.bell ≤ ({ small with now := 1000 } : State).now ∧ x.bells < x.served + 16 := by decide +kernel
theorem wit_SlicesServe_marker : let x : Region := { sliced { queue := [aSet 0 none] } with pend := [(1, 0, 0)] }
    (x.pend.find? fun m => m.1 == 1 && m.2.1 == 0) = some (1, 0, 0) ∧ (scanning x []).noneWaiting 3 0 0 = true ∧ (x.slice 1).st = .wait 0 ∧ (x.slice 1).hasWork 0 = true := by decide +kernel
theorem wit_SlicesServe_waiting : let c : Cmd := copyCmd 0 (.scanRead 3 8388608 64 0 false (spDva + 4096))
    (scanning { aRegion with pend := [(1, 0, 0)] } [] fun st => { st with cmds := [c], ports := [(3, 0)] }).noneWaiting 3 0 0 = false := by decide +kernel
theorem wit_SlicesServe_links (x : Region) : (scanning x []).linksIdle := idle _ rfl
theorem wit_SlicesServe_zero : 1 < aRegion.count ∧ ((sliced { st := .zero 3 }).slice 1).st = .zero 3 := by decide
theorem wit_SlicesServe_begin : let x : Region := sliced { st := .zero 3, markers := [(0, 0)], queue := [aSet 0 none] }
    x.nrow = 4 ∧ x.markersIn 1 0 = true ∧ (x.slice 1).hasWork 0 = true ∧ aRegion.markersIn 1 0 = false := by decide
theorem wit_SlicesServe_end : ((sliced { st := .pass 0 2 }).slice 1).hasWork 0 = false ∧ ((sliced { st := .pass 0 0, queue := [aSet 0 none] }).slice 1).hasWork 0 = true := by decide
theorem wit_SlicesServe_row : let q := aSet 0 (some (.set, ones)); let x := sliced { st := .pass 0 0, queue := [q] }
    (x.slice 1).st = .pass 0 0 ∧ q.stamp = 0 ∧ 0 ≤ q.row / x.count ∧ q.len = ones.length ∧ (x.slice 1).queue = [q] ∧ ones.length % 4 = 0 ∧ q.len % 64 = 0 := by decide
theorem wit_SlicesServe_float : ∀ op ∈ [(ScanOp.addF32, 4), (.addBf16, 2), (.addF16, 2), (.maxF32, 4), (.minF32, 4)],
    ((sliced { st := .pass 0 0, queue := [aSet 0 (some (op.1, ones))] }).slice 1).queue = [aSet 0 (some (op.1, ones))] ∧ ones.length % op.2 = 0 := by decide
theorem wit_SlicesServe_two : let q := aSet 0 (some (.set, ones)); let u := aSet 1 (some (.set, ones))
    ((sliced { st := .pass 0 0, queue := [u, q] }).slice 1).queue = [u, q] ∧ u.stamp = 0 ∧ u.row = q.row ∧ u.off = q.off ∧ u.len = q.len ∧ q.port < u.port := by decide
/-- A scanned read of stream 0 that waits for room, and one whose reply is owed. -/
def aRead (vq : Bool) (reply : Option (Row × BitVec 64)) : Cmd := { copyCmd 0 (.scanRead 3 8388608 64 0 vq (spDva + 4096)) with reply := reply, atLane := true }
def reading (c : Cmd) : State := scanning aRegion [] fun st => { st with cmds := [c] }
theorem wit_SlicesServe_admission : ((reading (aRead false none)).stream 0).unadmitted = some (aRead false none) ∧ (reading (aRead false none)).cmdsRun 0 = true ∧
    (reading (aRead false none)).portOf 0 3 = some 0 ∧ aRegion.roomFor (aRegion.place 8388608).2.1 0 = true ∧
    ((reading (aRead true none)).stream 0).unadmitted = some (aRead true none) ∧ ((reading (aRead true none)).stream 0).owed ≤ 16 ∧
    16 < ((scanning aRegion [] fun st => { st with cmds := [aRead true none], vq := List.replicate 16 ⟨5, 0⟩ }).stream 0).owed ∧
    ({ aRegion with slices := [(0, { queue := List.replicate 64 (aSet 0 none) })] } : Region).roomFor (aRegion.place 8388608).2.1 0 = false := by decide +kernel
theorem wit_SlicesServe_reply (vq : Bool) : (((reading (aRead vq (some (7, 0)))).stream 0).cmds.find? fun d => d.delivers) = some (aRead vq (some (7, 0))) ∧
    ((reading (aRead vq (some (7, 0)))).stream 0).run ≠ .free ∧ (∀ d ∈ ((reading (aRead vq (some (7, 0)))).stream 0).cmds, ∀ g, d.kind ≠ .note g) ∧
    (reading (aRead vq (some (7, 0)))).spDvaRange 0 (spDva + 4096) (64 + 8) = some 4096 ∧ ((reading (aRead vq (some (7, 0)))).core 0).windows = [] ∧
    (reading (aRead vq (some (7, 0)))).mayWriteC 0 (aRead vq (some (7, 0))) (spDva + 4096) (64 + 8) = true ∧ (0 : Word).getLsbD 32 = false := by
  cases vq <;> exact ⟨by decide +kernel, by decide, no_notes (c := aRead _ (some (7, 0))) rfl (fun _ h => nomatch h), by decide +kernel, by decide, by decide +kernel, by decide⟩
theorem wit_SlicesServe_release : ({ aRegion with releasing := true } : Region).releasing = true ∧ (scanning { aRegion with releasing := true } []).emptied 3 { aRegion with releasing := true } = true ∧
    ∀ q ∈ (scanning { aRegion with releasing := true } []).traps, ({ aRegion with releasing := true } : Region).waiter ≠ some q.sid := by decide +kernel

/-! ### Witnesses: contexts, power, services -/

/-- `firm` with the command registers of stream 512 set. -/
def commanding (f : Stream → Stream) : State := firm.setStream 512 (f (firm.stream 512))
theorem commanding_noStores (f : Stream → Stream) : (commanding f).noStores := ⟨rfl, rfl, rfl, rfl, rfl, rfl, idle _ rfl⟩
def ctxAsk (op t addr : Word) (st : Stream) : Stream := { st with ctxcmd := 0x8000000000000000 + op, ctxNext := (t, addr), ctxDue := true }
/-- A saved image of stream 0's core. -/
def anImage : Image := { stream := busy, core := 0, idx := 0, sp := [], spBad := [], rings := [], windows := [], queue := [] }

theorem wit_ContextsMove_save : ((commanding (ctxAsk 1 0 8388608)).stream 512).ctxWants 1 = true ∧ bits 0 0 10 = 0 ∧ (commanding (ctxAsk 1 0 8388608)).placeOk 8388608 false = true ∧
    ((commanding (ctxAsk 1 0 8388608)).stream 0).run = .running ∧ (commanding (ctxAsk 1 0 8388608)).settling 0 = false ∧ (commanding (ctxAsk 1 0 1)).placeOk 1 false = false ∧
    ((commanding (ctxAsk 1 4 8388608)).stream 4).run = .free := by decide +kernel
theorem wit_ContextsMove_restore : let s : State := { commanding (ctxAsk 2 4 8388608) with images := [(8388608, anImage)] }
    (s.stream 512).ctxWants 2 = true ∧ s.restorable 4 = true ∧ s.placeOk 8388608 false = true ∧ Tab.find s.images (placeKey 8388608 (dieOf (coreOf 4))) = some anImage ∧
    4 % 2 = anImage.idx ∧ anImage.stream.wide = false ∧ clusterOf (dieOf (coreOf 4)) = clusterOf (dieOf anImage.core) ∧ s.imageGood (placeKey 8388608 (dieOf (coreOf 4))) anImage = true ∧ s.installable 4 anImage = true ∧ s.windowRoom (coreOf 4) [anImage] = true ∧
    s.imageGood (placeKey 8388608 (dieOf (coreOf 4))) { anImage with torn := true } = false ∧ Tab.find (commanding (ctxAsk 2 4 8388608)).images 8388608 = none ∧
    Tab.find (commanding (ctxAsk 2 4 8388608)).spent 8388608 = none := by decide +kernel
theorem wit_ContextsMove_done : isBusy ((commanding fun st => { st with ctxcmd := 0x8000000000000001 }).stream 512).ctxcmd = true ∧ ((commanding fun st => { st with ctxcmd := 0x8000000000000001 }).stream 512).ctxDue = false ∧
    isBusy ((commanding fun st => { st with pswap := 0x8000000000000001 }).stream 512).pswap = true ∧ isBusy ((commanding fun st => { st with pgate := 0x8000000000000001 }).stream 512).pgate = true := by decide

def swapAsk (op : Word) (st : Stream) : Stream := { st with pswap := 0x8000000000000000 + 256 * op, pswapDue := true }
/-- Only firmware runs. -/
def alone (f : Stream → Stream) : State := { firm with streams := [(512, f { busy with lcid := 256 })] }
def aSlot : SwapSlot := { group := 0, images := [(3, 0, anImage), (3, 1, anImage)], fwds := [] }

theorem wit_ContextsMove_swap : ((commanding (swapAsk 1)).stream 512).pswapWants 1 = true ∧ Tab.find (commanding (swapAsk 1)).shadow 0 = none ∧
    (∀ p ∈ partition 0 0, (commanding (swapAsk 1)).settling p.2.2 = false) ∧ ((alone (swapAsk 2)).stream 512).pswapWants 2 = true ∧ (∀ p ∈ partition 0 0, (alone (swapAsk 2)).freeSlot p.2.2 = true) ∧
    Tab.find ({ alone (swapAsk 2) with shadow := [(0, aSlot)] } : State).shadow 0 = some aSlot ∧ aSlot.fwds = [] ∧ (aSlot.images.map fun q => (q.1, q.2.1)).Nodup ∧ (∀ q ∈ aSlot.images, q.1 < 16 ∧ q.2.1 < 2 ∧ (alone (swapAsk 2)).installable (2 * q.1 + q.2.1) q.2.2 = true ∧
      (alone (swapAsk 2)).windowRoom (coreOf (2 * q.1)) ((aSlot.images.filter fun p => p.1 == q.1).map fun p => p.2.2) = true) := by decide +kernel

def gateAsk (op : Word) (st : Stream) : Stream := { st with pgate := 0x8000000000000000 + 256 * op, pgateDue := true }
def allGated : State := { alone (gateAsk 0) with cores := (List.range 16).map fun c => (c, { Core.reset with gated := true }) }

theorem wit_PowerGatesAndMoves_gate : ((alone (gateAsk 1)).stream 512).pgateWants 1 = true ∧ (∀ p ∈ partition 0 0, (alone (gateAsk 1)).freeSlot p.2.2 = true) ∧
    (0, 0, 0) ∈ partition 0 0 ∧ (commanding (gateAsk 1)).freeSlot 0 = false ∧ (allGated.stream 512).pgateWants 0 = true ∧ (∀ p ∈ partition 0 0, (allGated.core (coreOf p.2.2)).gated = true) := by decide +kernel
theorem wit_PowerGatesAndMoves_move : let st : Stream := { busy with migrate := some 2, yielding := true, eng := [1, 2, 3, 4, 5].map fun k => (k, { atLine with blk := 1 }) }
    st.run = .running ∧ st.drained = true ∧ st.wide = false ∧ (withMe fun _ => st).settling 0 = false ∧
    small.reachableAll (small.migSlot 2) (imageBytes true) = true ∧ small.keyRoom (coreOf 2) st.ident.wid = true ∧ (small.core 1).windows.length + ((small.core 0).windows.filter fun w => w.sid == 0).length ≤ 8 ∧ ({ small with boot := {} } : State).reachableAll (({ small with boot := {} } : State).migSlot 2) (imageBytes true) = false := by decide +kernel

/-- Stream 0 of world 1 has asked firmware for a service, with a block of words at DVA 4096. -/
def request (svc : Nat) : TrapReq := { sid := 0, wid := 1, svc := svc, blk := 4096 }
def spare : Page := { wid := 1, dva := 16777216, dpa := 16777216, size := 0, cls := 0, zfill := false, x := false, w := true, r := true }
def gatePage : Page := { wid := 1, dva := 20971520, dpa := 20971520, size := 1, cls := 0, zfill := false, x := false, w := true, r := true }
def asked (svc : Nat) (ws : List Nat) : State := { firm with
  traps := [request svc]
  pages := [dataPage, textPage, spare, gatePage]
  alloc := [(1, 0, 2 ^ 30)]
  mem := Memory.writeList firm.mem 4096 (ws.flatMap (leBytes 8)) }
theorem asked_quiet (svc : Nat) (ws : List Nat) : (asked svc ws).quiet := ⟨⟨rfl, rfl, rfl, rfl, rfl, rfl, idle _ rfl⟩, rfl, rfl, rfl, rfl, rfl, rfl⟩
theorem asked_asked (svc : Nat) (ws : List Nat) : (asked svc ws).asked (request svc) 0 4096 svc :=
  ⟨by simp [asked, request], by simp [asked, request]⟩

theorem wit_MapsRegionsGates_map : let s := asked 1 [12582912, 12582912, 3]
    s.blockWord 0 1 4096 0 = 12582912 ∧ s.blockWord 0 1 4096 8 = 12582912 ∧ attrBad (s.blockWord 0 1 4096 16) = false ∧ 12582912 % pageBytes (bits 3 6 2) = 0 ∧
    12582912 + pageBytes (bits 3 6 2) ≤ 0x800000000000 ∧ s.owns 1 12582912 (pageBytes (bits 3 6 2)) = true ∧ s.unmapped 1 12582912 (pageBytes (bits 3 6 2)) = true ∧
    (asked 1 [8192, 12582912, 3]).unmapped 1 8192 (pageBytes (bits 3 6 2)) = false := by decide +kernel
theorem wit_MapsRegionsGates_unmap : let s := asked 2 [16777216, 0, 3]
    s.regionBased 1 16777216 = none ∧ s.regionAt 1 16777216 = none ∧ (s.pages.find? fun x => x.wid == 1 && x.dva == 16777216 && x.size == bits (s.blockWord 0 1 4096 16) 6 2) = some spare ∧
    s.pageInUse spare = false ∧ s.textInPage spare = false ∧ (s.pages.find? fun x => x.wid == 1 && x.dva == 12582912 && x.size == 0) = none := by decide +kernel
theorem wit_MapsRegionsGates_scanmake : let s := asked 6 [8388608, 1 + 63 * 256, 1000]
    (s.regions.find? fun p => p.2.waiter == some 0 && !p.2.releasing) = none ∧ s.scanBlockBad 1 4096 8388608 (1 + 63 * 256) 1000 0 0 0 = false ∧ s.blockWord 0 1 4096 8 = 1 + 63 * 256 ∧
    s.blockWord 0 1 4096 24 = 0 ∧ s.blockWord 0 1 4096 32 = 0 ∧ s.blockTail 0 1 4096 = 0 ∧ s.unmapped 1 8388608 ((2 * 64 * 1024 + 65535) / 65536 * 65536) = true ∧
    ((List.range 16).find? fun k => (s.region k).isNone) = some 0 ∧ 2 ≤ (s.freeSlices 0).length ∧ s.scanBlockBad 1 4096 8388608 (1 + 63 * 256) 0 0 0 0 = true := by decide +kernel
theorem wit_MapsRegionsGates_made : let x : Region := { aRegion with waiter := some 0, slices := [(0, { st := .wait 0 }), (1, { st := .wait 0 })] }
    (({ asked 6 [] with regions := [(3, x)] } : State).regions.find? fun p => p.2.waiter == some 0 && !p.2.releasing) = some (3, x) ∧ x.made = true := by decide +kernel
theorem wit_MapsRegionsGates_bind : let s := asked 7 [256, 20971520, 0, 33]
    s.blockTail 0 1 4096 = 0 ∧ s.blockWord 0 1 4096 0 = 256 ∧ s.blockWord 0 1 4096 8 % 65536 = 0 ∧ s.blockWord 0 1 4096 16 < 65536 ∧ s.blockWord 0 1 4096 24 = 33 ∧
    bits 33 9 2 ≠ 3 ∧ bits 33 0 4 ≠ 0 ∧ bits 33 4 4 ≠ 0 ∧ bits 33 0 4 &&& bits 33 4 4 = 0 ∧ s.page 1 256 = some dataPage ∧ dataPage.r = true ∧ dataPage.w = true ∧ ¬(20971520 ≤ 256 ∧ 256 < 20971520 + 65536) ∧ dataPage.dpaOf 256 = 256 ∧ s.gateWord 256 = none ∧ s.runsText 256 = false ∧
    s.gatePageOk 1 20971520 1 0 = true ∧ s.gates.length < 4096 := by decide +kernel
theorem wit_MapsRegionsGates_unbind : let s := asked 7 [256, 20971520, 65536, 0]
    s.blockWord 0 1 4096 16 = 65536 ∧ bits (s.blockWord 0 1 4096 24) 0 9 = 0 ∧ bits (s.blockWord 0 1 4096 24) 9 2 ≠ 3 ∧ ({ s with gates := gated.gates } : State).gateAt 1 256 = some itsGate ∧ s.gateAt 1 256 = none := by decide +kernel

theorem wit_LeaseServices_ask : let s (op v : Nat) := asked 3 [op, 5, v]
    rangeBad ((s 0 7).blockWord 0 1 4096 8) false = false ∧ (s 0 7).blockWord 0 1 4096 48 = 0 ∧ (s 0 7).blockWord 0 1 4096 56 = 0 ∧ (s 0 7).blockWord 0 1 4096 16 < 2 ^ 40 ∧
    (s 1 0).blockWord 0 1 4096 0 = 1 ∧ (s 1 0).blockWord 0 1 4096 16 = 0 ∧ (s 2 7).blockWord 0 1 4096 0 = 2 ∧ (s 3 1).blockWord 0 1 4096 16 < 2 ∧ (s 1 1).blockWord 0 1 4096 16 ≠ 0 := by decide +kernel
/-- Blocks that are refused: an OP and VALUEs outside the table, a zero field, a bad range word. -/
theorem wit_LeaseServices_bad : 4 ≤ (asked 3 [4, 5]).blockWord 0 1 4096 0 ∧ 2 ^ 40 ≤ (asked 3 [2, 5, 2 ^ 40]).blockWord 0 1 4096 16 ∧ 2 ≤ (asked 3 [3, 5, 2]).blockWord 0 1 4096 16 ∧
    (asked 4 [0, 5, 0, 0, 0, 0, 1]).blockWord 0 1 4096 48 ≠ 0 ∧ rangeBad ((asked 4 [0, 2 ^ 63]).blockWord 0 1 4096 8) false = true ∧ (asked 4 [1, 5]).blockWord 0 1 4096 0 ≠ 0 ∧
    (asked 4 [0, 5, 1]).blockWord 0 1 4096 16 ≠ 0 ∧ (4097 : Nat) % 64 ≠ 0 := by decide +kernel

/-- World 1's request for array 5, accepted and not yet carried out; VF 1 in a session, in RUN. -/
def serving (op : Nat) (l : Lease) : State := { asked 3 [] with traps := [], services := [{ wid := 1, blk := 4096, op := op, range := 5, value := 7, token := 0 }], leases := [(5, l)], vfs := [(1, { tdi := .run, spdm := .session })] }
theorem wit_LeaseServices_mine : let s := serving 1 { st := .leased, wid := 1, dormant := true }
    (rangeWord 5).arrays = [5] ∧ s.joined (arrayDie 5) = true ∧ (s.lease 5).st = .leased ∧ (s.lease 5).wid = 1 ∧ (s.lease 5).token = 0 ∧ (s.vf (s.worldVf 1)).spdm = .session ∧ (s.vf (s.worldVf 1)).tdi = .run ∧
    ((serving 1 { st := .leased, wid := 1, token := 9 }).lease 5).token ≠ 0 ∧ s.arrayIdle 5 = true ∧
    ({ s with bays := [(bayOf 5, { ops := [{ wid := 1, sid := 0, cmd := 9, an := 5, awrite := false }] })] } : State).arrayIdle 5 = false ∧
    ({ s with bays := [(bayOf 5, { ops := [{ wid := 1, sid := 0, cmd := 9, an := 5, awrite := false }] })] } : State).standsBack { wid := 1, sid := 0, cmd := 9, an := 5, awrite := false } = false := by decide +kernel
theorem wit_LeaseServices_free : let s := serving 0 {}
    s.live 1 = true ∧ s.joined (arrayDie 5) = true ∧ (s.lease 5).st = .free := by decide +kernel

theorem wit_EvidenceAndResume_report : let s := asked 5 [0, 8192, 16384]
    s.blockTail 0 1 4096 = 0 ∧ s.blockWord 0 1 4096 0 = 0 ∧ s.blockWord 0 1 4096 16 + 32 ≤ 0x800000000000 ∧ s.mapped 1 16384 32 (fun p => p.r && p.cls != 1) = true ∧
    s.blockWord 0 1 4096 8 + 512 ≤ 0x800000000000 ∧ s.mapped 1 8192 512 (fun p => p.w && p.cls == 0) = true ∧ s.textFree 1 8192 512 = true := by decide +kernel
theorem wit_EvidenceAndResume_record : let s := asked 5 [1, 8192, 0, 1]
    let r : Record := { seq := 1, prev := 1, party := 0, bytes := [1, 2] }
    s.blockWord 0 1 4096 0 = 1 ∧ ({ s with records := [r] } : State).recordFor 1 (s.blockWord 0 1 4096 24) = some r ∧ s.recordFor 1 (s.blockWord 0 1 4096 24) = none ∧
    s.mapped 1 8192 2 (fun p => p.w && p.cls == 0) = true ∧ s.textFree 1 8192 2 = true ∧ 0 < r.bytes.length := by decide +kernel
/-- Stream 2 of world 1 suspended with fault record 3. -/
def suspended (action : Nat) (retry : Bool) : State := (asked 8 [0, action, 3]).setStream 2 { busy with run := .suspended, fault := some { aFault with retry := retry, seq := some 3 } }
theorem wit_EvidenceAndResume_resume : let s := suspended 0 true
    s.blockWord 0 1 4096 0 < 2 ^ 16 ∧ s.blockWord 0 1 4096 16 = 3 ∧ s.suspendedOn 1 (s.blockWord 0 1 4096 0) = some 2 ∧ (s.stream 2).fault = some { aFault with seq := some 3 } ∧ (s.stream 2).wait = none ∧
    (suspended 1 true).blockWord 0 1 4096 8 = 1 ∧ s.inFlip 2 = false ∧ s.buffered (s.stream 2).ident.wid < 64 ∧
    ({ flipper itsGate 1 with gates := [{ itsGate with flipping := true }] } : State).inFlip 0 = true ∧ some 3 ≠ some 4 ∧
    (asked 8 [0, 0, 3]).suspendedOn 1 0 = none ∧ (asked 8 [0, 0, 3]).suspendedIn 1 0 = none := by decide +kernel

/-! ### Witnesses: the hub, worlds, start, the step -/

/-- `queues` with VF 1 in RUN; `dead` has the same world in teardown. -/
def hosted (tail : Nat) : State := { queues tail with vfs := [(1, { tdi := .run })] }
def dead : State := { hosted 0 with mem := Memory.writeList (hosted 0).mem (1048576 + 128 + 64) [6] }

theorem wit_HostAndIntake_bell : (hosted 0).vfRuns 1 = true ∧ (hosted 0).vfWorld 1 = some 1 ∧ (hosted 0).live 1 = true ∧ 1024 % 128 = 0 ∧ (hosted 0).mapped 1 1024 128 (fun _ => true) = true ∧
    (hosted 0).queueFull 1 0x10 = false ∧ (hosted 4).queueFull 1 0x10 = true ∧ dead.live 1 = false ∧ dead.vfWorld 1 = some 1 ∧ dead.vfRuns 1 = true ∧ 4 ∉ [0, 8, 0x10, 0x18] ∧ (hosted 0).mapped 1 8388608 128 (fun _ => true) = false ∧
    (hosted 0).spanReachable 1 1024 128 = true ∧ (hosted 0).queueClear 1023 1 0x10 128 = true ∧ (hosted 4).queueClear 1023 1 0x10 128 = true := by decide +kernel
/-- A record whose stack's die has not joined. -/
theorem wit_HostAndIntake_unreachable : let s : State := { hosted 0 with boot := { stage := 2 }, pages := [dataPage, { dataPage with dva := 4194304, dpa := 4194304 }] }
    s.mapped 1 4194304 128 (fun _ => true) = true ∧ s.spanReachable 1 4194304 128 = false := by decide +kernel
theorem wit_HostAndIntake_forms : let s : State := { hosted 0 with traps := [request 1] }
    (s.traps.find? fun t => t.wid == 1) = some (request 1) ∧ (request 1).sid ≠ noSid ∧ s.mapped 1 4096 64 (fun p => p.r && p.w && p.cls == 0) = true ∧ s.spanReachable 1 4096 64 = true ∧ s.textFree 1 (4096 + 24) 8 = true ∧ s.textFree 1 (4096 + 32) 8 = true ∧
    s.mapped 1 8388608 32 (fun p => p.r && p.w && p.cls == 0) = false ∧ s.mapped 1 8388608 64 (fun p => p.r && p.w && p.cls == 0) = false ∧ ({ s with traps := [] } : State).traps.find? (fun t => t.wid == 1) = none ∧ s.mapped 1 4096 32 (fun p => p.r && p.w && p.cls == 0) = true ∧ s.spanReachable 1 4096 32 = true ∧
    (queues 0).vfRuns 1 = false ∧ (queues 0).boot.stage ≠ 0 ∧ State.reset.vfRuns 1 = false ∧ State.reset.boot.stage = 0 := by decide +kernel
theorem wit_HostAndIntake_write : (hosted 0).page 1 1024 = some dataPage ∧ dataPage.cls = 0 ∧ dataPage.w = true ∧ (hosted 0).gateWord 1024 3 = none ∧ 1024 % 64 + 3 ≤ 64 ∧
    ({ hosted 0 with pages := [{ dataPage with cls := 2 }] } : State).page 1 1024 = some { dataPage with cls := 2 } ∧ (hosted 0).buffered 1 < 64 ∧ (hosted 0).hubRoom 1 1024 3 = true ∧ (hosted 0).runsText 1024 = false ∧
    (hosted 0).reachable 1024 = true ∧ ({ hosted 0 with pages := [{ dataPage with w := false }] } : State).page 1 1024 = some { dataPage with w := false } := by decide +kernel

/-- A packet of flow 9 with 4 bytes, and world 1's flow entry and intake slots. -/
def aPacket : List Byte := leBytes 8 (0x1B2C + 4 * 2 ^ 16 + 9 * 2 ^ 32) ++ [1, 2, 3, 4]
def aFlow : Flow := { valid := true, port := 0, flow := 9, prio := 3, wid := 1, template := 1024 }
def intake (tail : Nat) : State := { hosted tail with
  flows := [(7, aFlow)]
  mem := Memory.writeList (Memory.writeList (hosted tail).mem (1048576 + 128 + 0x48) (leBytes 8 524288)) (1048576 + 128 + 0x50) (leBytes 8 4) }
theorem wit_HostAndIntake_packet : (hosted 0).flowOf 0 9 = none ∧ (intake 0).flowOf 0 (bits (leNat (aPacket.take 8)) 32 32) = some (7, aFlow) ∧ (intake 0).live 1 = true ∧ packetBad aPacket = false ∧
    packetBad [] = true ∧ (intake 0).wtWord 1 0x50 % 65536 ≠ 0 ∧ (intake 4).queueFull 1 0x10 = true ∧ (intake 4).spanClear 1023 1 ((intake 4).queueBase 1 0x10) 64 = true ∧ (intake 4).tryHeader 1 0x10 = (intake 4, 0) ∧ (intake 0).mapped 1 1024 128 (fun _ => true) = true ∧
    ({ intake 0 with pages := [] } : State).mapped 1 1024 128 (fun _ => true) = false ∧
    (intake 0).spanReachable 1 1024 128 = true ∧ (intake 0).hubClear 1 524288 aPacket.length = true ∧ (intake 0).hubClear 1 1024 128 = true ∧ (intake 0).queueClear 1023 1 0x10 128 = true ∧
    (((intake 0).hubWrite 1 13 524288 aPacket).hubRecord 1 1024).1.live 1 = true ∧ (((intake 0).hubWrite 1 13 524288 aPacket).hubRecord 1 1024).1.queueFull 1 0x10 = false := by decide +kernel

theorem wit_LinksCarry : small.portClosed 0 = false ∧ 3 ∉ (small.link 0).flush ∧ 0 ∈ (small.link 0).validA ∧ 1 ∉ (small.link 0).validA ∧ (small.link 4).fails = 0 ∧
    (small.link 0).slotA = 0 ∧ (small.link 0).slotB = 0 ∧ (small.link 0).validB = [0] ∧ Tab.get 0 (small.link 0).keys 0 < (small.link 0).nextKey ∧ (small.link 0).newer ∈ (small.link 0).validB := by decide
/-- Link 0 with a packet of another world in front of one of world 1, which comes in the slot the packet names. -/
def carrying : State := small.setLink 0 { flight := [{ wid := 2, slot := 0, toPeer := false }, { wid := 1, slot := 0, toPeer := false, fails := 2 }] }
theorem wit_LinksCarry_flight : (carrying.link 0).flight = [{ wid := 2, slot := 0, toPeer := false }] ++ { wid := 1, slot := 0, toPeer := false, fails := 2 } :: [] ∧
    carrying.portClosed 0 = false ∧ (∀ q ∈ [({ wid := 2, slot := 0, toPeer := false } : Packet)], q.wid ≠ 1 ∨ q.toPeer = true) ∧ 0 ∈ (carrying.link 0).validA ∧ 1 ∉ (carrying.link 0).flush ∧
    (∃ p ∈ ({ flight := [{ wid := 2, slot := 1, toPeer := false }] } : Link).flight, p.toPeer = false ∧ p.slot ≠ 0) := by decide
theorem wit_LinksCarry_down : (small.setLink 0 { down := true }).portClosed 0 = true ∧ 3 ∈ ({ flush := [3] } : Link).flush ∧ (small.setLink 4 { fails := 1 }).link 4 = { fails := 1 } := by decide

/-- World 2 with its queues of 16 slots named in its entry and mapped, and no entry's state. -/
def unborn : State := { small with
  pages := [dataPage, textPage, { dataPage with wid := 2, dpa := 4194304 }]
  mem := [0, 16, 32, 48].foldl (fun m o => Memory.writeList (Memory.writeList m (256 + o) (leBytes 8 (65536 + 4096 * o))) (256 + o + 8) (leBytes 8 4)) small.mem }
theorem small_noFlip (k : Nat) : small.inFlip k = false := by
  by_cases h : k = 0
  · subst h; decide
  · have : small.stream k = Stream.reset := by simp [small, State.stream, Tab.get, Ne.symm h]
    simp [State.inFlip, this, Stream.reset]
theorem wit_WorldsComeAndGo : unborn.worldState 2 = 0 ∧ unborn.wtbase.toNat % 64 = 0 ∧ unborn.reachable (unborn.wtAddr 2 0) = true ∧ unborn.reachable (unborn.wtAddr 2 0x40) = true ∧ unborn.boot.stage = 2 ∧ unborn.recseq < 2 ^ 64 ∧ unborn.queuesGood 2 = true ∧
    (∀ p ∈ unborn.leases, (p.2.st = .evicting ∨ p.2.st = .erased) → p.2.wid ≠ 2 ∧ p.2.party ≠ 2) ∧ small.vfWorld 1 = some 1 ∧ small.worldState 1 = 1 := by decide +kernel

theorem wit_SessionsAndSecurity : let s (t : Tdi) := small.setVf 1 { tdi := t, spdm := .session }
    ((s .unlocked).vf 1).spdm = .session ∧ ((s .unlocked).vf 1).tdi = .unlocked ∧ ((s .locked).vf 1).tdi = .locked ∧ (small.vf 1).spdm ≠ .session ∧ small.sec.lockdown = 0 ∧ small.boot.stage ≠ 0 ∧
    ({ small with sec := { lockdown := 2 } } : State).sec.lockdown ≠ 0 ∧ ({ small with sec := { lockdown := 2 } } : State).sec.alarmed = false ∧
    ({ small with sec := { lockdown := 2, alarmed := true } } : State).sec.alarmed = true := by decide
theorem wit_StartStages : State.reset.boot.stage = 0 ∧ State.reset.boot.tripped = false ∧ State.reset.boot.counter = 0 ∧ ({ fuses := [(true, true)] } : Boot).counter = 1 ∧
    MetaCopy.choose { seq := 1, good := false } { seq := 2, good := false } = none ∧ MetaCopy.choose { seq := 1 } { seq := 2 } = some { seq := 2 } ∧ ({ stage := 1 } : Boot).safe = false ∧ ({ stage := 1 } : Boot).tripped = false ∧ ({ stage := 2 } : Boot).joined = [] ∧
    ({ stage := 1, version := 1 } : Boot).counter < ({ stage := 1, version := 1 } : Boot).version ∧ ({ stage := 1, version := 1 } : Boot).incDone = false := by decide
theorem wit_PowerIsLost : 920 ≤ 924 ∧ small.boot.tripped = false ∧ (∀ p ∈ ({ sensor := [(0, 700)] } : Power).sensor, p.2 < 760) ∧ (∃ p ∈ ({ sensor := [(0, 800)] } : Power).sensor, 760 ≤ p.2) ∧
    840 ≤ 850 ∧ 850 < 920 ∧ (0 : Nat) < 4 ∧ small.boot.stage ≠ 0 ∧ ({ stage := 1, tripped := true } : Boot).tripped = true ∧
    ({ small with boot := { small.boot with tripped := true } } : State).boot.tripped = true := by decide

/-- S of stream 0 next in the schedule, about to visit a line that holds AND s3, s4, s5 with a lane predicate token from `tw`. -/
def aboutTo (tw : Nat) : State := { withMe (fun st => { st with s := [(4, 12), (5, 10)], tokens := [(tokenKey .v .s, [true])] }) with
  sched := [.lane 0 .s], mem := Memory.writeList small.mem 4194304 (leBytes 32 (0x11 + (0x38003214 + tw) * 2 ^ 32)) }
def afterBegin (tw : Nat) : State := (aboutTo tw).takeTurn.2.beginVisit 0 .s

theorem wit_StepRunsDecoded : (aboutTo 0).takeTurn.1 = .lane 0 .s ∧ (aboutTo 0).takeTurn.2.mayIssue 0 = true ∧ (((aboutTo 0).takeTurn.2.stream 0).eng' .s).ended = false ∧
    (((aboutTo 0).takeTurn.2.stream 0).eng' .s).push = [] ∧ stuck .s ((aboutTo 0).takeTurn.2.stream 0).cmds = false ∧ (((aboutTo 0).takeTurn.2.stream 0).eng' .s).atEnd = false ∧ ((aboutTo 0).takeTurn.2.stream 0).wait = none ∧
    (((aboutTo 0).takeTurn.2.stream 0).eng' .s).lane = 0 ∧ ((afterBegin 0).stream 0).run = .running ∧ (((afterBegin 0).stream 0).eng' .s).lane = 1 ∧
    (((afterBegin 0).stream 0).eng' .s).push = [] ∧ (((afterBegin 0).stream 0).eng' .s).rep = none ∧ (((afterBegin 0).stream 0).eng' .s).twDone = false ∧
    ((afterBegin 0).lineAt 0 4194304).map (fun l => Line.word l 1) = some 0x38003214 := by decide +kernel
/-- At the lane, before its token. -/
def atLane : State := { afterBegin 0 with cur := { sid := 0, eng := .s, line := 4194304, lane := 1, base := 0x38003214, x := 0, ts := none }, out := .retired }
theorem wit_StepRunsDecoded_lane : decodeLane .s 0x38003214 none = .ok { tw := none, ts := none, g := 0, instr := .and 3 4 5 } ∧ badRep (.and 3 4 5) 0x38003214 = false ∧
    atLane.illegal 0 .s (.and 3 4 5) = false ∧ atLane.misused (.and 3 4 5) = false ∧ (atLane.enterWorld 0 .s).isSome = true := ⟨rfl, by decide, by decide, by decide, by decide +kernel⟩
theorem wit_StepRunsDecoded_token : decodeLane .s (0x38003214 + 0x01000000) none = .ok { tw := some .v, ts := none, g := 0, instr := .and 3 4 5 } ∧
    (((afterBegin 0x01000000).stream 0).pop .v .s).isSome = true ∧ (((afterBegin 0).stream 0).pop .m .s).isNone = true := ⟨rfl, by decide +kernel, by decide +kernel⟩
theorem wit_DecodeEncode : ({ tw := some .v, ts := some .m, g := 1, instr := .nop .s } : Lane).wf = true ∧ (Instr.nop .s).engine = some .s := by decide
theorem wit_StepKeepsMemory : Memory.wf small.mem = true ∧ Memory.wf small.rows = true := by decide

/-! ### The spec's example words

The words printed under "Example" in the reference entries of the instructions (13 to 16, 07 Table 7.4, 14 Tables 14.2, 14.7). -/

theorem test_examples_s_1 : readsAs .s [
    (0x38003214, none, .and 3 4 5), (0x200118BC, none, .add 17 17 15), (0x600052FF, none, .addi 5 5 (-1)), (0x64007307, none, .andi 7 6 7),
    (0xFC00B006, none, .arevoke 11), (0xDC006180, some 0x2AE00000, .acas 6 3 0 5 .acq .dev true 0), (0xD800619C, some 0x0DC00000, .amo 6 3 7 .add .ar .dev true 0),
    (0xFC006689, none, .astat 6 13), (0xE0000190, none, .bar 3 4), (0xB4008000, none, .br 1 false 0), (0xB4017FFD, none, .br 2 true (-3)), (0xBC000005, none, .call 5),
    (0x5C003200, none, .clz 3 4), (0x5C003201, none, .ctz 3 4), (0x5C003202, none, .popc 3 4), (0x54016216, none, .cmp 2 .ltn 4 5 .or), (0x7800C280, none, .cmpi 1 .gt 5 0),
    (0x18014002, none, .csrr 20 2), (0x1C014005, none, .csrw 20 5)] = true := by decide

theorem test_examples_s_2 : readsAs .s [
    (0x30003214, none, .div 3 4 5), (0x30003215, none, .divn 3 4 5), (0xFC000002, none, .eret), (0xFC000004, none, .halt),
    (0x84003200, some 0x0000020F, .ext 3 4 8 15), (0x84003201, some 0x0000020F, .extS 3 4 8 15), (0xAC00E900, none, .fence .dev .full 0b10010), (0xF8000380, none, .fmtq 7),
    (0x88003200, some 0x0000020F, .ins 3 4 8 15), (0xB8000004, none, .jmp 4), (0xB801FFFE, none, .jmp (-2)), (0xF0003200, none, .launch 3 4),
    (0x9000B4E0, none, .ld 11 9 .d 0), (0x9000C4E1, none, .ld 12 9 .d 1), (0xA40061EC, some 0, .ldacq 6 3 .d .dev 0), (0x7C005000, some 1, .limm 5 1),
    (0x80003000, some 1, .lup 3 1), (0xA0000000, none, .mark), (0x50003214, none, .max 3 4 5), (0x4C003215, none, .minn 3 4 5), (0x28018088, none, .mul 24 1 2), (0x2C003215, none, .mulhn 3 4 5)] = true := by decide

theorem test_examples_s_3 : readsAs .s [
    (0x0C01FFFF, none, .notify .s 0x1FFFF), (0x3C003214, none, .or 3 4 5), (0x68003201, none, .ori 3 4 1), (0xF400027C, none, .ovl 4 0b11111), (0x8C00D808, none, .plog 1 2 3 8),
    (0x10008200, none, .qpush .v 4), (0x1000C280, none, .qpush .m 5), (0x10010700, none, .qpush .c 14), (0xD4006214, none, .rinit 3 4 5), (0xD4004299, none, .rclaim 6 2 5),
    (0xD4004282, none, .rcommit 2 5), (0xD4004283, none, .rfree 2 5), (0x34003214, none, .rem 3 4 5), (0x34003215, none, .remn 3 4 5), (0xC0000000, none, .ret), (0xEC016780, none, .rnext 22 15),
    (0x58003215, none, .sel 3 4 5 1), (0xE4004021, none, .sev 4 1 true), (0x44003214, none, .shl 3 4 5), (0x7001188A, none, .shli 17 17 10), (0x48003214, none, .shr 3 4 5), (0x48003215, none, .sra 3 4 5),
    (0x74003208, none, .shri 3 4 8), (0x74003248, none, .srai 3 4 8), (0xFC00428A, none, .smig 4 5)] = true := by decide

theorem test_examples_s_4 : readsAs .s [
    (0x9801A005, none, .spld 26 5), (0x9C01A005, none, .spst 26 5), (0x940055E0, none, .st 5 11 .d 0), (0x94010744, none, .st 16 14 .w 4),
    (0xA800566C, some 0, .strel 5 12 .d .dev 0), (0xA8005664, some 0, .strel 5 12 .d .grp 0), (0x24003010, none, .sub 3 0 4),
    (0xB0004180, none, .tlook 4 3), (0xB0006195, none, .tset 6 3 5), (0xB0000182, none, .tinv 3), (0xFC004283, none, .tlbi 4 5), (0x1400A000, none, .toks .v true), (0x1400C000, none, .toks .m false),
    (0xFC004581, none, .trap 4 11), (0xD000558C, some 0x18, .waitge 5 11 .dev 24), (0xCC006001, none, .wevt 6 1), (0xC8004280, none, .wfill 2 5), (0xC8004281, none, .wfree 2 5),
    (0x40003214, none, .xor 3 4 5), (0x6C00327F, none, .xori 3 4 (-1)), (0xC4000000, none, .yield)] = true := by decide

theorem test_examples_v : readsAs .v [
    (0x20004298, none, .vadd 4 5 6 0), (0x2C004298, none, .vfma 4 5 6 0), (0x48004298, none, .vshr 4 5 6 0), (0x4C004298, none, .vshrl 4 5 6 0), (0x64005100, none, .vbcast 5 2),
    (0x80008182, none, .vpush 1 3 2), (0x84004460, none, .vpop 4 1 3), (0x88008000, none, .vclose 1), (0x5000810C, some 2, .vcmp 1 .lt 2 3 0), (0x5800A400, some 0x20000000, .vcvt 10 8 0 .f16 .f32 .rne false false),
    (0x58004004, some 0x05180000, .vcvt 4 0 1 .f32 .i8 .rne true true), (0x90009484, some 0x5A, .vdrop 9 9 1 2 3 1), (0x68002300, none, .vext 2 6 0), (0x78006288, some 2, .vgath 6 5 2 0 .w),
    (0x7C007289, some 2, .vscat 7 5 2 1 .w), (0x6C004088, none, .vins 4 1 2), (0x60002190, none, .vperm 2 3 4), (0x98008200, none, .vqpop 8 4), (0x5C006280, some 0, .vred 6 5 .add),
    (0x8C007088, some 0, .vrnd 7 1 2), (0x54004299, none, .vsel 4 5 6 1), (0x94000005, none, .vtype .i8), (0x08001920, none, .rep .v 3 1 1 0), (0x04000400, some 0x04000000, .loop .v 0 1 0 0 false true),
    (0x04008802, some 0x28000000, .loop .v 1 2 2 2 true false)] = true := by decide

theorem test_examples_mcf : readsAs .m [
    (0x20000004, none, .mcfg 0 0 1), (0x20018810, none, .mcfg 6 1 4), (0x24000000, none, .mgo), (0x34000580, none, .mclr 0 11), (0x3800818A, none, .mconv 8 3 2 true), (0x2C001800, none, .mlds 1 true),
    (0x28004100, some 0, .mpass 4 2 0 false false), (0x30000000, none, .mswap), (0x3C00010C, some 0, .awrite 0 2 3 0)] = true ∧ readsAs .c [
    (0x3400110C, some 0, .cbank 1 2 3), (0x20001000, none, .ccopy 1), (0x24001000, none, .cgath 1), (0x30003201, none, .clap 3 4 true), (0x28001100, some 1, .cscanr 1 2 0 0 false true),
    (0x2800110C, some 0x12, .cscanr 1 2 3 4 true false), (0x10001000, none, .epop .c 1), (0x08001100, none, .rep .c 2 1 0 0)] = true ∧ readsAs .f [
    (0x20003080, none, .fexp2 3 1 .f32), (0x24003081, none, .flog2 3 1 .bf16), (0x28006300, none, .frcp 6 6 .f32), (0x2C002482, none, .frsq 2 9 .f16), (0x30008400, none, .ftanh 8 8 .f32),
    (0x34008401, none, .fsigm 8 8 .bf16), (0x38002102, none, .ferf 2 2 .f16)] = true := by decide

/-- Examples with tokens: CCOPYF, CSCANU, GFLIP, NOP and AWRITE. -/
theorem test_examples_tokens :
    decodeLane .c 0x3900110C (some 6) = .ok { tw := some .v, ts := none, g := 0, instr := .ccopyf 1 2 3 .dev false } ∧
    decodeLane .c 0x2D001188 (some 0) = .ok { tw := some .v, ts := none, g := 0, instr := .cscanu 1 3 2 0 false .set } ∧
    decodeLane .s 0xEA0005C0 (some 0) = .ok { tw := some .c, ts := none, g := 0, instr := .gflip 11 true 0 } ∧
    decodeLane .c 0x01100000 none = .ok { tw := some .v, ts := some .s, g := 0, instr := .nop .c } ∧
    decodeLane .m 0x3D00010C (some 0) = .ok { tw := some .v, ts := none, g := 0, instr := .awrite 0 2 3 0 } ∧
    decodeLane .c 0x0C800000 none = .ok { tw := some .s, ts := none, g := 0, instr := .notify .c 0 } ∧
    decodeLane .m 0x44000000 none = .error .unassigned := ⟨rfl, rfl, rfl, rfl, rfl, rfl, rfl⟩

/-! ### Single steps, with results the spec prints -/

/-- The instruction completes and the next state passes a test. -/
def gives (i : Instr) (s : State) (p : State → Bool) : Bool := match exec i s with
  | .next t => p t
  | _ => false

/-- R319. -/
theorem test_counts : gives (.clz 3 4) (withS [(4, 0x100)]) (·.getS 3 == 55) && gives (.ctz 3 4) (withS [(4, 0x100)]) (·.getS 3 == 8) &&
    gives (.popc 3 4) (withS [(4, 0x100)]) (·.getS 3 == 1) && gives (.clz 3 4) small (·.getS 3 == 64) = true := by decide +kernel
/-- R320. -/
theorem test_cmp : gives (.cmp 1 .lt 4 5 .set) (withS [(4, -1), (5, 1)]) (·.getP 1) && gives (.cmp 1 .ltn 4 5 .set) (withS [(4, -1), (5, 1)]) (fun t => !t.getP 1) = true := by decide +kernel
/-- Tables 14.1 and 15.3, R327, R370. -/
theorem test_divide : gives (.div 3 4 5) (withS [(4, -7), (5, 2)]) (·.getS 3 == -3) && gives (.divn 3 4 5) (withS [(4, -7), (5, 2)]) (·.getS 3 == 0x7FFFFFFFFFFFFFFC) &&
    gives (.rem 3 4 5) (withS [(4, -7), (5, 2)]) (·.getS 3 == -1) && gives (.remn 3 4 5) (withS [(4, -7), (5, 2)]) (·.getS 3 == 1) = true := by decide +kernel
theorem test_divide_corner : gives (.div 3 4 5) (withS [(4, 7)]) (·.getS 3 == -1) && gives (.rem 3 4 5) (withS [(4, 7)]) (·.getS 3 == 7) &&
    gives (.rem 3 4 5) (withS [(4, 0x8000000000000000), (5, -1)]) (·.getS 3 == 0) && gives (.remn 3 4 5) (withS [(4, 0x8000000000000000), (5, -1)]) (·.getS 3 == 0x8000000000000000) = true := by decide +kernel
/-- R330, R336. -/
theorem test_fields : gives (.ext 3 4 8 15) (withS [(4, 0x80FF00)]) (·.getS 3 == 0x80FF) && gives (.extS 3 4 8 15) (withS [(4, 0x80FF00)]) (·.getS 3 == 0xFFFFFFFFFFFF80FF) &&
    gives (.ins 3 4 8 15) (withS [(4, 0xABCD)]) (·.getS 3 == 0xABCD00) && gives (.lup 3 1) (withS [(3, 2)]) (·.getS 3 == 0x100000002) = true := by decide +kernel
/-- R346, R357, R380. -/
theorem test_max_mulh_shift : gives (.max 3 4 5) (withS [(4, -1), (5, 1)]) (·.getS 3 == 1) && gives (.maxn 3 4 5) (withS [(4, -1), (5, 1)]) (·.getS 3 == -1) &&
    gives (.mulh 3 4 5) (withS [(4, -1), (5, 2)]) (·.getS 3 == -1) && gives (.mulhn 3 4 5) (withS [(4, -1), (5, 2)]) (·.getS 3 == 1) &&
    gives (.sra 3 4 5) (withS [(4, -5), (5, 1)]) (·.getS 3 == -3) && gives (.shr 3 4 5) (withS [(4, -5), (5, 1)]) (·.getS 3 == 0x7FFFFFFFFFFFFFFD) = true := by decide +kernel
/-- R302: an imm of −8 clears bits 2 to 0. -/
theorem test_andi : gives (.andi 7 6 (-8)) (withS [(6, 0xFF)]) (·.getS 7 == 0xF8) = true := by decide +kernel
/-- R366 and Table 13.1's reading of the 4-bit table: bit 2·P[a] + P[b]; 0x8 is AND. -/
theorem test_plog : gives (.plog 1 2 3 8) (withMe fun st => { st with p := [(2, true), (3, true)] }) (·.getP 1) && gives (.plog 1 2 3 8) (withMe fun st => { st with p := [(2, true)] }) (fun t => !t.getP 1) = true := by decide +kernel
/-- Writes to s0 and p0 are discarded (R98). -/
theorem test_zero_registers : gives (.add 0 4 4) (withS [(4, 3)]) (fun t => t.getS 0 == 0 && t.getS 4 == 3) && gives (.cmp 0 .ne 4 4 .set) small (·.getP 0) = true := by decide +kernel
/-- Table 13.3: the second of three arrivals parks with e = 5; the third completes the episode. -/
theorem test_bar : gives (.bar 3 4) { withS [(3, 256), (4, 3)] with mem := Memory.writeList [] 256 (leBytes 8 0x500000001) } (fun t => t.out == .held && Memory.readList t.mem 256 8 == leBytes 8 0x500000002) &&
    gives (.bar 3 4) { withS [(3, 256), (4, 3)] with mem := Memory.writeList [] 256 (leBytes 8 0x500000002) } (fun t => t.out == .moved && Memory.readList t.mem 256 8 == leBytes 8 0x600000000) = true := by decide +kernel
/-- The copy of Table 13.5, of the values 0 to 7, in its one step. -/
def table135 : State :=
  let u := underWay (copyCmd 0 (.copy { src := 0x100000, dst := 0xFF0000000400, esize := 4, dims := [(3, 4, 4), (2, 16, 12)] } none))
  { u with mem := Memory.writeList [] 0x100000 ([0, 1, 2, 3, 4, 5, 6, 7].flatMap (leBytes 4)) }
theorem test_copy : gives (.copyStep 0 0) table135 (fun t => leNat (Memory.readList (t.core 0).sp 0x400 8) == 0x100000000 && leNat (Memory.readList (t.core 0).sp 0x408 8) == 0x400000002 &&
    leNat (Memory.readList (t.core 0).sp 0x410 8) == 0x600000005) = true := by decide +kernel
/-- The descriptor of Table 13.5 reads as that copy. -/
theorem test_descriptor : planned (copyPlan 0xFF0000000000 ([0x100000, 0xFF0000000400, 0x21, 0, 0x400000003, 0x400000000, 0x200000000, 0x10, 0xC].flatMap (leBytes 8))) =
    some { src := 0x100000, dst := 0xFF0000000400, esize := 4, dims := [(3, 4, 4), (2, 16, 12)] } := by decide +kernel
/-- The conversions of 05 after Table 5.7 and of VCVT's entry (R402). -/
theorem test_convert : [0x40600000, 0x40200000, 0xC3480000, 0x7FC00000].map (convertAt .f32 .i8 .rne true none) = [4, 2, 0x80, 0] ∧ convertAt .f32 .i8 .rne false none 0xC3480000 = 56 ∧
    [0x3F000000, 0x3FC00000, 0xBF800000, 0x7FC00000].map (convertAt .f32 .i8 .rne true (some 0x43000000)) = [64, 127, 0x80, 0] ∧
    convertAt .f32 .i8 .rne false (some 0x43000000) 0x3FC00000 = 0xC0 := by decide +kernel
/-- The format words of 02 and 05. -/
theorem test_formats : fmtOf 0xFF1375 = { at' := 5, wt := 7, ot := 3, acc := true, tr := false, src := false, scl := false, klen := 256, scloff := 0 } ∧
    fmtOf 0x40007FD011 = { at' := 1, wt := 1, ot := 0, acc := true, tr := false, src := true, scl := true, klen := 128, scloff := 64 } := by decide
/-- Element sums by hand: 1.5 + 2.25 = 3.75, and 1 + 2⁻²⁴ to even; bf16 1 × 3 + 0.5. -/
theorem test_elements : addAt .f32 0x3FC00000 0x40100000 = 0x40700000 ∧ addAt .f32 0x3F800000 0x33800000 = 0x3F800000 ∧ fmaAt .bf16 0x3F80 0x4040 0x3F00 = 0x4060 ∧ mulAt .f16 0x3C00 0x7C00 = 0x7C00 ∧
    mulAt .f32 0 0x7F800000 = 0x7FC00000 ∧ minAt .f32 0x80000000 0 = 0x80000000 := by decide +kernel
/-- The AN, PCID and SID of 01's example. -/
theorem test_numbers : arrayCore 0x22508 = 137 ∧ arrayDie 0x22508 = 2 ∧ coreOf 275 = 137 ∧ bayOf 0x22508 % 16 = 4 := by decide
/-- A privileged register read from a world takes PRIV and suspends (R107, R213). -/
theorem test_priv : gives (.csrr 3 0x130) small (fun t => (t.stream 0).run == .suspended && (t.stream 0).fcode == 3) = true := by decide +kernel
/-- A WEVT takes its set bits, and is kept as a wait when there are none (R417). -/
theorem test_wevt : gives (.wevt 6 1) (withMe fun st => { st with evt := 5 }) (fun t => t.getS 6 == 1 && t.me.evt == 4) = true := by decide +kernel
/-- The step runs what stands at the engine's PC: AND s3, s4, s5 of 12 and 10. -/
theorem test_step : (match step (aboutTo 0) with | .next t => (t.stream 0).s == [(3, 8), (4, 12), (5, 10)] | _ => false) = true := by decide +kernel
/-- And a word placed for it after reset. -/
theorem test_step_placed : (match step (State.reset.withFetchWord 32 0x600052FF) with | .next t => Tab.get 0 (t.stream t.cur.sid).s 5 == -1 | _ => false) = true := by decide +kernel
/-- SHA-256 of "abc" (FIPS 180-4's example). -/
theorem test_sha : sha256 [0x61, 0x62, 0x63] = beBytes 32 0xba7816bf8f01cfea414140de5dae2223b00361a396177a9cb410ff61f20015ad := by decide +kernel

/-- A store of S into the pages of a gate that die 1 has, which stood behind a held one; its lane had popped a token of V. -/
def lateStore : State := { gated with
  gates := [otherGate]
  pages := [dataPage, textPage, { scanPage with cls := 0 }]
  queue := [{ id := 1, sid := 0, core := 0, wid := 1, loc := .dram 8388608, dva := 8388608, data := [1], line := 4194304, lane := 1, late := true, tw := some (.v, true) }] }

/-- R211, R213, R222, R268: it takes GATE with its token back and does not move again; once the gate is die 0's, RETRY pops the token and
the store goes on. -/
theorem test_late_store_refused : let s := lateStore.moveNth 0
    (s.stream 0).run = .suspended ∧ (s.stream 0).fifo .v .s = [true] ∧ s.queue.length = 1 ∧ ({ s with gates := [itsGate] }.moveNth 0).queue = s.queue ∧
    (({ s with gates := [itsGate] }.reissueStore 0).stream 0).fifo .v .s = [] ∧ (({ s with gates := [itsGate] }.reissueStore 0).moveNth 0).queue = [] := by decide +kernel
theorem test_sev_service : (exec (.sev 4 1 false) (withS [(4, 514)]) |> fun r => match r with | .next t => decide (t = withS [(4, 514)]) | _ => false) = true := by decide +kernel
theorem test_cancel_begun : let s := (firmS [(4, 0), (5, BitVec.allOnes 64)]).setStream 0 { firm.stream 0 with migrate := some 2, yielding := true }
    (match exec (.smig 4 5) s with | .next t => decide (t.me.migst = 3 ∧ (t.stream 0).migrate = some 2) | _ => false) = true := by decide +kernel

/-- R186: a copy waits for an earlier one of C that has yet to read bytes that it reads itself; R9 and R317: a row beyond the address space is no low one. -/
theorem test_copies_read_in_order : let s := withMe fun st => { st with cmds := [{ copyCmd 0 (.copy (someCopy 8) none) with id := 8 }, copyCmd 0 (.copy toFifo none)] }
    gives (.copyStep 0 1) s (fun t => t.me.vq.isEmpty) && gives (.copyStep 0 0) s (fun t => t.me.cmds.map (·.id) == [9]) = true ∧
    formAt (2 ^ 64 - 2 ^ 40) [2 ^ 24] [2 ^ 16] = 2 ^ 64 := by decide +kernel

/-- R236, R382: the target that a request of the stream's own reserves is not free, and the request stands. -/
theorem test_smig_again : let s : State := { firmS [(4, 0), (5, 1)] with migbase := 2097152 }
    gives (.smig 4 5) s (fun t => t.me.migst == 0 && (match exec (.smig 4 5) t with | .next u => u.me.migst == 2 && (u.stream 0).migrate == some 2 | _ => false)) = true := by decide +kernel

/-- R63: tokens that find a FIFO full wait in their order. -/
theorem test_tokens_wait : let st := (((({ busy with tokens := [(tokenKey .s .v, List.replicate 16 true)] } : Stream).pushOrWait .s (some .v)).pushOrWait .s (some .v)).pushWaiting .s)
    (st.eng' .s).push = [.v, .v] ∧ (st.fifo .s .v).length = 16 := by decide

theorem wit_ProductsAndQuotients : (withS [(4, -7)]).getS 5 = 0 ∧ ((withS [(4, 0x8000000000000000), (5, -1)]).getS 4).toInt = -(2 ^ 63) ∧ ((withS [(4, 0x8000000000000000), (5, -1)]).getS 5).toInt = -1 ∧
    (withS [(4, -7), (5, 2)]).getS 5 ≠ 0 ∧ ((withS [(4, -7), (5, 2)]).getS 4).toInt ≠ -(2 ^ 63) := by decide +kernel

/-! ### Witnesses: flips before a write, refused words and lines, rounded functions -/

/-- No flip stands before a write of the small states. -/
theorem wit_noFlip : (withS [(4, 192)]).flipFirst 200 8 = false ∧ stacked.flipFirst (addrAdd (stacked.getS 31) (0 * 8)) 8 = false ∧ (withS [(4, 184), (5, 1)]).flipFirst 192 8 = false ∧
    (withS [(4, 256), (5, 1)]).flipFirst 256 8 = false ∧ (copying 8).mayReadNow 0 ((copying 8).getE .c 4).toNat 192 = true ∧ (copying 2).mayReadNow 0 ((copying 2).getE .c 7).toNat 64 = true ∧
    (∀ i < 8, (underWay (copyCmd 0 (.copy (someCopy 8) none))).flipBefore 0 .c .s (copyCmd 0 (.copy (someCopy 8) none)).place ((someCopy 8).dstAt (0 + i)) 8 = false) ∧
    (scanning aRegion scanArgs).mayReadNow 0 (spDva + 4096) 64 = true := by decide +kernel

/-- The gate of `gated` covers a page of its own at 8 MiB; C has yet to flip it with a copy whose lane stands before S's. -/
def flipAhead : State := { withMe fun st => { st.setEng .s { atLine with visit := 1, lane := 1 } with s := [(4, 8388608)], cmds := [flagCmd 256 1] } with
  gates := gated.gates, pages := [dataPage, textPage, { dataPage with dva := 8388608, dpa := 8388608, size := 0, cls := 2 }] }
theorem wit_flipAhead : flipAhead.flipFirst 8388608 8 = true ∧ (flipAhead.target 0 (addrAdd (flipAhead.getS 4) 0) 8 .write (flipAhead.standsBehind 0)).toOption.isSome = true ∧
    (flipAhead.atomicTarget 0 (addrAdd (flipAhead.getS 4) 0) 8 .atomic (flipAhead.standsBehind 0)).toOption.isSome = true := by decide +kernel

/-- Table 11.5, row 6: S's store to the page after CCOPYF's flip waits; with the flip made it is the other side's page, and takes GATE. -/
theorem test_store_waits_for_flip : gives (.st 5 4 .d 0) flipAhead (fun t => t.out == .held && t.queue.isEmpty) = true := by decide +kernel
theorem test_store_after_flip : (flipAhead.pageCheck 1 0 8388608 8 .write |>.toOption.isSome) = true ∧
    (({ flipAhead with gates := [{ itsGate with owner := true }] } : State).pageCheck 1 0 8388608 8 .write |>.toOption.isSome) = false := by decide +kernel

theorem wit_BlocksEnd_acquire : let a := addrAdd (stacked.getS 31) (BitVec.ofInt 20 (-40)).toInt; a < stacked.me.stlim.toNat ∨ stacked.me.stbase.toNat ≤ a := by decide
theorem wit_ControlRegisters_world : let s : State := { small with streams := [(0, { busy with ident := { wid := 0 } })] }
    s.firmware 0 = true ∧ isService 0 = false := by decide
theorem wit_ArraysChangeHands_stops :
    ((rangeWord 5).arrays.find? fun an => !((leased .free 0).joined (arrayDie an)) || ((leased .free 0).lease an).st != .leased || ((leased .free 0).lease an).wid != ((leased .free 0).lease 5).wid) = some 5 ∧
    ((rangeWord 5).arrays.find? fun an => !((leased .leased 0).joined (arrayDie an)) || ((leased .leased 0).lease an).st != .free) = some 5 ∧
    ((rangeWord 5).arrays.find? fun an => !((leased .free 0).joined (arrayDie an)) || ((leased .free 0).lease an).st != .erased) = some 5 ∧
    (leased .free 0 0).spanCheck 512 0x60 32 .read = none ∧ (leased .free 0 0).spanCheck 512 0 (0x200 + 24) .write = none ∧
    (leased .leased 0 0).grantStatus (rangeWord 5) (leNat ((leased .leased 0 0).peek 0 0 8)) (leNat ((leased .leased 0 0).peek 0 8 8)) (leNat ((leased .leased 0 0).peek 0 40 24)) = 1 ∧
    ({ ops := [{ wid := 1, sid := 0, cmd := 7, an := 5, awrite := true }] } : Bay).writing ≠ [] := by decide +kernel

theorem wit_StepRunsDecoded_illop : (∃ r, decodeLane .s 0x38003215 none = .error r) ∧ (((afterBegin 0).stream 0).eng' .s).badGate 1 = true ∧ atLane.misused (.bar 3 6) = true ∧ isService 0 = false := by
  exact ⟨⟨_, rfl⟩, by decide +kernel, by decide, by decide⟩
theorem wit_StepRunsDecoded_gate : let es : EngState := { atLine with loops := [{ lvl := 0, count := 2, i := 0, first := 4194304, last := 4194400, stages := 2, rot := false, tok := false, iters := 3, opn := true, ts := none, out := 4194400 }] }
    es.badGate 1 = false ∧ es.g.getLsbD (1 - 1) = false ∧ { es with g := 1 }.g.getLsbD (1 - 1) = true := by decide

/-- The line of `aboutTo` with a header field named zero that is not zero. -/
def badLine : State := { aboutTo 0 with mem := Memory.writeList small.mem 4194304 (leBytes 32 (0x11 + 2 ^ 29 + 0x38003214 * 2 ^ 32)) }
theorem wit_WordsRefused : decodeLane .s 0x38003214 none = .ok { tw := none, ts := none, g := 0, instr := .and 3 4 5 } ∧ 0x27 ≤ opOf (0x27 * 2 ^ 26) ∧ 5 ≤ opOf (0x05 * 2 ^ 26) ∧
    (0x38003214 + 6 * 2 ^ 23) / 2 ^ 23 % 8 = 6 ∧ (0x38003214 + 7 * 2 ^ 20) / 2 ^ 20 % 8 = 7 ∧ (0x38003214 + 2 ^ 23) / 2 ^ 23 % 8 = Engine.s.code ∧
    wide64 .s (opOf 0x38003214) ≠ (some 0).isSome := ⟨rfl, by decide, by decide, by decide, by decide, by decide, by decide⟩
theorem wit_LinesRefused : badLine.takeTurn.1 = .lane 0 .s ∧ badLine.takeTurn.2.mayIssue 0 = true ∧ (let s := badLine.takeTurn.2
    let es := (s.stream 0).eng' .s
    es.ended = false ∧ es.push = [] ∧ stuck .s (s.stream 0).cmds = false ∧ es.atEnd = false ∧ (s.stream 0).wait = none ∧ es.lane = 0 ∧ s.mayBegin 0 es.blk = true ∧ s.slipOk 0 .s = true ∧
    s.queuesOpen 0 .s = true ∧ s.fetchWaits 0 es.line = false ∧ ((s.fetch 0 es.line).1.stream 0).run = .running ∧
    (match (s.fetch 0 es.line).2 with | .ok l => (Line.error l).isSome | .error _ => false) = true) := by decide +kernel

theorem wit_RootsRounded : isFloat .bf16 = true ∧ ∃ m e, decodeFloat .bf16 0x3FC0 = .fin false m e ∧ m ≠ 0 ∧ ∃ x y z, Denotes .bf16 0x3FC0 x ∧ FFun.takes .rcp x y ∧ FFun.takes .rsq x z :=
  ⟨by decide, _, _, rfl, by decide +kernel, _, _, _, ⟨_, _, _, rfl, rfl⟩, rfl, rfl⟩
theorem wit_SeriesRounded : ∃ m e, decodeFloat .bf16 0x3FC0 = .fin false m e ∧ m ≠ 0 ∧ (ffinite .erf .bf16 false m e).isSome = true ∧ ∃ x y, Denotes .bf16 0x3FC0 x ∧ FFun.takes .erf x y :=
  ⟨_, _, rfl, by decide +kernel, by decide +kernel, _, _, ⟨_, _, _, rfl, rfl⟩, rfl⟩

end Sys2Proof.Tests
end

section
/-! PROOF of O58: every step keeps device memory and the contents of the arrays in canonical form.

One lemma says of each operation that writes a state that it keeps `State.canon`, in the order of the model's files, and each proof
follows the branches of the operation it speaks of: `State.canon.foo : s.canon → (s.foo …).canon`, and `Result.canon.foo` for the
instruction or event `execFoo`. Most operations leave both memories alone, and the few that write them do so by `Memory.write`,
`Memory.writeList`, `Memory.clear` and `Memory.paste`, which keep the form (`Memory.wf_write` and its neighbours). -/

namespace Sys2Proof.Machine

set_option Elab.async false

open Sys2Proof

/-! ### How the form passes through branches, folds and pairs -/

/-- An update of fields other than the two memories keeps the form. -/
theorem State.canon.frame {s t : State} (h : s.canon) (hm : t.mem = s.mem := by with_reducible rfl)
    (hr : t.rows = s.rows := by with_reducible rfl) : t.canon :=
  State.canon_of_eq h hm hr

theorem State.canon.ite {c : Prop} {_ : Decidable c} {t u : State} (ht : t.canon) (hu : u.canon) : (if c then t else u).canon := by
  split
  · exact ht
  · exact hu

theorem State.canon.fst_ite {α : Type} {c : Prop} {_ : Decidable c} {p q : State × α} (hp : p.1.canon) (hq : q.1.canon) : (if c then p else q).1.canon := by
  split
  · exact hp
  · exact hq

theorem State.canon.foldl {α : Type} {f : State → α → State} {l : List α} {s : State} (h : s.canon) (hf : ∀ t x, t.canon → (f t x).canon) :
    (l.foldl f s).canon :=
  State.canon_foldl f hf l h

theorem State.canon.fst_foldl {α β : Type} {f : State × β → α → State × β} {l : List α} {p : State × β} (h : p.1.canon)
    (hf : ∀ r x, r.1.canon → (f r x).1.canon) : (l.foldl f p).1.canon :=
  foldl_keeps (fun r : State × β => r.1.canon) f hf l h

theorem State.canon.of_fst {α : Type} {p : State × α} {t : State} {x : α} (h : p.1.canon) (e : p = (t, x)) : t.canon := by
  subst e
  exact h

/-- The state that goes on from a result, where there is one, is in canonical form. -/
def Result.canon (r : Result) : Prop := ∀ t, r = .next t → t.canon

theorem Result.canon.next {t : State} (h : t.canon) : Result.canon (.next t) := by
  rintro _ ⟨⟩
  exact h

theorem Result.canon.fault {f : Fault} : Result.canon (.fault f) := by
  rintro _ ⟨⟩

theorem Result.canon.refused {r : Refusal} : Result.canon (.refused r) := by
  rintro _ ⟨⟩

theorem Result.canon.ite {c : Prop} {_ : Decidable c} {r q : Result} (hr : Result.canon r) (hq : Result.canon q) : Result.canon (if c then r else q) := by
  split
  · exact hr
  · exact hq

/-- So is the state that an engine's turn has been prepared to. -/
def Prep.canon : Prep → Prop
  | .done t => t.canon
  | .run _ t => t.canon

theorem Prep.canon.ite {c : Prop} {_ : Decidable c} {r q : Prep} (hr : r.canon) (hq : q.canon) : (if c then r else q).canon := by
  split
  · exact hr
  · exact hq

/-- So is the state that a wait has been tried in. -/
def Tried.canon : Tried → Prop
  | .holds t => t.canon
  | .waits t => t.canon
  | .later t => t.canon
  | .faults t _ => t.canon

theorem Tried.canon.ite {c : Prop} {_ : Decidable c} {r q : Tried} (hr : r.canon) (hq : q.canon) : (if c then r else q).canon := by
  split
  · exact hr
  · exact hq

theorem Tried.canon.fst_ite {α : Type} {c : Prop} {_ : Decidable c} {p q : Tried × α} (hp : p.1.canon) (hq : q.1.canon) : (if c then p else q).1.canon := by
  split
  · exact hp
  · exact hq

theorem Tried.canon.of_fst {α : Type} {p : Tried × α} {t : Tried} {x : α} (h : p.1.canon) (e : p = (t, x)) : t.canon := by
  subst e
  exact h

/-! ### Updates of other fields -/

section
variable {s : State}

theorem State.canon.withLaunches {l} (h : s.canon) : State.canon { s with launches := l } := h
theorem State.canon.withErrors {m f} (h : s.canon) : State.canon { s with memErr := m, memBad := f } := h
theorem State.canon.withServices {l} (h : s.canon) : State.canon { s with services := l } := h
theorem State.canon.withFlows {l} (h : s.canon) : State.canon { s with flows := l } := h
theorem State.canon.withMem {m} (h : s.canon) (hm : Memory.wf m = true) : State.canon { s with mem := m } := ⟨hm, h.2⟩
theorem State.canon.withGates {l} (h : s.canon) : State.canon { s with gates := l } := h
theorem State.canon.withTraps {l m} (h : s.canon) : State.canon { s with traps := l, cores := m } := h
theorem State.canon.withImages {l m} (h : s.canon) : State.canon { s with images := l, spent := m } := h
theorem State.canon.withShadow {l} (h : s.canon) : State.canon { s with shadow := l } := h

/-! ### Registers, faults and the smallest writes (03, 09) -/

theorem State.canon.setStream {sid st} (h : s.canon) : (s.setStream sid st).canon := h
theorem State.canon.setCore {c k} (h : s.canon) : (s.setCore c k).canon := h
theorem State.canon.setLease {an l} (h : s.canon) : (s.setLease an l).canon := h
theorem State.canon.setBay {b x} (h : s.canon) : (s.setBay b x).canon := h
theorem State.canon.setWorld {w x} (h : s.canon) : (s.setWorld w x).canon := h
theorem State.canon.setVf {n x} (h : s.canon) : (s.setVf n x).canon := h
theorem State.canon.setLink {n x} (h : s.canon) : (s.setLink n x).canon := h
theorem State.canon.setMe {st} (h : s.canon) : (s.setMe st).canon := h
theorem State.canon.finish {o} (h : s.canon) : (s.finish o).canon := h
theorem State.canon.held (h : s.canon) : s.held.canon := h
theorem State.canon.deferred (h : s.canon) : s.deferred.canon := h
theorem State.canon.setS {r v} (h : s.canon) : (s.setS r v).canon := .ite h h
theorem State.canon.setP {r v} (h : s.canon) : (s.setP r v).canon := .ite h h
theorem State.canon.setM {r x} (h : s.canon) : (s.setM r x).canon := .ite h h
theorem State.canon.setMyEng {x} (h : s.canon) : (s.setMyEng x).canon := h
theorem State.canon.progress {sid} (h : s.canon) : (s.progress sid).canon := h
theorem State.canon.lockdown {cause detail} (h : s.canon) : (s.lockdown cause detail).canon := .ite h h

theorem State.canon.returnToken (h : s.canon) : s.returnToken.canon := by
  unfold State.returnToken
  dsimp only
  split <;> exact h

theorem State.canon.fault {f} (h : s.canon) : (s.fault f).canon := (State.canon_raise _ _ _ _ _ _ h.returnToken).finish
theorem State.canon.illop (h : s.canon) : s.illop.canon := h.fault
theorem State.canon.priv (h : s.canon) : s.priv.canon := h.fault

theorem Result.canon.privileged {k} (h : s.canon) (hk : ∀ (a : State), a.canon → (k a).canon) : Result.canon (s.privileged k) :=
  .ite (hk _ h) (.next h.priv)

/-! ### Memory (06 R136 to R157) -/

theorem State.canon.cleanGranule {g} (h : s.canon) : (s.cleanGranule g).canon := h

theorem State.canon.atSync {wid dpa} (h : s.canon) : (s.atSync wid dpa).canon := by
  unfold State.atSync
  extract_lets +onlyGivenNames _ _ u
  have hu : u.canon := .ite h h
  exact hu.frame

theorem State.canon.sliceKey {wid slice} (h : s.canon) : (s.sliceKey wid slice).canon := h
theorem State.canon.setRing {c r x} (h : s.canon) : (s.setRing c r x).canon := h
theorem State.canon.mapStores {f} (h : s.canon) : (s.mapStores f).canon := h
theorem State.canon.dropStore {lvl id} (h : s.canon) : (s.dropStore lvl id).canon := State.canon_setAt _ _ h
theorem State.canon.dropAhead {world} (h : s.canon) : (s.dropAhead world).canon := h

theorem State.canon.realign {sid} (h : s.canon) : (s.realign sid).1.canon := by
  unfold State.realign
  extract_lets +onlyGivenNames t
  have ht : t.1.canon := State.canon_drain _ h
  exact .fst_ite (State.canon_dropEarly _ ht) ht

theorem State.canon.readMet {sid e l n acq} (h : s.canon) : (s.readMet sid e l n acq).1.canon := State.canon_meet _ _ _ _ _ h
theorem State.canon.spMeet {sid e off n} (h : s.canon) : (s.spMeet sid e off n).canon := .ite h h.readMet

theorem State.canon.loadEarly {sid base off n} (h : s.canon) : (s.loadEarly sid base off n).canon := by
  refine .ite h ?_
  split
  · exact .ite h (.ite h h)
  · exact .ite h (.ite h h)
  · exact h

theorem State.canon.passEarly {sid l n} (h : s.canon) : (s.passEarly sid l n).canon := .ite h h
theorem State.canon.takeEarly {sid base dva l n} (h : s.canon) : (s.takeEarly sid base dva l n).1.canon := h.passEarly

theorem State.canon.reissueStore {sid} (h : s.canon) : (s.reissueStore sid).canon := by
  unfold State.reissueStore
  split
  · exact h
  · split
    · exact State.canon_editStore _ _ h
    · exact State.canon_raise _ _ _ _ _ _ h
    · exact h

/-! ### Leases and accounts (10 R246 to R257) -/

theorem State.canon.committed (h : s.canon) : s.committed.canon := h
theorem State.canon.endAwrite {id} (h : s.canon) : (s.endAwrite id).canon := h

theorem State.canon.dropAwrites {an} (h : s.canon) : (s.dropAwrites an).canon :=
  .foldl h (fun _ _ ht => (State.canon_logError _ _ _ _ _ _ ht).endAwrite)

theorem State.canon.revoke {an party batch byEop} (h : s.canon) : (s.revoke an party batch byEop).canon := h.setLease.dropAwrites
theorem State.canon.eraseFree {an party batch} (h : s.canon) : (s.eraseFree an party batch).canon := h

theorem State.canon.revokeAll {ans party byEop} (h : s.canon) : (s.revokeAll ans party byEop).canon := by
  refine .committed ?_
  extract_lets +onlyGivenNames t
  have ht : t.canon := .foldl h (fun _ _ ht => ht.revoke)
  exact ht.frame

theorem State.canon.setMaint {an mw} (h : s.canon) : (s.setMaint an mw).canon := h
theorem State.canon.charge {an row wid chg} (h : s.canon) : (s.charge an row wid chg).canon := h
theorem State.canon.setWeight {an wid w} (h : s.canon) : (s.setWeight an wid w).canon := h

theorem State.canon.grantAll {r wid weight rsv eop} (h : s.canon) : (s.grantAll r wid weight rsv eop).1.canon := by
  unfold State.grantAll
  extract_lets +onlyGivenNames _ t
  have ht : t.canon := .foldl h (fun _ _ ht => ht.setLease)
  exact ht.setWeight.committed

theorem State.canon.attestAll {r} (h : s.canon) : (s.attestAll r).canon := .committed (.foldl h (fun _ _ ht => ht.setLease))

/-! ### Engines, blocks and lanes (03 R57 to R71) -/

theorem State.canon.fetch {sid dva} (h : s.canon) : (s.fetch sid dva).1.canon := by
  unfold State.fetch
  split
  · exact h
  · refine .fst_ite h ?_
    split
    · exact h
    · split
      rename_i t _ hp
      have ht : t.canon := (State.canon_readGranule _ _ _ _ _ _ h).of_fst hp
      exact .fst_ite ht ht.setStream

theorem State.canon.fenceDuty {sid sc k mask blk visit line} (h : s.canon) : (s.fenceDuty sid sc k mask blk visit line).1.canon := by
  refine .fst_ite h ?_
  extract_lets +onlyGivenNames _
  split
  rename_i t _ hq
  have ht : t.canon := .of_fst (.fst_ite h (State.canon_flush _ _ _ h)) hq
  refine .fst_ite ht ?_
  extract_lets +onlyGivenNames u
  have hu : u.canon := .ite (State.canon_dropEarly _ ht) ht
  exact .fst_ite hu (.fst_ite hu (State.canon_acquire _ _ _ hu.setStream))

theorem State.canon.retireBeside {sid c} (h : s.canon) : (s.retireBeside sid c).canon := h
theorem State.canon.leaveBeside {sid c} (h : s.canon) : (s.leaveBeside sid c).canon := .ite h h

theorem State.canon.tryFences {sid} (h : s.canon) : (s.tryFences sid).canon := by
  refine .foldl h (fun _ _ ht => ?_)
  split
  · exact .ite ht (.ite ht.fenceDuty.retireBeside ht.fenceDuty)
  · exact .ite ht.retireBeside ht
  · exact .ite ht.setStream.leaveBeside ht
  · exact .ite ht ht.setStream.leaveBeside
  · exact .ite ht.leaveBeside ht
  · exact ht

theorem Result.canon.holdOrder (h : s.canon) : Result.canon (s.holdOrder) := .next h

theorem State.canon.enterBlock {sid e} (h : s.canon) : (s.enterBlock sid e).canon := by
  unfold State.enterBlock
  dsimp only
  split
  · exact .ite h h
  · exact h

theorem State.canon.pastLine {sid e line} (h : s.canon) : (s.pastLine sid e line).canon := .ite (.ite h h) h

theorem State.canon.afterLine {sid e line} (h : s.canon) : (s.afterLine sid e line).canon := by
  unfold State.afterLine
  dsimp only
  split
  · exact .ite h h.pastLine
  · exact h.pastLine

theorem State.canon.retireCmds {sid e} (h : s.canon) : (s.retireCmds sid e).canon := by
  refine .foldl (.ite h h) (fun _ _ ht => ?_)
  split
  · exact State.canon_notifyWorld _ _ _ _ _ ht
  · exact ht

theorem State.canon.retireToken {sid e line lane ts} (h : s.canon) : (s.retireToken sid e line lane ts).canon := .ite h h
theorem State.canon.loopToken {sid e line ts} (h : s.canon) : (s.loopToken sid e line ts).canon := .ite h h
theorem State.canon.closeLoop {sid e f fs} (h : s.canon) : (s.closeLoop sid e f fs).canon := h.setStream.loopToken.afterLine

theorem State.canon.loopStep {sid e} (h : s.canon) : (s.loopStep sid e).canon := by
  unfold State.loopStep
  extract_lets +onlyGivenNames _ _
  split
  · exact h
  · refine .ite h.closeLoop (.ite ?_ ?_)
    · split
      · exact h
      · dsimp only
        split
        · exact h
        · exact h.setStream.setStream.progress.afterLine
      · extract_lets +onlyGivenNames _ _ t
        have ht : t.canon := h
        refine .ite ht.closeLoop ?_
        dsimp only
        split
        · exact ht.setStream.progress
        · exact ht.setStream.progress.afterLine
    · dsimp only
      split
      · exact h
      · exact h.setStream.progress.afterLine

theorem State.canon.beginVisit {sid e} (h : s.canon) : (s.beginVisit sid e).canon := by
  refine .ite h (.ite h (.ite h ?_))
  split
  · next hq => exact State.canon_raise _ _ _ _ _ _ (h.fetch.of_fst hq)
  · next hq =>
    split
    · exact .ite (h.fetch.of_fst hq).setStream (State.canon_raise _ _ _ _ _ _ (h.fetch.of_fst hq))
    · exact .ite (h.fetch.of_fst hq).tryFences.setStream (h.fetch.of_fst hq).tryFences.setStream

theorem State.canon.advance {sid e} (h : s.canon) : (s.advance sid e).canon := h

theorem State.canon.skipGated {sid e} (h : s.canon) : (s.skipGated sid e).canon := by
  unfold State.skipGated
  extract_lets +onlyGivenNames t _
  have ht : t.canon := .ite h h
  split
  · exact .ite ht.setStream.progress ht.advance.progress
  · exact ht.advance.progress

theorem State.canon.settleLane (h : s.canon) : s.settleLane.canon := by
  unfold State.settleLane
  extract_lets +onlyGivenNames _ _ t
  have ht : t.canon := .ite h h
  split
  · exact ht
  · exact ht
  · exact ht.setStream.progress
  · extract_lets +onlyGivenNames u _ _
    have hu : u.canon := .ite ht ht.progress
    split
    · exact .ite hu.setStream (.ite hu.advance hu.advance.retireToken)
    · exact .ite hu.advance hu.advance.retireToken

theorem State.canon.enterWorld {t : State} {sid e} (h : s.canon) (he : s.enterWorld sid e = some t) : t.canon := by
  unfold State.enterWorld at he
  split at he
  · cases he
    exact h
  · dsimp only at he
    split at he
    · cases he
      exact h
    · split at he
      · cases he
      · cases he
        exact h.setCore

theorem Prep.canon.beginIssue {sid e} (h : s.canon) : (s.beginIssue sid e).canon := by
  unfold State.beginIssue
  dsimp only
  split
  · exact h.frame.illop
  · refine .ite h.frame.illop (.ite ?_ ?_)
    · split
      · exact h.frame.setStream.skipGated
      · exact h.frame.skipGated
    · refine .ite h.frame.illop ?_
      split
      · exact h
      · next hr =>
        split
        · exact h.frame.enterWorld hr
        · split <;> exact (h.frame.enterWorld hr).setStream

theorem State.canon.settleBehind {t : State} {sid e} (ht : t.canon) : (s.settleBehind t sid e).canon := .ite ht.setStream ht

theorem Prep.canon.prepare {sid e} (h : s.canon) : (s.prepare sid e).canon :=
  .ite h.tryFences (.ite h (.ite h.retireCmds (.ite h.tryFences.enterBlock (.ite h.tryFences
    (.ite (.ite (.beginIssue h.beginVisit) h.beginVisit) (.ite (.beginIssue h) (.ite h.loopStep h.afterLine)))))))

theorem State.canon.addCmd {c} (h : s.canon) : (s.addCmd c).canon := h
theorem State.canon.branch {line} (h : s.canon) : (s.branch line).canon := h
theorem State.canon.openLoop {lvl cnt body stages rot tok} (h : s.canon) : (s.openLoop lvl cnt body stages rot tok).canon := .ite h.illop (.ite h h)

theorem State.canon.faultAt {sid e line lane f} (h : s.canon) : (s.faultAt sid e line lane f).canon :=
  .ite h (State.canon_raise _ _ _ _ _ _ h.frame.returnToken)

theorem State.canon.openRep {n dA dB dC} (h : s.canon) : (s.openRep n dA dB dC).canon := .ite h.illop h

/-! ### S's loads and stores, and the tag table (06 R139 to R142, R147) -/

theorem State.canon.stackTurn {l n} (h : s.canon) : (s.stackTurn l n).1.canon := by
  unfold State.stackTurn
  extract_lets +onlyGivenNames t
  have ht : t.1.canon := State.canon_drain _ h
  exact .fst_ite ht (State.canon_settled _ _ _ ht)

theorem State.canon.directWrite {l data} (h : s.canon) : (s.directWrite l data).1.canon :=
  .fst_ite (State.canon_writeHome _ _ _ _ h.stackTurn) h.stackTurn

theorem State.canon.loadReg {d b a n acq} (h : s.canon) : (s.loadReg d b a n acq).canon := by
  unfold State.loadReg
  dsimp only
  split
  · exact h.fault
  · split
    · exact (State.canon_meet _ _ _ _ _ h.takeEarly).setS
    · exact .ite h (.ite ((State.canon_load _ _ _ _ _ _ h.takeEarly).fault) ((State.canon_load _ _ _ _ _ _ h.takeEarly).setS))

theorem Result.canon.ld {d b sz o} (h : s.canon) : Result.canon (execLd d b sz o s) := .ite (.next h.fault) (.next h.loadReg)
theorem State.canon.storeReg {v a n t rel} (h : s.canon) : (s.storeReg v a n t rel).canon := h

theorem Result.canon.st {a b sz o} (h : s.canon) : Result.canon (execSt a b sz o s) := by
  refine .ite (.next h.fault) ?_
  split
  · exact .next h.fault
  · refine .ite (.holdOrder h) (.ite (.ite (.next h.stackTurn.held) ?_) (.next h))
    split
    · exact .next h.stackTurn.fault
    · exact .next (State.canon_writeHome _ _ _ _ h.stackTurn)

theorem Result.canon.ldacq {d b sz sc off} (h : s.canon) : Result.canon (execLdacq d b sz sc off s) := by
  refine .ite (.next h.fault) ?_
  split
  · exact .next h.fault
  · exact .ite (.next h.realign.loadReg) (.next h.realign.held)

theorem Result.canon.strel {a b sz sc off} (h : s.canon) : Result.canon (execStrel a b sz sc off s) := by
  refine .ite (.next h.fault) ?_
  split
  · exact .next h.fault
  · refine .ite (.holdOrder h) (.ite (.next h.realign.held) ?_)
    split
    · exact .next h.realign.fault
    · exact .next h.realign.storeReg

theorem Result.canon.mark (h : s.canon) : Result.canon (execMark s) := .ite (.next h.realign) (.next h.realign.setMyEng.held)
theorem Result.canon.tset {d a b} (h : s.canon) : Result.canon (execTset d a b s) := .ite (.next h.illop) (.next h.setMe.setS)

/-! ### Rings (06 R143, R144) -/

theorem State.canon.setMyRing {r x} (h : s.canon) : (s.setMyRing r x).canon := h
theorem Result.canon.rclaim {d r a} (h : s.canon) : Result.canon (execRclaim d r a s) := .ite (.next h.setMyRing.setS) (.next h.fault)

theorem Result.canon.rcommit {r a} (h : s.canon) : Result.canon (execRcommit r a s) := by
  unfold execRcommit
  extract_lets +onlyGivenNames _ _ _ t
  have ht : t.1.canon := State.canon_release _ _ h
  exact .ite (.next ht.held) (.ite (.next (State.canon_ringMark _ _ _ ht.setMyRing)) (.next ht.fault))

theorem Result.canon.rfree {r a} (h : s.canon) : Result.canon (execRfree r a s) :=
  .ite (.next h.realign.held) (.ite (.next h.realign.setMyRing) (.next h.realign.fault))

/-! ### Branches and waits (03 R59, R60, R72, R73) -/

theorem Result.canon.call {o} (h : s.canon) : Result.canon (execCall o s) :=
  .ite (.next h.fault) (.ite (.next h.directWrite.setS.branch) (.next h.directWrite.held))

theorem Result.canon.ret (h : s.canon) : Result.canon (execRet s) :=
  .ite (.next h.fault) (.ite (.next h.fault) (.ite (.next h.fault) (.next h.spMeet.passEarly.setS.branch)))

theorem Result.canon.ovl {a mask} (h : s.canon) : Result.canon (execOvl a mask s) := by
  refine .ite (.next h.illop) (.ite (.next h.fault) ?_)
  split
  · exact .next h.fault
  · refine .ite (.next h) ?_
    extract_lets +onlyGivenNames t
    have ht : t.1.canon := State.canon_release _ _ h.tryFences
    exact .ite (.next ht.setMe.branch.setMyEng) (.next ht.setMyEng.held)

theorem Result.canon.halt (h : s.canon) : Result.canon (execHalt s) := by
  refine .ite (.next h.illop) ?_
  dsimp only
  split
  · exact .next h
  · exact .ite (.next ((State.canon_enterHandler _ _ _ _ h.setCore).finish)) (.next h)

theorem Tried.canon.tryRing {r k sub cond} (h : s.canon) : (s.tryRing r k sub cond).canon := by
  have ht : (s.drain s.cur.sid).1.canon := State.canon_drain _ h
  have hacq {l : List RelMark} : (l.foldl (fun (u : State) m => u.acquire s.cur.sid m.scope [m]) (s.drain s.cur.sid).1).canon :=
    .foldl ht (fun _ _ hu => State.canon_acquire _ _ _ hu)
  exact .ite h (.ite ht (.ite ht (.ite (State.canon.ite hacq ht) ht)))

theorem Tried.canon.tryEvt {d mask} (h : s.canon) : (s.tryEvt d mask).canon := .ite h h.setMe.setS

theorem Tried.canon.tryGe {v sc a} (h : s.canon) : (s.tryGe v sc a).canon := by
  unfold State.tryGe
  extract_lets +onlyGivenNames _
  split
  · exact h
  · extract_lets +onlyGivenNames t
    have ht : t.1.canon := State.canon_drain _ h
    refine .ite ht ?_
    extract_lets +onlyGivenNames u
    have hu : u.canon := ht.passEarly.atSync
    exact .ite (State.canon_load _ _ _ _ _ _ hu) (.ite (State.canon_load _ _ _ _ _ _ hu) (State.canon_load _ _ _ _ _ _ hu))
  · exact h

theorem State.canon.atHome {sid a d n} (h : s.canon) : (s.atHome sid a d n).1.canon :=
  State.canon_readGranule _ _ _ _ _ _ ((State.canon_settle _ _ _ h).atSync)

theorem Tried.canon.tryBar {a n arrived} (h : s.canon) : (s.tryBar a n arrived).1.canon := by
  unfold State.tryBar
  extract_lets +onlyGivenNames _
  split
  · exact h
  · split
    · refine .fst_ite h ?_
      extract_lets +onlyGivenNames _ t u
      have ht : t.1.canon := State.canon_release _ _ h
      have hu : u.1.canon := .fst_ite (State.canon_settled _ _ _ ht.passEarly) ht
      refine .fst_ite hu ?_
      split
      rename_i v _ _ hq
      have hv : v.canon := hu.atHome.of_fst hq
      refine .fst_ite hv ?_
      extract_lets +onlyGivenNames _ _ _ _ _ w
      have hw : w.canon := State.canon_writeHome _ _ _ _ hv
      exact .fst_ite (State.canon_acquire _ _ _ hw) hw
    · extract_lets +onlyGivenNames t
      have ht : t.1.canon := State.canon_settledHome _ _ _ h.passEarly
      refine .fst_ite ht ?_
      split
      rename_i v _ _ hq
      have hv : v.canon := ht.atHome.of_fst hq
      exact .fst_ite hv (.fst_ite (State.canon_acquire _ _ _ hv) hv)

theorem Tried.canon.tryWait {i arrived} (h : s.canon) : (s.tryWait i arrived).1.canon := by
  unfold State.tryWait
  split
  · dsimp only
    exact .tryRing h
  · dsimp only
    exact .tryRing h
  · exact Tried.canon.tryEvt h
  · exact Tried.canon.tryGe h
  · exact Tried.canon.tryBar h
  · exact h

theorem Result.canon.issueWait {i} (h : s.canon) : Result.canon (s.issueWait i) := by
  unfold State.issueWait
  split
  · next t _ hq =>
    have ht : t.canon := (Tried.canon.tryWait h).of_fst hq
    exact .next ht.branch
  · next t _ _ hq =>
    have ht : t.canon := (Tried.canon.tryWait h).of_fst hq
    exact .next ht.fault
  · next t _ hq =>
    have ht : t.canon := (Tried.canon.tryWait h).of_fst hq
    exact .next ht.held
  · next t e hq =>
    have ht : t.canon := (Tried.canon.tryWait h).of_fst hq
    extract_lets +onlyGivenNames _ u
    have hu : u.canon := .ite ht.progress ht
    exact .next hu.setMe.held

theorem Result.canon.wevt {d mask} (h : s.canon) : Result.canon (execWevt d mask s) := .ite (.next h.illop) (.issueWait h)
theorem Result.canon.bar {b c} (h : s.canon) : Result.canon (execBar b c s) := .ite (.next h.illop) (.issueWait h)

/-! ### Fences, atomics, events, gate flips, range units (08, 11) -/

theorem Result.canon.fence {sc k mask} (h : s.canon) : Result.canon (execFence sc k mask s) :=
  .ite (.next h.fenceDuty) (.ite (.next h.fenceDuty.setMyEng.held) (.next h.fenceDuty.addCmd.deferred))

theorem State.canon.atomic {a d n ord sc dst new} (h : s.canon) : (s.atomic a d n ord sc dst new).canon := by
  unfold State.atomic
  extract_lets +onlyGivenNames _ t
  have ht : t.1.canon := .fst_ite h h.realign
  refine .ite ht.held ?_
  extract_lets +onlyGivenNames _ u
  have hu : u.1.canon := .fst_ite (State.canon_release _ _ ht) ht
  refine .ite hu.held ?_
  extract_lets +onlyGivenNames w
  have hw : w.1.canon := State.canon_settled _ _ _ hu.passEarly
  refine .ite hw.held ?_
  split
  · exact hw.fault
  · refine .ite hw.atHome.fault ?_
    extract_lets +onlyGivenNames _ _ v
    have hv : v.canon := State.canon_meet _ _ _ _ _ hw.atHome
    split
    · exact hv.setS
    · exact .setS (State.canon_writeHome _ _ _ _ hv)

theorem Result.canon.amo {dst b c op ord sc dbl off} (h : s.canon) : Result.canon (execAmo dst b c op ord sc dbl off s) := by
  refine .ite ?_ ?_
  · split
    · extract_lets +onlyGivenNames t
      have ht : t.1.canon := State.canon_settled _ _ _ h
      exact .ite (.next ht.held) (.next ht.setRing.setS)
    · exact .next h.fault
    · exact .next h.fault
  · split
    · exact .next h.fault
    · exact .ite (.holdOrder h) (.next h.atomic)

theorem Result.canon.acas {dst b exp new ord sc dbl off} (h : s.canon) : Result.canon (execAcas dst b exp new ord sc dbl off s) := by
  unfold execAcas
  dsimp only
  split
  · exact .next h.fault
  · exact .ite (.holdOrder h) (.next h.atomic)

theorem State.canon.latchSid {wid t b} (h : s.canon) : (s.latchSid wid t b).canon := .ite h (.ite h h)

theorem Result.canon.sev {a user ev} (h : s.canon) : Result.canon (execSev a user ev s) :=
  .ite (.next h.illop) (.ite (.next h) (.ite (.next h) (.next h.latchSid)))

theorem State.canon.setGate {g} (h : s.canon) : (s.setGate g).canon := h

theorem State.canon.flipGate {core g owner} (h : s.canon) : (s.flipGate core g owner).canon :=
  .ite h ((State.canon_setMarks _ _ _ (State.canon_writtenPoison _ _ (State.canon_setHome _ _ h))).setGate)

theorem State.canon.flipCheck {sid g} (h : s.canon) : (s.flipCheck sid g).1.canon := by
  refine .fst_ite h (.fst_ite h ?_)
  extract_lets +onlyGivenNames t
  have ht : t.1.canon := State.canon_readGranule _ _ _ _ _ _ h.atSync
  exact .fst_ite ht (.fst_ite ht ht)

theorem Result.canon.gflip {b owner off} (h : s.canon) : Result.canon (execGflip b owner off s) := by
  unfold execGflip
  dsimp only
  split
  · exact .ite (.next h) (.next h)
  · split
    · exact .next h.fault
    · split
      · exact .next h.fault
      · exact .next h

theorem State.canon.beginFlip {sid c g} (h : s.canon) : (s.beginFlip sid c g).canon := by
  unfold State.beginFlip
  extract_lets +onlyGivenNames t
  have ht : t.1.canon := State.canon_release _ _ h
  refine .ite ht ?_
  split
  · next hq => exact ht.flipCheck.of_fst hq
  · next hq => exact (ht.flipCheck.of_fst hq).setStream.frame.fault
  · next hq => exact (ht.flipCheck.of_fst hq).setGate.setStream

theorem Result.canon.rnext {d a} (h : s.canon) : Result.canon (execRnext d a s) :=
  .ite (.next h.illop) (.next (.setS (.setS (.setMe (.ite h h)))))

/-! ### Commands of M and C (08 R188 to R190) -/

theorem State.canon.catchUp {sid e} (h : s.canon) : (s.catchUp sid e).1.canon := .fst_ite h (State.canon_flush _ _ _ h)
theorem State.canon.releaseRetired {sid sc} (h : s.canon) : (s.releaseRetired sid sc).1.canon := .fst_ite h (State.canon_flush _ _ _ h)
theorem State.canon.markLate (h : s.canon) : s.markLate.canon := .ite h h

theorem State.canon.openWindow {sid e lo hi win} (h : s.canon) (hw : s.openWindow sid e lo hi = some win) : win.1.canon := by
  unfold State.openWindow at hw
  extract_lets +onlyGivenNames _ _ t _ at hw
  have ht : t.canon := .ite h (State.canon_flush _ _ _ h)
  split at hw
  · cases hw
    exact ht.setCore.markLate.frame
  · cases hw

theorem State.canon.finishCmd {sid c} (h : s.canon) : (s.finishCmd sid c).canon := h.setStream.retireCmds.progress
theorem Result.canon.holdCmd (h : s.canon) : Result.canon (s.holdCmd) := .next h
theorem State.canon.mapCmd {id f} (h : s.canon) : (s.mapCmd id f).canon := h
theorem State.canon.faultCmd {sid c f} (h : s.canon) : (s.faultCmd sid c f).canon := .ite h (State.canon_raise _ _ _ _ _ _ h)

/-! ### Tile rows (05 R122) -/

theorem State.canon.writeRow {sid e row bytes x written} (h : s.canon) : (s.writeRow sid e row bytes x written).canon := h

/-! ### M and the bays (05 R116 to R127; 10 R240 to R253) -/

theorem State.canon.accumulateRows {sid row f acc scales outs} (h : s.canon) : (s.accumulateRows sid row f acc scales outs).canon := by
  refine .foldl h (fun _ _ ht => ?_)
  extract_lets +onlyGivenNames _ _ _ t
  have ht : t.canon := ht.writeRow
  exact ht.setStream

theorem State.canon.runPass {sid w tr acc act an row sc} (h : s.canon) : (s.runPass sid w tr acc act an row sc).canon := by
  unfold State.runPass
  extract_lets +onlyGivenNames _ _ _ _ u
  have hu : u.canon := .ite h.spMeet.spMeet h.spMeet
  exact hu.accumulateRows

theorem State.canon.served {bay r} (h : s.canon) : (s.served bay r).canon := h

theorem State.canon.endShare {bay} (h : s.canon) : (s.endShare bay).canon := by
  unfold State.endShare
  dsimp only
  split
  · exact h
  · exact .ite h (.ite h h)

theorem State.canon.acceptOp {o} (h : s.canon) : (s.acceptOp o).canon := h.endShare.setBay
theorem State.canon.dropOp {bay o} (h : s.canon) : (s.dropOp bay o).canon := h
theorem State.canon.againOp {bay o} (h : s.canon) : (s.againOp bay o).canon := h

theorem State.canon.acceptPass {w act an row acc t rest win} (hw : win.1.canon) : (s.acceptPass w act an row acc t rest win).canon :=
  hw.addCmd.acceptOp.setMe.deferred

theorem Result.canon.mpass {act arr row acc t} (h : s.canon) : Result.canon (execMpass act arr row acc t s) := by
  unfold execMpass
  dsimp only
  split
  · exact .next h.fault
  · refine .ite (.next h.setMe.fault) (.ite (.next h.fault) (.ite (.next h.fault) (.ite (.next h.fault) (.ite (.holdCmd h.catchUp) ?_))))
    split
    · exact .next h.catchUp.fault
    · refine .ite (.ite (.holdCmd h.catchUp) (.next h.catchUp.setMe.runPass)) (.ite (.holdCmd h.catchUp) (.ite (.next h.catchUp.fault) ?_))
      split
      · exact .holdCmd h.catchUp
      · next hp => exact .next (h.catchUp.openWindow hp).acceptPass

theorem Result.canon.mgo (h : s.canon) : Result.canon (execMgo s) := by
  unfold execMgo
  dsimp only
  split
  · exact .ite (.next h.setMe.retireCmds.deferred) (.next h)
  · split
    · exact .next h.fault
    · refine .ite (.next h.setMe.fault) ?_
      split
      · exact .next h.fault
      · refine .ite (.holdCmd h.catchUp) ?_
        split
        · exact .holdCmd h.catchUp
        · next hz => exact .next (h.catchUp.openWindow hz).setMe.addCmd.held

theorem State.canon.runNest {sid c w pass pos} (h : s.canon) : (s.runNest sid c w pass pos).canon := h.runPass.setStream.progress

theorem Result.canon.mgoPass {sid} (h : s.canon) : Result.canon (execMgoPass sid s) := by
  unfold execMgoPass
  split
  · exact .next h
  · split
    · split
      · exact .next h
      · next hp =>
        dsimp only
        split
        · exact .ite (.next (h.enterWorld hp).faultCmd) (.next (h.enterWorld hp))
        · exact .ite (.ite (.next (h.enterWorld hp)) (.next (h.enterWorld hp).runNest)) (.ite (.next (h.enterWorld hp)) (.next (h.enterWorld hp).acceptOp.setStream))
    · exact .next h

theorem Result.canon.mlds {a t} (h : s.canon) : Result.canon (execMlds a t s) := by
  refine .ite (.next h.fault) (.ite (.next h.fault) (.ite (.holdCmd h.catchUp) ?_))
  dsimp only
  split
  · exact .next h.catchUp.fault
  · exact .ite (.holdCmd h.catchUp) (.next h.catchUp.spMeet.setCore)

theorem Result.canon.mclr {row n} (h : s.canon) : Result.canon (execMclr row n s) := by
  refine .ite (.holdCmd h) (.next (.foldl h (fun _ _ ht => ?_)))
  extract_lets +onlyGivenNames t
  have ht : t.canon := ht.writeRow
  exact ht.setStream

theorem Result.canon.mconv {row n es f32} (h : s.canon) : Result.canon (execMconv row n es f32 s) := by
  refine .ite (.holdCmd h) (.next (.foldl h (fun _ _ ht => ?_)))
  extract_lets +onlyGivenNames _ t
  have ht : t.canon := ht.writeRow
  exact ht.setStream

theorem Result.canon.awrite {src an cnt first} (h : s.canon) : Result.canon (execAwrite src an cnt first s) := by
  refine .ite (.next h.illop) (.ite (.next h.fault) (.ite (.next h.fault) (.ite (.holdCmd h.catchUp) ?_)))
  dsimp only
  split
  · exact .next h.catchUp.fault
  · refine .ite (.next h.catchUp.fault) (.ite (.next h.catchUp.fault) (.ite (.next h.catchUp) (.ite (.holdCmd h.catchUp) ?_)))
    split
    · exact .holdCmd h.catchUp
    · next hr => exact .next (h.catchUp.openWindow hr).acceptOp.setMe.frame

theorem Result.canon.arrayPass {bay} (h : s.canon) : Result.canon (execArrayPass bay s) := by
  unfold execArrayPass
  split
  · exact .next h
  · split
    · exact .next h
    · dsimp only
      split
      · exact .next h.served.againOp.faultCmd.endShare
      · split
        · exact .next h.served.dropOp.runPass.finishCmd.endShare
        · exact .next h.served.dropOp.runNest.endShare
        · exact .next h

theorem State.canon.awriteData {p off} (h : s.canon) : (s.awriteData p off).1.canon := by
  unfold State.awriteData
  split
  · exact h
  · exact h.spMeet

theorem State.canon.setAwrite {bay p c} (h : s.canon) : (s.setAwrite bay p c).canon := by
  unfold State.setAwrite
  split <;> exact h

theorem Result.canon.awriteRowStep {bay ok} (h : s.canon) : Result.canon (execAwriteRowStep bay ok s) := by
  unfold execAwriteRowStep
  split
  · exact .next h
  · split
    · exact .next h
    · split
      · refine .ite (.next h) ?_
        extract_lets +onlyGivenNames d t u _ v _ _ w
        have hd : d.1.canon := h.awriteData
        have ht : t.canon := hd.served.charge
        have hu : u.canon := ⟨ht.1, Memory.wf_paste _ _ ht.2 (Memory.wf_writeList _ _ Memory.wf_nil)⟩
        have hw : w.canon := hu.setLease.setAwrite
        exact .next (.endShare (.ite (.dropOp hw.endAwrite) hw))
      · exact .next h

theorem State.canon.eraseRowDone {an good} (h : s.canon) : (s.eraseRowDone an good).canon := by
  unfold State.eraseRowDone
  extract_lets +onlyGivenNames _ _ t _
  have ht : t.canon := .ite ⟨h.1, Memory.wf_clear _ _ h.2⟩ h
  exact .ite ht.setLease ht.setLease.committed

theorem Result.canon.eraseStep {bay ok} (h : s.canon) : Result.canon (execEraseStep bay ok s) := by
  unfold execEraseStep
  split
  · split
    · exact .next h
    · extract_lets +onlyGivenNames _ _ u
      have hu : u.canon := .ite h h
      exact .ite (.next hu.setLease.endShare) (.ite (.next hu.setLease.eraseRowDone.endShare)
        (.ite (.next hu.setLease.eraseRowDone.endShare) (.next hu.setLease.endShare)))
  · exact .next h

/-! ### Launches, TLBI, SMIG and the array functions (09, 10, 12) -/

theorem State.canon.appendRecord {wid record party} (h : s.canon) : (s.appendRecord wid record party).1.canon := by
  unfold State.appendRecord
  split
  · exact h
  · split
    · exact State.canon_readHeader _ _ _ h
    · dsimp only
      exact State.canon_queueAppend _ _ _ _ h

theorem State.canon.readSpan {sid dva n fills} (h : s.canon) : (s.readSpan sid dva n fills).1.canon := by
  refine .fst_foldl h (fun _ _ ht => ?_)
  extract_lets +onlyGivenNames _
  split
  · exact ht
  · extract_lets +onlyGivenNames t
    have ht : t.1.canon := State.canon_readGranule _ _ _ _ _ _ ht
    exact .fst_ite ht ht.readMet

theorem Result.canon.launch {d a} (h : s.canon) : Result.canon (execLaunch d a s) := by
  refine .ite (.next h.fault) ?_
  split
  · exact .next h.fault
  · extract_lets +onlyGivenNames t
    have ht : t.1.canon := State.canon_release _ _ h
    refine .ite (.next ht.held) ?_
    generalize hu : List.foldl _ t.1 _ = u
    have hu : u.canon := by
      rw [← hu]
      refine .foldl ht (fun _ _ hv => ?_)
      split
      · exact hv.passEarly
      · exact hv
    split
    · next hr => exact .next (hu.readSpan.of_fst hr).fault
    · next hr => exact .next (hu.readSpan.of_fst hr).appendRecord.setS

theorem State.canon.invalidate {world dva} (h : s.canon) : (s.invalidate world dva).canon := h

theorem Result.canon.tlbi {a b} (h : s.canon) : Result.canon (execTlbi a b s) := by
  refine .ite (.next h.illop) (.privileged h (fun _ ht => .ite (.next ht.realign.held) ?_))
  extract_lets +onlyGivenNames _ _ u _
  have hu : u.canon := ht.realign.dropAhead.invalidate
  refine .ite (.next hu) ?_
  extract_lets +onlyGivenNames w
  have hw : w.canon := State.canon_flush _ _ _ hu
  exact .ite (.next hw) (.next hw.held)

theorem State.canon.setReserved {sids b} (h : s.canon) : (s.setReserved sids b).canon := .foldl h (fun _ _ ht => ht.setStream)

theorem State.canon.unreserve {t} (h : s.canon) : (s.unreserve t).canon := by
  unfold State.unreserve
  split
  · exact h
  · exact h.setReserved.setStream

theorem Result.canon.smig {a b} (h : s.canon) : Result.canon (execSmig a b s) :=
  .privileged h (fun _ ht => .ite (.next ht.setMe) (.ite (.ite (.next ht.setMe) (.next ht.unreserve.setMe))
    (.ite (.next ht.setMe) (.ite (.next ht.setMe) (.ite (.next ht.setMe) (.ite (.next ht.setMe) (.next ht.unreserve.setReserved.setStream.setMe)))))))

theorem Result.canon.arrayFunction {rw charges block k} (h : s.canon) (hk : ∀ (a : State), a.canon → (k a).canon) : Result.canon (s.arrayFunction rw charges block k) := by
  refine .ite (.next h.illop) (.privileged h (fun _ ht => ?_))
  extract_lets +onlyGivenNames _
  split
  · exact .ite (hk _ ht.realign) (.next ht.realign.held)
  · refine .ite (.next ht.fault) ?_
    split
    · exact .next ht.fault
    · split
      · exact .next ht.fault
      · refine .ite (.next ht.realign.held) ?_
        extract_lets +onlyGivenNames u
        have hu : u.1.canon := State.canon_spanSettled _ _ _ _ ht.realign
        exact .ite (hk _ hu) (.next hu.held)

theorem Result.canon.agrant {a b} (h : s.canon) : Result.canon (execAgrant a b s) := by
  unfold execAgrant
  refine .arrayFunction h (fun _ ht => ?_)
  extract_lets
  split
  · next hq => exact .next (ht.readSpan.of_fst hq).fault
  · next u _ hq =>
    have hu : u.canon := ht.readSpan.of_fst hq
    exact .ite (.next (State.canon_writeSpan _ _ _ _ _ hu.grantAll)) (.next (State.canon_writeSpan _ _ _ _ _ hu))

theorem Result.canon.arevoke {a} (h : s.canon) : Result.canon (execArevoke a s) := by
  unfold execArevoke
  split
  · exact .ite (.next h) (.next h)
  · refine .arrayFunction h (fun _ ht => ?_)
    extract_lets +onlyGivenNames _
    split
    · exact .next ht.fault
    · extract_lets +onlyGivenNames t
      have ht : t.canon := ht.revokeAll.setMaint
      exact .ite (.next ht) (.next ht.addCmd.held)

theorem Result.canon.aerase {a} (h : s.canon) : Result.canon (execAerase a s) := by
  unfold execAerase
  refine .arrayFunction h (fun _ ht => ?_)
  split
  · exact .next ht.fault
  · extract_lets +onlyGivenNames t
    have ht : t.canon := .foldl ht (fun _ _ hu => hu.eraseFree)
    exact .next ht.frame.committed.setMaint

theorem Result.canon.aattest {a b} (h : s.canon) : Result.canon (execAattest a b s) := by
  unfold execAattest
  refine .arrayFunction h (fun _ ht => ?_)
  extract_lets
  split
  · exact .next ht.fault
  · split
    · next hr => exact .next (ht.readSpan.of_fst hr).fault
    · next hr => exact .next (State.canon_writeSpan _ _ _ _ _ (ht.readSpan.of_fst hr).frame.attestAll)

theorem Result.canon.astat {d a} (h : s.canon) : Result.canon (execAstat d a s) := by
  unfold execAstat
  dsimp only
  split
  · exact .ite (.next h) (.next h.setMe.setS)
  · exact .ite (.next h.illop) (.ite (.next h.fault) (.ite (.next h.realign.held) (.ite (.next h.realign.setS) (.next h.realign.addCmd.held))))

/-! ### Scanned regions (07 R159 to R181) -/

theorem State.canon.setRegion {r x} (h : s.canon) : (s.setRegion r x).canon := h
theorem State.canon.putRegion {r x cut} (h : s.canon) : (s.putRegion r x cut).canon := .ite h h
theorem State.canon.takePort {sid r p} (h : s.canon) : (s.takePort sid r p).canon := h
theorem State.canon.enqueueScan {r x port stamp a len sid cmd update} (h : s.canon) : (s.enqueueScan r x port stamp a len sid cmd update).canon := h
theorem Result.canon.moveSlice {r i x} (h : s.canon) : Result.canon (s.moveSlice r i x) := .ite (.next h) (.next h.putRegion)

theorem State.canon.tryAdmit {sid c} (h : s.canon) : (s.tryAdmit sid c).1.canon := by
  unfold State.tryAdmit
  extract_lets +onlyGivenNames go
  have hgo {t r a len stamp u} (ht : t.canon) : (go t r a len stamp u).1.canon := by
    unfold go
    split
    · exact .fst_ite ht (.fst_ite ht.enqueueScan.progress ht)
    · exact ht
  split
  · exact .fst_ite h (hgo h)
  · extract_lets +onlyGivenNames t
    have ht : t.1.canon := .fst_ite h.releaseRetired h
    exact .fst_ite (hgo ht) ht
  · exact h

theorem State.canon.afterAdmission {c} (h : s.canon) : (s.afterAdmission c).canon := by
  unfold State.afterAdmission
  split
  · exact h
  · exact h.setMe.retireCmds.deferred

theorem State.canon.issueScan {c} (h : s.canon) : (s.issueScan c).canon := .ite h.addCmd.tryAdmit.setMe.afterAdmission h.addCmd.tryAdmit.setMyEng.held

theorem Result.canon.cscanr {a len d lapr lap vq} (h : s.canon) : Result.canon (execCscanr a len d lapr lap vq s) := by
  unfold execCscanr
  dsimp only
  split
  · exact .ite (.next h.afterAdmission) (.next h)
  · split
    · exact .next h.fault
    · split
      · exact .next h.fault
      · exact .ite (.next h.fault) (.ite (.next h.fault) (.ite (.holdCmd h) (.next h.takePort.issueScan)))

theorem State.canon.scanSource {sid src n} (h : s.canon) : (s.scanSource sid src n).1.canon := by
  refine .fst_ite ?_ ?_
  · split
    · exact h
    · split
      · next hr => exact h.readSpan.of_fst hr
      · next hr => exact h.readSpan.of_fst hr
  · split
    · refine .fst_ite h ?_
      split
      · exact h
      · exact h.spMeet
    · exact .fst_ite h h

theorem Result.canon.cscanu {a src len lapr lap op} (h : s.canon) : Result.canon (execCscanu a src len lapr lap op s) := by
  unfold execCscanu
  dsimp only
  split
  · exact .ite (.next h.afterAdmission) (.next h)
  · split
    · exact .next h.fault
    · refine .ite (.holdCmd h.catchUp) ?_
      split
      · next hp => exact .next (h.catchUp.scanSource.of_fst hp).fault
      · next hp =>
        split
        · exact .next h.catchUp.fault
        · exact .ite (.holdCmd h.catchUp) (.next (h.catchUp.scanSource.of_fst hp).takePort.issueScan)

theorem Result.canon.clap {d r close} (h : s.canon) : Result.canon (execClap d r close s) := by
  unfold execClap
  dsimp only
  split
  · exact .next h.fault
  · split
    · exact .next h.fault
    · exact .ite (.next h.fault) (.ite (.holdCmd h) (.ite (.next h) (.next h)))

theorem Result.canon.sliceZeroRow {region slice} (h : s.canon) : Result.canon (execSliceZeroRow region slice s) := by
  unfold execSliceZeroRow
  split
  · exact .next h
  · extract_lets +onlyGivenNames _
    split
    · extract_lets +onlyGivenNames _ t u
      have ht : t.canon := ⟨Memory.wf_clear _ _ h.1, h.2⟩
      have hu : u.canon := .foldl ht (fun _ _ hv => hv.cleanGranule)
      exact .ite (.next hu.setRegion) (.moveSlice hu)
    · exact .next h

theorem Result.canon.closeMarkerArrive {region slice port} (h : s.canon) : Result.canon (execCloseMarkerArrive region slice port s) := by
  unfold execCloseMarkerArrive
  split
  · exact .next h
  · split
    · exact .next h
    · exact .ite (.ite (.next h) (.moveSlice h)) (.next h)

theorem Result.canon.lapBell {region} (h : s.canon) : Result.canon (execLapBell region s) := by
  unfold execLapBell
  split
  · exact .next h
  · exact .ite (.next h) (.next h)

theorem State.canon.scanRead {x a n port lap dva zeros} (h : s.canon) : (s.scanRead x a n port lap dva zeros).1.canon := by
  unfold State.scanRead
  extract_lets +onlyGivenNames r
  have hr : r.1.canon := by
    refine .fst_foldl h (fun p i hp => ?_)
    have hq : (p.1.tryGranule (a + 64 * i)).1.canon := State.canon_tryGranule _ hp
    dsimp only
    exact .ite (State.canon_logError _ _ _ _ _ _ hq) hq
  extract_lets
  split
  · dsimp only
    exact State.canon_logError _ _ _ _ _ _ hr
  · exact hr

theorem State.canon.applyUpdate {r x q op data} (h : s.canon) : (s.applyUpdate r x q op data).canon := by
  unfold State.applyUpdate
  extract_lets +onlyGivenNames _ _
  refine .ite (State.canon_writtenPoison _ _ (State.canon_setHome _ _ h)) ?_
  split
  next t _ hq =>
  have ht : t.canon := h.scanRead.of_fst hq
  exact .ite (State.canon_logError _ _ _ _ _ _ ht) (State.canon_setHome _ _ ht)

theorem State.canon.serveRead {r x q} (h : s.canon) : (s.serveRead r x q).canon := by
  unfold State.serveRead
  extract_lets +onlyGivenNames _
  split
  next hq => exact (h.scanRead.of_fst hq).mapCmd

theorem Result.canon.sliceRowServe {region slice} (h : s.canon) : Result.canon (execSliceRowServe region slice s) := by
  unfold execSliceRowServe
  split
  · exact .next h
  · extract_lets +onlyGivenNames _
    split
    · extract_lets +onlyGivenNames _
      split
      · exact .next h
      · extract_lets +onlyGivenNames _ _ t u
        have ht : t.canon := by
          unfold t
          refine .foldl h (fun _ _ ht => ?_)
          split
          · exact ht.applyUpdate
          · exact ht
        have hu : u.canon := .foldl ht (fun _ _ ht => ht.serveRead)
        exact .next hu.setRegion
    · exact .next h

theorem Result.canon.slicePassEnd {region slice} (h : s.canon) : Result.canon (execSlicePassEnd region slice s) := by
  unfold execSlicePassEnd
  split
  · exact .next h
  · dsimp only
    split
    · exact .ite (.next h) (.moveSlice h)
    · exact .next h

theorem Result.canon.scanAdmission {sid} (h : s.canon) : Result.canon (execScanAdmission sid s) := by
  unfold execScanAdmission
  split
  · exact .next h
  · refine .ite (.next h) (.ite (.next h.tryAdmit) ?_)
    split
    · exact .next h.tryAdmit.finishCmd
    · exact .next h.tryAdmit.setStream

theorem Result.canon.scanReplyDeliver {sid} (h : s.canon) : Result.canon (execScanReplyDeliver sid s) := by
  unfold execScanReplyDeliver
  extract_lets +onlyGivenNames _
  split
  · exact .next h
  · split
    · refine .ite (.next h) (.ite (.next h.setStream.finishCmd) ?_)
      split
      · exact .next h
      · extract_lets +onlyGivenNames _ t
        have ht : t.1.canon := State.canon_settledHome _ _ _ h
        refine .ite (.next h) (.ite (.next ht) ?_)
        extract_lets +onlyGivenNames _ _ w _ _ _ u
        have hw : w.canon := State.canon_writeHome _ _ _ _ ht
        have hu : u.canon := .ite hw.setCore hw
        exact .next hu.finishCmd
    · exact .next h

/-! ### Copies (13 R310 to R317; 11 R268) -/

theorem State.canon.readDescriptor {sid dva n} (h : s.canon) : (s.readDescriptor sid dva n).1.canon := by
  refine .fst_ite h ?_
  split
  · exact h
  · split
    · exact h
    · exact h.spMeet

theorem Result.canon.issueCopy {d flag} (h : s.canon) : Result.canon (s.issueCopy d flag) := by
  refine .ite (.next h) (.ite (.holdCmd h) ?_)
  split
  · exact .next h
  · split
    · exact .holdCmd h
    · next hr => exact .next (h.openWindow hr).addCmd.deferred

theorem Result.canon.ccopy {a} (h : s.canon) : Result.canon (execCcopy a s) := by
  refine .ite (.holdCmd h.catchUp) (.ite (.holdCmd h.catchUp) ?_)
  split
  · next hq => exact .next (h.catchUp.readDescriptor.of_fst hq).fault
  · next w _ hq =>
    have hw : w.canon := h.catchUp.readDescriptor.of_fst hq
    split
    · exact .next hw.illop
    · exact .next hw.fault
    · exact .issueCopy hw

theorem Result.canon.cgath {a} (h : s.canon) : Result.canon (execCgath a s) := by
  refine .ite (.holdCmd h.catchUp) (.ite (.holdCmd h.catchUp) ?_)
  split
  · next hq => exact .next (h.catchUp.readDescriptor.of_fst hq).fault
  · next w _ hq =>
    have hw : w.canon := h.catchUp.readDescriptor.of_fst hq
    split
    · exact .next hw.illop
    · exact .next hw.fault
    · exact .issueCopy hw

theorem State.canon.bankKeys {wid rows} (h : s.canon) : (s.bankKeys wid rows).canon := by
  refine .foldl h (fun _ _ ht => ?_)
  split
  · exact ht.sliceKey
  · exact ht

theorem Result.canon.cbank {src dst rows} (h : s.canon) : Result.canon (execCbank src dst rows s) :=
  .ite (.holdCmd h.catchUp) (.ite (.next h.catchUp.fault) (.ite (.next h.catchUp.fault) (.issueCopy h.catchUp.bankKeys)))

theorem Result.canon.ccopyf {a flag val sc add} (h : s.canon) : Result.canon (execCcopyf a flag val sc add s) := by
  refine .ite (.holdCmd h.catchUp) (.ite (.holdCmd h.catchUp) ?_)
  split
  · next hq => exact .next (h.catchUp.readDescriptor.of_fst hq).fault
  · next w _ hq =>
    have hw : w.canon := h.catchUp.readDescriptor.of_fst hq
    split
    · exact .next hw.illop
    · exact .next hw.fault
    · split
      · exact .next hw.fault
      · exact .issueCopy hw

theorem State.canon.copyRead {sid dva z} (h : s.canon) : (s.copyRead sid dva z).1.canon := by
  unfold State.copyRead
  split
  · exact h
  · exact State.canon_load _ _ _ _ _ _ h

theorem State.canon.markGranule {sid es z bad} (h : s.canon) : (s.markGranule sid es z bad).canon := by
  unfold State.markGranule
  split
  · exact h
  · extract_lets +onlyGivenNames _
    split
    · extract_lets +onlyGivenNames t
      have ht : t.canon := .ite h h
      exact .ite ht.frame ht
    · exact h
    · exact h

theorem State.canon.meetIndex {sid d pos n} (h : s.canon) : (s.meetIndex sid d pos n).canon := by
  unfold State.meetIndex
  split
  · exact h
  · refine .foldl h (fun _ _ ht => ?_)
    split
    · exact ht.spMeet
    · exact ht

theorem State.canon.writesSettled {sid z dvas} (h : s.canon) : (s.writesSettled sid z dvas).1.canon := by
  refine .fst_foldl h (fun _ _ ht => ?_)
  split
  · exact State.canon_settledHome _ _ _ ht
  · exact ht

theorem State.canon.copyElems {sid z es} (h : s.canon) : (s.copyElems sid z es).1.canon := by
  refine .fst_foldl h (fun _ _ ht => ?_)
  dsimp only
  split
  · exact State.canon_writeHome _ _ _ _ ht.copyRead
  · exact ht

theorem State.canon.copyRow {sid z es} (h : s.canon) : (s.copyRow sid z es).1.canon := .fst_foldl h (fun _ _ ht => ht.copyRead)

theorem State.canon.flagStep {sid c f v sc add} (h : s.canon) : (s.flagStep sid c f v sc add).canon := by
  unfold State.flagStep
  extract_lets +onlyGivenNames _
  split
  · exact h.faultCmd
  · refine .ite h.releaseRetired ?_
    extract_lets +onlyGivenNames _ _
    split
    · split
      · next hp => exact h.releaseRetired.flipCheck.of_fst hp
      · next hp => exact (h.releaseRetired.flipCheck.of_fst hp).faultCmd
      · next hp => exact (h.releaseRetired.flipCheck.of_fst hp).setGate.setStream
    · split
      · exact h.releaseRetired.faultCmd
      · extract_lets +onlyGivenNames w
        have hw : w.1.canon := State.canon_settledHome _ _ _ h.releaseRetired
        refine .ite hw (.ite hw.finishCmd ?_)
        split
        · extract_lets +onlyGivenNames t
          have ht : t.1.canon := State.canon_readGranule _ _ _ _ _ _ hw
          exact .ite ht.faultCmd (.finishCmd (State.canon_writeHome _ _ _ _ (.ite ht.atSync ht)))
        · exact .ite hw.faultCmd (.ite hw (.finishCmd (State.canon_writeHome _ _ _ _ hw)))
        · exact .finishCmd (State.canon_writeHome _ _ _ _ hw)

theorem State.canon.afterStep {sid c n d flag} (h : s.canon) : (s.afterStep sid c n d flag).canon := .ite h.finishCmd h

theorem Result.canon.copyStep {sid idx} (h : s.canon) : Result.canon (execCopyStep sid idx s) := by
  unfold execCopyStep
  extract_lets +onlyGivenNames _
  split
  · exact .next h
  · split
    · exact .next h
    · refine .ite ?_ ?_
      · split
        · exact .ite (.next h.flagStep) (.next h)
        · exact .next h.finishCmd
      · refine .ite (.next h) (.ite (.next h) ?_)
        split
        · exact .next h.faultCmd
        · refine .ite (.next h) (.ite (.ite (.next h) (.next h.meetIndex.copyRow.setStream.afterStep)) ?_)
          extract_lets +onlyGivenNames w
          have hw : w.1.canon := h.writesSettled
          exact .ite (.next hw) (.next hw.meetIndex.copyElems.markGranule.afterStep)

theorem State.canon.makeFlip {sid g owner k} (h : s.canon) (hk : ∀ (a : State), a.canon → (k a).canon) : (s.makeFlip sid g owner k).canon := by
  unfold State.makeFlip
  extract_lets +onlyGivenNames _ t
  have ht : t.canon := .ite h (State.canon_flush _ _ _ h)
  exact .ite (hk _ ht.flipGate) ht

theorem Result.canon.gateFlipCommit {sid} (h : s.canon) : Result.canon (execGateFlipCommit sid s) := by
  unfold execGateFlipCommit
  extract_lets +onlyGivenNames t
  have ht : t.canon := by
    unfold t
    split
    · exact h
    · split
      · split
        · exact h.makeFlip (fun _ ht => ht.finishCmd)
        · exact h
      · exact h
  split
  · exact .next ht
  · split
    · split
      · exact .ite (.next ht.beginFlip) (.next (ht.makeFlip (fun _ ht => ht.setStream)))
      · exact .next ht.setStream
    · exact .next ht

/-! ### Control and status registers (04 R107) -/

theorem Result.canon.csrr {d c} (h : s.canon) : Result.canon (execCsrr d c s) := by
  refine .ite ?_ ?_
  · split
    · exact .next h.setS
    · exact .next h.illop
  · refine .privileged h (fun _ ht => ?_)
    split
    · exact .next ht.setS
    · exact .next ht.illop

theorem State.canon.writeCtxcmd {v} (h : s.canon) : (s.writeCtxcmd v).canon := .ite h (.ite h h)
theorem State.canon.writePswap {v} (h : s.canon) : (s.writePswap v).canon := .ite h (.ite h h)
theorem State.canon.writePgate {v} (h : s.canon) : (s.writePgate v).canon := .ite h (.ite h h)

theorem Result.canon.csrw {a c} (h : s.canon) : Result.canon (execCsrw a c s) := by
  refine .ite ?_ ?_
  · split
    · exact .ite (.next h) (.next h.illop)
    · exact .next h
    · exact .next h
    · exact .next h
    · exact .next h
    · exact .next h.illop
  · refine .ite (.next h.illop) (.privileged h (fun _ ht => .ite (.next ht.illop) ?_))
    split
    · exact .next ht.setCore
    · exact .next ht.setCore
    · exact .next ht.setCore
    · exact .next ht.setCore
    · exact .next ht.frame
    · exact .next ht.setMe
    · exact .next ht.setMe
    · exact .next ht.writeCtxcmd
    · exact .next ht.writePswap
    · exact .next ht.writePgate
    · exact .next ht.frame
    · exact .next ht.illop

/-! ### Launch iterations (03 R77, R80 to R85; 09 R223) -/

theorem State.canon.unitRead {party wid dva n} (h : s.canon) : (s.unitRead party wid dva n).1.canon := by
  refine .fst_foldl h (fun _ _ ht => ?_)
  split
  · exact ht
  · exact State.canon_readGranule _ _ _ _ _ _ ht

theorem State.canon.freeSlots {wid} (h : s.canon) : (s.freeSlots wid).canon :=
  .ite h (State.canon_poke _ _ _ (State.canon_readHeader _ _ _ h).setWorld)

theorem Result.canon.walkerTakeRecord {die wid} (h : s.canon) : Result.canon (execWalkerTakeRecord die wid s) := by
  refine .ite (.next h) ?_
  extract_lets +onlyGivenNames t
  have ht : t.canon := State.canon_readHeader _ _ _ h
  clear_value t
  refine .ite (.next ht) (.ite (.next ht) ?_)
  split
  next u _ hq =>
  have hu : u.canon := ht.unitRead.of_fst hq
  refine .ite (.next ht) ?_
  split
  next v _ hr =>
  have hv : v.canon := .of_fst (.fst_ite hu hu.unitRead) hr
  refine .ite (.next ht) (.ite (.next ?_) (.next hv.setWorld.frame.frame))
  exact State.canon_notifyWorld _ _ _ _ _ hv.setWorld.frame.freeSlots

theorem State.canon.loadKey {core wid} (h : s.canon) : (s.loadKey core wid).canon := .ite h h
theorem State.canon.zeroHalf {sid wide} (h : s.canon) : (s.zeroHalf sid wide).canon := h
theorem State.canon.loadRange {l die} (h : s.canon) : (s.loadRange l die).canon := .ite h h

theorem Result.canon.iterationPlace {die} (h : s.canon) : Result.canon (execIterationPlace die s) := by
  refine .ite (.next h) ?_
  split
  · exact .next h
  · exact .ite (.next h) (.next h.loadRange.frame.zeroHalf.loadKey.setWorld.setStream.freeSlots)

theorem State.canon.iterationDone {launch} (h : s.canon) : (s.iterationDone launch).canon := h
theorem State.canon.unforward {key} (h : s.canon) : (s.unforward key).canon := h
theorem State.canon.freeStream {sid} (h : s.canon) : (s.freeStream sid).canon := h

theorem State.canon.leaveAwrite {sid c} (h : s.canon) : (s.leaveAwrite sid c).canon := by
  unfold State.leaveAwrite
  split <;> exact h

theorem State.canon.endIteration {sid} (h : s.canon) : (s.endIteration sid).canon := by
  unfold State.endIteration
  extract_lets +onlyGivenNames _ t
  have ht : t.canon := .foldl h (fun _ _ ht => ht.leaveAwrite)
  exact .freeStream (.unforward ht.unreserve.iterationDone)

theorem State.canon.addDone {sid wid dva} (h : s.canon) : (s.addDone sid wid dva).canon := by
  refine .ite h ?_
  split
  · exact State.canon_logError _ _ _ _ _ _ h
  · extract_lets +onlyGivenNames t
    have ht : t.1.canon := State.canon_readGranule _ _ _ _ _ _ ((State.canon_settle _ _ _ h).atSync)
    exact .ite (State.canon_logError _ _ _ _ _ _ ht) (State.canon_writeHome _ _ _ _ ht)

theorem State.canon.doneSettled {sid wid dva} (h : s.canon) : (s.doneSettled sid wid dva).1.canon := by
  unfold State.doneSettled
  split
  · exact h
  · exact State.canon_settledHome _ _ _ h

theorem Result.canon.completionCombine {sid} (h : s.canon) : Result.canon (execCompletionCombine sid s) := by
  refine .ite (.next h) ?_
  have ht : (s.release sid .dev).1.canon := State.canon_release _ _ h
  exact .ite (.next ht) (.ite (.next ht.doneSettled) (.next ht.doneSettled.addDone.endIteration))

theorem State.canon.eventWord {l} (h : s.canon) : (s.eventWord l).1.canon := .fst_ite h.unitRead h

theorem Result.canon.recordCompletionEvent {die wid} (h : s.canon) : Result.canon (execRecordCompletionEvent die wid s) := by
  unfold execRecordCompletionEvent
  split
  · exact .next h
  · exact .ite (.next h) (.ite (.next h) (.ite (.next h.eventWord.withLaunches.latchSid) (.next h.eventWord.withLaunches)))

theorem State.canon.abandonAwrite {c} (h : s.canon) : (s.abandonAwrite c).canon := by
  unfold State.abandonAwrite
  split <;> exact h

theorem State.canon.dropOps {ids} (h : s.canon) : (s.dropOps ids).canon := h
theorem State.canon.dropHeld {sid} (h : s.canon) : (s.dropHeld sid).canon := h
theorem State.canon.dropLate {sid} (h : s.canon) : (s.dropLate sid).canon := h
theorem State.canon.dropTokens {sid} (h : s.canon) : (s.dropTokens sid).canon := h

theorem State.canon.abandon {sid note} (h : s.canon) : (s.abandon sid note).1.canon := by
  unfold State.abandon
  extract_lets +onlyGivenNames _ t u v w _ x _ r
  have ht : t.canon := .foldl h (fun _ _ hq => hq.abandonAwrite)
  have hu : u.canon := ht.dropOps.dropHeld.dropLate.dropTokens
  have hv : v.canon := hu.frame
  have hr : r.1.canon := State.canon_release _ _ hv.setStream.setCore
  exact .fst_ite h.dropHeld (.fst_ite hr (.endIteration (.ite (State.canon_notifyWorld _ _ _ _ _ hr) hr)))

theorem State.canon.abandonImage {i note} (h : s.canon) : (s.abandonImage i note).canon := by
  unfold State.abandonImage
  extract_lets +onlyGivenNames t _ _ w _ _ u
  have ht : t.canon := .foldl h (fun _ _ ht => ht.abandonAwrite)
  have hw : w.canon := by
    unfold w
    split
    · exact ht.dropOps.setReserved
    · exact ht.dropOps
  have hu : u.canon := .foldl hw (fun _ _ ht => .ite ht (State.canon_commit _ ht))
  exact .unforward (.iterationDone (.ite (State.canon_notifyWorld _ _ _ _ _ hu.frame) hu.frame))

/-! ### Contexts, partition swaps, gating, migration (09 R226 to R239) -/

theorem State.canon.saveReady {ts t} (h : s.canon) : (s.saveReady ts t).1.canon := State.canon_flush _ _ _ (State.canon_release _ _ h)

theorem State.canon.saveStream {ts t} (h : s.canon) : (s.saveStream ts t).1.canon :=
  ((State.canon_renameStores _ _ h.setWorld.frame).zeroHalf).freeStream

theorem State.canon.restoreStream {t i} (h : s.canon) : (s.restoreStream t i).canon := by
  unfold State.restoreStream
  extract_lets +onlyGivenNames _ _ _ _ _ w _ _ _ _ u _ v
  have hw : w.canon := h.zeroHalf.loadKey.setCore.setStream
  have hu : u.canon := .ite hw.frame hw.frame.mapStores
  have hv : v.canon := State.canon_acquire _ _ _ hu.setStream
  exact .ite hv hv.reissueStore

theorem State.canon.dropImages {key n} (h : s.canon) : (s.dropImages key n).canon := h

theorem State.canon.putImage {key i} (h : s.canon) : (s.putImage key i).canon := by
  unfold State.putImage
  extract_lets +onlyGivenNames _ t u
  have hu : u.canon := h.dropImages.frame
  exact .ite ⟨Memory.wf_clear _ _ hu.1, hu.2⟩ hu

theorem State.canon.readImage {key i} (h : s.canon) : (s.readImage key i).1.canon := by
  unfold State.readImage
  extract_lets +onlyGivenNames _ wid _ t
  have ht : t.canon := .foldl h (fun _ _ hu => (State.canon_logError _ _ _ _ _ _ hu).withErrors)
  exact .ite (State.canon_logError _ _ _ _ _ _ ht) ht

theorem State.canon.spendImage {key i} (h : s.canon) : (s.spendImage key i).canon := h
theorem State.canon.ctxEnd {sid n} (h : s.canon) : (s.ctxEnd sid n).canon := h

theorem Result.canon.ctxSave {sid} (h : s.canon) : Result.canon (execCtxSave sid s) :=
  .ite (.next h) (.ite (.next h) (.ite (.next h) (.ite (.next h) (.ite (.next h.saveReady) (.next h.saveReady.ctxEnd.saveStream.putImage)))))

theorem Result.canon.ctxRestore {sid} (h : s.canon) : Result.canon (execCtxRestore sid s) := by
  refine .ite (.next h) (.ite (.next h) (.ite (.next h) ?_))
  split
  · exact .next h
  · exact .ite (.next h) (.ite (.next h) (.ite (.next h.readImage.ctxEnd) (.ite (.next h.readImage) (.next h.readImage.ctxEnd.spendImage.restoreStream))))

theorem State.canon.pswapEnd {sid n} (h : s.canon) : (s.pswapEnd sid n).canon := h

theorem State.canon.intoSlot {slot a b i} (h : s.canon) : (s.intoSlot slot a b i).canon := by
  unfold State.intoSlot
  split <;> exact h

theorem State.canon.outOfSlot {slot a b t} (h : s.canon) : (s.outOfSlot slot a b t).canon := by
  unfold State.outOfSlot
  split
  · exact h
  · exact h.frame.restoreStream

theorem Result.canon.pswapSave {sid} (h : s.canon) : Result.canon (execPswapSave sid s) := by
  refine .ite (.next h) (.ite (.next h) (.ite (.next h) ?_))
  extract_lets +onlyGivenNames v
  have hv : v.1.canon := by
    refine .fst_foldl h (fun _ _ ht => ?_)
    dsimp only
    exact ht.saveReady
  refine .ite (.next hv) ?_
  extract_lets +onlyGivenNames _ _ t
  have ht : t.canon := hv.pswapEnd.dropImages
  exact .next (.foldl ht.frame (fun _ _ hu => hu.saveStream.intoSlot))

theorem Result.canon.pswapRestore {sid} (h : s.canon) : Result.canon (execPswapRestore sid s) := by
  refine .ite (.next h) (.ite (.next h) ?_)
  split
  · exact .next h
  · refine .ite (.next h) ?_
    extract_lets +onlyGivenNames t
    have ht : t.canon := .foldl h (fun _ _ ht => ht.outOfSlot)
    exact .next (.foldl ht.frame (fun _ _ ht => ht.setStream))

theorem Result.canon.pgateGate {sid} (h : s.canon) : Result.canon (execPgateGate sid s) := by
  refine .ite (.next h) (.ite (.next h) ?_)
  extract_lets +onlyGivenNames t _ u
  have hu : u.canon := .foldl h (fun _ _ hv => hv.setCore.setStream)
  clear_value u
  exact .next hu.frame

theorem Result.canon.pgateUngate {sid} (h : s.canon) : Result.canon (execPgateUngate sid s) :=
  .ite (.next h) (.ite (.next h) (.next (.foldl h (fun _ _ ht => ht.setCore.setStream))))

theorem Result.canon.migrationMove {sid} (h : s.canon) : Result.canon (execMigrationMove sid s) := by
  unfold execMigrationMove
  dsimp only
  split
  · exact .next h
  · exact .ite (.next h.unreserve) (.ite (.next h) (.ite (.next h.saveReady)
      (.next (.foldl h.saveReady.saveStream.putImage.spendImage.setReserved.restoreStream (fun _ _ ht => ht.setStream)))))

/-! ### Firmware's services (16 R394, R395) -/

theorem State.canon.putWord {sid wid dva v} (h : s.canon) : (s.putWord sid wid dva v).canon := State.canon_writeSpan _ _ _ _ _ h

theorem State.canon.violation {wid} (h : s.canon) : (s.violation wid).canon := by
  unfold State.violation
  dsimp only
  split
  · exact h
  · exact .ite h.frame.lockdown h

theorem State.canon.mapPage {sid wid blk dva dpa attr} (h : s.canon) : (s.mapPage sid wid blk dva dpa attr).1.canon := by
  refine .fst_ite h (.fst_ite h (.fst_ite h (.fst_ite h.violation (.fst_ite h (.fst_ite ?_ h)))))
  extract_lets +onlyGivenNames u
  have hu : u.canon := .foldl h (fun _ _ ht => State.canon_readGranule _ _ _ _ _ _ ht)
  exact hu.setWorld

theorem State.canon.mapStreams {f} (h : s.canon) : (s.mapStreams f).canon := h

theorem State.canon.freeRegion {r x} (h : s.canon) : (s.freeRegion r x).canon := by
  unfold State.freeRegion
  extract_lets +onlyGivenNames _ _ t
  have ht : t.canon := ⟨Memory.wf_clear _ _ h.1, h.2⟩
  exact ht.mapStreams

theorem State.canon.tryRelease {r} (h : s.canon) : (s.tryRelease r).1.canon := by
  unfold State.tryRelease
  split
  · exact h
  · exact .fst_ite h.freeRegion h

theorem State.canon.unmapAt {sid wid blk dva attr} (h : s.canon) : (s.unmapAt sid wid blk dva attr).1.canon := by
  refine .fst_ite h ?_
  split
  · extract_lets +onlyGivenNames t
    have ht : t.canon := by
      unfold t
      split
      · exact .ite h h
      · exact h
    exact ht.tryRelease
  · refine .fst_ite h (.fst_ite h (.fst_ite h ?_))
    split
    · exact h
    · exact .fst_ite h (.fst_ite h h)

theorem State.canon.takeBack {sid} (h : s.canon) : (s.takeBack sid).canon :=
  .foldl h (fun _ _ ht => .ite ht.setRegion (.ite ht.freeRegion ht.setRegion))

theorem State.canon.makeRegion {sid wid base w1 bell parts r} (h : s.canon) : (s.makeRegion sid wid base w1 bell parts r).canon := by
  unfold State.makeRegion
  extract_lets +onlyGivenNames _ _ t
  have ht : t.canon := .foldl h (fun _ _ ht => ht.sliceKey)
  exact ht.setRegion.frame

theorem State.canon.scanMake {sid wid blk} (h : s.canon) : (s.scanMake sid wid blk).1.canon := by
  unfold State.scanMake
  split
  · exact .fst_ite h h
  · refine .fst_ite h ?_
    extract_lets +onlyGivenNames t
    have ht : t.1.canon := .fst_ite h.unitRead h
    refine .fst_ite ht (.fst_ite ht ?_)
    split
    · exact ht
    · exact .fst_ite ht ht.makeRegion

theorem State.canon.classRange {wid base npg cls} (h : s.canon) : (s.classRange wid base npg cls).canon := h

theorem State.canon.gateBind {sid wid blk} (h : s.canon) : (s.gateBind sid wid blk).1.canon := by
  refine .fst_ite h (.fst_ite ?_ ?_)
  · split
    · exact h
    · exact .fst_ite h h
  · extract_lets +onlyGivenNames word
    clear_value word
    split
    · exact h
    · refine .fst_ite h (.fst_ite h ?_)
      extract_lets +onlyGivenNames t
      have ht : t.1.canon := State.canon_settledHome _ _ _ h
      refine .fst_ite ht ?_
      extract_lets +onlyGivenNames _ _ w
      have hw : w.canon := State.canon_writeHome _ _ _ _ ht
      exact hw.classRange.frame

theorem State.canon.leaseAccept {sid wid blk un} (h : s.canon) : (s.leaseAccept sid wid blk un).1.canon := .fst_ite h h

theorem Result.canon.leaseFinalStatus {grant weight} (h : s.canon) : Result.canon (execLeaseFinalStatus grant weight s) := by
  unfold execLeaseFinalStatus
  split
  · exact .next h
  · extract_lets +onlyGivenNames t
    have ht : t.1.canon := State.canon_spanSettled _ _ _ _ h
    refine .ite (.next ht) ?_
    extract_lets +onlyGivenNames _ u r mine done set
    have hu : u.canon := ht.withServices
    have hdone {v n} (hv : v.canon) : Result.canon (done v n) := .next hv.putWord
    have hset f : (set f).canon := .committed (.foldl hu (fun _ _ hv => hv.setLease))
    clear_value set
    refine .ite (.ite (hdone hu) (.next hu.withServices)) (.ite (hdone hu) (.ite ?_ (.ite (hdone hu) (.ite ?_ ?_))))
    · exact .ite (hdone (State.canon_writeSpan _ _ _ _ _ hu.grantAll)) (hdone hu)
    · exact .ite (hdone hu) (.ite (hdone (hset _)) (hdone hu))
    · refine .ite (hdone (hset _)) (.ite (hdone (hset _)) ?_)
      exact .ite (hdone hu.revokeAll.setMaint) (.next hu.revokeAll.setMaint.withServices)

theorem State.canon.evidenceWrite {sid wid dva bs} (h : s.canon) : (s.evidenceWrite sid wid dva bs).1.canon := by
  unfold State.evidenceWrite
  extract_lets +onlyGivenNames t
  have ht : t.1.canon := State.canon_spanSettled _ _ _ _ h
  exact .fst_ite (State.canon_writeSpan _ _ _ _ _ ht) ht

theorem State.canon.evidence {sid wid blk} (h : s.canon) : (s.evidence sid wid blk).1.canon := by
  refine .fst_ite h (.fst_ite (.fst_ite h (.fst_ite h.unitRead.evidenceWrite h.unitRead)) ?_)
  split
  · exact h
  · exact .fst_ite h.evidenceWrite h

theorem State.canon.resume {sid wid blk} (h : s.canon) : (s.resume sid wid blk).1.canon := by
  refine .fst_ite h ?_
  split
  · exact .fst_ite h (.fst_ite h.setStream.reissueStore h.abandon)
  · split
    · exact h
    · exact .fst_ite h (.fst_ite h h.abandonImage)

theorem State.canon.serve {q} (h : s.canon) : (s.serve q).1.canon := by
  unfold State.serve
  dsimp only
  split
  · exact h.mapPage
  · exact h.unmapAt
  · exact h.leaseAccept
  · exact h.leaseAccept
  · exact h.evidence
  · exact h.scanMake
  · exact h.gateBind
  · exact h.resume

theorem State.canon.carry {q} (h : s.canon) : (s.carry q).canon := by
  refine .ite ?_ h
  extract_lets +onlyGivenNames t
  have ht : t.1.canon := State.canon_spanSettled _ _ _ _ h
  refine .ite ht ?_
  split
  · next hq => exact ht.serve.of_fst hq
  · next u _ hq =>
    have hu : u.canon := ht.serve.of_fst hq
    extract_lets +onlyGivenNames _ _ w
    have hw : w.canon := .ite hu.putWord hu.putWord.setStream
    exact hw.frame

theorem State.canon.trapEnd (h : s.canon) : s.trapEnd.canon := h

theorem Result.canon.trap {a b} (h : s.canon) : Result.canon (execTrap a b s) := by
  unfold execTrap
  extract_lets +onlyGivenNames _
  split
  · exact .next h
  · exact .next h
  · refine .ite (.next h.illop) ?_
    split
    · exact .next h.fault
    · split
      · exact .next h.fault
      · refine .ite (.next h.realign.held) ?_
        extract_lets +onlyGivenNames u
        have hu : u.1.canon := State.canon_release _ _ h.realign
        refine .ite (.next hu.held) ?_
        extract_lets +onlyGivenNames _ _ _ _ _ _ _ _ t
        have ht : t.canon := .ite hu.unitRead.setMe.frame hu.unitRead.setMe.frame.setCore
        exact .ite (.next ht.carry.trapEnd) (.next ht.carry.held)

theorem Result.canon.takeUp {sid blk svc ok} (h : s.canon) : Result.canon (s.takeUp sid blk svc ok) := by
  unfold State.takeUp
  split
  · exact .next h
  · exact .ite (.next h.carry) (.next h)

theorem Result.canon.scanRegionRelease {region} (h : s.canon) : Result.canon (execScanRegionRelease region s) := by
  unfold execScanRegionRelease
  split
  · exact .next h
  · split
    · exact .next h.carry
    · exact .next h.tryRelease

/-! ### The hub (12 R277 to R291) -/

theorem State.canon.dropNote {wid} (h : s.canon) : (s.dropNote wid).canon := .ite (State.canon_queueOverflow _ _ h) h
theorem State.canon.dropErr {wid} (h : s.canon) : (s.dropErr wid).canon := .ite (State.canon_queueOverflow _ _ h) h

theorem Result.canon.notificationAppend {wid} (h : s.canon) : Result.canon (execNotificationAppend wid s) := by
  unfold execNotificationAppend
  split
  · exact .next h
  · exact .ite (.next h) (.ite (.next ((State.canon_readHeader _ _ _ h).dropNote)) (.next (State.canon_queueAppend _ _ _ _ h)))

theorem Result.canon.errorLogAppend {wid} (h : s.canon) : Result.canon (execErrorLogAppend wid s) := by
  unfold execErrorLogAppend
  split
  · exact .next h
  · exact .ite (.next h) (.ite (.next ((State.canon_readHeader _ _ _ h).dropErr)) (.next (State.canon_queueAppend _ _ _ _ h)))

theorem State.canon.hubPiece {wid dva data} (h : s.canon) : (s.hubPiece wid dva data).canon := by
  unfold State.hubPiece
  split
  · exact h
  · refine .ite (State.canon_logError _ _ _ _ _ _ h) (.ite ?_ (.ite h (State.canon_writeHome _ _ _ _ h)))
    split
    · exact .ite h h
    · exact h

theorem State.canon.hubRecord {wid dva} (h : s.canon) : (s.hubRecord wid dva).1.canon := h.unitRead

theorem State.canon.hubWrite {wid f dva bs} (h : s.canon) : (s.hubWrite wid f dva bs).canon := by
  induction f generalizing s dva bs with
  | zero => exact h
  | succ f ih => exact .ite h (ih h.hubPiece)

theorem Result.canon.hostWrite {wid dva data} (h : s.canon) : Result.canon (execHostWrite wid dva data s) := .ite (.next h.hubWrite) (.next h)
theorem State.canon.vfClosed {vf} (h : s.canon) : (s.vfClosed vf).canon := .ite h h.setVf.violation

theorem Result.canon.doorbell {vf v} (h : s.canon) : Result.canon (execDoorbell vf v s) := by
  refine .ite (.next h.vfClosed) ?_
  dsimp only
  split
  · exact .next h
  · exact .ite (.next h) (.ite (.next h) (.ite (.next h) (.next h.hubRecord.appendRecord.setVf)))

theorem State.canon.hostService {vf svc blk} (h : s.canon) : (s.hostService vf svc blk).canon := by
  unfold State.hostService
  split
  · exact h
  · exact .ite h.unitRead.frame.carry h

theorem Result.canon.vfResume {vf v} (h : s.canon) : Result.canon (execVfResume vf v s) := .ite (.next h.hostService) (.next h.vfClosed)
theorem Result.canon.vfEvidence {vf v} (h : s.canon) : Result.canon (execVfEvidence vf v s) := .ite (.next h.hostService) (.next h.vfClosed)
theorem State.canon.writeFlow {k f} (h : s.canon) : (s.writeFlow k f).canon := .ite h h

theorem Result.canon.intakePacket {port payload} (h : s.canon) : Result.canon (execIntakePacket port payload s) := by
  unfold execIntakePacket
  split
  · exact .next h
  · exact .ite (.next h) (.ite (.next h) (.ite (.next (.ite (State.canon_readHeader _ _ _ h).withFlows h)) (.ite (.next h)
      (.next h.hubWrite.hubRecord.appendRecord.withFlows))))

theorem State.canon.bindPeer {p dest} (h : s.canon) : (s.bindPeer p dest).canon := by
  refine .ite h ?_
  split
  · exact h
  · exact .ite h h

theorem State.canon.sendPacket {link wid toPeer} (h : s.canon) : (s.sendPacket link wid toPeer).canon := .ite h h
theorem State.canon.arrivePacket {link wid toPeer ok} (h : s.canon) : (s.arrivePacket link wid toPeer ok).canon := .ite h h
theorem State.canon.peerPacket {link wid ok} (h : s.canon) : (s.peerPacket link wid ok).canon := h.arrivePacket

theorem Result.canon.tsudalPacket {link wid slot ok} (h : s.canon) : Result.canon (execTsudalPacket link wid slot ok s) := by
  unfold execTsudalPacket
  split
  · exact .next h
  · exact .ite (.next h.arrivePacket) (.next h)

theorem Result.canon.dieLinkFrame {link ok} (h : s.canon) : Result.canon (execDieLinkFrame link ok s) :=
  .ite (.next h) (.ite (.next h) (.ite (.next h) (.next h.setLink.lockdown)))

theorem Result.canon.linkKeySwitch {link endB} (h : s.canon) : Result.canon (execLinkKeySwitch link endB s) :=
  .ite (.ite (.next h) (.next h)) (.ite (.next h) (.next h))

theorem Result.canon.linkKeyRetire {link endB} (h : s.canon) : Result.canon (execLinkKeyRetire link endB s) :=
  .ite (.ite (.next h) (.next h)) (.ite (.next h) (.next h))

theorem State.canon.setWorldState {wid n} (h : s.canon) : (s.setWorldState wid n).canon := State.canon_setWtWord _ _ _ h
theorem State.canon.beginTeardown {wid} (h : s.canon) : (s.beginTeardown wid).canon := .ite h.setWorldState h

theorem Result.canon.functionLevelReset {vf} (h : s.canon) : Result.canon (execFunctionLevelReset vf s) := by
  unfold execFunctionLevelReset
  split
  · exact .next h
  · extract_lets +onlyGivenNames t
    have ht : t.canon := .foldl h (fun _ _ ht => ht.setLink)
    exact .next ht.beginTeardown

theorem Result.canon.tdiError {vf} (h : s.canon) : Result.canon (execTdiError vf s) := by
  refine .ite (.next h) ?_
  dsimp only
  split
  · exact .next h
  · exact .next h.setVf.beginTeardown

theorem State.canon.abandonAll {wid} (h : s.canon) : (s.abandonAll wid).1.canon :=
  .foldl (.fst_foldl h (fun _ _ ht => ht.abandon)) (fun _ _ ht => ht.abandonImage)

theorem State.canon.unmapAll {wid} (h : s.canon) : (s.unmapAll wid).canon := by
  unfold State.unmapAll
  extract_lets +onlyGivenNames _ u
  have hu : u.canon := .foldl h (fun _ _ ht => ht.freeRegion)
  exact hu.frame

theorem State.canon.zeroiseKey {wid} (h : s.canon) : (s.zeroiseKey wid).canon := h
theorem State.canon.forgetWorld {wid} (h : s.canon) : (s.forgetWorld wid).canon := h

theorem Result.canon.worldTeardown {wid} (h : s.canon) : Result.canon (execWorldTeardown wid s) := by
  refine .ite (.next h) ?_
  extract_lets +onlyGivenNames t
  have ht : t.1.canon := h.beginTeardown.abandonAll
  exact .ite (.next ht) (.next ht.unmapAll.revokeAll.zeroiseKey.forgetWorld.setWorldState)

theorem State.canon.setUpQueues {wid} (h : s.canon) : (s.setUpQueues wid).canon := by
  unfold State.setUpQueues
  split
  · exact h
  · extract_lets +onlyGivenNames _ _ t
    have ht : t.canon := ⟨Memory.wf_clear _ _ h.1, h.2⟩
    exact ht.withMem (Memory.wf_writeList _ _ ht.1)

theorem Result.canon.worldMake {wid vf} (h : s.canon) : Result.canon (execWorldMake wid vf s) := by
  have ht : (if s.queuesGood wid then s else s.setUpQueues wid).canon := .ite h h.setUpQueues
  refine .ite (.next h) (.ite (.next ht) (.next (.setWorld (State.canon_setWtWord _ _ _ (State.canon_setWtWord _ _ _ ?_)))))
  exact .foldl ht (fun _ _ hu => State.canon_written _ _ _ (State.canon_poke _ _ _ hu))

theorem State.canon.spdm {vf ok next bs} (h : s.canon) : (s.spdm vf ok next bs).canon := .ite h (.ite h h)
theorem State.canon.spdmFail {vf} (h : s.canon) : (s.spdmFail vf).canon := .ite h h.setVf.violation
theorem Result.canon.keyExchange {vf ok} (h : s.canon) : Result.canon (execKeyExchange vf ok s) := .ite (.next h.spdm) (.next h.spdmFail)
theorem Result.canon.finish {vf ok} (h : s.canon) : Result.canon (execFinish vf ok s) := .ite (.next h.spdm) (.next (.spdmFail (.ite h h)))
theorem State.canon.ideFail {vf} (h : s.canon) : (s.ideFail vf).canon := .ite h h.violation

theorem State.canon.collect {seq} (h : s.canon) : (s.collect seq).canon := by
  unfold State.collect
  split
  · exact h
  · exact .ite h h

theorem Result.canon.enrolment {addr port vlim vwin} (h : s.canon) : Result.canon (execEnrolment addr port vlim vwin s) :=
  .ite (.next h) (.ite (.next h) (.next h))

theorem Result.canon.enrolmentWithdraw (h : s.canon) : Result.canon (execEnrolmentWithdraw s) := .ite (.next h) (.ite (.next h) (.next h))

theorem Result.canon.alarmRepeat (h : s.canon) : Result.canon (execAlarmRepeat s) := by
  refine .ite (.next h) ?_
  extract_lets +onlyGivenNames _ t
  have ht : t.canon := .ite h h
  exact .ite (.next ht.frame) (.next ht)

/-! ### Start, power and temperature (01 R21 to R29) -/

theorem State.canon.cutAwrite {c} (h : s.canon) : (s.cutAwrite c).canon := by
  unfold State.cutAwrite
  split <;> exact h

theorem State.canon.cutAwrites (h : s.canon) : s.cutAwrites.canon := .foldl h (fun _ _ ht => ht.cutAwrite)
theorem State.canon.loseDies (h : s.canon) : s.loseDies.canon := ⟨Memory.wf_nil, h.cutAwrites.2⟩
theorem State.canon.powerUp (h : s.canon) : s.powerUp.canon := ⟨State.canon_reset.1, h.loseDies.2⟩
theorem State.canon.startFirmware (h : s.canon) : s.startFirmware.canon := .foldl h (fun _ _ ht => ht.setStream)

theorem Result.canon.bootStageA {version ok} (h : s.canon) : Result.canon (execBootStageA version ok s) :=
  .ite (.next h) (.ite (.next h.lockdown) (.ite (.next h) (.next h.frame.startFirmware)))

theorem Result.canon.rollbackIncrement {cut} (h : s.canon) : Result.canon (execRollbackIncrement cut s) :=
  .ite (.next h) (.ite (.next h.frame.powerUp) (.next h))

theorem Result.canon.bootStageB (h : s.canon) : Result.canon (execBootStageB s) := by
  refine .ite (.next h) ?_
  dsimp only
  split
  · exact .next h.frame.lockdown
  · exact .next h

theorem State.canon.joinArray {an batch} (h : s.canon) : (s.joinArray an batch).canon := .ite h (.ite h.revoke.setMaint h)

theorem Result.canon.dieJoin {die ok} (h : s.canon) : Result.canon (execDieJoin die ok s) := by
  refine .ite (.next h) (.ite (.next h) ?_)
  extract_lets +onlyGivenNames _ t
  have ht : t.canon := .foldl h (fun _ _ ht => ht.joinArray)
  exact .next ht.frame.committed

theorem State.canon.sense {die temp} (h : s.canon) : (s.sense die temp).canon := h
theorem State.canon.senseBetween {die temp} (h : s.canon) : (s.senseBetween die temp).canon := .ite h h

theorem Result.canon.thermalTrip {die temp} (h : s.canon) : Result.canon (execThermalTrip die temp s) :=
  .ite (.next h.sense.loseDies.lockdown.frame) (.ite (.next h) (.next h))

/-! ### The common instructions (03 R62 to R71) -/

theorem Result.canon.loop {e lvl cnt body stages rot tok} (h : s.canon) : Result.canon (execLoop e lvl cnt body stages rot tok s) :=
  .ite (.next h.illop) (.next h.openLoop)

theorem State.canon.endTag (h : s.canon) : s.endTag.canon := by
  unfold State.endTag
  extract_lets +onlyGivenNames _ _ _ _ _ u
  have hu : u.canon := .ite h h
  exact hu.frame

theorem Result.canon.notify {e tag} (h : s.canon) : Result.canon (execNotify e tag s) :=
  .ite (.ite (.next h) (.next h.endTag)) (.ite (.next h) (.next (State.canon_notifyWorld _ _ _ _ _ h)))

theorem Result.canon.epop {e d} (h : s.canon) : Result.canon (execEpop e d s) := by
  unfold execEpop
  split <;> exact .next h

theorem Result.canon.toks {e v} (h : s.canon) : Result.canon (execToks e v s) := by
  unfold execToks
  split <;> exact .next h

/-! ### A stream's units (03 R57, R63 to R65, R72, R88) -/

theorem Result.canon.fetchLine {sid} (h : s.canon) : Result.canon (execFetchLine sid s) := by
  refine .ite ?_ (.next h)
  split
  · exact .next h
  · split
    · next hr => exact .next (.of_fst (.fst_ite h h.fetch) hr)
    · exact .next h

theorem Result.canon.tokenWaitResume {sid e} (h : s.canon) : Result.canon (execTokenWaitResume sid e s) := by
  unfold execTokenWaitResume
  split
  · exact .ite (.next h) (.next h)
  · exact .next h

theorem Result.canon.tokenPushResume {sid e} (h : s.canon) : Result.canon (execTokenPushResume sid e s) :=
  .ite (.next h.retireCmds.tryFences) (.next h)

theorem Result.canon.scalarFifoResume {sid e} (h : s.canon) : Result.canon (execScalarFifoResume sid e s) := .ite (.ite (.next h) (.next h)) (.next h)

theorem Result.canon.waitWake {sid} (h : s.canon) : Result.canon (execWaitWake sid s) := by
  unfold execWaitWake
  extract_lets +onlyGivenNames _
  split
  · exact .next h
  · extract_lets +onlyGivenNames u
    have hu : u.canon := h
    split
    · next hq => exact .next ((Tried.canon.tryWait hu).of_fst hq).branch.setStream.progress
    · next t e hq =>
      have ht : t.canon := (Tried.canon.tryWait hu).of_fst hq
      extract_lets +onlyGivenNames v
      have hv : v.canon := .ite ht ht.progress
      exact .next hv.setStream
    · next t _ hq => 
      have ht : t.canon := (Tried.canon.tryWait hu).of_fst hq
      exact .next ht
    · next t _ _ hq =>
      have ht : t.canon := (Tried.canon.tryWait hu).of_fst hq
      exact .next (State.canon_raise _ _ _ _ _ _ ht.setStream.returnToken)

theorem Result.canon.streamSwitch {core} (h : s.canon) : Result.canon (execStreamSwitch core s) := by
  unfold execStreamSwitch
  extract_lets +onlyGivenNames _ _ _ t
  have ht : t.canon := .ite h h
  exact .ite (.next (.ite ht.setCore ht)) (.ite (.next h) (.ite (.next ht.setCore) (.next h)))

theorem State.canon.withdraw {sid} (h : s.canon) : (s.withdraw sid).canon := .ite h.setStream.withGates.takeBack.setStream.withTraps h.setStream.withGates

theorem State.canon.stall {sid f} (h : s.canon) : (s.stall sid f).canon := by
  unfold State.stall
  split
  · exact h.faultAt
  · refine .ite h.withdraw.faultAt ?_
    split
    · exact State.canon_raise _ _ _ _ _ _ (State.canon_refuse _ h)
    · exact h.faultCmd
    · exact h.faultAt

theorem Result.canon.faultRecordAppend {wid} (h : s.canon) : Result.canon (execFaultRecordAppend wid s) := by
  unfold execFaultRecordAppend
  split
  · exact .next h
  · exact .ite (.next h) (.ite (.next (State.canon_readHeader _ _ _ h)) (.next (State.canon_queueAppend _ _ _ _ h.setWorld).frame))

theorem Result.canon.handlerEntry {sid} (h : s.canon) : Result.canon (execHandlerEntry sid s) := by
  unfold execHandlerEntry
  dsimp only
  split
  · exact .next h
  · exact .next (State.canon_enterHandler _ _ _ _ h)

/-! ### V (16 R389 to R414) -/

theorem State.canon.setVRow {n x bytes} (h : s.canon) : (s.setVRow n x bytes).canon := h
theorem State.canon.setVElems {n l} (h : s.canon) : (s.setVElems n l).canon := h
theorem State.canon.setVMasked {n m l} (h : s.canon) : (s.setVMasked n m l).canon := h
theorem Result.canon.vShift {d a b m f} (h : s.canon) : Result.canon (s.vShift d a b m f) := .ite (.next h.illop) (.next h)

theorem Result.canon.vcvt {d a es tfrom tto rnd sat scl} (h : s.canon) : Result.canon (execVcvt d a es tfrom tto rnd sat scl s) :=
  .ite (.next h.illop) (.next (.foldl h (fun _ _ ht => ht.setVRow)))

theorem Result.canon.vdrop {d a seed idx ts md} (h : s.canon) : Result.canon (execVdrop d a seed idx ts md s) :=
  .ite (.next h.illop) (.next h.setVElems.setM)

theorem State.canon.vSettled {w offs} (h : s.canon) : (s.vSettled w offs).1.canon := .fst_foldl h (fun _ _ ht => State.canon_settledHome _ _ _ ht)
theorem State.canon.vStore {w l} (h : s.canon) : (s.vStore w l).canon := h
theorem Result.canon.holdV (h : s.canon) : Result.canon (s.holdV) := .next h

theorem Result.canon.vWrite {w l k} (h : s.canon) (hk : ∀ (a : State), a.canon → (k a).canon) : Result.canon (s.vWrite w l k) :=
  .ite (.holdV h) (.ite (.next (hk _ h.vSettled.vStore)) (.holdV h.vSettled))

theorem Result.canon.vld {d b o m} (h : s.canon) : Result.canon (execVld d b o m s) := by
  unfold execVld
  split
  · exact .next h.fault
  · dsimp only
    split
    · exact .next h.fault
    · exact .next h.spMeet.setVMasked

theorem Result.canon.vst {a b o m} (h : s.canon) : Result.canon (execVst a b o m s) := by
  unfold execVst
  split
  · exact .next h.fault
  · exact .vWrite h (fun _ ht => ht)

theorem Result.canon.vgath {d vi b m sz} (h : s.canon) : Result.canon (execVgath d vi b m sz s) := by
  refine .ite (.next h.illop) ?_
  split
  · exact .next h.fault
  · split
    · exact .next h.fault
    · exact .next (.setVMasked (.foldl h (fun _ _ ht => ht.spMeet)))

theorem Result.canon.vscat {a vi b m sz} (h : s.canon) : Result.canon (execVscat a vi b m sz s) := by
  refine .ite (.next h.illop) ?_
  split
  · exact .next h.fault
  · exact .vWrite h (fun _ ht => ht)

theorem State.canon.setCond {k c} (h : s.canon) : (s.setCond k c).canon := h
theorem Result.canon.vpush {k a m} (h : s.canon) : Result.canon (execVpush k a m s) := .ite (.next h.illop) (.vWrite h (fun _ ht => ht.setCond))

theorem Result.canon.vclose {k} (h : s.canon) : Result.canon (execVclose k s) :=
  .ite (.next h.illop) (.ite (.next h) (.vWrite h (fun _ ht => ht.setCond)))

theorem Result.canon.vpop {d k md} (h : s.canon) : Result.canon (execVpop d k md s) := by
  refine .ite (.next h.setVRow.setM) (.ite (.next h.illop) ?_)
  dsimp only
  split
  · exact .next h.fault
  · exact .next h.spMeet.setVRow.setM.setCond

theorem Result.canon.vqpop {d es} (h : s.canon) : Result.canon (execVqpop d es s) := by
  unfold execVqpop
  split
  · exact .next h
  · exact .ite (.next h.fault) (.next h)

/-! ### Turns: errors of the memories (01 R30; 06 R155) -/

theorem State.canon.sramError {sid dva lasting} (h : s.canon) : (s.sramError sid dva lasting).canon := .ite h (State.canon_logError _ _ _ _ _ _ h)
theorem State.canon.spUpset {sid core g lasting} (h : s.canon) : (s.spUpset sid core g lasting).canon := .ite h (.ite h.sramError.setCore h.sramError)
theorem State.canon.spillUpset {sid k lasting} (h : s.canon) : (s.spillUpset sid k lasting).canon := .ite h.sramError.setStream h.sramError
theorem State.canon.tileUpset {sid row lasting} (h : s.canon) : (s.tileUpset sid row lasting).canon := .ite h.sramError.setStream h.sramError

theorem State.canon.planeUpset {sid shadow row lasting} (h : s.canon) : (s.planeUpset sid shadow row lasting).canon :=
  .ite h.sramError.setCore h.sramError

theorem State.canon.ringUpset {sid r lasting} (h : s.canon) : (s.ringUpset sid r lasting).canon := .ite h.sramError.setRing h.sramError
theorem State.canon.tagUpset {sid k lasting} (h : s.canon) : (s.tagUpset sid k lasting).canon := .ite h.sramError.setStream h.sramError

theorem State.canon.rowUpset {sid k lasting} (h : s.canon) : (s.rowUpset sid k lasting).canon := by
  unfold State.rowUpset
  dsimp only
  split
  · exact h
  · exact .ite h.sramError.setStream h.sramError

theorem State.canon.scalarUpset {sid e k lasting} (h : s.canon) : (s.scalarUpset sid e k lasting).canon := by
  unfold State.scalarUpset
  dsimp only
  split
  · exact h
  · exact .ite h.sramError.setStream h.sramError

theorem State.canon.formatUpset {sid k lasting} (h : s.canon) : (s.formatUpset sid k lasting).canon := .ite h.sramError.setStream h.sramError

theorem State.canon.nestUpset {sid shadow k lasting} (h : s.canon) : (s.nestUpset sid shadow k lasting).canon :=
  .ite h.sramError.setStream h.sramError

theorem State.canon.fetchUpset {sid dva lasting} (h : s.canon) : (s.fetchUpset sid dva lasting).canon :=
  .ite h (.ite h.sramError.setStream h.sramError)

theorem State.canon.tlbUpset {sid k lasting} (h : s.canon) : (s.tlbUpset sid k lasting).canon := by
  unfold State.tlbUpset
  split
  · exact h
  · exact .ite h.sramError.frame h.sramError

theorem State.canon.syncUpset {k lasting} (h : s.canon) : (s.syncUpset k lasting).canon := by
  unfold State.syncUpset
  split <;> exact h

theorem State.canon.shadowUpset {place lasting} (h : s.canon) : (s.shadowUpset place lasting).canon := by
  refine .ite h ?_
  split
  · exact h
  · exact (State.canon_logError _ _ _ _ _ _ h).withImages

theorem State.canon.swapUpset {slot k g lasting} (h : s.canon) : (s.swapUpset slot k g lasting).canon := by
  unfold State.swapUpset
  split
  · exact h
  · 
    exact .ite (State.canon_logError _ _ _ _ _ _ h).withShadow (State.canon_logError _ _ _ _ _ _ h)

theorem State.canon.metaUpset {copy} (h : s.canon) : (s.metaUpset copy).canon := by
  unfold State.metaUpset
  split <;> exact h

/-! ### The step -/


/-- Every instruction, and every step of another unit, keeps the form. -/
theorem Result.canon.of_exec {i} (h : s.canon) : Result.canon (exec i s) :=
  match i with
  | .nop .. | .winWrite .. | .wdogWrite .. | .spst .. | .tinv .. | .jmp .. | .yield | .vadd .. | .vsub .. | .vmul ..
  | .vfma .. | .vmin .. | .vmax .. | .vand .. | .vor .. | .vxor .. | .vsel .. | .vperm .. | .vbcast .. | .vext .. | .vins ..
  | .vrnd .. | .mcfg .. | .mswap | .fexp2 .. | .flog2 .. | .frcp .. | .frsq .. | .ftanh .. | .fsigm .. | .ferf ..
  | .fExposure .. | .operandWindowRetire .. => .next h
  | .loop .. => .loop h
  | .rep .. => .next h.openRep
  | .notify .. => .notify h
  | .qpush .. | .br .. | .fmtq .. | .formatQueueResume .. | .slipWindowResume .. | .streamPark .. | .switchQuantumExpiry ..
  | .ctxCommandDone .. | .pswapDone .. | .pgateDone .. | .metadataCheckpoint | .linkKeyInstall .. | .lockInterface ..
  | .startInterface .. | .ideKmKeyRefresh .. | .governorTick .. | .fastLimit .. | .thermalThrottle .. | .throttleRelease ..
  | .unsupportedRequest .. => .ite (.next h) (.next h)
  | .epop .. => .epop h
  | .toks .. => .toks h
  | .csrr .. => .csrr h
  | .csrw .. => .csrw h
  | .add .. | .sub .. | .mul .. | .mulh .. | .mulhn .. | .div .. | .divn .. | .rem .. | .remn .. | .and .. | .or ..
  | .xor .. | .shl .. | .shr .. | .sra .. | .min .. | .minn .. | .max .. | .maxn .. | .sel .. | .clz .. | .ctz .. | .popc ..
  | .addi .. | .andi .. | .ori .. | .xori .. | .shli .. | .shri .. | .srai .. | .limm .. | .lup .. | .ext .. | .extS ..
  | .ins .. | .spld .. | .tlook .. => .next h.setS
  | .cmp .. | .cmpi .. | .plog .. => .next h.setP
  | .ld .. => .ld h
  | .st .. => .st h
  | .mark => .mark h
  | .ldacq .. => .ldacq h
  | .strel .. => .strel h
  | .fence .. => .fence h
  | .tset .. => .tset h
  | .call .. => .call h
  | .ret => .ret h
  | .wfill .. | .wfree .. | .waitge .. => .issueWait h
  | .wevt .. => .wevt h
  | .rinit .. => .ite (.next h) (.next h.fault)
  | .rclaim .. => .rclaim h
  | .rcommit .. => .rcommit h
  | .rfree .. => .rfree h
  | .amo .. => .amo h
  | .acas .. => .acas h
  | .bar .. => .bar h
  | .sev .. => .sev h
  | .gflip .. => .gflip h
  | .rnext .. => .rnext h
  | .launch .. => .launch h
  | .ovl .. => .ovl h
  | .trap .. => .trap h
  | .eret | .vred .. => .ite (.next h.illop) (.next h)
  | .tlbi .. => .tlbi h
  | .halt => .halt h
  | .agrant .. => .agrant h
  | .arevoke .. => .arevoke h
  | .aerase .. => .aerase h
  | .aattest .. => .aattest h
  | .astat .. => .astat h
  | .smig .. => .smig h
  | .vshl .. | .vshr .. | .vshrl .. => .vShift h
  | .vcmp .. => .next h.setM
  | .vcvt .. => .vcvt h
  | .vld .. => .vld h
  | .vst .. => .vst h
  | .vgath .. => .vgath h
  | .vscat .. => .vscat h
  | .vpush .. => .vpush h
  | .vpop .. => .vpop h
  | .vclose .. => .vclose h
  | .vdrop .. => .vdrop h
  | .vtype .. => .ite (.next h) (.next h.illop)
  | .vqpop .. => .vqpop h
  | .mgo => .mgo h
  | .mpass .. => .mpass h
  | .mlds .. => .mlds h
  | .mclr .. => .mclr h
  | .mconv .. => .mconv h
  | .awrite .. => .awrite h
  | .ccopy .. => .ccopy h
  | .cgath .. => .cgath h
  | .cscanr .. => .cscanr h
  | .cscanu .. => .cscanu h
  | .clap .. => .clap h
  | .cbank .. => .cbank h
  | .ccopyf .. => .ccopyf h
  | .fetchLine .. => .fetchLine h
  | .tokenWaitResume .. => .tokenWaitResume h
  | .tokenPushResume .. => .tokenPushResume h
  | .scalarFifoResume .. => .scalarFifoResume h
  | .waitWake .. => .waitWake h
  | .streamSwitch .. => .streamSwitch h
  | .completionCombine .. => .completionCombine h
  | .recordCompletionEvent .. => .recordCompletionEvent h
  | .walkerTakeRecord .. => .walkerTakeRecord h
  | .iterationPlace .. => .iterationPlace h
  | .stall .. => .ite (.next h) (.next h.stall)
  | .faultRecordAppend .. => .faultRecordAppend h
  | .handlerEntry .. => .handlerEntry h
  | .migrationMove .. => .migrationMove h
  | .ctxSave .. => .ctxSave h
  | .ctxRestore .. => .ctxRestore h
  | .pswapSave .. => .pswapSave h
  | .pswapRestore .. => .pswapRestore h
  | .pgateGate .. => .pgateGate h
  | .pgateUngate .. => .pgateUngate h
  | .map .. | .unmap .. | .scanmake .. | .gatebindBind .. | .gatebindUnbind .. | .leaseRequest .. | .leaseWake ..
  | .leaseReserve .. | .leaseEop .. | .unlease .. | .evidenceWorldReport .. | .evidenceCollectRecord .. | .resumeRetry ..
  | .resumeAbandon .. => by
    unfold exec
    exact .takeUp h
  | .scanRegionRelease .. => .scanRegionRelease h
  | .leaseFinalStatus .. => .leaseFinalStatus h
  | .arrayPass .. => .arrayPass h
  | .mgoPass .. => .mgoPass h
  | .awriteRowStep .. => .awriteRowStep h
  | .eraseStep .. => .eraseStep h
  | .copyStep .. => .copyStep h
  | .scanAdmission .. => .scanAdmission h
  | .lapBell .. => .lapBell h
  | .closeMarkerArrive .. => .closeMarkerArrive h
  | .sliceZeroRow .. => .sliceZeroRow h
  | .sliceRowServe .. => .sliceRowServe h
  | .slicePassEnd .. => .slicePassEnd h
  | .scanReplyDeliver .. => .scanReplyDeliver h
  | .gateFlipCommit .. => .gateFlipCommit h
  | .notificationAppend .. => .notificationAppend h
  | .errorLogAppend .. => .errorLogAppend h
  | .doorbell .. => .doorbell h
  | .vfResume .. => .vfResume h
  | .vfEvidence .. => .vfEvidence h
  | .vfRegisterWrite .. => .ite (.next h.vfClosed) (.ite (.next h) (.next h))
  | .intakePacket .. => .intakePacket h
  | .tsudalPacket .. => .tsudalPacket h
  | .dieLinkFrame .. => .dieLinkFrame h
  | .linkKeySwitch .. => .linkKeySwitch h
  | .linkKeyRetire .. => .linkKeyRetire h
  | .functionLevelReset .. => .functionLevelReset h
  | .worldTeardown .. => .worldTeardown h
  | .getVersion .. | .getCapabilities .. | .negotiateAlgorithms .. | .getDigests .. | .getCertificate .. | .challenge ..
  | .getMeasurements .. | .endSession .. => .next h.spdm
  | .keyExchange .. => .keyExchange h
  | .finish .. => .finish h
  | .enrolment .. => .enrolment h
  | .enrolmentWithdraw => .enrolmentWithdraw h
  | .alarmRepeat => .alarmRepeat h
  | .bootStageA .. => .bootStageA h
  | .rollbackIncrement .. => .rollbackIncrement h
  | .bootStageB => .bootStageB h
  | .dieJoin .. => .dieJoin h
  | .powerLoss => .next h.powerUp
  | .thermalTrip .. => .thermalTrip h
  | .hostRestart => .ite (.next h.powerUp) (.next h)
  | .worldMake .. => .worldMake h
  | .hostWrite .. => .hostWrite h
  | .tdiError .. => .tdiError h

theorem State.canon.takeTurn (h : s.canon) : s.takeTurn.2.canon := by
  unfold State.takeTurn
  split
  · exact h
  · exact h

theorem State.canon.pass (h : s.canon) : s.pass.canon := h

/-- An engine's turn keeps the form, when the meaning of a lane does. -/
theorem Result.canon.engineTurn {run : Instr → State → Result} {sid e} (hr : ∀ i t, t.canon → Result.canon (run i t)) (h : s.canon) :
    Result.canon (s.engineTurn run sid e) := by
  have hp : (s.prepare sid e).canon := .prepare h
  unfold State.engineTurn
  generalize s.prepare sid e = p at hp ⊢
  cases p with
  | done t => exact .next (.settleBehind hp)
  | run i u =>
    dsimp only
    split
    · next t ht =>
      have ht : t.canon := hr i u hp t ht
      exact .next (.settleBehind ht.settleLane)
    · exact .fault
    · exact .refused

/-- A turn keeps the form, whatever moves in it. -/
theorem Result.canon.takes {t} (h : s.canon) : Result.canon (s.takes exec t) :=
  match t with
  | .lane .. => .engineTurn (fun _ _ hu => .of_exec hu) h
  | .event _ => .ite (.next h) (.of_exec h)
  | .move _ => .next (State.canon_moveNth _ h)
  | .upset .. | .corrected => .next h
  | .spUpset .. => .next h.spUpset
  | .early .. => .next h.loadEarly
  | .spillUpset .. => .next h.spillUpset
  | .tileUpset .. => .next h.tileUpset
  | .planeUpset .. => .next h.planeUpset
  | .ringUpset .. => .next h.ringUpset
  | .tagUpset .. => .next h.tagUpset
  | .rowUpset .. => .next h.rowUpset
  | .scalarUpset .. => .next h.scalarUpset
  | .formatUpset .. => .next h.formatUpset
  | .nestUpset .. => .next h.nestUpset
  | .fetchUpset .. => .next h.fetchUpset
  | .tlbUpset .. => .next h.tlbUpset
  | .syncUpset .. => .next h.syncUpset
  | .sense .. => .next h.senseBetween
  | .shadowUpset .. => .next h.shadowUpset
  | .swapUpset .. => .next h.swapUpset
  | .metaUpset _ => .next h.metaUpset
  | .alarm _ | .logUpset _ => .next h.lockdown
  | .syncOut _ => .next h
  | .flow .. => .next h.writeFlow
  | .bindPeer .. => .next h.bindPeer
  | .sendPacket .. => .next h.sendPacket
  | .peerPacket .. => .next h.peerPacket
  | .ideFail _ => .next h.ideFail
  | .spdmFail _ => .next h.spdmFail
  | .collect _ => .next h.collect
  | .logicFault .. => .ite (.next h) (.next h.faultAt)
  | .host _ => .ite (.next h.setCore) (.next h)

theorem Result.canon.of_step (h : s.canon) : Result.canon (step s) := by
  intro t ht
  rw [step_eq] at ht
  split at ht
  · next u hu =>
    cases ht
    exact State.canon.pass (Result.canon.takes h.takeTurn u hu)
  · cases ht
  · cases ht

end

/-- Settles O58: whatever turn the step takes keeps the form (`Result.canon.takes`), and the passing of time leaves both memories alone. -/
theorem stepKeepsMemory : Obligations.StepKeepsMemory := by
  unfold Obligations.StepKeepsMemory
  intro s t hmem hrows ht
  exact Result.canon.of_step ⟨hmem, hrows⟩ t ht

end Sys2Proof.Machine
end

section
/-! PROOF of O49: links and their keys (R16, R286 to R290). -/

namespace Sys2Proof.Machine

open Sys2Proof

/-! ### Packets (R286, R288, R289) -/

/-- An open port is up (R290). -/
theorem State.link_up_of_open {s : State} {k : Nat} (h : s.portClosed k = false) : (s.link k).down = false :=
  (Bool.or_eq_false_iff.1 h).1

/-- Packets of other channels keep their places before what arrives. -/
theorem Link.receive_append (l : Link) {wid : Nat} {toPeer : Bool} (ok : Bool) {qs : List Packet} (ps : List Packet)
    (h : ∀ q ∈ qs, ¬(q.wid = wid ∧ q.toPeer = toPeer)) :
    l.receive wid toPeer ok (qs ++ ps) = { l.receive wid toPeer ok ps with flight := qs ++ (l.receive wid toPeer ok ps).flight } := by
  induction qs with
  | nil => rfl
  | cons q qs ih =>
    rw [List.cons_append, Link.receive, if_neg (h q (List.mem_cons_self ..)), ih fun r hr => h r (List.mem_cons_of_mem _ hr)]
    rfl

/-- The head of its channel, sound and in a slot the receiver accepts, is delivered. -/
theorem Link.receive_sound (l : Link) {p : Packet} (ps : List Packet) (h : p.slot ∈ l.accepts p.toPeer) :
    l.receive p.wid p.toPeer true (p :: ps) = { l with flight := ps } := by
  simp [Link.receive, h]

/-- One that fails, or names a slot the receiver does not accept, goes out again in its place, unless the world's marker has passed. -/
theorem Link.receive_failed (l : Link) {p : Packet} (ps : List Packet) {ok : Bool} (h : ok = false ∨ p.slot ∉ l.accepts p.toPeer) :
    l.receive p.wid p.toPeer ok (p :: ps) =
      { l with down := l.down || decide (3 ≤ p.fails + 1)
               flight := if p.wid ∈ l.flush then ps else { p with slot := l.sendSlot p.toPeer, fails := p.fails + 1 } :: ps } := by
  have hbad : (ok && (l.accepts p.toPeer).contains p.slot) = false := by
    rcases h with rfl | h
    · rfl
    · simp [h]
  rw [Link.receive, if_pos ⟨rfl, rfl⟩, hbad]
  simp only [Bool.false_eq_true, if_false, List.contains_iff_mem]

theorem State.sendPacket_open {s : State} {k wid : Nat} (hk : k < 4) (ho : s.portClosed k = false) (hf : wid ∉ (s.link k).flush) (toPeer : Bool) :
    s.sendPacket k wid toPeer =
      s.setLink k { s.link k with flight := (s.link k).flight ++ [{ wid := wid, slot := (s.link k).sendSlot toPeer, toPeer := toPeer }] } := by
  simp [State.sendPacket, Nat.not_le.2 hk, ho, hf]

theorem State.sendPacket_flushed {s : State} {k wid : Nat} (hf : wid ∈ (s.link k).flush) (toPeer : Bool) : s.sendPacket k wid toPeer = s := by
  simp [State.sendPacket, hf]

theorem State.sendPacket_closed {s : State} {k : Nat} (hc : s.portClosed k = true) (wid : Nat) (toPeer : Bool) : s.sendPacket k wid toPeer = s := by
  simp [State.sendPacket, hc]

theorem State.arrivePacket_closed {s : State} {k : Nat} (hc : s.portClosed k = true) (wid : Nat) (toPeer ok : Bool) :
    s.arrivePacket k wid toPeer ok = s := by
  simp [State.arrivePacket, hc]

/-- A port that is closed receives nothing (R290). -/
theorem execTsudalPacket_closed {s : State} {k : Nat} (hc : s.portClosed k = true) (wid slot : Nat) (ok : Bool) :
    execTsudalPacket k wid slot ok s = .next s := by
  unfold execTsudalPacket
  split
  · rfl
  · rw [State.arrivePacket_closed hc, ite_self]

/-- An open port receives the oldest packet of a channel, under the slot that packet names. -/
theorem execTsudalPacket_open {s : State} {k : Nat} (hk : k < 4) (ho : s.portClosed k = false) {qs ps : List Packet} {p : Packet}
    (hl : (s.link k).flight = qs ++ p :: ps) (hq : ∀ q ∈ qs, q.wid ≠ p.wid ∨ q.toPeer = true) (hp : p.toPeer = false) (ok : Bool) :
    execTsudalPacket k p.wid p.slot ok s =
      .next (s.setLink k ((s.link k).receive p.wid false ok (qs ++ p :: ps))) := by
  have hfind : ((qs ++ p :: ps).find? fun q => q.wid == p.wid && !q.toPeer) = some p := by
    rw [List.find?_append, List.find?_eq_none.2 (by simpa [imp_iff_not_or] using hq)]
    simp [hp]
  simp only [execTsudalPacket, hfind, if_true, State.arrivePacket, Nat.not_le.2 hk, ho, Bool.false_eq_true, or_self, if_false, hl]

/-- What the packet's receipt leaves, where the packets before it are of other channels. -/
theorem execTsudalPacket_receives {s : State} {k : Nat} (hk : k < 4) (ho : s.portClosed k = false) {qs ps : List Packet} {p : Packet}
    (hl : (s.link k).flight = qs ++ p :: ps) (hq : ∀ q ∈ qs, q.wid ≠ p.wid ∨ q.toPeer = true) (hp : p.toPeer = false) :
    (p.slot ∈ (s.link k).validA → execTsudalPacket k p.wid p.slot true s = .next (s.setLink k { s.link k with flight := qs ++ ps })) ∧
    (∀ ok, (ok = false ∨ p.slot ∉ (s.link k).validA) → execTsudalPacket k p.wid p.slot ok s =
      .next (s.setLink k { s.link k with
        down := decide (3 ≤ p.fails + 1)
        flight := qs ++ if p.wid ∈ (s.link k).flush then ps else { p with slot := (s.link k).slotB, fails := p.fails + 1 } :: ps })) := by
  have hr := fun ok => execTsudalPacket_open hk ho hl hq hp ok
  obtain ⟨wid, slot, toPeer, fails⟩ := p
  obtain rfl : toPeer = false := hp
  have hskip : ∀ q ∈ qs, ¬(q.wid = wid ∧ q.toPeer = false) := by
    intro q hm ⟨hw, ht⟩
    exact (hq q hm).elim (fun h => h hw) (by simp [ht])
  simp only [Link.receive_append _ _ _ hskip] at hr
  constructor
  · intro hs
    rw [hr, Link.receive_sound _ _ hs]
  · intro ok hf
    rw [hr, Link.receive_failed _ _ hf, State.link_up_of_open ho, Bool.false_or]
    rfl

/-! ### Frames of die and hub links (R16) -/

theorem execDieLinkFrame_sound {s : State} {k : Nat} (hlo : 4 ≤ k) (hhi : k < 12) :
    execDieLinkFrame k true s = .next (s.setLink k { s.link k with fails := 0 }) := by
  simp [execDieLinkFrame, Nat.not_lt.2 hlo, Nat.not_le.2 hhi]

theorem execDieLinkFrame_failed {s : State} {k : Nat} (hlo : 4 ≤ k) (hhi : k < 12) : execDieLinkFrame k false s =
    .next (if (s.link k).fails = 0 then s.setLink k { s.link k with fails := 1 } else (s.setLink k { s.link k with fails := 0 }).lockdown 4 k) := by
  simp only [execDieLinkFrame, Nat.not_lt.2 hlo, Nat.not_le.2 hhi, or_self, if_false, Bool.false_eq_true]
  split <;> rfl

theorem State.lockdown_of_free {s : State} (h : s.sec.lockdown = 0) (cause detail : Nat) :
    (s.lockdown cause detail).sec.lockdown = cause ∧ (s.lockdown cause detail).sec.detail = detail := by
  simp [State.lockdown, h]

theorem State.link_lockdown (s : State) (cause detail n : Nat) : (s.lockdown cause detail).link n = s.link n := by
  rw [State.lockdown_only]; rfl

/-! ### Keys (R288) -/

/-- With slot 0 in use at both ends, the new key goes into slot 1 at both. -/
theorem execLinkKeyInstall_slot1 {s : State} {k : Nat} {l : Link} (hl : l = s.link k) (hk : k < 4) (hA : l.slotA = 0) (hB : l.slotB = 0)
    (vA : l.validA = [0]) (vB : l.validB = [0]) : execLinkKeyInstall k s =
    .next (s.setLink k { l with validA := [0, 1], validB := [0, 1], keys := Tab.set l.keys 1 l.nextKey, nextKey := l.nextKey + 1 }) := by
  subst hl
  simp [execLinkKeyInstall, Nat.not_le.2 hk, hA, hB, vA, vB]

/-- A key in slot 1 above slot 0's is the newer. -/
theorem Link.newer_of_set {l : Link} (h : Tab.get 0 l.keys 0 < l.nextKey) (x : Link) (hx : x.keys = Tab.set l.keys 1 l.nextKey) : x.newer = 1 := by
  simp [Link.newer, hx, Tab.get_set_ne 0 l.keys l.nextKey (show (0 : Nat) ≠ 1 by decide), h]

theorem execLinkKeySwitch_self {s : State} {k : Nat} (h : (s.link k).newer ∈ (s.link k).validB) :
    execLinkKeySwitch k false s = .next (s.setLink k { s.link k with slotA := (s.link k).newer }) := by
  simp [execLinkKeySwitch, h]

theorem execLinkKeySwitch_peer {s : State} {k : Nat} (h : (s.link k).newer ∈ (s.link k).validA) :
    execLinkKeySwitch k true s = .next (s.setLink k { s.link k with slotB := (s.link k).newer }) := by
  simp [execLinkKeySwitch, h]

/-- Nothing in flight toward one end names another slot than n. -/
theorem Link.flight_clear_iff (l : Link) (toPeer : Bool) (n : Nat) :
    (l.flight.all fun p => p.toPeer != toPeer || p.slot == n) = true ↔ ∀ p ∈ l.flight, p.toPeer = toPeer → p.slot = n := by
  simp [List.all_eq_true, imp_iff_not_or]

/-- When each receiver retires the old slot, and that otherwise nothing happens. -/
theorem execLinkKeyRetire_self (k : Nat) (s : State) : execLinkKeyRetire k false s =
    if (s.link k).slotB = (s.link k).newer ∧ (s.link k).newer ∈ (s.link k).validA ∧ ∀ p ∈ (s.link k).flight, p.toPeer = false → p.slot = (s.link k).newer then
      .next (s.setLink k { s.link k with validA := [(s.link k).newer] }) else .next s := by
  simp only [execLinkKeyRetire, Bool.false_eq_true, if_false, List.contains_iff_mem, Link.flight_clear_iff]

theorem execLinkKeyRetire_peer (k : Nat) (s : State) : execLinkKeyRetire k true s =
    if (s.link k).slotA = (s.link k).newer ∧ (s.link k).newer ∈ (s.link k).validB ∧ ∀ p ∈ (s.link k).flight, p.toPeer = true → p.slot = (s.link k).newer then
      .next (s.setLink k { s.link k with validB := [(s.link k).newer] }) else .next s := by
  simp only [execLinkKeyRetire, if_true, List.contains_iff_mem, Link.flight_clear_iff]

/-- Settles O49: packets by `execTsudalPacket_receives`, frames and keys by the equation of each case. -/
theorem linksCarry : Obligations.LinksCarry := by
  unfold Obligations.LinksCarry
  rintro s k wid slot l rfl
  refine ⟨fun hk ho => ⟨fun hf => State.sendPacket_open hk ho hf false, fun hf => State.sendPacket_flushed hf false, ?_⟩,
    fun hc ok => ⟨execTsudalPacket_closed hc wid slot ok, State.sendPacket_closed hc wid false⟩,
    fun hlo hhi => ⟨execDieLinkFrame_sound hlo hhi, fun h0 => ?_, fun h0 => ?_⟩,
    fun hk hA hB vA vB hn => ⟨_, execLinkKeyInstall_slot1 rfl hk hA hB vA vB, State.link_setLink .., ?_⟩, ?_⟩
  · rintro qs p ps hl hq rfl hp rfl
    obtain ⟨hsound, hfailed⟩ := execTsudalPacket_receives hk ho hl hq hp
    refine ⟨hsound, fun ok hbad hf => ?_, fun ok hbad hf hfirst => ?_⟩
    · exact (hfailed ok hbad).trans (by rw [if_neg hf])
    · have hup : decide (3 ≤ p.fails + 1) = (s.link k).down := by rw [hfirst, State.link_up_of_open ho]; rfl
      exact (hfailed ok hbad).trans (by rw [if_pos hf, hup])
  · exact (execDieLinkFrame_failed hlo hhi).trans (by rw [if_pos h0])
  · refine ⟨_, (execDieLinkFrame_failed hlo hhi).trans (congrArg _ (if_neg h0)), ?_, fun hfree => State.lockdown_of_free (s := s.setLink k _) hfree 4 k⟩
    rw [State.link_lockdown, State.link_setLink]
  · exact Link.newer_of_set hn _ (by rw [State.link_setLink])
  · rintro n rfl
    refine ⟨execLinkKeySwitch_self, execLinkKeySwitch_peer, fun hB hA hc => ?_, fun hA hB hc => ?_, fun h => ?_, fun h => ?_⟩
    · exact (execLinkKeyRetire_self k s).trans (if_pos ⟨hB, hA, hc⟩)
    · exact (execLinkKeyRetire_peer k s).trans (if_pos ⟨hA, hB, hc⟩)
    · refine (execLinkKeyRetire_self k s).trans (if_neg ?_)
      rintro ⟨hB, -, hc⟩
      exact h.elim (fun h => h hB) fun ⟨p, hp, ht, hs⟩ => hs (hc p hp ht)
    · refine (execLinkKeyRetire_peer k s).trans (if_neg ?_)
      rintro ⟨hA, -, hc⟩
      exact h.elim (fun h => h hA) fun ⟨p, hp, ht, hs⟩ => hs (hc p hp ht)

end Sys2Proof.Machine
end

section
/-! SUPPORT for the start and for loss of power: tables that are mapped and filtered as a whole, folds, and what a log entry, a revocation
and the joining of an array leave. -/

namespace Sys2Proof

/-- A table mapped entry by entry reads as the map of what it read, if the defaults correspond. -/
theorem Tab.get_map {α β : Type} (f : α → β) (d : α) (t : Tab α) (k : Nat) :
    Tab.get (f d) (t.map fun p => (p.1, f p.2)) k = f (Tab.get d t k) := by
  induction t with
  | nil => rfl
  | cons p t ih => simp only [List.map_cons, Tab.get, ih, apply_ite f]

/-- A table whose entries are kept by their keys. -/
theorem Tab.get_filter {α : Type} (f : Nat → Bool) (d : α) (t : Tab α) (k : Nat) :
    Tab.get d (t.filter fun p => f p.1) k = if f k then Tab.get d t k else d := by
  induction t with
  | nil => simp [Tab.get]
  | cons p t ih =>
    obtain ⟨a, x⟩ := p
    by_cases ha : a = k
    · subst ha
      by_cases hf : f a <;> simp [hf, Tab.get, ih]
    · by_cases hf : f a <;> simp [hf, Tab.get, ih, ha]

/-- A key that does not read as the default is listed. -/
theorem Tab.mem_keys_of_get_ne {α : Type} {d : α} {t : Tab α} {k : Nat} (h : Tab.get d t k ≠ d) : k ∈ t.map (·.1) := by
  induction t with
  | nil => exact absurd rfl h
  | cons p t ih =>
    by_cases hp : p.1 = k
    · simp [hp]
    · simp only [Tab.get, if_neg hp] at h
      exact List.mem_cons_of_mem _ (ih h)

end Sys2Proof

namespace Sys2Proof.Machine

open Sys2Proof

/-- What every step keeps, and the step at a establishes and every step keeps from then on, holds after a fold that passes a. -/
theorem foldl_establishes {α β : Type} {P Q : β → Prop} {f : β → α → β} {a : α} (hP : ∀ s x, P s → P (f s x)) (hQ : ∀ s x, Q s → Q (f s x))
    (ha : ∀ s, P s → Q (f s a)) {l : List α} (hm : a ∈ l) {s : β} (hs : P s) : Q (l.foldl f s) := by
  obtain ⟨l₁, l₂, rfl⟩ := List.append_of_mem hm
  rw [List.foldl_append, List.foldl_cons]
  exact foldl_keeps Q f hQ l₂ (ha _ (foldl_keeps P f hP l₁ hs))

/-! ### What a log entry and the end of AWRITEs leave -/

/-- The leases, the start, the contents of the arrays and the bays' maintenance weights are as before. -/
structure State.SameLeases (s t : State) : Prop where
  leases : t.leases = s.leases
  boot : t.boot = s.boot
  rows : t.rows = s.rows
  maint : ∀ b, (t.bay b).maint = (s.bay b).maint

theorem State.SameLeases.refl (s : State) : s.SameLeases s := ⟨rfl, rfl, rfl, fun _ => rfl⟩

theorem State.SameLeases.trans {s t u : State} (h : s.SameLeases t) (g : t.SameLeases u) : s.SameLeases u :=
  ⟨g.leases.trans h.leases, g.boot.trans h.boot, g.rows.trans h.rows, fun b => (g.maint b).trans (h.maint b)⟩

theorem State.SameLeases.ite {c : Prop} {_ : Decidable c} {s t u : State} (ht : s.SameLeases t) (hu : s.SameLeases u) :
    s.SameLeases (if c then t else u) := by
  split
  · exact ht
  · exact hu

theorem State.SameLeases.fst_ite {α : Type} {c : Prop} {_ : Decidable c} {s : State} {p q : State × α} (hp : s.SameLeases p.1) (hq : s.SameLeases q.1) :
    s.SameLeases (if c then p else q).1 := by
  split
  · exact hp
  · exact hq

theorem State.SameLeases.tear (s : State) (a n : Nat) : s.SameLeases (s.tear a n) := by
  unfold State.tear
  exact .ite (.refl s) ⟨rfl, rfl, rfl, fun _ => rfl⟩

theorem State.SameLeases.poke (s : State) (wid dva : Nat) (bs : List Byte) : s.SameLeases (s.poke wid dva bs) := by
  induction bs generalizing s dva with
  | nil => exact .refl s
  | cons b bs ih =>
    refine .trans ?_ (ih _ _)
    split
    · next a _ => exact .trans (t := { s with mem := Memory.write s.mem a b }) ⟨rfl, rfl, rfl, fun _ => rfl⟩ (.tear ..)
    · exact .refl s

theorem State.SameLeases.addErr (s : State) (wid party : Nat) (entry : List Byte) : s.SameLeases (s.addErr wid party entry) := by
  unfold State.addErr State.countDrop
  exact .ite (.ite (.refl s) (.poke ..)) ⟨rfl, rfl, rfl, fun _ => rfl⟩

theorem State.SameLeases.tryHeader (s : State) (wid off : Nat) : s.SameLeases (s.tryHeader wid off).1 := by
  unfold State.tryHeader State.tryGranule
  dsimp only
  split
  · exact .refl s
  · exact .fst_ite (.refl s) (.fst_ite ⟨rfl, rfl, rfl, fun _ => rfl⟩ (.fst_ite ⟨rfl, rfl, rfl, fun _ => rfl⟩ (.refl s)))

theorem State.SameLeases.logError (s : State) (wid kind sid lap dva extra : Nat) : s.SameLeases (s.logError wid kind sid lap dva extra) := by
  unfold State.logError
  generalize (s.bufferFull wid 0x30 (s.world wid).errs.length && !(s.dropCut wid 0x30 sid)) = b
  have hu : s.SameLeases (if b = true then s.tryHeader wid 0x30 else (s, 0)).1 := .fst_ite (.tryHeader ..) (.refl s)
  generalize (if b = true then s.tryHeader wid 0x30 else (s, 0)) = u at hu ⊢
  exact .trans (.ite hu (hu.trans (.addErr ..))) (.addErr ..)

theorem State.SameLeases.endAwrite (s : State) (id : Nat) : s.SameLeases (s.endAwrite id) :=
  ⟨rfl, rfl, rfl, fun b => (congrArg Bay.maint
    (Tab.get_map (fun x : Bay => { x with left := x.left.filter fun y => y.2.1.id != id }) Bay.reset s.bays b) :)⟩

/-- A revocation that reaches a bay drops operations and weighs nothing. -/
theorem State.SameLeases.dropAwrites (s : State) (an : Nat) : s.SameLeases (s.dropAwrites an) := by
  unfold State.dropAwrites
  refine foldl_keeps (State.SameLeases s) _ (fun t o ht => (ht.trans (.logError ..)).trans (.endAwrite ..)) _ ⟨rfl, rfl, rfl, fun b => ?_⟩
  by_cases hb : b = bayOf an
  · subst hb; rw [State.bay_setBay]
  · rw [State.bay_setBay_ne _ _ hb]

theorem State.SameLeases.lease {s t : State} (h : s.SameLeases t) (an : Nat) : t.lease an = s.lease an := by
  unfold State.lease
  rw [h.leases]

/-! ### An array joins (R28) -/

section
variable (s : State) (an batch : Nat)

/-- A marked lease is revoked with party 0. -/
theorem State.lease_revoke (party : Nat) (byEop : Bool) : ((s.revoke an party batch byEop).lease an).st = .evicting ∧
    ((s.revoke an party batch byEop).lease an).party = party ∧ ((s.revoke an party batch byEop).lease an).byEop = byEop := by
  unfold State.revoke
  rw [(State.SameLeases.dropAwrites _ an).lease, State.lease_setLease]
  exact ⟨rfl, rfl, rfl⟩

/-- The three cases of joining: the array's lease alone changes, and its bay's maintenance weight alone, and not else than to 1. -/
theorem State.joinArray_other {j : Nat} (h : j ≠ an) : (s.joinArray an batch).lease j = s.lease j := by
  unfold State.joinArray
  dsimp only
  split
  · exact State.lease_setLease_ne _ _ h
  · split
    · exact ((State.SameLeases.dropAwrites _ an).lease j).trans (State.lease_setLease_ne _ _ h)
    · rfl

theorem State.joinArray_maint (b : Nat) : ((s.joinArray an batch).bay b).maint = (s.bay b).maint ∨ ((s.joinArray an batch).bay b).maint = 1 := by
  unfold State.joinArray
  dsimp only
  split
  · exact .inl rfl
  · split
    · by_cases hb : b = bayOf an
      · subst hb; right; unfold State.setMaint; rw [State.bay_setBay]
      · left
        unfold State.setMaint
        rw [State.bay_setBay_ne _ _ hb]
        exact (State.SameLeases.dropAwrites _ an).maint b
    · exact .inl rfl

theorem State.joinArray_package : (s.joinArray an batch).boot = s.boot ∧ (s.joinArray an batch).rows = s.rows := by
  unfold State.joinArray
  dsimp only
  split
  · exact ⟨rfl, rfl⟩
  · split
    · exact ⟨(State.SameLeases.dropAwrites _ an).boot, (State.SameLeases.dropAwrites _ an).rows⟩
    · exact ⟨rfl, rfl⟩

theorem State.joinArray_evicting (h : (s.lease an).st = .evicting) :
    (s.joinArray an batch).lease an = { s.lease an with errows := 0, pulses := 0, rowFail := false } := by
  simp [State.joinArray, h]

theorem State.joinArray_marked (h : (s.lease an).st = .leased) (he : (s.lease an).eop = true) :
    s.joinArray an batch = (s.revoke an 0 batch true).setMaint an 1 := by
  simp [State.joinArray, h, he]

end

end Sys2Proof.Machine
end

section
/-! PROOF of O52: the start and the anti-rollback counter (R24 to R29). -/

namespace Sys2Proof.Machine

open Sys2Proof

/-! ### Stage A (R25) -/

/-- Starting the firmware touches streams alone. -/
theorem State.startFirmware_only (s : State) : s.startFirmware = { s with streams := s.startFirmware.streams } := by
  unfold State.startFirmware
  exact foldl_keeps (fun t : State => t = { s with streams := t.streams }) _ (fun t k ht => by rw [ht]; rfl) _ rfl

/-- Stream 0 of each of the four service cores runs. -/
theorem State.startFirmware_running (s : State) {k : Nat} (hk : k < 4) : (s.startFirmware.stream (512 + 2 * k)).run = .running := by
  unfold State.startFirmware
  refine foldl_establishes (P := fun _ => True) (Q := fun t : State => (t.stream (512 + 2 * k)).run = .running) (a := k)
    (fun _ _ _ => trivial) (fun t j ht => ?_) (fun t _ => ?_) (List.mem_range.2 hk) trivial
  · by_cases hj : 512 + 2 * k = 512 + 2 * j
    · rw [hj, State.stream_setStream]
    · rw [State.stream_setStream_ne _ _ hj]; exact ht
  · rw [State.stream_setStream]

section
variable {s : State} {version : Nat} (h0 : s.boot.stage = 0) (ht : s.boot.tripped = false)
include h0 ht

theorem execBootStageA_starts (hv : s.boot.counter ≤ version) : execBootStageA version true s =
    .next { s with boot := { s.boot with stage := 1, version := version, incDone := false } }.startFirmware := by
  simp [execBootStageA, h0, ht, Nat.not_lt.2 hv]

theorem execBootStageA_below (hv : version < s.boot.counter) : execBootStageA version true s = .next s := by
  simp [execBootStageA, h0, ht, hv]

theorem execBootStageA_unverified : execBootStageA version false s = .next (s.lockdown 1) := by
  simp [execBootStageA, h0, ht]

end

/-! ### Stage B (R26, R28) -/

/-- The copy that is chosen verifies, and no copy that verifies has a higher number. -/
theorem MetaCopy.choose_eq_some {a b c : MetaCopy} (h : MetaCopy.choose a b = some c) :
    c.good = true ∧ (c = a ∨ c = b) ∧ (a.good = true → a.seq ≤ c.seq) ∧ (b.good = true → b.seq ≤ c.seq) := by
  unfold MetaCopy.choose at h
  split at h
  · next ha =>
    cases h
    simp only [Bool.and_eq_true, Bool.or_eq_true, Bool.not_eq_true', decide_eq_true_eq] at ha
    obtain ⟨hg, hb⟩ := ha
    exact ⟨hg, .inl rfl, fun _ => le_rfl, fun hgb => hb.resolve_left (by simp [hgb])⟩
  · next ha =>
    split at h
    · next hb =>
      cases h
      exact ⟨hb, .inr rfl, fun hga => by simp [hga, hb] at ha; omega, fun _ => le_rfl⟩
    · cases h

theorem MetaCopy.choose_eq_none {a b : MetaCopy} : MetaCopy.choose a b = none ↔ a.good = false ∧ b.good = false := by
  cases ha : a.good <;> cases hb : b.good <;> simp [MetaCopy.choose, ha, hb]
  split <;> simp

/-- What waking changes of a lease: an unmarked one is dormant. -/
theorem Lease.wakeUp_only (l : Lease) : l.wakeUp = { l with dormant := l.wakeUp.dormant } := by
  unfold Lease.wakeUp
  split <;> rfl

theorem Lease.wakeUp_dormant {l : Lease} (hl : l.st = .leased) (he : l.eop = false) : l.wakeUp.dormant = true := by
  simp [Lease.wakeUp, hl, he]

theorem Lease.wakeUp_marked {l : Lease} (he : l.eop = true) : l.wakeUp = l := by
  simp [Lease.wakeUp, he]

/-- The security core once stage B has read the enrolment record, of which none is in force without a copy that verifies (R291). -/
def State.enrolmentRead (s : State) : Security :=
  if (s.sec.copyA.choose s.sec.copyB).isSome then s.sec else { s.sec with enrolled := none }

theorem State.enrolmentRead_lockdown (s : State) : s.enrolmentRead.lockdown = s.sec.lockdown := by
  unfold State.enrolmentRead
  split <;> rfl

section
variable {s : State} (h1 : s.boot.stage = 1) (hs : s.boot.safe = false) (ht : s.boot.tripped = false)
include h1 hs ht

/-- Stage B without a copy that verifies: the safe function, and lockdown cause 1. -/
theorem execBootStageB_none (hc : MetaCopy.choose s.boot.copyA s.boot.copyB = none) :
    execBootStageB s = .next ({ s with sec := s.enrolmentRead, boot := { s.boot with safe := true } }.lockdown 1 metadataUnit) := by
  simp [execBootStageB, State.enrolmentRead, h1, hs, ht, hc]

/-- Stage B by the copy that is chosen: every lease wakes up. -/
theorem execBootStageB_some {c : MetaCopy} (hc : MetaCopy.choose s.boot.copyA s.boot.copyB = some c) :
    ∃ t, execBootStageB s = .next t ∧ t.boot = { s.boot with stage := 2, metaSeq := c.seq } ∧ t.mem = s.mem ∧ t.rows = s.rows ∧
      ∀ an, t.lease an = (s.lease an).wakeUp := by
  refine ⟨{ s with sec := s.enrolmentRead, boot := { s.boot with stage := 2, metaSeq := c.seq }, leases := s.leases.map fun p => (p.1, p.2.wakeUp) }, ?_,
    rfl, rfl, rfl, fun an => Tab.get_map Lease.wakeUp Lease.reset s.leases an⟩
  simp [execBootStageB, State.enrolmentRead, h1, hs, ht, hc]

end

/-! ### Stage C (R27, R28) -/

/-- The arrays of a die join one after the other. -/
def State.joinArrays (s : State) (die : Nat) : State :=
  ((s.leases.map (·.1)).filter fun an => arrayDie an == die).foldl (fun (t : State) an => t.joinArray an s.revocations) s

theorem State.joinArrays_package (s : State) (die : Nat) : (s.joinArrays die).boot = s.boot ∧ (s.joinArrays die).rows = s.rows :=
  foldl_keeps (fun t : State => t.boot = s.boot ∧ t.rows = s.rows) _
    (fun t an ⟨hb, hr⟩ => ⟨(t.joinArray_package an _).1.trans hb, (t.joinArray_package an _).2.trans hr⟩) _ ⟨rfl, rfl⟩

/-- The arrays of other dies stay as they were. -/
theorem State.joinArrays_other (s : State) {die an : Nat} (h : arrayDie an ≠ die) : (s.joinArrays die).lease an = s.lease an := by
  refine List.foldlRecOn (motive := fun t : State => t.lease an = s.lease an) _ _ rfl fun t ht a ha => ?_
  have hne : an ≠ a := by
    rintro rfl
    exact h (by simpa using (List.mem_filter.1 ha).2)
  exact (t.joinArray_other a _ hne).trans ht

/-- An array that is not free is listed, so it joins with its die. -/
theorem State.mem_joining {s : State} {die an : Nat} (hd : arrayDie an = die) (h : (s.lease an).st ≠ .free) :
    an ∈ (s.leases.map (·.1)).filter fun a => arrayDie a == die := by
  refine List.mem_filter.2 ⟨Tab.mem_keys_of_get_ne (d := Lease.reset) fun he => h ?_, by simp [hd]⟩
  rw [State.lease, he]; rfl

/-- An erase of the array is under way, by the party and for the lessee that l names. -/
def Lease.erasing (l l' : Lease) : Prop := l'.st = .evicting ∧ l'.wid = l.wid ∧ l'.party = l.party

/-- An erase on the die begins again at row 0. -/
theorem State.joinArrays_evicting {s : State} {die an : Nat} (hd : arrayDie an = die) (h : (s.lease an).st = .evicting) :
    (s.lease an).erasing ((s.joinArrays die).lease an) ∧ ((s.joinArrays die).lease an).errows = 0 ∧ ((s.joinArrays die).lease an).pulses = 0 := by
  have hjoin : ∀ t : State, (s.lease an).erasing (t.lease an) →
      (s.lease an).erasing ((t.joinArray an s.revocations).lease an) ∧
        ((t.joinArray an s.revocations).lease an).errows = 0 ∧ ((t.joinArray an s.revocations).lease an).pulses = 0 := by
    intro t ht
    rw [t.joinArray_evicting an _ ht.1]
    exact ⟨ht, rfl, rfl⟩
  refine foldl_establishes (P := fun t : State => (s.lease an).erasing (t.lease an)) (a := an)
    (Q := fun t : State => (s.lease an).erasing (t.lease an) ∧ (t.lease an).errows = 0 ∧ (t.lease an).pulses = 0)
    (fun t a ht => ?_) (fun t a ht => ?_) hjoin (State.mem_joining hd (by simp [h])) ⟨h, rfl, rfl⟩
  · by_cases ha : an = a
    · exact ha ▸ (hjoin t ht).1
    · rw [t.joinArray_other a _ ha]; exact ht
  · by_cases ha : an = a
    · exact ha ▸ hjoin t ht.1
    · rw [t.joinArray_other a _ ha]; exact ht

/-- The array has been revoked by its mark, with party 0, and its bay's maintenance weight is 1. -/
def State.markRevoked (an : Nat) (t : State) : Prop :=
  (t.lease an).st = .evicting ∧ (t.lease an).party = 0 ∧ (t.lease an).byEop = true ∧ (t.bay (bayOf an)).maint = 1

/-- A revocation by the mark stands whatever array joins. -/
theorem State.markRevoked_joinArray {an : Nat} {t : State} (h : t.markRevoked an) (a batch : Nat) : (t.joinArray a batch).markRevoked an := by
  obtain ⟨hst, hparty, heop, hmaint⟩ := h
  have hm : ((t.joinArray a batch).bay (bayOf an)).maint = 1 := (t.joinArray_maint a batch _).elim (fun h => h.trans hmaint) id
  by_cases ha : an = a
  · subst ha
    unfold State.markRevoked
    rw [t.joinArray_evicting an _ hst]
    exact ⟨hst, hparty, heop, hm⟩
  · unfold State.markRevoked
    rw [t.joinArray_other a _ ha]
    exact ⟨hst, hparty, heop, hm⟩

/-- A marked lease is revoked when its array joins. -/
theorem State.markRevoked_of_marked {an : Nat} {t : State} (h : (t.lease an).st = .leased) (he : (t.lease an).eop = true) (batch : Nat) :
    (t.joinArray an batch).markRevoked an := by
  rw [t.joinArray_marked an batch h he]
  obtain ⟨hst, hparty, heop⟩ := t.lease_revoke an batch 0 true
  exact ⟨hst, hparty, heop, by unfold State.setMaint; rw [State.bay_setBay]⟩

/-- A lease marked for erasure is revoked when its die joins. -/
theorem State.joinArrays_marked {s : State} {die an : Nat} (hd : arrayDie an = die) (h : (s.lease an).st = .leased) (he : (s.lease an).eop = true) :
    (s.joinArrays die).markRevoked an := by
  have hjoin : ∀ t : State, ((t.lease an).st = .leased ∧ (t.lease an).eop = true) ∨ t.markRevoked an → (t.joinArray an s.revocations).markRevoked an :=
    fun t ht => ht.elim (fun ⟨hl, he⟩ => State.markRevoked_of_marked hl he _) fun ht => State.markRevoked_joinArray ht an _
  refine foldl_establishes (P := fun t : State => ((t.lease an).st = .leased ∧ (t.lease an).eop = true) ∨ t.markRevoked an) (a := an)
    (Q := State.markRevoked an) (fun t a ht => ?_) (fun t a ht => State.markRevoked_joinArray ht a _) hjoin
    (State.mem_joining hd (by simp [h])) (.inl ⟨h, he⟩)
  by_cases ha : an = a
  · exact .inr (ha ▸ hjoin t ht)
  · exact ht.imp (fun hl => by rw [t.joinArray_other a _ ha]; exact hl) fun hr => State.markRevoked_joinArray hr a _

section
variable {s : State} {die : Nat} (h2 : s.boot.stage = 2) (ht : s.boot.tripped = false) (hd : die < 4) (hj : die ∉ s.boot.joined) (hf : die ∉ s.boot.failed)
include h2 ht hd hj hf

theorem execDieJoin_fails : execDieJoin die false s = .next { s with boot := { s.boot with failed := s.boot.failed ++ [die] } } := by
  simp [execDieJoin, h2, ht, Nat.not_le.2 hd, hj, hf]

theorem execDieJoin_passes : execDieJoin die true s = .next ({ s.joinArrays die with
    revocations := (s.joinArrays die).revocations + 1
    boot := { (s.joinArrays die).boot with joined := (s.joinArrays die).boot.joined ++ [die] } }.committed) := by
  simp [execDieJoin, State.joinArrays, h2, ht, Nat.not_le.2 hd, hj, hf]

end

/-! ### The anti-rollback counter (R29) -/

/-- A pair counts where both its fuses are blown. -/
theorem Boot.counter_blow (b : Boot) (cut : Bool) (inc : Bool) :
    ({ b with fuses := b.fuses ++ [(true, !cut)], incDone := inc } : Boot).counter = b.counter + if cut then 0 else 1 := by
  cases cut <;> simp [Boot.counter]

/-- No AWRITE that is cut off changes anything but leases. -/
theorem State.cutAwrites_only (s : State) : s.cutAwrites = { s with leases := s.cutAwrites.leases } := by
  unfold State.cutAwrites
  refine foldl_keeps (fun t : State => t = { s with leases := t.leases }) _ (fun t c ht => ?_) _ rfl
  unfold State.cutAwrite
  split
  · rw [ht]; rfl
  · exact ht

theorem State.loseDies_boot (s : State) : s.loseDies.boot = { s.boot with stage := Nat.min s.boot.stage 1, joined := [], failed := [] } := by
  unfold State.loseDies
  rw [State.cutAwrites_only]

/-- What a power-up keeps of the start: the version, the fuses, and the signed copies. -/
theorem State.powerUp_boot (s : State) :
    s.powerUp.boot = { version := s.boot.version, fuses := s.boot.fuses, copyA := s.boot.copyA, copyB := s.boot.copyB } := by
  exact (congrArg (fun b : Boot => ({ version := b.version, fuses := b.fuses, copyA := b.copyA, copyB := b.copyB } : Boot)) s.loseDies_boot :)

section
variable {s : State} (h0 : s.boot.stage ≠ 0) (hi : s.boot.incDone = false) (hv : s.boot.counter < s.boot.version) (hn : s.boot.fuses.length < 128)
include h0 hi hv hn

theorem execRollbackIncrement_blows (cut : Bool) : execRollbackIncrement cut s =
    .next (if cut then ({ s with boot := { s.boot with fuses := s.boot.fuses ++ [(true, !cut)], incDone := true } } : State).powerUp
      else { s with boot := { s.boot with fuses := s.boot.fuses ++ [(true, !cut)], incDone := true } }) := by
  simp only [execRollbackIncrement, h0, hi, Nat.not_le.2 hv, Nat.not_le.2 hn, Bool.false_eq_true, or_self, if_false]
  split <;> rfl

end

theorem execRollbackIncrement_refused {s : State} (h : s.boot.stage = 0 ∨ s.boot.incDone = true ∨ s.boot.version ≤ s.boot.counter ∨ 128 ≤ s.boot.fuses.length)
    (cut : Bool) : execRollbackIncrement cut s = .next s := by
  unfold execRollbackIncrement
  exact if_pos h

/-- Settles O52: each stage by the equation of its case, and the joining of a die array by array. -/
theorem startStages : Obligations.StartStages := by
  unfold Obligations.StartStages
  refine ⟨fun s version die => ⟨fun h0 ht => ⟨fun hv => ⟨_, execBootStageA_starts h0 ht hv, ?_, fun k hk => State.startFirmware_running _ hk, ?_, ?_⟩,
      execBootStageA_below h0 ht, ⟨_, execBootStageA_unverified h0 ht, ?_, fun h => (State.lockdown_of_free h 1 0).1⟩⟩,
    fun a b => ⟨fun c => MetaCopy.choose_eq_some, MetaCopy.choose_eq_none⟩,
    fun h1 hs ht => ⟨fun hc => ?_, fun c hc => ?_⟩,
    fun h2 ht hd hj hf => ⟨execDieJoin_fails h2 ht hd hj hf, _, execDieJoin_passes h2 ht hd hj hf, ?_, ?_, ?_, ?_, ?_, ?_⟩⟩,
    fun s => ⟨fun h0 hi hv hn => ⟨⟨_, execRollbackIncrement_blows h0 hi hv hn false, rfl, Boot.counter_blow s.boot false true, rfl⟩,
      _, execRollbackIncrement_blows h0 hi hv hn true, ?_⟩, fun cut h => execRollbackIncrement_refused h cut⟩⟩
  · rw [State.startFirmware_only]
  · rw [State.startFirmware_only]
  · rw [State.startFirmware_only]
  · rw [State.lockdown_only]
  · refine ⟨_, execBootStageB_none h1 hs ht hc, ?_, ?_,
      fun h => State.lockdown_of_free (s := { s with sec := s.enrolmentRead, boot := { s.boot with safe := true } })
        (s.enrolmentRead_lockdown.trans h) 1 metadataUnit⟩
    · rw [State.lockdown_only]
    · rw [State.lockdown_only]
  · obtain ⟨t, hx, hboot, hmem, hrows, hl⟩ := execBootStageB_some h1 hs ht hc
    refine ⟨t, hx, hboot, hmem, hrows, fun an => ?_⟩
    rw [hl]
    refine ⟨?_, ?_, Lease.wakeUp_dormant, fun he => by rw [Lease.wakeUp_marked he]⟩
    · rw [Lease.wakeUp_only]
    · rw [Lease.wakeUp_only]
  · exact congrArg (fun b : Boot => b.joined ++ [die]) (s.joinArrays_package die).1
  · exact (congrArg Boot.failed (s.joinArrays_package die).1 :)
  · exact (s.joinArrays_package die).2
  · exact fun an h => s.joinArrays_other h
  · intro an ha hst
    obtain ⟨⟨hst', hwid, hparty⟩, hrows, hpulses⟩ := State.joinArrays_evicting ha hst
    exact ⟨hst', hrows, hpulses, hwid, hparty⟩
  · exact fun an ha hst he => State.joinArrays_marked ha hst he
  · refine ⟨?_, ?_, ?_⟩
    · rw [if_pos rfl, State.powerUp_boot]
      rfl
    · rw [if_pos rfl, State.powerUp_boot]
      exact Boot.counter_blow s.boot true true
    · rw [if_pos rfl, State.powerUp_boot]

end Sys2Proof.Machine
end

section
/-! PROOF of O53: loss of power, the trip, and power control that changes no result (R21 to R24, R29, R225, R290). -/

namespace Sys2Proof.Machine

open Sys2Proof

/-! ### What a loss of power leaves (R23, R24) -/

/-- What t has lost and kept of s: contexts, shadow storage, memory and work in flight are gone; arrays, leases, accounts, weights and fuses stay,
and an erase that had begun counts as restarted. -/
def State.LostPower (s t : State) : Prop :=
  t.mem = [] ∧ (∀ k, isService k = false → (t.stream k).run = .free) ∧ (∀ c < 256, t.core c = Core.reset) ∧ t.images = [] ∧
    t.shadow = [] ∧ t.launches = [] ∧ (∀ b, (t.bay b).ops = [] ∧ (t.bay b).weights = (s.bay b).weights) ∧ t.pages = [] ∧ t.allStores = [] ∧ t.boot.joined = [] ∧ t.rows = s.rows ∧
    t.boot.fuses = s.boot.fuses ∧ ∀ an, (t.lease an).st = (s.lease an).st ∧ (t.lease an).wid = (s.lease an).wid ∧ (t.lease an).party = (s.lease an).party ∧
      (t.lease an).life = (s.lease an).life ∧ (t.lease an).chg = (s.lease an).chg ∧ (t.lease an).rsv = (s.lease an).rsv ∧
      ((s.lease an).st = .evicting → (s.lease an).errows ≠ 0 → (t.lease an).restarted = true)

theorem State.cutAwrites_bays (s : State) : s.cutAwrites.bays = s.bays := (congrArg State.bays s.cutAwrites_only :)
theorem State.cutAwrites_rows (s : State) : s.cutAwrites.rows = s.rows := (congrArg State.rows s.cutAwrites_only :)
theorem State.cutAwrites_sec (s : State) : s.cutAwrites.sec = s.sec := (congrArg State.sec s.cutAwrites_only :)
theorem State.cutAwrites_recseq (s : State) : s.cutAwrites.recseq = s.recseq := (congrArg State.recseq s.cutAwrites_only :)

/-- AWRITEs that are cut off add unverified rows to leases, and change nothing else of them. -/
theorem State.lease_cutAwrites (s : State) (an : Nat) :
    s.cutAwrites.lease an = { s.lease an with unverified := (s.cutAwrites.lease an).unverified } := by
  unfold State.cutAwrites
  refine foldl_keeps (fun t : State => t.lease an = { s.lease an with unverified := (t.lease an).unverified }) _ (fun t c ht => ?_) _ rfl
  unfold State.cutAwrite
  split
  · next a _ _ _ _ =>
    by_cases ha : an = a
    · subst ha
      simp only [State.lease_setLease]
      rw [ht]
    · simp only [State.lease_setLease_ne _ _ ha]
      exact ht
  · exact ht

/-- A cut marks an erase that had begun, and changes nothing else of a lease. -/
theorem Lease.cut_only (l : Lease) : l.cut = { l with restarted := l.cut.restarted } := by
  unfold Lease.cut
  split <;> rfl

theorem Lease.cut_restarted {l : Lease} (h : l.st = .evicting) (hr : l.errows ≠ 0) : l.cut.restarted = true := by
  simp [Lease.cut, h, hr]

theorem State.lease_loseDies (s : State) (an : Nat) : s.loseDies.lease an = (s.cutAwrites.lease an).cut :=
  Tab.get_map Lease.cut Lease.reset s.cutAwrites.leases an

/-- A bay after a loss of power: its operations and its round are gone, its weights stay. -/
def Bay.cut (b : Bay) : Bay := { b with ops := [], visit := none, used := 0, relax := 0, left := [] }

theorem State.bay_loseDies (s : State) (b : Nat) : s.loseDies.bay b = (s.bay b).cut := by
  refine (Tab.get_map Bay.cut Bay.reset s.cutAwrites.bays b).trans ?_
  rw [State.cutAwrites_bays]
  rfl

theorem State.stream_loseDies (s : State) {k : Nat} (h : isService k = false) : s.loseDies.stream k = Stream.reset :=
  (Tab.get_filter isService Stream.reset s.cutAwrites.streams k).trans (if_neg (by simp [h]))

theorem State.core_loseDies (s : State) {c : Nat} (h : c < 256) : s.loseDies.core c = Core.reset :=
  (Tab.get_filter (fun c => decide (256 ≤ c)) Core.reset s.cutAwrites.cores c).trans (if_neg (by simp [h]))

/-- The leases and their accounts stay, with the mark of a begun erase. -/
theorem State.lease_loseDies_keeps (s : State) (an : Nat) : (s.loseDies.lease an).st = (s.lease an).st ∧ (s.loseDies.lease an).wid = (s.lease an).wid ∧
    (s.loseDies.lease an).party = (s.lease an).party ∧ (s.loseDies.lease an).life = (s.lease an).life ∧ (s.loseDies.lease an).chg = (s.lease an).chg ∧
    (s.loseDies.lease an).rsv = (s.lease an).rsv ∧ ((s.lease an).st = .evicting → (s.lease an).errows ≠ 0 → (s.loseDies.lease an).restarted = true) := by
  rw [State.lease_loseDies, State.lease_cutAwrites]
  refine ⟨?_, ?_, ?_, ?_, ?_, ?_, fun hst hr => Lease.cut_restarted hst hr⟩
  all_goals rw [Lease.cut_only]

theorem State.LostPower.loseDies (s : State) : s.LostPower s.loseDies := by
  refine ⟨rfl, fun k hk => ?_, fun c hc => s.core_loseDies hc, rfl, rfl, rfl, fun b => ?_, rfl, rfl, ?_, s.cutAwrites_rows, ?_, s.lease_loseDies_keeps⟩
  · rw [s.stream_loseDies hk]; rfl
  · rw [State.bay_loseDies]
    exact ⟨rfl, rfl⟩
  · rw [State.loseDies_boot]
  · rw [State.loseDies_boot]

/-- The power-up after it adds no loss: the streams and cores it clears were lost already. -/
theorem State.LostPower.powerUp (s : State) : s.LostPower s.powerUp := by
  obtain ⟨-, -, -, -, -, -, hbays, -, -, -, hrows, hfuses, hleases⟩ := State.LostPower.loseDies s
  exact ⟨rfl, fun _ _ => rfl, fun _ _ => rfl, rfl, rfl, rfl, hbays, rfl, rfl, rfl, hrows, hfuses, hleases⟩

/-- The lockdown that a trip enters loses nothing more. -/
theorem State.LostPower.trip {s t : State} (h : s.LostPower t) (cause detail : Nat) (b : Bool) :
    s.LostPower { t.lockdown cause detail with boot := { (t.lockdown cause detail).boot with tripped := b } } := by
  rw [State.lockdown_only]
  exact h

theorem State.powerUp_sec (s : State) : s.powerUp.sec.lockdown = 0 ∧ s.powerUp.sec.enrolled = s.sec.enrolled ∧ s.powerUp.recseq = s.recseq :=
  ⟨rfl, (congrArg Security.enrolled s.cutAwrites_sec :), s.cutAwrites_recseq⟩

/-! ### The trip and the restart (R23) -/

theorem execThermalTrip_trips {s : State} {die temp : Nat} (hd : die < 4) (ht : 920 ≤ temp) (h : s.boot.tripped = false) : execThermalTrip die temp s =
    .next { ((s.sense die temp).loseDies).lockdown 3 die with boot := { (((s.sense die temp).loseDies).lockdown 3 die).boot with tripped := true } } := by
  simp [execThermalTrip, hd, ht, h]

theorem execThermalTrip_senses {s : State} {die temp : Nat} (hd : die < 4) (ht : 920 ≤ temp) (h : s.boot.tripped = true) :
    execThermalTrip die temp s = .next (s.sense die temp) := by
  simp [execThermalTrip, hd, ht, h]

theorem execThermalTrip_cool {temp : Nat} (ht : temp < 920) (die : Nat) (s : State) : execThermalTrip die temp s = .next s := by
  simp [execThermalTrip, Nat.not_le.2 ht]

/-- After a trip no stage of the start is taken. -/
theorem start_waits {s : State} (h : s.boot.tripped = true) (die temp : Nat) :
    execBootStageA temp true s = .next s ∧ execBootStageB s = .next s ∧ execDieJoin die true s = .next s :=
  ⟨if_pos (.inr h), if_pos (.inr (.inr h)), if_pos (.inr (.inl h))⟩

theorem execHostRestart_cool {s : State} (h : s.boot.tripped = true) (hs : ∀ p ∈ s.power.sensor, p.2 < 760) : execHostRestart s = .next s.powerUp :=
  if_pos ⟨h, List.all_eq_true.2 fun p hp => decide_eq_true (hs p hp)⟩

theorem execHostRestart_refused {s : State} (h : s.boot.tripped = false ∨ ∃ p ∈ s.power.sensor, 760 ≤ p.2) : execHostRestart s = .next s := by
  refine if_neg fun ⟨ht, hs⟩ => ?_
  rcases h with h | ⟨p, hp, hot⟩
  · simp [h] at ht
  · exact absurd (of_decide_eq_true (List.all_eq_true.1 hs p hp)) (Nat.not_lt.2 hot)

/-! ### Governor, limiter and throttle (R21 to R23) -/

theorem mem_withDie_self {l : List Nat} {die : Nat} {on : Bool} : die ∈ withDie l die on ↔ on = true := by
  cases on <;> simp [withDie]

theorem mem_withDie_ne {l : List Nat} {die d : Nat} {on : Bool} (h : d ≠ die) : d ∈ withDie l die on ↔ d ∈ l := by
  cases on <;> simp [withDie, h]

section
variable (s : State) {die temp : Nat} (hd : die < 4)
include hd

theorem execGovernorTick_sets {cls limit : Nat} (h0 : s.boot.stage ≠ 0) (hc : cls < 4) (hl : limit ≤ 16) : execGovernorTick die cls limit s =
    .next { s.setCore governorCore { s.core governorCore with requests := (s.core governorCore).requests ++ [.tick] } with
      power := { s.power with limits := Tab.set s.power.limits (8 * die + cls) limit } } :=
  if_pos ⟨h0, hd, hc, hl⟩

theorem execFastLimit_sets (above : Bool) : execFastLimit die above s =
    .next { s with power := { s.power with limited := withDie s.power.limited die above } } :=
  if_pos hd

theorem execThermalThrottle_sets (hlo : 840 ≤ temp) (hhi : temp < 920) : execThermalThrottle die temp s =
    .next ({ s with power := { s.power with throttled := withDie s.power.throttled die true } }.sense die temp) :=
  if_pos ⟨hd, hlo, hhi⟩

theorem execThrottleRelease_sets (ht : temp < 800) : execThrottleRelease die temp s =
    .next ({ s with power := { s.power with throttled := withDie s.power.throttled die false } }.sense die temp) :=
  if_pos ⟨hd, ht⟩

end

/-- Settles O53: what a loss of power leaves by `State.LostPower.loseDies`, the rest by the equation of each case. -/
theorem powerIsLost : Obligations.PowerIsLost := by
  unfold Obligations.PowerIsLost
  refine ⟨fun s die temp => ⟨?_, fun hd ht h => ?_, fun h i hi => ?_, fun ht => execThermalTrip_cool ht die s,
      fun hd ht h => ⟨_, execThermalTrip_senses hd ht h, Tab.get_set_self .., rfl⟩,
      fun h hs => ⟨_, execHostRestart_cool h hs, rfl, rfl, rfl⟩, execHostRestart_refused⟩,
    fun s die cls limit temp above hd => ⟨fun h0 hc hl => ⟨_, execGovernorTick_sets s hd h0 hc hl, Tab.get_set_self .., rfl, State.core_setCore .., fun c hne => State.core_setCore_ne s _ hne⟩,
      ⟨_, execFastLimit_sets s hd above, mem_withDie_self, fun d hne => mem_withDie_ne hne, rfl⟩,
      fun hlo hhi => ⟨_, execThermalThrottle_sets s hd hlo hhi, mem_withDie_self.2 rfl, Tab.get_set_self .., rfl⟩,
      fun ht => ⟨_, execThrottleRelease_sets s hd ht, fun hm => Bool.false_ne_true (mem_withDie_self.1 hm), Tab.get_set_self .., rfl⟩⟩⟩
  · obtain ⟨hlock, henrolled, hseq⟩ := s.powerUp_sec
    exact ⟨_, rfl, State.LostPower.powerUp s, rfl, hlock, henrolled, hseq⟩
  · refine ⟨_, execThermalTrip_trips hd ht h, (State.LostPower.loseDies (s.sense die temp)).trip 3 die true, rfl, ?_, ?_⟩
    · rw [State.lockdown_only, State.loseDies_boot]
      rfl
    · intro hfree
      refine State.lockdown_of_free (s := (s.sense die temp).loseDies) ?_ 3 die
      exact (congrArg Security.lockdown (s.sense die temp).cutAwrites_sec :).trans hfree
  · obtain ⟨hA, hB, hC⟩ := start_waits h die temp
    simp only [List.mem_cons, List.not_mem_nil, or_false] at hi
    rcases hi with rfl | rfl | rfl
    · exact hA
    · exact hB
    · exact hC

end Sys2Proof.Machine
end

section
/-! PROOF of O60: the machine at reset (R25, R82, R243). -/

namespace Sys2Proof.Machine

open Sys2Proof

/-! Every table of the reset state is empty, so each read of it gives the default. -/

theorem State.stream_reset (k : Nat) : State.reset.stream k = Stream.reset := rfl
theorem State.core_reset (c : Nat) : State.reset.core c = Core.reset := rfl
theorem State.lease_reset (an : Nat) : State.reset.lease an = Lease.reset := rfl

/-- Settles O60: a stream, a core and a lease at reset are the defaults, whose tables are empty in their turn. -/
theorem resetState : Obligations.ResetState := by
  unfold Obligations.ResetState
  obtain ⟨hmem, hrows⟩ := State.canon_reset
  refine ⟨rfl, hmem, hrows, fun a => ⟨rfl, rfl⟩, fun k => ?_, fun c => ?_, rfl, rfl, rfl, rfl, fun die => rfl, fun an => ?_, rfl, rfl⟩
  · rw [State.stream_reset]
    exact ⟨rfl, rfl, rfl, rfl, rfl, fun r => ⟨rfl, rfl, rfl, rfl, rfl, rfl⟩, fun e r => rfl, fun l f => ⟨rfl, rfl⟩,
      rfl, rfl, rfl, rfl, rfl, rfl, rfl, rfl, rfl, rfl, rfl, rfl, rfl, rfl, rfl, rfl, fun e f => rfl, fun e => rfl, rfl, rfl, rfl⟩
  · rw [State.core_reset]
    exact ⟨fun a => ⟨rfl, rfl, rfl⟩, fun r => rfl, rfl, rfl, rfl, rfl, rfl, rfl, rfl, rfl, rfl⟩
  · rw [State.lease_reset]; rfl

end Sys2Proof.Machine
end

section
/-! PROOF of O54: a step runs the decoded instruction (R57, R62, R63, R70, R110, R111). -/

namespace Sys2Proof.Machine

open Sys2Proof

/-! ### From an engine's turn to the issue of its lane -/

/-- What a step makes of an engine's turn, once it is known what is left to do (R57). -/
def Prep.result : Prep → Result
  | .done t => .next t.pass
  | .run i u => match exec i u with
    | .next t => .next t.settleLane.pass
    | .fault r => .fault r
    | .refused r => .refused r

theorem Prep.result_run {i : Instr} {u t : State} (h : exec i u = .next t) : (Prep.run i u).result = .next t.settleLane.pass := by
  simp only [Prep.result, h]

/-- Only a suspended stream has an engine that goes on before a bad line (R109). -/
theorem Stream.behindBadLine_of_running {st : Stream} (h : st.run = .running) (e : Engine) : st.behindBadLine e = false := by
  unfold Stream.behindBadLine
  split
  · simp [h]
  · rfl

theorem State.settleBehind_of_running {s : State} {sid : Nat} (h : (s.stream sid).run = .running) (t : State) (e : Engine) : s.settleBehind t sid e = t := by
  unfold State.settleBehind
  rw [Stream.behindBadLine_of_running h]
  rfl

theorem State.running_of_mayIssue {s : State} {sid : Nat} (h : s.mayIssue sid = true) : (s.stream sid).run = .running := by
  simp only [State.mayIssue, Bool.and_eq_true, beq_iff_eq] at h
  exact h.1

/-- A step whose turn is an engine's, of a stream that may issue, does what the engine's turn has left to do. -/
theorem step_of_lane {s s0 : State} {sid : Nat} {e : Engine} (ht : s.takeTurn = (.lane sid e, s0)) (hm : s0.mayIssue sid = true) :
    step s = (s0.prepare sid e).result := by
  have hb := fun t => State.settleBehind_of_running (State.running_of_mayIssue hm) t e
  rw [step_eq, ht]
  simp only [State.takes, State.engineTurn]
  cases s0.prepare sid e with
  | done t => simp only [hb, Prep.result]
  | run i u => cases hx : exec i u <;> simp only [hx, hb, Prep.result]

/-- An engine with nothing to push, no command in its way and a lane to issue, perhaps the first of a line it begins to visit, issues it (R57). -/
theorem State.prepare_issues {s s1 : State} {sid : Nat} {e : Engine} (hm : s.mayIssue sid = true) (hend : ((s.stream sid).eng' e).ended = false)
    (hp : ((s.stream sid).eng' e).push = []) (hst : stuck e (s.stream sid).cmds = false) (hat : ((s.stream sid).eng' e).atEnd = false)
    (hw : e = .s → (s.stream sid).wait = none) (h1 : s1 = if ((s.stream sid).eng' e).lane = 0 then s.beginVisit sid e else s)
    (hr : (s1.stream sid).run = .running) (h0 : 0 < ((s1.stream sid).eng' e).lane) (h8 : ((s1.stream sid).eng' e).lane < 8)
    (hp1 : ((s1.stream sid).eng' e).push = []) : s.prepare sid e = s1.beginIssue sid e := by
  have hwait : (e == .s && (s.stream sid).wait.isSome) = false := by
    by_cases he : e = .s
    · simp [hw he]
    · simp [he]
  unfold State.prepare
  by_cases hl : ((s.stream sid).eng' e).lane = 0
  · rw [if_pos hl] at h1
    subst h1
    simp [hm, hend, hp, hst, hat, hwait, hl, hr, h0, h8, hp1]
  · rw [if_neg hl] at h1
    subst h1
    simp [hm, hend, hp, hst, hat, hwait, hl, h8]

/-! ### The issue of a lane (R70, R96, R110, R111) -/

/-- The word an engine issues: that of its lane, as its REP has stepped it (R70). -/
def EngState.issued (es : EngState) (e : Engine) (l : Line) : Nat :=
  match es.rep, decodeLane e (Line.word l es.lane) (Line.xOf l es.lane) with
  | some r, .ok k => stepWord (fieldUses k.instr) r (Line.word l es.lane)
  | _, _ => Line.word l es.lane

/-- The state in which an engine's lane issues, with the token it pushes. -/
def State.issuing (s : State) (sid : Nat) (e : Engine) (l : Line) (ts : Option Engine) : State :=
  let es := (s.stream sid).eng' e
  { s with cur := { sid := sid, eng := e, line := es.line, lane := es.lane, base := es.issued e l, x := (Line.xOf l es.lane).getD 0, ts := ts }, out := .retired }

/-- The stage predicate that a lane's gate names is clear; under a REP, as it was at the first repetition (R68, R70). -/
def EngState.clears (es : EngState) (g : Nat) : Bool :=
  match es.rep with | some r => if r.j = 0 then !es.g.getLsbD (g - 1) else r.off | none => !es.g.getLsbD (g - 1)

/-- The gate of a lane keeps it from acting. -/
def EngState.gatedOff (es : EngState) (g : Nat) : Bool := g != 0 && es.clears g

theorem EngState.gatedOff_iff (es : EngState) (g : Nat) : es.gatedOff g = true ↔ g ≠ 0 ∧ es.clears g = true := by
  simp [EngState.gatedOff]

/-- A lane pushes its token where its last repetition issues (R70). -/
def EngState.lastOf (es : EngState) : Bool := match es.rep with | some r => decide (r.n ≤ r.j + 1) | none => true

/-- A LOOP that its gate keeps from acting leaves its body out (R343). -/
def State.leftOut (s : State) (sid : Nat) (e : Engine) : Instr → State
  | .loop _ _ _ body _ _ _ => s.setStream sid ((s.stream sid).setEng e (((s.stream sid).eng' e).leaveOut (((s.stream sid).eng' e).line + 32 * (body.val + 1))))
  | _ => s

/-- The TW pop of a lane that is to run in state u, once under a REP (R62, R70). -/
def State.popThenRun (s u : State) (sid : Nat) (e : Engine) (tw : Option Engine) (i : Instr) : Prep :=
  let es := (s.stream sid).eng' e
  match (if es.twDone then none else tw) with
  | none => .run i u
  | some src => match (s.stream sid).pop src e with
    | none => .done (u.setStream sid ((s.stream sid).setEng e { es with hold := .token src }))
    | some (v, st) => .run i (u.setStream sid (st.setEng e { es with twDone := true, twVal := v, hold := .none }))

section
variable {s : State} {sid : Nat} {e : Engine} {l : Line} (hl : s.lineAt sid ((s.stream sid).eng' e).line = some l)
include hl

/-- A word that does not decode takes ILLOP (R110). -/
theorem State.beginIssue_undecoded {r : DecodeError}
    (hd : decodeLane e (((s.stream sid).eng' e).issued e l) (Line.xOf l ((s.stream sid).eng' e).lane) = .error r) :
    s.beginIssue sid e = .done (s.issuing sid e l none).illop := by
  unfold EngState.issued at hd
  unfold State.beginIssue
  simp only [hl, Option.getD_some]
  split
  · rfl
  · next ln h => cases hd.symm.trans h

variable {ln : Lane} (hd : decodeLane e (((s.stream sid).eng' e).issued e l) (Line.xOf l ((s.stream sid).eng' e).lane) = .ok ln)
include hd

/-- A word that decodes: ILLOP where its encoding or its use is, an issue slot where its gate keeps it from acting, else its token and its meaning. -/
theorem State.beginIssue_decoded : s.beginIssue sid e =
    (let es := (s.stream sid).eng' e
    let t := s.issuing sid e l none
    if es.badGate ln.g.val || badRep ln.instr (es.issued e l) || t.illegal sid e ln.instr then .done t.illop
    else if es.gatedOff ln.g.val then .done ((t.leftOut sid e ln.instr).skipGated sid e)
    else if t.misused ln.instr then .done t.illop
    else
      let u := s.issuing sid e l (if es.lastOf then ln.ts else none)
      match u.enterWorld sid e with
      | none => .done (u.setStream sid ((s.stream sid).setEng e { es with hold := .order }))
      | some u => s.popThenRun u sid e ln.tw ln.instr) := by
  unfold EngState.issued at hd
  unfold State.beginIssue
  simp only [hl, Option.getD_some]
  split
  · next r h => cases hd.symm.trans h
  · next k h =>
    cases hd.symm.trans h
    refine if_congr Iff.rfl rfl (if_congr Iff.rfl ?_ ?_)
    · cases ln.instr <;> rfl
    · refine if_congr Iff.rfl rfl ?_
      rfl

/-- The encoding of a lane is ILLOP where it stands (R96, R110, R111). -/
def State.badLane (s : State) (sid : Nat) (e : Engine) (l : Line) (ln : Lane) : Prop :=
  ((s.stream sid).eng' e).badGate ln.g.val = true ∨ badRep ln.instr (((s.stream sid).eng' e).issued e l) = true ∨ (s.issuing sid e l none).illegal sid e ln.instr = true

theorem State.beginIssue_bad (hb : s.badLane sid e l ln) : s.beginIssue sid e = .done (s.issuing sid e l none).illop := by
  rw [State.beginIssue_decoded hl hd]
  exact if_pos (by simpa [State.badLane, or_assoc] using hb)

section
variable (hb : ¬ s.badLane sid e l ln)
include hb

theorem State.beginIssue_gated (hg : ((s.stream sid).eng' e).gatedOff ln.g.val = true) :
    s.beginIssue sid e = .done (((s.issuing sid e l none).leftOut sid e ln.instr).skipGated sid e) := by
  rw [State.beginIssue_decoded hl hd]
  exact (if_neg (by simpa [State.badLane, or_assoc] using hb)).trans (if_pos hg)

variable (hg : ((s.stream sid).eng' e).gatedOff ln.g.val = false)
include hg

theorem State.beginIssue_misused (hu : (s.issuing sid e l none).misused ln.instr = true) :
    s.beginIssue sid e = .done (s.issuing sid e l none).illop := by
  rw [State.beginIssue_decoded hl hd]
  exact (if_neg (by simpa [State.badLane, or_assoc] using hb)).trans ((if_neg (by simp [hg])).trans (if_pos hu))

theorem State.beginIssue_acts (hu : (s.issuing sid e l none).misused ln.instr = false) {u : State}
    (hw : (s.issuing sid e l (if ((s.stream sid).eng' e).lastOf then ln.ts else none)).enterWorld sid e = some u) :
    s.beginIssue sid e = s.popThenRun u sid e ln.tw ln.instr := by
  rw [State.beginIssue_decoded hl hd]
  refine (if_neg (by simpa [State.badLane, or_assoc] using hb)).trans ((if_neg (by simp [hg])).trans ((if_neg (by simp [hu])).trans ?_))
  simp only [hw]

end
end

section
variable {s u : State} {sid : Nat} {e : Engine} {tw : Option Engine} {i : Instr}

/-- A lane without TW, or one whose token is popped already, runs at once. -/
theorem State.popThenRun_free (h : tw = none ∨ ((s.stream sid).eng' e).twDone = true) : s.popThenRun u sid e tw i = .run i u := by
  have hn : (if ((s.stream sid).eng' e).twDone then none else tw) = none := by
    rcases h with h | h <;> simp [h]
  simp only [State.popThenRun, hn]

variable {src : Engine} (h : tw = some src) (hn : ((s.stream sid).eng' e).twDone = false)
include h hn

theorem State.popThenRun_popped {v : Bool} {st : Stream} (hv : (s.stream sid).pop src e = some (v, st)) :
    s.popThenRun u sid e tw i = .run i (u.setStream sid (st.setEng e { (s.stream sid).eng' e with twDone := true, twVal := v, hold := .none })) := by
  simp only [State.popThenRun, hn, h, Bool.false_eq_true, if_false, hv]

theorem State.popThenRun_held (hv : (s.stream sid).pop src e = none) :
    s.popThenRun u sid e tw i = .done (u.setStream sid ((s.stream sid).setEng e { (s.stream sid).eng' e with hold := .token src })) := by
  simp only [State.popThenRun, hn, h, Bool.false_eq_true, if_false, hv]

end

/-! ### What an ILLOP lane and a gated lane leave (R110, R111, R211) -/

/-- Nothing of an instruction has happened: memory, the cores, the other streams, and of the stream its tokens, its registers and its commands
are as before. -/
def State.SameWork (s : State) (sid : Nat) (t : State) : Prop :=
  t.mem = s.mem ∧ t.cores = s.cores ∧ (t.stream sid).tokens = (s.stream sid).tokens ∧ (t.stream sid).s = (s.stream sid).s ∧
  (t.stream sid).p = (s.stream sid).p ∧ (t.stream sid).v = (s.stream sid).v ∧ (t.stream sid).e = (s.stream sid).e ∧ (t.stream sid).m = (s.stream sid).m ∧
  (t.stream sid).cmds = (s.stream sid).cmds ∧ ∀ k, k ≠ sid → t.stream k = s.stream k

/-- A stream as a fault of it leaves it (R213, R217). -/
def Stream.suspend (st : Stream) (r : FaultRec) : Stream :=
  { st with run := .suspended, fault := some r, faultEng := some r.eng, fcode := BitVec.ofNat 64 r.code, faddr := r.addr
            fline := BitVec.ofNat 64 r.line, feng := BitVec.ofNat 64 (r.eng.code + 8 * r.lane) }

/-- A fault of a compute stream that is not suspended suspends it, and its record waits for the world's fault queue. -/
theorem State.raise_compute {s : State} {sid : Nat} (hs : isService sid = false) (hr : (s.stream sid).run ≠ .suspended) (e : Engine) (line lane : Nat)
    (prog : Bool) (f : FaultInfo) : s.raise sid e line lane prog f =
      (s.setStream sid ((s.stream sid).suspend (s.faultRec sid e line lane prog f))).setWorld (s.widOf sid)
        { s.world (s.widOf sid) with faults := (s.world (s.widOf sid)).faults ++ [s.faultRec sid e line lane prog f] } := by
  unfold State.raise
  rw [hs, if_neg Bool.false_ne_true, if_neg hr]
  rfl

/-- A lane that has popped no token has none to give back. -/
theorem State.returnToken_of_none {s : State} (h : s.myEng.twDone = false) : s.returnToken = s := by
  unfold State.returnToken
  simp only [h]

/-- A lane of a running compute stream that has popped no token and raises a fault leaves nothing but the stream's suspension and its record. -/
theorem State.fault_compute {s : State} (hs : isService s.cur.sid = false) (hr : s.me.run ≠ .suspended) (htw : s.myEng.twDone = false) (f : FaultInfo) :
    let r := s.faultRec s.cur.sid s.cur.eng s.cur.line s.cur.lane (progressAt s.cur.eng s.cur.base s.cur.x) f
    s.fault f = ((s.setMe (s.me.suspend r)).setWorld (s.widOf s.cur.sid)
      { s.world (s.widOf s.cur.sid) with faults := (s.world (s.widOf s.cur.sid)).faults ++ [r] }).finish .faulted := by
  unfold State.fault
  rw [State.returnToken_of_none htw, State.raise_compute hs hr]
  rfl

/-- ILLOP at the lane an engine of a running compute stream issues, with no token taken, suspends the stream there and does nothing else. -/
theorem State.illop_issuing {s : State} {sid : Nat} {e : Engine} (l : Line) (hs : isService sid = false) (hr : (s.stream sid).run = .running)
    (htw : ((s.stream sid).eng' e).twDone = false) :
    let t := (s.issuing sid e l none).illop.pass
    s.SameWork sid t ∧ (t.stream sid).run = .suspended ∧ (t.stream sid).fcode = 2 ∧
    (t.stream sid).fline = BitVec.ofNat 64 ((s.stream sid).eng' e).line ∧ (t.stream sid).feng = BitVec.ofNat 64 (e.code + 8 * ((s.stream sid).eng' e).lane) := by
  have hrun : (s.issuing sid e l none).me.run ≠ .suspended := by
    change (s.stream sid).run ≠ _
    rw [hr]
    decide
  have hf := State.fault_compute (s := s.issuing sid e l none) hs hrun htw
  intro t
  obtain ⟨r, wid, w, ht, hcode, hline, hlane, heng⟩ : ∃ r wid w,
      t = (((State.setStream (s.issuing sid e l none) sid ((s.stream sid).suspend r)).setWorld wid w).finish .faulted).pass ∧
      r.code = 2 ∧ r.line = ((s.stream sid).eng' e).line ∧ r.lane = ((s.stream sid).eng' e).lane ∧ r.eng = e :=
    ⟨_, _, _, congrArg State.pass (hf _), rfl, rfl, rfl, rfl⟩
  have hme : t.stream sid = (s.stream sid).suspend r := by
    rw [ht]
    exact State.stream_setStream _ _ _
  have hne : ∀ k, k ≠ sid → t.stream k = s.stream k := fun k hk => by
    rw [ht]
    exact State.stream_setStream_ne _ _ hk
  have hmem : t.mem = s.mem ∧ t.cores = s.cores := by
    rw [ht]
    exact ⟨rfl, rfl⟩
  clear_value t
  simp only [State.SameWork, hme, Stream.suspend, hcode, hline, hlane, heng, hmem, true_and, and_true]
  exact ⟨hne, rfl⟩

/-- A line that a stream reads depends on its fetch buffer, its world, the pages and memory alone. -/
theorem State.lineAt_congr {s t : State} {sid : Nat} (hf : (t.stream sid).fetch = (s.stream sid).fetch) (hi : (t.stream sid).ident = (s.stream sid).ident)
    (hp : t.pages = s.pages) (hm : t.mem = s.mem) (dva : Nat) : t.lineAt sid dva = s.lineAt sid dva := by
  unfold State.lineAt State.textAt State.dpa State.page State.widOf
  rw [hf, hi, hp, hm]

/-- Of the state only what a stream has of engines, F's exposures and the time of progress has changed. -/
def State.OnlySlot (s : State) (sid : Nat) (t : State) : Prop :=
  t = { s with streams := t.streams } ∧
  t.stream sid = { s.stream sid with eng := (t.stream sid).eng, fres := (t.stream sid).fres, progAt := (t.stream sid).progAt } ∧ ∀ k, k ≠ sid → t.stream k = s.stream k

theorem State.OnlySlot.refl (s : State) (sid : Nat) : s.OnlySlot sid s := ⟨rfl, rfl, fun _ _ => rfl⟩

/-- A further update of the stream's engines, exposures or time of progress. -/
theorem State.OnlySlot.setStream {s t : State} {sid : Nat} (h : s.OnlySlot sid t) {st : Stream}
    (hst : st = { t.stream sid with eng := st.eng, fres := st.fres, progAt := st.progAt }) : s.OnlySlot sid (t.setStream sid st) := by
  obtain ⟨hs, hme, hne⟩ := h
  refine ⟨?_, ?_, fun k hk => (State.stream_setStream_ne _ _ hk).trans (hne k hk)⟩
  · rw [hs]
    rfl
  · rw [State.stream_setStream, hst, hme]

theorem State.OnlySlot.trans {s t u : State} {sid : Nat} (h : s.OnlySlot sid t) (g : t.OnlySlot sid u) : s.OnlySlot sid u := by
  obtain ⟨hs, hme, hne⟩ := h
  obtain ⟨gs, gme, gne⟩ := g
  refine ⟨?_, ?_, fun k hk => (gne k hk).trans (hne k hk)⟩
  · rw [gs, hs]
  · rw [gme, hme]

theorem State.OnlySlot.progress {s t : State} {sid : Nat} (h : s.OnlySlot sid t) : s.OnlySlot sid (t.progress sid) := h.setStream rfl
theorem State.OnlySlot.advance {s t : State} {sid : Nat} (h : s.OnlySlot sid t) (e : Engine) : s.OnlySlot sid (t.advance sid e) := h.setStream rfl

theorem State.OnlySlot.sameWork {s t : State} {sid : Nat} (h : s.OnlySlot sid t) : s.SameWork sid t := by
  obtain ⟨hs, hme, hne⟩ := h
  rw [State.SameWork, hme, hs]
  exact ⟨rfl, rfl, rfl, rfl, rfl, rfl, rfl, rfl, rfl, hs ▸ hne⟩

theorem State.OnlySlot.lineAt {s t : State} {sid : Nat} (h : s.OnlySlot sid t) (dva : Nat) : t.lineAt sid dva = s.lineAt sid dva := by
  obtain ⟨hs, hme, hne⟩ := h
  exact State.lineAt_congr (congrArg Stream.fetch hme :) (congrArg Stream.ident hme :) (congrArg State.pages hs :) (congrArg State.mem hs :) dva

/-- The slot of F that a gated lane takes (R75). -/
def State.slotOf (s : State) (sid : Nat) (e : Engine) : State := if e == .f then s.setStream sid (s.stream sid).fSlot else s

theorem State.slotOf_spec (s : State) (sid : Nat) (e : Engine) : s.OnlySlot sid (s.slotOf sid e) ∧ ((s.slotOf sid e).stream sid).eng' e = (s.stream sid).eng' e := by
  unfold State.slotOf
  split
  · exact ⟨(State.OnlySlot.refl s sid).setStream rfl, by rw [State.stream_setStream]; rfl⟩
  · exact ⟨.refl s sid, rfl⟩

theorem State.skipGated_none {s : State} {sid : Nat} {e : Engine} (h : ((s.stream sid).eng' e).rep = none) :
    s.skipGated sid e = ((s.slotOf sid e).advance sid e).progress sid := by
  have hr : (((s.slotOf sid e).stream sid).eng' e).rep = none := by rw [(s.slotOf_spec sid e).2, h]
  unfold State.slotOf at hr ⊢
  simp only [State.skipGated, hr]

theorem State.skipGated_some {s : State} {sid : Nat} {e : Engine} {r : RepState} (h : ((s.stream sid).eng' e).rep = some r) :
    s.skipGated sid e =
      if r.j + 1 < r.n then ((s.slotOf sid e).setStream sid (((s.slotOf sid e).stream sid).setEng e
        { (s.stream sid).eng' e with rep := some { r with j := r.j + 1, off := true }, hold := .none })).progress sid
      else ((s.slotOf sid e).advance sid e).progress sid := by
  have he := (s.slotOf_spec sid e).2
  unfold State.slotOf at he ⊢
  simp only [State.skipGated, he, h]

/-- A lane that its gate keeps from acting takes an issue slot and changes nothing but its stream's engines, F's exposures and the time of
progress (R68). -/
theorem State.skipGated_only (s : State) (sid : Nat) (e : Engine) : s.OnlySlot sid (s.skipGated sid e) := by
  have h := (s.slotOf_spec sid e).1
  cases hr : ((s.stream sid).eng' e).rep with
  | none =>
    rw [State.skipGated_none hr]
    exact (h.advance e).progress
  | some r =>
    rw [State.skipGated_some hr]
    split
    · exact (h.setStream rfl).progress
    · exact (h.advance e).progress

/-- The engine's state after it has gone to the next lane of its line. -/
theorem State.advance_eng {s : State} {sid : Nat} {e : Engine} {l : Line} (hl : s.lineAt sid ((s.stream sid).eng' e).line = some l) :
    ((s.advance sid e).stream sid).eng' e =
      { (s.stream sid).eng' e with lane := nextLane l e ((s.stream sid).eng' e).lane, rep := none, twDone := false, hold := .none } := by
  simp only [State.advance, State.stream_setStream, Stream.eng_setEng, hl, Option.getD_some]

/-- Without a REP the engine then stands at its next lane of the line. -/
theorem State.skipGated_lane {s : State} {sid : Nat} {e : Engine} {l : Line} (hl : s.lineAt sid ((s.stream sid).eng' e).line = some l)
    (hr : ((s.stream sid).eng' e).rep = none) : (((s.skipGated sid e).stream sid).eng' e).lane = nextLane l e ((s.stream sid).eng' e).lane := by
  obtain ⟨h, he⟩ := s.slotOf_spec sid e
  have hl' : (s.slotOf sid e).lineAt sid (((s.slotOf sid e).stream sid).eng' e).line = some l := by rw [he, h.lineAt, hl]
  rw [State.skipGated_none hr, State.progress, State.stream_setStream]
  change (((State.advance _ _ _).stream sid).eng' e).lane = _
  rw [State.advance_eng hl', he]

/-- A LOOP's body left out is an update of its engine, which stays at the LOOP's lane. -/
theorem State.leftOut_spec (s : State) (sid : Nat) (e : Engine) (i : Instr) : s.OnlySlot sid (s.leftOut sid e i) ∧
    (((s.leftOut sid e i).stream sid).eng' e) = { (s.stream sid).eng' e with skip := (((s.leftOut sid e i).stream sid).eng' e).skip } := by
  unfold State.leftOut
  split
  · exact ⟨(State.OnlySlot.refl s sid).setStream rfl, by simp only [State.stream_setStream, Stream.eng_setEng]; rfl⟩
  · exact ⟨.refl s sid, rfl⟩

/-- Settles O54: the lane an engine of the turn issues is the one its PC names, and its issue is one of the cases of `State.beginIssue_decoded`. -/
theorem stepRunsDecoded : Obligations.StepRunsDecoded := by
  unfold Obligations.StepRunsDecoded
  intro s s0 s1 sid e l ht hm hend hp hst hat hw h1 hr es h0 h8 hp1 hl x w at' same illop
  have hstep : step s = (s1.beginIssue sid e).result := by
    rw [step_of_lane ht hm, State.prepare_issues hm hend hp hst hat hw h1 hr h0 h8 hp1]
  have hillop : s1.beginIssue sid e = .done (s1.issuing sid e l none).illop → illop := fun h =>
    ⟨by rw [hstep, h]; rfl, fun hs htw => ⟨_, by rw [hstep, h]; rfl, State.illop_issuing l hs hr htw⟩⟩
  refine ⟨fun r hd => hillop (State.beginIssue_undecoded hl hd), fun ln hd => ?_⟩
  refine ⟨fun hb => hillop (State.beginIssue_bad hl hd hb), fun hb ho => ?_, fun hb ho hu => ?_, fun hb ho hu s2 h2 => ?_⟩
  · obtain ⟨hleft, heng⟩ := (s1.issuing sid e l none).leftOut_spec sid e ln.instr
    have hskip := ((s1.issuing sid e l none).leftOut sid e ln.instr).skipGated_only sid e
    refine ⟨State.pass _, by rw [hstep, State.beginIssue_gated hl hd hb ((es.gatedOff_iff _).2 ho)]; rfl, (hleft.trans hskip).sameWork, fun hrep => ?_⟩
    refine (State.skipGated_lane (l := l) ?_ ?_).trans ?_
    · rw [heng, hleft.lineAt]
      exact hl
    · rw [heng]
      exact hrep
    · rw [heng]
      rfl
  · exact hillop (State.beginIssue_misused hl hd hb (Bool.eq_false_iff.2 (mt (es.gatedOff_iff _).1 ho)) hu)
  · rw [hstep, State.beginIssue_acts hl hd hb (Bool.eq_false_iff.2 (mt (es.gatedOff_iff _).1 ho)) hu h2]
    refine ⟨fun hp t hx => ?_, fun src v st hp hn hv t hx => ?_, fun src hp hn hv => ?_⟩
    · rw [State.popThenRun_free hp, Prep.result_run hx]
    · rw [State.popThenRun_popped hp hn hv, Prep.result_run hx]
    · rw [State.popThenRun_held hp hn hv]
      rfl

end Sys2Proof.Machine
end


section
/-! PROOF of O8: LOOP and REP open (R66, R67, R70, R112, R342, R371). -/

namespace Sys2Proof.Machine

open Sys2Proof

/-! ### Engines of the issuing stream after an update of one -/

theorem State.eng_setMyEng (s : State) (x : EngState) : (s.setMyEng x).me.eng' s.cur.eng = x := by
  rw [State.setMyEng, State.me_setMe, Stream.eng_setEng]

theorem State.eng_setMyEng_ne (s : State) (x : EngState) {y : Engine} (h : y ≠ s.cur.eng) : (s.setMyEng x).me.eng' y = s.me.eng' y := by
  rw [State.setMyEng, State.me_setMe, Stream.eng_setEng_ne _ _ h]

theorem State.onlyMe_setMe (s : State) (st : Stream) : OnlyMe s (s.setMe st) := ⟨rfl, fun _ hk => State.stream_setMe_ne s st hk⟩

/-- Going to the next lane leaves an engine's loops, what it leaves out, and the other engines. -/
theorem State.advance_keeps (s : State) (e : Engine) : ((s.advance s.cur.sid e).me.eng' e).skip = (s.me.eng' e).skip ∧
    ((s.advance s.cur.sid e).me.eng' e).loops = (s.me.eng' e).loops ∧ ∀ x, x ≠ e → (s.advance s.cur.sid e).me.eng' x = s.me.eng' x := by
  have h : (s.advance s.cur.sid e).me = s.me.setEng e _ := State.stream_setStream _ _ _
  rw [h]
  simp only [Stream.eng_setEng]
  exact ⟨rfl, rfl, fun x hx => Stream.eng_setEng_ne _ _ hx⟩

/-! ### LOOP (R66, R67, R342) -/

theorem EngState.staged_isSome (es : EngState) : es.staged.isSome = true ↔ ∃ f ∈ es.loops, f.stages ≠ 0 := by
  simp [EngState.staged]

section
variable {s : State} {e : Engine} {lvl : Fin 4} {cnt : Fin 32} {body : Fin 1024} {stages : Fin 9} {rot tok : Bool}

/-- What keeps a LOOP from opening (R67, Table 3.1). -/
theorem State.badLoop_iff (he : e = s.cur.eng) (hl : s.myEng.line = s.cur.line) :
    s.badLoop s.cur.sid e lvl.val body.val stages.val rot = true ↔
    (∃ f ∈ s.myEng.loops, f.lvl = lvl.val ∨ (stages.val ≠ 0 ∧ f.stages ≠ 0) ∨ (rot = true ∧ f.rot = true) ∨ f.last < s.cur.line + 32 * (body.val + 1)) ∨
    ∃ i ≤ body.val, s.isBe s.cur.sid (s.cur.line + 32 * i) = true := by
  have hes : (s.stream s.cur.sid).eng' e = s.myEng := by rw [he]; rfl
  simp only [State.badLoop, hes, hl, Bool.or_eq_true, Bool.and_eq_true, List.any_eq_true, EngState.staged_isSome, beq_iff_eq, bne_iff_ne, ne_eq,
    decide_eq_true_eq, List.mem_range, Nat.lt_succ_iff]
  constructor
  · rintro ((((⟨f, hf, h⟩ | ⟨hs, f, hf, h⟩) | ⟨hr, f, hf, h⟩) | h) | ⟨f, hf, h⟩)
    · exact .inl ⟨f, hf, .inl h⟩
    · exact .inl ⟨f, hf, .inr (.inl ⟨hs, h⟩)⟩
    · exact .inl ⟨f, hf, .inr (.inr (.inl ⟨hr, h⟩))⟩
    · exact .inr h
    · exact .inl ⟨f, hf, .inr (.inr (.inr h))⟩
  · rintro (⟨f, hf, h | ⟨hs, h⟩ | ⟨hr, h⟩ | h⟩ | h)
    · exact .inl (.inl (.inl (.inl ⟨f, hf, h⟩)))
    · exact .inl (.inl (.inl (.inr ⟨hs, f, hf, h⟩)))
    · exact .inl (.inl (.inr ⟨hr, f, hf, h⟩))
    · exact .inr ⟨f, hf, h⟩
    · exact .inl (.inr h)

/-- The level a LOOP opens (R66, R68). -/
def State.loopFrame (s : State) (lvl body stages : Nat) (rot tok : Bool) (c : Nat) : LoopFrame :=
  let last := s.cur.line + 32 * (body + 1)
  { lvl := lvl, first := s.cur.line + 32, last := last, stages := stages, rot := rot, tok := tok, count := c, i := 0
    iters := c + Nat.max stages 1 - 1, opn := true, ts := s.cur.ts, out := Nat.max (s.myEng.skip.getD 0) last }

/-- The count of a LOOP: an s-register on S, an e-register elsewhere, modulo 2³². -/
def State.loopCount (s : State) (e : Engine) (cnt : Fin 32) : Nat := (if e = .s then s.getS cnt else s.getE e (Fin.ofNat 8 cnt.val)).toNat % 2 ^ 32

/-- A LOOP that rotates outside V, takes T on S or may not open is ILLOP. -/
theorem execLoop_illop (he : e = s.cur.eng)
    (hb : (rot = true ∧ e ≠ .v) ∨ (tok = true ∧ e = .s) ∨ s.badLoop s.cur.sid e lvl.val body.val stages.val rot = true) :
    exec (.loop e lvl cnt body stages rot tok) s = .next s.illop := by
  change execLoop e lvl cnt body stages rot tok s = _
  by_cases h : ((rot && e != .v) || (tok && e == .s)) = true
  · exact if_pos h
  · refine (if_neg h).trans (congrArg Host.Outcome.next (if_pos ?_))
    rw [← he]
    simp only [Bool.or_eq_true, Bool.and_eq_true, bne_iff_ne, beq_iff_eq] at h
    exact (or_assoc.2 hb).resolve_left h

variable (he : e = s.cur.eng)
  (hb : ¬((rot = true ∧ e ≠ .v) ∨ (tok = true ∧ e = .s) ∨ s.badLoop s.cur.sid e lvl.val body.val stages.val rot = true))
include he hb

theorem execLoop_eq : exec (.loop e lvl cnt body stages rot tok) s =
    .next (if s.loopCount e cnt = 0 then
      ((s.setMyEng (s.myEng.leaveOut (s.cur.line + 32 * (body.val + 1)))).advance s.cur.sid e).finish .moved
    else (s.setMe { s.me.setEng e { s.myEng with
        loops := s.loopFrame lvl.val body.val stages.val rot tok (s.loopCount e cnt) :: s.myEng.loops, loopTop := true, skip := none
        g := if stages.val = 0 then s.myEng.g else 1 } with
      rot := if rot then 0 else s.me.rot }).deferred) := by
  subst he
  simp only [not_or, Bool.not_eq_true] at hb
  obtain ⟨hr, ht, hl⟩ := hb
  have hn : ¬((rot && s.cur.eng != .v) || (tok && s.cur.eng == .s)) = true := by
    simp only [Bool.or_eq_true, Bool.and_eq_true, bne_iff_ne, beq_iff_eq, not_or]
    exact ⟨hr, ht⟩
  refine (if_neg hn).trans (congrArg Host.Outcome.next ((if_neg (by simp [hl])).trans ?_))
  rfl

/-- A LOOP of count 0 sends its engine past the body (R66, R342). -/
theorem execLoop_skips (hc : s.loopCount e cnt = 0) : Completes (.loop e lvl cnt body stages rot tok) s fun t =>
    t.out = .moved ∧ (t.me.eng' e).skip = some (Nat.max (s.myEng.skip.getD 0) (s.cur.line + 32 * (body.val + 1))) ∧ (t.me.eng' e).loops = s.myEng.loops ∧
    t.mem = s.mem ∧ ∀ x, x ≠ e → t.me.eng' x = s.me.eng' x := by
  refine ⟨_, (execLoop_eq he hb).trans (congrArg Host.Outcome.next (if_pos hc)), ?_⟩
  subst he
  obtain ⟨hskip, hloops, hne⟩ := (s.setMyEng (s.myEng.leaveOut (s.cur.line + 32 * (body.val + 1)))).advance_keeps s.cur.eng
  have hme := s.eng_setMyEng (s.myEng.leaveOut (s.cur.line + 32 * (body.val + 1)))
  refine ⟨rfl, hskip.trans ?_, hloops.trans ?_, rfl, fun x hx => (hne x hx).trans (s.eng_setMyEng_ne _ hx)⟩ <;>
    rw [hme] <;> rfl

/-- A LOOP of another count opens its level, at the top of its first iteration (R66, R68). -/
theorem execLoop_opens (hc : s.loopCount e cnt ≠ 0) : Completes (.loop e lvl cnt body stages rot tok) s fun t =>
    t.out = .deferred ∧ (t.me.eng' e).loopTop = true ∧
    (t.me.eng' e).loops = s.loopFrame lvl.val body.val stages.val rot tok (s.loopCount e cnt) :: s.myEng.loops ∧
    t.mem = s.mem ∧ ∀ x, x ≠ e → t.me.eng' x = s.me.eng' x := by
  refine ⟨_, (execLoop_eq he hb).trans (congrArg Host.Outcome.next (if_neg hc)), rfl, ?_, ?_, rfl, fun x hx => ?_⟩
  · rw [State.deferred, State.me_finish, State.me_setMe]
    exact congrArg EngState.loopTop (Stream.eng_setEng ..)
  · rw [State.deferred, State.me_finish, State.me_setMe]
    exact congrArg EngState.loops (Stream.eng_setEng ..)
  · rw [State.deferred, State.me_finish, State.me_setMe]
    exact Stream.eng_setEng_ne _ _ hx

end

/-! ### REP (R70, R371) -/

section
variable {s : State} {e : Engine} {n : Fin 64} {dA dB dC : BitVec 3} (he : e = s.cur.eng)
include he

theorem execRep_illop (h : s.badTarget s.cur.sid e dA.toInt dB.toInt dC.toInt = true) : exec (.rep e n dA dB dC) s = .next s.illop := by
  subst he
  exact congrArg Host.Outcome.next (if_pos h)

theorem execRep_eq (h : s.badTarget s.cur.sid e dA.toInt dB.toInt dC.toInt = false) {l : Line} (hl : s.lineAt s.cur.sid s.cur.line = some l) :
    exec (.rep e n dA dB dC) s = .next ((s.setMyEng { s.myEng with lane := nextLane l e s.cur.lane
                                                                   rep := some { n := n.val + 1, j := 0, dA := dA.toInt, dB := dB.toInt, dC := dC.toInt }
                                                                   twDone := false, hold := .none }).finish .moved) := by
  subst he
  refine congrArg Host.Outcome.next ((if_neg (by simp [h])).trans ?_)
  rw [hl]
  rfl

end

/-- Settles O8: what a LOOP and a REP may not do is `badLoop` and `badTarget`, and each else updates its engine alone. -/
theorem loopsAndRepeats : Obligations.LoopsAndRepeats := by
  unfold Obligations.LoopsAndRepeats
  refine ⟨fun s e lvl cnt body stages rot tok c he hl hc => ?_, fun s e n dA dB dC l he hl => ⟨fun hb => execRep_illop he hb, fun hb => ?_⟩⟩
  · intro last bad
    have hbad : bad ↔ (rot = true ∧ e ≠ .v) ∨ (tok = true ∧ e = .s) ∨ s.badLoop s.cur.sid e lvl.val body.val stages.val rot = true := by
      rw [State.badLoop_iff he hl]
    refine ⟨fun hb => execLoop_illop he (hbad.1 hb), fun hb => ?_⟩
    have hcount : c = s.loopCount e cnt := hc
    by_cases h0 : c = 0
    · obtain ⟨t, ht, hout, hskip, hloops, hmem, hne⟩ := execLoop_skips he (mt hbad.2 hb) (hcount ▸ h0)
      exact ⟨t, ht, fun _ => ⟨hout, hskip, hloops⟩, fun h => absurd h0 h, hmem, hne⟩
    · obtain ⟨t, ht, hout, htop, hloops, hmem, hne⟩ := execLoop_opens he (mt hbad.2 hb) (hcount ▸ h0)
      exact ⟨t, ht, fun h => absurd h h0, fun _ => ⟨hout, htop, _, hloops, rfl, hcount.symm, rfl, rfl, rfl, rfl, rfl, rfl, rfl, rfl, by rw [hcount]; rfl⟩, hmem, hne⟩
  · refine ⟨_, execRep_eq he hb hl, ?_⟩
    subst he
    rw [State.me_finish, State.eng_setMyEng]
    exact ⟨rfl, rfl, rfl, s.onlyMe_setMe _, fun x hx => s.eng_setMyEng_ne _ hx⟩

end Sys2Proof.Machine
end


section
/-! PROOF of O13: blocks end (R59, R79, R139, R308, R309, R337, R340, R364, R372, R387, R421). -/

namespace Sys2Proof

/-! ### Entries of a table -/

theorem Tab.find_filter {α : Type} (f : Nat → Bool) (t : Tab α) (k : Nat) :
    Tab.find (t.filter fun p => f p.1) k = if f k then Tab.find t k else none := by
  induction t with
  | nil => simp [Tab.find]
  | cons p t ih =>
    obtain ⟨a, x⟩ := p
    by_cases hak : a = k
    · subst hak
      by_cases hf : f a <;> simp [hf, Tab.find, ih]
    · by_cases hf : f a <;> simp [hf, Tab.find, ih, hak]

theorem Tab.find_insert {α : Type} (t : Tab α) (k j : Nat) (x : α) (h : ∀ p ∈ t, p.1 ≠ k) :
    Tab.find (Tab.insert t k x) j = if j = k then some x else Tab.find t j := by
  induction t with
  | nil => simp [Tab.insert, Tab.find, eq_comm]
  | cons p t ih =>
    obtain ⟨a, y⟩ := p
    have ha : a ≠ k := h (a, y) (List.mem_cons_self ..)
    have ih := ih fun p hp => h p (List.mem_cons_of_mem _ hp)
    unfold Tab.insert
    split
    · by_cases haj : a = j
      · simp [Tab.find, haj, haj ▸ ha]
      · simp [Tab.find, haj, ih]
    · simp [Tab.find, eq_comm]

theorem Tab.find_set {α : Type} (t : Tab α) (k j : Nat) (x : α) : Tab.find (Tab.set t k x) j = if j = k then some x else Tab.find t j := by
  rw [Tab.set, Tab.find_insert _ _ _ _ (Tab.erase_not_mem t k)]
  split
  · rfl
  · next h =>
    rw [Tab.erase, Tab.find_filter (fun a => a != k)]
    simp [h]

end Sys2Proof

namespace Sys2Proof.Machine

open Sys2Proof

/-! ### Branches (R59, R308, R337, R421) -/

/-- No engine that has still to finish its block is in one before the oldest that S keeps. -/
def Stream.oldestBlk (st : Stream) : Nat :=
  engines.foldl (fun n e => let es := st.eng' e; if es.ended then n else Nat.min n es.blk) (st.eng' .s).blk

theorem Engine.mem_engines (e : Engine) : e ∈ engines := by cases e <;> decide

theorem Stream.oldestBlk_le {st : Stream} {e : Engine} (h : (st.eng' e).ended = false) : st.oldestBlk ≤ (st.eng' e).blk := by
  refine foldl_establishes (P := fun _ => True) (Q := fun n => n ≤ (st.eng' e).blk) (a := e) (fun _ _ _ => trivial) (fun n x hn => ?_) (fun n _ => ?_)
    (Engine.mem_engines e) trivial
  · dsimp only
    split
    · exact hn
    · exact (Nat.min_le_left ..).trans hn
  · simp only [h, Bool.false_eq_true, if_false]
    exact Nat.min_le_right ..

/-- S stands at the start of a block of its own, and the stream knows the blocks its engines have still to finish (R59, R60). -/
theorem Stream.branchTo_spec (st : Stream) (line first : Nat) :
    (st.branchTo line first).eng' .s = { st.eng' .s with line := line, lane := 0, blk := (st.eng' .s).blk + 1, visit := 0, atEnd := false, loops := []
                                                         loopTop := false, skip := none, rep := none, twDone := false, first := first, hold := .none } ∧
    Tab.find (st.branchTo line first).blocks ((st.eng' .s).blk + 1) = some line ∧
    (∀ e, (st.eng' e).ended = false → (st.eng' e).blk ≤ (st.eng' .s).blk → Tab.find (st.branchTo line first).blocks (st.eng' e).blk = Tab.find st.blocks (st.eng' e).blk) ∧
    ∀ e, e ≠ .s → (st.branchTo line first).eng' e = st.eng' e := by
  have hb : ∀ k, Tab.find (st.branchTo line first).blocks k =
      if k = (st.eng' .s).blk + 1 then some line else if st.oldestBlk ≤ k then Tab.find st.blocks k else none := fun k => by
    refine (Tab.find_set ..).trans (if_congr Iff.rfl rfl ?_)
    refine (Tab.find_filter (fun b => decide (st.oldestBlk ≤ b)) ..).trans ?_
    simp only [decide_eq_true_eq]
  refine ⟨Stream.eng_setEng .., by rw [hb, if_pos rfl], fun e he hle => ?_, fun e he => Stream.eng_setEng_ne _ _ he⟩
  rw [hb, if_neg (by omega), if_pos (Stream.oldestBlk_le he)]

theorem execBr_eq (p : PReg) (sense : Bool) (o : BitVec 14) (s : State) :
    exec (.br p sense o) s = .next (s.branch (if s.getP p != sense then lineAdd s.cur.line o.toInt else s.cur.line + 32)) := by
  change execBr p sense o s = _
  unfold execBr
  cases s.getP p <;> cases sense <;> rfl

/-! ### The stack (R139, R309, R340, R372, R387) -/

/-- Every store of a quiet state is home. -/
theorem State.quiet.allStores {s : State} (h : s.quiet) : s.allStores = [] := by
  obtain ⟨⟨h0, h1, h2, h3, -⟩, -⟩ := h
  simp [State.allStores, h0, h1, h2, h3]

/-- With no store on its way S's write of the stack has its turn. -/
theorem State.stackTurn_of_quiet {s : State} (h : s.quiet) (l : Loc) (n : Nat) : s.stackTurn l n = (s, true) := by
  have hall := h.allStores
  obtain ⟨⟨h0, h1, h2, h3, -, hi, hl⟩, -⟩ := h
  unfold State.stackTurn
  rw [State.drain_of_empty _ h0 hi]
  simp only [Bool.not_true, Bool.false_eq_true, if_false, State.settled, State.settledHome_of_empty _ l n ⟨h0, h1, h2, h3⟩ hl, h0, hall,
    State.guests_of_none _ hi, State.noneBack]
  simp

/-- With no store on its way a write of scratchpad bytes changes these bytes of that core alone, and its granules' poison. -/
theorem State.writeHome_sp {s : State} (h : s.noStores) (sid c off : Nat) (data : List Byte) :
    let u := s.writeHome sid (.sp c off) data
    u = { s with cores := u.cores } ∧ (∀ k, k ≠ c → u.core k = s.core k) ∧ (u.core c).sp = Memory.writeList (s.core c).sp off data := by
  obtain ⟨h0, h1, h2, h3, hr, -, hl⟩ := h
  have hu : s.writeHome sid (.sp c off) data = (s.setHome (.sp c off) data).writtenPoison (.sp c off) data.length := by
    unfold State.writeHome
    rw [State.settle_of_empty _ _ _ ⟨h0, h1, h2, h3⟩]
    refine (if_neg (by simp [State.cutOff_of_idle hl])).trans ?_
    unfold State.setMarks
    have hr' : ((s.setHome (.sp c off) data).writtenPoison (.sp c off) data.length).rels = [] := hr
    exact if_pos (by rw [hr']; rfl)
  intro u
  rw [show u = _ from hu]
  refine ⟨rfl, fun k hk => (State.core_setCore_ne _ _ hk).trans (State.core_setCore_ne _ _ hk), ?_⟩
  rw [State.writtenPoison, State.core_setCore, State.setHome, State.core_setCore]

section
variable {s : State} (hq : s.quiet)
include hq

/-- With the stack in the scratchpad and room on it CALL pushes the line after its own and S goes on at its target (R139, R309). -/
theorem execCall_pushes (o : BitVec 17) (h1 : spDva ≤ s.me.stlim.toNat) (h2 : s.me.stbase.toNat ≤ s.spEnd)
    (h3 : s.me.stlim.toNat + 8 ≤ (s.getS 31).toNat) (h4 : (s.getS 31).toNat ≤ s.me.stbase.toNat) :
    exec (.call o) s = .next (((s.writeHome s.cur.sid (.sp (coreOf s.cur.sid) (s.stackOff ((s.getS 31).toNat - 8))) (leBytes 8 (s.cur.line + 32))).setS 31
      (BitVec.ofNat 64 ((s.getS 31).toNat - 8))).branch (lineAdd s.cur.line o.toInt)) := by
  change execCall o s = _
  unfold execCall State.directWrite
  simp only [State.stackTurn_of_quiet hq]
  exact if_neg (by simp only [Bool.or_eq_true, decide_eq_true_eq]; omega)

/-- RET pops a line and branches there (R139, R372). -/
theorem execRet_pops (h1 : spDva ≤ s.me.stlim.toNat) (h2 : s.me.stbase.toNat ≤ s.spEnd) (h3 : s.me.stlim.toNat ≤ (s.getS 31).toNat)
    (h4 : (s.getS 31).toNat + 8 ≤ s.me.stbase.toNat) {off : Nat} (ho : off = s.stackOff (s.getS 31).toNat) (hbad : (s.core (coreOf s.cur.sid)).spBad = [])
    (hal : leNat (Memory.readList (s.core (coreOf s.cur.sid)).sp off 8) % 32 = 0) :
    exec .ret s = .next ((s.setS 31 (BitVec.ofNat 64 ((s.getS 31).toNat + 8))).branch (leNat (Memory.readList (s.core (coreOf s.cur.sid)).sp off 8))) := by
  obtain ⟨⟨-, h5, h6, h7, hr, -⟩, he, -⟩ := hq
  have hsp : ∀ c off n, s.spBytes c off n = Memory.readList (s.core c).sp off n := fun c off n => by
    unfold State.spBytes
    rw [h5, h6, h7]
    rfl
  have hmeet : ∀ sid off, s.spMeet sid .s off 8 = s := fun sid off => by
    unfold State.spMeet
    rw [h5, h6, h7, hr]
    rfl
  have hearly : ∀ l, s.passEarly s.cur.sid l 8 = s := fun l => by
    unfold State.passEarly
    exact if_pos (by rw [show (s.stream s.cur.sid).early = [] from he]; rfl)
  change execRet s = _
  unfold execRet
  refine (if_neg (by simp only [Bool.or_eq_true, decide_eq_true_eq]; omega)).trans ?_
  dsimp only
  rw [← ho, hsp, hmeet, hearly, hbad]
  exact (if_neg (by simp [Tab.get])).trans (if_neg (by simp [hal]))

/-- OVL, when what it waits for is done, goes on at its line with an empty fetch buffer and S's open loops (R79, R364). -/
theorem execOvl_swaps {a : SReg} {mask : BitVec 5} {dpa : Nat} {p : Page} (hS : mask.getLsbD 4 = true) (hal : (s.getS a).toNat % 32 = 0)
    (hlt : (s.getS a).toNat < 0x800000000000) (hp : s.pageCheck (s.widOf s.cur.sid) s.cur.sid (s.getS a).toNat 32 .fetch = .ok (dpa, p))
    (hready : ∀ e : Engine, e ≠ .s → inMask mask e = true → (s.me.eng' e).blk = s.myEng.blk ∧ (s.me.eng' e).atEnd = true ∧ s.me.busy e = false)
    (hf : s.tryFences s.cur.sid = s) (hb : s.me.busy .s = false) (hpush : s.pushClear s.cur.sid = true) :
    exec (.ovl a mask) s = .next (((s.setMe { s.me with fetch := [] }).branch (s.getS a).toNat).setMyEng
      { ((s.setMe { s.me with fetch := [] }).branch (s.getS a).toNat).myEng with loops := s.myEng.loops }) := by
  have hall : ([Engine.v, .m, .c, .f].all fun e => !inMask mask e ||
      (((s.me.eng' e).ended || decide (s.myEng.blk < (s.me.eng' e).blk) || ((s.me.eng' e).blk == s.myEng.blk && (s.me.eng' e).atEnd)) && !(s.me.busy e))) = true := by
    refine List.all_eq_true.2 fun e he => ?_
    have hne : e ≠ .s := fun h => by rw [h] at he; revert he; decide
    cases hm : inMask mask e with
    | false => rfl
    | true =>
      obtain ⟨hblk, hend, hbusy⟩ := hready e hne hm
      simp [hblk, hend, hbusy]
  change execOvl a mask s = _
  unfold execOvl
  refine (if_neg (by simp [inMask, Engine.code, hS])).trans ((if_neg (by simp [hal])).trans ?_)
  rw [if_neg (Nat.not_le.2 hlt), hp]
  dsimp only
  rw [hall, hf, State.release_of_empty _ _ hq.allStores hq.1.2.2.2.2.2.1]
  dsimp only
  rw [show (s.me.busy .s) = false from hb, hpush]
  rfl

end

/-- An address outside the stack takes STACK before anything else of an access through s31 (R139, R340, R387). -/
theorem State.stackBad_of_outside {s : State} {a : Nat} (h : a < s.me.stlim.toNat ∨ s.me.stbase.toNat ≤ a) : s.stackBad a = true := by
  simpa [State.stackBad] using h

/-- Settles O13: a block end is `Stream.branchTo`, and the stack is read and written in the scratchpad, with nothing on its way there. -/
theorem blocksEnd : Obligations.BlocksEnd := by
  unfold Obligations.BlocksEnd
  refine ⟨fun s p sense o j => ⟨execBr_eq p sense o s, rfl, rfl, fun n => ?_⟩, fun s o sp c off hq hsp hc h1 h2 _ => ⟨fun h3 h4 ho => ?_, fun h3 h4 ho hbad hal => ?_⟩,
    fun s d sz o sc off => ⟨fun h => ?_, fun h => ?_⟩, fun s a mask t dpa p hq hS ht hal hlt hp hready hf hb hpush => ?_⟩
  · intro t
    have hme : t.me = s.me.branchTo n := State.me_setMe _ _
    obtain ⟨heng, hnew, hkept, hne⟩ := s.me.branchTo_spec n 0
    rw [hme, heng]
    exact ⟨rfl, rfl, rfl, rfl, rfl, rfl, hnew, hkept, hne, rfl, rfl, rfl⟩
  · subst hsp hc
    rw [ho]
    obtain ⟨honly, hne, hsp⟩ := State.writeHome_sp hq.1 s.cur.sid (coreOf s.cur.sid) (s.stackOff ((s.getS 31).toNat - 8)) (leBytes 8 (s.cur.line + 32))
    refine ⟨_, execCall_pushes hq o h1 h2 h3 h4, honly, hne, fun i hi => ?_, fun a ha => ?_⟩
    · rw [hsp]
      exact Memory.read_writeList_in _ _ _ (by rwa [leBytes_length])
    · rw [hsp]
      exact Memory.read_writeList_out _ _ _ (by rwa [leBytes_length])
  · subst hsp hc
    exact execRet_pops hq h1 h2 h3 h4 ho hbad hal
  · exact ⟨if_pos ⟨rfl, State.stackBad_of_outside h⟩, if_pos ⟨rfl, State.stackBad_of_outside h⟩⟩
  · exact ⟨if_pos ⟨rfl, State.stackBad_of_outside h⟩, if_pos ⟨rfl, State.stackBad_of_outside h⟩⟩
  · subst ht
    exact execOvl_swaps hq hS hal hlt hp hready hf hb hpush

end Sys2Proof.Machine
end


section
/-! PROOF of O16: event bits and range units (R72, R73, R86, R373, R376, R417). -/

namespace Sys2Proof.Machine

open Sys2Proof

/-! ### Reads of S after writes -/

theorem State.getS_setS (s : State) {d : SReg} (v : Word) (h : d ≠ 0) : (s.setS d v).getS d = v := by
  rw [(onlyS_setS s d v).2, if_neg h]

theorem State.getS_setS_ne (s : State) {d r : SReg} (v : Word) (h : r ≠ d) : (s.setS d v).getS r = s.getS r := (onlyS_setS s d v).1.2.2 r h

/-- A register's value depends on the stream's registers alone. -/
theorem State.getS_congr {s t : State} (h : t.me.s = s.me.s) (r : SReg) : t.getS r = s.getS r := by
  unfold State.getS
  rw [h]

/-- A write of a register changes the stream's registers and the loads performed ahead alone. -/
theorem State.me_setS (s : State) (d : SReg) (v : Word) : (s.setS d v).me = { s.me with s := (s.setS d v).me.s, early := (s.setS d v).me.early } :=
  (onlyS_setS s d v).1.2.1

theorem State.setS_only (s : State) (d : SReg) (v : Word) : s.setS d v = { s with streams := (s.setS d v).streams } := (onlyS_setS s d v).1.1.1

/-! ### Events (R73, R376, R417) -/

/-- Taking the bits a mask names out of EVT leaves the others. -/
theorem clearTaken (evt mask : BitVec 8) : evt &&& ~~~(evt &&& mask) = evt &&& ~~~mask := by
  ext i hi
  simp only [BitVec.getElem_and, BitVec.getElem_not]
  cases evt[i] <;> simp

/-- The stream once a WEVT has taken the bits its mask names (R73). -/
def State.takeEvt (s : State) (d : SReg) (mask : BitVec 8) : State :=
  (s.setMe { s.me with evt := s.me.evt &&& ~~~mask }).setS d ((s.me.evt &&& mask).zeroExtend 64)

section
variable {s : State} {d : SReg} {mask : BitVec 8}

theorem State.tryEvt_holds (h : s.me.evt &&& mask ≠ 0) : s.tryEvt d mask = .holds (s.takeEvt d mask) := by
  unfold State.tryEvt State.takeEvt
  rw [if_neg h, clearTaken]

theorem State.tryEvt_waits (h : s.me.evt &&& mask = 0) : s.tryEvt d mask = .waits s := if_pos h

theorem State.takeEvt_me : (s.takeEvt d mask).me = { s.me with evt := s.me.evt &&& ~~~mask, s := (s.takeEvt d mask).me.s, early := (s.takeEvt d mask).me.early } := by
  refine (State.me_setS _ d _).trans ?_
  rw [State.me_setMe]
  rfl

theorem State.takeEvt_getS : (s.takeEvt d mask).getS d = (if d = 0 then 0 else (s.me.evt &&& mask).zeroExtend 64) ∧
    ∀ r, r ≠ d → (s.takeEvt d mask).getS r = s.getS r :=
  ⟨(onlyS_setS _ d _).2, fun r hr => (State.getS_setS_ne _ _ hr).trans (State.getS_congr (by rw [State.me_setMe]) r)⟩

variable (hm : mask ≠ 0)
include hm

theorem execWevt_takes (h : s.me.evt &&& mask ≠ 0) : exec (.wevt d mask) s = .next ((s.takeEvt d mask).branch (s.cur.line + 32)) := by
  change execWevt d mask s = _
  rw [execWevt, if_neg hm]
  simp only [State.issueWait, State.tryWait, State.tryEvt_holds h]
  rfl

/-- With none of its bits set a WEVT is kept as the stream's wait (R72). -/
theorem execWevt_waits (h : s.me.evt &&& mask = 0) : exec (.wevt d mask) s = .next (s.setMe { s.me.setEng .s { s.myEng with hold := .wait } with
    wait := some { line := s.cur.line, lane := s.cur.lane, instr := .wevt d mask, ts := s.cur.ts, base := s.cur.base, x := s.cur.x } }).held := by
  change execWevt d mask s = _
  rw [execWevt, if_neg hm]
  simp only [State.issueWait, State.tryWait, State.tryEvt_waits h]
  rfl

end

theorem sevMask_ne_zero {user : BitVec 3} {ev : Bool} (h : user ≠ 0 ∨ ev = true) : sevMask user ev ≠ 0 := by
  revert user ev
  decide

/-- Over idle links a SEV comes to the stream its register names (R16, R376). -/
theorem execSev_latches {s : State} {a : SReg} {user : BitVec 3} {ev : Bool} (ht : (s.getS a).toNat < 1024) (hm : user ≠ 0 ∨ ev = true) (hl : s.linksIdle) :
    exec (.sev a user ev) s = .next (s.latchSid (s.widOf s.cur.sid) (s.getS a).toNat (sevMask user ev)) := by
  change execSev a user ev s = _
  have hbad : ¬(sevMask user ev = 0 ∨ 1024 ≤ (s.getS a).toNat) := not_or.2 ⟨sevMask_ne_zero hm, Nat.not_le.2 ht⟩
  refine (if_neg hbad).trans ?_
  rw [State.clearTo_of_idle hl, State.cutOff_of_idle hl]
  rfl

theorem State.latchSid_holds {s : State} {wid t : Nat} {b : BitVec 8} (hs : isService t = false) (hr : (s.stream t).run ≠ .free) (hw : s.widOf t = wid) :
    s.latchSid wid t b = s.setStream t ((s.stream t).latch b) := by
  simp [State.latchSid, hs, hr, hw]

theorem State.latchSid_service {s : State} {wid t : Nat} {b : BitVec 8} (hs : isService t = true) : s.latchSid wid t b = s := if_pos hs

/-! ### Range units (R86, R373) -/

/-- The chunk of a range unit, where q is the remainder over twice the cores, rounded up. -/
theorem RangeUnit.chunk_eq {u : RangeUnit} {q : Nat} (h1 : 2 * u.p * q < u.total - u.next + 2 * u.p) (h2 : u.total - u.next ≤ 2 * u.p * q) :
    u.chunk = Nat.min (u.total - u.next) (Nat.max u.min q) := by
  have hq : (u.total - u.next + 2 * u.p - 1) / (2 * u.p) = q := by
    refine Nat.div_eq_of_lt_le ?_ ?_
    · rw [Nat.mul_comm]
      omega
    · rw [Nat.add_mul, Nat.mul_comm q]
      omega
  simp only [RangeUnit.chunk, hq]

section
variable {s : State} {d a : SReg} {u : RangeUnit} (hn : (s.getS a).toNat < 64) (h0 : d ≠ 0) (h31 : d ≠ 31)
  (hu : u = Tab.get {} s.ranges (64 * s.me.ident.die + (s.getS a).toNat))

/-- RNEXT's answer in a state whose range units are as it leaves them: a start, a count, and what is noted of a count of 0 (R85). -/
def State.answerRange (s : State) (d : SReg) (n start count : Nat) : State :=
  ((s.setMe { s.me with range0 := if count = 0 then Tab.set s.me.range0 n 1 else Tab.erase s.me.range0 n }).setS d (BitVec.ofNat 64 start)).setS (d + 1)
    (BitVec.ofNat 64 count)

include h0 h31 in
/-- The answer stands in two registers, and no other changes. -/
theorem State.answerRange_spec (s : State) (n start count : Nat) : (s.answerRange d n start count).getS d = BitVec.ofNat 64 start ∧
    (s.answerRange d n start count).getS (d + 1) = BitVec.ofNat 64 count ∧ (∀ r, r ≠ d → r ≠ d + 1 → (s.answerRange d n start count).getS r = s.getS r) ∧
    (s.answerRange d n start count).ranges = s.ranges ∧ (s.answerRange d n start count).mem = s.mem := by
  have hd : d ≠ d + 1 := by decide +revert
  have hd' : d + 1 ≠ 0 := by revert h31; decide +revert
  have hranges : (s.answerRange d n start count).ranges = s.ranges :=
    (congrArg State.ranges (State.setS_only _ _ _)).trans ((congrArg State.ranges (State.setS_only _ _ _)).trans rfl)
  have hmem : (s.answerRange d n start count).mem = s.mem :=
    (congrArg State.mem (State.setS_only _ _ _)).trans ((congrArg State.mem (State.setS_only _ _ _)).trans rfl)
  refine ⟨?_, State.getS_setS _ _ hd', fun r h1 h2 => ?_, hranges, hmem⟩
  · exact (State.getS_setS_ne _ _ hd).trans (State.getS_setS _ _ h0)
  · exact (State.getS_setS_ne _ _ h2).trans ((State.getS_setS_ne _ _ h1).trans (State.getS_congr (by rw [State.me_setMe]) r))

include hn h0 h31 hu

theorem execRnext_hands (hw : u.wid = s.widOf s.cur.sid) (hrem : u.next < u.total) : exec (.rnext d a) s =
    .next (State.answerRange { s with ranges := Tab.set s.ranges (64 * s.me.ident.die + (s.getS a).toNat) { u with next := u.next + u.chunk } } d (s.getS a).toNat
      u.next u.chunk) := by
  change execRnext d a s = _
  refine (if_neg (by simp [h0, h31, hn])).trans ?_
  simp only [unitKey, ← hu, hw, beq_self_eq_true, hrem, decide_true, Bool.and_self, if_true]
  rfl

theorem execRnext_nothing (h : u.total ≤ u.next ∨ u.wid ≠ s.widOf s.cur.sid) : exec (.rnext d a) s = .next (s.answerRange d (s.getS a).toNat 0 0) := by
  have hit : (u.wid == s.widOf s.cur.sid && decide (u.next < u.total)) = false := by
    rcases h with h | h <;> simp [h]
  change execRnext d a s = _
  refine (if_neg (by simp [h0, h31, hn])).trans ?_
  simp only [unitKey, ← hu, hit, Bool.false_eq_true, if_false]
  rfl

end

/-- Settles O16: WEVT by whether a bit of its mask is set, SEV by the stream it names, RNEXT by whether its unit has a remainder for the world. -/
theorem eventsAndRanges : Obligations.EventsAndRanges := by
  unfold Obligations.EventsAndRanges
  refine ⟨fun s d mask hm => ⟨fun h => ?_, fun h => ?_⟩, fun s a d user ev t n u => ⟨fun ht hlt hm hl => ⟨fun hs hr hw => ?_, fun hs => ?_⟩,
    fun hn hlt h0 h31 hu => ⟨fun hw hrem _ q hq => ?_, fun h => ?_⟩⟩⟩
  · have hme : ((s.takeEvt d mask).branch (s.cur.line + 32)).me = (s.takeEvt d mask).me.branchTo (s.cur.line + 32) := State.me_setMe _ _
    refine ⟨_, execWevt_takes hm h, ?_, ?_, fun r hr => ?_, ?_, ?_, rfl⟩
    · rw [hme]
      exact (congrArg Stream.evt State.takeEvt_me :)
    · exact (State.getS_congr (congrArg Stream.s hme :) d).trans State.takeEvt_getS.1
    · exact (State.getS_congr (congrArg Stream.s hme :) r).trans (State.takeEvt_getS.2 r hr)
    · rw [hme]
      exact (congrArg Stream.wait State.takeEvt_me :)
    · exact (congrArg State.mem (State.setS_only _ _ _) :)
  · exact ⟨_, execWevt_waits hm h, rfl, (congrArg Stream.evt (State.me_setMe _ _) :), _, (congrArg Stream.wait (State.me_setMe _ _) :), rfl, rfl, rfl⟩
  · subst ht
    refine ⟨_, (execSev_latches hlt hm hl).trans (congrArg Host.Outcome.next (State.latchSid_holds hs hr hw)), ?_, fun k hk => State.stream_setStream_ne _ _ hk, rfl⟩
    rw [State.stream_setStream]
    rfl
  · subst ht
    exact (execSev_latches hlt hm hl).trans (congrArg Host.Outcome.next (State.latchSid_service hs))
  · subst hn
    have hc := RangeUnit.chunk_eq hq.1 hq.2
    obtain ⟨hd, hd1, hr, hranges, hmem⟩ := State.answerRange_spec h0 h31
      { s with ranges := Tab.set s.ranges (64 * s.me.ident.die + (s.getS a).toNat) { u with next := u.next + u.chunk } } (s.getS a).toNat u.next u.chunk
    refine ⟨_, execRnext_hands hlt h0 h31 hu hw hrem, hd, hc ▸ hd1, hr, ?_, fun k hk => ?_, hmem⟩
    · rw [hranges, Tab.get_set_self, hc]
    · rw [hranges, Tab.get_set_ne _ _ _ hk]
  · subst hn
    obtain ⟨hd, hd1, hr, hranges, hmem⟩ := State.answerRange_spec h0 h31 s (s.getS a).toNat 0 0
    exact ⟨_, execRnext_nothing hlt h0 h31 hu h, hd, hd1, hr, hranges, hmem⟩

end Sys2Proof.Machine
end


section
/-! PROOF of O22: line fetch, held engines, exposures and windows (R57, R58, R63, R65, R75, R127, R145). -/

namespace Sys2Proof.Machine

open Sys2Proof

/-! ### Fetch (R57) -/

/-- A granule of a quiet state's memory reads without an error. -/
theorem State.tryGranule_of_clean {s : State} (hb : s.memBad = []) (he : s.memErr = []) (hs : s.stale = []) (hi : s.images = []) (hp : s.spent = []) (dpa : Nat) :
    s.tryGranule dpa = (s, false, 0) := by
  simp [State.tryGranule, State.staleGranule, hb, he, hs, hi, hp, Tab.get]

theorem State.readGranule_of_quiet {s : State} (h : s.quiet) (wid sid dva dpa : Nat) (zfill : Bool) (lap : Nat) : s.readGranule wid sid dva dpa zfill lap = (s, false) := by
  obtain ⟨-, -, hb, he, hs, hi, hp⟩ := h
  simp [State.readGranule, State.tryGranule_of_clean hb he hs hi hp]

/-- The line that is missing is one the fetch buffer does not hold. -/
theorem State.find_missingLine {s : State} {sid dva : Nat} : ∀ {n a : Nat}, s.missingLine sid n a = some dva → Tab.find (s.stream sid).fetch dva = none
  | 0, _, h => nomatch h
  | n + 1, a, h => by
    unfold State.missingLine at h
    split at h
    · next hf =>
      cases h
      exact hf
    · split at h
      · cases h
      · exact State.find_missingLine h

/-- The stream once a line has come into its fetch buffer. -/
def Stream.fetched (st : Stream) (dva n : Nat) : Stream := { st with fetch := Tab.set st.fetch dva n }

/-- A fetch from a quiet memory brings the line as memory holds it. -/
theorem State.fetch_of_quiet {s : State} {sid dva dpa : Nat} {p : Page} (hq : s.quiet) (hroom : (s.stream sid).fetch.length < 64)
    (hf : Tab.find (s.stream sid).fetch dva = none) (hd : dva < 0x800000000000) (hp : s.pageCheck (s.widOf sid) sid dva 32 .fetch = .ok (dpa, p)) :
    s.fetch sid dva = (s.setStream sid ((s.stream sid).fetched dva (leNat (Memory.readList s.mem dpa 32))), .ok (BitVec.ofNat 256 (leNat (Memory.readList s.mem dpa 32)))) := by
  unfold State.fetch
  simp only [hf, hp, State.readGranule_of_quiet hq, if_neg (Nat.not_le.2 hd), Bool.false_eq_true, if_false, Config.fetchLines, hroom, if_true]
  rfl

theorem execFetchLine_brings {s : State} {sid dva dpa : Nat} {p : Page} (hq : s.quiet) (hrun : (s.stream sid).run = .running) (hroom : (s.stream sid).fetch.length < 64)
    (hm : s.missingLine sid 64 ((s.stream sid).eng' .s).line = some dva) (hd : dva < 0x800000000000)
    (hp : s.pageCheck (s.widOf sid) sid dva 32 .fetch = .ok (dpa, p)) :
    exec (.fetchLine sid) s = .next (s.setStream sid ((s.stream sid).fetched dva (leNat (Memory.readList s.mem dpa 32)))) := by
  have hf := State.find_missingLine hm
  have hl : s.linksIdle := hq.1.2.2.2.2.2.2
  have hw : s.fetchWaits sid dva = false := by
    unfold State.fetchWaits
    simp only [State.readClear_of_idle hl, Bool.not_true]
    cases s.dpa (s.widOf sid) dva <;> exact Bool.and_false _
  change execFetchLine sid s = _
  unfold execFetchLine
  simp only [hrun, Config.fetchLines, hroom, and_self, if_true, hm, hw, Bool.false_eq_true, if_false, State.fetch_of_quiet hq hroom hf hd hp]

/-! ### Held engines (R58, R63, R65, R127) -/

theorem Stream.eng'_setEng (st : Stream) (x : Engine) (e : EngState) : (st.setEng x e).eng' x = e := Tab.get_set_self _ _ _ _

/-- An engine whose hold ends is held by nothing, and only its stream changes, in that engine's place alone. -/
theorem State.unhold_spec (s : State) (sid : Nat) (e : Engine) : (((s.unhold sid e).stream sid).eng' e).hold = .none ∧
    (s.unhold sid e).stream sid = (s.stream sid).setEng e { (s.stream sid).eng' e with hold := .none } ∧ s.unhold sid e = { s with streams := (s.unhold sid e).streams } := by
  have h : (s.unhold sid e).stream sid = (s.stream sid).setEng e { (s.stream sid).eng' e with hold := .none } := State.stream_setStream _ _ _
  exact ⟨by rw [h, Stream.eng'_setEng], h, rfl⟩

theorem Stream.push_of_room {st : Stream} {src dst : Engine} (v : Bool) (h : (st.fifo src dst).length < 16) : ∃ t, st.push src dst v = some t := ⟨_, if_pos h⟩

/-- A token enters its FIFO when there is room and none of the engine's pushes waits before it. -/
theorem Stream.pushOrWait_of_room {st : Stream} {e d : Engine} (hq : (st.eng' e).push = []) (hroom : (st.fifo e d).length < 16) :
    (st.pushOrWait e (some d)).eng' e = st.eng' e ∧ (st.pushOrWait e (some d)).fifo e d = st.fifo e d ++ [true] := by
  obtain ⟨u, hu⟩ := Stream.push_of_room true hroom
  obtain ⟨-, hfifo, -, hframe⟩ := Stream.push_spec hu
  have hw : st.pushOrWait e (some d) = u := by simp [Stream.pushOrWait, hq, hu]
  rw [hw]
  exact ⟨by rw [hframe]; rfl, hfifo⟩

/-- The one push that an engine is held at enters its FIFO when there is room, and the engine is free. -/
theorem Stream.pushWaiting_one {st : Stream} {e d : Engine} (hq : (st.eng' e).push = [d]) (hroom : (st.fifo e d).length < 16) :
    ((st.pushWaiting e).eng' e).push = [] ∧ ((st.pushWaiting e).eng' e).hold = .none ∧ (st.pushWaiting e).fifo e d = st.fifo e d ++ [true] := by
  have hst : st.pushWaiting e = (st.setEng e { st.eng' e with push := [], hold := .none }).pushOrWait e (some d) := by
    unfold Stream.pushWaiting
    rw [hq]
    rfl
  have he := Stream.eng'_setEng st e { st.eng' e with push := [], hold := .none }
  obtain ⟨heng, hfifo⟩ := Stream.pushOrWait_of_room (st := st.setEng e { st.eng' e with push := [], hold := .none }) (d := d) (by rw [he]) hroom
  rw [hst, heng, he]
  exact ⟨rfl, rfl, hfifo⟩

section
variable {s : State} {sid : Nat} {e : Engine}

theorem execTokenWaitResume_goes {src : Engine} (hh : ((s.stream sid).eng' e).hold = .token src) (ht : (s.stream sid).fifo src e ≠ []) :
    exec (.tokenWaitResume sid e) s = .next (s.unhold sid e) := by
  change execTokenWaitResume sid e s = _
  simp [execTokenWaitResume, hh, ht]

theorem execTokenPushResume_pushes (h : (((s.stream sid).eng' e).push.isEmpty) = false) :
    exec (.tokenPushResume sid e) s = .next (s.setStream sid ((s.stream sid).pushWaiting e)) := by
  change execTokenPushResume sid e s = _
  simp [execTokenPushResume, h]

theorem execScalarFifoResume_goes (hh : ((s.stream sid).eng' e).hold = .scalar) (hv : Tab.get [] (s.stream sid).scalars e.code ≠ [])
    (hl : ∀ x a, s.laneOf sid e ≠ some (.qpush x a)) : exec (.scalarFifoResume sid e) s = .next (s.unhold sid e) := by
  change execScalarFifoResume sid e s = _
  unfold execScalarFifoResume
  rw [if_pos hh]
  dsimp only
  split
  · next x a h => exact absurd h (hl x a)
  · simp [hv]

theorem execFormatQueueResume_goes (hh : ((s.stream sid).eng' .s).hold = .format) (hroom : (s.stream sid).fmtq.length < 16) :
    exec (.formatQueueResume sid) s = .next (s.unhold sid .s) := if_pos ⟨hh, hroom⟩

theorem execSlipWindowResume_goes (hh : ((s.stream sid).eng' e).hold = .slip) (hs : s.slipOk sid e = true) (hq : s.queuesOpen sid e = true) :
    exec (.slipWindowResume sid e) s = .next (s.unhold sid e) := if_pos (by simp [hh, hs, hq])

end

/-- Settles O22: the line that the fetch unit brings, each hold by what ends it, and the two lists that lose what is over. -/
theorem enginesGoOn : Obligations.EnginesGoOn := by
  unfold Obligations.EnginesGoOn
  refine ⟨fun s sid dva dpa p hq hrun hroom hm hd hp => ?_, fun s sid e src d => ⟨fun hh ht => ?_, fun hpush hroom => ?_, fun hh hv hl => ?_, fun hh hroom => ?_,
    fun hh hs ho => ?_⟩, fun s sid core => ⟨⟨_, rfl, fun r => ?_, ?_, rfl⟩, ⟨_, rfl, fun w => ?_, ?_, rfl⟩⟩⟩
  · refine ⟨_, execFetchLine_brings hq hrun hroom hm hd hp, ?_, rfl, ?_, fun k hk => State.stream_setStream_ne _ _ hk⟩
    · rw [State.stream_setStream]
      exact (Tab.find_set _ _ _ _).trans (if_pos rfl)
    · rw [State.stream_setStream]
      rfl
  · obtain ⟨hnone, hst, hone⟩ := State.unhold_spec s sid e
    exact ⟨_, execTokenWaitResume_goes hh ht, hnone, (congrArg Stream.tokens hst :), hone⟩
  · obtain ⟨h1, h2, h3⟩ := Stream.pushWaiting_one hpush hroom
    refine ⟨_, execTokenPushResume_pushes (by rw [hpush]; rfl), ?_, ?_, ?_, rfl⟩ <;> rw [State.stream_setStream] <;> assumption
  · obtain ⟨hnone, hst, -⟩ := State.unhold_spec s sid e
    exact ⟨_, execScalarFifoResume_goes hh hv hl, hnone, (congrArg Stream.scalars hst :)⟩
  · obtain ⟨hnone, hst, -⟩ := State.unhold_spec s sid .s
    exact ⟨_, execFormatQueueResume_goes hh hroom, hnone, (congrArg Stream.fmtq hst :)⟩
  · obtain ⟨hnone, -, hone⟩ := State.unhold_spec s sid e
    exact ⟨_, execSlipWindowResume_goes hh hs ho, hnone, hone⟩
  · rw [State.stream_setStream]
    simp
  · rw [State.stream_setStream]
  · rw [State.core_setCore]
    simp
  · rw [State.core_setCore]

end Sys2Proof.Machine
end


section
/-! PROOF of O31: the special functions of F (R75, R76, Table 5.8). -/

namespace Sys2Proof.Machine

open Sys2Proof

/-! ### Elements of a row -/

theorem length_elems (w : Nat) : ∀ n x, (elems w n x).length = n
  | 0, _ => rfl
  | n + 1, x => congrArg (· + 1) (length_elems w n (x / 2 ^ w))

theorem getD_elems (w : Nat) : ∀ (n x k : Nat), k < n → (elems w n x).getD k 0 = bits x (w * k) w
  | n + 1, x, 0, _ => by simp [elems, bits]
  | n + 1, x, k + 1, h => by
    rw [elems, List.getD_cons_succ, getD_elems w n _ k (Nat.lt_of_succ_lt_succ h), bits, bits, Nat.div_div_eq_div_mul, ← Nat.pow_add, Nat.mul_succ, Nat.add_comm w]

theorem packElems_lt (w : Nat) : ∀ l : List Nat, packElems w l < 2 ^ (w * l.length)
  | [] => by simp [packElems]
  | e :: es => by
    have ih := packElems_lt w es
    have he : e % 2 ^ w < 2 ^ w := Nat.mod_lt _ (Nat.two_pow_pos w)
    rw [packElems, List.length_cons, Nat.mul_succ, Nat.pow_add, Nat.mul_comm (2 ^ (w * es.length))]
    calc e % 2 ^ w + 2 ^ w * packElems w es < 2 ^ w + 2 ^ w * packElems w es := Nat.add_lt_add_right he _
      _ = 2 ^ w * (packElems w es + 1) := by rw [Nat.mul_succ, Nat.add_comm]
      _ ≤ 2 ^ w * 2 ^ (w * es.length) := Nat.mul_le_mul_left _ ih

theorem bits_packElems (w : Nat) : ∀ (l : List Nat) (k : Nat), bits (packElems w l) (w * k) w = l.getD k 0 % 2 ^ w
  | [], k => by simp [packElems, bits]
  | e :: es, 0 => by simp [packElems, bits]
  | e :: es, k + 1 => by
    have he : e % 2 ^ w < 2 ^ w := Nat.mod_lt _ (Nat.two_pow_pos w)
    have hdiv : packElems w (e :: es) / 2 ^ w = packElems w es := by
      rw [packElems, Nat.add_mul_div_left _ _ (Nat.two_pow_pos w), Nat.div_eq_of_lt he, Nat.zero_add]
    rw [List.getD_cons_succ, ← bits_packElems w es k, bits, bits, Nat.mul_succ, Nat.add_comm (w * k), Nat.pow_add, ← Nat.div_div_eq_div_mul, hdiv]

/-- A row holds the elements it is made of, each in its width. -/
theorem laneAt_rowOf {bytes : Nat} {l : List Nat} (h : 8 * bytes * l.length ≤ 8192) (k : Nat) : laneAt bytes (rowOf bytes l) k = l.getD k 0 % 2 ^ (8 * bytes) := by
  have hlt := (packElems_lt (8 * bytes) l).trans_le (Nat.pow_le_pow_right Nat.two_pos h)
  rw [laneAt, rowOf, BitVec.toNat_ofNat, Nat.mod_eq_of_lt hlt, bits_packElems]

theorem getD_rowElems {bytes k : Nat} (r : Row) (h : k < 1024 / bytes) : (rowElems bytes r).getD k 0 = laneAt bytes r k := getD_elems _ _ _ _ h

/-! ### The elements a function gives (Table 5.8) -/

section
variable {t : Ty} (ht : isFloat t = true)
include ht

theorem isFloat_cases : t = .f32 ∨ t = .bf16 ∨ t = .f16 := by
  cases t <;> simp_all [isFloat]

/-- A float pattern has a sign, an exponent and a fraction. -/
theorem tyBits_float : tyBits t = expBits t + fracBits t + 1 ∧ 8 * tyBytes t = tyBits t ∧ 8 * tyBytes t * (1024 / tyBytes t) = 8192 := by
  rcases isFloat_cases ht with rfl | rfl | rfl <;> decide

theorem cnan_lt : cnan t < 2 ^ tyBits t := by
  rcases isFloat_cases ht with rfl | rfl | rfl <;> decide

theorem infBits_lt (neg : Bool) : infBits t neg < 2 ^ tyBits t := by
  rcases isFloat_cases ht with rfl | rfl | rfl <;> revert neg <;> decide

theorem fspecial_lt (f : FFun) (isInf neg : Bool) : fspecial f t isInf neg < 2 ^ tyBits t := by
  rcases isFloat_cases ht with rfl | rfl | rfl <;> cases f <;> revert isInf neg <;> decide

/-- A value rounded to nearest is a pattern of its type. -/
theorem encodeFloat_lt (v : FVal) : encodeFloat t .rne false v < 2 ^ tyBits t := by
  cases v with
  | nan => exact cnan_lt ht
  | inf neg => exact infBits_lt ht neg
  | fin neg m e =>
    have hs : neg.toNat * 2 ^ (expBits t + fracBits t) ≤ 2 ^ (expBits t + fracBits t) := (Nat.mul_le_mul_right _ (Bool.toNat_le neg)).trans_eq (Nat.one_mul _)
    have hb : 2 ^ tyBits t = 2 ^ (expBits t + fracBits t) + 2 ^ (expBits t + fracBits t) := by
      rw [(tyBits_float ht).1, Nat.pow_succ, Nat.mul_two]
    have hp := Nat.two_pow_pos (expBits t + fracBits t)
    unfold encodeFloat
    dsimp only
    split
    · omega
    · split
      · exact infBits_lt ht neg
      · next h =>
        have hc := Nat.lt_of_lt_of_le (Nat.not_le.1 h) (Nat.mul_le_mul_right (2 ^ fracBits t) (Nat.sub_le (2 ^ expBits t) 1))
        rw [← Nat.pow_add] at hc
        omega

theorem ffinite_lt {f : FFun} {neg : Bool} {m : Nat} {e : Int} {a : Nat} (h : ffinite f t neg m e = some a) : a < 2 ^ tyBits t := by
  unfold ffinite at h
  dsimp only at h
  split at h
  · cases h
    exact cnan_lt ht
  · split at h
    · cases h
      exact encodeFloat_lt ht _
    · cases h

/-- Every element that F gives is a pattern of its type. -/
theorem ffun_lt (f : FFun) (tick k b : Nat) : ffun f t tick k b < 2 ^ tyBits t := by
  unfold ffun
  split
  · exact cnan_lt ht
  · exact fspecial_lt ht _ _ _
  · split
    · exact fspecial_lt ht _ _ _
    · next neg m e _ _ =>
      cases h : ffinite f t neg m e with
      | none => exact Nat.mod_lt _ (Nat.two_pow_pos _)
      | some a => exact ffinite_lt ht h

/-- F's row has its function of each element of the source. -/
theorem laneAt_frow (f : FFun) (tick : Nat) (r : Row) {k : Nat} (hk : k < lanesOf t) :
    laneAt (tyBytes t) (frow f t tick r) k = ffun f t tick k (laneAt (tyBytes t) r k) := by
  obtain ⟨-, hbits, hlanes⟩ := tyBits_float ht
  have hlen : (rowElems (tyBytes t) r).length = 1024 / tyBytes t := length_elems _ _ _
  have hk' : k < (rowElems (tyBytes t) r).length := hlen.symm ▸ hk
  rw [frow, laneAt_rowOf (by rw [List.length_map, List.length_range, hlen, hlanes]), hbits]
  simp only [List.getD_eq_getElem?_getD, List.getElem?_map, List.getElem?_range hk', Option.map_some, Option.getD_some]
  rw [← List.getD_eq_getElem?_getD, getD_rowElems r hk]
  exact Nat.mod_eq_of_lt (ffun_lt ht _ _ _ _)

end

section
variable {f : FFun} {t : Ty} {tick k b : Nat}

theorem ffun_of_nan (h : decodeFloat t b = .nan) : ffun f t tick k b = cnan t := by simp only [ffun, h]

theorem ffun_of_inf {neg : Bool} (h : decodeFloat t b = .inf neg) : ffun f t tick k b = fspecial f t true neg := by simp only [ffun, h]

theorem ffun_of_zero {neg : Bool} {e : Int} (h : decodeFloat t b = .fin neg 0 e) : ffun f t tick k b = fspecial f t false neg := by simp only [ffun, h, if_true]

theorem ffun_of_fin {neg : Bool} {m a : Nat} {e : Int} (h : decodeFloat t b = .fin neg m e) (hm : m ≠ 0) (ha : ffinite f t neg m e = some a) : ffun f t tick k b = a := by
  simp only [ffun, h, if_neg hm, ha, Option.getD_some]

end

section
variable {t : Ty} (ht : isFloat t = true)
include ht

theorem decodeFloat_infBits (neg : Bool) : decodeFloat t (infBits t neg) = .inf neg := by
  rcases isFloat_cases ht with rfl | rfl | rfl <;> revert neg <;> decide

theorem decodeFloat_zeros : decodeFloat t 0 = .fin false 0 (1 - (bias t : Int) - fracBits t) ∧ decodeFloat t (signBit t) = .fin true 0 (1 - (bias t : Int) - fracBits t) := by
  rcases isFloat_cases ht with rfl | rfl | rfl <;> decide

theorem decodeFloat_oneBits : decodeFloat t (oneBits t) = .fin false (2 ^ fracBits t) (-fracBits t) := by
  rcases isFloat_cases ht with rfl | rfl | rfl <;> decide

/-- The functions that are exact at 1 give 2, 0, 1 and 1. -/
theorem ffinite_one : [FFun.exp2, .log2, .rcp, .rsq].map (fun f => ffinite f t false (2 ^ fracBits t) (-fracBits t)) =
    [some (oneBits t + 2 ^ fracBits t), some 0, some (oneBits t), some (oneBits t)] := by
  rcases isFloat_cases ht with rfl | rfl | rfl <;> decide +kernel

end

/-! ### The row that F writes (R75, R76) -/

section
variable {s : State} {d a : VReg} {t : Ty} {f : FFun}

/-- F over a row of which it has acquired every write puts its own values there. -/
theorem State.race_nil (s : State) (row use bytes : Nat) (old new : Row) : s.race row use bytes old new [] = new := rfl

theorem Stream.unknown_of_acquired {st : Stream} {x : Engine} {row : Nat} (h : ∀ w ∈ Tab.get [] st.fRace row, w.eng ≠ x → w.idx ≤ (st.knows x).of w.eng) :
    st.unknown x row = [] := by
  refine List.filter_eq_nil_iff.2 fun w hw => ?_
  by_cases he : w.eng = x
  · simp [he]
  · simp [Nat.not_lt.2 (h w hw he)]

/-- The row write of an F instruction. -/
def Stream.fWritten (st : Stream) (row bytes : Nat) (x : Row) : RowWrite :=
  { eng := .f, idx := st.made.f + 1, bytes := bytes, old := st.row row, val := x, bits := BitVec.allOnes 8192, own := x }

/-- The stream once F has issued a write of a row over what it has acquired. -/
def Stream.fWrite (st : Stream) (row bytes : Nat) (x : Row) : Stream :=
  { st.putRow .f row bytes x (BitVec.allOnes 8192) x with fres := st.fres ++ [{ row := row, idx := st.made.f + 1, left := 6 }] }

theorem State.fOp_of_acquired (h : ∀ w ∈ Tab.get [] s.me.fRace d.val, w.eng ≠ .f → w.idx ≤ (s.me.knows .f).of w.eng) :
    s.fOp f d a t = s.setMe (s.me.fWrite d.val (tyBytes t) (frow f t s.tick (s.me.fRead a.val))) := by
  have hu : (s.stream s.cur.sid).unknown .f d.val = [] := Stream.unknown_of_acquired h
  unfold State.fOp State.fWrite
  simp only [hu, State.race_nil]
  rfl

theorem Stream.row_setRow (st : Stream) (n r : Nat) (x : Row) : (st.setRow n x).row r = if r = n then x else st.row r := Tab.get_set _ _ _ _ _

variable {st : Stream} {row bytes : Nat} {x : Row}

theorem Stream.fWrite_row (r : Nat) : (st.fWrite row bytes x).row r = if r = row then x else st.row r := Stream.row_setRow st row r x

theorem Stream.fWrite_fRace (r : Nat) : Tab.get [] (st.fWrite row bytes x).fRace r =
    if r = row then (Tab.get [] st.fRace row).dropWhile st.settled ++ [st.fWritten row bytes x] else Tab.get [] st.fRace r := Tab.get_set _ _ _ _ _

/-- Of the writes made before its own F sees as much as before. -/
theorem Stream.fWrite_fSees {w : RowWrite} (h : w.idx ≤ st.made.f) : (st.fWrite row bytes x).fSees w = st.fSees w := by
  have hnew : st.made.f + 1 ≠ w.idx := by omega
  have hany : ((st.fWrite row bytes x).fres.any fun y => y.idx == w.idx && decide (0 < y.left)) = (st.fres.any fun y => y.idx == w.idx && decide (0 < y.left)) := by
    simp [Stream.fWrite, hnew]
  have hknow : (w.eng == .f) = false → ((st.fWrite row bytes x).knows .f).of w.eng = (st.knows .f).of w.eng := by
    intro he
    generalize w.eng = y at he
    cases y with
    | f => cases he
    | _ => rfl
  unfold Stream.fSees
  rw [hany]
  cases he : w.eng == .f with
  | true => rfl
  | false => rw [hknow he]

/-- F's own result is in flight from its issue on. -/
theorem Stream.fWrite_fSees_own : (st.fWrite row bytes x).fSees (st.fWritten row bytes x) = false := by
  simp [Stream.fSees, Stream.fWritten, Stream.fWrite]

/-- What F has read when it comes to one more write. -/
def Stream.fLook (st : Stream) (a : Row × Bool) (w : RowWrite) : Row × Bool :=
  if st.fSees w then (if a.2 && w.eng != .f then w.alone a.1 else w.over a.1, a.2) else (a.1, a.2 || w.eng == .f)

theorem Stream.fLook_unseen {w : RowWrite} (h : st.fSees w = false) (p : Row × Bool) : (st.fLook p w).1 = p.1 := by
  simp [Stream.fLook, h]

theorem Stream.fRead_eq (st : Stream) (r : Nat) : st.fRead r = ((Tab.get [] st.fRace r).foldl st.fLook
    ((((Tab.get [] st.fRace r).head?).map (·.old)).getD (st.row r), false)).1 := by
  unfold Stream.fRead
  cases Tab.get [] st.fRace r <;> rfl

theorem Stream.foldl_fLook_congr {u : Stream} {ws : List RowWrite} (h : ∀ w ∈ ws, u.fSees w = st.fSees w) (p : Row × Bool) : ws.foldl u.fLook p = ws.foldl st.fLook p :=
  List.foldl_ext _ _ _ fun _ w hw => by simp only [Stream.fLook, h w hw]

/-- Before its exposure has elapsed F reads the row it has written as before. -/
theorem Stream.fRead_fWrite_self (h : ∀ w ∈ Tab.get [] st.fRace row, st.settled w = false ∧ w.idx ≤ st.made.f) : (st.fWrite row bytes x).fRead row = st.fRead row := by
  have hkeep : (Tab.get [] st.fRace row).dropWhile st.settled = Tab.get [] st.fRace row := by
    cases hl : Tab.get [] st.fRace row with
    | nil => rfl
    | cons w ws => exact List.dropWhile_cons_of_neg (by simp [(h w (hl ▸ List.mem_cons_self)).1])
  rw [Stream.fRead_eq, Stream.fRead_eq, Stream.fWrite_fRace, if_pos rfl, hkeep, List.foldl_append, Stream.foldl_fLook_congr (st := st) fun w hw => Stream.fWrite_fSees (h w hw).2]
  have hold : (((Tab.get [] st.fRace row ++ [st.fWritten row bytes x]).head?).map (·.old)).getD ((st.fWrite row bytes x).row row) =
      (((Tab.get [] st.fRace row).head?).map (·.old)).getD (st.row row) := by
    cases Tab.get [] st.fRace row <;> rfl
  rw [hold]
  exact Stream.fLook_unseen Stream.fWrite_fSees_own _

theorem Stream.fRead_fWrite_ne {r : Nat} (hr : r ≠ row) (h : ∀ w ∈ Tab.get [] st.fRace r, w.idx ≤ st.made.f) : (st.fWrite row bytes x).fRead r = st.fRead r := by
  rw [Stream.fRead_eq, Stream.fRead_eq, Stream.fWrite_fRace, if_neg hr, Stream.foldl_fLook_congr (st := st) fun w hw => Stream.fWrite_fSees (h w hw), Stream.fWrite_row, if_neg hr]

/-- What every F instruction does where it has acquired the writes of its row. -/
theorem State.fOp_spec (ht : isFloat t = true) (h : ∀ w ∈ Tab.get [] s.me.fRace d.val, w.eng ≠ .f → w.idx ≤ (s.me.knows .f).of w.eng) :
    let u := s.fOp f d a t
    (∀ k < lanesOf t, laneAt (tyBytes t) (u.me.row d.val) k = ffun f t s.tick k (laneAt (tyBytes t) (s.me.fRead a.val) k)) ∧
      ((∀ w ∈ Tab.get [] s.me.fRace d.val, s.me.settled w = false ∧ w.idx ≤ s.me.made.f) → u.me.fRead d.val = s.me.fRead d.val) ∧
      (∀ r, r ≠ d.val → u.me.row r = s.me.row r ∧ ((∀ w ∈ Tab.get [] s.me.fRace r, w.idx ≤ s.me.made.f) → u.me.fRead r = s.me.fRead r)) ∧ OnlyMe s u := by
  intro u
  have hu : u = s.setMe (s.me.fWrite d.val (tyBytes t) (frow f t s.tick (s.me.fRead a.val))) := State.fOp_of_acquired h
  rw [hu, State.me_setMe]
  refine ⟨fun k hk => ?_, Stream.fRead_fWrite_self, fun r hr => ⟨?_, Stream.fRead_fWrite_ne hr⟩, State.onlyMe_setMe _ _⟩
  · rw [Stream.fWrite_row, if_pos rfl, laneAt_frow ht _ _ _ hk]
  · rw [Stream.fWrite_row, if_neg hr]

end

/-- Settles O31: what the instructions share is `State.fOp_spec`; the named points follow from what the patterns decode to. -/
theorem specialFunctions : Obligations.SpecialFunctions := by
  unfold Obligations.SpecialFunctions
  intro s d a t ht
  refine ⟨fun h p hp => ?_, fun f k b hb => ffun_of_nan hb, fun k b n e hb hn => ⟨ffun_of_fin hb hn rfl, ffun_of_fin hb hn rfl⟩, fun k => ?_⟩
  · have hspec := fun f => State.fOp_spec (f := f) (a := a) ht h
    simp only [List.mem_cons, List.not_mem_nil, or_false] at hp
    rcases hp with rfl | rfl | rfl | rfl | rfl | rfl | rfl <;> exact ⟨_, rfl, hspec _⟩
  · have hone := ffinite_one ht
    simp only [List.map_cons, List.map_nil, List.cons.injEq, and_true] at hone
    obtain ⟨h1, h2, h3, h4⟩ := hone
    obtain ⟨hz, hnz⟩ := decodeFloat_zeros ht
    have hone := decodeFloat_oneBits ht
    have hm : 2 ^ fracBits t ≠ 0 := (Nat.two_pow_pos _).ne'
    dsimp only
    simp only [ffun_of_inf (decodeFloat_infBits ht _), ffun_of_zero hz, ffun_of_zero hnz, ffun_of_fin hone hm h1, ffun_of_fin hone hm h2, ffun_of_fin hone hm h3,
      ffun_of_fin hone hm h4, fspecial, if_true, if_false, Bool.false_eq_true, Nat.zero_add, Nat.add_comm, and_self]

end Sys2Proof.Machine
end


section
/-! PROOF of O23: a stall that takes back a region in the making clears the region's rows, so memory does not stay as it was (R88, R211). -/

namespace Sys2Proof.Machine

open Sys2Proof

/-- Taking a fault at a lane leaves device memory as it was. -/
theorem State.faultAt_mem (s : State) (sid : Nat) (e : Engine) (line lane : Nat) (f : FaultInfo) : (s.faultAt sid e line lane f).mem = s.mem := by
  have htok (u : State) : u.returnToken.mem = u.mem := by
    unfold State.returnToken
    dsimp only
    split <;> rfl
  unfold State.faultAt
  split
  · rfl
  · rw [State.raise_only]
    exact htok _

/-- Where S's own place is its oldest unretired lane the stall is taken there, after what firmware has begun for the lane is taken back. -/
theorem State.stall_of_own {s : State} {sid : Nat} {p : Place} (h : s.oldest sid .s = some p) (ho : s.ownPlace sid .s = some p) (f : FaultInfo) :
    s.stall sid f = (s.withdraw sid).faultAt sid .s p.line p.lane f := by
  simp only [State.stall, h, ho, beq_self_eq_true, if_true]

theorem execStall_late {s : State} {sid : Nat} (hs : isService sid = false) (hr : (s.stream sid).run = .running) (hw : (s.stream sid).wdog ≠ 0)
    (ht : (s.stream sid).progAt + (s.stream sid).wdog.toNat * 1000 ≤ s.now) :
    exec (.stall sid) s = .next (s.stall sid { code := 0x11, detail := BitVec.ofNat 64 (s.behind sid).code }) :=
  if_neg (by simp [hs, hr, show (s.stream sid).wdog ≠ 0#64 from hw, ht])

/-- A region of world 1 that firmware has made for a SCANMAKE of stream 0; its pass 0 is under way. -/
def zeroing : Region where
  wid := 1
  base := 2097152
  log2s := 0
  nrow := 64
  stepped := true
  zfill := false
  bell := 0
  parts := [0]
  slots := [0]
  slices := [(0, { st := .zero 0 })]
  waiter := some 0

/-- A stream of world 1 whose S stands at a TRAP in lane 1 of its line, with a WDOG of 5 microseconds. -/
def trapping : Stream := { run := .running, ident := { wid := 1 }, wdog := 5, trap := some false, eng := [(Engine.s.code, { line := 4194304, lane := 1, visit := 1 })] }

/-- Stream 0 stands at the TRAP of its SCANMAKE, without progress for longer than its WDOG; a byte of the region's first row is not zero yet. -/
def making : State := { State.reset with streams := [(0, trapping)], now := 5000, regions := [(0, zeroing)], mem := [(regionDpa 0, 1)] }

theorem making_place : making.oldest 0 .s = some { blk := 0, visit := 1, lane := 1, line := 4194304 } ∧
    making.ownPlace 0 .s = some { blk := 0, visit := 1, lane := 1, line := 4194304 } := by decide +kernel

/-- The region is taken back with its rows. -/
theorem making_withdrawn : (making.withdraw 0).mem = [] := by decide +kernel

/-- Refutes O23: the clause that a STALL leaves device memory as it was. Stream 0 of `making` waits in the TRAP of a SCANMAKE whose region firmware has
made and whose rows are not zeroed yet. The watchdog's STALL takes the region back (R211, assumption 120), and with it the byte of its first row. -/
theorem not_streamsParkAndSwitch : ¬ Obligations.StreamsParkAndSwitch := by
  unfold Obligations.StreamsParkAndSwitch
  intro ⟨_, _, h⟩
  obtain ⟨hstall, -⟩ := h making 0 (by decide) (.inl (by decide)) (by decide)
  have hlate : (making.stream 0).progAt + (making.stream 0).wdog.toNat * 1000 ≤ making.now := by decide
  obtain ⟨t, ht, -, -, -, hmem, -⟩ := hstall hlate
  rw [execStall_late (by decide) (by decide) (by decide) hlate, State.stall_of_own making_place.1 making_place.2] at ht
  cases ht
  rw [State.faultAt_mem, making_withdrawn] at hmem
  exact absurd hmem (by decide)

end Sys2Proof.Machine
end


section
/-! PROOF of O24: an iteration from its record to its end (R77, R80 to R85, R154). -/

namespace Sys2Proof.Machine

open Sys2Proof

/-! ### The package's own accesses leave streams and cores alone (R155, R278) -/

/-- The streams and the cores of two states are the same. -/
def State.SameCores (s t : State) : Prop := t.streams = s.streams ∧ t.cores = s.cores

theorem State.SameCores.refl (s : State) : s.SameCores s := ⟨rfl, rfl⟩

theorem State.SameCores.trans {s t u : State} (h : s.SameCores t) (k : t.SameCores u) : s.SameCores u := ⟨k.1.trans h.1, k.2.trans h.2⟩

theorem State.SameCores.stream {s t : State} (h : s.SameCores t) (k : Nat) : t.stream k = s.stream k := by
  unfold State.stream
  rw [h.1]

theorem State.SameCores.core {s t : State} (h : s.SameCores t) (k : Nat) : t.core k = s.core k := by
  unfold State.core
  rw [h.2]

theorem State.sameCores_tear (s : State) (a n : Nat) : s.SameCores (s.tear a n) := by
  unfold State.tear
  split <;> exact ⟨rfl, rfl⟩

theorem State.sameCores_poke (wid : Nat) : ∀ (bs : List Byte) (s : State) (dva : Nat), s.SameCores (s.poke wid dva bs)
  | [], s, _ => .refl s
  | b :: bs, s, dva => by
    unfold State.poke
    refine State.SameCores.trans ?_ (State.sameCores_poke wid bs _ _)
    split
    · exact State.sameCores_tear _ _ _
    · exact .refl s

theorem State.sameCores_tryGranule (s : State) (dpa : Nat) : s.SameCores (s.tryGranule dpa).1 := by
  unfold State.tryGranule
  dsimp only
  repeat' split
  all_goals exact ⟨rfl, rfl⟩

theorem State.sameCores_tryHeader (s : State) (wid off : Nat) : s.SameCores (s.tryHeader wid off).1 := by
  unfold State.tryHeader
  split
  · exact .refl s
  · exact State.sameCores_tryGranule s _

theorem State.sameCores_addErr (s : State) (wid party : Nat) (entry : List Byte) : s.SameCores (s.addErr wid party entry) := by
  unfold State.addErr State.countDrop
  dsimp only
  split
  · split
    · exact .refl s
    · exact State.sameCores_poke _ _ _ _
  · exact ⟨rfl, rfl⟩

theorem State.sameCores_logError (s : State) (wid kind sid lap dva extra : Nat) : s.SameCores (s.logError wid kind sid lap dva extra) := by
  have ht := State.sameCores_tryHeader s wid 0x30
  unfold State.logError
  generalize (s.bufferFull wid 0x30 (s.world wid).errs.length && !(s.dropCut wid 0x30 sid)) = full
  have hread : s.SameCores (if full = true then s.tryHeader wid 0x30 else (s, 0)).1 := by
    split
    · exact ht
    · exact .refl s
  generalize (if full = true then s.tryHeader wid 0x30 else (s, 0)) = r at hread ⊢
  dsimp only
  refine State.SameCores.trans ?_ (State.sameCores_addErr _ _ _ _)
  split
  · exact hread
  · exact hread.trans (State.sameCores_addErr _ _ _ _)

theorem State.sameCores_readHeader (s : State) (wid off party : Nat) : s.SameCores (s.readHeader wid off party) := by
  have ht := State.sameCores_tryHeader s wid off
  unfold State.readHeader
  dsimp only
  split
  · exact ht
  · exact ht.trans (State.sameCores_logError _ _ _ _ _ _ _)

theorem State.sameCores_freeSlots (s : State) (wid : Nat) : s.SameCores (s.freeSlots wid) := by
  unfold State.freeSlots
  dsimp only
  split
  · exact .refl s
  · exact (State.sameCores_readHeader s _ _ _).trans (State.SameCores.trans ⟨rfl, rfl⟩ (State.sameCores_poke _ _ _ _))

/-! ### Reads of a quiet memory by the package (R155) -/

section
variable {s : State} (hq : s.quiet)
include hq

theorem State.quiet.links : s.linksIdle := by
  obtain ⟨⟨-, -, -, -, -, -, hl⟩, -⟩ := hq
  exact hl

theorem State.readHeader_of_quiet (wid off party : Nat) : s.readHeader wid off party = s := by
  obtain ⟨-, -, hb, he, hs, hi, hp⟩ := hq
  unfold State.readHeader State.tryHeader
  cases s.dpa wid (s.queueBase wid off) <;> simp [State.tryGranule_of_clean hb he hs hi hp]

theorem State.unitRead_of_quiet (party wid dva n : Nat) : (s.unitRead party wid dva n).1 = s := by
  refine foldl_keeps (fun r : State × List Byte => r.1 = s) _ (fun r q hr => ?_) _ rfl
  rw [hr]
  split
  · rfl
  · simp only [State.readGranule_of_quiet hq]

theorem State.spanClear_of_quiet (core wid dva n : Nat) : s.spanClear core wid dva n = true := by
  unfold State.spanClear
  rw [Bool.or_eq_true, List.all_eq_true]
  refine .inr fun q _ => ?_
  split
  · exact State.readClear_of_idle hq.links _ _ _
  · rfl

end

/-! ### A record is taken (R80) -/

/-- A world's launch queue with one more record taken. -/
def State.takeRecord (s : State) (wid : Nat) (l : Launch) : State :=
  { s.setWorld wid { s.world wid with taken := (s.world wid).taken ++ [l.id] } with nextId := s.nextId + 1 }

/-- The placement mask of a record, as a unit reads it. -/
def State.readMask (s : State) (wid : Nat) (bs : List Byte) : Option (List Byte) :=
  if recWord bs 0x70 = 0 then none else some (s.unitRead 1023 wid (recWord bs 0x70) 32).2

theorem execWalkerTakeRecord_of_quiet {s : State} {die wid k a : Nat} {bs : List Byte} {l : Launch} (hq : s.quiet) (hj : s.joined die = true) (hv : s.live wid = true)
    (hsec : s.sec.lockdown = 0) (hk : k = s.queueHead wid 0x10 + (s.world wid).taken.length) (ht : s.queueTail wid 0x10 ≠ k)
    (ha : a = s.queueBase wid 0x10 + 64 + 128 * (k % s.queueSize wid 0x10)) (hbs : bs = (s.unitRead 1023 wid a 128).2)
    (hl : l = s.parseRecord wid a k bs (s.readMask wid bs)) (hd : s.refused wid bs l = false → die ∈ l.dies) :
    exec (.walkerTakeRecord die wid) s = .next (if s.refused wid bs l = true then ((s.takeRecord wid l).freeSlots wid).notifyWorld wid 1023 0 0x1FFFE 0
      else { s.takeRecord wid l with launches := s.launches ++ [l] }) := by
  have hu : s.unitRead 1023 wid a 128 = (s, bs) := Prod.ext (State.unitRead_of_quiet hq _ _ _ _) hbs.symm
  have hmask : (if recWord bs 0x70 = 0 then (s, []) else s.unitRead 1023 wid (recWord bs 0x70) 32).1 = s := by
    split
    · rfl
    · exact State.unitRead_of_quiet hq _ _ _ _
  have hparse : s.parseRecord wid a k bs
      (if recWord bs 0x70 = 0 then none else some (if recWord bs 0x70 = 0 then (s, []) else s.unitRead 1023 wid (recWord bs 0x70) 32).2) = l := by
    rw [hl, State.readMask]
    split <;> rfl
  have hgo : (!s.refused wid bs l && !l.dies.contains die) = false := by
    cases hr : s.refused wid bs l with
    | true => rfl
    | false => simp [hd hr]
  change execWalkerTakeRecord die wid s = _
  unfold execWalkerTakeRecord
  simp only [hj, hv, hsec, State.spanClear_of_quiet hq, State.readHeader_of_quiet hq, ← hk, ht, ← ha, hu, hmask, hparse, hgo, Bool.not_true, bne_self_eq_false, Bool.or_false,
    Bool.false_eq_true, if_false, Bool.true_eq_false, and_false]
  split <;> rfl

/-! ### An iteration is placed (R82, R83, R154) -/

theorem execIterationPlace_waits {s : State} {die n sid : Nat} {l : Launch} (hw : s.winner die = some (l, n, sid))
    (h : s.keyRoom (coreOf sid) l.wid = false ∨ s.rangeClear l die = false) : exec (.iterationPlace die) s = .next s := by
  change execIterationPlace die s = _
  unfold execIterationPlace
  split
  · rfl
  · simp only [hw]
    refine if_pos ?_
    rcases h with h | h <;> simp [h]

/-- The bytes of its core's scratchpad that an iteration's stream starts with as zeros (R83). -/
def startsZero (sid : Nat) (wide : Bool) (a : Nat) : Prop := if wide then a < 1048576 else sid % 2 * 524288 ≤ a ∧ a < sid % 2 * 524288 + 524288

theorem State.read_zeroHalf {s : State} {sid : Nat} {wide : Bool} {a : Nat} (h : startsZero sid wide a) : Memory.read ((s.zeroHalf sid wide).core (coreOf sid)).sp a = 0 := by
  unfold State.zeroHalf
  rw [State.core_setCore]
  refine (Memory.read_clear _ _ _ _).trans (if_pos ?_)
  cases wide with
  | true => exact ⟨Nat.zero_le _, (Nat.zero_add _).symm ▸ h⟩
  | false => exact h

/-- Loading a key leaves the scratchpad. -/
theorem State.loadKey_sp (s : State) (c wid : Nat) : ((s.loadKey c wid).core c).sp = (s.core c).sp := by
  unfold State.loadKey
  dsimp only
  split
  · rfl
  · rw [State.core_setCore]

/-- What the walker does before it starts an iteration: it loads the range unit, counts the iteration, turns its pointer, and readies the core. -/
def State.readyCore (s : State) (l : Launch) (n die sid : Nat) : State :=
  ({ s.loadRange l die with
    launches := (s.loadRange l die).launches.map fun (x : Launch) => if x.id = l.id then { x with next := Tab.set x.next die (n + 1) } else x
    rotate := Tab.set (s.loadRange l die).rotate (8 * die + l.prio) (if l.wid = 4094 then 0 else l.wid + 1) }.zeroHalf sid l.wide).loadKey (coreOf sid) l.wid

/-- The state an iteration starts in: its world has given out one more context number. -/
def State.readied (s : State) (l : Launch) (n die sid ctxn : Nat) : State :=
  (s.readyCore l n die sid).setWorld l.wid { (s.readyCore l n die sid).world l.wid with ctxNext := (ctxn + 1) % 65536 }

/-- The iteration finds its half of the scratchpad zeroed. -/
theorem State.readied_zero {s : State} {l : Launch} {n die sid ctxn a : Nat} (h : startsZero sid l.wide a) :
    Memory.read ((s.readied l n die sid ctxn).core (coreOf sid)).sp a = 0 :=
  (congrArg (Memory.read · a) (State.loadKey_sp _ _ _)).trans (State.read_zeroHalf h)

/-- Where nothing keeps the winning record back, its iteration starts on its stream. -/
theorem execIterationPlace_starts {s : State} {die n sid : Nat} {l : Launch} (hj : s.joined die = true) (hsec : s.sec.lockdown = 0) (hw : s.winner die = some (l, n, sid))
    (hspan : s.spanClear (64 * die) l.wid (s.queueBase l.wid 0x10) 64 = true) (hroom : s.keyRoom (coreOf sid) l.wid = true) (hrange : s.rangeClear l die = true) :
    ∃ ctxn now, exec (.iterationPlace die) s = .next (((s.readied l n die sid ctxn).setStream sid (startStream l n die sid ctxn now)).freeSlots l.wid) := by
  refine ⟨freshCtxn (s.ctxnsOf l.wid) 65536 (s.world l.wid).ctxNext, (s.readyCore l n die sid).now, ?_⟩
  change execIterationPlace die s = _
  unfold execIterationPlace
  simp only [hj, hsec, hw, hspan, hroom, hrange, Bool.not_true, bne_self_eq_false, Bool.or_false, Bool.and_true, Bool.false_eq_true, if_false]
  rfl

/-! ### An iteration ends (R77) -/

/-- The sync engine's part of an operation changes its keys and its words alone. -/
theorem State.atSync_only (s : State) (wid dpa : Nat) : s.atSync wid dpa = { s with syncKeys := (s.atSync wid dpa).syncKeys, syncWords := (s.atSync wid dpa).syncWords } := by
  unfold State.atSync State.syncEvict
  dsimp only
  split <;> rfl

theorem State.quiet.atSync {s : State} (h : s.quiet) (wid dpa : Nat) : (s.atSync wid dpa).quiet := by
  rw [State.atSync_only]
  exact h

/-- A write to a quiet device memory changes its bytes, and no stream and no launch. -/
theorem State.writeHome_dram {s : State} (h : s.quiet) (sid a : Nat) (data : List Byte) (marks : List RelMark) :
    let u := s.writeHome sid (.dram a) data marks
    u.mem = Memory.writeList s.mem a data ∧ u.streams = s.streams ∧ u.launches = s.launches := by
  obtain ⟨⟨h0, h1, h2, h3, -, -, hl⟩, -, -, -, -, hi, hp⟩ := h
  have hset : s.setHome (.dram a) data = { s with mem := Memory.writeList s.mem a data } := by
    unfold State.setHome State.tear
    exact if_pos (by simp [hi, hp])
  have hpoison (t : State) : (t.writtenPoison (.dram a) data.length).mem = t.mem ∧ (t.writtenPoison (.dram a) data.length).streams = t.streams ∧
      (t.writtenPoison (.dram a) data.length).launches = t.launches :=
    foldl_keeps (fun u : State => u.mem = t.mem ∧ u.streams = t.streams ∧ u.launches = t.launches) _ (fun u i hu => by split <;> exact hu) _ ⟨rfl, rfl, rfl⟩
  have hmarks (t : State) (n : Nat) : (t.setMarks (.dram a) n marks).mem = t.mem ∧ (t.setMarks (.dram a) n marks).streams = t.streams ∧
      (t.setMarks (.dram a) n marks).launches = t.launches := by
    unfold State.setMarks
    split <;> exact ⟨rfl, rfl, rfl⟩
  intro u
  have hu : u = ((s.setHome (.dram a) data).writtenPoison (.dram a) data.length).setMarks (.dram a) data.length marks := by
    change s.writeHome sid (.dram a) data marks = _
    unfold State.writeHome
    rw [State.settle_of_empty _ _ _ ⟨h0, h1, h2, h3⟩]
    exact if_neg (by simp [State.cutOff_of_idle hl])
  obtain ⟨hp1, hp2, hp3⟩ := hpoison (s.setHome (.dram a) data)
  obtain ⟨hm1, hm2, hm3⟩ := hmarks ((s.setHome (.dram a) data).writtenPoison (.dram a) data.length) data.length
  rw [hu]
  exact ⟨hm1.trans (hp1.trans (by rw [hset])), hm2.trans (hp2.trans (by rw [hset])), hm3.trans (hp3.trans (by rw [hset]))⟩

/-- In a quiet memory the completion word takes its add. -/
theorem State.addDone_of_quiet {s : State} (h : s.quiet) (sid : Nat) {wid dva a : Nat} (hd : dva ≠ 0) (ha : s.doneWordAt wid dva = some a) :
    let u := s.addDone sid wid dva
    u.mem = Memory.writeList s.mem a (leBytes 8 (leNat (Memory.readList s.mem a 8) + 1)) ∧ u.streams = s.streams ∧ u.launches = s.launches := by
  have hread := State.readGranule_of_quiet (h.atSync wid a) wid sid dva a false 0
  obtain ⟨⟨h0, h1, h2, h3, -⟩, -⟩ := id h
  intro u
  have hu : u = (s.atSync wid a).writeHome sid (.dram a) (word8 (leNat (Memory.readList (s.atSync wid a).mem a 8) + 1))
      ((s.atSync wid a).marksOf (.dram a) ((s.atSync wid a).readBytes (coreOf sid) (.dram a) 8) ++ [{ core := coreOf sid, scope := .dev, ids := [] }]) := by
    change s.addDone sid wid dva = _
    unfold State.addDone
    rw [if_neg hd]
    simp only [ha, State.settle_of_empty _ _ _ ⟨h0, h1, h2, h3⟩, hread, Bool.false_eq_true, if_false]
  obtain ⟨hm, hs, hl⟩ := State.writeHome_dram (h.atSync wid a) sid a (word8 (leNat (Memory.readList (s.atSync wid a).mem a 8) + 1))
    ((s.atSync wid a).marksOf (.dram a) ((s.atSync wid a).readBytes (coreOf sid) (.dram a) 8) ++ [{ core := coreOf sid, scope := .dev, ids := [] }])
  have hsame : (s.atSync wid a).mem = s.mem ∧ (s.atSync wid a).streams = s.streams ∧ (s.atSync wid a).launches = s.launches := by
    rw [State.atSync_only]
    exact ⟨rfl, rfl, rfl⟩
  obtain ⟨hm', hs', hl'⟩ := hsame
  rw [hu]
  exact ⟨hm.trans (by rw [hm']; rfl), hs.trans hs', hl.trans hl'⟩

/-- The end of an iteration that is asked to move nowhere frees its stream and counts it. -/
theorem State.endIteration_spec {s : State} {sid : Nat} (hm : (s.stream sid).migrate = none) :
    ((s.endIteration sid).stream sid).run = .free ∧ (s.endIteration sid).mem = s.mem ∧
      (s.endIteration sid).launches = s.launches.map fun x => if x.id = (s.stream sid).ident.launch then { x with done := x.done + 1 } else x := by
  have hleft : let w := (s.stream sid).awrites.foldl (fun (s : State) c => s.leaveAwrite sid c) s
      w.mem = s.mem ∧ w.streams = s.streams ∧ w.launches = s.launches := by
    refine foldl_keeps (fun w : State => w.mem = s.mem ∧ w.streams = s.streams ∧ w.launches = s.launches) _ (fun w c hw => ?_) _ ⟨rfl, rfl, rfl⟩
    unfold State.leaveAwrite
    split <;> exact hw
  unfold State.endIteration
  dsimp only at hleft ⊢
  generalize (s.stream sid).awrites.foldl (fun (s : State) c => s.leaveAwrite sid c) s = w at hleft ⊢
  obtain ⟨hmem, hstr, hlau⟩ := hleft
  have hres : w.unreserve sid = w := by
    unfold State.unreserve
    rw [show w.stream sid = s.stream sid from congrArg (Tab.get Stream.reset · sid) hstr, hm]
  rw [hres]
  refine ⟨?_, hmem, ?_⟩
  · unfold State.freeStream
    rw [State.stream_setStream]
    rfl
  · change w.launches.map _ = _
    rw [hlau]

theorem execCompletionCombine_of_quiet {s : State} {sid : Nat} {l : Launch} (h : s.quiet) (hs : isService sid = false) (hr : (s.stream sid).run = .running)
    (hf : (s.stream sid).finished = true) (hl : s.launches.find? (fun x => x.id == (s.stream sid).ident.launch) = some l) :
    exec (.completionCombine sid) s = .next ((s.addDone sid (s.stream sid).ident.wid l.doneWord).endIteration sid) := by
  have hall := h.allStores
  obtain ⟨⟨h0, h1, h2, h3, -, hi, hl'⟩, -⟩ := h
  have hsettled : s.doneSettled sid (s.stream sid).ident.wid l.doneWord = (s, true) := by
    unfold State.doneSettled
    split
    · rfl
    · exact State.settledHome_of_empty _ _ _ ⟨h0, h1, h2, h3⟩ hl'
  change execCompletionCombine sid s = _
  unfold execCompletionCombine
  simp only [hs, hr, hf, State.release_of_empty _ _ hall hi, hl, Option.map_some, Option.getD_some, hsettled, bne_self_eq_false, Bool.false_and, Bool.not_true,
    Bool.or_false, Bool.false_eq_true, if_false]

/-! ### A record is done (R77) -/

theorem execRecordCompletionEvent_of_quiet {s : State} {die wid ev : Nat} {l : Launch} (h : s.quiet)
    (hl : s.launches.find? (fun x => x.wid == wid && decide (x.total ≤ x.done)) = some l)
    (hev : ev = (if s.slotStands l then leNat (s.unitRead 1023 l.wid (l.dva + 0x60) 8).2 else l.event)) :
    exec (.recordCompletionEvent die wid) s = .next (if 2 ^ 63 ≤ ev then { s with launches := s.launches.filter fun x => x.id != l.id }.latchSid wid (ev % 1024) 16
      else { s with launches := s.launches.filter fun x => x.id != l.id }) := by
  have hword : s.eventWord l = (s, ev) := by
    unfold State.eventWord
    rw [hev]
    split
    · exact Prod.ext (State.unitRead_of_quiet h _ _ _ _) rfl
    · rfl
  change execRecordCompletionEvent die wid s = _
  unfold execRecordCompletionEvent
  simp only [hl, State.spanClear_of_quiet h, hword, State.clearTo_of_idle h.links, State.cutOff_of_idle h.links, Bool.not_true, Bool.false_eq_true, Bool.true_eq_false, if_false,
    and_false, and_true]
  split <;> rfl

/-- Settles O24: the record that a walker takes or refuses, the iteration that it places, the end of an iteration, and the event of a record that is done. -/
theorem iterationsRun : Obligations.IterationsRun := by
  unfold Obligations.IterationsRun
  refine ⟨fun s die wid k a bs l hq hj hv hsec hk ht ha hbs hl => ⟨fun hr hd => ?_, fun hr => ?_⟩,
    fun s die n sid l hj hsec hw hspan => ⟨execIterationPlace_waits hw, fun hroom hrange => ?_⟩,
    fun s sid die wid a ev l hq => ⟨fun hs hr hf hm hl hd ha => ?_, fun hl hev => ⟨fun hlt => ?_, fun hle hs hr hwid => ?_⟩⟩⟩
  · have hexec := execWalkerTakeRecord_of_quiet hq hj hv hsec hk ht ha hbs hl fun _ => hd
    rw [hr, if_neg Bool.false_ne_true] at hexec
    exact ⟨_, hexec, rfl, (congrArg World.taken (State.world_setWorld _ _ _) :), rfl, rfl, rfl⟩
  · have hexec := execWalkerTakeRecord_of_quiet (die := die) hq hj hv hsec hk ht ha hbs hl fun h => absurd (hr.symm.trans h) (by decide)
    rw [hr, if_pos rfl] at hexec
    exact hexec
  · obtain ⟨ctxn, now, hexec⟩ := execIterationPlace_starts hj hsec hw hspan hroom hrange
    have hkeep := State.sameCores_freeSlots ((s.readied l n die sid ctxn).setStream sid (startStream l n die sid ctxn now)) l.wid
    have hst := (hkeep.stream sid).trans (State.stream_setStream _ _ _)
    refine ⟨_, hexec, ?_⟩
    dsimp only
    rw [hst, hkeep.core]
    exact ⟨rfl, rfl, rfl, rfl, rfl, rfl, rfl, rfl, rfl, fun a ha => State.readied_zero (ctxn := ctxn) ha⟩
  · obtain ⟨hmem, hstr, hlau⟩ := State.addDone_of_quiet hq sid hd ha
    have hst : (s.addDone sid (s.stream sid).ident.wid l.doneWord).stream sid = s.stream sid := congrArg (Tab.get Stream.reset · sid) hstr
    obtain ⟨hfree, hmem', hlau'⟩ := State.endIteration_spec (s := s.addDone sid (s.stream sid).ident.wid l.doneWord) (by rw [hst]; exact hm)
    have hid : l.id = (s.stream sid).ident.launch := by simpa using List.find?_some hl
    refine ⟨_, execCompletionCombine_of_quiet hq hs hr hf hl, hfree, hmem'.trans hmem, ?_⟩
    rw [hlau', hst, hlau, hid]
  · have hexec := execRecordCompletionEvent_of_quiet (die := die) hq hl hev
    rw [if_neg (Nat.not_le.2 hlt)] at hexec
    exact hexec
  · have hlatch := State.latchSid_holds (s := { s with launches := s.launches.filter fun x => x.id != l.id }) (wid := wid) (b := 16) hs hr (by
      rw [State.widOf, hs]
      exact hwid)
    have hexec := execRecordCompletionEvent_of_quiet (die := die) hq hl hev
    rw [if_pos hle, hlatch] at hexec
    refine ⟨_, hexec, rfl, ?_, rfl⟩
    rw [State.stream_setStream]
    rfl

end Sys2Proof.Machine
end


section
/-! PROOF of O34: residue numbers (R115, R119, R120). -/

namespace Sys2Proof.Machine

open Sys2Proof

/-- The fields of a canonical word are its residues. -/
theorem rnsParts_rnsWord {a b c : Nat} (ha : a < 255) (hb : b < 256) (hc : c < 257) : rnsParts (rnsWord (a, b, c)) = (a, b, c) := by
  simp only [rnsParts, rnsWord, Prod.mk.injEq]
  omega

theorem rnsParts_rnsOf (x : Int) : rnsParts (rnsOf x) = ((x % 255).toNat, (x % 256).toNat, (x % 257).toNat) :=
  rnsParts_rnsWord (by omega) (by omega) (by omega)

/-- The sum of R120 is the integer modulo 255 · 256 · 257: it agrees with it modulo each of the three, and they are coprime. -/
theorem crt_sum_emod (x : Int) :
    (x % 255 * 128 % 255 * 65792 + x % 256 * 255 % 256 * 65535 + x % 257 * 129 % 257 * 65280) % 16776960 = x % 16776960 := by
  have h255 : (255 : Int) ∣ x % 255 * 128 % 255 * 65792 + x % 256 * 255 % 256 * 65535 + x % 257 * 129 % 257 * 65280 - x := by omega
  have h256 : (256 : Int) ∣ x % 255 * 128 % 255 * 65792 + x % 256 * 255 % 256 * 65535 + x % 257 * 129 % 257 * 65280 - x := by omega
  have h257 : (257 : Int) ∣ x % 255 * 128 % 255 * 65792 + x % 256 * 255 % 256 * 65535 + x % 257 * 129 % 257 * 65280 - x := by omega
  have hprod := (IsCoprime.mul_left (by norm_num : IsCoprime (255 : Int) 257) (by norm_num : IsCoprime (256 : Int) 257)).mul_dvd
    ((by norm_num : IsCoprime (255 : Int) 256).mul_dvd h255 h256) h257
  exact Int.emod_eq_emod_iff_emod_sub_eq_zero.2 (Int.emod_eq_zero_of_dvd hprod)

/-- The residues of an integer of the signed range name it (R120). -/
theorem crt_rnsOf {x : Int} (hlo : -8388480 ≤ x) (hhi : x ≤ 8388479) : crt (rnsParts (rnsOf x)) = x := by
  have hsum : (((x % 255).toNat * 128 % 255 * 65792 + (x % 256).toNat * 255 % 256 * 65535 + (x % 257).toNat * 129 % 257 * 65280) % 16776960 : Nat) =
      x % 16776960 := by
    have hnat : ∀ n : Int, 0 < n → ((x % n).toNat : Int) = x % n := fun n hn => Int.toNat_of_nonneg (Int.emod_nonneg x hn.ne')
    push_cast [hnat 255 (by decide), hnat 256 (by decide), hnat 257 (by decide)]
    exact crt_sum_emod x
  rw [rnsParts_rnsOf, crt]
  dsimp only
  generalize (_ % 16776960 : Nat) = r at hsum ⊢
  split <;> omega

/-- Addition channel by channel adds integers (R119). -/
theorem rnsAdd_rnsOf (x y : Int) : rnsAdd (rnsOf x) (rnsOf y) = rnsOf (x + y) := by
  have h255 : ((x % 255).toNat + (y % 255).toNat) % 255 = ((x + y) % 255).toNat := by omega
  have h256 : ((x % 256).toNat + (y % 256).toNat) % 256 = ((x + y) % 256).toNat := by omega
  have h257 : ((x % 257).toNat + (y % 257).toNat) % 257 = ((x + y) % 257).toNat := by omega
  rw [rnsAdd, rnsParts_rnsOf, rnsParts_rnsOf, rnsOf]
  simp only [h255, h256, h257]

/-- Settles O34: an integer is one of its residues' sums, and the sums of residues are those of the integers. -/
theorem residueNumbers : Obligations.ResidueNumbers := by
  unfold Obligations.ResidueNumbers
  exact ⟨fun _ => crt_rnsOf, rnsAdd_rnsOf⟩

end Sys2Proof.Machine
end


section
/-! PROOF of O37: the sums of an array pass (R117, R118, R122, R240). -/

namespace Sys2Proof.Machine

open Sys2Proof

/-! ### Codes, differences and sums (R117, R118) -/

theorem Memory.get_shift (a b : Nat) : ∀ (t : Memory) (c : Nat), (∀ p ∈ t, a ≤ p.1) →
    Memory.read (t.map fun p => (p.1 - a + b, p.2)) (b + c) = Memory.read t (a + c)
  | [], _, _ => rfl
  | (k, x) :: t, c, h => by
    have hk : a ≤ k := h (k, x) List.mem_cons_self
    have ih := Memory.get_shift a b t c fun p hp => h p (List.mem_cons_of_mem _ hp)
    have hiff : k - a + b = b + c ↔ k = a + c := by omega
    simp only [Memory.read, List.map_cons, Tab.get, hiff] at ih ⊢
    rw [ih]

/-- A slice reads as the memory that it is of. -/
theorem Memory.read_slice (m : Memory) {a n b i : Nat} (h : i < n) : Memory.read (Memory.slice m a n b) (b + i) = Memory.read m (a + i) := by
  rw [Memory.slice, Memory.get_shift a b _ i fun p hp => by simp at hp; exact hp.2.1,
    Memory.read_filter m (fun k => decide (a ≤ k) && decide (k < a + n)), if_pos (by simp; omega)]

theorem Memory.getElem_readList (m : Memory) : ∀ (n a i : Nat) (h : i < (Memory.readList m a n).length), (Memory.readList m a n)[i] = Memory.read m (a + i)
  | n + 1, a, 0, _ => rfl
  | n + 1, a, i + 1, h => by
    have ih := Memory.getElem_readList m n (a + 1) i (by simpa [Memory.readList] using h)
    simp only [Memory.readList, List.getElem_cons_succ, ih]
    congr 1
    omega

section
variable {s : State} {an : Nat}

theorem State.length_arrayRow (row : Nat) : (s.arrayRow an row).length = 256 := Memory.length_readList _ _ _

theorem State.getElem_arrayRow {row n : Nat} (h : n < (s.arrayRow an row).length) : (s.arrayRow an row)[n] = Memory.read s.rows (arrayAddr an row + n) := by
  have hn : n < 256 := s.length_arrayRow (an := an) row ▸ h
  have hread := Memory.read_slice s.rows (a := arrayAddr an row) (b := 0) hn
  exact (Memory.getElem_readList _ _ _ _ h).trans hread

/-- A row of codes of 8 bits is the row of bytes. -/
theorem State.codes_bytes (row : Nat) : s.codes an row false = (s.arrayRow an row).map fun x => (x.toNat : Int) := by
  simp [State.codes]

theorem State.length_diffs (k : Nat) : (s.diffs an false k).length = 256 := by
  simp [State.diffs, State.codes_bytes, State.length_arrayRow]

/-- d(k, n) is the code less the zero point of its group (R118). -/
theorem State.getElem_diffs {k n : Nat} (h : n < (s.diffs an false k).length) : (s.diffs an false k)[n] =
    ((Memory.read s.rows (arrayAddr an k + n)).toNat : Int) - ((Memory.read s.rows (arrayAddr an (256 + k / 32) + n)).toNat : Int) := by
  simp only [State.diffs, State.codes_bytes, List.getElem_zipWith, List.getElem_map, State.getElem_arrayRow]

/-- Rows added up with factors give in each place the sum of the products there. -/
theorem foldl_zipWith_sum {N : Nat} {d : Nat → List Int} (hd : ∀ k, (d k).length = N) : ∀ (l : List (Int × Nat)) (acc : List Int), acc.length = N →
    let r := l.foldl (fun (acc : List Int) p => List.zipWith (fun (y x : Int) => y + p.1 * x) acc (d p.2)) acc
    r.length = N ∧ ∀ n < N, r.getD n 0 = acc.getD n 0 + (l.map fun p => p.1 * (d p.2).getD n 0).sum
  | [], acc, h => ⟨h, fun n _ => by simp⟩
  | p :: l, acc, h => by
    have hlen : (List.zipWith (fun (y x : Int) => y + p.1 * x) acc (d p.2)).length = N := by simp [h, hd]
    obtain ⟨hr, hget⟩ := foldl_zipWith_sum hd l _ hlen
    refine ⟨hr, fun n hn => ?_⟩
    rw [List.foldl_cons, hget n hn]
    simp [List.getD_eq_getElem?_getD, h, hd, hn, Int.add_assoc]

/-- The sums of a pass of 8-bit codes that is not transposed (R118). -/
theorem State.arraySums_bytes {f : Fmt} (hsrc : f.src = false) (hz : f.z4 = false) (act : List Byte) :
    (s.arraySums an f false act).length = 256 ∧ ∀ n < 256, (s.arraySums an f false act).getD n 0 = s.dot8 an n act := by
  have hout : f.nout false = 256 := by simp [Fmt.nout, hsrc, hz]
  obtain ⟨hlen, hget⟩ := foldl_zipWith_sum (d := s.diffs an false) (fun k => State.length_diffs k) ((act.map fun b => b.toInt).zipIdx) (List.replicate 256 0) List.length_replicate
  unfold State.arraySums
  simp only [hout, hz, Bool.false_eq_true, if_false]
  refine ⟨hlen, fun n hn => (hget n hn).trans ?_⟩
  have hdiff : ∀ k, (s.diffs an false k).getD n 0 =
      ((Memory.read s.rows (arrayAddr an k + n)).toNat : Int) - ((Memory.read s.rows (arrayAddr an (256 + k / 32) + n)).toNat : Int) := fun k => by
    have h : n < (s.diffs an false k).length := (State.length_diffs k).symm ▸ hn
    rw [List.getD_eq_getElem _ _ h, State.getElem_diffs]
  rw [List.getD_replicate _ hn, Int.zero_add]
  simp only [State.dot8, hdiff, List.zipIdx_map, List.map_map, Function.comp_def, Prod.map_fst, Prod.map_snd, id_eq]

end

/-! ### What a pass changes: streams and bays (R240, R353) -/

/-- Only streams and bays change. -/
def State.OnlyStreamsBays (s t : State) : Prop := t = { s with streams := t.streams, bays := t.bays }

theorem State.OnlyStreamsBays.trans {s t u : State} (h : s.OnlyStreamsBays t) (h' : t.OnlyStreamsBays u) : s.OnlyStreamsBays u := by
  unfold State.OnlyStreamsBays at *
  rw [h'.trans (congrArg (fun x : State => { x with streams := u.streams, bays := u.bays }) h)]

theorem State.OnlyStreamsBays.setStream {s t : State} (h : s.OnlyStreamsBays t) (sid : Nat) (st : Stream) : s.OnlyStreamsBays (t.setStream sid st) :=
  h.trans rfl

/-- The bytes that a core reads stand in no stream and no bay. -/
theorem State.OnlyStreamsBays.spBytes {s t : State} (h : s.OnlyStreamsBays t) (c off n : Nat) : t.spBytes c off n = s.spBytes c off n := by
  have hread : ∀ (n : Nat) (l : Loc), ({ s with streams := t.streams, bays := t.bays } : State).readBytes c l n = s.readBytes c l n := by
    intro n
    induction n with
    | zero => exact fun _ => rfl
    | succ n ih => exact fun l => congrArg (_ :: ·) (ih _)
  rw [h]
  exact congrArg (fun x => if (s.atCore.isEmpty && s.atGrp.isEmpty && s.atDie.isEmpty) = true then Memory.readList (s.core c).sp off n else x.map (·.1)) (hread n _)

/-- A stream with its rows, its writes of rows and its commands as before. -/
def Stream.SameRows (a b : Stream) : Prop := b.v = a.v ∧ b.fRace = a.fRace ∧ b.fKnow = a.fKnow ∧ b.made = a.made ∧ b.cmds = a.cmds

theorem Stream.SameRows.unknown {a b : Stream} (h : a.SameRows b) (e : Engine) (n : Nat) : b.unknown e n = a.unknown e n := by
  obtain ⟨-, hr, hk, hm, -⟩ := h
  unfold Stream.unknown Stream.knows
  rw [hr, hk, hm]

/-- What was on its way to the bytes that M reads is met: the stream notes it (R192). -/
theorem State.spMeet_spec (s : State) (sid : Nat) (e : Engine) (off n : Nat) :
    s.OnlyStreamsBays (s.spMeet sid e off n) ∧ (s.stream sid).SameRows ((s.spMeet sid e off n).stream sid) := by
  have hobserve : ∀ ids, s.OnlyStreamsBays (s.observe sid ids) ∧ (s.stream sid).SameRows ((s.observe sid ids).stream sid) := by
    intro ids
    unfold State.observe
    split
    · exact ⟨rfl, rfl, rfl, rfl, rfl, rfl⟩
    · rw [State.stream_setStream]
      exact ⟨rfl, rfl, rfl, rfl, rfl, rfl⟩
  unfold State.spMeet
  split
  · exact ⟨rfl, rfl, rfl, rfl, rfl, rfl⟩
  · unfold State.readMet State.meet
    obtain ⟨honly, hrows⟩ := hobserve (((s.readBytes (coreOf sid) (.sp (coreOf sid) off) n).filterMap (·.2)).map (·.id))
    dsimp only
    split
    · exact ⟨honly, hrows⟩
    · refine ⟨honly.setStream _ _, ?_⟩
      rw [State.stream_setStream]
      exact hrows

/-! ### Rows of i32 sums (R122) -/

/-- All bits of 256 elements of 4 bytes are those of a row. -/
theorem rowOf_ones : rowOf 4 (List.replicate 256 (2 ^ 32 - 1)) = BitVec.allOnes 8192 := by decide +kernel

/-- A whole row that M writes where it has acquired every write of the row stands there alone. -/
theorem State.writeRow_whole {s : State} {sid row bytes : Nat} {x : Row} (h : (s.stream sid).unknown .m row = []) :
    ((s.writeRow sid .m row bytes x (BitVec.allOnes 8192)).stream sid).v = Tab.set (s.stream sid).v row x ∧
      ((s.writeRow sid .m row bytes x (BitVec.allOnes 8192)).stream sid).cmds = (s.stream sid).cmds ∧
      s.OnlyStreamsBays (s.writeRow sid .m row bytes x (BitVec.allOnes 8192)) := by
  have hx : (x &&& BitVec.allOnes 8192) ||| ((s.stream sid).row row &&& ~~~BitVec.allOnes 8192) = x := by
    rw [BitVec.and_allOnes, BitVec.not_allOnes, BitVec.and_zero, BitVec.or_zero]
  unfold State.writeRow
  rw [State.stream_setStream, h, hx]
  exact ⟨rfl, rfl, rfl⟩

theorem toPattern_lt (t : Ty) (x : Int) : toPattern t x < 2 ^ tyBits t := by
  have hpos : (0 : Int) < 2 ^ tyBits t := Int.pow_pos (by decide)
  have hlt := Int.emod_lt_of_pos x hpos
  have hnn := Int.emod_nonneg x hpos.ne'
  unfold toPattern
  zify
  rwa [Int.toNat_of_nonneg hnn]

/-- 256 sums of a pass into i32 that does not accumulate are the elements of one row. -/
theorem State.accumulateRows_i32 {s : State} {sid row : Nat} {f : Fmt} {outs : List (FVal × Int)} (hot : f.ot = 3) (hscl : f.scl = false) (hlen : outs.length = 256)
    (h : (s.stream sid).unknown .m row = []) : let u := s.accumulateRows sid row f false [] outs
    (∀ n < 256, laneAt 4 ((u.stream sid).row row) n = toPattern .i32 ((outs.map (·.2)).getD n 0)) ∧
      (∀ k, k ≠ row → (u.stream sid).row k = (s.stream sid).row k) ∧ (u.stream sid).cmds = (s.stream sid).cmds ∧ s.OnlyStreamsBays u := by
  have hpart : (outs.drop (256 * 0)).take 256 = outs := List.take_of_length_le hlen.le
  have hnew : ((outs.zipIdx.map fun p => accumulate f false none ((rowElems 4 (s.readRow sid .m row 4)).getD p.2 0) p.1.1 p.1.2).map (·.1)) =
      (outs.map (·.2)).map (toPattern .i32) := by
    simp only [accumulate, hot, if_true, Bool.false_eq_true, if_false, List.map_map, Function.comp_def]
    rw [show (fun x : (FVal × Int) × Nat => toPattern Ty.i32 x.1.2) = (fun x => toPattern .i32 x.2) ∘ Prod.fst from rfl, ← List.map_map, List.zipIdx_map_fst]
  obtain ⟨hv, hcmds, honly⟩ := State.writeRow_whole (bytes := 4) (x := rowOf 4 ((outs.map (·.2)).map (toPattern .i32))) h
  unfold State.accumulateRows
  rw [hlen]
  simp only [Nat.reduceAdd, Nat.reduceDiv, List.range_one, List.foldl_cons, List.foldl_nil, hpart, hscl, Nat.add_zero, Bool.false_eq_true, if_false, hlen, hnew, rowOf_ones,
    State.stream_setStream]
  refine ⟨fun n hn => ?_, fun k hk => ?_, hcmds, honly.setStream _ _⟩
  · change laneAt 4 (Tab.get 0 (State.stream _ sid).v row) n = _
    rw [hv, Tab.get_set_self, laneAt_rowOf (by simp [hlen])]
    exact (congrArg (· % 2 ^ (8 * 4)) (List.getD_map (l := outs.map (·.2)) (d := 0) (n := n) (toPattern .i32))).trans (Nat.mod_eq_of_lt (toPattern_lt _ _))
  · change Tab.get 0 (State.stream _ sid).v k = _
    rw [hv, Tab.get_set_ne _ _ _ hk]
    rfl

/-! ### The pass is done (R188, R189, R240) -/

/-- Commands that retire leave the rows of their stream alone. -/
theorem retireList_v (e : Engine) : ∀ (cs : List Cmd) (st : Stream), (retireList e cs st).2.v = st.v
  | [], _ => rfl
  | c :: cs, st => by
    unfold retireList
    split
    · exact retireList_v e cs st
    · split
      · split
        · exact retireList_v e cs st
        · split
          · next u hu =>
            obtain ⟨-, -, -, hst⟩ := Stream.push_spec hu
            exact (retireList_v e cs u).trans (by rw [hst])
          · rfl
      · split
        · rfl
        · exact retireList_v e cs st

theorem foldl_eq_self {α β : Type} {f : β → α → β} {l : List α} (h : ∀ x ∈ l, ∀ b, f b x = b) (b : β) : l.foldl f b = b := by
  rw [List.foldl_ext f (fun b _ => b) b fun b x hx => h x hx b]
  exact List.foldl_fixed' (fun _ => rfl) l

/-- A stream that has no notification among its commands retires them with its rows as they are. -/
theorem State.retireCmds_spec {s : State} {sid : Nat} (e : Engine) (h : ∀ c ∈ (s.stream sid).cmds, ∀ g, c.kind ≠ .note g) :
    s.OnlyStreamsBays (s.retireCmds sid e) ∧ ((s.retireCmds sid e).stream sid).v = (s.stream sid).v := by
  unfold State.retireCmds
  dsimp only
  rw [foldl_eq_self fun c hc b => ?_]
  · split
    · rw [State.stream_setStream]
      exact ⟨rfl, retireList_v _ _ _⟩
    · rw [State.progress, State.stream_setStream, State.stream_setStream]
      exact ⟨rfl, retireList_v _ _ _⟩
  · have hnote := h c (List.mem_filter.1 hc).1
    split
    · next g hg => exact absurd hg (hnote g)
    · rfl

theorem State.finishCmd_spec {s : State} {sid : Nat} {c : Cmd} (hc : ∀ g, c.kind ≠ .note g) (h : ∀ c ∈ (s.stream sid).cmds, ∀ g, c.kind ≠ .note g) :
    s.OnlyStreamsBays (s.finishCmd sid c) ∧ ((s.finishCmd sid c).stream sid).v = (s.stream sid).v := by
  have hset : ∀ x ∈ ((s.setStream sid ((s.stream sid).setCmd { c with done := true, win := none })).stream sid).cmds, ∀ g, x.kind ≠ .note g := by
    rw [State.stream_setStream]
    intro x hx
    obtain ⟨y, hy, rfl⟩ := List.mem_map.1 hx
    split
    · exact hc
    · exact h y hy
  obtain ⟨honly, hv⟩ := State.retireCmds_spec c.eng hset
  unfold State.finishCmd State.progress
  rw [State.stream_setStream]
  rw [State.stream_setStream] at hv
  have hfirst : s.OnlyStreamsBays (s.setStream sid ((s.stream sid).setCmd { c with done := true, win := none })) := rfl
  exact ⟨(hfirst.trans honly).setStream _ _, hv⟩

theorem State.endShare_onlyBays (s : State) (bay : Nat) : s.OnlyStreamsBays (s.endShare bay) ∧ (s.endShare bay).streams = s.streams := by
  unfold State.endShare
  dsimp only
  split
  · exact ⟨rfl, rfl⟩
  · split
    · exact ⟨rfl, rfl⟩
    · split <;> exact ⟨rfl, rfl⟩

/-- The pass of 8-bit codes into i32 rows, as its bay runs it. -/
theorem State.runPass_i32 {s : State} {sid act an row sc : Nat} {w : Word} (hsrc : (fmtOf w).src = false) (hz : (fmtOf w).z4 = false) (hot : (fmtOf w).ot = 3)
    (hscl : (fmtOf w).scl = false) (hun : ∀ n, (s.stream sid).unknown .m n = []) : let u := s.runPass sid w false false act an row sc
    (∀ n < 256, laneAt 4 ((u.stream sid).row row) n =
      toPattern .i32 (s.dot8 an n (s.spBytes (coreOf sid) (spBase (s.stream sid) sid + act) (fmtOf w).klen))) ∧
      (∀ k, k ≠ row → (u.stream sid).row k = (s.stream sid).row k) ∧ (u.stream sid).cmds = (s.stream sid).cmds ∧ s.OnlyStreamsBays u := by
  have hnb : (fmtOf w).nb false = (fmtOf w).klen := by simp [Fmt.nb, hsrc, hz]
  obtain ⟨hmeet, hsame⟩ := s.spMeet_spec sid .m (spBase (s.stream sid) sid + act) (fmtOf w).klen
  unfold State.runPass
  simp only [hnb, hscl, hsrc, Bool.false_eq_true, if_false, hmeet.spBytes]
  generalize s.spMeet sid .m (spBase (s.stream sid) sid + act) (fmtOf w).klen = t at hmeet hsame ⊢
  generalize s.spBytes (coreOf sid) (spBase (s.stream sid) sid + act) (fmtOf w).klen = acts
  have hsums : t.arraySums an (fmtOf w) false acts = s.arraySums an (fmtOf w) false acts := by rw [hmeet]; rfl
  obtain ⟨hlen, hget⟩ := State.arraySums_bytes (s := s) (an := an) hsrc hz acts
  obtain ⟨hlanes, hrows, hcmds, honly⟩ := State.accumulateRows_i32 (s := t) (sid := sid) (row := row) (f := fmtOf w)
    (outs := (s.arraySums an (fmtOf w) false acts).map fun x => (ofInt x, x)) hot hscl (by rw [List.length_map, hlen]) ((hsame.unknown _ _).trans (hun row))
  rw [hsums]
  refine ⟨fun n hn => ?_, fun k hk => (hrows k hk).trans (congrArg (Tab.get 0 · k) hsame.1), hcmds.trans hsame.2.2.2.2, hmeet.trans honly⟩
  rw [hlanes n hn, List.map_map, Function.comp_def, List.map_id', hget n hn]

/-- Settles O37: a pass whose words are those of the statement is carried out by its bay in one step. -/
theorem arrayPassSums : Obligations.ArrayPassSums := by
  unfold Obligations.ArrayPassSums
  intro s bay act an row c o r cmd w acts hturn haw hpass hfault hkind hsrc hz hot hacc htr hscl hun hnote hc hacts
  have hexec : exec (.arrayPass bay) s = .next ((((((s.served bay r).dropOp bay o).runPass o.sid w false false act an row (fmtOf w).scloff).finishCmd o.sid cmd).endShare bay)) := by
    have hfault' : (s.served bay r).passFault o = none := hfault
    change execArrayPass bay s = _
    unfold execArrayPass
    simp only [hturn, haw, hpass, hfault', hkind, hacc, htr, Bool.false_eq_true, if_false, Bool.or_false]
  have hserved : s.OnlyStreamsBays ((s.served bay r).dropOp bay o) := rfl
  have hstream : ((s.served bay r).dropOp bay o).stream o.sid = s.stream o.sid := rfl
  have hdot : ∀ n, ((s.served bay r).dropOp bay o).dot8 an n acts = s.dot8 an n acts := fun _ => rfl
  have hrun := State.runPass_i32 (sid := o.sid) (s := (s.served bay r).dropOp bay o) (act := act) (an := an) (row := row) (sc := (fmtOf w).scloff) hsrc hz hot hscl hun
  rw [hserved.spBytes, hstream, ← hc, ← hacts] at hrun
  generalize ((s.served bay r).dropOp bay o).runPass o.sid w false false act an row (fmtOf w).scloff = t at hexec hrun
  obtain ⟨hlanes, hrows, hcmds, hpassed⟩ := hrun
  obtain ⟨hfin, hv⟩ := State.finishCmd_spec (s := t) (sid := o.sid) (c := cmd) (fun g hg => by rw [hkind] at hg; cases hg) (hcmds ▸ hnote)
  obtain ⟨hend, hstreams⟩ := (t.finishCmd o.sid cmd).endShare_onlyBays bay
  have honly := ((hserved.trans hpassed).trans hfin).trans hend
  have hrow : ∀ k, (((t.finishCmd o.sid cmd).endShare bay).stream o.sid).row k = (t.stream o.sid).row k := fun k => by
    rw [State.stream, hstreams]
    exact congrArg (Tab.get 0 · k) hv
  refine ⟨_, hexec, fun n hn => ?_, fun k hk => (hrow k).trans (hrows k hk), by rw [honly], by rw [honly], by rw [honly]⟩
  rw [hrow, hlanes n hn, hdot]

end Sys2Proof.Machine
end


section
/-! SUPPORT for O26, O32 and O33: the magnitudes of a float type in their order, and rounding to them, over the real numbers (R114, R131). -/

namespace Sys2Proof.Machine

open Sys2Proof

/-! ### Magnitudes -/

/-- The size that a pattern without its sign stands for, at the unit of the smallest, with n fraction bits. It goes on beyond the largest finite one. -/
def magnitude (n p : Nat) : Nat := if p < 2 ^ n then p else (p % 2 ^ n + 2 ^ n) * 2 ^ (p / 2 ^ n - 1)

/-- Every pattern has an exponent and a significand, which has its leading bit where the exponent is not the lowest. -/
theorem exists_significand (n p : Nat) : ∃ q, p = (p / 2 ^ n - 1) * 2 ^ n + q ∧ q < 2 ^ (n + 1) ∧ (p / 2 ^ n - 1 = 0 ∨ 2 ^ n ≤ q) := by
  have hpos := Nat.two_pow_pos n
  rw [Nat.pow_succ]
  by_cases h : p < 2 ^ n
  · exact ⟨p, by simp [Nat.div_eq_of_lt h], by omega, .inl (by simp [Nat.div_eq_of_lt h])⟩
  · have hdiv : 1 ≤ p / 2 ^ n := (Nat.one_le_div_iff hpos).2 (Nat.not_lt.1 h)
    have hmod := Nat.mod_lt p hpos
    refine ⟨p % 2 ^ n + 2 ^ n, ?_, by omega, .inr (Nat.le_add_left _ _)⟩
    have hp := Nat.div_add_mod p (2 ^ n)
    have hmul : (p / 2 ^ n - 1) * 2 ^ n + 2 ^ n = 2 ^ n * (p / 2 ^ n) := by
      rw [← Nat.succ_mul, Nat.succ_eq_add_one, Nat.sub_add_cancel hdiv, Nat.mul_comm]
    omega

/-- An exponent and a significand make up a magnitude, that of the next exponent included. -/
theorem magnitude_eq {n x q : Nat} (hq : q ≤ 2 ^ (n + 1)) (h : x = 0 ∨ 2 ^ n ≤ q) : magnitude n (x * 2 ^ n + q) = q * 2 ^ x := by
  have hpos := Nat.two_pow_pos n
  have hcode : ∀ y r, r < 2 ^ n → magnitude n ((y + 1) * 2 ^ n + r) = (r + 2 ^ n) * 2 ^ y := fun y r hr => by
    have hge : ¬(y + 1) * 2 ^ n + r < 2 ^ n := by rw [Nat.succ_mul]; omega
    rw [magnitude, if_neg hge, Nat.mul_comm (y + 1), Nat.mul_add_mod, Nat.mod_eq_of_lt hr, Nat.mul_add_div hpos, Nat.div_eq_of_lt hr]
    rfl
  rw [Nat.pow_succ] at hq
  by_cases hlow : q < 2 ^ n
  · obtain rfl : x = 0 := h.resolve_right (Nat.not_le.2 hlow)
    simp [magnitude, hlow]
  · by_cases htop : q = 2 ^ n * 2
    · rw [show x * 2 ^ n + q = (x + 1 + 1) * 2 ^ n + 0 by rw [htop]; ring, hcode _ _ hpos, htop]
      ring
    · rw [show x * 2 ^ n + q = (x + 1) * 2 ^ n + (q - 2 ^ n) by rw [Nat.succ_mul]; omega, hcode _ _ (by omega), Nat.sub_add_cancel (Nat.not_lt.1 hlow)]

theorem magnitude_zero (n : Nat) : magnitude n 0 = 0 := by simp [magnitude]

theorem magnitude_succ (n p : Nat) : magnitude n (p + 1) = magnitude n p + 2 ^ (p / 2 ^ n - 1) := by
  obtain ⟨q, hp, hq, hlead⟩ := exists_significand n p
  have hthis := magnitude_eq hq.le hlead
  have hnext := magnitude_eq (q := q + 1) hq (hlead.imp_right fun h => h.trans (Nat.le_succ q))
  rw [← hp] at hthis
  rw [← Nat.add_assoc, ← hp] at hnext
  rw [hthis, hnext, Nat.succ_mul]

theorem magnitude_strictMono (n : Nat) : StrictMono (magnitude n) :=
  strictMono_nat_of_lt_succ fun p => by
    rw [magnitude_succ]
    exact Nat.lt_add_of_pos_right (Nat.two_pow_pos _)

/-- The exponent of the smallest magnitude of a type. -/
def unitOf (t : Ty) : Int := 1 - (bias t : Int) - fracBits t

/-- The pattern of +∞: those below it are the finite magnitudes. -/
def infCode (t : Ty) : Nat := (2 ^ expBits t - 1) * 2 ^ fracBits t

/-- The real number that a pattern without its sign stands for. -/
noncomputable def magVal (t : Ty) (p : Nat) : ℝ := magnitude (fracBits t) p * (2 : ℝ) ^ unitOf t

theorem magVal_zero (t : Ty) : magVal t 0 = 0 := by simp [magVal, magnitude_zero]

theorem magVal_strictMono (t : Ty) : StrictMono (magVal t) := fun _ _ h =>
  mul_lt_mul_of_pos_right (Nat.cast_lt.2 (magnitude_strictMono _ h)) (zpow_pos two_pos _)

theorem magVal_nonneg (t : Ty) (p : Nat) : 0 ≤ magVal t p := mul_nonneg (Nat.cast_nonneg _) (zpow_pos two_pos _).le

/-- A sign as a factor. -/
noncomputable def sgn (neg : Bool) : ℝ := if neg then -1 else 1

theorem infBits_eq (t : Ty) (neg : Bool) : infBits t neg = neg.toNat * signBit t + infCode t := rfl

/-! ### Patterns -/

section
variable {t : Ty} (ht : isFloat t = true)
include ht

theorem fracBits_pos : 0 < fracBits t ∧ fracBits t ≤ 23 ∧ 1 < expBits t := by
  rcases isFloat_cases ht with rfl | rfl | rfl <;> decide

theorem infCode_lt : infCode t < signBit t := by
  rcases isFloat_cases ht with rfl | rfl | rfl <;> decide

theorem two_mul_signBit : 2 ^ tyBits t = 2 * signBit t := by
  rcases isFloat_cases ht with rfl | rfl | rfl <;> decide

theorem signBit_even : signBit t % 2 = 0 ∧ infCode t % 2 = 0 ∧ 0 < infCode t := by
  rcases isFloat_cases ht with rfl | rfl | rfl <;> decide

/-- The sign and the rest of a pattern. -/
theorem exists_sign {b : Nat} (hb : b < 2 ^ tyBits t) : ∃ (neg : Bool) (p : Nat), p < signBit t ∧ b = neg.toNat * signBit t + p := by
  rw [two_mul_signBit ht] at hb
  by_cases h : b < signBit t
  · exact ⟨false, b, h, by simp⟩
  · exact ⟨true, b - signBit t, by omega, by simp; omega⟩

omit ht in
/-- What a pattern stands for, by its sign and the rest. -/
theorem decodeFloat_sign (neg : Bool) {p : Nat} (hp : p < signBit t) : decodeFloat t (neg.toNat * signBit t + p) =
    if p / 2 ^ fracBits t = 2 ^ expBits t - 1 then (if p % 2 ^ fracBits t = 0 then .inf neg else .nan)
    else if p / 2 ^ fracBits t = 0 then .fin neg (p % 2 ^ fracBits t) (unitOf t)
    else .fin neg (p % 2 ^ fracBits t + 2 ^ fracBits t) ((p / 2 ^ fracBits t : Nat) - bias t - fracBits t) := by
  have hs : signBit t = 2 ^ fracBits t * 2 ^ expBits t := by rw [signBit, Nat.pow_add, Nat.mul_comm]
  have hsign : (neg.toNat * signBit t + p) / 2 ^ (expBits t + fracBits t) % 2 = neg.toNat := by
    rw [← signBit, Nat.mul_comm, Nat.mul_add_div (m := signBit t) (Nat.two_pow_pos _), Nat.div_eq_of_lt hp]
    cases neg <;> rfl
  have hfrac : (neg.toNat * signBit t + p) % 2 ^ fracBits t = p % 2 ^ fracBits t := by
    rw [hs, Nat.mul_comm, Nat.mul_assoc, Nat.mul_add_mod]
  have hexp : (neg.toNat * signBit t + p) / 2 ^ fracBits t % 2 ^ expBits t = p / 2 ^ fracBits t := by
    have hlt : p / 2 ^ fracBits t < 2 ^ expBits t := Nat.div_lt_of_lt_mul (hs ▸ hp)
    rw [hs, Nat.mul_comm, Nat.mul_assoc, Nat.mul_add_div (Nat.two_pow_pos _), Nat.mul_add_mod, Nat.mod_eq_of_lt hlt]
  have hneg : ((neg.toNat : Nat) == 1) = neg := by cases neg <;> rfl
  simp only [decodeFloat, hsign, hfrac, hexp, hneg, unitOf]

/-- A pattern below the infinity stands for its magnitude, with its sign. -/
theorem decodeFloat_finite (neg : Bool) {p : Nat} (hp : p < infCode t) : ∃ m e, decodeFloat t (neg.toNat * signBit t + p) = .fin neg m e ∧
    (m : ℝ) * (2 : ℝ) ^ e = magVal t p := by
  have hexp : p / 2 ^ fracBits t < 2 ^ expBits t - 1 := Nat.div_lt_of_lt_mul (Nat.mul_comm _ _ ▸ hp)
  rw [decodeFloat_sign neg (hp.trans (infCode_lt ht)), if_neg hexp.ne]
  split
  · next h =>
    have hlt : p < 2 ^ fracBits t := (Nat.div_eq_zero_iff_lt (Nat.two_pow_pos _)).1 h
    exact ⟨_, _, rfl, by rw [magVal, magnitude, if_pos hlt, Nat.mod_eq_of_lt hlt]⟩
  · next h =>
    have hge : ¬p < 2 ^ fracBits t := fun hlt => h (Nat.div_eq_of_lt hlt)
    have hu : ((p / 2 ^ fracBits t : Nat) : Int) - bias t - fracBits t = (p / 2 ^ fracBits t - 1 : Nat) + unitOf t := by
      rw [unitOf, Nat.cast_sub (Nat.one_le_iff_ne_zero.2 h)]
      push_cast
      ring
    refine ⟨_, _, rfl, ?_⟩
    rw [magVal, magnitude, if_neg hge, hu, zpow_add₀ two_ne_zero, zpow_natCast]
    push_cast
    ring

omit ht in
/-- Beyond the infinity stand the NaNs. -/
theorem decodeFloat_beyond (neg : Bool) {p : Nat} (hp : infCode t < p) (hlt : p < signBit t) : decodeFloat t (neg.toNat * signBit t + p) = .nan := by
  have hs : signBit t = (2 ^ expBits t - 1) * 2 ^ fracBits t + 2 ^ fracBits t := by
    rw [← Nat.succ_mul, Nat.succ_eq_add_one, Nat.sub_add_cancel (Nat.two_pow_pos _), signBit, Nat.pow_add]
  have hmod : p = p - infCode t + (2 ^ expBits t - 1) * 2 ^ fracBits t := (Nat.sub_add_cancel hp.le).symm
  have hsmall : p - infCode t < 2 ^ fracBits t := by
    unfold infCode at *
    omega
  have hpos := Nat.two_pow_pos (fracBits t)
  have hdiv : p / 2 ^ fracBits t = 2 ^ expBits t - 1 := by rw [hmod, Nat.add_mul_div_right _ _ hpos, Nat.div_eq_of_lt hsmall, Nat.zero_add]
  have hrem : p % 2 ^ fracBits t = p - infCode t := by rw [hmod, Nat.add_mul_mod_self_right, Nat.mod_eq_of_lt hsmall, ← hmod]
  rw [decodeFloat_sign neg hlt, if_pos hdiv, if_neg (by omega)]

/-- What a pattern of the type that is no NaN stands for: a magnitude or an infinity, with its sign. -/
theorem decodeFloat_cases {b : Nat} (hb : b < 2 ^ tyBits t) (hn : decodeFloat t b ≠ .nan) : ∃ neg,
    (∃ p m e, p < infCode t ∧ b = neg.toNat * signBit t + p ∧ decodeFloat t b = .fin neg m e ∧ (m : ℝ) * (2 : ℝ) ^ e = magVal t p) ∨
      (b = infBits t neg ∧ decodeFloat t b = .inf neg) := by
  obtain ⟨neg, p, hp, rfl⟩ := exists_sign ht hb
  rcases lt_trichotomy p (infCode t) with h | rfl | h
  · obtain ⟨m, e, hd, hv⟩ := decodeFloat_finite ht neg h
    exact ⟨neg, .inl ⟨p, m, e, h, rfl, hd, hv⟩⟩
  · exact ⟨neg, .inr ⟨rfl, decodeFloat_infBits ht neg⟩⟩
  · exact absurd (decodeFloat_beyond neg h hp) hn

/-- A pattern is read by its bits within the width of the type. -/
theorem decodeFloat_mod (b : Nat) : decodeFloat t (b % 2 ^ tyBits t) = decodeFloat t b := by
  have hbits : tyBits t = expBits t + fracBits t + 1 := (tyBits_float ht).1
  have hsign : b % 2 ^ tyBits t / 2 ^ (expBits t + fracBits t) % 2 = b / 2 ^ (expBits t + fracBits t) % 2 := by
    rw [hbits, Nat.pow_succ, Nat.mod_mul_right_div_self, Nat.mod_mod]
  have hexp : b % 2 ^ tyBits t / 2 ^ fracBits t % 2 ^ expBits t = b / 2 ^ fracBits t % 2 ^ expBits t := by
    rw [hbits, show expBits t + fracBits t + 1 = fracBits t + (expBits t + 1) by omega, Nat.pow_add, Nat.mod_mul_right_div_self,
      Nat.mod_mod_of_dvd _ (Nat.pow_dvd_pow 2 (Nat.le_succ _))]
  have hfrac : b % 2 ^ tyBits t % 2 ^ fracBits t = b % 2 ^ fracBits t := Nat.mod_mod_of_dvd _ (Nat.pow_dvd_pow 2 (by omega))
  simp only [decodeFloat, hsign, hexp, hfrac]

/-- Every finite value of a type is one of its magnitudes, with its sign. -/
theorem decodeFloat_fin {b m : Nat} {neg : Bool} {e : Int} (h : decodeFloat t b = .fin neg m e) : ∃ p < infCode t, (m : ℝ) * (2 : ℝ) ^ e = magVal t p ∧
    (b < 2 ^ tyBits t → b = neg.toNat * signBit t + p) := by
  have hmod := (decodeFloat_mod ht b).trans h
  obtain ⟨n, hn⟩ := decodeFloat_cases ht (Nat.mod_lt b (Nat.two_pow_pos _)) (by rw [hmod]; exact FVal.noConfusion)
  rw [hmod] at hn
  rcases hn with ⟨p, m', e', hp, hb, heq, hv⟩ | ⟨-, heq⟩
  · cases heq
    exact ⟨p, hp, hv, fun hlt => (Nat.mod_eq_of_lt hlt).symm.trans hb⟩
  · cases heq

end

/-! ### Rounding to the neighbours of a value (R131) -/

/-- A mode rounds x, between the neighbours lo and hi of which the lower has number p, to the upper one. -/
def RoundsUp (mode : Rnd) (neg : Bool) (p : Nat) (lo x hi : ℝ) : Prop :=
  match mode with
  | .rz => False
  | .rdn => neg = true ∧ lo < x
  | .rup => neg = false ∧ lo < x
  | .rna => lo + hi ≤ 2 * x
  | .rne => lo + hi < 2 * x ∨ lo + hi = 2 * x ∧ p % 2 = 1

theorem roundsUp_mul {mode : Rnd} {neg : Bool} {p : Nat} {lo x hi c : ℝ} (hc : 0 < c) :
    RoundsUp mode neg p (lo * c) (x * c) (hi * c) ↔ RoundsUp mode neg p lo x hi := by
  have hlt : lo * c < x * c ↔ lo < x := mul_lt_mul_iff_left₀ hc
  have hsum : lo * c + hi * c = (lo + hi) * c := by ring
  have htwo : 2 * (x * c) = 2 * x * c := by ring
  cases mode <;> simp only [RoundsUp, hlt, hsum, htwo, mul_le_mul_iff_left₀ hc, mul_lt_mul_iff_left₀ hc, mul_left_inj' hc.ne']

theorem roundsUp_congr {mode : Rnd} {neg : Bool} {p q : Nat} {lo x hi : ℝ} (h : p % 2 = q % 2) : RoundsUp mode neg p lo x hi ↔ RoundsUp mode neg q lo x hi := by
  cases mode <;> simp only [RoundsUp, h]

/-- A value that is its lower neighbour stays. -/
theorem not_roundsUp_self {mode : Rnd} {neg : Bool} {p : Nat} {lo hi : ℝ} (h : lo < hi) : ¬RoundsUp mode neg p lo lo hi := by
  cases mode with
  | rz => exact id
  | rdn => exact fun hup => lt_irrefl _ hup.2
  | rup => exact fun hup => lt_irrefl _ hup.2
  | rna => exact fun hup => h.not_ge (by simpa [RoundsUp, two_mul] using hup)
  | rne => exact fun hup => h.not_ge (hup.elim (fun h => by linarith) fun h => by linarith [h.1])

/-- r is the number of the one of the two neighbours of x that a mode rounds it to. -/
def RoundedTo (mode : Rnd) (neg : Bool) (p : Nat) (lo x hi : ℝ) (r : Nat) : Prop :=
  RoundsUp mode neg p lo x hi ∧ r = p + 1 ∨ ¬RoundsUp mode neg p lo x hi ∧ r = p

theorem roundShift_spec (mode : Rnd) (neg : Bool) (m k : Nat) :
    RoundedTo mode neg (m / 2 ^ k) ((m / 2 ^ k : Nat) * 2 ^ k) m (((m / 2 ^ k : Nat) + 1) * 2 ^ k) (roundShift mode neg m k) := by
  have hm : (m : ℝ) = (m / 2 ^ k : Nat) * 2 ^ k + (m % 2 ^ k : Nat) := by exact_mod_cast (Nat.div_add_mod' m (2 ^ k)).symm
  have hlo : ((m / 2 ^ k : Nat) * 2 ^ k : ℝ) < m ↔ ¬m % 2 ^ k = 0 := by
    rw [← ne_eq, ← Nat.pos_iff_ne_zero, ← Nat.cast_pos (α := ℝ)]
    constructor <;> intro h <;> linarith
  have hmid : ((m / 2 ^ k : Nat) * 2 ^ k : ℝ) + ((m / 2 ^ k : Nat) + 1) * 2 ^ k = 2 * m - ((2 * (m % 2 ^ k) : Nat) - (2 ^ k : Nat)) := by
    push_cast
    linarith
  have hle : ((m / 2 ^ k : Nat) * 2 ^ k : ℝ) + ((m / 2 ^ k : Nat) + 1) * 2 ^ k ≤ 2 * m ↔ 2 ^ k ≤ 2 * (m % 2 ^ k) := by
    rw [hmid, sub_le_self_iff, sub_nonneg, Nat.cast_le]
  have hlt : ((m / 2 ^ k : Nat) * 2 ^ k : ℝ) + ((m / 2 ^ k : Nat) + 1) * 2 ^ k < 2 * m ↔ 2 ^ k < 2 * (m % 2 ^ k) := by
    rw [hmid, sub_lt_self_iff, sub_pos, Nat.cast_lt]
  have heq : ((m / 2 ^ k : Nat) * 2 ^ k : ℝ) + ((m / 2 ^ k : Nat) + 1) * 2 ^ k = 2 * m ↔ 2 * (m % 2 ^ k) = 2 ^ k := by
    rw [hmid, sub_eq_self, sub_eq_zero, Nat.cast_inj]
  have hpos := Nat.two_pow_pos k
  unfold RoundedTo roundShift
  by_cases hr : m % 2 ^ k = 0
  · cases mode <;> simp only [RoundsUp, hlo, hle, hlt, heq, hr] <;> simp [hpos.ne]
  · cases mode with
    | rz => simp [RoundsUp, hr]
    | rdn => cases neg <;> simp [RoundsUp, hlo, hr]
    | rup => cases neg <;> simp [RoundsUp, hlo, hr]
    | rna =>
      simp only [RoundsUp, hle, hr, if_false]
      split <;> simp_all
    | rne =>
      simp only [RoundsUp, hlt, heq, hr, if_false]
      split <;> simp_all

/-- A value at a unit is rounded to one of the two neighbours that are multiples of the unit. -/
theorem roundUnit_spec (mode : Rnd) (neg : Bool) (m : Nat) (e u : Int) : ∃ q : Nat, (q * (2 : ℝ) ^ u ≤ m * (2 : ℝ) ^ e) ∧ (m * (2 : ℝ) ^ e < (q + 1) * (2 : ℝ) ^ u) ∧
    RoundedTo mode neg q (q * (2 : ℝ) ^ u) (m * (2 : ℝ) ^ e) ((q + 1) * (2 : ℝ) ^ u) (roundUnit mode neg m e u) := by
  have hpos : ∀ x : Int, (0 : ℝ) < (2 : ℝ) ^ x := fun x => zpow_pos two_pos x
  unfold roundUnit
  split
  · next h =>
    have hq : ((m * 2 ^ (e - u).toNat : Nat) : ℝ) * (2 : ℝ) ^ u = m * (2 : ℝ) ^ e := by
      rw [Nat.cast_mul, Nat.cast_pow, Nat.cast_ofNat, mul_assoc, ← zpow_natCast, ← zpow_add₀ two_ne_zero, Int.toNat_of_nonneg (by omega), Int.sub_add_cancel]
    have hlt : m * (2 : ℝ) ^ e < ((m * 2 ^ (e - u).toNat : Nat) + 1) * (2 : ℝ) ^ u := by
      rw [← hq, add_mul, one_mul]
      exact lt_add_of_pos_right _ (hpos u)
    refine ⟨_, hq.le, hlt, .inr ⟨?_, rfl⟩⟩
    rw [hq]
    exact not_roundsUp_self hlt
  · next h =>
    have hu : (2 : ℝ) ^ (u - e).toNat * (2 : ℝ) ^ e = (2 : ℝ) ^ u := by
      rw [← zpow_natCast, ← zpow_add₀ two_ne_zero, Int.toNat_of_nonneg (by omega), Int.sub_add_cancel]
    have hspec := roundShift_spec mode neg m (u - e).toNat
    have hle := Nat.div_mul_le_self m (2 ^ (u - e).toNat)
    have hlt := Nat.lt_mul_div_succ m (Nat.two_pow_pos (u - e).toNat)
    rw [Nat.mul_comm] at hlt
    refine ⟨m / 2 ^ (u - e).toNat, ?_, ?_, ?_⟩
    · rw [← hu, ← mul_assoc]
      exact mul_le_mul_of_nonneg_right (by exact_mod_cast hle) (hpos e).le
    · rw [← hu, ← mul_assoc]
      exact mul_lt_mul_of_pos_right (by exact_mod_cast hlt) (hpos e)
    · rw [RoundedTo, ← hu, ← mul_assoc, ← mul_assoc, roundsUp_mul (hpos e)]
      exact hspec

/-- The leading bit of a mantissa says between which powers of two its value is. -/
theorem log2_bounds {m : Nat} (hm : m ≠ 0) (e : Int) : (2 : ℝ) ^ ((Nat.log2 m : Int) + e) ≤ m * (2 : ℝ) ^ e ∧ m * (2 : ℝ) ^ e < (2 : ℝ) ^ ((Nat.log2 m : Int) + e + 1) := by
  have hpos : (0 : ℝ) < (2 : ℝ) ^ e := zpow_pos two_pos e
  have hlo : (2 : ℝ) ^ Nat.log2 m ≤ m := by exact_mod_cast Nat.log2_self_le hm
  have hhi : (m : ℝ) < (2 : ℝ) ^ (Nat.log2 m + 1) := by exact_mod_cast Nat.lt_log2_self
  constructor
  · rw [zpow_add₀ two_ne_zero, zpow_natCast]
    exact mul_le_mul_of_nonneg_right hlo hpos.le
  · rw [Int.add_right_comm, zpow_add₀ two_ne_zero, ← Nat.cast_succ, zpow_natCast]
    exact mul_lt_mul_of_pos_right hhi hpos

/-- Two magnitudes that follow one another, at the exponent x above the lowest. -/
theorem magVal_eq {t : Ty} {x q : Nat} (hq : q ≤ 2 ^ (fracBits t + 1)) (h : x = 0 ∨ 2 ^ fracBits t ≤ q) :
    magVal t (x * 2 ^ fracBits t + q) = q * (2 : ℝ) ^ (x + unitOf t) := by
  rw [magVal, magnitude_eq hq h, zpow_add₀ two_ne_zero, zpow_natCast]
  push_cast
  ring

/-- A value of a float type, its sign apart, is rounded to one of the two magnitudes that it stands between; from the infinity's on it overflows. -/
theorem encodeFloat_spec {t : Ty} (ht : isFloat t = true) (mode : Rnd) (sat neg : Bool) (m : Nat) (e : Int) : ∃ p c, magVal t p ≤ m * (2 : ℝ) ^ e ∧ m * (2 : ℝ) ^ e < magVal t (p + 1) ∧
    RoundedTo mode neg p (magVal t p) (m * (2 : ℝ) ^ e) (magVal t (p + 1)) c ∧
    encodeFloat t mode sat (.fin neg m e) = if infCode t ≤ c then overflowed t mode neg sat else neg.toNat * signBit t + c := by
  obtain ⟨hfb, hfb', heb⟩ := fracBits_pos ht
  by_cases hm : m = 0
  · subst hm
    have hlt := magVal_strictMono t Nat.zero_lt_one
    have hself := not_roundsUp_self (mode := mode) (neg := neg) (p := 0) hlt
    rw [magVal_zero] at hlt hself
    refine ⟨0, 0, by rw [magVal_zero]; simp, by simpa using hlt, .inr ⟨by simpa [magVal_zero] using hself, rfl⟩, ?_⟩
    rw [if_neg (Nat.not_le.2 (signBit_even ht).2.2)]
    simp [encodeFloat, signBit]
  · obtain ⟨x, hx⟩ : ∃ x : Nat, max ((Nat.log2 m : Int) + e) (1 - (bias t : Int)) = x + 1 - bias t := by
      refine ⟨(max ((Nat.log2 m : Int) + e) (1 - (bias t : Int)) + bias t - 1).toNat, ?_⟩
      omega
    have hu : (x : Int) + 1 - bias t - fracBits t = x + unitOf t := by
      unfold unitOf
      ring
    obtain ⟨q, hlo, hhi, hround⟩ := roundUnit_spec mode neg m e (x + unitOf t)
    have hunit : (0 : ℝ) < (2 : ℝ) ^ ((x : Int) + unitOf t) := zpow_pos two_pos _
    obtain ⟨hge, hlt⟩ := log2_bounds hm e
    have hq : q < 2 ^ (fracBits t + 1) := by
      have htop : m * (2 : ℝ) ^ e < 2 ^ (fracBits t + 1) * (2 : ℝ) ^ ((x : Int) + unitOf t) := by
        rw [← zpow_natCast, ← zpow_add₀ two_ne_zero]
        refine hlt.trans_le (zpow_le_zpow_right₀ one_le_two ?_)
        push_cast
        omega
      exact_mod_cast lt_of_mul_lt_mul_right (hlo.trans_lt htop) hunit.le
    have hlead : x = 0 ∨ 2 ^ fracBits t ≤ q := by
      refine or_iff_not_imp_left.2 fun hx0 => Nat.lt_succ_iff.1 ?_
      have hbot : 2 ^ fracBits t * (2 : ℝ) ^ ((x : Int) + unitOf t) ≤ m * (2 : ℝ) ^ e := by
        rw [← zpow_natCast, ← zpow_add₀ two_ne_zero]
        refine (zpow_le_zpow_right₀ one_le_two ?_).trans hge
        omega
      exact_mod_cast lt_of_mul_lt_mul_right (hbot.trans_lt hhi) hunit.le
    have hp := magVal_eq (t := t) hq.le hlead
    have hp' : magVal t (x * 2 ^ fracBits t + q + 1) = (q + 1) * (2 : ℝ) ^ (x + unitOf t) := by
      rw [Nat.add_assoc, magVal_eq hq (hlead.imp_right fun h => h.trans (Nat.le_succ q))]
      push_cast
      rfl
    have hparity : (x * 2 ^ fracBits t + q) % 2 = q % 2 := by
      rw [← Nat.sub_add_cancel hfb, Nat.pow_succ, ← Nat.mul_assoc, Nat.mul_comm _ 2, Nat.mul_add_mod]
    refine ⟨x * 2 ^ fracBits t + q, x * 2 ^ fracBits t + roundUnit mode neg m e (x + unitOf t), hp ▸ hlo, hp' ▸ hhi, ?_, ?_⟩
    · rw [hp, hp', RoundedTo, roundsUp_congr hparity]
      exact hround.imp (And.imp_right fun h => by rw [h, Nat.add_assoc]) (And.imp_right fun h => by rw [h])
    · simp only [encodeFloat, if_neg hm, hx, hu, show ((x : Int) + 1 - bias t + bias t - 1).toNat = x by omega]
      rfl

end Sys2Proof.Machine
end


section
/-! PROOF of O26: the element operations (R114, R129, R131). -/

namespace Sys2Proof.Machine

open Sys2Proof

/-! ### The nearest magnitude -/

/-- c is the number of a magnitude that x is nearest to: x stands between the two points halfway to the neighbours. -/
def InCell (t : Ty) (c : Nat) (x : ℝ) : Prop := (c = 0 ∨ magVal t (c - 1) + magVal t c ≤ 2 * x) ∧ 2 * x ≤ magVal t c + magVal t (c + 1)

/-- No value of the type is nearer; one that is as near is the neighbour that x stands halfway to. -/
theorem InCell.near {t : Ty} {c : Nat} {x : ℝ} (h : InCell t c x) (hx : 0 ≤ x) {z : ℝ} {k : Nat} (hz : z = magVal t k ∨ z = -magVal t k) :
    |magVal t c - x| ≤ |z - x| ∧ (|magVal t c - x| = |z - x| → z ≠ magVal t c →
      0 < c ∧ magVal t (c - 1) + magVal t c = 2 * x ∧ |z| ≤ magVal t c ∨ 2 * x = magVal t c + magVal t (c + 1)) := by
  obtain ⟨hlo, hhi⟩ := h
  have hmono := magVal_strictMono t
  have hpos : ∀ k, |magVal t k| = magVal t k := fun k => abs_of_nonneg (magVal_nonneg t k)
  have hplus : ∀ k, |magVal t c - x| ≤ |magVal t k - x| ∧ (|magVal t c - x| = |magVal t k - x| → magVal t k ≠ magVal t c →
      0 < c ∧ magVal t (c - 1) + magVal t c = 2 * x ∧ |magVal t k| ≤ magVal t c ∨ 2 * x = magVal t c + magVal t (c + 1)) := by
    intro k
    rcases lt_trichotomy k c with hk | rfl | hk
    · have hc := hlo.resolve_left (Nat.ne_zero_of_lt hk)
      have hle : magVal t k ≤ magVal t (c - 1) := hmono.monotone (Nat.le_sub_one_of_lt hk)
      have hlt := hmono hk
      refine ⟨(abs_le.2 ⟨by linarith, by linarith⟩ : |magVal t c - x| ≤ x - magVal t k).trans (neg_sub (magVal t k) x ▸ neg_le_abs _), fun heq hne => .inl ?_⟩
      rcases abs_eq_abs.1 heq with h | h
      · exact absurd (sub_left_injective h).symm hne
      · exact ⟨Nat.zero_lt_of_lt hk, by linarith, by rw [hpos]; exact hlt.le⟩
    · exact ⟨le_rfl, fun _ hne => absurd rfl hne⟩
    · have hle : magVal t (c + 1) ≤ magVal t k := hmono.monotone hk
      have hlt := hmono hk
      refine ⟨(abs_le.2 ⟨by linarith, by linarith⟩ : |magVal t c - x| ≤ magVal t k - x).trans (le_abs_self _), fun heq hne => .inr ?_⟩
      rcases abs_eq_abs.1 heq with h | h
      · exact absurd (sub_left_injective h).symm hne
      · linarith
  rcases hz with rfl | rfl
  · exact hplus k
  · have hzero := (hplus 0).1
    have hk := magVal_nonneg t k
    rw [magVal_zero, zero_sub, abs_neg, abs_of_nonneg hx] at hzero
    have habs : |-magVal t k - x| = magVal t k + x := by rw [← neg_add', abs_neg, abs_of_nonneg (add_nonneg hk hx)]
    refine ⟨by rw [habs]; linarith, fun heq hne => ?_⟩
    have hk0 : -magVal t k = magVal t 0 := by
      rw [magVal_zero]
      linarith
    rw [hk0] at heq hne ⊢
    exact (hplus 0).2 heq hne

/-- What rounding to the nearest gives: on a tie the even one or the upper one. -/
theorem RoundedTo.inCell {t : Ty} {mode : Rnd} {neg : Bool} {p c : Nat} {x : ℝ} (hlo : magVal t p ≤ x) (hhi : x < magVal t (p + 1))
    (h : RoundedTo mode neg p (magVal t p) x (magVal t (p + 1)) c) (hmode : mode = .rne ∨ mode = .rna) :
    InCell t c x ∧ (magVal t (c - 1) + magVal t c = 2 * x → 0 < c → mode = .rna ∨ c % 2 = 0) ∧ (2 * x = magVal t c + magVal t (c + 1) → mode = .rne ∧ c % 2 = 0) := by
  have hmono := magVal_strictMono t
  have hbelow : p ≠ 0 → magVal t (p - 1) < magVal t p := fun h => hmono (Nat.sub_one_lt h)
  have habove : magVal t (p + 1) < magVal t (p + 1 + 1) := hmono (Nat.lt_succ_self _)
  rcases h with ⟨hup, rfl⟩ | ⟨hup, rfl⟩
  · have hmid : magVal t p + magVal t (p + 1) ≤ 2 * x := by
      rcases hmode with rfl | rfl
      · exact hup.elim le_of_lt fun h => h.1.le
      · exact hup
    refine ⟨⟨.inr hmid, by linarith⟩, fun heq _ => ?_, fun heq => by linarith⟩
    rcases hmode with rfl | rfl
    · rcases hup with h | ⟨-, hodd⟩
      · exact absurd heq h.ne
      · exact .inr (by omega)
    · exact .inl rfl
  · have hmid : 2 * x ≤ magVal t c + magVal t (c + 1) := by
      rcases hmode with rfl | rfl
      · exact not_lt.1 fun h => hup (.inl h)
      · exact (not_le.1 hup).le
    refine ⟨⟨(eq_or_ne c 0).imp_right fun h => by linarith [hbelow h], hmid⟩, fun heq h0 => ?_, fun heq => ?_⟩
    · exact absurd heq (by linarith [hbelow h0.ne'])
    · rcases hmode with rfl | rfl
      · refine ⟨rfl, ?_⟩
        have hodd : ¬c % 2 = 1 := fun h => hup (.inr ⟨heq.symm, h⟩)
        omega
      · exact absurd heq.ge hup

/-! ### Values at a common unit -/

theorem sizeAt_cast {m : Nat} {e u : Int} (h : u ≤ e) : (sizeAt m e u : ℝ) = m * (2 : ℝ) ^ e * (2 : ℝ) ^ (-u) := by
  rw [sizeAt, Nat.cast_mul, Nat.cast_pow, Nat.cast_ofNat, ← zpow_natCast, Int.toNat_of_nonneg (by omega), mul_assoc, ← zpow_add₀ two_ne_zero, Int.sub_eq_add_neg]

theorem sAt_cast {neg : Bool} {m : Nat} {e u : Int} (h : u ≤ e) : (sAt neg m e u : ℝ) = sgn neg * (m * (2 : ℝ) ^ e) * (2 : ℝ) ^ (-u) := by
  have hsize := sizeAt_cast (m := m) h
  rw [sizeAt] at hsize
  rw [sAt, sgn, Int.cast_mul, Int.cast_natCast, hsize]
  split <;> simp [mul_assoc]

theorem sizeAt_le_sizeAt {m n : Nat} {e f u : Int} (he : u ≤ e) (hf : u ≤ f) : sizeAt m e u ≤ sizeAt n f u ↔ m * (2 : ℝ) ^ e ≤ n * (2 : ℝ) ^ f := by
  rw [← Nat.cast_le (α := ℝ), sizeAt_cast he, sizeAt_cast hf, mul_le_mul_iff_left₀ (zpow_pos two_pos _)]

theorem sizeAt_lt_sizeAt {m n : Nat} {e f u : Int} (he : u ≤ e) (hf : u ≤ f) : sizeAt m e u < sizeAt n f u ↔ m * (2 : ℝ) ^ e < n * (2 : ℝ) ^ f := by
  rw [← not_le, ← not_le, sizeAt_le_sizeAt hf he]

theorem sAt_lt_sAt {a b : Bool} {m n : Nat} {e f u : Int} (he : u ≤ e) (hf : u ≤ f) : sAt a m e u < sAt b n f u ↔
    sgn a * (m * (2 : ℝ) ^ e) < sgn b * (n * (2 : ℝ) ^ f) := by
  rw [← Int.cast_lt (R := ℝ), sAt_cast he, sAt_cast hf, mul_lt_mul_iff_left₀ (zpow_pos two_pos _)]

theorem sAt_eq_sAt {a b : Bool} {m n : Nat} {e f u : Int} (he : u ≤ e) (hf : u ≤ f) : sAt a m e u = sAt b n f u ↔
    sgn a * (m * (2 : ℝ) ^ e) = sgn b * (n * (2 : ℝ) ^ f) := by
  rw [← Int.cast_inj (α := ℝ), sAt_cast he, sAt_cast hf, mul_left_inj' (zpow_pos two_pos _).ne']

theorem sgn_mul_self (neg : Bool) (x : ℝ) : sgn neg * (sgn neg * x) = x := by cases neg <;> simp [sgn]

theorem abs_sgn_mul (neg : Bool) (x : ℝ) : |sgn neg * x| = |x| := by cases neg <;> simp [sgn]

/-- How far a value is from a nonnegative one with a sign, with the sign taken off. -/
theorem natAbs_sAt_sub {a b : Bool} {m n : Nat} {e f u : Int} (he : u ≤ e) (hf : u ≤ f) :
    ((sAt a m e u - sAt b n f u).natAbs : ℝ) = |sgn b * (sgn a * (m * (2 : ℝ) ^ e)) - n * (2 : ℝ) ^ f| * (2 : ℝ) ^ (-u) := by
  have hpos : (0 : ℝ) < (2 : ℝ) ^ (-u) := zpow_pos two_pos _
  have hsgn : sgn b * (sgn a * (m * (2 : ℝ) ^ e)) - n * (2 : ℝ) ^ f = sgn b * (sgn a * (m * (2 : ℝ) ^ e) - sgn b * (n * (2 : ℝ) ^ f)) := by
    rw [mul_sub, sgn_mul_self]
  rw [Nat.cast_natAbs, Int.cast_abs, Int.cast_sub, sAt_cast he, sAt_cast hf, ← sub_mul, abs_mul, abs_of_pos hpos, hsgn, abs_sgn_mul]

/-! ### The largest finite value and the point halfway beyond it -/

/-- Halfway between the largest finite value and the one that would follow it. -/
noncomputable def halfBeyond (t : Ty) : ℝ := (2 ^ (fracBits t + 2) - 1 : ℝ) * (2 : ℝ) ^ ((2 ^ expBits t : Nat) - 3 - bias t - fracBits t : ℤ)

theorem magVal_infCode {t : Ty} (ht : isFloat t = true) : magVal t (infCode t - 1) + magVal t (infCode t) = 2 * halfBeyond t := by
  obtain ⟨hfb, -, heb⟩ := fracBits_pos ht
  have hfour : 2 ^ 2 ≤ 2 ^ expBits t := Nat.pow_le_pow_right Nat.two_pos heb
  obtain ⟨x, hx⟩ : ∃ x, 2 ^ expBits t = x + 3 := ⟨2 ^ expBits t - 3, by omega⟩
  have hpos := Nat.two_pow_pos (fracBits t)
  have hinf : infCode t = x * 2 ^ fracBits t + 2 ^ (fracBits t + 1) := by
    rw [infCode, hx, Nat.pow_succ, show x + 3 - 1 = x + 2 by omega, Nat.add_mul, Nat.mul_comm 2]
  have hlast : infCode t - 1 = x * 2 ^ fracBits t + (2 ^ (fracBits t + 1) - 1) := by
    rw [hinf, Nat.add_sub_assoc (Nat.two_pow_pos _)]
  have hexp : ((2 ^ expBits t : Nat) : Int) - 3 - bias t - fracBits t + 1 = x + unitOf t := by
    rw [hx, unitOf]
    push_cast
    ring
  rw [hlast, hinf, magVal_eq le_rfl (.inr (by rw [Nat.pow_succ]; omega)), magVal_eq (Nat.sub_le _ _) (.inr (by rw [Nat.pow_succ]; omega)), halfBeyond, ← hexp,
    zpow_add_one₀ two_ne_zero, Nat.cast_sub (Nat.two_pow_pos _)]
  push_cast
  ring

/-- Rounding to the nearest goes to the infinity from halfway beyond the largest on. -/
theorem InCell.infCode_le {t : Ty} (ht : isFloat t = true) {c : Nat} {x : ℝ} (h : InCell t c x) (heven : 2 * x = magVal t c + magVal t (c + 1) → c % 2 = 0) :
    infCode t ≤ c ↔ halfBeyond t ≤ x := by
  have hinf := magVal_infCode ht
  obtain ⟨-, hpar, hpos⟩ := signBit_even ht
  have hmono := (magVal_strictMono t).monotone
  obtain ⟨hlo, hhi⟩ := h
  constructor
  · intro hc
    have h1 := hmono hc
    have h2 := hmono (Nat.sub_le_sub_right hc 1)
    have h3 := hlo.resolve_left (by omega)
    linarith
  · intro hx
    by_contra hc
    have hc' := Nat.lt_of_not_le hc
    have h1 : magVal t (c + 1) ≤ magVal t (infCode t) := hmono hc'
    have h2 : magVal t c ≤ magVal t (infCode t - 1) := hmono (Nat.le_sub_one_of_lt hc')
    have heq : magVal t c = magVal t (infCode t - 1) := by linarith
    have hcode := (magVal_strictMono t).injective heq
    have := heven (by linarith)
    omega

/-! ### The five modes (R131) -/

section
variable {t : Ty} (ht : isFloat t = true)
include ht

theorem sign_lt (neg : Bool) {c : Nat} (hc : c < infCode t) : neg.toNat * signBit t + c < 2 ^ tyBits t := by
  have h := infCode_lt ht
  rw [two_mul_signBit ht]
  cases neg <;> simp <;> omega

/-- Rounding to the nearest, in either of the two modes. -/
theorem nearest_of_inCell {mode : Rnd} {neg : Bool} {m c r : Nat} {e : Int} (hcell : InCell t c (m * (2 : ℝ) ^ e)) (hmode : mode = .rne ∨ mode = .rna)
    (hlow : magVal t (c - 1) + magVal t c = 2 * (m * (2 : ℝ) ^ e) → 0 < c → mode = .rna ∨ c % 2 = 0)
    (hhigh : 2 * (m * (2 : ℝ) ^ e) = magVal t c + magVal t (c + 1) → mode = .rne ∧ c % 2 = 0)
    (hr : r = if infCode t ≤ c then infBits t neg else neg.toNat * signBit t + c) : Nearest t (mode == .rna) neg m e r := by
  have hbeyond : (∃ u, u ≤ e ∧ u ≤ ((2 ^ expBits t : Nat) : Int) - 3 - bias t - fracBits t ∧
      (2 ^ (fracBits t + 2) - 1) * 2 ^ (((2 ^ expBits t : Nat) : Int) - 3 - bias t - fracBits t - u).toNat ≤ sizeAt m e u) ↔ infCode t ≤ c := by
    have hhalf : ((2 ^ (fracBits t + 2) - 1 : Nat) : ℝ) * (2 : ℝ) ^ (((2 ^ expBits t : Nat) : Int) - 3 - bias t - fracBits t) = halfBeyond t := by
      rw [halfBeyond, Nat.cast_sub (Nat.two_pow_pos _)]
      push_cast
      rfl
    rw [hcell.infCode_le ht fun h => (hhigh h).2, ← hhalf]
    constructor
    · rintro ⟨u, hue, huh, hle⟩
      exact (sizeAt_le_sizeAt huh hue).1 hle
    · intro hle
      exact ⟨_, min_le_left _ _, min_le_right _ _, (sizeAt_le_sizeAt (min_le_right _ _) (min_le_left _ _)).2 hle⟩
  refine ⟨fun h => by rw [hr, if_pos (hbeyond.1 h)], fun h => ?_⟩
  have hc : c < infCode t := Nat.lt_of_not_le fun hle => h (hbeyond.2 hle)
  rw [if_neg (Nat.not_le.2 hc)] at hr
  obtain ⟨n, f, hd, hv⟩ := decodeFloat_finite ht neg hc
  refine ⟨hr ▸ sign_lt ht neg hc, n, f, hr ▸ hd, fun d a k g u _ hdk hue huf hug => ?_⟩
  obtain ⟨j, -, hj, -⟩ := decodeFloat_fin ht hdk
  have hz : sgn neg * (sgn a * (k * (2 : ℝ) ^ g)) = magVal t j ∨ sgn neg * (sgn a * (k * (2 : ℝ) ^ g)) = -magVal t j := by
    rw [hj]
    cases neg <;> cases a <;> simp [sgn]
  obtain ⟨hnear, htie⟩ := hcell.near (mul_nonneg (Nat.cast_nonneg m) (zpow_pos two_pos e).le) hz
  have hpos : (0 : ℝ) < (2 : ℝ) ^ (-u) := zpow_pos two_pos _
  have hfar := natAbs_sAt_sub (a := neg) (b := neg) (m := n) (n := m) huf hue
  have hfar' := natAbs_sAt_sub (a := a) (b := neg) (m := k) (n := m) hug hue
  rw [hv, sgn_mul_self] at hfar
  dsimp only
  rw [← Nat.cast_le (α := ℝ), ← Nat.cast_inj (R := ℝ), hfar, hfar', mul_le_mul_iff_left₀ hpos, mul_left_inj' hpos.ne', ne_eq, sAt_eq_sAt huf hug, hv]
  refine ⟨hnear, fun heq hne => ?_⟩
  have hne' : sgn neg * (sgn a * (k * (2 : ℝ) ^ g)) ≠ magVal t c := fun h => hne (by rw [← h, sgn_mul_self])
  have heven : c % 2 = 0 → r % 2 = 0 := fun h => by
    have := (signBit_even ht).1
    rw [hr]
    cases neg <;> simp <;> omega
  rcases htie heq hne' with ⟨h0, hmid, hle⟩ | hmid
  · rw [abs_sgn_mul, abs_sgn_mul, hj, abs_of_nonneg (magVal_nonneg t j), ← hj, ← hv] at hle
    rcases hlow hmid h0 with rfl | h
    · exact (sizeAt_le_sizeAt hug huf).2 hle
    · rcases hmode with rfl | rfl
      · exact heven h
      · exact (sizeAt_le_sizeAt hug huf).2 hle
  · obtain ⟨rfl, h⟩ := hhigh hmid
    exact heven h

/-- Rounding toward 0: the magnitude below, or the largest finite one. -/
theorem inward_of_le {neg : Bool} {m p r : Nat} {e : Int} (hlo : magVal t p ≤ m * (2 : ℝ) ^ e) (hhi : m * (2 : ℝ) ^ e < magVal t (p + 1))
    (hr : r = neg.toNat * signBit t + min p (infCode t - 1)) : Inward t neg m e r := by
  have hpos := (signBit_even ht).2.2
  have hmono := magVal_strictMono t
  have hc : min p (infCode t - 1) < infCode t := (Nat.min_le_right _ _).trans_lt (Nat.sub_one_lt hpos.ne')
  obtain ⟨n, f, hd, hv⟩ := decodeFloat_finite ht neg hc
  refine ⟨hr ▸ sign_lt ht neg hc, n, f, hr ▸ hd, fun u hue huf => ?_, fun d a k g u hdk hue huf hug hle => ?_⟩
  · rw [sizeAt_le_sizeAt huf hue, hv]
    exact (hmono.monotone (Nat.min_le_left _ _)).trans hlo
  · obtain ⟨j, hj, hjv, -⟩ := decodeFloat_fin ht hdk
    rw [sizeAt_le_sizeAt hug hue, hjv] at hle
    rw [sizeAt_le_sizeAt hug huf, hjv, hv]
    have hjp : j < p + 1 := hmono.lt_iff_lt.1 (hle.trans_lt hhi)
    exact hmono.monotone (by omega)

/-- Rounding away from 0: the value itself or the magnitude above, or the infinity. -/
theorem outward_of_le {neg : Bool} {m c r : Nat} {e : Int} (hle : m * (2 : ℝ) ^ e ≤ magVal t c) (hleast : ∀ j, m * (2 : ℝ) ^ e ≤ magVal t j → c ≤ j)
    (hr : r = if infCode t ≤ c then infBits t neg else neg.toNat * signBit t + c) : Outward t neg m e r := by
  by_cases hc : infCode t ≤ c
  · refine .inl ⟨by rw [hr, if_pos hc], fun d a k g u hdk hue hug => ?_⟩
    obtain ⟨j, hj, hjv, -⟩ := decodeFloat_fin ht hdk
    rw [sizeAt_lt_sizeAt hug hue, hjv]
    exact not_le.1 fun h => absurd (hleast j h) (by omega)
  · rw [if_neg hc] at hr
    obtain ⟨n, f, hd, hv⟩ := decodeFloat_finite ht neg (Nat.lt_of_not_le hc)
    refine .inr ⟨hr ▸ sign_lt ht neg (Nat.lt_of_not_le hc), n, f, hr ▸ hd, fun u hue huf => ?_, fun d a k g u hdk hue huf hug h => ?_⟩
    · rwa [sizeAt_le_sizeAt hue huf, hv]
    · obtain ⟨j, hj, hjv, -⟩ := decodeFloat_fin ht hdk
      rw [sizeAt_le_sizeAt hue hug, hjv] at h
      rw [sizeAt_le_sizeAt huf hug, hjv, hv]
      exact (magVal_strictMono t).monotone (hleast j h)

omit ht in
theorem infBits_sub_one (hpos : 0 < infCode t) (neg : Bool) : infBits t neg - 1 = neg.toNat * signBit t + (infCode t - 1) := by
  rw [infBits_eq, Nat.add_sub_assoc hpos]

/-- A finite value is rounded to a value of the type as its mode says. -/
theorem encodeFloat_rounded (mode : Rnd) (neg : Bool) (m : Nat) (e : Int) : Rounded t mode neg m e (encodeFloat t mode false (.fin neg m e)) := by
  have hpos := (signBit_even ht).2.2
  have hmono := magVal_strictMono t
  obtain ⟨p, c, hlo, hhi, hround, henc⟩ := encodeFloat_spec ht mode false neg m e
  have hcell := hround.inCell hlo hhi
  have hinward : ∀ r, r = (if infCode t ≤ p then infBits t neg - 1 else neg.toNat * signBit t + p) → Inward t neg m e r := fun r hr => by
    refine inward_of_le ht hlo hhi (hr.trans ?_)
    rw [infBits_sub_one hpos]
    split <;> congr 1 <;> omega
  have houtward : (magVal t p < m * (2 : ℝ) ^ e ∧ c = p + 1 ∨ ¬magVal t p < m * (2 : ℝ) ^ e ∧ c = p) →
      ∀ r, r = (if infCode t ≤ c then infBits t neg else neg.toNat * signBit t + c) → Outward t neg m e r := fun hc r hr => by
    refine outward_of_le ht (c := c) ?_ (fun j hj => ?_) hr
    · rcases hc with ⟨-, rfl⟩ | ⟨h, rfl⟩
      · exact hhi.le
      · exact not_lt.1 h
    · rcases hc with ⟨h, rfl⟩ | ⟨h, rfl⟩
      · exact hmono.lt_iff_lt.1 (h.trans_le hj)
      · exact hmono.le_iff_le.1 (hlo.trans hj)
  cases mode with
  | rne =>
    obtain ⟨hin, hlow, hhigh⟩ := hcell (.inl rfl)
    exact nearest_of_inCell ht hin (.inl rfl) hlow hhigh henc
  | rna =>
    obtain ⟨hin, hlow, hhigh⟩ := hcell (.inr rfl)
    exact nearest_of_inCell ht hin (.inr rfl) hlow hhigh henc
  | rz =>
    obtain rfl : c = p := hround.elim (fun h => h.1.elim) And.right
    exact hinward _ henc
  | rdn =>
    cases neg with
    | true => exact houtward (by simpa [RoundedTo, RoundsUp] using hround) _ henc
    | false =>
      obtain rfl : c = p := hround.elim (fun h => absurd h.1.1 Bool.false_ne_true) And.right
      exact hinward _ henc
  | rup =>
    cases neg with
    | true =>
      obtain rfl : c = p := hround.elim (fun h => absurd h.1.1.symm Bool.false_ne_true) And.right
      exact hinward _ henc
    | false => exact houtward (by simpa [RoundedTo, RoundsUp] using hround) _ henc

/-- A pattern that is no NaN is its own rounding. -/
theorem encodeFloat_decodeFloat (mode : Rnd) (sat : Bool) {b : Nat} (hb : b < 2 ^ tyBits t) (hn : decodeFloat t b ≠ .nan) : encodeFloat t mode sat (decodeFloat t b) = b := by
  obtain ⟨neg, ⟨k, m, e, hk, rfl, hd, hv⟩ | ⟨rfl, hd⟩⟩ := decodeFloat_cases ht hb hn
  · obtain ⟨p, c, hlo, hhi, hround, henc⟩ := encodeFloat_spec ht mode sat neg m e
    have hmono := magVal_strictMono t
    rw [hv] at hlo hhi hround
    obtain rfl : p = k := by
      have h1 := hmono.le_iff_le.1 hlo
      have h2 := hmono.lt_iff_lt.1 hhi
      omega
    obtain rfl : c = p := hround.elim (fun h => absurd h.1 (not_roundsUp_self hhi)) And.right
    rw [hd, henc, if_neg (Nat.not_le.2 hk)]
  · rw [hd]
    rfl

end

/-! ### Integer types -/

/-- The value of an integer pattern is the pattern modulo its width. -/
theorem intOf_emod (t : Ty) (x : Nat) : intOf t x % 2 ^ tyBits t = (x : Int) % 2 ^ tyBits t := by
  unfold intOf
  split
  · next h =>
    subst h
    simp [tyBits]
  · unfold signed
    have hcast : ((x % 2 ^ tyBits t : Nat) : Int) = (x : Int) % 2 ^ tyBits t := by push_cast; rfl
    split
    · rw [hcast, Int.emod_emod]
    · rw [hcast, Int.sub_emod_right, Int.emod_emod]

theorem toPattern_cast (t : Ty) (x : Int) : (toPattern t x : Int) = x % 2 ^ tyBits t :=
  Int.toNat_of_nonneg (Int.emod_nonneg _ (Int.pow_pos (by decide)).ne')

/-- A difference and what was taken off make up the first pattern again. -/
theorem toPattern_sub_add (t : Ty) (x y : Nat) : (toPattern t (intOf t x - intOf t y) + y) % 2 ^ tyBits t = x % 2 ^ tyBits t := by
  zify
  rw [toPattern_cast, Int.emod_add_emod, ← Int.add_emod_emod, ← intOf_emod, Int.add_emod_emod, Int.sub_add_cancel, intOf_emod]

/-! ### Exact sums and products of float values -/

theorem sAt_scale {neg : Bool} {m : Nat} {e u w : Int} (hu : u ≤ e) (hw : w ≤ u) : sAt neg m e w = sAt neg m e u * 2 ^ (u - w).toNat := by
  rw [sAt, sAt, show (e - w).toNat = (e - u).toNat + (u - w).toNat by omega, Nat.pow_add, ← Nat.mul_assoc]
  push_cast
  ring

/-- The sum of two finite values is exact, and a sum of 0 is −0 only of two negative ones. -/
theorem FVal.add_fin (a : Bool) (m : Nat) (e : Int) (b : Bool) (n : Nat) (f : Int) : ∃ p k u, (FVal.fin a m e).add (.fin b n f) = .fin p k u ∧ (k = 0 → p = (a && b)) ∧
    ∀ w, w ≤ u → w ≤ e → w ≤ f → sAt p k u w = sAt a m e w + sAt b n f w := by
  have hscale : ∀ w, w ≤ min e f → sAt a m e w + sAt b n f w = (sAt a m e (min e f) + sAt b n f (min e f)) * 2 ^ (min e f - w).toNat := fun w hw => by
    rw [sAt_scale (min_le_left e f) hw, sAt_scale (min_le_right e f) hw, Int.add_mul]
  rw [FVal.add]
  generalize sAt a m e (min e f) + sAt b n f (min e f) = x at hscale ⊢
  split
  · next hx =>
    refine ⟨_, _, _, rfl, fun _ => rfl, fun w hw _ _ => ?_⟩
    rw [hscale w hw, hx]
    simp [sAt]
  · next hx =>
    refine ⟨_, _, _, rfl, fun h => absurd (Int.natAbs_eq_zero.1 h) hx, fun w hw _ _ => ?_⟩
    have hsign : (if decide (x < 0) = true then (-1 : Int) else 1) * x.natAbs = x := by
      by_cases h : x < 0
      · simp only [h, decide_true, if_true]
        omega
      · simp only [h, decide_false, Bool.false_eq_true, if_false]
        omega
    rw [hscale w hw, sAt, Nat.cast_mul, ← Int.mul_assoc, hsign]
    push_cast
    rfl

theorem FVal.mul_fin (a : Bool) (m : Nat) (e : Int) (b : Bool) (n : Nat) (f : Int) : (FVal.fin a m e).mul (.fin b n f) = .fin (a != b) (m * n) (e + f) := by
  cases a <;> cases b <;> rfl

@[simp] theorem FVal.nan_add (x : FVal) : FVal.nan.add x = .nan := by cases x <;> rfl
@[simp] theorem FVal.add_nan (x : FVal) : x.add .nan = .nan := by cases x <;> rfl
@[simp] theorem FVal.nan_mul (x : FVal) : FVal.nan.mul x = .nan := by cases x <;> rfl
@[simp] theorem FVal.mul_nan (x : FVal) : x.mul .nan = .nan := by cases x <;> rfl

/-- An infinity is the sum with anything but a NaN and the other infinity. -/
theorem FVal.inf_add (p : Bool) (x : FVal) : (FVal.inf p).add x = if x = .nan ∨ x = .inf (!p) then .nan else .inf p := by
  cases x with
  | nan => rfl
  | inf b => cases p <;> cases b <;> rfl
  | fin b n f => simp [FVal.add]

/-- A product with an infinity is a NaN or an infinity. -/
theorem FVal.mul_inf_cases {x y : FVal} {a : Bool} (h : x = .inf a ∨ y = .inf a) : x.mul y = .nan ∨ ∃ p, x.mul y = .inf p := by
  rcases h with rfl | rfl
  · cases y with
    | nan => exact .inl rfl
    | inf b => exact .inr ⟨_, rfl⟩
    | fin b n f =>
      rw [FVal.mul]
      split
      · exact .inl rfl
      · exact .inr ⟨_, rfl⟩
  · cases x with
    | nan => exact .inl rfl
    | inf b => exact .inr ⟨_, rfl⟩
    | fin b n f =>
      rw [FVal.mul]
      split
      · exact .inl rfl
      · exact .inr ⟨_, rfl⟩

/-! ### The sign of a pattern -/

theorem xor_two_pow {p k : Nat} (h : p < 2 ^ k) : p ^^^ 2 ^ k = 2 ^ k + p := by
  refine Nat.eq_of_testBit_eq fun i => ?_
  rw [Nat.testBit_xor, Nat.testBit_two_pow]
  rcases lt_trichotomy i k with hi | rfl | hi
  · rw [Nat.testBit_two_pow_add_gt hi, decide_eq_false hi.ne', Bool.xor_false]
  · rw [Nat.testBit_two_pow_add_eq, decide_eq_true rfl, Bool.xor_true]
  · have hlt : 2 ^ k + p < 2 ^ i := by
      have := Nat.pow_le_pow_right Nat.two_pos (Nat.succ_le_of_lt hi)
      rw [Nat.pow_succ] at this
      omega
    rw [Nat.testBit_lt_two_pow hlt, Nat.testBit_lt_two_pow (by omega), decide_eq_false hi.ne]
    rfl

section
variable {t : Ty} (ht : isFloat t = true)
include ht

/-- The sign bit turned over gives the value with the other sign. -/
theorem decodeFloat_xor_signBit {y : Nat} (hy : y < 2 ^ tyBits t) : decodeFloat t (y ^^^ signBit t) = (decodeFloat t y).neg := by
  obtain ⟨neg, p, hp, rfl⟩ := exists_sign ht hy
  have hxor : (neg.toNat * signBit t + p) ^^^ signBit t = (!neg).toNat * signBit t + p := by
    have h := xor_two_pow hp
    rw [← signBit] at h
    cases neg with
    | false => simpa using h
    | true => simp [← h]
  rw [hxor, decodeFloat_sign _ hp, decodeFloat_sign _ hp]
  split
  · split <;> rfl
  · split <;> rfl

theorem cnan_ne_infBits (p : Bool) : cnan t ≠ infBits t p := by
  rcases isFloat_cases ht with rfl | rfl | rfl <;> revert p <;> decide

theorem infBits_injective {p q : Bool} (h : infBits t p = infBits t q) : p = q := by
  have hp := decodeFloat_infBits ht p
  rw [h, decodeFloat_infBits ht q] at hp
  exact (FVal.inf.inj hp).symm

omit ht in
theorem isNan_eq_false {v : FVal} : v.isNan = false ↔ v ≠ .nan := by cases v <;> simp [FVal.isNan]

end

/-! ### The order of values (R129) -/

theorem less_fin {a b : Bool} {m n : Nat} {e f : Int} : Less (.fin a m e) (.fin b n f) ↔ sgn a * (m * (2 : ℝ) ^ e) < sgn b * (n * (2 : ℝ) ^ f) := by
  constructor
  · rintro ⟨u, he, hf, h⟩
    exact (sAt_lt_sAt he hf).1 h
  · intro h
    exact ⟨_, min_le_left _ _, min_le_right _ _, (sAt_lt_sAt (min_le_left _ _) (min_le_right _ _)).2 h⟩

/-- The order of two finite values goes by the real numbers that they stand for. -/
theorem FVal.order_fin (a : Bool) (m : Nat) (e : Int) (b : Bool) (n : Nat) (f : Int) :
    ((FVal.fin a m e).order (.fin b n f) < 0 ↔ sgn a * (m * (2 : ℝ) ^ e) < sgn b * (n * (2 : ℝ) ^ f)) ∧
    (0 < (FVal.fin a m e).order (.fin b n f) ↔ sgn b * (n * (2 : ℝ) ^ f) < sgn a * (m * (2 : ℝ) ^ e)) := by
  have he := min_le_left e f
  have hf := min_le_right e f
  rw [FVal.order, ← sAt_lt_sAt he hf, ← sAt_lt_sAt hf he, Int.sign_neg_iff, Int.sign_pos_iff, sub_neg, sub_pos]
  exact ⟨Iff.rfl, Iff.rfl⟩

/-- Where a value stands below another, the comparisons of VMIN and VMAX say so. -/
theorem Below.order {p q : FVal} (h : Below p q) : p.isNan = false ∧ q.isNan = false ∧
    (p.order q < 0 ∧ 0 < q.order p ∨ p.order q = 0 ∧ q.order p = 0 ∧ p.isNeg = true ∧ q.isNeg = false) := by
  rcases h with h | ⟨e, f, rfl, rfl⟩
  · cases p with
    | nan => cases q <;> exact h.elim
    | inf a =>
      cases q with
      | nan => exact h.elim
      | inf b =>
        obtain ⟨rfl, rfl⟩ := h
        exact ⟨rfl, rfl, .inl (by decide)⟩
      | fin b n f =>
        obtain rfl : a = true := h
        exact ⟨rfl, rfl, .inl ⟨(by decide : (-1 : Int) < 0), (by decide : (0 : Int) < 1)⟩⟩
    | fin a m e =>
      cases q with
      | nan => exact h.elim
      | inf b =>
        obtain rfl : b = false := h
        exact ⟨rfl, rfl, .inl ⟨(by decide : (-1 : Int) < 0), (by decide : (0 : Int) < 1)⟩⟩
      | fin b n f =>
        have hlt := less_fin.1 h
        exact ⟨rfl, rfl, .inl ⟨(FVal.order_fin a m e b n f).1.2 hlt, (FVal.order_fin b n f a m e).2.2 hlt⟩⟩
  · exact ⟨rfl, rfl, .inr (by simp [FVal.order, sAt, FVal.isNeg])⟩

section
variable {t : Ty} (ht : isFloat t = true)
include ht

/-- The minimum and the maximum of two patterns of which one stands below the other. -/
theorem minAt_maxAt_of_below {x y : Nat} (h : Below (decodeFloat t x) (decodeFloat t y)) : minAt t x y = x ∧ minAt t y x = x ∧ maxAt t x y = y ∧ maxAt t y x = y := by
  obtain ⟨hx, hy, ⟨hlt, hgt⟩ | ⟨hxy, hyx, hneg, hneg'⟩⟩ := h.order
  · simp [minAt, maxAt, ht, hx, hy, hlt, hlt.ne, hgt.ne', not_lt.2 hgt.le]
  · simp [minAt, maxAt, ht, hx, hy, hxy, hyx, hneg, hneg']

theorem minAt_maxAt_self {x : Nat} (hx : decodeFloat t x ≠ .nan) : minAt t x x = x ∧ maxAt t x x = x := by
  simp [minAt, maxAt, ht, isNan_eq_false.2 hx]

/-- Of two patterns that are no NaN one stands below the other, or they are the same. -/
theorem below_total {x y : Nat} (hx : x < 2 ^ tyBits t) (hy : y < 2 ^ tyBits t) (hxn : decodeFloat t x ≠ .nan) (hyn : decodeFloat t y ≠ .nan) :
    Below (decodeFloat t x) (decodeFloat t y) ∨ Below (decodeFloat t y) (decodeFloat t x) ∨ x = y := by
  obtain ⟨a, ⟨j, m, e, -, hxe, hxd, hxv⟩ | ⟨hxe, hxd⟩⟩ := decodeFloat_cases ht hx hxn <;>
  obtain ⟨b, ⟨k, n, f, -, hye, hyd, hyv⟩ | ⟨hye, hyd⟩⟩ := decodeFloat_cases ht hy hyn <;> rw [hxd, hyd]
  · rcases lt_trichotomy (sgn a * (m * (2 : ℝ) ^ e)) (sgn b * (n * (2 : ℝ) ^ f)) with h | h | h
    · exact .inl (.inl (less_fin.2 h))
    · rw [hxv, hyv] at h
      have hj := magVal_nonneg t j
      have hk := magVal_nonneg t k
      have hsame : a = b → x = y := by
        rintro rfl
        have hv : magVal t j = magVal t k := by rw [← sgn_mul_self a (magVal t j), h, sgn_mul_self]
        rw [hxe, hye, (magVal_strictMono t).injective hv]
      have hzero : ∀ {c : Nat} {i : Int} {v : ℝ}, (c : ℝ) * (2 : ℝ) ^ i = v → v = 0 → c = 0 := fun hv h0 => by
        exact_mod_cast (mul_eq_zero.1 (hv.trans h0)).resolve_right (zpow_pos two_pos _).ne'
      cases a <;> cases b
      · exact .inr (.inr (hsame rfl))
      · simp only [sgn, Bool.false_eq_true, if_false, if_true] at h
        rw [hzero hxv (by linarith), hzero hyv (by linarith)]
        exact .inr (.inl (.inr ⟨_, _, rfl, rfl⟩))
      · simp only [sgn, Bool.false_eq_true, if_false, if_true] at h
        rw [hzero hxv (by linarith), hzero hyv (by linarith)]
        exact .inl (.inr ⟨_, _, rfl, rfl⟩)
      · exact .inr (.inr (hsame rfl))
    · exact .inr (.inl (.inl (less_fin.2 h)))
  · cases b
    · exact .inl (.inl rfl)
    · exact .inr (.inl (.inl rfl))
  · cases a
    · exact .inr (.inl (.inl rfl))
    · exact .inl (.inl rfl)
  · cases a <;> cases b
    · exact .inr (.inr (hxe.trans hye.symm))
    · exact .inr (.inl (.inl ⟨rfl, rfl⟩))
    · exact .inl (.inl ⟨rfl, rfl⟩)
    · exact .inr (.inr (hxe.trans hye.symm))

/-! ### The operations -/

/-- Sums, products and fused sums of finite values. -/
theorem finite_operations {x y z : Nat} {a b : Bool} {m n : Nat} {e f : Int} (hx : decodeFloat t x = .fin a m e) (hy : decodeFloat t y = .fin b n f) :
    RoundedSum t a m e b n f (addAt t x y) ∧ mulAt t x y = encodeFloat t .rne false (.fin (a != b) (m * n) (e + f)) ∧
    (∀ c k g, decodeFloat t z = .fin c k g → RoundedSum t (a != b) (m * n) (e + f) c k g (fmaAt t x y z)) ∧
    ∀ c, decodeFloat t z = .inf c → fmaAt t x y z = infBits t c := by
  refine ⟨?_, by rw [mulAt, if_pos ht, hx, hy, FVal.mul_fin], fun c k g hz => ?_, fun c hz => ?_⟩
  · obtain ⟨p, k, u, hadd, hzero, hsum⟩ := FVal.add_fin a m e b n f
    exact ⟨p, k, u, by rw [addAt, if_pos ht, hx, hy, hadd], hzero, hsum⟩
  · obtain ⟨p, l, u, hadd, hzero, hsum⟩ := FVal.add_fin (a != b) (m * n) (e + f) c k g
    exact ⟨p, l, u, by rw [fmaAt, if_pos ht, hx, hy, hz, FVal.mul_fin, hadd], hzero, hsum⟩
  · rw [fmaAt, if_pos ht, hx, hy, hz, FVal.mul_fin]
    rfl

/-- A product with an infinity goes into a fused sum as the infinity or the NaN that it is. -/
theorem fmaAt_infinite {x y z : Nat} {a : Bool} (h : decodeFloat t x = .inf a ∨ decodeFloat t y = .inf a) :
    (mulAt t x y = cnan t → fmaAt t x y z = cnan t) ∧
      ∀ p, mulAt t x y = infBits t p → fmaAt t x y z = if decodeFloat t z = .nan ∨ decodeFloat t z = .inf (!p) then cnan t else infBits t p := by
  rw [mulAt, fmaAt, if_pos ht, if_pos ht]
  rcases FVal.mul_inf_cases h with hmul | ⟨q, hmul⟩ <;> rw [hmul]
  · exact ⟨fun _ => by rw [FVal.nan_add]; rfl, fun p hp => absurd hp (cnan_ne_infBits ht p)⟩
  · refine ⟨fun hq => absurd hq.symm (cnan_ne_infBits ht q), fun p hp => ?_⟩
    obtain rfl : q = p := infBits_injective ht hp
    rw [FVal.inf_add]
    split <;> rfl

end

/-- Settles O26: rounding is `encodeFloat_rounded` and `encodeFloat_decodeFloat`, and each operation is rounding of an exact result. -/
theorem elementArithmetic : Obligations.ElementArithmetic := by
  unfold Obligations.ElementArithmetic
  refine ⟨fun t x y z ht => ?_, fun t mode sat b ht hb hn => encodeFloat_decodeFloat ht mode sat hb hn, fun t mode neg m e ht => encodeFloat_rounded ht mode neg m e,
    fun t x y z ht => ⟨fun a m e b n f hx hy => finite_operations ht hx hy, fun hy => ?_, fun a b n f hx hy => ?_, fun a b hx hy => ?_,
      fun ⟨a, h⟩ => fmaAt_infinite ht h⟩, fun t x y z ht hx => ?_,
    fun t x y ht hx hy hxn hyn => ⟨below_total ht hx hy hxn hyn, (minAt_maxAt_self ht hxn).1, (minAt_maxAt_self ht hxn).2, minAt_maxAt_of_below ht⟩⟩
  · simp only [addAt, mulAt, fmaAt, subAt, minAt, maxAt, ht, Bool.false_eq_true, if_false, Nat.mod_mod, toPattern_sub_add, true_and]
    constructor <;> split <;> omega
  · simp only [subAt, addAt, ht, if_true, decodeFloat_xor_signBit ht hy]
  · simp only [addAt, mulAt, ht, if_true, hx, hy, FVal.add, FVal.mul]
    refine ⟨rfl, rfl, by split <;> rfl, ?_⟩
    split
    · rfl
    · rw [show (a != b) = (b != a) from bne_comm]
      rfl
  · simp only [addAt, mulAt, ht, if_true, hx, hy, FVal.add, FVal.mul]
    exact ⟨by split <;> rfl, rfl⟩
  · simp only [addAt, mulAt, subAt, fmaAt, minAt, maxAt, ht, if_true, hx, FVal.neg, FVal.nan_add, FVal.add_nan, FVal.nan_mul, FVal.mul_nan, FVal.isNan, Bool.true_or,
      Bool.or_true, encodeFloat, and_self]

end Sys2Proof.Machine
end


section
/-! PROOF of O32: FRCP and FRSQ are correctly rounded (R133). -/

namespace Sys2Proof.Machine

open Sys2Proof

/-! ### Rounding of a real number to the nearest (R131) -/

/-- RNE rounds x to the magnitude c, or from halfway beyond the largest on to the infinity. -/
def RneCode (t : Ty) (c : Nat) (x : ℝ) : Prop :=
  c ≤ infCode t ∧ (c = 0 ∨ magVal t (c - 1) + magVal t c < 2 * x ∨ magVal t (c - 1) + magVal t c = 2 * x ∧ c % 2 = 0) ∧
    (c = infCode t ∨ 2 * x < magVal t c + magVal t (c + 1) ∨ 2 * x = magVal t c + magVal t (c + 1) ∧ c % 2 = 0)

/-- Short of the infinity, RNE rounds to the nearest magnitude. -/
theorem RneCode.inCell {t : Ty} {c : Nat} {x : ℝ} (h : RneCode t c x) (hc : c ≠ infCode t) : InCell t c x :=
  ⟨h.2.1.imp_right fun h => h.elim le_of_lt fun h => h.1.le, (h.2.2.resolve_left hc).elim le_of_lt fun h => h.1.le⟩

/-- What RNE rounds to the same magnitude is an interval. -/
theorem RneCode.between {t : Ty} {c : Nat} {x y z : ℝ} (hx : RneCode t c x) (hz : RneCode t c z) (hxy : x ≤ y) (hyz : y ≤ z) : RneCode t c y := by
  obtain ⟨hc, hlo, -⟩ := hx
  obtain ⟨-, -, hhi⟩ := hz
  refine ⟨hc, hlo.imp_right fun h => ?_, hhi.imp_right fun h => ?_⟩
  · rcases h with h | ⟨h, he⟩
    · exact .inl (by linarith)
    · exact (le_iff_lt_or_eq.1 (by linarith : magVal t (c - 1) + magVal t c ≤ 2 * y)).imp_right fun h => ⟨h, he⟩
  · rcases h with h | ⟨h, he⟩
    · exact .inl (by linarith)
    · exact (le_iff_lt_or_eq.1 (by linarith : 2 * y ≤ magVal t c + magVal t (c + 1))).imp_right fun h => ⟨h, he⟩

section
variable {t : Ty} (ht : isFloat t = true)
include ht

/-- The pattern that RNE gives has the number of the magnitude, and the sign. -/
theorem encodeFloat_rneCode (neg : Bool) (m : Nat) (e : Int) : ∃ c, RneCode t c (m * (2 : ℝ) ^ e) ∧
    encodeFloat t .rne false (.fin neg m e) = neg.toNat * signBit t + c := by
  have hmono := (magVal_strictMono t).monotone
  have hpos := (signBit_even ht).2.2
  obtain ⟨p, c, hlo, hhi, hround, henc⟩ := encodeFloat_spec ht .rne false neg m e
  obtain ⟨⟨hlow, hhigh⟩, hlowEven, hhighEven⟩ := hround.inCell hlo hhi (.inl rfl)
  have hlow' : c = 0 ∨ magVal t (c - 1) + magVal t c < 2 * (m * (2 : ℝ) ^ e) ∨ magVal t (c - 1) + magVal t c = 2 * (m * (2 : ℝ) ^ e) ∧ c % 2 = 0 := by
    refine or_iff_not_imp_left.2 fun hc => (le_iff_lt_or_eq.1 (hlow.resolve_left hc)).imp_right fun h => ⟨h, ?_⟩
    exact (hlowEven h (Nat.pos_of_ne_zero hc)).resolve_left (by decide)
  by_cases hc : infCode t ≤ c
  · refine ⟨infCode t, ⟨le_rfl, .inr ?_, .inl rfl⟩, by rw [henc, if_pos hc]; rfl⟩
    rcases Nat.eq_or_lt_of_le hc with rfl | hlt
    · exact hlow'.resolve_left hpos.ne'
    · have h1 := hlow.resolve_left (by omega)
      have h2 : magVal t (infCode t) ≤ magVal t (c - 1) := hmono (by omega)
      have h3 : magVal t (infCode t - 1) < magVal t c := magVal_strictMono t (by omega)
      exact .inl (by linarith)
  · refine ⟨c, ⟨(not_le.1 hc).le, hlow', .inr ?_⟩, by rw [henc, if_neg hc]⟩
    exact (le_iff_lt_or_eq.1 hhigh).imp_right fun h => ⟨h, (hhighEven h).2⟩

/-- A real number whose size RNE rounds to a magnitude is rounded to that magnitude with its sign. -/
theorem RneCode.roundsTo {c : Nat} {x : ℝ} (h : RneCode t c x) (hx : 0 ≤ x) (neg : Bool) : RoundsTo t (sgn neg * x) (neg.toNat * signBit t + c) := by
  have hcell := h.inCell
  obtain ⟨hc, hlo, hhi⟩ := h
  obtain ⟨heven, hinfEven, hpos⟩ := signBit_even ht
  have hhalf := magVal_infCode ht
  have hsign : (0 < sgn neg * x → neg = false) ∧ (sgn neg * x < 0 → neg = true) := by
    cases neg <;> simp [sgn, hx]
  have hbeyond : halfBeyond t ≤ |sgn neg * x| ↔ c = infCode t := by
    rw [abs_sgn_mul, abs_of_nonneg hx]
    constructor
    · intro hle
      by_contra hne
      have h2 : 2 * x = magVal t c + magVal t (c + 1) → c % 2 = 0 := fun heq => (hhi.resolve_left hne).elim (fun h => absurd heq h.ne) And.right
      exact hne (le_antisymm hc (((hcell hne).infCode_le ht h2).2 hle))
    · rintro rfl
      have h := hlo.resolve_left hpos.ne'
      exact h.elim (fun h => by linarith) fun h => by linarith [h.1]
  refine ⟨fun hle => ?_, fun hle => ?_⟩
  · rw [hbeyond.1 hle]
    exact ⟨fun h => by rw [hsign.1 h]; rfl, fun h => by rw [hsign.2 h]; rfl⟩
  · have hne : c ≠ infCode t := fun h => hle (hbeyond.2 h)
    have hlt : c < infCode t := lt_of_le_of_ne hc hne
    have hltS := infCode_lt ht
    obtain ⟨n, f, hd, hv⟩ := decodeFloat_finite ht neg hlt
    refine ⟨fun h => ?_, fun h => ?_, sgn neg * magVal t c, ⟨neg, n, f, hd, by rw [← hv, ← mul_assoc]; rfl⟩, fun d z hz => ?_⟩
    · rw [hsign.1 h]
      simp
      omega
    · rw [hsign.2 h, two_mul_signBit ht]
      simp
      omega
    · obtain ⟨a, k, g, hdk, rfl⟩ := hz
      obtain ⟨j, -, hj, -⟩ := decodeFloat_fin ht hdk
      rw [mul_assoc, hj]
      have hfar : ∀ v, |v - sgn neg * x| = |sgn neg * v - x| := fun v => by
        rw [← abs_sgn_mul neg (v - _), mul_sub, sgn_mul_self]
      have hz : sgn neg * (sgn a * magVal t j) = magVal t j ∨ sgn neg * (sgn a * magVal t j) = -magVal t j := by
        cases neg <;> cases a <;> simp [sgn]
      obtain ⟨hnear, htie⟩ := (hcell hne).near hx hz
      change |sgn neg * magVal t c - sgn neg * x| ≤ |sgn a * magVal t j - sgn neg * x| ∧ (|sgn neg * magVal t c - sgn neg * x| = |sgn a * magVal t j - sgn neg * x| →
        sgn a * magVal t j ≠ sgn neg * magVal t c → (neg.toNat * signBit t + c) % 2 = 0)
      rw [hfar, hfar, sgn_mul_self]
      refine ⟨hnear, fun heq hne' => ?_⟩
      have hc2 : c % 2 = 0 := by
        rcases htie heq (fun h => hne' (by rw [← h, sgn_mul_self])) with ⟨h0, hmid, -⟩ | hmid
        · rcases hlo.resolve_left h0.ne' with h | h
          · exact absurd hmid h.ne
          · exact h.2
        · rcases hhi.resolve_left hne with h | h
          · exact absurd hmid h.ne
          · exact h.2
      cases neg <;> simp <;> omega

end

/-! ### A sticky bit (R133) -/

/-- No point halfway between two magnitudes stands within a unit below which all their digits are. -/
theorem halfway_not_between {t : Ty} {a : Nat} {v : Int} (ha : 2 ^ (fracBits t + 1) ≤ a) (j : Nat) :
    magVal t j + magVal t (j + 1) ≤ 2 * (a * (2 : ℝ) ^ v) ∨ 2 * ((a + 1) * (2 : ℝ) ^ v) ≤ magVal t j + magVal t (j + 1) := by
  obtain ⟨q, hj, hq, hlead⟩ := exists_significand (fracBits t) j
  generalize j / 2 ^ fracBits t - 1 = x at hj hlead
  have hthis := magVal_eq hq.le hlead
  have hnext := magVal_eq (t := t) (q := q + 1) hq (hlead.imp_right fun h => h.trans (Nat.le_succ q))
  rw [← hj] at hthis
  rw [← Nat.add_assoc, ← hj] at hnext
  have hsum : magVal t j + magVal t (j + 1) = (2 * q + 1 : Nat) * (2 : ℝ) ^ (x + unitOf t) := by
    rw [hthis, hnext]
    push_cast
    ring
  have hv : (0 : ℝ) < (2 : ℝ) ^ v := zpow_pos two_pos v
  rw [hsum]
  by_cases hw : (x : Int) + unitOf t ≤ v
  · left
    have hq2 : 2 * q + 1 ≤ 2 * a := by
      have := Nat.pow_succ 2 (fracBits t)
      omega
    have hcast : ((2 * q + 1 : Nat) : ℝ) ≤ 2 * a := by exact_mod_cast hq2
    rw [← mul_assoc]
    exact mul_le_mul hcast (zpow_le_zpow_right₀ one_le_two hw) (zpow_pos two_pos _).le (by positivity)
  · obtain ⟨i, hi⟩ : ∃ i : Nat, (x : Int) + unitOf t = i + 1 + v := ⟨((x : Int) + unitOf t - v - 1).toNat, by omega⟩
    have hmul : ((2 * q + 1 : Nat) : ℝ) * (2 : ℝ) ^ (x + unitOf t) = 2 * (((2 * q + 1) * 2 ^ i : Nat) * (2 : ℝ) ^ v) := by
      rw [hi, zpow_add₀ two_ne_zero, zpow_add_one₀ two_ne_zero, zpow_natCast]
      push_cast
      ring
    rw [hmul]
    rcases Nat.lt_or_ge a ((2 * q + 1) * 2 ^ i) with h | h
    · right
      have hcast : (a + 1 : ℝ) ≤ ((2 * q + 1) * 2 ^ i : Nat) := by exact_mod_cast h
      linarith [mul_le_mul_of_nonneg_right hcast hv.le]
    · left
      have hcast : (((2 * q + 1) * 2 ^ i : Nat) : ℝ) ≤ a := by exact_mod_cast h
      linarith [mul_le_mul_of_nonneg_right hcast hv.le]

/-- Two values within the same unit are rounded alike. -/
theorem RneCode.same_unit {t : Ty} {c a : Nat} {v : Int} {x y : ℝ} (h : RneCode t c x) (ha : 2 ^ (fracBits t + 1) ≤ a) (hx : a * (2 : ℝ) ^ v < x)
    (hx' : x < (a + 1) * (2 : ℝ) ^ v) (hy : a * (2 : ℝ) ^ v < y) (hy' : y < (a + 1) * (2 : ℝ) ^ v) : RneCode t c y := by
  obtain ⟨hc, hlo, hhi⟩ := h
  refine ⟨hc, or_iff_not_imp_left.2 fun h0 => .inl ?_, or_iff_not_imp_left.2 fun hi => .inl ?_⟩
  · have hle : magVal t (c - 1) + magVal t c ≤ 2 * x := (hlo.resolve_left h0).elim le_of_lt fun h => h.1.le
    rcases halfway_not_between (v := v) ha (c - 1) with h | h <;> rw [Nat.sub_add_cancel (Nat.pos_of_ne_zero h0)] at h <;> linarith
  · have hle : 2 * x ≤ magVal t c + magVal t (c + 1) := (hhi.resolve_left hi).elim le_of_lt fun h => h.1.le
    rcases halfway_not_between (v := v) ha c with h | h <;> linarith

/-- A bit below the unit that says whether a value is above its lower neighbour is enough to round it. -/
theorem RneCode.of_sticky {t : Ty} {c a : Nat} {v : Int} {y : ℝ} {exact : Prop} {_ : Decidable exact} (ha : 2 ^ (fracBits t + 1) ≤ a)
    (hexact : exact → y = a * (2 : ℝ) ^ v) (habove : ¬exact → a * (2 : ℝ) ^ v < y ∧ y < (a + 1) * (2 : ℝ) ^ v)
    (h : RneCode t c ((2 * a + (if exact then 0 else 1) : Nat) * (2 : ℝ) ^ (v - 1))) : RneCode t c y := by
  have hv : (0 : ℝ) < (2 : ℝ) ^ v := zpow_pos two_pos v
  have hhalf : (2 : ℝ) ^ (v - 1) = (2 : ℝ) ^ v / 2 := zpow_sub_one₀ two_ne_zero v
  by_cases hex : exact
  · rw [if_pos hex, hhalf] at h
    rw [hexact hex]
    convert h using 1
    push_cast
    ring
  · rw [if_neg hex, hhalf] at h
    obtain ⟨hlo, hhi⟩ := habove hex
    refine h.same_unit ha ?_ ?_ hlo hhi <;> push_cast <;> linarith

/-! ### The integer square root -/

/-- Bisection over n bits finds the square root of a number between two squares that are 2^n apart. -/
theorem isqrt_spec : ∀ (n x r : Nat), r * r ≤ x → x < (r + 2 ^ n) * (r + 2 ^ n) →
    isqrt n x r * isqrt n x r ≤ x ∧ x < (isqrt n x r + 1) * (isqrt n x r + 1)
  | 0, _, _, hlo, hhi => ⟨hlo, hhi⟩
  | n + 1, x, r, hlo, hhi => by
    rw [isqrt]
    split
    · next h => exact isqrt_spec n x _ h (by rwa [Nat.add_assoc, ← Nat.two_mul, ← Nat.pow_succ'])
    · next h => exact isqrt_spec n x r hlo (Nat.lt_of_not_le h)

/-! ### The reciprocal and the reciprocal root -/

section
variable {t : Ty} (ht : isFloat t = true)
include ht

/-- A function whose enclosure is one value gives that value's rounding. -/
theorem ffun_of_enclosure {f : FFun} {tick k b m q : Nat} {neg sign : Bool} {e x : Int} (hd : decodeFloat t b = .fin neg m e) (hm : m ≠ 0)
    (hf : ffinite f t neg m e = some (encodeFloat t .rne false (.fin sign q x))) {y : ℝ} (hy : 0 ≤ y) (hround : ∀ c, RneCode t c (q * (2 : ℝ) ^ x) → RneCode t c y) :
    RoundsTo t (sgn sign * y) (ffun f t tick k b) := by
  obtain ⟨c, hc, henc⟩ := encodeFloat_rneCode ht sign q x
  rw [ffun_of_fin hd hm hf, henc]
  exact (hround c hc).roundsTo ht hy sign

/-- 1/x by its 64 bits beyond those of the operand and the sticky bit. -/
theorem rcp_rounded {tick k b m : Nat} {neg : Bool} {e : Int} (hd : decodeFloat t b = .fin neg m e) (hm : m ≠ 0) :
    RoundsTo t (sgn neg * (1 / (m * (2 : ℝ) ^ e))) (ffun .rcp t tick k b) := by
  have hfin : ffinite .rcp t neg m e = some (encodeFloat t .rne false (.fin neg (rcpEnc neg m e).lo (rcpEnc neg m e).exp)) := by
    simp only [ffinite, rcpEnc, if_true]
  obtain ⟨-, hfb, -⟩ := fracBits_pos ht
  have hm0 : (0 : ℝ) < m := Nat.cast_pos.2 (Nat.pos_of_ne_zero hm)
  have he : (0 : ℝ) < (2 : ℝ) ^ e := zpow_pos two_pos e
  refine ffun_of_enclosure ht hd hm hfin (by positivity) fun c hc => ?_
  generalize hk : Nat.log2 m + 64 = k at hc
  simp only [rcpEnc, hk] at hc
  have hlarge : 2 ^ (fracBits t + 1) ≤ 2 ^ k / m := by
    refine (Nat.le_div_iff_mul_le (Nat.pos_of_ne_zero hm)).2 ?_
    have hfrac : 2 ^ (fracBits t + 1) ≤ 2 ^ 63 := Nat.pow_le_pow_right Nat.two_pos (by omega)
    have hk' : k = 63 + (Nat.log2 m + 1) := by omega
    rw [hk', Nat.pow_add 2 63]
    exact Nat.mul_le_mul hfrac Nat.lt_log2_self.le
  have hunit : (2 : ℝ) ^ (-(k : Int) - e) = 1 / (2 ^ k * (2 : ℝ) ^ e) := by
    rw [zpow_sub₀ two_ne_zero, zpow_neg, zpow_natCast]
    field_simp
  have hpow : (0 : ℝ) < 2 ^ k := by positivity
  have hdiv : (2 : ℝ) ^ k = (2 ^ k / m : Nat) * m + (2 ^ k % m : Nat) := by exact_mod_cast (Nat.div_add_mod' (2 ^ k) m).symm
  refine RneCode.of_sticky (v := -(k : Int) - e) hlarge (fun hex => ?_) (fun hex => ?_) hc
  · rw [hex, Nat.cast_zero, add_zero] at hdiv
    rw [hunit, mul_one_div, div_eq_div_iff (by positivity) (by positivity), hdiv]
    ring
  · have hrem : (0 : ℝ) < (2 ^ k % m : Nat) := Nat.cast_pos.2 (Nat.pos_of_ne_zero hex)
    have hlt : ((2 ^ k % m : Nat) : ℝ) < m := Nat.cast_lt.2 (Nat.mod_lt _ (Nat.pos_of_ne_zero hm))
    rw [hunit]
    constructor
    · rw [mul_one_div, div_lt_div_iff₀ (by positivity) (by positivity)]
      nlinarith
    · rw [mul_one_div, div_lt_div_iff₀ (by positivity) (by positivity)]
      nlinarith

/-- 1/√(m · 4^h) by the bits of the root and the sticky bit. -/
theorem rneCode_rsq {c k m r : Nat} {h : Int} (hm : m ≠ 0) (hk : k = Nat.log2 m + 64) (hr : r = isqrt (k + 1) (2 ^ (2 * k) / m) 0)
    (hc : RneCode t c ((2 * r + (if r * r * m = 2 ^ (2 * k) then 0 else 1) : Nat) * (2 : ℝ) ^ (-(k : Int) - h - 1))) :
    RneCode t c (1 / (Real.sqrt m * (2 : ℝ) ^ h)) := by
  obtain ⟨-, hfb, -⟩ := fracBits_pos ht
  have hmpos := Nat.pos_of_ne_zero hm
  have htwice : 2 ^ (2 * k) = 2 ^ k * 2 ^ k := by rw [Nat.two_mul, Nat.pow_add]
  obtain ⟨hlo, hhi⟩ : r * r ≤ 2 ^ (2 * k) / m ∧ 2 ^ (2 * k) / m < (r + 1) * (r + 1) := by
    rw [hr]
    refine isqrt_spec _ _ _ (Nat.zero_le _) ((Nat.div_le_self _ _).trans_lt ?_)
    rw [Nat.zero_add, htwice]
    exact Nat.mul_lt_mul'' (Nat.pow_lt_pow_right (by decide) (Nat.lt_succ_self k)) (Nat.pow_lt_pow_right (by decide) (Nat.lt_succ_self k))
  have hlo' : r * r * m ≤ 2 ^ k * 2 ^ k := htwice ▸ (Nat.le_div_iff_mul_le hmpos).1 hlo
  have hhi' : 2 ^ k * 2 ^ k < (r + 1) * (r + 1) * m := htwice ▸ (Nat.div_lt_iff_lt_mul hmpos).1 hhi
  have hlarge : 2 ^ (fracBits t + 1) ≤ r := by
    by_contra hsmall
    have hr1 : r + 1 ≤ 2 ^ 24 := (Nat.lt_of_not_le hsmall).trans_le (Nat.pow_le_pow_right Nat.two_pos (by omega))
    have hpow : 2 ^ 24 * 2 ^ 24 * 2 ^ (Nat.log2 m + 1) ≤ 2 ^ k * 2 ^ k := by
      rw [← Nat.pow_add 2 24, ← Nat.pow_add 2 (24 + 24), ← Nat.pow_add]
      exact Nat.pow_le_pow_right Nat.two_pos (by omega)
    exact absurd hhi' (((Nat.mul_le_mul (Nat.mul_le_mul hr1 hr1) Nat.lt_log2_self.le).trans hpow).not_gt)
  have hunit : (2 : ℝ) ^ (-(k : Int) - h) = 1 / (2 ^ k * (2 : ℝ) ^ h) := by
    rw [zpow_sub₀ two_ne_zero, zpow_neg, zpow_natCast]
    field_simp
  have hpow : (0 : ℝ) < 2 ^ k := by positivity
  have hh : (0 : ℝ) < (2 : ℝ) ^ h := zpow_pos two_pos h
  have hs : 0 < Real.sqrt m := Real.sqrt_pos.2 (Nat.cast_pos.2 hmpos)
  have hss : Real.sqrt m * Real.sqrt m = m := Real.mul_self_sqrt (Nat.cast_nonneg m)
  have hsquare : ∀ q : ℝ, (q * Real.sqrt m) * (q * Real.sqrt m) = q * q * m := fun q => by rw [mul_mul_mul_comm, hss]
  refine RneCode.of_sticky (v := -(k : Int) - h) hlarge (fun hex => ?_) (fun hex => ?_) hc
  · have hroot : r * Real.sqrt m = 2 ^ k := by
      refine (mul_self_inj (by positivity) hpow.le).1 ?_
      rw [hsquare]
      exact_mod_cast hex.trans htwice
    rw [hunit, mul_one_div, div_eq_div_iff (by positivity) (by positivity), ← hroot]
    ring
  · have hlo'' : r * Real.sqrt m < 2 ^ k := by
      refine lt_of_mul_self_lt_mul_self₀ hpow.le ?_
      rw [hsquare]
      exact_mod_cast lt_of_le_of_ne hlo' fun h => hex (h.trans htwice.symm)
    have hhi'' : 2 ^ k < (r + 1) * Real.sqrt m := by
      refine lt_of_mul_self_lt_mul_self₀ (by positivity) ?_
      rw [hsquare]
      exact_mod_cast hhi'
    rw [hunit]
    constructor
    · rw [mul_one_div, div_lt_div_iff₀ (by positivity) (by positivity)]
      nlinarith
    · rw [mul_one_div, div_lt_div_iff₀ (by positivity) (by positivity)]
      nlinarith

/-- 1/√x by the root of a mantissa at an even exponent. -/
theorem rsq_rounded {tick k b m : Nat} {e : Int} (hd : decodeFloat t b = .fin false m e) (hm : m ≠ 0) :
    RoundsTo t (1 / Real.sqrt (m * (2 : ℝ) ^ e)) (ffun .rsq t tick k b) := by
  have hfin : ffinite .rsq t false m e = some (encodeFloat t .rne false (.fin false (rsqEnc m e).lo (rsqEnc m e).exp)) := by
    simp only [ffinite, rsqEnc, Bool.false_eq_true, if_false, if_true]
  obtain ⟨m', h, hm', hval, henc⟩ : ∃ (m' : Nat) (h : Int), m' ≠ 0 ∧ m * (2 : ℝ) ^ e = m' * ((2 : ℝ) ^ h * (2 : ℝ) ^ h) ∧
      (let k := Nat.log2 m' + 64
       let r := isqrt (k + 1) (2 ^ (2 * k) / m') 0
       (rsqEnc m e).lo = 2 * r + (if r * r * m' = 2 ^ (2 * k) then 0 else 1) ∧ (rsqEnc m e).exp = -(k : Int) - h - 1) := by
    have hsq : ∀ h : Int, (2 : ℝ) ^ (2 * h) = (2 : ℝ) ^ h * (2 : ℝ) ^ h := fun h => by rw [two_mul, zpow_add₀ two_ne_zero]
    by_cases he : e % 2 = 0
    · refine ⟨m, e / 2, hm, ?_, ?_⟩
      · rw [← hsq, Int.mul_ediv_cancel' (Int.dvd_of_emod_eq_zero he)]
      · simp only [rsqEnc, he, if_true, and_self]
    · refine ⟨2 * m, (e - 1) / 2, by omega, ?_, ?_⟩
      · have hodd : e = 2 * ((e - 1) / 2) + 1 := by omega
        rw [← hsq]
        conv_lhs => rw [hodd, zpow_add_one₀ two_ne_zero]
        push_cast
        ring
      · simp only [rsqEnc, he, if_false, and_self]
  obtain ⟨hq, hx⟩ := henc
  have hroot : Real.sqrt (m * (2 : ℝ) ^ e) = Real.sqrt m' * (2 : ℝ) ^ h := by
    rw [hval, Real.sqrt_mul (Nat.cast_nonneg _), Real.sqrt_mul_self (zpow_pos two_pos h).le]
  have hround := ffun_of_enclosure ht (tick := tick) (k := k) (y := 1 / (Real.sqrt m' * (2 : ℝ) ^ h)) hd hm hfin (by positivity) fun c hc => by
    rw [hq, hx] at hc
    exact rneCode_rsq ht hm' rfl rfl hc
  rw [hroot]
  simpa [sgn] using hround

end

/-- The real number that a finite pattern stands for. -/
theorem Denotes.eq {t : Ty} {b m : Nat} {neg : Bool} {e : Int} {x : ℝ} (h : Denotes t b x) (hd : decodeFloat t b = .fin neg m e) : x = sgn neg * (m * (2 : ℝ) ^ e) := by
  obtain ⟨neg', m', e', hd', rfl⟩ := h
  rw [hd] at hd'
  obtain ⟨rfl, rfl, rfl⟩ := FVal.fin.inj hd'
  rw [mul_assoc]
  rfl

/-- Settles O32: 1/x by `rcp_rounded`, 1/√x by `rsq_rounded`. -/
theorem rootsRounded : Obligations.RootsRounded := by
  unfold Obligations.RootsRounded
  intro t tick k b m neg e x ht hd hm hx
  obtain rfl := hx.eq hd
  refine ⟨fun y hy => ?_, fun hneg y hy => ?_⟩
  · obtain rfl : y = _ := hy
    convert rcp_rounded ht (tick := tick) (k := k) hd hm using 1
    cases neg <;> simp [sgn]
  · obtain rfl : y = _ := hy
    subst hneg
    simpa [sgn] using rsq_rounded ht (tick := tick) (k := k) hd hm

end Sys2Proof.Machine
end


section
/-! SUPPORT for O33: intervals that hold real numbers, and the series, quotients and roots that the functions of F are made of (R133). -/

namespace Sys2Proof.Machine

open Sys2Proof

/-! ### Intervals -/

/-- The bounds hold a real number. -/
def Itv.Has (a : Itv) (x : ℝ) : Prop := a.lo ≤ x * one' ∧ x * one' ≤ a.hi

theorem one'_pos : (0 : ℝ) < one' := by
  rw [one']
  positivity

theorem one'_eq : (one' : ℝ) = (2 : ℝ) ^ (unitExp : Int) := by
  rw [one', zpow_natCast]
  push_cast
  rfl

/-- A quotient of numbers, rounded down, is at most the exact one and within 1 of it. -/
theorem cast_div_bounds (m : Nat) {n : Nat} (hn : 0 < n) : ((m / n : Nat) : ℝ) ≤ (m : ℝ) / n ∧ (m : ℝ) / n ≤ (m / n : Nat) + 1 := by
  refine ⟨Nat.cast_div_le, (div_le_iff₀ (Nat.cast_pos.2 hn)).2 ?_⟩
  have h := (Nat.lt_mul_div_succ m hn).le
  rw [Nat.mul_comm] at h
  exact_mod_cast h

section
variable {a b : Itv} {x y : ℝ}

theorem Itv.Has.nonneg (h : a.Has x) : 0 ≤ x := nonneg_of_mul_nonneg_left ((Nat.cast_nonneg _).trans h.1) one'_pos

theorem Itv.Has.congr (h : a.Has x) (hxy : x = y) : a.Has y := hxy ▸ h

theorem Itv.has_ofNat (n : Nat) : (Itv.ofNat n).Has n := by
  unfold Itv.Has Itv.ofNat
  push_cast
  exact ⟨le_rfl, le_rfl⟩

theorem Itv.Has.add (ha : a.Has x) (hb : b.Has y) : (a.add b).Has (x + y) := by
  unfold Itv.Has Itv.add at *
  push_cast
  rw [add_mul]
  exact ⟨add_le_add ha.1 hb.1, add_le_add ha.2 hb.2⟩

theorem Itv.Has.double (ha : a.Has x) : a.double.Has (2 * x) := by
  unfold Itv.Has Itv.double at *
  push_cast
  rw [mul_assoc]
  exact ⟨mul_le_mul_of_nonneg_left ha.1 two_pos.le, mul_le_mul_of_nonneg_left ha.2 two_pos.le⟩

theorem Itv.Has.sub (ha : a.Has x) (hb : b.Has y) (h : y ≤ x) : (a.sub b).Has (x - y) := by
  have hnn : 0 ≤ (x - y) * one' := mul_nonneg (sub_nonneg.2 h) one'_pos.le
  obtain ⟨halo, hahi⟩ := ha
  obtain ⟨hblo, hbhi⟩ := hb
  unfold Itv.Has Itv.sub
  constructor
  · rcases le_total b.hi a.lo with hle | hle
    · rw [Nat.cast_sub hle, sub_mul]
      linarith
    · simpa [Nat.sub_eq_zero_of_le hle] using hnn
  · have hcast : ((a.hi : ℝ) - b.lo) ≤ (a.hi - b.lo : Nat) := by
      rw [sub_le_iff_le_add]
      exact_mod_cast Nat.sub_le_iff_le_add.1 le_rfl
    rw [sub_mul]
    linarith

theorem Itv.Has.mul (ha : a.Has x) (hb : b.Has y) : (a.mul b).Has (x * y) := by
  have hx := ha.nonneg
  have hy := hb.nonneg
  have hu := one'_pos
  obtain ⟨hlo, -⟩ := cast_div_bounds (a.lo * b.lo) (Nat.cast_pos.1 hu)
  obtain ⟨-, hhi⟩ := cast_div_bounds (a.hi * b.hi) (Nat.cast_pos.1 hu)
  have hprod : x * y * one' = (x * one') * (y * one') / one' := by field_simp
  unfold Itv.Has Itv.mul
  rw [hprod]
  push_cast at hlo hhi ⊢
  refine ⟨hlo.trans ?_, le_trans ?_ hhi⟩
  · exact div_le_div_of_nonneg_right (mul_le_mul ha.1 hb.1 (Nat.cast_nonneg _) (by positivity)) hu.le
  · exact div_le_div_of_nonneg_right (mul_le_mul ha.2 hb.2 (by positivity) (Nat.cast_nonneg _)) hu.le

theorem Itv.Has.divNat (ha : a.Has x) {n : Nat} (hn : 0 < n) : (a.divNat n).Has (x / n) := by
  have hn' : (0 : ℝ) < n := Nat.cast_pos.2 hn
  obtain ⟨hlo, -⟩ := cast_div_bounds a.lo hn
  obtain ⟨-, hhi⟩ := cast_div_bounds a.hi hn
  have hquot : x / n * one' = x * one' / n := by ring
  unfold Itv.Has Itv.divNat
  rw [hquot]
  push_cast
  exact ⟨hlo.trans (div_le_div_of_nonneg_right ha.1 hn'.le), (div_le_div_of_nonneg_right ha.2 hn'.le).trans hhi⟩

/-- A quotient, by a number that is at least the unit. -/
theorem Itv.Has.div (ha : a.Has x) (hb : b.Has y) (hy : 1 ≤ y * one') : (a.div b).Has (x / y) := by
  have hx := ha.nonneg
  have hu := one'_pos
  have hy0 : 0 < y * one' := one_pos.trans_le hy
  have hypos : 0 < y := pos_of_mul_pos_left hy0 hu.le
  have hbhi : (0 : ℝ) < b.hi := hy0.trans_le hb.2
  have hquot : x / y * one' = (x * one') * one' / (y * one') := by field_simp
  unfold Itv.Has Itv.div
  rw [hquot]
  constructor
  · obtain ⟨hlo, -⟩ := cast_div_bounds (a.lo * one') (Nat.cast_pos.1 hbhi)
    push_cast at hlo ⊢
    refine hlo.trans (div_le_div₀ (by positivity) (mul_le_mul_of_nonneg_right ha.1 hu.le) hy0 hb.2)
  · have hnum : (x * one') * one' ≤ (a.hi * one' : Nat) := by
      push_cast
      exact mul_le_mul_of_nonneg_right ha.2 hu.le
    dsimp only
    split
    · have hle : (x * one') * one' / (y * one') ≤ (x * one') * one' := div_le_self (by positivity) hy
      push_cast at hnum ⊢
      linarith
    · next h =>
      have hlo : (0 : ℝ) < b.lo := Nat.cast_pos.2 (Nat.pos_of_ne_zero h)
      obtain ⟨-, hhi⟩ := cast_div_bounds (a.hi * one') (Nat.cast_pos.1 hlo)
      push_cast at hnum hhi ⊢
      exact (div_le_div₀ (by positivity) hnum hlo hb.1).trans hhi

end

/-- A dyadic magnitude stands between its bounds. -/
theorem itvOf_has (m : Nat) (e : Int) : (itvOf m e).Has (m * (2 : ℝ) ^ e) := by
  have hscale : m * (2 : ℝ) ^ e * one' = m * (2 : ℝ) ^ (e + unitExp) := by rw [one'_eq, mul_assoc, ← zpow_add₀ two_ne_zero]
  unfold Itv.Has itvOf
  rw [hscale]
  dsimp only
  split
  · next h =>
    have hpow : (2 : ℝ) ^ (e + unitExp) = 2 ^ (e + unitExp).toNat := by rw [← zpow_natCast, Int.toNat_of_nonneg h]
    rw [hpow]
    push_cast
    exact ⟨le_rfl, le_rfl⟩
  · next h =>
    have hpow : m * (2 : ℝ) ^ (e + unitExp) = (m : ℝ) / (2 ^ (-(e + unitExp)).toNat : Nat) := by
      push_cast
      rw [← zpow_natCast, Int.toNat_of_nonneg (by omega), zpow_neg, div_inv_eq_mul]
    rw [hpow]
    obtain ⟨hlo, hhi⟩ := cast_div_bounds m (Nat.two_pow_pos (-(e + unitExp)).toNat)
    push_cast at hlo hhi ⊢
    exact ⟨hlo, hhi⟩

/-! ### The exponential function -/

/-- n further terms of the series from the term of index j on, and a bound of the rest. -/
theorem expTerms_has {y : Itv} {x : ℝ} (hy : y.Has x) (hx : x ≤ 1) : ∀ (n j : Nat) (t : Itv), t.Has (x ^ j / j.factorial) → 0 < n + j →
    (expTerms y n (j + 1) t).Has (Real.exp x - ∑ i ∈ Finset.range j, x ^ i / i.factorial)
  | 0, j, t, ht, hj => by
    have hx0 := hy.nonneg
    have hj' : 0 < j := by omega
    have hlo := Real.sum_le_exp_of_nonneg hx0 j
    have hhi := Real.exp_bound' hx0 hx hj'
    have hterm : x ^ j * (j + 1) / (j.factorial * j) ≤ 2 * (x ^ j / j.factorial) := by
      have hj1 : (1 : ℝ) ≤ j := by exact_mod_cast hj'
      have hpow : 0 ≤ x ^ j / j.factorial := by positivity
      rw [mul_div_mul_comm, mul_comm]
      refine mul_le_mul_of_nonneg_right ((div_le_iff₀ (by linarith)).2 (by linarith)) hpow
    have hu := one'_pos
    have hthi := ht.2
    refine ⟨?_, ?_⟩
    · simpa [expTerms] using mul_nonneg (sub_nonneg.2 hlo) hu.le
    · have hle : Real.exp x - ∑ i ∈ Finset.range j, x ^ i / i.factorial ≤ 2 * (x ^ j / j.factorial) := by linarith
      have := mul_le_mul_of_nonneg_right hle hu.le
      simp only [expTerms]
      push_cast
      linarith
  | n + 1, j, t, ht, _ => by
    have hnext : ((t.mul y).divNat (j + 1)).Has (x ^ (j + 1) / (j + 1).factorial) := by
      refine ((ht.mul hy).divNat (Nat.succ_pos j)).congr ?_
      rw [Nat.factorial_succ]
      push_cast
      field_simp
      ring
    have ih := expTerms_has hy hx n (j + 1) _ hnext (by omega)
    refine (ht.add ih).congr ?_
    rw [Finset.sum_range_succ]
    ring

theorem sqTimes_has : ∀ (n : Nat) {a : Itv} {x : ℝ}, a.Has x → (sqTimes n a).Has (x ^ 2 ^ n)
  | 0, _, _, h => by simpa [sqTimes] using h
  | n + 1, a, x, h => by
    have ih := sqTimes_has n (h.mul h)
    rwa [← pow_two, ← pow_mul, ← Nat.pow_succ'] at ih

/-- e^x, by the series at x/256 squared eight times. -/
theorem expItv_has {y : Itv} {x : ℝ} (hy : y.Has x) (hx : x ≤ 256) : (expItv y).Has (Real.exp x) := by
  have hone : (Itv.ofNat 1).Has ((x / (256 : Nat)) ^ 0 / (Nat.factorial 0 : Nat)) := by simpa using Itv.has_ofNat 1
  have hseries := expTerms_has (hy.divNat (by decide : 0 < 256)) (by push_cast; linarith) 64 0 _ hone (by decide)
  have hpow := sqTimes_has 8 hseries
  rw [Finset.range_zero, Finset.sum_empty, sub_zero, ← Real.exp_nat_mul] at hpow
  refine hpow.congr (congrArg Real.exp ?_)
  push_cast
  ring

/-! ### The logarithm -/

/-- The rest of a series is bounded by a geometric one. -/
theorem abs_rest_le {f : ℕ → ℝ} {l c q : ℝ} (hf : HasSum f l) {j : Nat} (hq : 0 ≤ q) (hq' : q ≤ 1 / 2) (hle : ∀ i, |f (i + j)| ≤ c * q ^ i) :
    |l - ∑ i ∈ Finset.range j, f i| ≤ 2 * c := by
  have hrest := (hasSum_nat_add_iff' j).2 hf
  have hgeo := (hasSum_geometric_of_lt_one hq (by linarith)).mul_left c
  have hc : 0 ≤ c := by simpa using (abs_nonneg _).trans (hle 0)
  rw [← hrest.tsum_eq]
  refine (tsum_of_norm_bounded (f := fun i => f (i + j)) hgeo fun i => (Real.norm_eq_abs _).trans_le (hle i)).trans ?_
  have hinv : (1 - q)⁻¹ ≤ 2 := by
    rw [inv_le_comm₀ (by linarith) two_pos]
    linarith
  rw [mul_comm]
  exact mul_le_mul_of_nonneg_right hinv hc

/-- n further terms of z + z³/3 + … from the term of index j on, and a bound of the rest. -/
theorem atanhTerms_has {z2 : Itv} {z l : ℝ} (hz2 : z2.Has (z * z)) (hz : 0 ≤ z) (hz' : z ≤ 1 / 2) (hl : HasSum (fun i : ℕ => z ^ (2 * i + 1) / (2 * i + 1 : Nat)) l) :
    ∀ (n j : Nat) (t : Itv), t.Has (z ^ (2 * j + 1)) → (atanhTerms z2 n (2 * j + 1) t).Has (l - ∑ i ∈ Finset.range j, z ^ (2 * i + 1) / (2 * i + 1 : Nat))
  | 0, j, t, ht => by
    have hterm : ∀ i : ℕ, z ^ (2 * (i + j) + 1) / (2 * (i + j) + 1 : Nat) ≤ z ^ (2 * j + 1) * (z * z) ^ i := fun i => by
      have hpow : z ^ (2 * j + 1) * (z * z) ^ i = z ^ (2 * (i + j) + 1) := by
        rw [← pow_two, ← pow_mul, ← pow_add]
        congr 1
        ring
      rw [hpow]
      exact div_le_self (by positivity) (by exact_mod_cast Nat.le_add_left 1 _)
    have hnn : ∀ i : ℕ, 0 ≤ z ^ (2 * (i + j) + 1) / (2 * (i + j) + 1 : Nat) := fun i => by positivity
    have hlo := ((hasSum_nat_add_iff' j).2 hl).nonneg hnn
    have hhi := (le_abs_self _).trans (abs_rest_le hl (j := j) (mul_self_nonneg z) (by nlinarith) fun i => (abs_of_nonneg (hnn i)).trans_le (hterm i))
    have hthi := ht.2
    refine ⟨by simpa [atanhTerms] using mul_nonneg hlo one'_pos.le, ?_⟩
    have := mul_le_mul_of_nonneg_right hhi one'_pos.le
    simp only [atanhTerms]
    push_cast at this ⊢
    linarith
  | n + 1, j, t, ht => by
    have hnext : (t.mul z2).Has (z ^ (2 * (j + 1) + 1)) := (ht.mul hz2).congr (by ring)
    have ih := atanhTerms_has hz2 hz hz' hl n (j + 1) _ hnext
    refine ((ht.divNat (Nat.succ_pos (2 * j))).add ih).congr ?_
    rw [Finset.sum_range_succ]
    ring

/-- ln m for 1 ≤ m ≤ 2. -/
theorem lnItv_has {a : Itv} {m : ℝ} (ha : a.Has m) (h1 : 1 ≤ m) (h2 : m ≤ 2) : (lnItv a).Has (Real.log m) := by
  have hone : (Itv.ofNat 1).Has 1 := by simpa using Itv.has_ofNat 1
  have hu : (1 : ℝ) ≤ one' := by exact_mod_cast Nat.one_le_two_pow
  have hz := (ha.sub hone h1).div (ha.add hone) (by nlinarith)
  have hz0 := hz.nonneg
  have hz3 : (m - 1) / (m + 1) ≤ 1 / 2 := by
    rw [div_le_iff₀ (by linarith)]
    linarith
  have hsum : HasSum (fun i : ℕ => ((m - 1) / (m + 1)) ^ (2 * i + 1) / (2 * i + 1 : Nat)) (Real.log m / 2) := by
    have h := (Real.hasSum_log_one_add (sub_nonneg.2 h1)).div_const 2
    rw [show 1 + (m - 1) = m by ring, show m - 1 + 2 = m + 1 by ring] at h
    refine h.congr_fun fun i => ?_
    push_cast
    ring
  have hatanh := atanhTerms_has (hz.mul hz) hz0 hz3 hsum 110 0 _ (hz.congr (by simp))
  refine hatanh.double.congr ?_
  rw [Finset.range_zero, Finset.sum_empty]
  ring

theorem ln2Itv_has : ln2Itv.Has (Real.log 2) := lnItv_has (by simpa using Itv.has_ofNat 2) one_le_two le_rfl

/-! ### π and square roots -/

/-- The terms of atan(1/n) = 1/n − 1/(3n³) + …, the positive and the negative apart, with a bound of the rest. -/
theorem atanInv_has {n : Nat} (hn : 2 ≤ n) : ∀ (k j : Nat) (t p q : Itv) (x y : ℝ), t.Has ((n : ℝ)⁻¹ ^ (2 * j + 1)) → p.Has x → q.Has y → 0 < k + j →
    x - y = ∑ i ∈ Finset.range j, (-1) ^ i * (n : ℝ)⁻¹ ^ (2 * i + 1) / (2 * i + 1 : Nat) →
    ∃ x' y', x' - y' = Real.arctan (n : ℝ)⁻¹ ∧ (atanInv n k (2 * j + 1) t (p, q)).1.Has x' ∧ (atanInv n k (2 * j + 1) t (p, q)).2.Has y'
  | 0, j, t, p, q, x, y, ht, hp, hq, hj, hxy => by
    have hn0 : (0 : ℝ) < (n : ℝ)⁻¹ := inv_pos.2 (by exact_mod_cast (by omega : 0 < n))
    have hn2 : (n : ℝ)⁻¹ ≤ 1 / 2 := by
      rw [one_div]
      exact inv_anti₀ two_pos (by exact_mod_cast hn)
    have hterm : ∀ i : ℕ, |(-1) ^ (i + j) * (n : ℝ)⁻¹ ^ (2 * (i + j) + 1) / (2 * (i + j) + 1 : Nat)| ≤ (n : ℝ)⁻¹ ^ (2 * j + 1) / 2 * ((n : ℝ)⁻¹ * (n : ℝ)⁻¹) ^ i := fun i => by
      have hpow : (n : ℝ)⁻¹ ^ (2 * j + 1) / 2 * ((n : ℝ)⁻¹ * (n : ℝ)⁻¹) ^ i = (n : ℝ)⁻¹ ^ (2 * (i + j) + 1) / 2 := by ring
      rw [hpow, abs_div, abs_mul, abs_pow, abs_neg, abs_one, one_pow, one_mul, abs_of_pos (pow_pos hn0 _), abs_of_nonneg (Nat.cast_nonneg _)]
      exact div_le_div_of_nonneg_left (by positivity) two_pos (by exact_mod_cast (by omega : 2 ≤ 2 * (i + j) + 1))
    have hrest := abs_rest_le (Real.hasSum_arctan (by rw [Real.norm_of_nonneg hn0.le]; linarith)) (mul_self_nonneg (n : ℝ)⁻¹) (by nlinarith) hterm
    rw [← hxy, mul_div_cancel₀ _ two_ne_zero] at hrest
    obtain ⟨hrlo, hrhi⟩ := abs_le.1 hrest
    have hbound : ∀ r, 0 ≤ r → r ≤ (n : ℝ)⁻¹ ^ (2 * j + 1) → ∀ {v : Itv} {z : ℝ}, v.Has z → (⟨v.lo, v.hi + t.hi + 1⟩ : Itv).Has (z + r) := fun r hr hr' v z hv => by
      have h1 := mul_nonneg hr one'_pos.le
      have h2 := (mul_le_mul_of_nonneg_right hr' one'_pos.le).trans ht.2
      obtain ⟨hvlo, hvhi⟩ := hv
      unfold Itv.Has
      push_cast
      constructor <;> linarith
    rcases le_total 0 (Real.arctan (n : ℝ)⁻¹ - (x - y)) with h | h
    · refine ⟨x + (Real.arctan (n : ℝ)⁻¹ - (x - y)), y + 0, by ring, hbound _ h (by linarith) hp, hbound 0 le_rfl (by positivity) hq⟩
    · refine ⟨x + 0, y + -(Real.arctan (n : ℝ)⁻¹ - (x - y)), by ring, hbound 0 le_rfl (by positivity) hp, hbound _ (by linarith) (by linarith) hq⟩
  | k + 1, j, t, p, q, x, y, ht, hp, hq, _, hxy => by
    have hn' : (n : ℝ) ≠ 0 := by exact_mod_cast (by omega : n ≠ 0)
    have hu := ht.divNat (Nat.succ_pos (2 * j))
    have hnext : (t.divNat (n * n)).Has ((n : ℝ)⁻¹ ^ (2 * (j + 1) + 1)) := by
      refine (ht.divNat (Nat.mul_pos (by omega) (by omega) : 0 < n * n)).congr ?_
      rw [Nat.cast_mul, div_eq_mul_inv, mul_inv]
      ring
    rw [atanInv]
    split
    · next heven =>
      refine atanInv_has hn k (j + 1) _ _ _ _ _ hnext (hp.add hu) hq (by omega) ?_
      rw [Finset.sum_range_succ, ← hxy, (by rw [Nat.even_iff]; omega : Even j).neg_one_pow]
      ring
    · next hodd =>
      refine atanInv_has hn k (j + 1) _ _ _ _ _ hnext hp (hq.add hu) (by omega) ?_
      rw [Finset.sum_range_succ, ← hxy, (by rw [Nat.odd_iff]; omega : Odd j).neg_one_pow]
      ring

/-- atan(1/n) by its two sums. -/
theorem atanInv_sub_has {n : Nat} (hn : 2 ≤ n) {k : Nat} (hk : 0 < k) :
    let a := atanInv n k 1 ((Itv.ofNat 1).divNat n) (⟨0, 0⟩, ⟨0, 0⟩)
    (a.1.sub a.2).Has (Real.arctan (n : ℝ)⁻¹) := by
  have hzero : (⟨0, 0⟩ : Itv).Has 0 := by simp [Itv.Has]
  have hfirst : ((Itv.ofNat 1).divNat n).Has ((n : ℝ)⁻¹ ^ (2 * 0 + 1)) := ((Itv.has_ofNat 1).divNat (by omega : 0 < n)).congr (by simp)
  obtain ⟨x, y, hxy, hx, hy⟩ := atanInv_has hn k 0 _ _ _ 0 0 hfirst hzero hzero (by omega) (by simp)
  have hpos : 0 ≤ Real.arctan (n : ℝ)⁻¹ := Real.arctan_nonneg.2 (by positivity)
  exact (hx.sub hy (by linarith)).congr hxy

theorem Itv.Has.machin {a b : Itv} {x y : ℝ} (ha : a.Has x) (hb : b.Has y) (h : 0 ≤ 16 * x - 4 * y) :
    (⟨16 * a.lo - 4 * b.hi, 16 * a.hi - 4 * b.lo⟩ : Itv).Has (16 * x - 4 * y) := by
  have ha16 : (⟨16 * a.lo, 16 * a.hi⟩ : Itv).Has (16 * x) := by
    obtain ⟨hlo, hhi⟩ := ha
    unfold Itv.Has
    push_cast
    constructor <;> linarith
  have hb4 : (⟨4 * b.lo, 4 * b.hi⟩ : Itv).Has (4 * y) := by
    obtain ⟨hlo, hhi⟩ := hb
    unfold Itv.Has
    push_cast
    constructor <;> linarith
  exact ha16.sub hb4 (sub_nonneg.1 h)

/-- π by Machin's formula. -/
theorem piItv_has : piItv.Has Real.pi := by
  have hmachin : 16 * Real.arctan ((5 : Nat) : ℝ)⁻¹ - 4 * Real.arctan ((239 : Nat) : ℝ)⁻¹ = Real.pi := by
    have h := Real.four_mul_arctan_inv_5_sub_arctan_inv_239
    push_cast
    linarith
  have hpi := (atanInv_sub_has (n := 5) (k := 80) (by decide) (by decide)).machin (atanInv_sub_has (n := 239) (k := 40) (by decide) (by decide))
    (hmachin ▸ Real.pi_pos.le)
  exact hpi.congr hmachin

/-- The square root of an interval whose bounds are below 2^480. -/
theorem sqrtItv_has {a : Itv} {x : ℝ} (ha : a.Has x) (hlo : a.lo * one' < (0 + 2 ^ 400) * (0 + 2 ^ 400))
    (hhi : a.hi * one' < (0 + 2 ^ 400) * (0 + 2 ^ 400)) : (sqrtItv a).Has (Real.sqrt x) := by
  have hu := one'_pos
  have hx := ha.nonneg
  have hs : 0 ≤ Real.sqrt x * one' := mul_nonneg (Real.sqrt_nonneg x) hu.le
  have hroot : (Real.sqrt x * one') * (Real.sqrt x * one') = x * one' * one' := by
    rw [mul_mul_mul_comm, Real.mul_self_sqrt hx, mul_assoc]
  obtain ⟨hlow, -⟩ := isqrt_spec 400 (a.lo * one') 0 (Nat.zero_le _) hlo
  obtain ⟨-, hhigh⟩ := isqrt_spec 400 (a.hi * one') 0 (Nat.zero_le _) hhi
  unfold Itv.Has sqrtItv
  dsimp only
  generalize isqrt 400 (a.lo * one') 0 = r at hlow ⊢
  generalize isqrt 400 (a.hi * one') 0 = q at hhigh ⊢
  constructor
  · refine (mul_self_le_mul_self_iff (Nat.cast_nonneg _) hs).2 ?_
    rw [hroot]
    have hlow' : (r : ℝ) * r ≤ a.lo * one' := by exact_mod_cast hlow
    exact hlow'.trans (mul_le_mul_of_nonneg_right ha.1 hu.le)
  · refine (mul_self_le_mul_self_iff hs (Nat.cast_nonneg _)).2 ?_
    rw [hroot]
    have hhigh' : (a.hi : ℝ) * one' ≤ (q + 1 : Nat) * (q + 1 : Nat) := by exact_mod_cast hhigh.le
    exact (mul_le_mul_of_nonneg_right ha.2 hu.le).trans hhigh'

theorem sqrtPi_has : (sqrtItv piItv).Has (Real.sqrt Real.pi) :=
  sqrtItv_has piItv_has (by decide +kernel) (by decide +kernel)

/-! ### The error function -/

/-- The moments of the Gaussian function, of which erf is the one of order 0. -/
noncomputable def gaussMoment (n : Nat) (x : ℝ) : ℝ := ∫ u in (0 : ℝ)..x, u ^ (2 * n) * Real.exp (-u ^ 2)

theorem gaussMoment_integrable (n : Nat) (x : ℝ) : IntervalIntegrable (fun u : ℝ => u ^ (2 * n) * Real.exp (-u ^ 2)) MeasureTheory.volume 0 x :=
  Continuous.intervalIntegrable (by fun_prop) _ _

/-- Integration by parts leads from a moment to the next. -/
theorem gaussMoment_succ (n : Nat) (x : ℝ) : (2 * n + 1) * gaussMoment n x = x ^ (2 * n + 1) * Real.exp (-x ^ 2) + 2 * gaussMoment (n + 1) x := by
  have hderiv : ∀ u ∈ Set.uIcc 0 x, HasDerivAt (fun u : ℝ => u ^ (2 * n + 1) * Real.exp (-u ^ 2))
      ((2 * n + 1) * (u ^ (2 * n) * Real.exp (-u ^ 2)) - 2 * (u ^ (2 * (n + 1)) * Real.exp (-u ^ 2))) u := fun u _ => by
    have hpow := hasDerivAt_pow (2 * n + 1) u
    have hexp : HasDerivAt (fun u : ℝ => Real.exp (-u ^ 2)) (Real.exp (-u ^ 2) * -(2 * u)) u := by simpa using ((hasDerivAt_pow 2 u).fun_neg).exp
    refine (hpow.fun_mul hexp).congr_deriv ?_
    rw [Nat.add_sub_cancel]
    push_cast
    ring
  have h := intervalIntegral.integral_eq_sub_of_hasDerivAt hderiv
    (((gaussMoment_integrable n x).const_mul _).sub ((gaussMoment_integrable (n + 1) x).const_mul _))
  rw [intervalIntegral.integral_sub ((gaussMoment_integrable n x).const_mul _) ((gaussMoment_integrable (n + 1) x).const_mul _),
    intervalIntegral.integral_const_mul, intervalIntegral.integral_const_mul] at h
  unfold gaussMoment
  simp only [ne_eq, Nat.add_eq_zero_iff, one_ne_zero, and_false, not_false_eq_true, zero_pow, zero_mul, sub_zero] at h
  linarith

theorem gaussMoment_nonneg (n : Nat) {x : ℝ} (hx : 0 ≤ x) : 0 ≤ gaussMoment n x :=
  intervalIntegral.integral_nonneg hx fun _ hu => mul_nonneg (pow_nonneg hu.1 _) (Real.exp_pos _).le

theorem gaussMoment_succ_le (n : Nat) {x : ℝ} (hx : 0 ≤ x) : gaussMoment (n + 1) x ≤ x * x * gaussMoment n x := by
  unfold gaussMoment
  rw [← intervalIntegral.integral_const_mul]
  refine intervalIntegral.integral_mono_on hx (gaussMoment_integrable (n + 1) x) ((gaussMoment_integrable n x).const_mul _) fun u hu => ?_
  have hsq : u * u ≤ x * x := mul_self_le_mul_self hu.1 hu.2
  have hnn : 0 ≤ u ^ (2 * n) * Real.exp (-u ^ 2) := mul_nonneg (pow_nonneg hu.1 _) (Real.exp_pos _).le
  calc u ^ (2 * (n + 1)) * Real.exp (-u ^ 2) = u * u * (u ^ (2 * n) * Real.exp (-u ^ 2)) := by ring
    _ ≤ x * x * (u ^ (2 * n) * Real.exp (-u ^ 2)) := mul_le_mul_of_nonneg_right hsq hnn

/-- The factor of a term of the series of erf: 2^j / (1 · 3 · 5 · … · (2j − 1)). -/
noncomputable def erfCoeff : Nat → ℝ
  | 0 => 1
  | j + 1 => erfCoeff j * (2 / (2 * j + 1))

theorem erfCoeff_succ (j : Nat) : erfCoeff (j + 1) = erfCoeff j * (2 / (2 * j + 1)) := rfl

theorem erfCoeff_pos : ∀ j, 0 < erfCoeff j
  | 0 => one_pos
  | j + 1 => mul_pos (erfCoeff_pos j) (by positivity)

/-- A term of x + 2x³/3 + 4x⁵/(3·5) + … -/
noncomputable def erfTerm (j : Nat) (x : ℝ) : ℝ := erfCoeff j * x ^ (2 * j + 1) / (2 * j + 1)

/-- The rest of the series from a term on. -/
noncomputable def erfRest (j : Nat) (x : ℝ) : ℝ := erfCoeff j * Real.exp (x * x) * gaussMoment j x

theorem erfTerm_succ (j : Nat) (x : ℝ) : erfTerm (j + 1) x = 2 * (erfTerm j x * (x * x)) / (2 * j + 3 : Nat) := by
  rw [erfTerm, erfTerm, erfCoeff_succ]
  push_cast
  field_simp
  ring

theorem erfRest_eq (j : Nat) (x : ℝ) : erfRest j x = erfTerm j x + erfRest (j + 1) x := by
  have hparts := gaussMoment_succ j x
  have hj : (0 : ℝ) < 2 * j + 1 := by positivity
  have hexp : Real.exp (x * x) * Real.exp (-x ^ 2) = 1 := by
    rw [← Real.exp_add, pow_two, add_neg_cancel, Real.exp_zero]
  have hmoment : gaussMoment j x = (x ^ (2 * j + 1) * Real.exp (-x ^ 2) + 2 * gaussMoment (j + 1) x) / (2 * j + 1) := by
    rw [← hparts, mul_div_cancel_left₀ _ hj.ne']
  have hsplit : Real.exp (x * x) * gaussMoment j x = (x ^ (2 * j + 1) + 2 * (Real.exp (x * x) * gaussMoment (j + 1) x)) / (2 * j + 1) := by
    rw [hmoment, mul_div_assoc', mul_add, mul_left_comm, hexp]
    ring
  rw [erfRest, mul_assoc, hsplit, erfTerm, erfRest, erfCoeff_succ]
  ring

theorem erfRest_bounds {j : Nat} {x : ℝ} (hx : 0 ≤ x) (hj : 4 * (x * x) ≤ 2 * j + 1) : 0 ≤ erfRest j x ∧ erfRest j x ≤ 2 * erfTerm j x := by
  have hc := erfCoeff_pos j
  have hnn : ∀ i, 0 ≤ erfRest i x := fun i => mul_nonneg (mul_nonneg (erfCoeff_pos i).le (Real.exp_pos _).le) (gaussMoment_nonneg i hx)
  have hstep : erfRest (j + 1) x ≤ 2 * (x * x) / (2 * j + 1) * erfRest j x := by
    rw [erfRest, erfRest, erfCoeff_succ]
    have hm := mul_le_mul_of_nonneg_left (gaussMoment_succ_le j hx) (by positivity : 0 ≤ erfCoeff j * (2 / (2 * j + 1)) * Real.exp (x * x))
    refine hm.trans_eq ?_
    ring
  have hhalf : 2 * (x * x) / (2 * j + 1) ≤ 1 / 2 := by
    rw [div_le_iff₀ (by positivity)]
    linarith
  have := mul_le_mul_of_nonneg_right hhalf (hnn j)
  have := erfRest_eq j x
  exact ⟨hnn j, by linarith⟩

/-- n further terms of the series of erf from the term of index j on, and a bound of the rest. -/
theorem erfTerms_has {x2 : Itv} {x : ℝ} (hx2 : x2.Has (x * x)) (hx : 0 ≤ x) : ∀ (n j : Nat) (t : Itv), t.Has (erfTerm j x) → 4 * (x * x) ≤ 2 * (n + j : Nat) + 1 →
    (erfTerms x2 n (2 * j + 3) t).Has (erfRest j x)
  | 0, j, t, ht, hj => by
    obtain ⟨hlo, hhi⟩ := erfRest_bounds hx (by rwa [Nat.zero_add] at hj)
    have hthi := ht.2
    have := mul_le_mul_of_nonneg_right hhi one'_pos.le
    refine ⟨by simpa [erfTerms] using mul_nonneg hlo one'_pos.le, ?_⟩
    simp only [erfTerms]
    push_cast
    linarith
  | n + 1, j, t, ht, hj => by
    have hnext := (((ht.mul hx2).double).divNat (Nat.succ_pos (2 * j + 2))).congr (erfTerm_succ j x).symm
    have ih := erfTerms_has hx2 hx n (j + 1) _ hnext (hj.trans_eq (by push_cast; ring))
    exact (ht.add ih).congr (erfRest_eq j x).symm

end Sys2Proof.Machine
end


section
/-! PROOF of O33: FEXP2, FLOG2, FTANH, FSIGM and FERF are correctly rounded where their enclosures decide the rounding (R133). -/

namespace Sys2Proof.Machine

open Sys2Proof

/-! ### Enclosures that decide the rounding -/

/-- The enclosure holds a real number: the sign is its own, and its size is between the bounds. -/
def Enclosure.Holds (c : Enclosure) (y : ℝ) : Prop :=
  ∃ s : ℝ, 0 ≤ s ∧ y = sgn c.neg * s ∧ c.lo * (2 : ℝ) ^ c.exp ≤ s ∧ s ≤ c.hi * (2 : ℝ) ^ c.exp

theorem Itv.Has.enclose {a : Itv} {x : ℝ} (h : a.Has x) (neg : Bool) (e : Int) : (a.enclose neg e).Holds (sgn neg * (x * (2 : ℝ) ^ e)) := by
  have he : (0 : ℝ) < (2 : ℝ) ^ e := zpow_pos two_pos e
  have hu : (2 : ℝ) ^ (e - unitExp) = (2 : ℝ) ^ e / one' := by rw [zpow_sub₀ two_ne_zero, one'_eq]
  obtain ⟨hlo, hhi⟩ := h
  refine ⟨x * (2 : ℝ) ^ e, mul_nonneg (Itv.Has.nonneg ⟨hlo, hhi⟩) he.le, rfl, ?_, ?_⟩
  · change (a.lo : ℝ) * (2 : ℝ) ^ (e - unitExp) ≤ _
    rw [hu, mul_div_assoc', div_le_iff₀ one'_pos]
    linarith [mul_le_mul_of_nonneg_right hlo he.le]
  · change _ ≤ (a.hi : ℝ) * (2 : ℝ) ^ (e - unitExp)
    rw [hu, mul_div_assoc', le_div_iff₀ one'_pos]
    linarith [mul_le_mul_of_nonneg_right hhi he.le]

/-- An enclosure of one value holds it. -/
theorem Enclosure.holds_exact (neg : Bool) (q : Nat) (e : Int) : (⟨neg, q, q, e⟩ : Enclosure).Holds (sgn neg * (q * (2 : ℝ) ^ e)) :=
  ⟨_, mul_nonneg (Nat.cast_nonneg q) (zpow_pos two_pos e).le, rfl, le_rfl, le_rfl⟩

/-- A pattern that both bounds of the enclosure are rounded to is the rounding of a real number. -/
def Enclosure.Rounds (c : Enclosure) (t : Ty) (y : ℝ) : Prop :=
  ∀ r, encodeFloat t .rne false (.fin c.neg c.lo c.exp) = r → encodeFloat t .rne false (.fin c.neg c.hi c.exp) = r → RoundsTo t y r

section
variable {t : Ty} (ht : isFloat t = true)
include ht

/-- What both bounds are rounded to is what all between them is rounded to. -/
theorem Enclosure.Holds.rounds {c : Enclosure} {y : ℝ} (h : c.Holds y) : c.Rounds t y := by
  obtain ⟨s, hs, rfl, hlo, hhi⟩ := h
  intro r hr hr'
  obtain ⟨p, hp, henc⟩ := encodeFloat_rneCode ht c.neg c.lo c.exp
  obtain ⟨q, hq, henc'⟩ := encodeFloat_rneCode ht c.neg c.hi c.exp
  obtain rfl : p = q := by omega
  rw [← hr, henc]
  exact (hp.between hq hlo hhi).roundsTo ht hs c.neg

/-- A value of 2^1000 and more is rounded to the infinity, as 2^1000 is. -/
theorem rounds_of_large {y : ℝ} (h : (2 : ℝ) ^ (1000 : Int) ≤ y) : (⟨false, 1, 1, 1000⟩ : Enclosure).Rounds t y := by
  intro r hr _
  have hinf : encodeFloat t .rne false (.fin false 1 1000) = infBits t false := by
    rcases isFloat_cases ht with rfl | rfl | rfl <;> decide +kernel
  obtain ⟨c, ⟨hc, hlo, -⟩, henc⟩ := encodeFloat_rneCode ht false 1 1000
  obtain rfl : c = infCode t := by
    have h := henc.symm.trans hinf
    rw [infBits_eq] at h
    omega
  have hy : RneCode t (infCode t) y := by
    refine ⟨hc, hlo.imp_right fun h' => ?_, .inl rfl⟩
    rw [Nat.cast_one, one_mul] at h'
    rcases h' with h' | ⟨h', he⟩
    · exact .inl (by linarith)
    · exact (le_iff_lt_or_eq.1 (by linarith : magVal t (infCode t - 1) + magVal t (infCode t) ≤ 2 * y)).imp_right fun h => ⟨h, he⟩
  rw [← hr]
  change RoundsTo t y (encodeFloat t .rne false (.fin false 1 1000))
  rw [henc]
  simpa [sgn] using hy.roundsTo ht ((zpow_pos two_pos _).le.trans h) false

/-- A value of 2^−1000 and less is rounded to 0, as 2^−1000 is. -/
theorem rounds_of_small {y : ℝ} (h0 : 0 ≤ y) (h : y ≤ (2 : ℝ) ^ (-1000 : Int)) : (⟨false, 1, 1, -1000⟩ : Enclosure).Rounds t y := by
  intro r hr _
  have hzero : encodeFloat t .rne false (.fin false 1 (-1000)) = encodeFloat t .rne false (.fin false 0 (-1000)) := by
    rcases isFloat_cases ht with rfl | rfl | rfl <;> decide +kernel
  have hholds : (⟨false, 0, 1, -1000⟩ : Enclosure).Holds y := ⟨y, h0, by simp [sgn], by simpa using h0, by simpa using h⟩
  exact hholds.rounds ht r (hzero.symm.trans hr) hr

omit ht in
/-- A function whose enclosure rounds to one pattern gives the correctly rounded value. -/
theorem ffun_of_rounds {f : FFun} {tick k b m : Nat} {neg : Bool} {e : Int} {c : Enclosure} {y : ℝ} (hd : decodeFloat t b = .fin neg m e) (hm : m ≠ 0)
    (hf : ffinite f t neg m e = if encodeFloat t .rne false (.fin c.neg c.lo c.exp) = encodeFloat t .rne false (.fin c.neg c.hi c.exp)
      then some (encodeFloat t .rne false (.fin c.neg c.lo c.exp)) else none)
    (hsome : (ffinite f t neg m e).isSome = true) (hy : c.Rounds t y) : RoundsTo t y (ffun f t tick k b) := by
  by_cases heq : encodeFloat t .rne false (.fin c.neg c.lo c.exp) = encodeFloat t .rne false (.fin c.neg c.hi c.exp)
  · rw [if_pos heq] at hf
    rw [ffun_of_fin hd hm hf]
    exact hy _ rfl heq.symm
  · rw [hf, if_neg heq] at hsome
    cases hsome

end

/-! ### The enclosures of the functions -/

theorem atLeast_iff {m : Nat} (hm : m ≠ 0) (e k : Int) : (atLeast m e k = true → (2 : ℝ) ^ k ≤ m * (2 : ℝ) ^ e) ∧ (atLeast m e k = false → m * (2 : ℝ) ^ e < (2 : ℝ) ^ k) := by
  obtain ⟨hlo, hhi⟩ := log2_bounds hm e
  simp only [atLeast, decide_eq_true_eq, decide_eq_false_iff_not, not_le]
  exact ⟨fun h => (zpow_le_zpow_right₀ one_le_two h).trans hlo, fun h => hhi.trans_le (zpow_le_zpow_right₀ one_le_two (by omega))⟩

/-- A number that is at least a half is at least the unit of intervals. -/
theorem one_le_mul_one' {y : ℝ} (hy : 1 / 2 ≤ y) : 1 ≤ y * one' := by
  have hu : (2 : ℝ) ≤ one' := by
    have h : 2 ^ 1 ≤ one' := Nat.pow_le_pow_right Nat.two_pos (by decide)
    exact_mod_cast h
  nlinarith

theorem nearOne_has {y : ℝ} (h : 1 - y ≤ (2 : ℝ) ^ (-90 : Int)) (h1 : y ≤ 1) : nearOne.Has y := by
  have hpow : 2 ^ (unitExp - 90) ≤ one' := Nat.pow_le_pow_right Nat.two_pos (by decide)
  have hscale : ((2 ^ (unitExp - 90) : Nat) : ℝ) = (2 : ℝ) ^ (-90 : Int) * one' := by
    rw [one'_eq, ← zpow_add₀ two_ne_zero, Nat.cast_pow, ← zpow_natCast]
    rfl
  unfold Itv.Has nearOne
  dsimp only
  rw [Nat.cast_sub hpow, hscale]
  have hu := one'_pos
  constructor <;> nlinarith

theorem ofNat_one_has : (Itv.ofNat 1).Has 1 := by simpa using Itv.has_ofNat 1

/-- (e^v − 1) / (e^v + 1) and its neighbours stand in intervals made from one of e^v. -/
theorem exp_quotients {a : Itv} {v : ℝ} (ha : a.Has v) (hv : v ≤ 256) : let y := expItv a
    ((y.sub (Itv.ofNat 1)).div (y.add (Itv.ofNat 1))).Has ((Real.exp v - 1) / (Real.exp v + 1)) ∧ (y.div (y.add (Itv.ofNat 1))).Has (Real.exp v / (Real.exp v + 1)) ∧
      ((Itv.ofNat 1).div ((Itv.ofNat 1).add y)).Has (1 / (1 + Real.exp v)) := by
  have hexp := expItv_has ha hv
  have hge : 1 ≤ Real.exp v := Real.one_le_exp ha.nonneg
  have hunit : 1 ≤ (Real.exp v + 1) * one' := one_le_mul_one' (by linarith)
  exact ⟨(hexp.sub ofNat_one_has hge).div (hexp.add ofNat_one_has) hunit, hexp.div (hexp.add ofNat_one_has) hunit,
    ofNat_one_has.div (ofNat_one_has.add hexp) (by rwa [add_comm])⟩

/-- A power of two is at most a power of e. -/
theorem two_zpow_le_exp {n : Int} {v : ℝ} (hn : 0 ≤ n) (h : n * 0.6931471808 ≤ v) : (2 : ℝ) ^ n ≤ Real.exp v := by
  rw [← Real.exp_log (zpow_pos two_pos n : (0 : ℝ) < (2 : ℝ) ^ n), Real.log_zpow]
  refine Real.exp_le_exp.2 (le_trans ?_ h)
  exact mul_le_mul_of_nonneg_left Real.log_two_lt_d9.le (by exact_mod_cast hn)

theorem tanh_eq (v : ℝ) : Real.tanh v = (Real.exp (2 * v) - 1) / (Real.exp (2 * v) + 1) := by
  rw [Real.tanh_eq_sinh_div_cosh, Real.sinh_eq, Real.cosh_eq, two_mul, Real.exp_add, Real.exp_neg]
  have h := Real.exp_pos v
  field_simp

theorem tanhEnc_holds (neg : Bool) {m : Nat} (hm : m ≠ 0) (e : Int) : (tanhEnc neg m e).Holds (Real.tanh (sgn neg * (m * (2 : ℝ) ^ e))) := by
  have hodd : Real.tanh (sgn neg * (m * (2 : ℝ) ^ e)) = sgn neg * (Real.tanh (m * (2 : ℝ) ^ e) * (2 : ℝ) ^ (0 : Int)) := by
    cases neg <;> simp [sgn]
  obtain ⟨hge, hlt⟩ := atLeast_iff hm e 5
  have hpos := Real.exp_pos (2 * (m * (2 : ℝ) ^ e))
  rw [hodd]
  unfold tanhEnc
  split
  · next h =>
    have hx := hge h
    refine (nearOne_has ?_ (Real.tanh_lt_one _).le).enclose neg 0
    have hexp : (2 : ℝ) ^ (92 : Int) ≤ Real.exp (2 * (m * (2 : ℝ) ^ e)) := two_zpow_le_exp (by decide) (by norm_num at hx ⊢; linarith)
    have hrest : 1 - Real.tanh (m * (2 : ℝ) ^ e) = 2 / (Real.exp (2 * (m * (2 : ℝ) ^ e)) + 1) := by
      rw [tanh_eq]
      field_simp
      ring
    rw [hrest, div_le_iff₀ (by linarith)]
    norm_num at hexp ⊢
    linarith
  · next h =>
    have hx := hlt (by simpa using h)
    have harg : (itvOf m (e + 1)).Has (2 * (m * (2 : ℝ) ^ e)) := (itvOf_has m (e + 1)).congr (by rw [zpow_add_one₀ two_ne_zero]; ring)
    have hquot := (exp_quotients harg (by norm_num at hx; linarith)).1
    rw [← tanh_eq] at hquot
    exact hquot.enclose neg 0

theorem sigmEnc_holds (neg : Bool) {m : Nat} (hm : m ≠ 0) (e : Int) : (sigmEnc neg m e).Holds (1 / (1 + Real.exp (-(sgn neg * (m * (2 : ℝ) ^ e))))) := by
  have hpos := Real.exp_pos (m * (2 : ℝ) ^ e)
  have hplain : ∀ {a : Itv} {v : ℝ}, a.Has v → (a.enclose false).Holds v := fun h => by simpa [sgn] using h.enclose false 0
  cases neg with
  | true =>
    obtain ⟨hge, hlt⟩ := atLeast_iff hm e 7
    have harg : -(sgn true * (m * (2 : ℝ) ^ e)) = m * (2 : ℝ) ^ e := by simp [sgn]
    rw [harg]
    simp only [sigmEnc, if_true]
    split
    · next h =>
      have hx := hge h
      have hexp : (2 : ℝ) ^ (180 : Int) ≤ Real.exp (m * (2 : ℝ) ^ e) := two_zpow_le_exp (by decide) (by norm_num at hx ⊢; linarith)
      refine ⟨1 / (1 + Real.exp (m * (2 : ℝ) ^ e)), by positivity, by simp [sgn], by simp; positivity, ?_⟩
      have hscale : ((2 ^ (unitExp - 180) : Nat) : ℝ) * (2 : ℝ) ^ (-(unitExp : Int)) = 1 / (2 : ℝ) ^ (180 : Int) := by
        rw [Nat.cast_pow, ← zpow_natCast, Nat.cast_ofNat, ← zpow_add₀ two_ne_zero, one_div, ← zpow_neg]
        rfl
      dsimp only
      rw [hscale]
      exact one_div_le_one_div_of_le (zpow_pos two_pos _) (by linarith)
    · next h =>
      have hx := hlt (by simpa using h)
      exact hplain (exp_quotients (itvOf_has m e) (by norm_num at hx; linarith)).2.2
  | false =>
    obtain ⟨hge, hlt⟩ := atLeast_iff hm e 6
    have hval : 1 / (1 + Real.exp (-(sgn false * (m * (2 : ℝ) ^ e)))) = Real.exp (m * (2 : ℝ) ^ e) / (Real.exp (m * (2 : ℝ) ^ e) + 1) := by
      simp only [sgn, Bool.false_eq_true, if_false, one_mul, Real.exp_neg]
      field_simp
    rw [hval]
    simp only [sigmEnc, Bool.false_eq_true, if_false]
    split
    · next h =>
      have hx := hge h
      have hexp : (2 : ℝ) ^ (90 : Int) ≤ Real.exp (m * (2 : ℝ) ^ e) := two_zpow_le_exp (by decide) (by norm_num at hx ⊢; linarith)
      refine hplain (nearOne_has ?_ ((div_le_one (by linarith)).2 (by linarith)))
      have hrest : 1 - Real.exp (m * (2 : ℝ) ^ e) / (Real.exp (m * (2 : ℝ) ^ e) + 1) = 1 / (Real.exp (m * (2 : ℝ) ^ e) + 1) := by
        field_simp
        ring
      rw [hrest, div_le_iff₀ (by linarith)]
      norm_num at hexp ⊢
      linarith
    · next h =>
      have hx := hlt (by simpa using h)
      exact hplain (exp_quotients (itvOf_has m e) (by norm_num at hx; linarith)).2.1

/-- erf beyond 8 is within 2^−90 of 1. -/
theorem erf_near_one {x : ℝ} (hx : 8 ≤ x) : 1 - 2 / Real.sqrt Real.pi * gaussMoment 0 x ≤ (2 : ℝ) ^ (-90 : Int) ∧ 2 / Real.sqrt Real.pi * gaussMoment 0 x ≤ 1 := by
  have hpi : 1 ≤ Real.sqrt Real.pi := Real.one_le_sqrt.2 (by linarith [Real.pi_gt_three])
  have hint : MeasureTheory.Integrable fun u : ℝ => Real.exp (-u ^ 2) := by simpa using integrable_exp_neg_mul_sq one_pos
  have hwhole : ∫ u in Set.Ioi (0 : ℝ), Real.exp (-u ^ 2) = Real.sqrt Real.pi / 2 := by simpa using integral_gaussian_Ioi 1
  have hsum : gaussMoment 0 x + ∫ u in Set.Ioi x, Real.exp (-u ^ 2) = Real.sqrt Real.pi / 2 := by
    have h := intervalIntegral.integral_interval_add_Ioi (a := 0) (b := x) hint.integrableOn hint.integrableOn
    rw [hwhole] at h
    simpa [gaussMoment] using h
  have htail0 : 0 ≤ ∫ u in Set.Ioi x, Real.exp (-u ^ 2) := MeasureTheory.integral_nonneg fun _ => (Real.exp_pos _).le
  have htail : ∫ u in Set.Ioi x, Real.exp (-u ^ 2) ≤ Real.exp (-64) := by
    calc ∫ u in Set.Ioi x, Real.exp (-u ^ 2) ≤ ∫ u in Set.Ioi x, Real.exp (-56) * Real.exp (-u) := by
          refine MeasureTheory.setIntegral_mono_on hint.integrableOn ((integrableOn_exp_neg_Ioi x).const_mul _) measurableSet_Ioi fun u hu => ?_
          have hu8 : 8 < u := hx.trans_lt hu
          rw [← Real.exp_add]
          exact Real.exp_le_exp.2 (by nlinarith)
      _ = Real.exp (-56) * Real.exp (-x) := by rw [MeasureTheory.integral_const_mul, integral_exp_neg_Ioi]
      _ ≤ Real.exp (-64) := by
          rw [← Real.exp_add]
          exact Real.exp_le_exp.2 (by linarith)
  have hsmall : 2 * Real.exp (-64) ≤ (2 : ℝ) ^ (-90 : Int) := by
    have h := two_zpow_le_exp (n := 91) (v := 64) (by decide) (by norm_num)
    rw [Real.exp_neg, ← div_eq_mul_inv, div_le_iff₀ (Real.exp_pos _)]
    norm_num at h ⊢
    linarith
  have hval : 2 / Real.sqrt Real.pi * gaussMoment 0 x = 1 - 2 / Real.sqrt Real.pi * ∫ u in Set.Ioi x, Real.exp (-u ^ 2) := by
    rw [eq_sub_of_add_eq hsum]
    field_simp
  have hfactor : 2 / Real.sqrt Real.pi ≤ 2 := div_le_self two_pos.le hpi
  rw [hval, sub_sub_cancel]
  exact ⟨(mul_le_mul hfactor htail htail0 two_pos.le).trans hsmall, sub_le_self _ (mul_nonneg (by positivity) htail0)⟩

theorem erfEnc_holds (neg : Bool) {m : Nat} (hm : m ≠ 0) (e : Int) : (erfEnc neg m e).Holds (2 / Real.sqrt Real.pi * gaussMoment 0 (sgn neg * (m * (2 : ℝ) ^ e))) := by
  have hx0 : 0 ≤ m * (2 : ℝ) ^ e := by positivity
  have hodd : gaussMoment 0 (sgn neg * (m * (2 : ℝ) ^ e)) = sgn neg * gaussMoment 0 (m * (2 : ℝ) ^ e) := by
    cases neg with
    | false => simp [sgn]
    | true =>
      have h := intervalIntegral.integral_comp_neg (a := 0) (b := m * (2 : ℝ) ^ e) fun u : ℝ => u ^ (2 * 0) * Real.exp (-u ^ 2)
      simp only [mul_zero, pow_zero, one_mul, even_two.neg_pow, neg_zero] at h
      simp only [gaussMoment, sgn, if_true, neg_mul, one_mul, mul_zero, pow_zero]
      rw [intervalIntegral.integral_symm, h]
  have hval : 2 / Real.sqrt Real.pi * gaussMoment 0 (sgn neg * (m * (2 : ℝ) ^ e)) =
      sgn neg * (2 / Real.sqrt Real.pi * gaussMoment 0 (m * (2 : ℝ) ^ e) * (2 : ℝ) ^ (0 : Int)) := by
    rw [hodd, zpow_zero]
    ring
  obtain ⟨hge, hlt⟩ := atLeast_iff hm e 3
  have height : (2 : ℝ) ^ (3 : Int) = 8 := by norm_num
  rw [height] at hge hlt
  rw [hval]
  unfold erfEnc
  split
  · next h =>
    obtain ⟨hnear, hle⟩ := erf_near_one (hge h)
    exact (nearOne_has hnear hle).enclose neg 0
  · next h =>
    have hx := hlt (by simpa using h)
    have hitv := itvOf_has m e
    have hsq : (m * (2 : ℝ) ^ e) * (m * (2 : ℝ) ^ e) ≤ 64 := by nlinarith
    have hterm : (itvOf m e).Has (erfTerm 0 (m * (2 : ℝ) ^ e)) := hitv.congr (by simp [erfTerm, erfCoeff])
    have hseries := (erfTerms_has (hitv.mul hitv) hx0 400 0 _ hterm (by push_cast; linarith)).double
    have hden := (expItv_has (hitv.mul hitv) (by linarith)).mul sqrtPi_has
    have hexp : 1 ≤ Real.exp (m * (2 : ℝ) ^ e * (m * (2 : ℝ) ^ e)) := Real.one_le_exp (mul_self_nonneg _)
    have hpi : 1 ≤ Real.sqrt Real.pi := Real.one_le_sqrt.2 (by linarith [Real.pi_gt_three])
    have hquot := hseries.div hden (one_le_mul_one' (by nlinarith))
    refine (hquot.congr ?_).enclose neg 0
    rw [erfRest, erfCoeff]
    field_simp

/-- Of a mantissa, scaled by its leading bit to a number from 1 to 2, the logarithm is a fraction. -/
theorem logb_significand {m : Nat} (hm : m ≠ 0) : let x : ℝ := m * (2 : ℝ) ^ (-(Nat.log2 m : Int))
    1 ≤ x ∧ x < 2 ∧ 0 ≤ Real.logb 2 x ∧ Real.logb 2 x < 1 ∧ ∀ e : Int, Real.logb 2 (m * (2 : ℝ) ^ e) = Real.logb 2 x + ((Nat.log2 m + e : Int) : ℝ) := by
  have hmpos : (0 : ℝ) < m := Nat.cast_pos.2 (Nat.pos_of_ne_zero hm)
  have hlogb : ∀ n : Int, Real.logb 2 ((2 : ℝ) ^ n) = n := fun n => by rw [← Real.rpow_intCast, Real.logb_rpow two_pos (by norm_num)]
  obtain ⟨hlo, hhi⟩ := log2_bounds hm (-(Nat.log2 m : Int))
  rw [add_neg_cancel, zpow_zero] at hlo
  rw [add_neg_cancel, zero_add, zpow_one] at hhi
  refine ⟨hlo, hhi, Real.logb_nonneg one_lt_two hlo, ?_, fun e => ?_⟩
  · rw [Real.logb_lt_iff_lt_rpow one_lt_two (by linarith), Real.rpow_one]
    exact hhi
  · rw [Real.logb_mul hmpos.ne' (zpow_pos two_pos _).ne', Real.logb_mul hmpos.ne' (zpow_pos two_pos _).ne', hlogb, hlogb]
    push_cast
    ring

theorem log2Enc_holds {m : Nat} (hm : m ≠ 0) (e : Int) : (log2Enc m e).Holds (Real.logb 2 (m * (2 : ℝ) ^ e)) := by
  obtain ⟨h1, h2, hg0, hg1, hsplit⟩ := logb_significand hm
  rw [hsplit]
  unfold log2Enc
  dsimp only
  generalize (Nat.log2 m : Int) + e = n
  have hcast : ((n.natAbs : Nat) : ℝ) = |(n : ℝ)| := by rw [Nat.cast_natAbs, Int.cast_abs]
  split
  · next hpow =>
    have hone : (m : ℝ) * (2 : ℝ) ^ (-(Nat.log2 m : Int)) = 1 := by
      have h : (m : ℝ) = (2 : ℝ) ^ (Nat.log2 m : Int) := by
        rw [zpow_natCast]
        exact_mod_cast hpow
      rw [zpow_neg, ← h, mul_inv_cancel₀ (Nat.cast_ne_zero.2 hm)]
    have hexact := Enclosure.holds_exact (decide (n < 0)) n.natAbs 0
    rw [hone, Real.logb_one, zero_add]
    rw [zpow_zero, mul_one, hcast] at hexact
    convert hexact using 1
    by_cases hn : n < 0
    · simp [sgn, hn, abs_of_neg (Int.cast_lt_zero.2 hn : (n : ℝ) < 0)]
    · simp [sgn, hn, abs_of_nonneg (Int.cast_nonneg (Int.not_lt.1 hn) : (0 : ℝ) ≤ n)]
  · have hlog2 : 1 / 2 ≤ Real.log 2 := by linarith [Real.log_two_gt_d9]
    have hfrac : ((lnItv (itvOf m (-(Nat.log2 m : Int)))).div ln2Itv).Has (Real.logb 2 (m * (2 : ℝ) ^ (-(Nat.log2 m : Int)))) :=
      (lnItv_has (itvOf_has m _) h1 h2.le).div ln2Itv_has (one_le_mul_one' hlog2)
    split
    · next hn =>
      have hsum := ((Itv.has_ofNat n.toNat).add hfrac).enclose false 0
      have hn' : ((n.toNat : Nat) : ℝ) = n := by exact_mod_cast Int.toNat_of_nonneg hn
      convert hsum using 1
      rw [hn']
      simp [sgn, add_comm]
    · next hn =>
      have hneg : (n : ℝ) ≤ -1 := by exact_mod_cast (by omega : n ≤ -1)
      have habs : ((n.natAbs : Nat) : ℝ) = -n := hcast.trans (abs_of_neg (by linarith))
      have hdiff := ((Itv.has_ofNat n.natAbs).sub hfrac (by rw [habs]; linarith)).enclose true 0
      convert hdiff using 1
      rw [habs]
      simp [sgn]

/-- The integer and the fraction of a number at unit 2^−160 are those of its quotient. -/
theorem exp2_split (x : Int) : (x : ℝ) / 2 ^ 160 = x.fdiv (2 ^ 160) + ((x.fmod (2 ^ 160)).toNat : ℝ) * (2 : ℝ) ^ (-160 : Int) ∧ (x.fmod (2 ^ 160)).toNat < 2 ^ 160 := by
  have hpos : (0 : Int) < 2 ^ 160 := by positivity
  have hnn := Int.fmod_nonneg_of_pos x hpos
  have hlt := Int.fmod_lt_of_pos x hpos
  have hsum := Int.mul_fdiv_add_fmod x (2 ^ 160)
  constructor
  · have hcast : (((x.fmod (2 ^ 160)).toNat : Nat) : ℝ) = ((x.fmod (2 ^ 160) : Int) : ℝ) := by exact_mod_cast Int.toNat_of_nonneg hnn
    have hreal : (x : ℝ) = 2 ^ 160 * (x.fdiv (2 ^ 160) : Int) + (x.fmod (2 ^ 160) : Int) := by exact_mod_cast hsum.symm
    rw [hcast, zpow_neg, ← div_eq_mul_inv, hreal]
    field_simp
  · omega

theorem exp2Enc_rounds {t : Ty} (ht : isFloat t = true) (neg : Bool) {m : Nat} (hm : m ≠ 0) {e : Int} (he : 0 ≤ e + 160) :
    (exp2Enc neg m e).Rounds t ((2 : ℝ) ^ (sgn neg * (m * (2 : ℝ) ^ e))) := by
  have hlarge : ∀ v : ℝ, 1000 ≤ v → (2 : ℝ) ^ (1000 : Int) ≤ (2 : ℝ) ^ v := fun v hv => by
    rw [← Real.rpow_intCast]
    exact Real.rpow_le_rpow_of_exponent_le one_le_two (by exact_mod_cast hv)
  have hsmall : ∀ v : ℝ, v ≤ -1000 → (2 : ℝ) ^ v ≤ (2 : ℝ) ^ (-1000 : Int) := fun v hv => by
    rw [← Real.rpow_intCast]
    exact Real.rpow_le_rpow_of_exponent_le one_le_two (by exact_mod_cast hv)
  have hscaled : ((if 0 ≤ e + 160 then (m * 2 ^ (e + 160).toNat : Nat) else 0 : Int) : ℝ) = m * (2 : ℝ) ^ e * 2 ^ 160 := by
    rw [if_pos he]
    push_cast
    rw [← zpow_natCast, Int.toNat_of_nonneg he, zpow_add₀ two_ne_zero, mul_assoc]
    rfl
  unfold exp2Enc
  dsimp only
  generalize (if 0 ≤ e + 160 then ((m * 2 ^ (e + 160).toNat : Nat) : Int) else 0) = scaled at hscaled ⊢
  split
  · next hbig =>
    have hx : 1000 ≤ m * (2 : ℝ) ^ e := by
      have h := (zpow_le_zpow_right₀ one_le_two hbig).trans (log2_bounds hm e).1
      norm_num at h
      linarith
    cases neg with
    | false => exact rounds_of_large ht (hlarge _ (by simpa [sgn] using hx))
    | true => exact rounds_of_small ht (Real.rpow_pos_of_pos two_pos _).le (hsmall _ (by simpa [sgn] using hx))
  · have hx : sgn neg * (m * (2 : ℝ) ^ e) = ((if neg = true then -scaled else scaled : Int) : ℝ) / 2 ^ 160 := by
      have hpow : (2 : ℝ) ^ 160 ≠ 0 := by positivity
      cases neg <;> simp only [sgn, Bool.false_eq_true, if_true, if_false, Int.cast_neg, hscaled, neg_mul, one_mul, neg_div, mul_div_cancel_right₀ _ hpow]
    obtain ⟨hsplit, hf⟩ := exp2_split (if neg = true then -scaled else scaled)
    rw [hsplit] at hx
    rw [hx]
    generalize (if neg = true then -scaled else scaled).fdiv (2 ^ 160) = n at hx ⊢
    generalize ((if neg = true then -scaled else scaled).fmod (2 ^ 160)).toNat = f at hx hf ⊢
    have hfrac : (f : ℝ) * (2 : ℝ) ^ (-160 : Int) < 1 := by
      rw [zpow_neg, ← div_eq_mul_inv, div_lt_one (by positivity)]
      exact_mod_cast hf
    have hfrac0 : 0 ≤ (f : ℝ) * (2 : ℝ) ^ (-160 : Int) := by positivity
    split
    · next hn =>
      have hx0 : 0 ≤ m * (2 : ℝ) ^ e := by positivity
      cases neg with
      | false =>
        have hn0 : (-1 : ℝ) < n := by
          simp only [sgn, Bool.false_eq_true, if_false, one_mul] at hx
          linarith
        have hn4 : (4000 : ℝ) < n := by
          have : -1 < n := by exact_mod_cast hn0
          exact_mod_cast (by omega : 4000 < n)
        exact rounds_of_large ht (hlarge _ (by linarith))
      | true =>
        have hn0 : (n : ℝ) ≤ 0 := by
          simp only [sgn, if_true, neg_mul, one_mul] at hx
          linarith
        have hn4 : (n : ℝ) ≤ -4001 := by
          have : n ≤ 0 := by exact_mod_cast hn0
          exact_mod_cast (by omega : n ≤ -4001)
        exact rounds_of_small ht (Real.rpow_pos_of_pos two_pos _).le (hsmall _ (by linarith))
    · split
      · next hf0 =>
        have hexact : (2 : ℝ) ^ ((n : ℝ) + f * (2 : ℝ) ^ (-160 : Int)) = sgn false * ((1 : Nat) * (2 : ℝ) ^ n) := by
          rw [hf0, Nat.cast_zero, zero_mul, add_zero, Real.rpow_intCast]
          simp [sgn]
        rw [hexact]
        exact (Enclosure.holds_exact false 1 n).rounds ht
      · have hlog : Real.log 2 ≤ 1 := by linarith [Real.log_two_lt_d9]
        have harg := (itvOf_has f (-160)).mul ln2Itv_has
        have hexp := (expItv_has harg (by nlinarith)).enclose false n
        have hval : (2 : ℝ) ^ ((n : ℝ) + f * (2 : ℝ) ^ (-160 : Int)) = sgn false * (Real.exp (f * (2 : ℝ) ^ (-160 : Int) * Real.log 2) * (2 : ℝ) ^ n) := by
          rw [Real.rpow_add two_pos, Real.rpow_intCast, Real.rpow_def_of_pos two_pos, mul_comm (Real.log 2)]
          simp [sgn, mul_comm]
        rw [hval]
        exact hexp.rounds ht

/-- The exponents of a type's values are not below that of the smallest. -/
theorem unitOf_le_exponent {t : Ty} (ht : isFloat t = true) {b m : Nat} {neg : Bool} {e : Int} (h : decodeFloat t b = .fin neg m e) : -160 ≤ e := by
  have hunit : -160 ≤ unitOf t := by
    rcases isFloat_cases ht with rfl | rfl | rfl <;> decide
  refine hunit.trans ?_
  unfold decodeFloat at h
  dsimp only at h
  split at h
  · split at h <;> cases h
  · split at h
    · cases h
      exact le_rfl
    · next hne =>
      cases h
      unfold unitOf
      omega

/-- Settles O33: each function by its enclosure, whose two bounds are rounded alike. -/
theorem seriesRounded : Obligations.SeriesRounded := by
  unfold Obligations.SeriesRounded
  intro f t tick k b m neg e x y hrcp hrsq ht hd hm hlog hsome hx hy
  obtain rfl := hx.eq hd
  cases f with
  | rcp => exact absurd rfl hrcp
  | rsq => exact absurd rfl hrsq
  | exp2 =>
    obtain rfl : y = _ := hy
    exact ffun_of_rounds hd hm (by simp only [ffinite]) hsome (exp2Enc_rounds ht neg hm (by have := unitOf_le_exponent ht hd; omega))
  | log2 =>
    obtain rfl : y = _ := hy
    obtain rfl := hlog rfl
    rw [show sgn false * (m * (2 : ℝ) ^ e) = m * (2 : ℝ) ^ e by simp [sgn]]
    exact ffun_of_rounds hd hm (by simp only [ffinite, Bool.false_eq_true, if_false]) hsome ((log2Enc_holds hm e).rounds ht)
  | tanh =>
    obtain rfl : y = _ := hy
    exact ffun_of_rounds hd hm (by simp only [ffinite]) hsome ((tanhEnc_holds neg hm e).rounds ht)
  | sigm =>
    obtain rfl : y = _ := hy
    exact ffun_of_rounds hd hm (by simp only [ffinite]) hsome ((sigmEnc_holds neg hm e).rounds ht)
  | erf =>
    obtain rfl : y = 2 / Real.sqrt Real.pi * gaussMoment 0 (sgn neg * (m * (2 : ℝ) ^ e)) := by
      change y = 2 / Real.sqrt Real.pi * ∫ u in (0 : ℝ)..sgn neg * (m * (2 : ℝ) ^ e), Real.exp (-u ^ 2) at hy
      simpa [gaussMoment] using hy
    exact ffun_of_rounds hd hm (by simp only [ffinite]) hsome ((erfEnc_holds neg hm e).rounds ht)

end Sys2Proof.Machine
end

section
/-! PROOF of O12: the tag table (R142, R391). -/

namespace Sys2Proof

/-! ### Searching a table by its values -/

/-- A filter that the first entry found passes does not change what is found. -/
theorem find?_filter_of_find? {α : Type} {keep hit : α → Bool} {l : List α} (h : ∀ a, l.find? hit = some a → keep a = true) :
    (l.filter keep).find? hit = l.find? hit := by
  induction l with
  | nil => rfl
  | cons a l ih =>
    cases hh : hit a with
    | true => rw [List.filter_cons_of_pos (h a (List.find?_cons_of_pos hh)), List.find?_cons_of_pos hh, List.find?_cons_of_pos hh]
    | false =>
      have ih := ih fun b hb => h b ((List.find?_cons_of_neg (by simp [hh])).trans hb)
      rw [List.find?_cons_of_neg (by simp [hh]), ← ih]
      cases hk : keep a with
      | true => rw [List.filter_cons_of_pos hk, List.find?_cons_of_neg (by simp [hh])]
      | false => rw [List.filter_cons_of_neg (by simp [hk])]

theorem Tab.find?_insert_of_not {α : Type} {hit : Nat × α → Bool} {k : Nat} {x : α} (h : hit (k, x) = false) (t : Tab α) :
    (Tab.insert t k x).find? hit = t.find? hit := by
  induction t with
  | nil => simp [Tab.insert, h]
  | cons p t ih =>
    unfold Tab.insert
    split
    · rw [List.find?_cons, List.find?_cons, ih]
    · rw [List.find?_cons_of_neg (by simp [h])]

theorem Tab.find?_insert_of_none {α : Type} {hit : Nat × α → Bool} {k : Nat} {x : α} {t : Tab α} (h : hit (k, x) = true) (hn : ∀ p ∈ t, hit p = false) :
    (Tab.insert t k x).find? hit = some (k, x) := by
  induction t with
  | nil => simp [Tab.insert, h]
  | cons p t ih =>
    unfold Tab.insert
    split
    · rw [List.find?_cons_of_neg (by simp [hn p (List.mem_cons_self ..)]), ih fun q hq => hn q (List.mem_cons_of_mem _ hq)]
    · rw [List.find?_cons_of_pos h]

/-- A key's entry is listed. -/
theorem Tab.mem_of_find {α : Type} {t : Tab α} {k : Nat} {x : α} (h : Tab.find t k = some x) : (k, x) ∈ t := by
  induction t with
  | nil => cases h
  | cons p t ih =>
    obtain ⟨a, y⟩ := p
    unfold Tab.find at h
    split at h
    · next ha => cases h; simp [ha]
    · exact List.mem_cons_of_mem _ (ih h)

/-- A key whose entry stays reads as before when entries of a value are taken out. -/
theorem Tab.find_filter_ne {α : Type} [DecidableEq α] {t : Tab α} {k : Nat} {x : α} (h : Tab.find t k ≠ some x) :
    Tab.find (t.filter fun p => p.2 != x) k = Tab.find t k := by
  induction t with
  | nil => rfl
  | cons p t ih =>
    obtain ⟨a, y⟩ := p
    by_cases ha : a = k
    · subst ha
      have hy : y ≠ x := fun hy => h (by simp [Tab.find, hy])
      simp [hy, Tab.find]
    · have ih := ih (by simpa [Tab.find, ha] using h)
      by_cases hy : y = x
      · simpa [hy, Tab.find, ha] using ih
      · simpa [hy, Tab.find, ha] using ih

end Sys2Proof

namespace Sys2Proof.Machine

open Sys2Proof

/-! ### The slot of a tag (R142) -/

/-- The tag table without a tag. -/
def Stream.dropTag (st : Stream) (tag : Nat) : Stream := { st with tags := st.tags.filter fun p => p.2 != tag }

/-- The tag table with a tag in a slot. -/
def Stream.putTag (st : Stream) (k tag : Nat) : Stream := { st with tags := Tab.set st.tags k tag }

theorem Stream.slotOf_dropTag_self (st : Stream) (tag : Nat) : (st.dropTag tag).slotOf tag = none := by
  unfold Stream.slotOf Stream.dropTag
  rw [List.find?_eq_none.2 fun p hp => by simpa using (List.mem_filter.1 hp).2]
  rfl

theorem Stream.slotOf_dropTag_ne (st : Stream) {tag g : Nat} (h : g ≠ tag) : (st.dropTag tag).slotOf g = st.slotOf g := by
  refine congrArg (Option.map _) (find?_filter_of_find? fun p hp => ?_)
  have hg : p.2 = g := by simpa using List.find?_some hp
  simpa [hg] using h

theorem Stream.slotOf_putTag_self {st : Stream} {k tag : Nat} (h : st.slotOf tag = none) : (st.putTag k tag).slotOf tag = some k := by
  have hn : ∀ p ∈ Tab.erase st.tags k, (p.2 == tag) = false := fun p hp =>
    Bool.eq_false_iff.2 (List.find?_eq_none.1 (Option.map_eq_none_iff.1 h) p (List.mem_filter.1 hp).1)
  exact congrArg (Option.map _) (Tab.find?_insert_of_none (by simp) hn)

/-- A tag that stands in another slot keeps it. -/
theorem Stream.slotOf_putTag_ne {st : Stream} {k tag g : Nat} (h : g ≠ tag) (hk : st.slotOf g ≠ some k) : (st.putTag k tag).slotOf g = st.slotOf g := by
  refine congrArg (Option.map _) ((Tab.find?_insert_of_not (by simpa using h.symm) _).trans (find?_filter_of_find? fun p hp => ?_))
  have hne : p.1 ≠ k := fun he => hk (by rw [Stream.slotOf, hp, Option.map_some, he])
  simpa using hne

/-- TSET's table: the tag in the slot named and in no other (R391). -/
def Stream.setTag (st : Stream) (k tag : Nat) : Stream := (st.dropTag tag).putTag k tag

theorem Stream.slotOf_setTag_self (st : Stream) (k tag : Nat) : (st.setTag k tag).slotOf tag = some k := Stream.slotOf_putTag_self (st.slotOf_dropTag_self tag)

theorem Stream.slotOf_setTag_ne {st : Stream} {k tag g : Nat} (h : g ≠ tag) (hk : st.slotOf g ≠ some k) : (st.setTag k tag).slotOf g = st.slotOf g :=
  (Stream.slotOf_putTag_ne h (by rwa [Stream.slotOf_dropTag_ne _ h])).trans (Stream.slotOf_dropTag_ne _ h)

/-- Another slot does not hold the tag, and keeps what else it holds. -/
theorem Stream.find_setTag_ne (st : Stream) {k tag j : Nat} (h : j ≠ k) : Tab.find (st.setTag k tag).tags j ≠ some tag ∧
    (Tab.find st.tags j ≠ some tag → Tab.find (st.setTag k tag).tags j = Tab.find st.tags j) := by
  have hset : Tab.find (st.setTag k tag).tags j = Tab.find (st.dropTag tag).tags j := (Tab.find_set ..).trans (if_neg h)
  rw [hset]
  exact ⟨fun hf => by simpa using (List.mem_filter.1 (Tab.mem_of_find hf)).2, Tab.find_filter_ne⟩

/-- What TSET gives for the entry its slot held (R391). -/
def oldTag (tags : Tab Nat) (k : Nat) : Word := match Tab.find tags k with
  | some g => BitVec.ofNat 64 (g * 4096)
  | none => BitVec.allOnes 64

theorem execTset_sets {s : State} (d : SReg) {a b : SReg} (h : (s.getS b).toNat < (if s.me.wide then 256 else 128)) :
    exec (.tset d a b) s = .next ((s.setMe (s.me.setTag (s.getS b).toNat (tagOf (s.getS a)))).setS d (oldTag s.me.tags (s.getS b).toNat)) :=
  if_neg (Nat.not_le.2 h)

theorem execTinv_drops (s : State) (a : SReg) : exec (.tinv a) s = .next (s.setMe (s.me.dropTag (tagOf (s.getS a)))) := rfl

/-- A change of the issuing stream changes nothing else. -/
theorem onlyMe_setMe (s : State) (st : Stream) : OnlyMe s (s.setMe st) := ⟨rfl, fun _ hk => State.stream_setMe_ne s st hk⟩

theorem OnlyMe.trans {s t u : State} (h : OnlyMe s t) (k : OnlyMe t u) : OnlyMe s u := by
  have hcur : t.cur = s.cur := (congrArg State.cur h.1 :)
  exact ⟨k.1.trans (by rw [h.1]), fun j hj => (k.2 j (by rwa [hcur])).trans (h.2 j hj)⟩

/-- A register written beside a change of the stream. -/
theorem State.me_setS_setMe (s : State) (st : Stream) (d : SReg) (v : Word) : ∃ x y, ((s.setMe st).setS d v).me = { st with s := x, early := y } :=
  ⟨_, _, (State.me_setS _ d v).trans (by rw [State.me_setMe s st])⟩

/-- Settles O12: TSET's table is `Stream.setTag`, TINV's `Stream.dropTag`, and a slot is read by the entry that `Stream.slotOf` finds. -/
theorem tagTable : Obligations.TagTable := by
  unfold Obligations.TagTable
  refine fun s d a b => ⟨resultS_of rfl, fun hk => ?_, ?_⟩
  · obtain ⟨x, y, hme⟩ := State.me_setS_setMe s (s.me.setTag (s.getS b).toNat (tagOf (s.getS a))) d (oldTag s.me.tags (s.getS b).toNat)
    refine ⟨_, execTset_sets d hk, ?_⟩
    dsimp only
    rw [hme]
    refine ⟨Stream.slotOf_setTag_self .., (onlyS_setS ..).2, fun r hr => ?_, fun j hj => Stream.find_setTag_ne s.me hj, fun g hg hne => Stream.slotOf_setTag_ne hg hne, rfl,
      (onlyMe_setMe s _).trans (onlyS_setS _ d _).1.1⟩
    exact (State.getS_setS_ne _ _ hr).trans (State.getS_congr (by rw [State.me_setMe]; rfl) r)
  · refine ⟨_, execTinv_drops s a, ?_⟩
    dsimp only
    rw [State.me_setMe]
    exact ⟨Stream.slotOf_dropTag_self .., fun g hg => Stream.slotOf_dropTag_ne _ hg, rfl, onlyMe_setMe ..⟩

end Sys2Proof.Machine
end

section
/-! PROOF of O11: S's stores on their way outward (R139, R147, R186, R268, R385, R387). -/

namespace Sys2Proof.Machine

open Sys2Proof

/-! ### The lane being issued while stores move -/

/-- Taking a fault leaves the lane being issued. -/
theorem State.raise_cur (s : State) (sid : Nat) (e : Engine) (line lane : Nat) (prog : Bool) (f : FaultInfo) : (s.raise sid e line lane prog f).cur = s.cur :=
  (congrArg State.cur (State.raise_only s sid e line lane prog f) :)

theorem State.setAt_cur (s : State) (lvl : Nat) (l : List Store) : (s.setAt lvl l).cur = s.cur := by
  unfold State.setAt
  split <;> rfl

theorem State.tear_cur (s : State) (a n : Nat) : (s.tear a n).cur = s.cur := by
  unfold State.tear
  split <;> rfl

theorem State.setHome_cur (s : State) (l : Loc) (data : List Byte) : (s.setHome l data).cur = s.cur := by
  cases l with
  | dram a => exact State.tear_cur _ _ _
  | sp c o => rfl
  | commit c r => rfl
  | peer p o => rfl

theorem State.writtenPoison_cur (s : State) (l : Loc) (n : Nat) : (s.writtenPoison l n).cur = s.cur := by
  cases l with
  | dram a => exact foldl_keeps (fun t : State => t.cur = s.cur) _ (fun t i ht => by split <;> exact ht) _ rfl
  | sp c o => rfl
  | commit c r => rfl
  | peer p o => rfl

/-- The marks of a release are marks alone. -/
theorem State.setMarks_only (s : State) (l : Loc) (n : Nat) (ms : List RelMark) : s.setMarks l n ms = { s with rels := (s.setMarks l n ms).rels } := by
  unfold State.setMarks
  split
  · rfl
  · split <;> rfl

theorem State.ringMark_only (s : State) (c r : Nat) (ms : List RelMark) : s.ringMark c r ms = { s with rels := (s.ringMark c r ms).rels } := by
  unfold State.ringMark
  split <;> rfl

/-- Bytes written at a place with their marks leave the lane being issued. -/
theorem State.put_cur (s : State) (l : Loc) (data : List Byte) (ms : List RelMark) :
    (((s.setHome l data).writtenPoison l data.length).setMarks l data.length ms).cur = s.cur :=
  (congrArg State.cur (State.setMarks_only _ l data.length ms) :).trans ((State.writtenPoison_cur _ _ _).trans (State.setHome_cur s l data))

theorem State.commit_cur (s : State) (st : Store) : (s.commit st).cur = s.cur := by
  unfold State.commit
  cases st.loc with
  | commit c r => exact (congrArg State.cur (State.ringMark_only _ c r st.mark) :)
  | dram a => exact State.put_cur s _ _ _
  | sp c o => exact State.put_cur s _ _ _
  | peer p o => exact State.put_cur s _ _ _

theorem State.storeToken_cur (s : State) (st : Store) : (s.storeToken st).cur = s.cur := by
  unfold State.storeToken State.mapOwner
  split
  · split <;> rfl
  · rfl

theorem State.ite_cur {c : Prop} {_ : Decidable c} {s t u : State} (ht : t.cur = s.cur) (hu : u.cur = s.cur) : (if c then t else u).cur = s.cur := by
  split
  · exact ht
  · exact hu

theorem State.arrive_cur (s : State) (st : Store) (lvl : Nat) : (s.arrive st lvl).cur = s.cur := by
  unfold State.arrive
  dsimp only
  refine State.ite_cur ((State.commit_cur _ _).trans ?_) ((State.setAt_cur _ _ _).trans ?_)
  all_goals exact State.ite_cur (State.ite_cur (State.storeToken_cur s st) rfl) (State.ite_cur (State.storeToken_cur s st) rfl)

theorem State.refuse_cur (s : State) (st : Store) : (s.refuse st).cur = s.cur :=
  foldl_keeps (fun t : State => t.cur = s.cur) _ (fun t _ ht => (State.setAt_cur t _ _).trans ht) _ rfl

theorem State.moveStore_cur (s : State) (lvl : Nat) (st : Store) : (s.moveStore lvl st).cur = s.cur := by
  unfold State.moveStore
  split
  · split
    · exact State.setAt_cur _ _ _
    · split
      · exact (State.raise_cur ..).trans (State.refuse_cur s st)
      · exact (State.arrive_cur ..).trans (State.setAt_cur _ _ _)
  · rfl

/-- However far stores move, the lane being issued stays. -/
theorem State.flush_cur (ids : List Nat) (lvl fuel : Nat) (s : State) : (s.flush ids lvl fuel).cur = s.cur := by
  induction fuel generalizing ids lvl s with
  | zero => rfl
  | succ fuel ih =>
    unfold State.flush
    refine foldl_keeps (fun t : State => t.cur = s.cur) _ (fun t i ht => ?_) _ ?_
    · refine foldl_keeps (fun t : State => t.cur = s.cur) _ (fun t st ht => ?_) _ ht
      split
      · exact (State.moveStore_cur ..).trans ht
      · exact ht
    · split
      · rfl
      · refine foldl_keeps (fun t : State => t.cur = s.cur) _ (fun t st ht => ?_) _ rfl
        split
        · refine (State.moveStore_cur ..).trans ?_
          split
          · exact (ih ..).trans ((ih ..).trans ht)
          · exact ht
        · exact ht

theorem State.drain_cur (s : State) (sid : Nat) : (s.drain sid).1.cur = s.cur := by
  unfold State.drain
  dsimp only
  split
  · rfl
  · exact State.flush_cur _ _ _ _

theorem State.realign_cur (s : State) (sid : Nat) : (s.realign sid).1.cur = s.cur := by
  unfold State.realign State.dropEarly
  dsimp only
  split
  · split <;> exact State.drain_cur s sid
  · exact State.drain_cur s sid

/-! ### A store issues (R147, R385, R387) -/

/-- No image keeps a store in a quiet state. -/
theorem State.quiet.imageStores {s : State} (h : s.quiet) : s.imageStores = [] := by
  obtain ⟨⟨-, -, -, -, -, hi, -⟩, -⟩ := h
  exact hi

section
variable {s : State} {a b : SReg} {sz : MemSize} {o : BitVec 5} {sc : Scope} {off : BitVec 20} {t : Target}

/-- A store outside the stack enters the store queue. -/
theorem execSt_queues (ht : s.target s.cur.sid (addrAdd (s.getS b) (o.toInt * sizeBytes sz)) (sizeBytes sz) .write (s.standsBehind s.cur.sid) = .ok t) (hb : b ≠ 31)
    (hf : s.flipFirst (addrAdd (s.getS b) (o.toInt * sizeBytes sz)) (sizeBytes sz) = false) :
    exec (.st a b sz o) s = .next (s.storeReg (s.getS a) (addrAdd (s.getS b) (o.toInt * sizeBytes sz)) (sizeBytes sz) t none) := by
  change execSt a b sz o s = _
  unfold execSt
  refine (if_neg fun h => hb h.1).trans ?_
  simp only [ht, hf, hb, Bool.false_eq_true, if_false]

/-- In a quiet state nothing stands behind a held write. -/
theorem State.standsBehind_of_quiet (hq : s.quiet) (sid : Nat) : s.standsBehind sid = false := by
  unfold State.standsBehind
  rw [hq.allStores, State.guests_of_none sid hq.imageStores]
  rfl

/-- A store to the stack is performed at once (R139). -/
theorem execSt_stack {c q : Nat} (hq : s.quiet)
    (ht : s.target s.cur.sid (addrAdd (s.getS 31) (o.toInt * sizeBytes sz)) (sizeBytes sz) .write (s.standsBehind s.cur.sid) = .ok (.sp c q))
    (hf : s.flipFirst (addrAdd (s.getS 31) (o.toInt * sizeBytes sz)) (sizeBytes sz) = false) (hb : s.stackBad (addrAdd (s.getS 31) (o.toInt * sizeBytes sz)) = false) :
    exec (.st a 31 sz o) s = .next (s.writeHome s.cur.sid (.sp c q) (leBytes (sizeBytes sz) (s.getS a).toNat)) := by
  rw [State.standsBehind_of_quiet hq] at ht
  change execSt a 31 sz o s = _
  unfold execSt
  refine (if_neg (by simp [hb])).trans ?_
  simp only [State.standsBehind_of_quiet hq, ht, hf, State.stackTurn_of_quiet hq, Bool.not_true, Bool.false_eq_true, if_false, if_true, Target.loc]

/-- A release enters the store queue behind what precedes it (R192, R387). -/
theorem execStrel_queues {q : Target} (h1 : s.target s.cur.sid (addrAdd (s.getS b) off.toInt) (sizeBytes sz) .write (s.standsBehind s.cur.sid) = .ok q)
    (hr : (s.realign s.cur.sid).2 = true)
    (h2 : (s.realign s.cur.sid).1.target s.cur.sid (addrAdd (s.getS b) off.toInt) (sizeBytes sz) .write ((s.realign s.cur.sid).1.standsBehind s.cur.sid) = .ok t)
    (hb : b = 31 → s.stackBad (addrAdd (s.getS b) off.toInt) = false) (hf : s.flipFirst (addrAdd (s.getS b) off.toInt) (sizeBytes sz) = false) :
    exec (.strel a b sz sc off) s = .next ((s.realign s.cur.sid).1.storeReg (s.getS a) (addrAdd (s.getS b) off.toInt) (sizeBytes sz) t (some sc)) := by
  change execStrel a b sz sc off s = _
  unfold execStrel
  refine (if_neg fun h => by simp [hb h.1] at h).trans ?_
  simp only [h1, hf, hr, h2, Bool.not_true, Bool.false_eq_true, if_false]

/-- A store into a gated range with a flip to come before it in the text is held (R268). -/
theorem exec_held_of_flipFirst {i : Instr} {dva : Nat}
    (hi : i = .st a b sz o ∧ dva = addrAdd (s.getS b) (o.toInt * sizeBytes sz) ∨ i = .strel a b sz sc off ∧ dva = addrAdd (s.getS b) off.toInt)
    (ht : s.target s.cur.sid dva (sizeBytes sz) .write (s.standsBehind s.cur.sid) = .ok t) (hb : b = 31 → s.stackBad dva = false)
    (hf : s.flipFirst dva (sizeBytes sz) = true) : exec i s = s.holdOrder := by
  have hstack : ¬(b = 31 ∧ s.stackBad dva = true) := fun h => by simp [hb h.1] at h
  obtain ⟨rfl, rfl⟩ | ⟨rfl, rfl⟩ := hi
  · change execSt a b sz o s = _
    unfold execSt
    refine (if_neg hstack).trans ?_
    simp only [ht, hf, if_true]
  · change execStrel a b sz sc off s = _
    unfold execStrel
    refine (if_neg hstack).trans ?_
    simp only [ht, hf, if_true]

end

/-! ### A store reaches its home (R147, R186) -/

/-- The last move of a store to device memory is its commit there. -/
theorem State.moveStore_home {s : State} {st : Store} {a : Nat} (hl : st.loc = .dram a) (hr : st.rel = none) (ht : st.ts = none) (hm : s.mayMove 3 st = true)
    (hf : s.flushed st = false) (hc : s.lateCheck st = none) : s.moveStore 3 st = (s.dropStore 3 st.id).commit { st with late := false, ts := none } := by
  unfold State.moveStore
  rw [if_pos hm, if_neg (by simp [hf]), hc]
  simp [State.arrive, Store.nextLevel, Store.retireLevel, Store.homeLevel, State.storeToken, hl, hr, ht]

/-- A plain store that reaches its home in device memory writes its bytes there, and no stream. -/
theorem State.commit_dram {s : State} {st : Store} {a : Nat} (hl : st.loc = .dram a) :
    (s.commit st).mem = (s.setHome (.dram a) st.data).mem ∧ (s.commit st).streams = s.streams := by
  obtain ⟨hm, hs, -⟩ := State.mem_writtenPoison (s.setHome (.dram a) st.data) (.dram a) st.data.length
  have ht : (s.setHome (.dram a) st.data).streams = s.streams := (State.sameCores_tear _ _ _).1
  unfold State.commit
  rw [hl]
  exact ⟨(congrArg State.mem (State.setMarks_only ..) :).trans hm, (congrArg State.streams (State.setMarks_only ..) :).trans (hs.trans ht)⟩

/-- Settles O11: what a store does as it issues by the equation of its case, what it leaves at its home by `State.moveStore_home`. -/
theorem storesMoveOutward : Obligations.StoresMoveOutward := by
  unfold Obligations.StoresMoveOutward
  refine ⟨fun s a b sz o sc off t => ⟨fun ht hb hf => ?_, fun c q ht hq hf hb => ?_, fun q h1 hr h2 hb hf => ?_, fun i dva hi ht hb hf => exec_held_of_flipFirst hi ht hb hf⟩,
    fun s st a hl hr ht hm _ hf hc => ?_⟩
  · exact ⟨_, execSt_queues ht hb hf, _, rfl, rfl, rfl, rfl, rfl, rfl, rfl⟩
  · obtain ⟨honly, hne, hsp⟩ := State.writeHome_sp hq.1 s.cur.sid c q (leBytes (sizeBytes sz) (s.getS a).toNat)
    refine ⟨_, execSt_stack hq ht hf hb, honly, fun i hi => ?_, fun d x hx => ?_⟩
    · rw [hsp]
      exact Memory.read_writeList_in _ _ _ (by rwa [leBytes_length])
    · by_cases hd : d = c
      · subst hd
        rw [hsp]
        exact Memory.read_writeList_out _ _ _ (by rw [leBytes_length]; exact hx.resolve_left fun h => h rfl)
      · rw [hne d hd]
  · refine ⟨_, execStrel_queues h1 hr h2 hb hf, _, rfl, rfl, rfl, rfl, ?_, rfl⟩
    rw [State.realign_cur]
    rfl
  · rw [State.moveStore_home hl hr ht hm hf hc]
    obtain ⟨hmem, hstr⟩ := State.commit_dram (s := s.dropStore 3 st.id) (st := { st with late := false, ts := none }) hl
    rw [hmem, hstr]
    exact ⟨fun i hi => State.read_setHome_in _ _ _ hi, fun c h => State.read_setHome_out _ _ _ h, rfl⟩

end Sys2Proof.Machine
end

section
/-! PROOF of O17: rings, word waits and barriers (R20, R143, R199, R200, R268, R306, R369, R415, R418). -/

namespace Sys2Proof.Machine

open Sys2Proof

/-! ### Reads and orders of a quiet state (R155, R186, R192) -/

/-- A read that meets nothing leaves its engine as it was. -/
theorem State.meet_nothing (s : State) (sid : Nat) (e : Engine) (acq : Option Scope) : s.meet sid e [] [] acq = s := by
  cases acq <;> rfl

section
variable {s : State} (hq : s.quiet)
include hq

theorem State.quiet.queue : s.queue = [] := by
  obtain ⟨⟨h0, -⟩, -⟩ := hq
  exact h0

theorem State.quiet.rels : s.rels = [] := by
  obtain ⟨⟨-, -, -, -, hr, -⟩, -⟩ := hq
  exact hr

/-- S has performed no load ahead of its turn. -/
theorem State.quiet.early : (s.stream s.cur.sid).early = [] := by
  obtain ⟨-, he, -⟩ := hq
  exact he

theorem State.pendingAt_of_quiet (core : Nat) (l : Loc) : s.pendingAt core l = none := by
  obtain ⟨⟨-, h1, h2, h3, -⟩, -⟩ := hq
  unfold State.pendingAt
  rw [h1, h2, h3]
  rfl

/-- With no store on its way a core reads device memory as it stands. -/
theorem State.readBytes_of_quiet (core a n : Nat) : s.readBytes core (.dram a) n = (Memory.readList s.mem a n).map fun b => (b, none) := by
  induction n generalizing a with
  | zero => rfl
  | succ n ih =>
    unfold State.readBytes
    rw [State.pendingAt_of_quiet hq]
    exact congrArg _ (ih (a + 1))

/-- No release has left a mark on what is read. -/
theorem State.marksOf_of_quiet (l : Loc) (bs : List Byte) : s.marksOf l (bs.map fun b => (b, none)) = [] := by
  unfold State.marksOf
  refine (congrArg List.eraseDups (List.flatMap_eq_nil_iff.2 fun p hp => ?_)).trans rfl
  obtain ⟨b, -, hb⟩ := List.mem_map.1 (List.fst_mem_of_mem_zipIdx hp)
  rw [← hb, hq.rels]
  cases l.key <;> rfl

theorem State.readMet_of_quiet (sid : Nat) (e : Engine) (a n : Nat) (acq : Option Scope) : s.readMet sid e (.dram a) n acq = (s, Memory.readList s.mem a n) := by
  have hids : ((Memory.readList s.mem a n).map fun b => ((b, none) : Byte × Option Store)).filterMap (·.2) = [] := by simp
  have hbytes : ((Memory.readList s.mem a n).map fun b => ((b, none) : Byte × Option Store)).map (·.1) = Memory.readList s.mem a n := by
    rw [List.map_map]
    exact List.map_id _
  unfold State.readMet
  simp only [State.readBytes_of_quiet hq, State.marksOf_of_quiet hq, hids, hbytes, List.map_nil, State.meet_nothing]

theorem State.load_of_quiet (sid : Nat) (e : Engine) (dva a n : Nat) (p : Page) (acq : Option Scope) :
    s.load sid e dva (.dram a p) n acq = ⟨s, Memory.readList s.mem a n, false⟩ := by
  simp only [State.load, State.readGranule_of_quiet hq, State.readMet_of_quiet hq, Bool.false_eq_true, if_false]

theorem State.passEarly_of_quiet (l : Loc) (n : Nat) : s.passEarly s.cur.sid l n = s :=
  if_pos (by rw [hq.early]; rfl)

theorem State.drain_of_quiet (sid : Nat) : s.drain sid = (s, true) := State.drain_of_empty sid hq.queue hq.imageStores

theorem State.release_of_quiet (sid : Nat) (x : Scope) : s.release sid x = (s, true) := State.release_of_empty sid x hq.allStores hq.imageStores

theorem State.realign_of_quiet : s.realign s.cur.sid = (s, true) := by
  unfold State.realign
  rw [State.drain_of_quiet hq]
  refine (if_pos rfl).trans (Prod.ext ?_ rfl)
  exact if_pos (by rw [hq.early]; rfl)

theorem State.settledHome_of_quiet (sid : Nat) (l : Loc) (n : Nat) : s.settledHome sid l n = (s, true) := by
  obtain ⟨⟨h0, h1, h2, h3, -, -, hl⟩, -⟩ := hq
  exact State.settledHome_of_empty sid l n ⟨h0, h1, h2, h3⟩ hl

theorem State.settled_of_quiet (sid : Nat) (l : Loc) (n : Nat) : s.settled sid l n = (s, true) := by
  unfold State.settled
  simp only [State.settledHome_of_quiet hq, hq.allStores, hq.queue, State.guests_of_none _ hq.imageStores, State.noneBack]
  simp

/-- The home's sync engine finds the word as memory holds it (R20). -/
theorem State.atHome_of_quiet (sid a d n : Nat) : s.atHome sid a d n = (s.atSync (s.widOf sid) d, leNat (Memory.readList s.mem d n), false) := by
  obtain ⟨⟨h0, h1, h2, h3, -⟩, -⟩ := id hq
  have hm : (s.atSync (s.widOf sid) d).mem = s.mem := (congrArg State.mem (State.atSync_only s _ _) :)
  unfold State.atHome
  simp only [State.settle_of_empty _ _ _ ⟨h0, h1, h2, h3⟩, State.readGranule_of_quiet (hq.atSync _ _), hm]

end

/-! ### Rings (R143, R369) -/

theorem State.myRing_setMyRing (s : State) (r : Nat) (x : Ring) : (s.setMyRing r x).myRing r = x := by
  refine (congrArg (fun c : Core => Tab.get {} c.rings r) (State.core_setCore s _ _)).trans ?_
  exact Tab.get_set_self ..

theorem Ring.claimedWith_eq (x : Ring) (k : Nat) : x.claimedWith k = (x.claim.toNat + k + (2 ^ 32 - x.free.toNat)) % 2 ^ 32 := by
  unfold Ring.claimedWith
  rw [BitVec.toNat_sub, BitVec.toNat_add, BitVec.toNat_ofNat]
  omega

theorem Ring.filledWith_eq (x : Ring) (k : Nat) : x.filledWith k = (x.commit.toNat + k + (2 ^ 32 - x.free.toNat)) % 2 ^ 32 := by
  unfold Ring.filledWith
  rw [BitVec.toNat_sub, BitVec.toNat_add, BitVec.toNat_ofNat]
  omega

/-- The mark of a release by S at a scope in which the stores of a later state are still pending (R192). -/
def State.releaseMark (s t : State) (x : Scope) : RelMark :=
  { core := coreOf s.cur.sid, scope := x, ids := (s.cumulative s.cur.sid).filter fun i => t.pendingIds.contains i }

section
variable {s : State} {r : Sys2Proof.Ring} {k : Nat} {a b d : SReg}

/-- RINIT sets its ring up (Table 6.4). -/
theorem execRinit_sets (ho : s.ownsRing r.val = true) (hoff : (s.getS a).toNat % 32 = 0) (hb : (s.getS b).toNat < 2 ^ 32) (hz : (s.getS b).toNat % 65536 % 32 = 0)
    (hz1 : 32 ≤ (s.getS b).toNat % 65536) (hz2 : (s.getS b).toNat % 65536 ≤ 32768) (hn1 : 1 ≤ (s.getS b).toNat / 65536) (hn2 : (s.getS b).toNat / 65536 ≤ 4096)
    (hfit : (s.getS a).toNat + (s.getS b).toNat / 65536 * ((s.getS b).toNat % 65536) ≤ s.me.spSize) :
    exec (.rinit r a b) s = .next (State.setMyRing { s with rels := Tab.put [] s.rels (ringKey (coreOf s.cur.sid) r.val) [] } r.val
      { offset := (s.getS a).toNat, z := (s.getS b).toNat % 65536, n := (s.getS b).toNat / 65536 }) := by
  have hlo : bits (s.getS b).toNat 0 16 = (s.getS b).toNat % 65536 := by simp [bits]
  have hhi : bits (s.getS b).toNat 16 16 = (s.getS b).toNat / 65536 := by
    unfold bits
    exact Nat.mod_eq_of_lt (by omega)
  change execRinit r a b s = _
  unfold execRinit
  simp only [hlo, hhi, ho, hoff, hz, hz1, hz2, hn1, hn2, hb, hfit, decide_true, Bool.and_self, if_true]

variable (hk : k = (s.getS a).toNat) (hr : s.ringReady r.val = true) (h1 : 1 ≤ k) (hn : k ≤ (s.myRing r.val).n)
include hk hr h1 hn

theorem execRclaim_claims (hc : (s.myRing r.val).claimedWith k ≤ (s.myRing r.val).n) :
    exec (.rclaim d r a) s = .next ((s.setMyRing r.val { s.myRing r.val with claim := (s.myRing r.val).claim + BitVec.ofNat 32 k }).setS d
      (BitVec.ofNat 64 ((s.myRing r.val).claim.toNat % (s.myRing r.val).n))) := by
  subst hk
  have hne : (s.getS a).toNat ≠ 0 := by omega
  change execRclaim d r a s = _
  unfold execRclaim
  simp only [hr, hne, hn, hc, ne_eq, not_false_eq_true, decide_true, Bool.and_self, if_true]

variable (hq : s.quiet)
include hq

/-- With no store on its way the release of an RCOMMIT is complete at once. -/
theorem execRcommit_commits (hc : (s.myRing r.val).filledWith k ≤ (s.myRing r.val).n) :
    exec (.rcommit r a) s = .next ((s.setMyRing r.val { s.myRing r.val with commit := (s.myRing r.val).commit + BitVec.ofNat 32 k }).ringMark
      (coreOf s.cur.sid) r.val [s.releaseMark s .core]) := by
  subst hk
  have hne : (s.getS a).toNat ≠ 0 := by omega
  change execRcommit r a s = _
  unfold execRcommit
  simp only [State.release_of_quiet hq, hr, hne, hn, hc, ne_eq, not_false_eq_true, decide_true, Bool.and_self, Bool.not_true, Bool.false_eq_true, if_false, if_true]
  rfl

theorem execRfree_frees (hc : k ≤ (s.myRing r.val).filled) :
    exec (.rfree r a) s = .next (s.setMyRing r.val { s.myRing r.val with free := (s.myRing r.val).free + BitVec.ofNat 32 k }) := by
  subst hk
  have hne : (s.getS a).toNat ≠ 0 := by omega
  change execRfree r a s = _
  unfold execRfree
  simp only [State.realign_of_quiet hq, hr, hne, hn, hc, ne_eq, not_false_eq_true, decide_true, Bool.and_self, Bool.not_true, Bool.false_eq_true, if_false, if_true]

/-- A wait on a ring is judged at once: no accesses precede it, and no commit is left to acquire (R143). -/
theorem State.tryRing_of_quiet (sub : Nat) (cond : Ring → Prop) [DecidablePred cond] :
    s.tryRing r.val k sub (fun x => decide (cond x)) = if cond (s.myRing r.val) then .holds s else .waits s := by
  have hne : k ≠ 0 := by omega
  unfold State.tryRing
  simp only [State.drain_of_quiet hq, hr, hne, hn, hq.rels, Tab.get, List.foldl_nil, ne_eq, not_false_eq_true, decide_true, Bool.and_self, Bool.not_true, Bool.false_eq_true,
    if_false, decide_eq_true_eq, ite_self]

end

/-! ### Waits (R72, R143, R199, R415) -/

/-- The wait of the lane being issued, as the stream keeps it. -/
def State.waitHere (s : State) (i : Instr) (arrived : Option Word) : Wait :=
  { line := s.cur.line, lane := s.cur.lane, instr := i, ts := s.cur.ts, base := s.cur.base, x := s.cur.x, arrived := arrived }

/-- A wait is kept as the stream's, and S is held at it. -/
def State.keepWait (s : State) (w : Wait) : State := (s.setMe { s.me.setEng .s { s.myEng with hold := .wait } with wait := some w }).held

theorem State.keepWait_spec (s : State) (w : Wait) : (s.keepWait w).out = .held ∧ (s.keepWait w).me.wait = some w ∧ (s.keepWait w).mem = s.mem :=
  ⟨rfl, (congrArg Stream.wait (State.me_setMe ..) :), rfl⟩

theorem State.branch_mem (s : State) (line : Nat) : (s.branch line).mem = s.mem := rfl

theorem State.issueWait_holds {s t : State} {i : Instr} {e : Option Word} (h : s.tryWait i none = (.holds t, e)) : s.issueWait i = .next (t.branch (s.cur.line + 32)) := by
  unfold State.issueWait
  rw [h]
  rfl

/-- A wait whose one evaluation is a condition's goes on where it holds, and is kept as the stream's where it does not (R72). -/
theorem State.issueWait_judged {s t u : State} {i : Instr} {c : Prop} [Decidable c] (hi : exec i s = s.issueWait i)
    (h : (s.tryWait i none).1 = if c then .holds t else .waits u) (hn : (s.tryWait i none).2 = none) :
    (c → exec i s = .next (t.branch (s.cur.line + 32))) ∧ (¬c → Completes i s fun v => v.out = .held ∧ ∃ w, v.me.wait = some w ∧ w.instr = i) := by
  refine ⟨fun hc => ?_, fun hc => ⟨u.keepWait (s.waitHere i none), ?_, rfl, _, (State.keepWait_spec ..).2.1, rfl⟩⟩
  · rw [if_pos hc] at h
    exact hi.trans (State.issueWait_holds (Prod.ext h hn))
  · rw [if_neg hc] at h
    rw [hi, State.issueWait, show s.tryWait i none = (.waits u, none) from Prod.ext h hn]
    rfl

/-- The arrival of a BAR that waits is progress of its stream (R88). -/
theorem State.issueWait_arrived {s t : State} {i : Instr} {e : Word} (h : s.tryWait i none = (.waits t, some e)) :
    s.issueWait i = .next ((t.progress s.cur.sid).keepWait (s.waitHere i (some e))) := by
  unfold State.issueWait
  rw [h]
  rfl

/-- A WAITGE compares its word as the home's sync engine has it (R20, R199). -/
theorem State.tryGe_of_quiet {s : State} {v : Word} {sc : Scope} {a dpa : Nat} {p : Page} (hq : s.quiet) (ht : s.target s.cur.sid a 8 .read = .ok (.dram dpa p)) :
    s.tryGe v sc a = if v.toNat ≤ leNat (Memory.readList s.mem dpa 8) then .holds (s.atSync (s.widOf s.cur.sid) dpa) else .waits (s.atSync (s.widOf s.cur.sid) dpa) := by
  have hm : (s.atSync (s.widOf s.cur.sid) dpa).mem = s.mem := (congrArg State.mem (State.atSync_only s _ _) :)
  unfold State.tryGe
  simp only [ht, State.drain_of_quiet hq, State.readClear_of_idle hq.links, State.passEarly_of_quiet hq, State.load_of_quiet (hq.atSync _ _), hm, Bool.not_true, Bool.or_self,
    Bool.false_eq_true, if_false]

/-! ### BAR (R200, R306) -/

/-- An acquire leaves device memory alone. -/
theorem State.acquire_mem (s : State) (sid : Nat) (sc : Scope) (marks : List RelMark) : (s.acquire sid sc marks).mem = s.mem := by
  unfold State.acquire State.dropEarly State.observe
  dsimp only
  repeat' split
  all_goals rfl

/-- The marks a BAR leaves with its word: the ones found there and that of its own release. -/
def State.barMarks (s : State) (d : Nat) : List RelMark :=
  let u := s.atSync (s.widOf s.cur.sid) d
  u.marksOf (.dram d) (u.readBytes (coreOf s.cur.sid) (.dram d) 8) ++ [s.releaseMark u .dev]

/-- The state once a BAR's arrival has written a word. -/
def State.barWritten (s : State) (d w : Nat) : State :=
  (s.atSync (s.widOf s.cur.sid) d).writeHome s.cur.sid (.dram d) (leBytes 8 w) (s.barMarks d)

theorem State.barWritten_mem {s : State} (hq : s.quiet) (d w : Nat) : (s.barWritten d w).mem = Memory.writeList s.mem d (leBytes 8 w) := by
  refine (State.writeHome_dram (hq.atSync (s.widOf s.cur.sid) d) s.cur.sid d (leBytes 8 w) (s.barMarks d)).1.trans ?_
  exact congrArg (Memory.writeList · d (leBytes 8 w)) (congrArg State.mem (State.atSync_only s _ _) :)

/-- In a state with the same memory the word reads as written, and every other byte as before. -/
theorem State.barWritten_read {s u : State} (hq : s.quiet) (d w : Nat) (hu : u.mem = (s.barWritten d w).mem) :
    (∀ c, (c < d ∨ d + 8 ≤ c) → Memory.read u.mem c = Memory.read s.mem c) ∧ ∀ i < 8, Memory.read u.mem (d + i) = (leBytes 8 w).getD i 0 := by
  rw [hu, State.barWritten_mem hq]
  exact ⟨fun c hc => Memory.read_writeList_out _ _ _ (by rwa [leBytes_length]), fun i hi => Memory.read_writeList_in _ _ _ (by rwa [leBytes_length])⟩

section
variable {s : State} {a d w : Nat} {n : Word} {p : Page} (hq : s.quiet) (ht : s.atomicTarget s.cur.sid a 8 = .ok (d, p)) (hf : s.flipFirst a 8 = false)
  (hw : w = leNat (Memory.readList s.mem d 8))
include hq ht hf hw

/-- With no store on its way and no flip to come first a BAR arrives, and its arrival is the last of its episode or not. -/
theorem State.tryBar_arrives : s.tryBar a n none =
    if n.toNat ≤ w % 2 ^ 32 + 1 then
      (.holds ((s.barWritten d ((w / 2 ^ 32 + 1) % 2 ^ 32 * 2 ^ 32)).acquire s.cur.sid .dev (s.barMarks d)), some (BitVec.ofNat 64 (w / 2 ^ 32)))
    else (.waits (s.barWritten d (w + 1)), some (BitVec.ofNat 64 (w / 2 ^ 32))) := by
  unfold State.tryBar
  simp only [ht, hf, State.release_of_quiet hq, State.passEarly_of_quiet hq, State.settled_of_quiet hq, State.readClear_of_idle hq.links, State.atHome_of_quiet hq, ← hw,
    Option.isSome_none, Bool.and_self, Bool.not_true, Bool.false_eq_true, if_false, if_true]
  by_cases h : n.toNat ≤ w % 2 ^ 32 + 1
  · simp only [h, decide_true, if_true]
    rfl
  · simp only [h, decide_false, Bool.false_eq_true, if_false]
    rfl

theorem State.tryBar_completes (h : n.toNat ≤ w % 2 ^ 32 + 1) : s.tryBar a n none =
    (.holds ((s.barWritten d ((w / 2 ^ 32 + 1) % 2 ^ 32 * 2 ^ 32)).acquire s.cur.sid .dev (s.barMarks d)), some (BitVec.ofNat 64 (w / 2 ^ 32))) :=
  (State.tryBar_arrives hq ht hf hw).trans (if_pos h)

theorem State.tryBar_waits (h : ¬n.toNat ≤ w % 2 ^ 32 + 1) : s.tryBar a n none = (.waits (s.barWritten d (w + 1)), some (BitVec.ofNat 64 (w / 2 ^ 32))) :=
  (State.tryBar_arrives hq ht hf hw).trans (if_neg h)

end

/-- A BAR whose count is in range is a wait (R306). -/
theorem execBar_issues {s : State} {b c : SReg} (h1 : 1 ≤ (s.getS c).toNat) (h2 : (s.getS c).toNat < 2 ^ 32) : exec (.bar b c) s = s.issueWait (.bar b c) := by
  refine if_neg (not_or.2 ⟨fun h => ?_, Nat.not_le.2 h2⟩)
  rw [h] at h1
  exact absurd h1 (by decide)

/-- Settles O17: rings by the equation of each instruction, waits by what their one evaluation gives in a quiet state. -/
theorem ringsAndBarriers : Obligations.RingsAndBarriers := by
  unfold Obligations.RingsAndBarriers
  refine ⟨fun s d a b r k x hq hk hx => ⟨fun hr h1 hn => ⟨fun hc => ?_, fun hc => ?_, fun hc => ?_⟩, ⟨x.claimedWith_eq k, x.filledWith_eq k⟩,
      fun ho hoff hb hz hz1 hz2 hn1 hn2 hfit => ?_⟩,
    fun s a b r sc off k x dpa p hq hk hx => ⟨fun hr h1 hn => ?_, fun ht => ?_⟩,
    fun s b c a dpa w n p hq ha hn h1 hlt ht hf hw => ?_⟩
  · subst hx
    refine ⟨_, execRclaim_claims hk hr h1 hn hc, ?_, (onlyS_setS ..).2, (congrArg State.mem (State.setS_only ..) :)⟩
    exact (congrArg (State.myRing · r.val) (State.setS_only ..)).trans (State.myRing_setMyRing s r.val _)
  · subst hx
    refine ⟨_, execRcommit_commits hk hr h1 hn hq hc, ?_, (congrArg State.mem (State.ringMark_only ..) :), (congrArg State.streams (State.ringMark_only ..) :)⟩
    exact (congrArg (State.myRing · r.val) (State.ringMark_only ..)).trans (State.myRing_setMyRing s r.val _)
  · subst hx
    exact ⟨_, execRfree_frees hk hr h1 hn hq hc, State.myRing_setMyRing .., rfl, rfl⟩
  · subst hk
    exact ⟨_, execRinit_sets ho hoff hb hz hz1 hz2 hn1 hn2 hfit, State.myRing_setMyRing .., rfl, rfl⟩
  · subst hk hx
    obtain ⟨hfill, hempty⟩ := State.issueWait_judged (i := .wfill r a) rfl (State.tryRing_of_quiet rfl hr h1 hn hq 0 fun x => (s.getS a).toNat ≤ x.filled) rfl
    obtain ⟨hfree, hfull⟩ := State.issueWait_judged (i := .wfree r a) rfl
      (State.tryRing_of_quiet rfl hr h1 hn hq 1 fun x => (s.getS a).toNat ≤ (x.free + BitVec.ofNat 32 x.n - x.claim).toNat) rfl
    exact ⟨hfill, hempty, hfree, hfull⟩
  · subst hk
    obtain ⟨hgoes, hwaits⟩ := State.issueWait_judged (i := .waitge a b sc off) rfl (State.tryGe_of_quiet hq ht) rfl
    exact ⟨fun hc => ⟨_, hgoes hc, State.atSync_only ..⟩, hwaits⟩
  · subst ha hn
    have hexec := execBar_issues (b := b) h1 hlt
    by_cases hfull : (s.getS c).toNat ≤ w % 2 ^ 32 + 1
    · obtain ⟨hout, hin⟩ := State.barWritten_read hq dpa ((w / 2 ^ 32 + 1) % 2 ^ 32 * 2 ^ 32)
        ((State.branch_mem _ (s.cur.line + 32)).trans (State.acquire_mem _ s.cur.sid .dev (s.barMarks dpa)))
      exact ⟨_, hexec.trans (State.issueWait_holds (State.tryBar_completes hq ht hf hw hfull)), hout, fun _ => ⟨rfl, hin⟩, fun h => absurd hfull h⟩
    · obtain ⟨hout, hin⟩ := State.barWritten_read hq dpa (w + 1)
        (State.keepWait_spec ((s.barWritten dpa (w + 1)).progress s.cur.sid) (s.waitHere (.bar b c) (some (BitVec.ofNat 64 (w / 2 ^ 32))))).2.2
      exact ⟨_, hexec.trans (State.issueWait_arrived (State.tryBar_waits hq ht hf hw hfull)), hout, fun h => absurd h hfull,
        fun _ => ⟨rfl, hin, _, (State.keepWait_spec ..).2.1, rfl, rfl⟩⟩

end Sys2Proof.Machine
end

section
/-! PROOF of O45: the clause that an answered request has its STATUS in memory fails where the stream table lists a stream twice (R90, R150, R394). -/

namespace Sys2Proof.Machine

open Sys2Proof

/-- A data page of world 1 at DVA 0, of 2 MiB. -/
def blockPage : Page where
  wid := 1
  dva := 0
  dpa := 0
  size := 2
  cls := 0
  zfill := false
  x := false
  w := true
  r := true

/-- Stream 0 of world 1 has asked firmware for a MAP by its block at DVA 4096. -/
def mapAsked : TrapReq where
  sid := 0
  wid := 1
  svc := 1
  blk := 4096

/-- A stream of world 1 in the TRAP of its MAP, whose engines stand at DVA 4194304. -/
def mapping : Stream := { run := .running, ident := { wid := 1 }, trap := some false, eng := engines.map fun e => (e.code, { line := 4194304 }) }

/-- A stream of world 1 whose engines stand at DVA 0, so that it runs text from the page of the block. -/
def inBlockPage : Stream := { run := .running, ident := { wid := 1 } }

/-- The stream table lists stream 0 twice: the second entry is read by no key, and its text counts all the same. The block asks for a page of
4 KiB at 12 MiB with R and W; its STATUS word holds 9. -/
def twiceListed : State := { State.reset with
  streams := [(0, mapping), (0, inBlockPage)]
  pages := [blockPage]
  alloc := [(1, 0, 2 ^ 30)]
  traps := [mapAsked]
  mem := Memory.writeList [] 4096 ([12582912, 12582912, 3, 9].flatMap (leBytes 8)) }

theorem twiceListed_quiet : twiceListed.quiet :=
  ⟨⟨rfl, rfl, rfl, rfl, rfl, rfl, fun p hp => absurd hp (List.not_mem_nil (a := p))⟩, rfl, rfl, rfl, rfl, rfl, rfl⟩

theorem twiceListed_asked : twiceListed.asked mapAsked 0 4096 1 := ⟨by decide, by decide⟩

theorem twiceListed_block : twiceListed.blockWord 0 1 4096 0 = 12582912 ∧ twiceListed.blockWord 0 1 4096 8 = 12582912 ∧ twiceListed.blockWord 0 1 4096 16 = 3 := by
  decide +kernel

theorem twiceListed_maps : attrBad 3 = false ∧ twiceListed.owns 1 12582912 4096 = true ∧ twiceListed.unmapped 1 12582912 4096 = true := by decide +kernel

/-- The MAP is carried out. -/
theorem execMap_twiceListed : exec (.map 0 4096) twiceListed = .next (twiceListed.carry mapAsked) := rfl

/-- Its STATUS is not written, since the second entry runs text from that page (R90); the TRAP's mark then replaces both entries by one, and no text runs there any
more. -/
theorem twiceListed_carried : (∀ i < 8, (twiceListed.carry mapAsked).dpa 1 (4120 + i) = some (4120 + i)) ∧ (twiceListed.carry mapAsked).textFree 1 4120 8 = true ∧
    Memory.readList (twiceListed.carry mapAsked).mem 4120 8 = leBytes 8 9 := by decide +kernel

/-- Refutes O45: the clause of R150 that a MAP which meets its checks is answered with status 0. `twiceListed` meets the hypotheses, but no step builds its
stream table: firmware leaves STATUS at 9 for the text of an entry that the answered stream's own write then drops, so that the page is free of text afterwards. -/
theorem not_mapsRegionsGates : ¬ Obligations.MapsRegionsGates := by
  unfold Obligations.MapsRegionsGates
  intro ⟨h, _⟩
  obtain ⟨hdva, hdpa, hattr⟩ := twiceListed_block
  obtain ⟨hgood, howns, hfree⟩ := twiceListed_maps
  obtain ⟨hmap, -⟩ := h twiceListed 0 4096 12582912 12582912 3 4096 mapAsked blockPage twiceListed_quiet hdva.symm
  obtain ⟨t, ht, ⟨-, -, hstatus⟩, -⟩ := (hmap twiceListed_asked hdpa.symm hattr.symm rfl rfl hgood rfl rfl (by decide) howns).1 hfree
  obtain rfl : t = twiceListed.carry mapAsked := Host.Outcome.next.inj (ht.symm.trans execMap_twiceListed)
  obtain ⟨hplace, htext, hmem⟩ := twiceListed_carried
  exact absurd ((hstatus 4120 hplace htext).symm.trans hmem) (by decide)

end Sys2Proof.Machine
end

section
/-! SUPPORT for O41 and O42: regions, their slices and the requests queued there (R160 to R177), and commands that retire. -/

namespace Sys2Proof.Machine

open Sys2Proof

/-! ### Regions and slices -/

@[simp] theorem State.region_setRegion (s : State) (r : Nat) (x : Region) : (s.setRegion r x).region r = some x :=
  (Tab.find_set ..).trans (if_pos rfl)

@[simp] theorem State.mem_setRegion (s : State) (r : Nat) (x : Region) : (s.setRegion r x).mem = s.mem := rfl

@[simp] theorem Region.slice_setSlice (x : Region) (i : Nat) (y : Slice) : (x.setSlice i y).slice i = y := Tab.get_set_self ..

theorem Region.slice_setSlice_ne (x : Region) {i k : Nat} (y : Slice) (h : k ≠ i) : (x.setSlice i y).slice k = x.slice k := Tab.get_set_ne _ _ _ h

/-- Slice i of a region has moved on: its requests stay, it goes back by no lap, and nothing else of the region changes. -/
def Region.MovedOn (i : Nat) (x y : Region) : Prop :=
  y = { x with slices := y.slices } ∧ (∀ k, k ≠ i → y.slice k = x.slice k) ∧ (y.slice i).queue = (x.slice i).queue ∧ (x.slice i).lap ≤ (y.slice i).lap

theorem Region.MovedOn.refl (i : Nat) (x : Region) : x.MovedOn i x := ⟨rfl, fun _ _ => rfl, rfl, Nat.le_refl _⟩

theorem Region.MovedOn.trans {i : Nat} {x y z : Region} (h : x.MovedOn i y) (k : y.MovedOn i z) : x.MovedOn i z := by
  obtain ⟨hy, hother, hqueue, hlap⟩ := h
  obtain ⟨hz, hother', hqueue', hlap'⟩ := k
  exact ⟨hz.trans (by rw [hy]), fun j hj => (hother' j hj).trans (hother j hj), hqueue'.trans hqueue, hlap.trans hlap'⟩

theorem Region.movedOn_setSlice (x : Region) (i : Nat) {y : Slice} (hq : y.queue = (x.slice i).queue) (hl : (x.slice i).lap ≤ y.lap) : x.MovedOn i (x.setSlice i y) := by
  refine ⟨rfl, fun k hk => x.slice_setSlice_ne y hk, ?_, ?_⟩ <;> rw [Region.slice_setSlice] <;> assumption

theorem Region.startPasses_movedOn (i fuel : Nat) (x : Region) : x.MovedOn i (x.startPasses i fuel) := by
  induction fuel generalizing x with
  | zero => exact .refl i x
  | succ fuel ih =>
    unfold Region.startPasses
    dsimp only
    split
    · next l hl =>
      have hlap : (x.slice i).lap = l := by rw [Slice.lap, hl]; rfl
      split
      · split
        · exact x.movedOn_setSlice i rfl hlap.le
        · refine .trans ?_ (ih _)
          exact x.movedOn_setSlice i rfl (hlap.trans_le (Nat.le_succ l))
      · exact .refl i x
    · exact .refl i x

theorem Region.goOn_movedOn (x : Region) (i : Nat) : x.MovedOn i (x.goOn i) := x.startPasses_movedOn i _

/-- A slice whose markers are not all in waits on. -/
theorem Region.goOn_waits {x : Region} {i l : Nat} (h : (x.slice i).st = .wait l) (hm : x.markersIn i l = false) : x.goOn i = x := by
  unfold Region.goOn Region.startPasses
  simp only [h, hm, Bool.false_eq_true, if_false]

/-- A slice whose markers are in, and which has work of the lap, begins its pass. -/
theorem Region.goOn_begins {x : Region} {i l : Nat} (h : (x.slice i).st = .wait l) (hm : x.markersIn i l = true) (hw : (x.slice i).hasWork l = true) :
    x.goOn i = x.setSlice i { x.slice i with st := .pass l 0 } := by
  unfold Region.goOn Region.startPasses
  simp only [h, hm, hw, if_true]

/-- A slice waits for a lap or has begun its pass, by the markers it has. -/
theorem Region.slice_goOn {x : Region} {i l : Nat} (h : (x.slice i).st = .wait l) (hw : (x.slice i).hasWork l = true) :
    (x.goOn i).slice i = { x.slice i with st := if x.markersIn i l then .pass l 0 else .wait l } := by
  cases hm : x.markersIn i l with
  | true => rw [Region.goOn_begins h hm hw, Region.slice_setSlice]; rfl
  | false => rw [Region.goOn_waits h hm, if_neg Bool.false_ne_true, ← h]

/-! ### A slice has moved on (R167) -/

/-- The region with the laps it has served by now. -/
def Region.upToDate (x : Region) : Region := { x with served := Nat.max x.served x.servedNow }

theorem State.region_putRegion (s : State) (r : Nat) (x : Region) (cut : Nat → Bool) : (s.putRegion r x cut).region r = some x.upToDate := by
  unfold State.putRegion Region.upToDate
  dsimp only
  split
  · next h => rw [show x.served.max x.servedNow = x.servedNow from Nat.max_eq_right h.le]; exact State.region_setRegion ..
  · next h => rw [show x.served.max x.servedNow = x.served from Nat.max_eq_left (Nat.le_of_not_lt h)]; exact State.region_setRegion ..

theorem State.mem_putRegion (s : State) (r : Nat) (x : Region) (cut : Nat → Bool) : (s.putRegion r x cut).mem = s.mem := by
  unfold State.putRegion
  dsimp only
  split <;> rfl

/-- Newly served laps are shown to the streams that have asked for them and that no reset cuts off. -/
theorem State.stream_putRegion {s : State} {r : Nat} {x : Region} {cut : Nat → Bool} (hc : ∀ k, cut k = false) (h : x.served < x.servedNow) (k : Nat) :
    (s.putRegion r x cut).stream k = if (s.stream k).subscribed r x.wid then (s.stream k).latch 8 else s.stream k := by
  unfold State.putRegion
  simp only [h, hc, if_true, Bool.false_eq_true, if_false]
  exact Tab.get_map (fun st : Stream => if st.subscribed r x.wid then st.latch 8 else st) Stream.reset s.streams k

section
variable {s : State} (hl : s.linksIdle)
include hl

theorem State.linkClear_of_idle (k : Nat) : s.linkClear k = true := by
  rw [State.linkClear, (State.link_of_idle hl k).1]
  rfl

theorem State.sliceClear_of_idle (core : Nat) (x : Region) (i : Nat) : s.sliceClear core x i = true :=
  List.all_eq_true.2 fun k _ => State.linkClear_of_idle hl k

theorem State.sliceCut_of_idle (core : Nat) (x : Region) (i : Nat) : s.sliceCut core x i = false :=
  List.any_eq_false.2 fun k _ => by rw [(State.link_of_idle hl k).2]; simp

theorem State.replyClear_of_idle (sid r a : Nat) : s.replyClear sid r a = true := by
  unfold State.replyClear
  split
  · rw [State.sliceClear_of_idle hl, State.sliceCut_of_idle hl]; rfl
  · rfl

/-- Over idle links a slice moves on at once. -/
theorem State.moveSlice_of_idle (r i : Nat) (x : Region) : s.moveSlice r i x = .next (s.putRegion r x fun _ => false) := by
  have hall : (s.streams.all fun p => !(p.2.subscribed r x.wid) || s.sliceClear (coreOf p.1) x i) = true :=
    List.all_eq_true.2 fun p _ => by rw [State.sliceClear_of_idle hl, Bool.or_true]
  unfold State.moveSlice
  simp only [hall, State.sliceCut_of_idle hl, Bool.or_true, Bool.not_true, Bool.and_false, Bool.false_eq_true, if_false]

end

/-! ### A request enters its slice's queue (R164, R177) -/

theorem Region.foldl_sendMarkers {α : Type} (f : α → Nat × Nat) (l : List α) (x : Region) : l.foldl (fun (y : Region) a => y.sendMarkers (f a).1 (f a).2) x =
    { x with pend := x.pend ++ l.flatMap fun a => (List.range x.count).map fun i => (i, (f a).1, (f a).2) } := by
  induction l generalizing x with
  | nil => simp
  | cons a l ih =>
    rw [List.foldl_cons, ih]
    simp [Region.sendMarkers, Region.count]

/-- Closing laps sends markers and opens later laps; slices and sequence numbers stay. -/
theorem State.closeThrough_only (s : State) (r : Nat) (x : Region) (lap : Nat) : ∃ o b p, s.closeThrough r x lap = { x with opn := o, bells := b, pend := p } := by
  have hsend (f : Region → Nat → Region) (hf : ∀ y a, ∃ p, f y a = { y with pend := p }) (l : List Nat) : ∃ p, l.foldl f x = { x with pend := p } := by
    refine foldl_keeps (fun y : Region => ∃ p, y = { x with pend := p }) f (fun y a hy => ?_) l ⟨_, rfl⟩
    obtain ⟨p, rfl⟩ := hy
    exact hf _ a
  have hinner (g : Nat → Nat × Nat) (l : List Nat) (y : Region) : ∃ p, l.foldl (fun (y : Region) a => y.sendMarkers (g a).1 (g a).2) y = { y with pend := p } :=
    ⟨_, Region.foldl_sendMarkers g l y⟩
  unfold State.closeThrough
  dsimp only
  split
  · obtain ⟨p, hp⟩ := hsend (fun y p => ((List.range (lap + 1 - x.openLap p)).map fun i => x.openLap p + i).foldl (fun (y : Region) l => y.sendMarkers p l) y)
      (fun y a => hinner (fun l => (a, l)) _ y) x.parts
    rw [hp]
    exact ⟨_, _, _, rfl⟩
  · obtain ⟨p, hp⟩ := hsend (fun y l => (s.timedPorts r).foldl (fun (y : Region) p => y.sendMarkers p l) y)
      (fun y a => hinner (fun p => (p, a)) _ y) ((List.range (lap + 1 - x.bells)).map fun i => x.bells + i)
    rw [hp]
    exact ⟨_, _, _, rfl⟩

/-- The request that a stream's command makes of a row of a region. -/
def Region.request (x : Region) (port stamp a len sid cmd : Nat) (update : Option (ScanOp × List Byte)) : ScanReq :=
  { port := port, seq := Tab.get 0 x.seqs port, stamp := stamp, row := (x.place a).1, off := (x.place a).2.2, len := len, update := update, sid := sid, cmd := cmd
    wid := x.wid }

/-- A region has taken one request of a port: it stands last in its slice's queue, and the port's count rises by 1. -/
def Region.Queued (x y : Region) (i : Nat) (q : ScanReq) : Prop :=
  (y.slice i).queue = (x.slice i).queue ++ [q] ∧ Tab.get 0 y.seqs q.port = Tab.get 0 x.seqs q.port + 1 ∧ ∀ k, k ≠ i → y.slice k = x.slice k

theorem State.enqueueScan_spec (s : State) (r : Nat) (x : Region) (port stamp a len sid cmd : Nat) (update : Option (ScanOp × List Byte)) :
    ∃ y, s.enqueueScan r x port stamp a len sid cmd update = s.setRegion r y ∧ x.Queued y (x.place a).2.1 (x.request port stamp a len sid cmd update) := by
  let q := x.request port stamp a len sid cmd update
  let i := (x.place a).2.1
  let z : Region := { x.setSlice i { x.slice i with queue := (x.slice i).queue ++ [q] } with seqs := Tab.set x.seqs port (Tab.get 0 x.seqs port + 1) }
  let w := if x.releasing then s.closeThrough r z stamp else z
  have hz : (z.slice i).queue = (x.slice i).queue ++ [q] ∧ Tab.get 0 z.seqs port = Tab.get 0 x.seqs port + 1 ∧ ∀ k, k ≠ i → z.slice k = x.slice k :=
    ⟨congrArg Slice.queue (x.slice_setSlice i _), Tab.get_set_self .., fun k hk => x.slice_setSlice_ne _ hk⟩
  have hw : w.slices = z.slices ∧ w.seqs = z.seqs := by
    obtain ⟨o, b, p, hc⟩ := s.closeThrough_only r z stamp
    unfold w
    split
    · rw [hc]; exact ⟨rfl, rfl⟩
    · exact ⟨rfl, rfl⟩
  have hslice (k : Nat) : w.slice k = z.slice k := congrArg (Tab.get (α := Slice) {} · k) hw.1
  obtain ⟨honly, hother, hqueue, -⟩ := w.goOn_movedOn i
  refine ⟨w.goOn i, rfl, ?_, ?_, fun k hk => ?_⟩
  · exact (hqueue.trans (congrArg Slice.queue (hslice i))).trans hz.1
  · exact (congrArg (Tab.get 0 · port) ((congrArg Region.seqs honly :).trans hw.2)).trans hz.2.1
  · exact ((hother k hk).trans (hslice k)).trans (hz.2.2 k hk)

/-! ### Commands that retire (R188) -/

/-- A command that retires pushes its token, which changes nothing else of its stream. -/
theorem retireList_only (e : Engine) : ∀ (cs : List Cmd) (st : Stream),
    (retireList e cs st).2 = { st with tokens := (retireList e cs st).2.tokens, fTok := (retireList e cs st).2.fTok }
  | [], _ => rfl
  | c :: cs, st => by
    unfold retireList
    split
    · exact retireList_only e cs st
    · split
      · split
        · exact retireList_only e cs st
        · split
          · next u hu =>
            obtain ⟨-, -, -, hst⟩ := Stream.push_spec hu
            exact (retireList_only e cs u).trans (by rw [hst])
          · rfl
      · split
        · rfl
        · exact retireList_only e cs st

theorem mem_of_mem_retireList {e : Engine} {d : Cmd} : ∀ {cs : List Cmd} {st : Stream}, d ∈ (retireList e cs st).1 → d ∈ cs
  | [], _, h => h
  | c :: cs, st, h => by
    unfold retireList at h
    split at h
    · exact List.mem_cons.2 ((List.mem_cons.1 h).imp_right mem_of_mem_retireList)
    · split at h
      · split at h
        · exact List.mem_cons_of_mem _ (mem_of_mem_retireList h)
        · split at h
          · exact List.mem_cons_of_mem _ (mem_of_mem_retireList h)
          · exact h
      · split at h
        · exact h
        · exact List.mem_cons.2 ((List.mem_cons.1 h).imp_right mem_of_mem_retireList)

/-- A command that is not complete does not retire. -/
theorem mem_retireList {e : Engine} {d : Cmd} (hd : d.done = false) {cs : List Cmd} {st : Stream} (h : d ∈ cs) : d ∈ (retireList e cs st).1 := by
  induction cs generalizing st with
  | nil => exact h
  | cons c cs ih =>
    have hkeep {u : Stream} : d ∈ c :: (retireList e cs u).1 := List.mem_cons.2 ((List.mem_cons.1 h).imp_right fun h => ih h)
    unfold retireList
    split
    · exact hkeep
    · split
      · next hc =>
        have hcs : d ∈ cs := (List.mem_cons.1 h).resolve_left fun hdc => by rw [← hdc, hd] at hc; exact absurd hc (by simp)
        split
        · exact ih hcs
        · split
          · exact ih hcs
          · exact h
      · split
        · exact h
        · exact hkeep

theorem mem_endLoops_elim {e : Engine} {d : Cmd} : ∀ {cs : List Cmd} {b : Bool}, d ∈ endLoops e b cs → ∃ c ∈ cs, d = c ∨ d = { c with done := true }
  | c :: cs, b, h => by
    rw [endLoops] at h
    rcases List.mem_cons.1 h with h | h
    · refine ⟨c, List.mem_cons_self, ?_⟩
      split at h
      · exact .inr h
      · exact .inl h
    · obtain ⟨c, hc, hd⟩ := mem_endLoops_elim h
      exact ⟨c, List.mem_cons_of_mem _ hc, hd⟩

theorem mem_endLoops {e : Engine} {d : Cmd} (hd : d.kind ≠ .loopEnd) : ∀ {cs : List Cmd} {b : Bool}, d ∈ cs → d ∈ endLoops e b cs
  | c :: cs, b, h => by
    rw [endLoops]
    rcases List.mem_cons.1 h with rfl | h
    · exact List.mem_cons.2 (.inl (if_neg (by simp [hd])).symm)
    · exact List.mem_cons_of_mem _ (mem_endLoops hd h)

theorem Stream.mem_setCmd {st : Stream} {c d : Cmd} : d ∈ (st.setCmd c).cmds ↔ (d ∈ st.cmds ∧ d.id ≠ c.id) ∨ (d = c ∧ ∃ x ∈ st.cmds, x.id = c.id) := by
  unfold Stream.setCmd
  rw [List.mem_map]
  constructor
  · rintro ⟨x, hx, rfl⟩
    split
    · next h => exact .inr ⟨rfl, x, hx, h⟩
    · next h => exact .inl ⟨hx, h⟩
  · rintro (⟨hd, hne⟩ | ⟨rfl, x, hx, hid⟩)
    · exact ⟨d, hd, if_neg hne⟩
    · exact ⟨x, hx, if_pos hid⟩

/-- No command is a notification. -/
def Stream.noNotes (st : Stream) : Prop := ∀ c ∈ st.cmds, ∀ g, c.kind ≠ .note g

theorem Stream.noNotes_setCmd {st : Stream} (h : st.noNotes) {c : Cmd} (hc : ∀ g, c.kind ≠ .note g) : (st.setCmd c).noNotes := by
  intro d hd
  obtain ⟨hm, -⟩ | ⟨rfl, -⟩ := Stream.mem_setCmd.1 hd
  · exact h d hm
  · exact hc

/-- A stream without notifications: which commands are left, and what else stays. -/
theorem State.stream_retireCmds {s : State} {sid : Nat} (e : Engine) (h : (s.stream sid).noNotes) :
    ((s.retireCmds sid e).stream sid).cmds = (retireList e (endLoops e false (s.stream sid).cmds) (s.stream sid)).1 ∧
      ((s.retireCmds sid e).stream sid).vq = (s.stream sid).vq := by
  have hvq := (congrArg Stream.vq (retireList_only e (endLoops e false (s.stream sid).cmds) (s.stream sid)) :)
  unfold State.retireCmds
  dsimp only
  rw [foldl_eq_self fun c hc b => ?_]
  · split
    · rw [State.stream_setStream]
      exact ⟨rfl, hvq⟩
    · rw [State.progress, State.stream_setStream, State.stream_setStream]
      exact ⟨rfl, hvq⟩
  · have hnote := h c (List.mem_filter.1 hc).1
    split
    · next g hg => exact absurd hg (hnote g)
    · rfl

/-- A command that is complete is done or gone, and the rows of the C→V FIFO stay. -/
theorem State.stream_finishCmd {s : State} {sid : Nat} {c : Cmd} (hc : ∀ g, c.kind ≠ .note g) (h : (s.stream sid).noNotes) :
    (∀ d ∈ ((s.finishCmd sid c).stream sid).cmds, d.id = c.id → d.done = true) ∧ ((s.finishCmd sid c).stream sid).vq = (s.stream sid).vq := by
  let u := s.setStream sid ((s.stream sid).setCmd { c with done := true, win := none })
  have hu : u.stream sid = (s.stream sid).setCmd { c with done := true, win := none } := State.stream_setStream ..
  obtain ⟨hcmds, hvq⟩ := State.stream_retireCmds (s := u) (sid := sid) c.eng (hu ▸ Stream.noNotes_setCmd h hc)
  have hfin : (s.finishCmd sid c).stream sid = { (u.retireCmds sid c.eng).stream sid with progAt := (u.retireCmds sid c.eng).now } := State.stream_setStream ..
  rw [hfin]
  refine ⟨fun d hd hid => ?_, hvq.trans (by rw [hu]; rfl)⟩
  obtain ⟨b, hb, hdb⟩ := mem_endLoops_elim (mem_of_mem_retireList (hcmds ▸ hd))
  rcases hdb with rfl | rfl
  · obtain ⟨-, hne⟩ | ⟨rfl, -⟩ := Stream.mem_setCmd.1 (hu ▸ hb)
    · exact absurd hid hne
    · rfl
  · rfl

/-! ### Admission (R175, R177) -/

section
variable {s : State} {sid r a n stamp p : Nat} {c : Cmd} {x : Region} (hl : s.linksIdle) (hx : s.region r = some x) (hp : s.portOf sid r = some p)
include hl hx hp

/-- A scanned read finds room in its slice, and in the C→V FIFO where it delivers there. -/
theorem State.tryAdmit_read {vq : Bool} {dst : Nat} (hk : c.kind = .scanRead r a n stamp vq dst) (hroom : x.roomFor (x.place a).2.1 p = true)
    (ho : vq = true → (s.stream sid).owed ≤ 16) : s.tryAdmit sid c = ((s.enqueueScan r x p stamp a n sid c.id none).progress sid, true) := by
  have hfree : (vq && decide (16 < (s.stream sid).owed)) = false := by
    cases vq with
    | false => rfl
    | true => simpa using ho rfl
  unfold State.tryAdmit
  simp only [hk, hfree, hx, hp, hroom, State.sliceCut_of_idle hl, State.sliceClear_of_idle hl, Bool.and_self, Bool.false_eq_true, if_false, if_true]

/-- A scanned read waits for room. -/
theorem State.tryAdmit_full {vq : Bool} {dst : Nat} (hk : c.kind = .scanRead r a n stamp vq dst)
    (hfull : x.roomFor (x.place a).2.1 p = false ∨ (vq = true ∧ 16 < (s.stream sid).owed)) : s.tryAdmit sid c = (s, false) := by
  unfold State.tryAdmit
  simp only [hk, hx, hp, State.sliceCut_of_idle hl, State.sliceClear_of_idle hl, Bool.and_true, Bool.false_eq_true, if_false]
  rcases hfull with hroom | ⟨rfl, ho⟩
  · simp only [hroom, Bool.false_eq_true, if_false, ite_self]
  · exact if_pos (by simpa using ho)

/-- An update finds room in its slice, with nothing left that its release waits for. -/
theorem State.tryAdmit_update {op : ScanOp} {data : List Byte} (hk : c.kind = .scanUpdate r a stamp op data) (hroom : x.roomFor (x.place a).2.1 p = true)
    (hd : s.copiesDone sid c = true) (hs : s.retiredSet sid = []) :
    s.tryAdmit sid c = ((s.enqueueScan r x p stamp a data.length sid c.id (some (op, data))).progress sid, true) := by
  have hrel : s.releaseRetired sid = (s, true) := by
    unfold State.releaseRetired
    rw [hs]
    rfl
  unfold State.tryAdmit
  simp only [hk, hd, hrel, hx, hp, hroom, State.sliceCut_of_idle hl, State.sliceClear_of_idle hl, Bool.and_self, Bool.false_eq_true, if_false, if_true]

end

end Sys2Proof.Machine
end

section
/-! PROOF of O41: scanned requests and laps (R163 to R167, R170, R172, R173, R175, R177, R318, R322, R323). -/

namespace Sys2Proof.Machine

open Sys2Proof

/-! ### C asks for admission (R162, R177) -/

/-- The state in which a new scanned request asks for admission: its port is taken, and its command is listed. -/
def State.asking (s : State) (r port : Nat) (c : Cmd) : State := (s.takePort s.cur.sid r port).addCmd c

section
variable (s : State) (r port : Nat) (c : Cmd)

theorem State.me_asking : (s.asking r port c).me = { s.me with ports := Tab.set s.me.ports r port, cmds := s.me.cmds ++ [c] } := by
  unfold State.asking State.addCmd
  refine (State.me_setMe ..).trans ?_
  rw [show (s.takePort s.cur.sid r port).me = _ from State.me_setMe s _]
  rfl

theorem State.portOf_asking : (s.asking r port c).portOf s.cur.sid r = some port := by
  have hfind : Tab.find ((s.asking r port c).stream s.cur.sid).ports r = some port :=
    (congrArg (fun st : Stream => Tab.find st.ports r) (s.me_asking r port c)).trans ((Tab.find_set ..).trans (if_pos rfl))
  unfold State.portOf
  rw [hfind]

end

/-- What a command of C that waits for its slice is owed counts among the rows of the C→V FIFO (R172). -/
theorem State.owed_asking (s : State) (r port : Nat) {c : Cmd} {q a n stamp dst : Nat} {vq : Bool} (hk : c.kind = .scanRead q a n stamp vq dst) (hd : c.done = false) :
    (s.asking r port c).me.owed = s.me.owed + vq.toNat := by
  rw [State.me_asking]
  unfold Stream.owed
  rw [List.filter_append, List.length_append, Nat.add_assoc]
  cases vq <;> simp [hk, hd]

/-- No command of C stands in the way of the release of an update that asks for admission (R175). -/
theorem State.copiesDone_asking {s : State} (r port : Nat) {c : Cmd} (h : ∀ d ∈ s.me.cmds, d.eng = .c → d.done = true ∨ (∃ e f, d.kind = .copy e f ∧ e.toVq = true) ∨
    ((∀ e f, d.kind ≠ .copy e f) ∧ s.cmdHeld s.cur.sid d = false)) : (s.asking r port c).copiesDone s.cur.sid c = true := by
  have hcmds : ((s.asking r port c).stream s.cur.sid).cmds = s.me.cmds ++ [c] := congrArg Stream.cmds (s.me_asking r port c)
  have hheld (d : Cmd) (hc : ∀ e f, d.kind ≠ .copy e f) : (s.asking r port c).cmdHeld s.cur.sid d = s.cmdHeld s.cur.sid d := by
    have hrange (a n : Nat) : (s.asking r port c).spDvaRange s.cur.sid a n = s.spDvaRange s.cur.sid a n := by
      unfold State.spDvaRange State.spRange
      rw [show (s.asking r port c).stream s.cur.sid = _ from s.me_asking r port c]
      rfl
    unfold State.cmdHeld
    cases hk : d.kind with
    | copy e f => exact absurd hk (hc e f)
    | scanRead q a n st vq dst => simp only [hrange]; rfl
    | _ => rfl
  unfold State.copiesDone
  rw [hcmds, List.all_eq_true]
  intro d hd
  have hne : d.id ≠ c.id := by simpa using List.mem_takeWhile_imp hd
  have hmem : d ∈ s.me.cmds := by
    rcases List.mem_append.1 ((List.takeWhile_sublist _).subset hd) with hm | hm
    · exact hm
    · exact absurd (congrArg Cmd.id (List.mem_singleton.1 hm)) hne
  by_cases he : d.eng = .c
  · rcases h d hmem he with hdone | ⟨e, f, hk, hv⟩ | ⟨hc, hh⟩
    · simp [hdone]
    · simp [hk, hv]
    · have hh := (hheld d hc).trans hh
      cases hk : d.kind with
      | copy e f => exact absurd hk (hc e f)
      | _ => simp [hh]
  · simp [he]

/-- With no store on its way a release by C covers none. -/
theorem State.quiet.retiredSet_asking {s : State} (hq : s.quiet) (r port : Nat) (c : Cmd) : (s.asking r port c).retiredSet s.cur.sid = [] := by
  have hpend : (s.asking r port c).pendingIds = [] := by
    change s.allStores.map (·.id) ++ s.imageStores.map (·.id) = []
    rw [hq.allStores, hq.imageStores]
    rfl
  obtain ⟨⟨-, h1, h2, h3, -⟩, -⟩ := hq
  unfold State.retiredSet
  rw [hpend]
  change ((s.atCore ++ s.atGrp ++ s.atDie).filter _).map _ ++ _ = _
  rw [h1, h2, h3]
  simp

/-! ### C goes on behind its request (R177) -/

theorem State.issueScan_admits {s t : State} {c : Cmd} (h : (s.addCmd c).tryAdmit s.cur.sid c = (t, true)) :
    s.issueScan c = (t.setMe (t.me.setCmd { c with admitted := true })).afterAdmission { c with admitted := true } := by
  unfold State.issueScan
  simp only [State.addCmd, State.setMe_cur] at h ⊢
  simp only [h, if_true]

theorem State.issueScan_holds {s t : State} {c : Cmd} (h : (s.addCmd c).tryAdmit s.cur.sid c = (t, false)) :
    s.issueScan c = (t.setMyEng { t.myEng with hold := .command }).held := by
  unfold State.issueScan
  simp only [State.addCmd, State.setMe_cur] at h ⊢
  simp only [h, Bool.false_eq_true, if_false]

/-- A read that is admitted leaves its lane and stands among the commands of C (R172). -/
theorem State.afterAdmission_read {t : State} {c : Cmd} {r a n stamp dst : Nat} {vq : Bool} (hk : c.kind = .scanRead r a n stamp vq dst) (hd : c.done = false)
    (hm : ∃ x ∈ t.me.cmds, x.id = c.id) (hn : t.me.noNotes) : let u := (t.setMe (t.me.setCmd c)).afterAdmission c
    u.out = .deferred ∧ u.regions = t.regions ∧ u.mem = t.mem ∧ { c with atLane := false } ∈ u.me.cmds := by
  let v := (t.setMe (t.me.setCmd c)).setMe ((t.setMe (t.me.setCmd c)).me.setCmd { c with atLane := false })
  have hc : ∀ g, c.kind ≠ .note g := fun g hg => by rw [hk] at hg; cases hg
  have hv : v.stream t.cur.sid = (t.me.setCmd c).setCmd { c with atLane := false } := (State.me_setMe ..).trans (by rw [State.me_setMe])
  have hnotes : (v.stream t.cur.sid).noNotes := hv ▸ Stream.noNotes_setCmd (Stream.noNotes_setCmd hn hc) hc
  have hmem : { c with atLane := false } ∈ (v.stream t.cur.sid).cmds := by
    rw [hv]
    exact Stream.mem_setCmd.2 (.inr ⟨rfl, c, Stream.mem_setCmd.2 (.inr ⟨rfl, hm⟩), rfl⟩)
  obtain ⟨honly, -⟩ := State.retireCmds_spec .c hnotes
  obtain ⟨hcmds, -⟩ := State.stream_retireCmds .c hnotes
  have hu : (t.setMe (t.me.setCmd c)).afterAdmission c = (v.retireCmds t.cur.sid .c).deferred := by
    unfold State.afterAdmission
    split
    · next h => rw [hk] at h; cases h
    · rfl
  have hcur : (v.retireCmds t.cur.sid .c).cur = t.cur := (congrArg State.cur honly :)
  intro u
  rw [show u = _ from hu]
  refine ⟨rfl, (congrArg State.regions honly :), (congrArg State.mem honly :), ?_⟩
  change _ ∈ ((v.retireCmds t.cur.sid .c).stream (v.retireCmds t.cur.sid .c).cur.sid).cmds
  rw [hcur, hcmds]
  exact mem_retireList (d := { c with atLane := false }) hd (mem_endLoops (d := { c with atLane := false }) (by simp [hk]) hmem)

/-- An update that is admitted is gone from the commands of C (R175). -/
theorem State.afterAdmission_update {t : State} {c : Cmd} {r a stamp : Nat} {op : ScanOp} {data : List Byte} (hk : c.kind = .scanUpdate r a stamp op data) :
    let u := (t.setMe (t.me.setCmd c)).afterAdmission c
    u.out = t.out ∧ u.regions = t.regions ∧ u.mem = t.mem ∧ ∀ d ∈ u.me.cmds, d ∈ t.me.cmds ∧ d.id ≠ c.id := by
  have hu : (t.setMe (t.me.setCmd c)).afterAdmission c =
      (t.setMe (t.me.setCmd c)).setMe { t.me.setCmd c with cmds := (t.me.setCmd c).cmds.filter fun x => x.id != c.id } := by
    unfold State.afterAdmission
    rw [hk, State.me_setMe]
  intro u
  rw [show u = _ from hu]
  refine ⟨rfl, rfl, rfl, fun d hd => ?_⟩
  rw [State.me_setMe] at hd
  obtain ⟨hd, hne⟩ := List.mem_filter.1 hd
  have hne : d.id ≠ c.id := by simpa using hne
  obtain ⟨hm, -⟩ | ⟨rfl, -⟩ := Stream.mem_setCmd.1 hd
  · exact ⟨hm, hne⟩
  · exact absurd rfl hne

/-! ### CSCANR and CSCANU issue (R170 to R172, R322, R323) -/

section
variable {s : State} {a len e l : EReg} {lap : Bool} {dva n r port stamp : Nat} {x : Region}

theorem execCscanr_issues {vq : Bool} {dst : Nat} (hs : s.me.standing .c = none) (hroom : s.roomC = true) (hdva : dva = (s.getE .c a).toNat) (hn : n = (s.getE .c len).toNat)
    (hdst : dst = (s.getE .c e).toNat) (hst : stampLap (x.openLap port) (s.scanStamp l lap) = some stamp) (hck : s.scanCheck s.cur.sid dva n .read = .ok (r, x, port))
    (hto : vq = false → dst % 64 = 0 ∧ (s.spDvaRange s.cur.sid dst (n + 8)).isSome = true) :
    exec (.cscanr a len e l lap vq) s = .next ((s.takePort s.cur.sid r port).issueScan { s.newCmd (.scanRead r dva n stamp vq dst) with atLane := true }) := by
  subst hdva hn hdst
  change execCscanr a len e l lap vq s = _
  unfold execCscanr
  cases vq with
  | true => simp only [hs, hck, hst, hroom, Bool.not_true, Bool.false_eq_true, false_and, if_false]
  | false =>
    obtain ⟨hal, hsome⟩ := hto rfl
    have hsome' := Option.isNone_eq_false_iff.2 hsome
    simp only [hs, hck, hst, hroom, hal, hsome', Bool.not_true, Bool.not_false, Bool.false_eq_true, ne_eq, not_true_eq_false, and_false, if_false]

theorem execCscanu_issues {op : ScanOp} {data : List Byte} {w : Option (Nat × Nat)} (hq : s.quiet) (hs : s.me.standing .c = none) (hroom : s.roomC = true)
    (hdva : dva = (s.getE .c a).toNat) (hn : n = (s.getE .c len).toNat) (hst : stampLap (x.openLap port) (s.scanStamp l lap) = some stamp)
    (hck : s.scanCheck s.cur.sid dva n .write = .ok (r, x, port)) (hsrc : s.scanSource s.cur.sid (s.getE .c e).toNat n = (s, .ok (data, w)))
    (hwin : (s.core (coreOf s.cur.sid)).windows.length < 8) (hread : s.mayReadNow s.cur.sid (s.getE .c e).toNat n = true) :
    exec (.cscanu a e len l lap op) s = .next ((s.takePort s.cur.sid r port).issueScan { s.newCmd (.scanUpdate r dva stamp op data) with atLane := true }) := by
  subst hdva hn
  have hcatch : s.catchUp s.cur.sid .c = (s, true) := by
    unfold State.catchUp
    rw [hq.queue]
    rfl
  have hclear (z : Nat) (l : List Nat) : s.readsClear s.cur.sid z l = true := by
    unfold State.readsClear
    rw [Bool.or_eq_true, List.all_eq_true]
    refine .inr fun b _ => ?_
    split
    · exact State.readClear_of_idle hq.links _ _ _
    · rfl
  have hfree : s.windowFree s.cur.sid = true := decide_eq_true hwin
  change execCscanu a e len l lap op s = _
  unfold execCscanu
  simp only [hs, hck, hcatch, hclear, hsrc, hst, hroom, hfree, hread, Bool.not_true, Bool.and_false, Bool.or_false, Bool.false_eq_true, if_false]

end

/-! ### Admitted at once (R163, R172, R175, R177) -/

section
variable {s : State} {r port stamp dva n : Nat} {x : Region}

/-- A state in which a region has taken a request, and memory is as before. -/
def State.TookRequest (s : State) (r i : Nat) (x : Region) (q : ScanReq) (t : State) : Prop :=
  (∃ y, t.region r = some y ∧ x.Queued y i q) ∧ t.mem = s.mem

theorem State.tookRequest_of_regions {t u : State} {i : Nat} {q : ScanReq} {y : Region} (hu : u.regions = t.regions) (hm : u.mem = s.mem) (ht : t.region r = some y)
    (hq : x.Queued y i q) : s.TookRequest r i x q u :=
  ⟨⟨y, (congrArg (Tab.find · r) hu).trans ht, hq⟩, hm⟩

variable (hq : s.quiet) (hx : s.region r = some x) (hr : x.roomFor (x.place dva).2.1 port = true)
include hq hx hr

/-- A read that finds room is admitted, and C goes on. -/
theorem State.issueScan_read {vq : Bool} {dst : Nat} (hn : s.me.noNotes) (ho : vq = true → s.me.owed < 16) :
    let t := (s.takePort s.cur.sid r port).issueScan { s.newCmd (.scanRead r dva n stamp vq dst) with atLane := true }
    t.out = .deferred ∧ s.TookRequest r (x.place dva).2.1 x (x.request port stamp dva n s.cur.sid s.nextId none) t ∧
      ∃ c ∈ t.me.cmds, c.id = s.nextId ∧ c.kind = .scanRead r dva n stamp vq dst ∧ c.admitted = true ∧ c.done = false := by
  let c : Cmd := { s.newCmd (.scanRead r dva n stamp vq dst) with atLane := true }
  let u := s.asking r port c
  have howed : vq = true → (u.stream s.cur.sid).owed ≤ 16 := fun hv => by
    have hroom := ho hv
    have hone := Bool.toNat_le vq
    exact (s.owed_asking r port (c := c) rfl rfl).trans_le (by omega)
  have hadmit := State.tryAdmit_read (s := u) (c := c) (n := n) (stamp := stamp) hq.links hx (s.portOf_asking r port c) rfl hr howed
  obtain ⟨y, hy, hqueued⟩ := u.enqueueScan_spec r x port stamp dva n s.cur.sid c.id none
  rw [hy] at hadmit
  have hme : ((u.setRegion r y).progress s.cur.sid).me = { u.me with progAt := u.now } := State.me_setMe (u.setRegion r y) _
  have hcmds : ((u.setRegion r y).progress s.cur.sid).me.cmds = s.me.cmds ++ [c] := by rw [hme]; exact congrArg Stream.cmds (s.me_asking r port c)
  have hnotes : ((u.setRegion r y).progress s.cur.sid).me.noNotes := fun d hd g hg => by
    rw [hcmds] at hd
    rcases List.mem_append.1 hd with hd | hd
    · exact hn d hd g hg
    · rw [List.mem_singleton.1 hd] at hg
      cases hg
  obtain ⟨hout, hregions, hmem, hc⟩ := State.afterAdmission_read (t := (u.setRegion r y).progress s.cur.sid) (c := { c with admitted := true }) rfl rfl
    ⟨c, by rw [hcmds]; exact List.mem_append_right _ (List.mem_singleton_self c), rfl⟩ hnotes
  intro t
  rw [show t = _ from State.issueScan_admits hadmit]
  exact ⟨hout, State.tookRequest_of_regions hregions hmem (State.region_setRegion u r y) hqueued, _, hc, rfl, rfl, rfl, rfl⟩

/-- An update that finds room is admitted, and its lane is done. -/
theorem State.issueScan_update {op : ScanOp} {data : List Byte} (hc : ∀ c ∈ s.me.cmds, c.eng = .c → c.done = true ∨ (∃ d f, c.kind = .copy d f ∧ d.toVq = true) ∨
    ((∀ d f, c.kind ≠ .copy d f) ∧ s.cmdHeld s.cur.sid c = false)) :
    let t := (s.takePort s.cur.sid r port).issueScan { s.newCmd (.scanUpdate r dva stamp op data) with atLane := true }
    t.out = s.out ∧ s.TookRequest r (x.place dva).2.1 x (x.request port stamp dva data.length s.cur.sid s.nextId (some (op, data))) t ∧ ∀ c ∈ t.me.cmds, c ∈ s.me.cmds := by
  let c : Cmd := { s.newCmd (.scanUpdate r dva stamp op data) with atLane := true }
  let u := s.asking r port c
  have hadmit := State.tryAdmit_update (s := u) (c := c) (stamp := stamp) hq.links hx (s.portOf_asking r port c) rfl hr (State.copiesDone_asking r port hc)
    (hq.retiredSet_asking r port c)
  obtain ⟨y, hy, hqueued⟩ := u.enqueueScan_spec r x port stamp dva data.length s.cur.sid c.id (some (op, data))
  rw [hy] at hadmit
  have hme : ((u.setRegion r y).progress s.cur.sid).me = { u.me with progAt := u.now } := State.me_setMe (u.setRegion r y) _
  have hcmds : ((u.setRegion r y).progress s.cur.sid).me.cmds = s.me.cmds ++ [c] := by rw [hme]; exact congrArg Stream.cmds (s.me_asking r port c)
  obtain ⟨hout, hregions, hmem, hleft⟩ := State.afterAdmission_update (t := (u.setRegion r y).progress s.cur.sid) (c := { c with admitted := true }) rfl
  intro t
  rw [show t = _ from State.issueScan_admits hadmit]
  refine ⟨hout, State.tookRequest_of_regions hregions hmem (State.region_setRegion u r y) hqueued, fun d hd => ?_⟩
  obtain ⟨hd, hne⟩ := hleft d hd
  rw [hcmds] at hd
  exact (List.mem_append.1 hd).resolve_right fun hdc => hne (by rw [List.mem_singleton.1 hdc])

omit hr in
/-- A read that finds no row of the C→V FIFO free holds with the stamp it has taken. -/
theorem State.issueScan_full {dst : Nat} (ho : 16 ≤ s.me.owed) :
    let t := (s.takePort s.cur.sid r port).issueScan { s.newCmd (.scanRead r dva n stamp true dst) with atLane := true }
    t.out = .held ∧ t.regions = s.regions ∧ t.mem = s.mem ∧ ∃ c ∈ t.me.cmds, c.id = s.nextId ∧ c.kind = .scanRead r dva n stamp true dst ∧ c.admitted = false := by
  let c : Cmd := { s.newCmd (.scanRead r dva n stamp true dst) with atLane := true }
  let u := s.asking r port c
  have howed : 16 < (u.stream s.cur.sid).owed := by
    exact (Nat.lt_succ_of_le ho).trans_eq (s.owed_asking r port (c := c) rfl rfl).symm
  have hadmit := State.tryAdmit_full (s := u) (c := c) (n := n) (stamp := stamp) hq.links hx (s.portOf_asking r port c) rfl (.inr ⟨rfl, howed⟩)
  intro t
  rw [show t = _ from State.issueScan_holds hadmit]
  refine ⟨rfl, rfl, rfl, c, ?_, rfl, rfl, rfl⟩
  change c ∈ (u.setMyEng { u.myEng with hold := .command }).me.cmds
  rw [State.setMyEng, State.me_setMe]
  change c ∈ u.me.cmds
  rw [s.me_asking r port c]
  exact List.mem_append_right _ (List.mem_singleton_self c)

end

/-! ### CLAP (R165, R167, R173, R318) -/

/-- The state after CLAP's answer: the port is taken, the stream has asked for the region's served laps, and the register holds a lap (R173). -/
def State.lapAnswered (s : State) (e : EReg) (r p lap : Nat) : State :=
  let u := s.takePort s.cur.sid r p
  let u := u.setMe { u.me with subs := if u.me.subs.contains r then u.me.subs else u.me.subs ++ [r] }
  u.setE .c e (BitVec.ofNat 64 (lap % 2 ^ 32))

theorem State.lapAnswered_spec (s : State) (e : EReg) (r p lap : Nat) : (s.lapAnswered e r p lap).getE .c e = BitVec.ofNat 64 (lap % 2 ^ 32) ∧
    r ∈ (s.lapAnswered e r p lap).me.subs ∧ Tab.find (s.lapAnswered e r p lap).me.ports r = some p := by
  let u := s.takePort s.cur.sid r p
  let st : Stream := { u.me with subs := if u.me.subs.contains r then u.me.subs else u.me.subs ++ [r] }
  have hst : (u.setMe st).me = st := State.me_setMe ..
  have hme : (s.lapAnswered e r p lap).me = { st with e := Tab.set st.e Engine.c.code (Tab.set (Tab.get [] st.e Engine.c.code) e.val (BitVec.ofNat 64 (lap % 2 ^ 32))) } :=
    (State.me_setMe ..).trans (by rw [hst])
  have hport : Tab.find u.me.ports r = some p := (congrArg (fun st : Stream => Tab.find st.ports r) (State.me_setMe ..)).trans ((Tab.find_set ..).trans (if_pos rfl))
  unfold State.getE
  rw [hme]
  refine ⟨?_, ?_, hport⟩
  · change Tab.get 0 (Tab.get [] (Tab.set _ _ _) _) _ = _
    rw [Tab.get_set_self, Tab.get_set_self]
  · change r ∈ if u.me.subs.contains r then u.me.subs else u.me.subs ++ [r]
    split
    · next h => simpa using h
    · exact List.mem_append_right _ (List.mem_singleton_self r)

section
variable {s : State} {e l : EReg} {r p : Nat} {x : Region} (hr : r = (s.getE .c l).toNat) (h16 : r < 16) (hx : s.region r = some x) (hw : x.wid = s.widOf s.cur.sid)
  (hp : s.portOf s.cur.sid r = some p) (hpart : x.stepped = false ∨ p ∈ x.parts)
include hr h16 hx hw hp hpart

theorem execClap_answers : exec (.clap e l false) s = .next (s.lapAnswered e r p (x.openLap p)) := by
  have hport : (x.stepped && !(x.parts.contains p)) = false := by rcases hpart with h | h <;> simp [h]
  subst hr
  change execClap e l false s = _
  unfold execClap
  simp only [h16, hx, hw, hp, hport, if_true, Bool.false_and, Bool.or_self, Bool.false_eq_true, false_and, if_false]
  rfl

/-- In stepped mode CLAP with CLOSE closes its port's open lap, and sends the markers. -/
theorem execClap_closes (hs : x.stepped = true) (ho : x.openLap p < x.served + 16) : exec (.clap e l true) s =
    .next ((s.lapAnswered e r p (x.openLap p)).setRegion r ({ x with opn := Tab.set x.opn p (x.openLap p + 1), undo := none }.sendMarkers p (x.openLap p))) := by
  have hport : x.parts.contains p = true := by simpa [hs] using hpart
  subst hr
  change execClap e l true s = _
  unfold execClap
  simp only [h16, hx, hw, hp, hport, hs, Nat.not_le.2 ho, if_true, Bool.not_true, Bool.and_false, Bool.or_self, Bool.false_eq_true, and_false, if_false]
  rfl

/-- It holds while its lap is 16 ahead of the laps served. -/
theorem execClap_holds (hs : x.stepped = true) (ho : ¬x.openLap p < x.served + 16) : exec (.clap e l true) s = s.holdCmd := by
  have hport : x.parts.contains p = true := by simpa [hs] using hpart
  subst hr
  change execClap e l true s = _
  unfold execClap
  simp only [h16, hx, hw, hp, hport, hs, Nat.not_lt.1 ho, if_true, Bool.not_true, Bool.and_false, Bool.or_self, Bool.false_eq_true, and_self, if_false]

omit hpart in
/-- In timed mode the bell closes laps: CLOSE faults there. -/
theorem execClap_timed (hs : x.stepped = false) : exec (.clap e l true) s = .next (s.fault (classFault 0 r)) := by
  subst hr
  change execClap e l true s = _
  unfold execClap
  simp only [h16, hx, hw, hp, hs, if_true, Bool.not_false, Bool.and_true, Bool.or_true]

end

/-- The request that a region takes is the one that the statement describes. -/
theorem Region.request_spec (x : Region) (port stamp a len sid cmd : Nat) (u : Option (ScanOp × List Byte)) : let q := x.request port stamp a len sid cmd u
    q.port = port ∧ q.seq = Tab.get 0 x.seqs port ∧ q.stamp = stamp ∧ q.row = (x.place a).1 ∧ q.off = (x.place a).2.2 ∧ q.len = len ∧ q.wid = x.wid :=
  ⟨rfl, rfl, rfl, rfl, rfl, rfl, rfl⟩

/-- Settles O41: a request that finds room is admitted by `State.issueScan_read` and `State.issueScan_update`, one that does not holds by `State.issueScan_full`, and
CLAP is told by its four outcomes. -/
theorem scansAdmitted : Obligations.ScansAdmitted := by
  unfold Obligations.ScansAdmitted
  refine ⟨fun s a len e l lap vq op dva n dst r port stamp x data w hq hs hroom hx hn hdva hlen hst hr => ?_,
    fun s e l r p x hr h16 hx hw hp hpart => ⟨?_, fun hs ho => ?_, fun hs ho => ?_, fun hs => ?_⟩⟩
  · intro queued
    have htook {t : State} {u : Option (ScanOp × List Byte)} (h : s.TookRequest r (x.place dva).2.1 x (x.request port stamp dva n s.cur.sid s.nextId u) t) :
        queued t (x.request port stamp dva n s.cur.sid s.nextId u) := by
      obtain ⟨⟨y, hy, hqueue, hseq, hother⟩, hmem⟩ := h
      exact ⟨y, hy, hqueue, hseq, hother, hmem, x.request_spec ..⟩
    refine ⟨fun hdst hck hto => ?_, fun hdst hck hvq ho => ?_, fun hck hsrc hdata hwin hread hc => ?_⟩
    · have hexec := execCscanr_issues (vq := vq) hs hroom hdva hlen hdst hst hck fun hv => by rw [hv] at hto; exact hto
      obtain ⟨hout, hreq, hcmd⟩ := State.issueScan_read (vq := vq) (port := port) (stamp := stamp) (n := n) (dst := dst) hq hx hr hn fun hv => by rw [hv] at hto; exact hto
      exact ⟨_, hexec, hout, ⟨_, htook hreq, rfl, rfl⟩, hcmd⟩
    · subst hvq
      exact ⟨_, execCscanr_issues hs hroom hdva hlen hdst hst hck fun hv => Bool.noConfusion hv, State.issueScan_full hq hx ho⟩
    · subst hdata
      obtain ⟨hout, hreq, hcmds⟩ := State.issueScan_update (port := port) (stamp := stamp) (op := op) (data := data) hq hx hr hc
      exact ⟨_, execCscanu_issues hq hs hroom hdva hlen hst hck hsrc hwin hread, hout, ⟨_, htook hreq, rfl⟩, hcmds⟩
  · obtain ⟨hlap, hsub, hport⟩ := s.lapAnswered_spec e r p (x.openLap p)
    exact ⟨_, execClap_answers hr h16 hx hw hp hpart, hlap, hsub, hport, rfl, rfl⟩
  · obtain ⟨hlap, hsub, -⟩ := s.lapAnswered_spec e r p (x.openLap p)
    refine ⟨_, execClap_closes hr h16 hx hw hp hpart hs ho, hlap, hsub, rfl, _, State.region_setRegion .., ?_, rfl, rfl, rfl⟩
    unfold Region.openLap Region.sendMarkers
    simp only [hs, if_true, Tab.get_set_self]
  · exact ⟨_, execClap_holds hr h16 hx hw hp hpart hs ho, rfl, rfl⟩
  · exact execClap_timed hr h16 hx hw hp hs

end Sys2Proof.Machine
end

section
/-! SUPPORT for O42: what the updates of a row write (R168, R169, Table 7.2). -/

namespace Sys2Proof

/-! ### Bytes of a memory as lists -/

/-- Part of what a list of bytes has been written to reads as part of the list. -/
theorem Memory.readList_writeList (m : Memory) (a : Nat) {bs : List Byte} {j w : Nat} (h : j + w ≤ bs.length) :
    Memory.readList (Memory.writeList m a bs) (a + j) w = (bs.drop j).take w := by
  refine List.ext_getElem (by simp; omega) fun i hi hi' => ?_
  have hiw : i < w := by simpa using hi
  rw [Machine.Memory.getElem_readList, Nat.add_assoc, Memory.read_writeList_in _ _ _ (by omega), List.getElem_take, List.getElem_drop, List.getD_eq_getElem _ _ (by omega)]

/-- Part of n bytes read are the bytes read there. -/
theorem Memory.readList_part (m : Memory) (a : Nat) {n j w : Nat} (h : j + w ≤ n) : ((Memory.readList m a n).drop j).take w = Memory.readList m (a + j) w := by
  refine List.ext_getElem (by simp; omega) fun i hi hi' => ?_
  rw [List.getElem_take, List.getElem_drop, Machine.Memory.getElem_readList, Machine.Memory.getElem_readList, Nat.add_assoc]

/-! ### Numbers as little-endian bytes (R4) -/

theorem leNat_drop (m : Nat) (l : List Byte) : leNat (l.drop m) = leNat l / 2 ^ (8 * m) := by
  induction m generalizing l with
  | zero => simp
  | succ m ih =>
    cases l with
    | nil => simp [leNat]
    | cons b bs =>
      have hb := b.isLt
      have hdiv : (b.toNat + 256 * leNat bs) / 2 ^ 8 = leNat bs := by omega
      rw [List.drop_succ_cons, ih, leNat, Nat.mul_succ, Nat.add_comm (8 * m), Nat.pow_add, ← Nat.div_div_eq_div_mul, hdiv]

theorem leNat_take (w : Nat) (l : List Byte) : leNat (l.take w) = leNat l % 2 ^ (8 * w) := by
  induction w generalizing l with
  | zero => simp [leNat, Nat.mod_one]
  | succ w ih =>
    cases l with
    | nil => simp [leNat]
    | cons b bs =>
      have hb := b.isLt
      have hlow : (b.toNat + 256 * leNat bs) % 2 ^ 8 = b.toNat := by omega
      have hhigh : (b.toNat + 256 * leNat bs) / 2 ^ 8 = leNat bs := by omega
      rw [List.take_succ_cons, leNat, ih, leNat, Nat.mul_succ, Nat.add_comm (8 * w), Nat.pow_add, Nat.mod_mul, hlow, hhigh]

/-- Bytes of a list are a field of its number. -/
theorem leNat_part (l : List Byte) (w k : Nat) : leNat ((l.drop (w * k)).take w) = bits (leNat l) (8 * w * k) (8 * w) := by
  rw [leNat_take, leNat_drop, bits, Nat.mul_assoc]

theorem leNat_lt (w : Nat) (l : List Byte) : leNat (l.take w) < 2 ^ (8 * w) := by
  rw [leNat_take]
  exact Nat.mod_lt _ (Nat.two_pow_pos _)

theorem leNat_leBytes (n v : Nat) : leNat (leBytes n v) = v % 2 ^ (8 * n) := by
  induction n generalizing v with
  | zero => simp [leBytes, leNat, Nat.mod_one]
  | succ n ih =>
    rw [leBytes, leNat, ih, BitVec.toNat_ofNat, Nat.mul_succ, Nat.add_comm (8 * n), Nat.pow_add, Nat.mod_mul]

end Sys2Proof

namespace Sys2Proof.Machine

open Sys2Proof

/-! ### Updates element by element (Table 7.2) -/

/-- A function of the old and the new element at a width in bytes, applied to each element of a row's bytes. -/
def elementwise (w : Nat) (f : Nat → Nat → Nat) (old new : List Byte) : List Byte :=
  leBytes old.length (packElems (8 * w) (((elems (8 * w) (old.length / w) (leNat old)).zip (elems (8 * w) (old.length / w) (leNat new))).map fun p => f p.1 p.2))

theorem length_elementwise (w : Nat) (f : Nat → Nat → Nat) (old new : List Byte) : (elementwise w f old new).length = old.length := leBytes_length ..

theorem leNat_elementwise {w k : Nat} (f : Nat → Nat → Nat) {old : List Byte} (new : List Byte) (hd : old.length % w = 0) (hk : k < old.length / w) :
    leNat (((elementwise w f old new).drop (w * k)).take w) = f (leNat ((old.drop (w * k)).take w)) (leNat ((new.drop (w * k)).take w)) % 2 ^ (8 * w) := by
  let l := ((elems (8 * w) (old.length / w) (leNat old)).zip (elems (8 * w) (old.length / w) (leNat new))).map fun p => f p.1 p.2
  have hlen : l.length = old.length / w := by simp [l, length_elems]
  have hlt : packElems (8 * w) l < 2 ^ (8 * old.length) := by
    have h := packElems_lt (8 * w) l
    rwa [hlen, Nat.mul_assoc, Nat.mul_div_cancel' (Nat.dvd_of_mod_eq_zero hd)] at h
  have hget : l.getD k 0 = f (bits (leNat old) (8 * w * k) (8 * w)) (bits (leNat new) (8 * w * k) (8 * w)) := by
    rw [← getD_elems _ (old.length / w) _ _ hk, ← getD_elems _ (old.length / w) (leNat new) _ hk]
    simp [l, List.getD_eq_getElem?_getD, length_elems, hk]
  rw [leNat_part, leNat_part, leNat_part, elementwise, leNat_leBytes, Nat.mod_eq_of_lt hlt, bits_packElems, hget]

/-- A row's bytes in memory after an update of that kind: each element by its function, and no byte beyond them. -/
theorem Memory.readList_elementwise {m : Memory} {a w k : Nat} {f : Nat → Nat → Nat} {d : List Byte} (hd : d.length % w = 0) (hk : k < d.length / w)
    (hf : ∀ x y, x < 2 ^ (8 * w) → y < 2 ^ (8 * w) → f x y < 2 ^ (8 * w)) :
    leNat (Memory.readList (Memory.writeList m a (elementwise w f (Memory.readList m a d.length) d)) (a + w * k) w) =
      f (leNat (Memory.readList m (a + w * k) w)) (leNat ((d.drop (w * k)).take w)) := by
  have hfit : w * k + w ≤ d.length := by
    rw [← Nat.mul_succ]
    exact (Nat.mul_le_mul_left w hk).trans (Nat.mul_div_le _ _)
  have hlen : (elementwise w f (Memory.readList m a d.length) d).length = d.length := by rw [length_elementwise, Memory.length_readList]
  have hold : leNat (Memory.readList m (a + w * k) w) < 2 ^ (8 * w) := by
    rw [← Memory.readList_part m a hfit]
    exact leNat_lt _ _
  rw [Memory.readList_writeList m a (hlen.symm ▸ hfit), leNat_elementwise f d (by simpa using hd) (by simpa using hk), Memory.readList_part m a hfit,
    Nat.mod_eq_of_lt (hf _ _ hold (leNat_lt _ _))]

/-- The element operation of an update, by its width in bytes; a SET has none. -/
def scanElement : ScanOp → Option (Nat × (Nat → Nat → Nat))
  | .set => none
  | .addF32 => some (4, addAt .f32)
  | .addBf16 => some (2, addAt .bf16)
  | .addF16 => some (2, addAt .f16)
  | .addI32 => some (4, addAt .i32)
  | .maxF32 => some (4, maxAt .f32)
  | .minF32 => some (4, minAt .f32)

theorem updateBytes_of_element {op : ScanOp} {w : Nat} {f : Nat → Nat → Nat} (h : scanElement op = some (w, f)) (old new : List Byte) :
    updateBytes op old new = elementwise w f old new := by
  cases op <;> cases h <;> rfl

theorem addAt_lt {t : Ty} (ht : isFloat t = true) (a b : Nat) : addAt t a b < 2 ^ tyBits t := (if_pos ht).trans_lt (encodeFloat_lt ht _)

section
variable {t : Ty} (ht : isFloat t = true) {a b : Nat} (ha : a < 2 ^ tyBits t) (hb : b < 2 ^ tyBits t)
include ht ha hb

theorem maxAt_lt : maxAt t a b < 2 ^ tyBits t := by
  have hn := cnan_lt ht
  unfold maxAt
  dsimp only
  repeat' split
  all_goals assumption

theorem minAt_lt : minAt t a b < 2 ^ tyBits t := by
  have hn := cnan_lt ht
  unfold minAt
  dsimp only
  repeat' split
  all_goals assumption

end

/-- Each element operation gives an element of its width. -/
theorem scanElement_lt {op : ScanOp} {w : Nat} {f : Nat → Nat → Nat} (h : scanElement op = some (w, f)) {x y : Nat} (hx : x < 2 ^ (8 * w)) (hy : y < 2 ^ (8 * w)) :
    f x y < 2 ^ (8 * w) := by
  cases op <;> cases h
  · exact addAt_lt (t := .f32) rfl x y
  · exact addAt_lt (t := .bf16) rfl x y
  · exact addAt_lt (t := .f16) rfl x y
  · exact Nat.mod_lt _ (Nat.two_pow_pos 32)
  · exact maxAt_lt (t := .f32) rfl hx hy
  · exact minAt_lt (t := .f32) rfl hx hy

/-! ### Requests of a row (R168, R172) -/

theorem State.mem_setHome (s : State) (a : Nat) (data : List Byte) : (s.setHome (.dram a) data).mem = Memory.writeList s.mem a data := (State.tear_mem ..).1

/-- A SET stands whatever was there before it. -/
theorem State.applyUpdate_set {op : ScanOp} (h : op = .set) (s : State) (r : Nat) (x : Region) (q : ScanReq) (data : List Byte) :
    (s.applyUpdate r x q op data).mem = Memory.writeList s.mem (rowAddr r q.row + q.off) data := by
  unfold State.applyUpdate
  rw [if_pos h]
  exact (State.mem_writtenPoison ..).1.trans (State.mem_setHome ..)

section
variable {s : State} (hq : s.quiet)
include hq

/-- A row of a quiet memory reads without an error (R155, R179). -/
theorem State.scanRead_of_quiet (x : Region) (a n port lap dva : Nat) (zeros : Bool) : s.scanRead x a n port lap dva zeros = (s, List.replicate (n / 64) false) := by
  obtain ⟨-, -, hb, he, hs, hi, hp⟩ := hq
  have hclean := State.tryGranule_of_clean hb he hs hi hp
  have hfold (l : List Nat) (acc : List (Bool × Nat)) : l.foldl (fun (acc : State × List (Bool × Nat)) i =>
      ((if (acc.1.tryGranule (a + 64 * i)).2.2 = 1 then (acc.1.tryGranule (a + 64 * i)).1.logError x.wid 1 port (lap % 2 ^ 32) (dva + 64 * i) 0
        else (acc.1.tryGranule (a + 64 * i)).1), acc.2 ++ [(acc.1.tryGranule (a + 64 * i)).2])) (s, acc) = (s, acc ++ List.replicate l.length (false, 0)) := by
    induction l generalizing acc with
    | nil => simp
    | cons i l ih =>
      rw [List.foldl_cons]
      simp only [hclean, Nat.zero_ne_one, if_false]
      rw [ih, List.append_assoc, List.length_cons, List.replicate_succ]
      rfl
  have hnone : ((List.replicate (n / 64) (false, 0)).zipIdx.find? fun p => p.1.2 == 2 || (p.1.1 && zeros)) = none :=
    List.find?_eq_none.2 fun p hp => by
      have hmem := List.eq_of_mem_replicate (List.fst_mem_of_mem_zipIdx hp)
      simp [hmem]
  unfold State.scanRead
  simp only [hfold, List.nil_append, List.length_range, hnone, List.map_replicate]

/-- An update writes the bytes of its kind over its part of the row, and no other byte. -/
theorem State.applyUpdate_mem (r : Nat) (x : Region) (q : ScanReq) (op : ScanOp) (data : List Byte) : (s.applyUpdate r x q op data).mem =
    Memory.writeList s.mem (rowAddr r q.row + q.off) (updateBytes op (Memory.readList s.mem (rowAddr r q.row + q.off) q.len) data) := by
  have hno : (List.replicate (q.len / 64) false).contains true = false := by simp
  by_cases h : op = .set
  · subst h
    exact State.applyUpdate_set rfl s r x q data
  · unfold State.applyUpdate
    simp only [h, State.scanRead_of_quiet hq, hno, State.mem_setHome, Bool.false_eq_true, if_false]

/-- A read leaves its reply in the command that asked: the row's bytes, and the lap it was served at. -/
theorem State.serveRead_of_quiet (r : Nat) (x : Region) (q : ScanReq) : ∃ pos, s.serveRead r x q = s.mapCmd q.cmd fun c =>
    { c with reply := some (bytesRow (Memory.readList s.mem (rowAddr r q.row + q.off) q.len), BitVec.ofNat 64 (q.stamp % 2 ^ 32)), pos := pos } := by
  have hbytes (l : List Byte) : (l.zipIdx.map fun p => if (List.replicate (q.len / 64) false).getD (p.2 / 64) false = true then (0 : Byte) else p.1) = l := by
    have hget (k : Nat) : (List.replicate (q.len / 64) false).getD k false = false := by
      rw [List.getD_eq_getElem?_getD, List.getElem?_replicate]
      split <;> rfl
    simp only [hget, Bool.false_eq_true, if_false]
    exact List.zipIdx_map_fst 0 l
  have hno : (List.replicate (q.len / 64) false).contains true = false := by simp
  unfold State.serveRead
  simp only [State.scanRead_of_quiet hq, hbytes, hno, Bool.false_and, Bool.toNat_false, Nat.zero_mul, Nat.add_zero]
  exact ⟨_, rfl⟩

end

/-- Commands changed by their number: every stream's list is mapped. -/
theorem State.cmds_mapCmd (s : State) (id : Nat) (f : Cmd → Cmd) (k : Nat) :
    ((s.mapCmd id f).stream k).cmds = (s.stream k).cmds.map fun c => if c.id = id then f c else c := by
  let g (st : Stream) : Stream := if st.cmds.any (fun c => c.id == id) then { st with cmds := st.cmds.map fun c => if c.id = id then f c else c } else st
  have hk : (s.mapCmd id f).stream k = g (s.stream k) := Tab.get_map g Stream.reset s.streams k
  rw [hk]
  unfold g
  split
  · rfl
  · next h =>
    have hne : ∀ c ∈ (s.stream k).cmds, c.id ≠ id := by simpa using h
    exact ((List.map_congr_left fun c hc => if_neg (hne c hc)).trans (List.map_id _)).symm

end Sys2Proof.Machine
end

section
/-! PROOF of O42: slices serve their rows (R161, R165 to R169, R172, R175, R177, Tables 7.2 and 7.5). -/

namespace Sys2Proof.Machine

open Sys2Proof

/-! ### The lap bell and the close markers (R165, R166) -/

/-- The region after its bell has rung: the open lap is closed, with a marker of every port to every slice. -/
def Region.rung (x : Region) (ports : List Nat) : Region :=
  { x with bells := x.bells + 1, lastBell := x.lastBell + x.bell, pend := x.pend ++ ports.flatMap fun p => (List.range x.count).map fun k => (k, p, x.bells) }

/-- The region once a slice holds a marker that was on its way. -/
def Region.marked (x : Region) (i port lap : Nat) : Region :=
  { x.setSlice i { x.slice i with markers := (x.slice i).markers ++ [(port, lap)] } with pend := x.pend.erase (i, port, lap) }

section
variable {s : State} {r i port lap row : Nat} {x : Region} (hx : s.region r = some x)
include hx

theorem execLapBell_rings (hst : x.stepped = false) (hrel : x.releasing = false) (hmade : x.made = true) (hw : x.waiter = none) (hnow : x.lastBell + x.bell ≤ s.now)
    (hb : x.bells < x.served + 16) : exec (.lapBell r) s = .next (s.setRegion r (x.rung (s.timedPorts r))) := by
  have hrings : (x.stepped || x.releasing || !x.made || x.waiter.isSome || decide (s.now < x.lastBell + x.bell) || decide (x.served + 16 ≤ x.bells)) = false := by
    simp [hst, hrel, hmade, hw, hnow, hb]
  change execLapBell r s = _
  unfold execLapBell
  simp only [hx, hrings, Bool.false_eq_true, if_false, Region.foldl_sendMarkers fun p => (p, x.bells)]
  rfl

theorem execCloseMarkerArrive_arrives (hl : s.linksIdle) (hm : (x.pend.find? fun m => m.1 == i && m.2.1 == port) = some (i, port, lap)) (hn : s.noneWaiting r port lap = true) :
    exec (.closeMarkerArrive r i port) s = .next (s.putRegion r ((x.marked i port lap).goOn i) fun _ => false) := by
  rw [← State.moveSlice_of_idle hl r i]
  change execCloseMarkerArrive r i port s = _
  unfold execCloseMarkerArrive
  simp only [hx, hm, hn, State.sliceClear_of_idle hl, State.sliceCut_of_idle hl, Bool.and_self, Bool.false_eq_true, if_false, if_true]
  rfl

theorem execCloseMarkerArrive_waits (hm : (x.pend.find? fun m => m.1 == i && m.2.1 == port) = some (i, port, lap)) (hn : s.noneWaiting r port lap = false) :
    exec (.closeMarkerArrive r i port) s = .next s := by
  change execCloseMarkerArrive r i port s = _
  unfold execCloseMarkerArrive
  simp only [hx, hm, hn, Bool.false_and, Bool.false_eq_true, if_false]

/-! ### Rows to zero, and the end of a pass (Table 7.5) -/

/-- The state with a row of 1,024 bytes at zero, its granules clean. -/
def State.zeroRow (s : State) (a : Nat) : State :=
  (List.range 16).foldl (fun (s : State) i => s.cleanGranule (a / 64 + i)) { s with mem := Memory.clear s.mem a 1024 }

omit hx in
theorem State.zeroRow_spec (s : State) (a : Nat) : (s.zeroRow a).mem = Memory.clear s.mem a 1024 ∧ (s.zeroRow a).links = s.links := by
  unfold State.zeroRow
  generalize List.range 16 = l
  refine foldl_keeps (fun t : State => t.mem = Memory.clear s.mem a 1024 ∧ t.links = s.links) _ ?_ l ?_
  · exact fun t i ht => ht
  · exact ⟨rfl, rfl⟩

omit hx in
theorem State.read_zeroRow {s t : State} {a : Nat} (h : t.mem = (s.zeroRow a).mem) (b : Nat) :
    Memory.read t.mem b = if a ≤ b ∧ b < a + 1024 then 0 else Memory.read s.mem b := by
  rw [h, (s.zeroRow_spec a).1, Memory.read_clear]

theorem execSliceZeroRow_next (hi : i < x.count) (hst : (x.slice i).st = .zero row) (hrow : row + 1 < x.nrow) : exec (.sliceZeroRow r i) s =
    .next ((s.zeroRow (rowAddr r (row * x.count + i))).setRegion r (x.setSlice i { x.slice i with st := .zero (row + 1) })) := by
  change execSliceZeroRow r i s = _
  unfold execSliceZeroRow
  simp only [hx, hi, hst, hrow, if_true]
  rfl

theorem execSliceZeroRow_last (hl : s.linksIdle) (hi : i < x.count) (hst : (x.slice i).st = .zero row) (hrow : ¬row + 1 < x.nrow) : exec (.sliceZeroRow r i) s =
    .next ((s.zeroRow (rowAddr r (row * x.count + i))).putRegion r ((x.setSlice i { x.slice i with st := .wait 0 }).goOn i) fun _ => false) := by
  have hl' : (s.zeroRow (rowAddr r (row * x.count + i))).linksIdle := by
    unfold State.linksIdle
    rw [(s.zeroRow_spec _).2]
    exact hl
  rw [← State.moveSlice_of_idle hl' r i]
  change execSliceZeroRow r i s = _
  unfold execSliceZeroRow
  simp only [hx, hi, hst, hrow, if_true, if_false]
  rfl

theorem execSlicePassEnd_ends (hl : s.linksIdle) (hst : (x.slice i).st = .pass lap row) (hw : (x.slice i).hasWork lap = false) : exec (.slicePassEnd r i) s =
    .next (s.putRegion r ((x.setSlice i { x.slice i with st := .wait (lap + 1), markers := (x.slice i).markers.filter fun m => decide (lap < m.2) }).goOn i) fun _ => false) := by
  have hnone : ((x.slice i).queue.any fun q => q.stamp == lap && decide (row ≤ q.row / x.count)) = false :=
    List.any_eq_false.2 fun q hq => by
      have hne := List.any_eq_false.1 hw q hq
      simp only [Bool.and_eq_true, not_and]
      exact fun h => absurd h hne
  rw [← State.moveSlice_of_idle hl r i]
  change execSlicePassEnd r i s = _
  unfold execSlicePassEnd
  simp only [hx, hst, hnone, Bool.false_eq_true, if_false]

theorem execSlicePassEnd_waits (hst : (x.slice i).st = .pass lap row) (hw : ((x.slice i).queue.any fun q => q.stamp == lap && decide (row ≤ q.row / x.count)) = true) :
    exec (.slicePassEnd r i) s = .next s := by
  change execSlicePassEnd r i s = _
  unfold execSlicePassEnd
  simp only [hx, hst, hw, if_true]

end

/-! ### The cursor serves a row (R168) -/

theorem mem_insertBy {α : Type} {le : α → α → Bool} {x y : α} {l : List α} : y ∈ insertBy le x l ↔ y = x ∨ y ∈ l := by
  induction l with
  | nil => simp [insertBy]
  | cons a l ih =>
    unfold insertBy
    split
    · simp
    · rw [List.mem_cons, ih, List.mem_cons]
      exact or_left_comm

theorem mem_sortBy {α : Type} {le : α → α → Bool} {y : α} {l : List α} : y ∈ sortBy le l ↔ y ∈ l := by
  induction l with
  | nil => rfl
  | cons a l ih => rw [sortBy, mem_insertBy, ih, List.mem_cons]

/-- The order in which the updates of a row are served: by port, then by sequence number. -/
def ScanReq.before (a b : ScanReq) : Bool := decide (a.port < b.port) || (a.port == b.port && decide (a.seq ≤ b.seq))

def State.serveUpdate (s : State) (r : Nat) (x : Region) (q : ScanReq) : State := match q.update with | some (op, data) => s.applyUpdate r x q op data | none => s

theorem State.serveUpdate_some {s : State} {r : Nat} {x : Region} {q : ScanReq} {op : ScanOp} {d : List Byte} (h : q.update = some (op, d)) :
    s.serveUpdate r x q = s.applyUpdate r x q op d := by
  unfold State.serveUpdate
  rw [h]

/-- The requests of a row are served: its updates in their order, then its reads. -/
def State.serveRow (s : State) (r : Nat) (x : Region) (l : List ScanReq) : State :=
  (l.filter fun q => q.update.isNone).foldl (fun (s : State) q => s.serveRead r x q)
    ((sortBy ScanReq.before (l.filter fun q => q.update.isSome)).foldl (fun (s : State) q => s.serveUpdate r x q) s)

/-- The region once the cursor has passed a row with nothing left in the slice's queue. -/
def Region.passed (x : Region) (i lap row : Nat) : Region := x.setSlice i { x.slice i with st := .pass lap (row / x.count + 1), queue := [] }

/-- Requests of the pass's lap and of one row, which the cursor has not passed yet, are served together. -/
theorem execSliceRowServe_serves {s : State} {r i lap cur row : Nat} {x : Region} (hx : s.region r = some x) (hst : (x.slice i).st = .pass lap cur)
    (hne : (x.slice i).queue ≠ []) (hall : ∀ q ∈ (x.slice i).queue, q.stamp = lap ∧ q.row = row) (hc : cur ≤ row / x.count) :
    exec (.sliceRowServe r i) s = .next ((s.serveRow r x (x.slice i).queue).setRegion r (x.passed i lap row)) := by
  have hwork : ((x.slice i).queue.filter fun q => q.stamp == lap && decide (cur ≤ q.row / x.count)) = (x.slice i).queue :=
    List.filter_eq_self.2 fun q hq => by simp [(hall q hq).1, (hall q hq).2, hc]
  change execSliceRowServe r i s = _
  unfold execSliceRowServe
  simp only [hx, hst, hwork]
  cases hf : (sortBy (fun a b : ScanReq => decide (a.row ≤ b.row)) (x.slice i).queue).head? with
  | none =>
    obtain ⟨q, hq⟩ := List.exists_mem_of_ne_nil _ hne
    rw [List.head?_eq_none_iff] at hf
    exact absurd (mem_sortBy.2 hq) (by rw [hf]; exact List.not_mem_nil)
  | some f =>
    have hrow : f.row = row := (hall f (mem_sortBy.1 (List.mem_of_head? hf))).2
    have hhere : ((x.slice i).queue.filter fun q => q.row == f.row) = (x.slice i).queue := List.filter_eq_self.2 fun q hq => by simp [(hall q hq).2, hrow]
    have hleft : ((x.slice i).queue.filter fun q => !(q.stamp == lap && q.row == f.row)) = [] := List.filter_eq_nil_iff.2 fun q hq => by
      simp [(hall q hq).1, (hall q hq).2, hrow]
    simp only [hhere, hleft]
    rw [hrow]
    rfl

section
variable {s : State} {r : Nat} {x : Region} {q u : ScanReq}

theorem State.serveRow_update {op : ScanOp} {d : List Byte} (h : q.update = some (op, d)) : s.serveRow r x [q] = s.applyUpdate r x q op d := by
  simp [State.serveRow, h, sortBy, insertBy, State.serveUpdate_some h]

theorem State.serveRow_read (h : q.update = none) : s.serveRow r x [q] = s.serveRead r x q := by
  simp [State.serveRow, h, sortBy]

/-- Of two updates the one of the lower port or sequence number is served first. -/
theorem ScanReq.sortBy_two {l : List ScanReq} (hl : l = [q, u] ∨ l = [u, q]) (hlt : q.port < u.port ∨ (q.port = u.port ∧ q.seq < u.seq)) :
    sortBy ScanReq.before l = [q, u] := by
  have hle : q.before u = true := by
    simp only [ScanReq.before, Bool.or_eq_true, Bool.and_eq_true, decide_eq_true_eq, beq_iff_eq]
    omega
  have hnle : u.before q = false := by
    simp only [ScanReq.before, Bool.or_eq_false_iff, Bool.and_eq_false_iff, decide_eq_false_iff_not, beq_eq_false_iff_ne]
    omega
  rcases hl with rfl | rfl
  · simp [sortBy, insertBy, hle]
  · simp [sortBy, insertBy, hnle]

theorem State.serveRow_two {l : List ScanReq} {op op' : ScanOp} {d d' : List Byte} (hl : l = [q, u] ∨ l = [u, q]) (hlt : q.port < u.port ∨ (q.port = u.port ∧ q.seq < u.seq))
    (hq : q.update = some (op, d)) (hu : u.update = some (op', d')) : s.serveRow r x l = (s.applyUpdate r x q op d).applyUpdate r x u op' d' := by
  have hsome : ∀ y ∈ l, y.update.isSome = true := by
    rcases hl with rfl | rfl <;> simp [hq, hu]
  have hups : (l.filter fun y => y.update.isSome) = l := List.filter_eq_self.2 hsome
  have hreads : (l.filter fun y => y.update.isNone) = [] := List.filter_eq_nil_iff.2 fun y hy => by simp [Option.isSome_iff_ne_none.1 (hsome y hy)]
  unfold State.serveRow
  rw [hups, hreads, ScanReq.sortBy_two hl hlt, List.foldl_nil, List.foldl_cons, List.foldl_cons, List.foldl_nil, State.serveUpdate_some hq, State.serveUpdate_some hu]

/-- Two SETs of one place are written one after the other. -/
theorem State.serveRow_sets {l : List ScanReq} {op op' : ScanOp} {d d' : List Byte} (hl : l = [q, u] ∨ l = [u, q]) (hlt : q.port < u.port ∨ (q.port = u.port ∧ q.seq < u.seq))
    (hq : q.update = some (op, d)) (hu : u.update = some (op', d')) (hop : op = .set) (hop' : op' = .set) (hrow : u.row = q.row) (hoff : u.off = q.off) :
    (s.serveRow r x l).mem = Memory.writeList (Memory.writeList s.mem (rowAddr r q.row + q.off) d) (rowAddr r q.row + q.off) d' := by
  rw [State.serveRow_two hl hlt hq hu, State.applyUpdate_set hop', State.applyUpdate_set hop, hrow, hoff]

end

/-! ### What a served row leaves (Table 7.2) -/

section
variable {s : State} (hq : s.quiet) {r : Nat} {x : Region} {q : ScanReq}
include hq

/-- An update leaves its bytes at its place of the row, and every other byte as it was. -/
theorem State.serveRow_bytes {op : ScanOp} {d : List Byte} (hu : q.update = some (op, d)) : (s.serveRow r x [q]).mem =
    Memory.writeList s.mem (rowAddr r q.row + q.off) (updateBytes op (Memory.readList s.mem (rowAddr r q.row + q.off) q.len) d) := by
  rw [State.serveRow_update hu, State.applyUpdate_mem hq]

/-- A SET leaves its bytes. -/
theorem State.serveRow_set {d : List Byte} (hu : q.update = some (.set, d)) : let a := rowAddr r q.row + q.off
    (∀ k < d.length, Memory.read (s.serveRow r x [q]).mem (a + k) = d.getD k 0) ∧
      ∀ b, (b < a ∨ a + d.length ≤ b) → Memory.read (s.serveRow r x [q]).mem b = Memory.read s.mem b := by
  intro a
  rw [State.serveRow_bytes hq hu]
  exact ⟨fun k hk => Memory.read_writeList_in _ _ _ hk, fun b hb => Memory.read_writeList_out _ _ _ hb⟩

/-- An update that acts on elements changes each by the old one and the one it brings. -/
theorem State.serveRow_elements {op : ScanOp} {w : Nat} {f : Nat → Nat → Nat} {d : List Byte} (he : scanElement op = some (w, f)) (hu : q.update = some (op, d))
    (hlen : q.len = d.length) (hd : d.length % w = 0) : let a := rowAddr r q.row + q.off
    (∀ k < d.length / w, leNat (Memory.readList (s.serveRow r x [q]).mem (a + w * k) w) = f (leNat (Memory.readList s.mem (a + w * k) w)) (leNat ((d.drop (w * k)).take w))) ∧
      ∀ b, (b < a ∨ a + d.length ≤ b) → Memory.read (s.serveRow r x [q]).mem b = Memory.read s.mem b := by
  intro a
  rw [State.serveRow_bytes hq hu, updateBytes_of_element he, hlen]
  exact ⟨fun k hk => Memory.readList_elementwise hd hk fun _ _ => scanElement_lt he,
    fun b hb => Memory.read_writeList_out _ _ _ (by rwa [length_elementwise, Memory.length_readList])⟩

/-- A read leaves its reply with the command that asked, and memory as it was. -/
theorem State.serveRow_reply (hu : q.update = none) : (s.serveRow r x [q]).mem = s.mem ∧ ∀ k, ∀ c ∈ ((s.serveRow r x [q]).stream k).cmds, c.id = q.cmd →
    c.reply = some (bytesRow (Memory.readList s.mem (rowAddr r q.row + q.off) q.len), BitVec.ofNat 64 (q.stamp % 2 ^ 32)) := by
  obtain ⟨pos, hserve⟩ := State.serveRead_of_quiet hq r x q
  rw [State.serveRow_read hu, hserve]
  refine ⟨rfl, fun k c hc hid => ?_⟩
  rw [State.cmds_mapCmd] at hc
  obtain ⟨b, -, rfl⟩ := List.mem_map.1 hc
  split at hid
  · next hb => rw [if_pos hb]
  · next hb => exact absurd hid hb

end

/-- Two SETs of the same bytes: the later one's stand. -/
theorem Memory.read_writeList_twice {m : Memory} {a : Nat} {d d' : List Byte} (h : d'.length = d.length) :
    (∀ k < d'.length, Memory.read (Memory.writeList (Memory.writeList m a d) a d') (a + k) = d'.getD k 0) ∧
      ∀ b, (b < a ∨ a + d.length ≤ b) → Memory.read (Memory.writeList (Memory.writeList m a d) a d') b = Memory.read m b :=
  ⟨fun _ hk => Memory.read_writeList_in _ _ _ hk, fun b hb => (Memory.read_writeList_out _ _ _ (by rwa [h])).trans (Memory.read_writeList_out _ _ _ hb)⟩

/-! ### Admission and replies of a stream (R172, R175, R177) -/

section
variable {s t : State} {sid r a n st dst off : Nat} {c : Cmd} {vq : Bool} (hk : c.kind = .scanRead r a n st vq dst)
include hk

theorem execScanAdmission_admits (hu : (s.stream sid).unadmitted = some c) (hrun : s.cmdsRun sid = true) (ht : s.tryAdmit sid c = (t, true)) :
    exec (.scanAdmission sid) s = .next (t.setStream sid ((t.stream sid).setCmd { c with admitted := true })) := by
  change execScanAdmission sid s = _
  unfold execScanAdmission
  simp only [hu, hrun, ht, Bool.not_true, Bool.false_eq_true, if_false]
  split
  · next h => rw [hk] at h; cases h
  · rfl

omit hk in
theorem execScanAdmission_waits (hu : (s.stream sid).unadmitted = some c) (hrun : s.cmdsRun sid = true) (ht : s.tryAdmit sid c = (s, false)) :
    exec (.scanAdmission sid) s = .next s := by
  change execScanAdmission sid s = _
  unfold execScanAdmission
  simp only [hu, hrun, ht, Bool.not_true, Bool.not_false, Bool.false_eq_true, if_false, if_true]

variable {row : Row} {status : Word} (hq : s.quiet) (hf : ((s.stream sid).cmds.find? fun d => d.delivers) = some c) (hr : c.reply = some (row, status))
  (hrun : (s.stream sid).run ≠ .free)
include hq hf hr hrun

theorem execScanReplyDeliver_fifo (hv : vq = true) : exec (.scanReplyDeliver sid) s =
    .next ((s.setStream sid { s.stream sid with vq := (s.stream sid).vq ++ [{ data := row, status := status }] }).finishCmd sid c) := by
  subst hv
  change execScanReplyDeliver sid s = _
  unfold execScanReplyDeliver
  simp only [hf, hk, hr, hrun, State.replyClear_of_idle hq.links, decide_false, Bool.not_true, Bool.or_self, Bool.false_eq_true, if_false, if_true]

theorem execScanReplyDeliver_scratchpad (hv : vq = false) (ho : s.spDvaRange sid dst (n + 8) = some off) (hw : (s.core (coreOf sid)).windows = [])
    (hm : s.mayWriteC sid c dst (n + 8) = true) (hbad : status.getLsbD 32 = false) : exec (.scanReplyDeliver sid) s =
    .next ((s.writeHome sid (.sp (coreOf sid) off) ((rowBytes row).take n ++ word8 status.toNat)).finishCmd sid c) := by
  have hwin : s.inWindow (coreOf sid) off (n + 8) = false := by
    unfold State.inWindow
    rw [hw]
    rfl
  subst hv
  change execScanReplyDeliver sid s = _
  unfold execScanReplyDeliver
  simp only [hf, hk, hr, hrun, State.replyClear_of_idle hq.links, ho, hwin, hm, hbad, State.settledHome_of_quiet hq, decide_false, Bool.not_true, Bool.or_self, Bool.false_and,
    Bool.false_eq_true, if_false]

end

theorem length_rowBytes (row : Row) : (rowBytes row).length = 1024 := by
  rw [rowBytes, List.length_map, length_elems]

/-- A reply in the scratchpad: the row's bytes, and the status word behind them (R172). -/
theorem Memory.read_reply (m : Memory) {off n : Nat} (hn : n ≤ 1024) (row : Row) (status b : Nat) :
    Memory.read (Memory.writeList m off ((rowBytes row).take n ++ word8 status)) b = if off ≤ b ∧ b < off + n then (rowBytes row).getD (b - off) 0
      else if off + n ≤ b ∧ b < off + n + 8 then (leBytes 8 status).getD (b - off - n) 0 else Memory.read m b := by
  have htake : ((rowBytes row).take n).length = n := by rw [List.length_take, length_rowBytes]; exact Nat.min_eq_left hn
  have hlen : ((rowBytes row).take n ++ word8 status).length = n + 8 := by rw [List.length_append, htake, word8, leBytes_length]
  by_cases hin : off ≤ b ∧ b < off + (n + 8)
  · obtain ⟨i, rfl⟩ := Nat.exists_eq_add_of_le hin.1
    have hi : i < n + 8 := by omega
    rw [Memory.read_writeList_in _ _ _ (hlen.symm ▸ hi)]
    by_cases hrow : i < n
    · rw [if_pos (by omega), List.getD_append _ _ _ _ (htake.symm ▸ hrow), Nat.add_sub_cancel_left, List.getD_eq_getElem?_getD, List.getElem?_take_of_lt hrow,
        List.getD_eq_getElem?_getD]
    · rw [if_neg (by omega), if_pos (by omega), List.getD_append_right _ _ _ _ (htake.trans_le (Nat.not_lt.1 hrow)), htake, Nat.add_sub_cancel_left]
      rfl
  · rw [Memory.read_writeList_out _ _ _ (by omega), if_neg (by omega), if_neg (by omega)]

/-! ### A release ends (R161) -/

theorem execScanRegionRelease_frees {s : State} {r : Nat} {x : Region} (hx : s.region r = some x) (hrel : x.releasing = true) (he : s.emptied r x = true)
    (hw : ∀ q ∈ s.traps, x.waiter ≠ some q.sid) : exec (.scanRegionRelease r) s = .next (s.freeRegion r x) := by
  have hnone : (s.traps.find? fun t => x.waiter == some t.sid && t.svc == 2) = none := List.find?_eq_none.2 fun q hq => by simp [hw q hq]
  change execScanRegionRelease r s = _
  unfold execScanRegionRelease State.tryRelease
  simp only [hx, hrel, he, hnone, Bool.and_self, if_true]

theorem State.region_freeRegion (s : State) (r : Nat) (x : Region) (k : Nat) : (s.freeRegion r x).region k = if k = r then none else s.region k := by
  change Tab.find (Tab.erase s.regions r) k = _
  rw [Tab.erase, Tab.find_filter fun a => a != r]
  by_cases h : k = r <;> simp [h, State.region]

/-! ### The clauses of O42 -/

/-- What the markers tell a slice is not changed by a new state of the slice. -/
theorem Region.markersIn_setSlice {x : Region} {i : Nat} {y : Slice} (h : y.markers = (x.slice i).markers) (lap : Nat) : (x.setSlice i y).markersIn i lap = x.markersIn i lap := by
  unfold Region.markersIn
  rw [Region.slice_setSlice, h]
  rfl

section
variable {s : State} {r i port lap row : Nat} {x : Region} (hl : s.linksIdle) (hx : s.region r = some x)
include hl hx

/-- A close marker reaches its slice, which waits on or begins its pass (R165, Table 7.5). -/
theorem closeMarker_arrives (hm : (x.pend.find? fun m => m.1 == i && m.2.1 == port) = some (i, port, lap)) (hn : s.noneWaiting r port lap = true) (hs : x.stepped = true)
    (hst : (x.slice i).st = .wait lap) (hw : (x.slice i).hasWork lap = true) :
    Completes (.closeMarkerArrive r i port) s fun t => t.mem = s.mem ∧ ∃ y, t.region r = some y ∧ y.pend = x.pend.erase (i, port, lap) ∧
      (y.slice i).markers = (x.slice i).markers ++ [(port, lap)] ∧ (y.slice i).queue = (x.slice i).queue ∧ (∀ k, k ≠ i → y.slice k = x.slice k) ∧
      (y.slice i).st = (if x.parts.all (fun p => ((x.slice i).markers ++ [(port, lap)]).contains (p, lap)) then .pass lap 0 else .wait lap) := by
  obtain ⟨honly, hother, -, -⟩ := (x.marked i port lap).goOn_movedOn i
  have hslice : (x.marked i port lap).slice i = { x.slice i with markers := (x.slice i).markers ++ [(port, lap)] } := x.slice_setSlice i _
  have hmark : (x.marked i port lap).markersIn i lap = x.parts.all fun p => ((x.slice i).markers ++ [(port, lap)]).contains (p, lap) := by
    unfold Region.markersIn
    rw [hslice]
    exact if_pos hs
  have hgo := Region.slice_goOn (x := x.marked i port lap) (by rw [hslice]; exact hst) (by rw [hslice]; exact hw)
  rw [hmark, hslice] at hgo
  refine ⟨_, execCloseMarkerArrive_arrives hx hl hm hn, State.mem_putRegion .., _, State.region_putRegion .., (congrArg Region.pend honly :), ?_, ?_, fun k hk => ?_, ?_⟩
  · exact (congrArg Slice.markers hgo :)
  · exact (congrArg Slice.queue hgo :)
  · exact (hother k hk).trans (x.slice_setSlice_ne _ hk)
  · exact (congrArg Slice.st hgo :)

/-- A slice writes a row to zero, and after its last one waits for lap 0 or begins its pass (Table 7.5). -/
theorem sliceRow_zeroed (hi : i < x.count) (hst : (x.slice i).st = .zero row) : Completes (.sliceZeroRow r i) s fun t =>
    (∀ b, Memory.read t.mem b = if rowAddr r (row * x.count + i) ≤ b ∧ b < rowAddr r (row * x.count + i) + 1024 then 0 else Memory.read s.mem b) ∧
      ∃ y, t.region r = some y ∧ (row + 1 < x.nrow → (y.slice i).st = .zero (row + 1)) ∧
        (¬ row + 1 < x.nrow → (x.markersIn i 0 = false → (y.slice i).st = .wait 0) ∧
          (x.markersIn i 0 = true → (x.slice i).hasWork 0 = true → (y.slice i).st = .pass 0 0)) ∧ (y.slice i).queue = (x.slice i).queue ∧
        ∀ k, k ≠ i → y.slice k = x.slice k := by
  by_cases hrow : row + 1 < x.nrow
  · refine ⟨_, execSliceZeroRow_next hx hi hst hrow, State.read_zeroRow (State.mem_setRegion ..), _, State.region_setRegion .., fun _ => ?_, fun h => absurd hrow h, ?_,
      fun k hk => x.slice_setSlice_ne _ hk⟩ <;> rw [Region.slice_setSlice]
  · let z := x.setSlice i { x.slice i with st := .wait 0 }
    have hz : z.slice i = { x.slice i with st := .wait 0 } := x.slice_setSlice i _
    have hm : z.markersIn i 0 = x.markersIn i 0 := Region.markersIn_setSlice (x := x) (y := { x.slice i with st := .wait 0 }) rfl 0
    obtain ⟨-, hother, hqueue, -⟩ := z.goOn_movedOn i
    refine ⟨_, execSliceZeroRow_last hx hl hi hst hrow, State.read_zeroRow (State.mem_putRegion ..), _, State.region_putRegion .., fun h => absurd h hrow,
      fun _ => ⟨fun hno => ?_, fun hin hw => ?_⟩, hqueue.trans (by rw [hz]), fun k hk => (hother k hk).trans (x.slice_setSlice_ne _ hk)⟩
    · change ((z.goOn i).slice i).st = _
      rw [Region.goOn_waits (by rw [hz]) (hm.trans hno), hz]
    · change ((z.goOn i).slice i).st = _
      rw [Region.goOn_begins (l := 0) (by rw [hz]) (hm.trans hin) (by rw [hz]; exact hw), Region.slice_setSlice]

/-- The cursor passes the last row: the slice waits for a later lap, and laps that every slice has served are shown (R167, Table 7.5). -/
theorem slicePass_ends (hst : (x.slice i).st = .pass lap row) (hw : (x.slice i).hasWork lap = false) : Completes (.slicePassEnd r i) s fun t => t.mem = s.mem ∧
    ∃ y, t.region r = some y ∧ lap + 1 ≤ (y.slice i).lap ∧ (y.slice i).queue = (x.slice i).queue ∧ y.served = Nat.max x.served y.servedNow ∧
      (x.served < y.servedNow → ∀ k, r ∈ (s.stream k).subs → (s.stream k).ident.wid = x.wid → (t.stream k).evt = (s.stream k).evt ||| 8) := by
  let z := x.setSlice i { x.slice i with st := .wait (lap + 1), markers := (x.slice i).markers.filter fun m => decide (lap < m.2) }
  have hz : z.slice i = { x.slice i with st := .wait (lap + 1), markers := (x.slice i).markers.filter fun m => decide (lap < m.2) } := x.slice_setSlice i _
  obtain ⟨honly, -, hqueue, hlap⟩ := z.goOn_movedOn i
  have hserved : (z.goOn i).served = x.served := (congrArg Region.served honly :)
  have hwid : (z.goOn i).wid = x.wid := (congrArg Region.wid honly :)
  refine ⟨_, execSlicePassEnd_ends hx hl hst hw, State.mem_putRegion .., _, State.region_putRegion .., ?_, hqueue.trans (by rw [hz]), ?_, fun hlt k hsub hk => ?_⟩
  · rw [hz] at hlap
    exact hlap
  · exact congrArg (Nat.max · (z.goOn i).servedNow) hserved
  · have hsubscribed : (s.stream k).subscribed r (z.goOn i).wid = true := by simp [Stream.subscribed, hsub, hk, hwid]
    rw [State.stream_putRegion (fun _ => rfl) (hserved.trans_lt hlt), hsubscribed]
    rfl

end

section
variable {s : State} {sid r a n st dst off p : Nat} {c : Cmd} {x : Region} {vq : Bool} (hq : s.quiet) (hk : c.kind = .scanRead r a n st vq dst)
include hq hk

/-- A waiting request that finds room is admitted: it stands last in its slice's queue (R177). -/
theorem waitingRead_admitted (hu : (s.stream sid).unadmitted = some c) (hrun : s.cmdsRun sid = true) (hx : s.region r = some x) (hp : s.portOf sid r = some p)
    (hr : x.roomFor (x.place a).2.1 p = true) (ho : vq = true → (s.stream sid).owed ≤ 16) :
    Completes (.scanAdmission sid) s fun t => (∀ d ∈ (t.stream sid).cmds, d.id = c.id → d.admitted = true) ∧
      ∃ y q, t.region r = some y ∧ (y.slice (x.place a).2.1).queue = (x.slice (x.place a).2.1).queue ++ [q] ∧ q.stamp = st ∧ q.port = p ∧ q.cmd = c.id := by
  obtain ⟨y, hy, hqueue, -⟩ := s.enqueueScan_spec r x p st a n sid c.id none
  refine ⟨_, execScanAdmission_admits hk hu hrun (State.tryAdmit_read hq.links hx hp hk hr ho), fun d hd hid => ?_, y, x.request p st a n sid c.id none, ?_, hqueue, rfl, rfl, rfl⟩
  · rw [State.stream_setStream] at hd
    obtain ⟨-, hne⟩ | ⟨rfl, -⟩ := Stream.mem_setCmd.1 hd
    · exact absurd hid hne
    · rfl
  · rw [hy]
    exact State.region_setRegion s r y

variable {row : Row} {status : Word} (hf : ((s.stream sid).cmds.find? fun d => d.delivers) = some c) (hr : c.reply = some (row, status)) (hrun : (s.stream sid).run ≠ .free)
  (hn : (s.stream sid).noNotes)
include hf hr hrun hn

/-- The oldest reply goes to the C→V FIFO (R172). -/
theorem reply_toFifo (hv : vq = true) : Completes (.scanReplyDeliver sid) s fun t =>
    (t.stream sid).vq = (s.stream sid).vq ++ [{ data := row, status := status }] ∧ t.mem = s.mem ∧ t.cores = s.cores ∧ ∀ d ∈ (t.stream sid).cmds, d.id = c.id → d.done = true := by
  let u := s.setStream sid { s.stream sid with vq := (s.stream sid).vq ++ [{ data := row, status := status }] }
  have hu : u.stream sid = { s.stream sid with vq := (s.stream sid).vq ++ [{ data := row, status := status }] } := State.stream_setStream ..
  have hc : ∀ g, c.kind ≠ .note g := fun g hg => by rw [hk] at hg; cases hg
  have hnotes : (u.stream sid).noNotes := hu ▸ hn
  obtain ⟨honly, -⟩ := State.finishCmd_spec hc hnotes
  obtain ⟨hdone, hvq⟩ := State.stream_finishCmd hc hnotes
  exact ⟨_, execScanReplyDeliver_fifo hk hq hf hr hrun hv, hvq.trans (by rw [hu]), (congrArg State.mem honly :), (congrArg State.cores honly :), hdone⟩

/-- The oldest reply goes to the scratchpad, its status word behind it (R172, R175). -/
theorem reply_toScratchpad (hv : vq = false) (ho : s.spDvaRange sid dst (n + 8) = some off) (hlen : n ≤ 1024) (hw : (s.core (coreOf sid)).windows = [])
    (hm : s.mayWriteC sid c dst (n + 8) = true) (hbad : status.getLsbD 32 = false) : Completes (.scanReplyDeliver sid) s fun t => t.mem = s.mem ∧
      (∀ b, Memory.read (t.core (coreOf sid)).sp b = if off ≤ b ∧ b < off + n then (rowBytes row).getD (b - off) 0
        else if off + n ≤ b ∧ b < off + n + 8 then (leBytes 8 status.toNat).getD (b - off - n) 0 else Memory.read (s.core (coreOf sid)).sp b) ∧
      ∀ d ∈ (t.stream sid).cmds, d.id = c.id → d.done = true := by
  obtain ⟨hcores, -, hsp⟩ := State.writeHome_sp hq.1 sid (coreOf sid) off ((rowBytes row).take n ++ word8 status.toNat)
  have hexec := execScanReplyDeliver_scratchpad hk hq hf hr hrun hv ho hw hm hbad
  generalize s.writeHome sid (.sp (coreOf sid) off) ((rowBytes row).take n ++ word8 status.toNat) = u at hcores hsp hexec
  have hc : ∀ g, c.kind ≠ .note g := fun g hg => by rw [hk] at hg; cases hg
  have hnotes : (u.stream sid).noNotes := by
    rw [hcores]
    exact hn
  obtain ⟨honly, -⟩ := State.finishCmd_spec hc hnotes
  obtain ⟨hdone, -⟩ := State.stream_finishCmd hc hnotes
  refine ⟨_, hexec, (congrArg State.mem honly :).trans (congrArg State.mem hcores :), fun b => ?_, hdone⟩
  rw [← Memory.read_reply (s.core (coreOf sid)).sp hlen row status.toNat b, ← hsp]
  exact congrArg (fun l : Tab Core => Memory.read (Tab.get Core.reset l (coreOf sid)).sp b) (congrArg State.cores honly :)

end

/-- The element operation and width of each update on floats. -/
theorem scanElement_floats : ∀ op ∈ [(ScanOp.addF32, 4, addAt .f32), (.addBf16, 2, addAt .bf16), (.addF16, 2, addAt .f16), (.maxF32, 4, maxAt .f32), (.minF32, 4, minAt .f32)],
    scanElement op.1 = some op.2 := by
  simp [scanElement]

/-- Settles O42: each step of a slice and each step of a stream's scanned requests by its own lemma. -/
theorem slicesServe : Obligations.SlicesServe := by
  unfold Obligations.SlicesServe
  refine ⟨fun s r i port lap row x hl hx => ⟨fun hst hrel hmade hw hnow hb => ?_, closeMarker_arrives hl hx, execCloseMarkerArrive_waits hx, fun hi hst _ => sliceRow_zeroed hl hx hi hst,
      slicePass_ends hl hx, execSlicePassEnd_waits hx⟩,
    fun s r i lap cur a x q u d d' hq hx hst hstamp hc ha hlen => ⟨fun hone => ?_, fun htwo hqd hud hu hrow hoff hul hd hlt => ?_⟩,
    fun s sid r n a st dst off c x row status vq hq => ⟨fun hu hrun hk hx p hp => ⟨fun hr ho => waitingRead_admitted hq hk hu hrun hx hp hr ho, fun hfull => ?_⟩,
      fun hf hk hr hrun hn => ⟨reply_toFifo hq hk hf hr hrun hn, reply_toScratchpad hq hk hf hr hrun hn⟩, fun hx hrel he hw => ?_⟩⟩
  · exact ⟨_, execLapBell_rings hx hst hrel hmade hw hnow hb, rfl, rfl, _, State.region_setRegion .., rfl, rfl, rfl, rfl⟩
  · subst ha
    have hexec := execSliceRowServe_serves (row := q.row) hx hst (by simp [hone]) (by simp [hone, hstamp]) hc
    rw [hone] at hexec
    refine ⟨fun hset => ⟨_, hexec, ?_⟩, fun hadd hd => ⟨_, hexec, ?_⟩, fun op hop hup hd => ⟨_, hexec, ?_⟩, fun hread _ => ⟨_, hexec, ?_⟩⟩ <;> simp only [State.mem_setRegion]
    · obtain ⟨hin, hout⟩ := State.serveRow_set hq (r := r) (x := x) hset
      exact ⟨hin, hout, _, State.region_setRegion .., Region.slice_setSlice ..⟩
    · exact State.serveRow_elements hq (w := 4) (f := addAt .i32) rfl hadd hlen hd
    · exact State.serveRow_elements hq (scanElement_floats op hop) hup hlen hd
    · rw [← hstamp]
      exact State.serveRow_reply hq hread
  · subst ha
    have hexec := execSliceRowServe_serves (row := q.row) hx hst (by rcases htwo with h | h <;> simp [h]) (by rcases htwo with h | h <;> simp [h, hstamp, hu, hrow]) hc
    refine ⟨_, hexec, ?_⟩
    simp only [State.mem_setRegion, State.serveRow_sets htwo hlt hqd hud rfl rfl hrow hoff]
    exact Memory.read_writeList_twice hd
  · exact execScanAdmission_waits hu hrun (State.tryAdmit_full hq.links hx hp hk hfull)
  · refine ⟨_, execScanRegionRelease_frees hx hrel he hw, (s.region_freeRegion r x r).trans (if_pos rfl), fun k hk => (s.region_freeRegion r x k).trans (if_neg hk),
      fun b => Memory.read_clear .., fun p hp => ?_⟩
    obtain ⟨hmem, hkeep⟩ := List.mem_filter.1 hp
    exact ⟨hmem, fun ⟨hwid, hlo, hhi⟩ => by simp [hwid, hlo, hhi] at hkeep⟩

end Sys2Proof.Machine
end
